-- ==== Sys2Proof/Word.lean ====
section
/-! DEFINITION. The word types of the Zilush Z8 module (R6, R11) and sparse data by key. -/

namespace Sys2Proof

/-- A g register, an address before its checks, a dword. -/
abbrev Word := BitVec 64
/-- One byte of memory or of local store. -/
abbrev Byte := BitVec 8
/-- One vector lane (R116). -/
abbrev Lane := BitVec 32
/-- A vector register: 16 lanes, lane 0 first (R11). -/
abbrev Vec := Vector Lane 16
/-- A program counter: a 57-bit virtual address (R11, R38). -/
abbrev Pc := BitVec 57
/-- Sparse data: pairs of a key and a value, keys rising; a key not listed reads as a default. -/
abbrev Sparse (α : Type) := List (Nat × α)

end Sys2Proof
end

