-- ==== Sys2Proof/Machine/Bits.lean ====
section
/-! DEFINITION. Bit fields, sign extension and byte order (R6, R39, R86). -/

namespace Sys2Proof.Machine

/-- Bits [hi:lo] of `x`, as an unsigned integer (`bits` of R86). -/
def bitsN (x hi lo : Nat) : Nat := x / 2 ^ lo % 2 ^ (hi + 1 - lo)

/-- Bits [hi:lo] of the two's-complement representation of the integer `x` (`bits` of R86). -/
def bitsI (x : Int) (hi lo : Nat) : Nat := (x / 2 ^ lo % 2 ^ (hi + 1 - lo)).toNat

/-- The `n`-bit field `x` read as two's complement (`sext` of R86). -/
def sextN (x n : Nat) : Int :=
  let y := x % 2 ^ n
  if 2 * y < 2 ^ n then (y : Int) else (y : Int) - 2 ^ n

/-- The low 64 bits of an integer: the value a g register takes (R89). -/
def wordOfInt (x : Int) : Word := BitVec.ofInt 64 x

/-- Little-endian value of a byte list (R6). -/
def leNat : List Byte → Nat
  | [] => 0
  | b :: bs => b.toNat + 256 * leNat bs

/-- The low `n` bytes of `x`, little-endian (R6). -/
def leBytes : Nat → Nat → List Byte
  | 0, _ => []
  | n + 1, x => BitVec.ofNat 8 x :: leBytes n (x / 256)

/-- Bit `i` of `x`. -/
def bitAt (x i : Nat) : Bool := x / 2 ^ i % 2 == 1

def b2n (b : Bool) : Nat := if b then 1 else 0

/-- `x` with bits [lo+w-1:lo] replaced by the low `w` bits of `v`. -/
def setBits (x lo w v : Nat) : Nat :=
  x % 2 ^ lo + 2 ^ lo * (v % 2 ^ w) + 2 ^ (lo + w) * (x / 2 ^ (lo + w))

/-- The smallest integer at or above `a / b` (`b` positive). -/
def ceilDiv (a b : Nat) : Nat := (a + b - 1) / b

/-- One bit of `crc32`. -/
def crcBit (c : BitVec 32) : BitVec 32 := if c.getLsbD 0 then (c >>> 1) ^^^ 0xEDB88320 else c >>> 1

/-- CRC-32 with polynomial 0x04C1_1DB7, reflected, over bytes. -/
def crc32 : BitVec 32 → List Byte → BitVec 32
  | c, [] => c
  | c, b :: bs =>
    let x := c ^^^ b.setWidth 32
    crc32 (crcBit (crcBit (crcBit (crcBit (crcBit (crcBit (crcBit (crcBit x)))))))) bs

end Sys2Proof.Machine
end

