-- ==== Sys2Proof/Syntax.lean ====
section
/-! DEFINITION. The instructions of Thrum and the machine's events: one constructor for each row of
the opcode table. An instruction's constructor carries its guard and its operand fields; an event's
constructor carries the choice that the event makes among those the manual allows, or the data that
it brings from outside the module. -/

namespace Sys2Proof

/-- The guard of an instruction: a predicate and whether it is complemented (R39, R49). -/
structure Guard where
  p   : Fin 8
  neg : Bool
  deriving DecidableEq, Repr

/-- The sixteen type codes in code order (R41). -/
inductive Ty
  | i8 | i16 | i32 | i64 | n8 | n16 | n32 | n64 | i4 | n4 | f32 | bf16 | f16 | e4m3 | e5m2 | e2m1
  deriving DecidableEq, Repr

/-- Order codes 0 to 5 (R41). -/
inductive Order | plain | rlx | acq | rel | ar | sc
  deriving DecidableEq, Repr

/-- Scope codes 0 to 5 (R41). -/
inductive Scope | str | core | clu | die | mod | chm
  deriving DecidableEq, Repr

/-- Rounding codes 0 to 3 (R41). -/
inductive Round | rne | rtz | rdn | rup
  deriving DecidableEq, Repr

/-- Conditions of `cmp` and `vcmp`, codes 0 to 5 (R93). -/
inductive Cond | eq | ne | lt | le | gt | ge
  deriving DecidableEq, Repr

/-- Record formats, minors 0 to 4 (R178). -/
inductive Fmt | l2 | l3 | l4 | t3 | l8
  deriving DecidableEq, Repr

/-- The B position of a scalar instruction: a register or an immediate (R90). -/
inductive BSrc
  | reg (b : Fin 32)
  | imm16 (i : BitVec 16)
  | imm32 (i : BitVec 32)
  deriving DecidableEq, Repr

/-- A displacement or offset in its 16-bit (64-bit word) or 32-bit (96-bit word) field (R87). -/
inductive Disp
  | d16 (i : BitVec 16)
  | d32 (i : BitVec 32)
  deriving DecidableEq, Repr

/-- The value of `li` in each length (R97). -/
inductive LiImm
  | i16 (i : BitVec 16)
  | i32 (i : BitVec 32)
  | i64 (i : BitVec 64)
  deriving DecidableEq, Repr

/-- The target of `jmp` in each length (R98). -/
inductive JmpT
  | i32 (i : BitVec 32)
  | i64 (i : BitVec 64)
  deriving DecidableEq, Repr

/-- The length operand of `nop` (R53). -/
inductive NopLen | b8 | b12 | b16
  deriving DecidableEq, Repr

/-- A field of a system register: lowest bit and width minus 1 (R101). -/
structure RegField where
  lo : Fin 64
  w1 : Fin 64
  deriving DecidableEq, Repr

/-- A two-operand integer instruction (R90). -/
structure Alu2 where
  gd : Guard
  d : Fin 32
  a : Fin 32
  b : BSrc
  ty : Ty
  sat : Bool
  deriving DecidableEq, Repr

/-- A one-operand integer instruction (R92). -/
structure Alu1 where
  gd : Guard
  d : Fin 32
  a : Fin 32
  ty : Ty
  deriving DecidableEq, Repr

/-- A memory operand of the scalar memory instructions (R104). `sp`: the core's own local store. -/
structure Mem where
  a : Fin 32
  b : Fin 32
  sc : Fin 4
  sp : Bool
  disp : Disp
  deriving DecidableEq, Repr

/-- An atomic instruction other than `acas` (R221). -/
structure Atom where
  gd : Guard
  d : Fin 32
  a : Fin 32
  b : Fin 32
  disp : Disp
  ty : Ty
  order : Order
  scope : Scope
  deriving DecidableEq, Repr

/-- A mask or a g register (`xjoin`, R112). -/
inductive MaskSrc
  | imm (m : BitVec 16)
  | reg (a : Fin 32)
  deriving DecidableEq, Repr

/-- The count of `cadv` and `cwait` (R158). -/
inductive CntSrc
  | imm (k : BitVec 9)
  | reg (a : Fin 32)
  deriving DecidableEq, Repr

/-- The operation set of `hnew`, `hwiden` and `hnarrow` (R297). -/
inductive OpsSrc
  | imm (m : BitVec 16)
  | reg (b : Fin 32)
  deriving DecidableEq, Repr

/-- A cistern qualifier: wait count minus 1 and the advance mark (R47). -/
structure CQual where
  wait : Fin 8
  adv : Bool
  deriving DecidableEq, Repr

/-- A field of class v: a vector register or a cistern (R43). -/
inductive VOp
  | v (n : Fin 16)
  | c (n : Fin 16)
  deriving DecidableEq, Repr

/-- The B position of a vector instruction: class v, or a g register in every lane (R117). -/
inductive VB
  | vec (x : VOp)
  | scal (b : Fin 32)
  deriving DecidableEq, Repr

/-- A field of class e: a g register holding a local-store address, or a cistern (R43, R174). -/
inductive EOp
  | ls (n : Fin 32)
  | c (n : Fin 16)
  deriving DecidableEq, Repr

/-- The local side of a copy: a g register or, with `cs`, a cistern (R274). -/
inductive LSide
  | ls (n : Fin 32)
  | c (n : Fin 16)
  deriving DecidableEq, Repr

/-- A lane-wise form with two sources (R120). -/
structure VBin where
  gd : Guard
  d : VOp
  a : VOp
  b : VB
  ty : Ty
  sat : Bool
  round : Round
  cq : Option CQual
  deriving DecidableEq, Repr

/-- A lane-wise form with one source (R120). -/
structure VUn where
  gd : Guard
  d : VOp
  a : VOp
  ty : Ty
  sat : Bool
  cq : Option CQual
  deriving DecidableEq, Repr

/-- `vfma` and `vfms` (R121). -/
structure VTri where
  gd : Guard
  d : VOp
  a : VOp
  b : VB
  c : VOp
  round : Round
  cq : Option CQual
  deriving DecidableEq, Repr

/-- `vld` and `vst` (R128); in `vst` the field `d` is the data source. -/
structure VMem where
  gd : Guard
  d : VOp
  a : Fin 32
  disp : Disp
  sp : Bool
  ty : Ty
  order : Order
  scope : Scope
  cq : Option CQual
  deriving DecidableEq, Repr

/-- `vgath` and `vscat` (R128): `b` holds one index per lane. -/
structure VIdx where
  gd : Guard
  d : VOp
  a : Fin 32
  b : VOp
  sc : Fin 4
  disp : Disp
  sp : Bool
  ty : Ty
  order : Order
  scope : Scope
  cq : Option CQual
  deriving DecidableEq, Repr

/-- The forms of `vbcast` (R124). -/
inductive BcastSrc
  | scal (a : Fin 32)
  | lane (a : VOp) (l : Fin 16)
  deriving DecidableEq, Repr

/-- The forms of `vmov` (R124). -/
inductive VmovForm
  | vec (d a : VOp)
  | toG (d : Fin 32) (a : VOp) (l : Fin 16)
  | fromG (d : VOp) (a : Fin 32) (l : Fin 16)
  deriving DecidableEq, Repr

/-- A special function (R131). -/
structure Spec where
  gd : Guard
  d : VOp
  a : VOp
  acc : Bool
  cq : Option CQual
  deriving DecidableEq, Repr

/-- `ldot` and `ldot2` (R180). -/
structure Dot where
  gd : Guard
  w : Fin 64
  act : EOp
  rcd : EOp
  k : Fin 8
  fmt : Fmt
  ty : Ty
  cq : Option CQual
  deriving DecidableEq, Repr

/-- `lgang` and `lrot` (R213): `n1` is n minus 1. -/
structure Joint where
  gd : Guard
  w : Fin 64
  a : Fin 32
  b : Fin 32
  n1 : BitVec 8
  fmt : Fmt
  ty : Ty
  deriving DecidableEq, Repr

/-- `hcopy`, `hgath`, `hscat` (R274): status `d`, handle `a`, local side, descriptor or list `c`. -/
structure Copy where
  gd : Guard
  d : Fin 32
  a : Fin 32
  b : LSide
  c : Fin 32
  deriving DecidableEq, Repr

/-- The collectives (R355). -/
structure Coll where
  gd : Guard
  d : Fin 32
  a : Fin 32
  b : Fin 32
  ty : Ty
  round : Round
  deriving DecidableEq, Repr

/-- A write of a module register arriving at the hub (R317): bits [lo+width-1:lo] of register `reg`
take the low bits of `value`. `core` is the issuing core, `none` when the host writes. -/
structure RegWrite where
  reg : Nat
  lo : Nat
  width : Nat
  value : Word
  core : Option Nat
  priv : Bool
  deriving DecidableEq, Repr

/-- The integer atomics (R221). -/
inductive AtomOp | aadd | amin | amax | aand | aor | axor | aswap | acas
  deriving DecidableEq, Repr

/-- What an importer's request asks of a handle (R297, R302, R351). -/
inductive HandleAsk
  | free
  | widen (ops : BitVec 16)
  | narrow
  | query (sel : Nat)
  | hand
  deriving DecidableEq, Repr

/-- What a flit carries for this module (R343 to R346, R349, R351, R364); `src`: the module that sent it. What has an
event of its own (a collective flit, a reply, the view protocol) is `none` here. -/
inductive FlitLoad
  | none
  /-- `mask`: the bits of each byte that are stored, every bit where it is empty. -/
  | store (src addr : Nat) (bytes mask : List Byte)
  | load (src addr n : Nat)
  | atomic (src addr : Nat) (op : AtomOp) (ty : Ty) (b c : Word)
  /-- Elements (i0, row, value) for a handle that this module has exported. -/
  | rows (src : Nat) (h : Word) (els : List (Nat × Nat × Nat))
  /-- The source asks for a row of such a handle. -/
  | rowRead (src : Nat) (h : Word) (row : Nat)
  /-- A request on such a handle reaches its Lapidary (R351). -/
  | lap (src : Nat) (h : Word) (ask : HandleAsk)
  /-- A line of module `mod`'s memory, for the hub's copies. -/
  | line (mod addr : Nat) (bytes : List Byte)
  /-- A flit about `addr` on its way to module `dest`. -/
  | transit (dest addr : Nat) (payload : List Byte)
  /-- The partner has every flit of a channel before `seq`. -/
  | ack (vc : Fin 8) (seq : Nat)
  /-- The partner asks for a channel again from `seq`. -/
  | replay (vc : Fin 8) (seq : Nat)
  /-- New flits come under the new key, from these sequence numbers of the channels on. -/
  | keyNotice (first : List Nat)
  /-- The partner has room for `n` more flits of a channel (R343, R344). -/
  | credit (vc : Fin 8) (n : Nat)
  | joinRequest (src : Nat) (chamber : Fin 256) (route : Nat)
  /-- The contact of a `kjoin` of this module is no member. -/
  | noMember (chamber : Fin 256)
  deriving DecidableEq, Repr

/-- A partial sum of one cell in a collective flit (R357): V with its extension, so that the sum stays exact. -/
structure CellPart where
  s : BitVec 160
  vx : Bool
  ho : Bool
  deriving DecidableEq, Repr

/-- The contents of a collective flit (R352, R357): sender rank, ring step, the next partial sums or finished elements
of the step's block, and the span of contributors. -/
structure CollFlit where
  chamber : Nat
  view : Nat
  mode : Bool
  srcRank : Nat
  step : Nat
  spanStart : Nat
  spanLen : Nat
  cells : List CellPart
  elems : List Nat
  deriving DecidableEq, Repr

/-- The members that a change of view is about, by route index: lost, dropped by `kview.drop`, and joining (R361, R364). -/
structure ViewSet where
  lost : List Nat := []
  dropped : List Nat := []
  joined : List Nat := []
  deriving DecidableEq, Repr

/-- Another module's waiting `kview`: its route index, list and E4M3 mode (R359). -/
structure ViewReq where
  route : Nat
  list : List Nat
  mode : Bool
  deriving DecidableEq, Repr

/-- One instruction of Thrum, or one event of the machine: one constructor per row of the table. -/
inductive Instr
  -- integer arithmetic and logic (R88 to R97)
  | add (x : Alu2)
  | sub (x : Alu2)
  | mul (x : Alu2)
  | mulh (x : Alu2)
  | div (x : Alu2)
  | rem (x : Alu2)
  | and (x : Alu2)
  | or (x : Alu2)
  | xor (x : Alu2)
  | andn (x : Alu2)
  | shl (x : Alu2)
  | shr (x : Alu2)
  | sar (x : Alu2)
  | rol (x : Alu2)
  | clz (x : Alu1)
  | ctz (x : Alu1)
  | popc (x : Alu1)
  | min (x : Alu2)
  | max (x : Alu2)
  | sel (gd : Guard) (d a b : Fin 32) (c : Fin 8)
  | cmp (gd : Guard) (cond : Cond) (ty : Ty) (d : Fin 8) (a : Fin 32) (b : BSrc)
  | bext (gd : Guard) (d a : Fin 32) (pos w1 : Fin 64) (s : Bool)
  | bins (gd : Guard) (d a : Fin 32) (pos w1 : Fin 64)
  | lea (gd : Guard) (d a b : Fin 32) (sc : Fin 4) (disp : Disp)
  | mov (x : Alu1)
  | li (gd : Guard) (d : Fin 32) (i : LiImm)
  -- control (R53, R98 to R103)
  | nop (n : NopLen)
  | br (gd : Guard) (off : Disp)
  | jmp (gd : Guard) (t : JmpT)
  | jal (gd : Guard) (d : Fin 32) (off : Disp)
  | jr (gd : Guard) (d a : Fin 32) (disp : BitVec 16)
  | ret (gd : Guard) (a : Fin 32)
  | loop (gd : Guard) (d : Fin 32) (off : Disp)
  | trap (gd : Guard) (code : BitVec 16)
  | sysrd (gd : Guard) (d : Fin 32) (reg : BitVec 16) (f : Option RegField)
  | syswr (gd : Guard) (a : Fin 32) (reg : BitVec 16) (f : Option RegField)
  | thaw (gd : Guard) (d a : Fin 32)
  -- memory (R104 to R109, R162)
  | ld (gd : Guard) (d : Fin 32) (m : Mem) (ty : Ty) (order : Order) (scope : Scope)
  | st (gd : Guard) (d : Fin 32) (m : Mem) (ty : Ty) (order : Order) (scope : Scope)
  | ldp (gd : Guard) (d c : Fin 32) (m : Mem) (order : Order) (scope : Scope)
  | stp (gd : Guard) (d c : Fin 32) (m : Mem) (order : Order) (scope : Scope)
  | fence (gd : Guard) (order : Order) (scope : Scope)
  | qfence (gd : Guard) (mask : BitVec 4)
  -- atomics (R221)
  | aadd (x : Atom)
  | amin (x : Atom)
  | amax (x : Atom)
  | aand (x : Atom)
  | aor (x : Atom)
  | axor (x : Atom)
  | aswap (x : Atom)
  | acas (x : Atom) (c : Fin 32)
  | afadd (x : Atom)
  -- strands (R111 to R113)
  | xstart (gd : Guard) (h : Fin 16) (off : BitVec 32) (a1 a2 a3 a4 : Fin 32)
  | xjoin (gd : Guard) (m : MaskSrc)
  | xend (gd : Guard)
  -- tasks and work lists (R252 to R255)
  | tspawn (gd : Guard) (d a : Fin 32)
  | tjoin (gd : Guard) (d a : Fin 32)
  | tfin (gd : Guard)
  | tself (gd : Guard) (d : Fin 32) (n : Fin 16)
  | wapp (gd : Guard) (d a : Fin 32) (list : BitVec 8)
  | wtake (gd : Guard) (d c : Fin 32) (list : BitVec 8)
  -- domains (R205)
  | dbar (gd : Guard) (d : Fin 32) (m : Bool)
  | dphase (gd : Guard) (d : Fin 32) (m comm : Bool)
  | dmem (gd : Guard) (d : Fin 32) (lvl : Fin 8)
  | ttime (gd : Guard) (d a b : Fin 32)
  -- cisterns (R157 to R159)
  | cdef (gd : Guard) (c : Fin 16) (a : Fin 32) (off : BitVec 20) (slot1 n1 : BitVec 8)
  | cadvProd (gd : Guard) (c : Fin 16) (k : CntSrc)
  | cadvCons (gd : Guard) (c : Fin 16) (k : CntSrc)
  | cwaitProd (gd : Guard) (c : Fin 16) (k : CntSrc)
  | cwaitCons (gd : Guard) (c : Fin 16) (k : CntSrc)
  | cstat (gd : Guard) (d : Fin 32) (c : Fin 16)
  -- streams (R134, R137)
  | sbind (gd : Guard) (q : Fin 4) (d : Fin 16) (a : Fin 32) (wr : Bool) (ty : Ty)
      (base : BitVec 20) (s0 : BitVec 12) (n0 : BitVec 8) (s1 : BitVec 16) (n1 : BitVec 8)
  | sunbind (gd : Guard) (q : Fin 4)
  -- messages (R210)
  | send (gd : Guard) (a b : Fin 32) (disp : BitVec 16) (tag : Fin 16)
  | recv (gd : Guard) (d a : Fin 32) (disp : BitVec 16)
  | rpoll (gd : Guard) (d : Fin 32)
  -- vectors (R116 to R130)
  | vadd (x : VBin)
  | vsub (x : VBin)
  | vmul (x : VBin)
  | vfma (x : VTri)
  | vfms (x : VTri)
  | vmin (x : VBin)
  | vmax (x : VBin)
  | vabs (x : VUn)
  | vneg (x : VUn)
  | vcvt (gd : Guard) (d a : VOp) (src dst : Ty) (round : Round) (cq : Option CQual)
  | vcmp (gd : Guard) (d : Fin 8) (a : VOp) (b : VB) (cond : Cond) (ty : Ty) (cq : Option CQual)
  | vsel (gd : Guard) (d a b : VOp) (c : Fin 8) (cq : Option CQual)
  | vand (x : VBin)
  | vor (x : VBin)
  | vxor (x : VBin)
  | vshl (x : VBin)
  | vshr (x : VBin)
  | vsar (x : VBin)
  | vperm (gd : Guard) (d a b : VOp) (cq : Option CQual)
  | vbcast (gd : Guard) (d : VOp) (src : BcastSrc) (cq : Option CQual)
  | vsum (gd : Guard) (d a : VOp) (ty : Ty) (sat : Bool) (round : Round) (cq : Option CQual)
  | vdot (gd : Guard) (d a : VOp) (b : VB) (ty : Ty) (z : Bool) (cq : Option CQual)
  | vld (x : VMem)
  | vst (x : VMem)
  | vgath (x : VIdx)
  | vscat (x : VIdx)
  | vmov (gd : Guard) (form : VmovForm) (cq : Option CQual)
  -- special functions (R131)
  | fexp (x : Spec)
  | flog (x : Spec)
  | frcp (x : Spec)
  | frsq (x : Spec)
  | fsqrt (x : Spec)
  | fsin (x : Spec)
  | fcos (x : Spec)
  | ftanh (x : Spec)
  | fsig (x : Spec)
  | fgelu (x : Spec)
  | fsilu (x : Spec)
  | ferf (x : Spec)
  -- Stalagmite engine (R177 to R191, R213)
  | lplan (gd : Guard) (k : Fin 8) (rcd : EOp) (fmt : Fmt) (cq : Option CQual)
  | ldot (x : Dot)
  | ldot2 (x : Dot)
  | lsort (gd : Guard) (dst src : EOp) (fmt : Fmt) (ty : Ty) (round : Round) (cq : Option CQual)
  | lclr (gd : Guard) (w : Fin 64) (anchor : BitVec 8)
  | lrd (gd : Guard) (d : Fin 32) (w : Fin 64) (ty : Ty) (round : Round)
  | lrdRaw (gd : Guard) (d b : Fin 32) (w : Fin 64)
  | lrdSt (gd : Guard) (d : Fin 32) (w : Fin 64)
  | lrdV (gd : Guard) (d : VOp) (w : Fin 64) (ty : Ty) (round : Round) (cq : Option CQual)
  | lwr (gd : Guard) (w : Fin 64) (a b c : Fin 32)
  | lwrAdd (gd : Guard) (w : Fin 64) (a b c : Fin 32)
  | lprog (gd : Guard) (d : Fin 32)
  | lprogSet (gd : Guard) (a : Fin 32)
  | lprogDrop (gd : Guard)
  | lpert (gd : Guard) (a : Fin 32)
  | lgang (x : Joint)
  | lrot (x : Joint)
  -- handles, copies and windows (R274, R282, R297)
  | hnew (gd : Guard) (d a : Fin 32) (ops : OpsSrc)
  | hfree (gd : Guard) (d a : Fin 32)
  | hwiden (gd : Guard) (d a : Fin 32) (ops : OpsSrc)
  | hnarrow (gd : Guard) (d a : Fin 32) (ops : OpsSrc)
  | hquery (gd : Guard) (d a : Fin 32) (sel : Fin 16)
  | hbind (gd : Guard) (d : Fin 32) (win : Fin 8) (a b c : Fin 32)
  | hunbind (gd : Guard) (win : Fin 8)
  | hunbindWb (gd : Guard) (d : Fin 32) (win : Fin 8)
  | hcopyLd (x : Copy) (t : Bool)
  | hcopySt (x : Copy)
  | hgath (x : Copy)
  | hscat (x : Copy)
  | hscatAdd (x : Copy)
  | hexport (gd : Guard) (d a b : Fin 32)
  | himport (gd : Guard) (d a : Fin 32)
  -- chambers (R355, R359)
  | kview (gd : Guard) (d a b : Fin 32)
  | kviewDrop (gd : Guard) (d b : Fin 32)
  | kred (x : Coll) (rw : Bool)
  | kbcast (x : Coll)
  | kgath (x : Coll)
  | krsc (x : Coll)
  | kbar (gd : Guard) (d b : Fin 32)
  | kjoin (gd : Guard) (d a b : Fin 32)
  | kstat (gd : Guard) (d a b : Fin 32) (sel : Fin 16)
  -- pairs (R236)
  | pair (gd : Guard) (d a : Fin 32)
  | unpair (gd : Guard) (d : Fin 32)
  | fprint (gd : Guard) (d : Fin 32)
  | fprintLast (gd : Guard) (d : Fin 32)
  | fprintSt (gd : Guard) (d : Fin 32)
  -- the repeat prefix with the instruction it repeats (R140)
  | rep (n1 : Fin 64) (sd sa sb : BitVec 3) (body : Instr)
  -- events of strands and of the core
  | repeatIssue (core : Nat)
  | storeDrain (core : Nat) (strand : Fin 11) (id : Nat)
  | loadSatisfied (core : Nat) (strand : Fin 11) (id : Nat) (src : Nat)
  | storePerformed (core : Nat) (id : Nat)
  | streamReadAhead (core : Nat) (q : Fin 4)
  | packetQueueAdmit (core : Nat)
  | cisternRelease (core : Nat) (id : Nat)
  | eq0Accept (core : Nat) (strand : Fin 11)
  | eq0OpStart (core : Nat)
  | veinUpdate (core : Nat)
  | lpertArm (core : Nat)
  | kStep (core : Nat)
  | multistepResume (core : Nat)
  | atomicPerform (core : Nat) (id : Nat)
  | messagePlace (core : Nat) (id : Nat)
  | sendStall (core : Nat) (id : Nat)
  | barrierRelease (dom : Nat)
  | copyStart (core : Nat) (q : Fin 4)
  | copyComplete (core : Nat) (q : Fin 4)
  | copyFault (core : Nat) (q : Fin 4) (va : Word) (after : Nat)
  | windowFill (core : Nat) (win : Fin 8)
  | windowFillComplete (core : Nat) (win : Fin 8)
  | pageAnswer (w : RegWrite)
  -- events of the die
  | dispatchDecision (die : Fin 8)
  | sliceExpiry (task : Nat)
  | gangEvict (task : Nat)
  | savedGangReady (task : Nat)
  | fcastUpdate (die : Fin 8)
  | recordOffer (core : Nat) (id : Nat)
  | hostQueuePortWrite (q : Fin 64) (dwords : List Word)
  | quiescenceDetect (ctx : Fin 64)
  -- the Lapidary
  | lapidaryRequest (core : Nat) (id : Nat)
  | lapidaryRerepresent (handle : Word) (classes : BitVec 8)
  -- pairs and supervision
  | pairIntervalEnd (core : Nat)
  | pairLost (core : Nat)
  | pqstatWrite (core : Nat) (id : Nat)
  | containmentWrite (core : Nat) (id : Nat)
  | injectWrite (core : Nat) (id : Nat)
  | debugWindowWrite (core : Nat) (id : Nat)
  | veinCellVWrite (core : Nat) (id : Nat)
  | veinCellAnchorWrite (core : Nat) (id : Nat)
  -- power and module registers
  | pcapWrite (w : RegWrite)
  | pstRequest (w : RegWrite)
  | parkRequest (die : Fin 8)
  | unparkRequest (die : Fin 8)
  | dieParkProceed (die : Fin 8)
  | governorTick (a1 a10 : BitVec 11) (choice : List (Fin 8))
  | droopEvent (die : Fin 8)
  | ctxEnable (w : RegWrite)
  | ctxDisable (w : RegWrite)
  | invWrite (w : RegWrite)
  | registerWrite (w : RegWrite)
  | attestNonceWrite (nonce : BitVec 256)
  | moduleReset (imageOk : Bool) (hash : BitVec 256) (dieOk : BitVec 8)
  | clusterReset (clu : Nat)
  -- the fabric
  | flitReceive (port : Fin 24) (vc : Fin 8) (seq : Nat) (phase crcOk tagOk : Bool) (load : FlitLoad)
  | linkRetrain (port : Fin 24)
  | linkDown (port : Fin 24)
  | portTrainingRetry (port : Fin 24) (answers : Bool)
  | keyRollover (port : Fin 24)
  | keyDiscard (port : Fin 24)
  | remoteAck (core : Nat) (id : Nat)
  | remoteLoadReturn (core : Nat) (strand : Fin 11) (id : Nat) (bytes : List Byte)
  | moduleLossDetect (chamber : Fin 256) (route : Nat)
  | viewProposal (chamber : Fin 256) (port : Fin 24) (view : Nat) (set : ViewSet)
  | viewConfirm (chamber : Fin 256) (route view : Nat) (set : ViewSet)
  | viewCommit (chamber : Fin 256) (view : Nat) (lost dropped : List Nat)
  | joinCommit (chamber : Fin 256) (view : Nat) (members joined lost dropped : List Nat) (mode : Bool)
  | kviewMatch (chamber : Fin 256) (others : List ViewReq)
  | kviewTimeout (chamber : Fin 256)
  | kjoinTimeout (chamber : Fin 256)
  | collectiveAccept (core : Nat)
  | collectiveFlit (f : CollFlit)
  | collectiveComplete (core : Nat) (id : Nat) (disagree : Bool)
  | pStateStepComplete (die : Fin 8)
  | unparkComplete (die : Fin 8)
  | droopRecovery (die : Fin 8)
  | linkTrainingComplete (port : Fin 24)
  | lsortComplete (core : Nat)
  | hostCxlMemWrite (addr : Nat) (bytes : List Byte)
  -- those without operands stand last: the compiled form allows no more than 244 constructors with fields
  | nopBlk
  | refusalCountWrite
  | scWindowEnd
  | scWindowDeliver
  | invComplete
  | attestReportReady
  | heartbeat
  deriving DecidableEq, Repr

end Sys2Proof
end

