-- ==== Sys2Proof/WellFormed.lean ====
section
/-! DEFINITION. Which terms of Instr are instructions of Thrum: the limits of each description beyond
what the operand types say (R42 to R48 and the encoding rule of each family). -/

namespace Sys2Proof

/-- Type code of R41. -/
def Ty.code : Ty → Nat
  | .i8 => 0 | .i16 => 1 | .i32 => 2 | .i64 => 3 | .n8 => 4 | .n16 => 5 | .n32 => 6 | .n64 => 7
  | .i4 => 8 | .n4 => 9 | .f32 => 10 | .bf16 => 11 | .f16 => 12 | .e4m3 => 13 | .e5m2 => 14 | .e2m1 => 15

def Order.code : Order → Nat
  | .plain => 0 | .rlx => 1 | .acq => 2 | .rel => 3 | .ar => 4 | .sc => 5

def Scope.code : Scope → Nat
  | .str => 0 | .core => 1 | .clu => 2 | .die => 3 | .mod => 4 | .chm => 5

def Round.code : Round → Nat
  | .rne => 0 | .rtz => 1 | .rdn => 2 | .rup => 3

def Cond.code : Cond → Nat
  | .eq => 0 | .ne => 1 | .lt => 2 | .le => 3 | .gt => 4 | .ge => 5

def Fmt.code : Fmt → Nat
  | .l2 => 0 | .l3 => 1 | .l4 => 2 | .t3 => 3 | .l8 => 4

/-- Types 0 to 7: the integer types of R88. -/
def Ty.isInt (t : Ty) : Bool := decide (t.code < 8)

/-- Types with a lane container (R116): every type but `i64` and `n64`. -/
def Ty.hasLane (t : Ty) : Bool := t != .i64 && t != .n64

/-- Types of the lane-wise arithmetic (R120). -/
def Ty.isLane32 (t : Ty) : Bool := t == .i32 || t == .n32 || t == .f32

/-- Orders and scopes of `ld` and `ldp` (R105). -/
def loadOrderOk (sp : Bool) (o : Order) (s : Scope) : Bool :=
  match o with
  | .plain => s == .str
  | .rlx => !sp || decide (s.code ≤ 1)
  | .acq => !sp || decide (s.code ≤ 1)
  | .sc => !sp && s == .mod
  | .rel => false
  | .ar => false

/-- Orders and scopes of `st` and `stp` (R105). -/
def storeOrderOk (sp : Bool) (o : Order) (s : Scope) : Bool :=
  match o with
  | .plain => s == .str
  | .rlx => !sp || decide (s.code ≤ 1)
  | .rel => !sp || decide (s.code ≤ 1)
  | .sc => !sp && s == .mod
  | .acq => false
  | .ar => false

/-- Orders and scopes of the atomics (R221). -/
def atomOrderOk (o : Order) (s : Scope) : Bool :=
  match o with
  | .plain => s == .str
  | .sc => s == .mod
  | .rlx => true
  | .acq => true
  | .rel => true
  | .ar => true

/-- Orders of `fence` (R109). -/
def fenceOrderOk (o : Order) : Bool := o == .acq || o == .rel || o == .ar

def VOp.isC : VOp → Bool
  | .v _ => false
  | .c _ => true

def EOp.isC : EOp → Bool
  | .ls _ => false
  | .c _ => true

def VB.isC : VB → Bool
  | .vec x => x.isC
  | .scal _ => false

/-- The qualifier is there exactly when a field names a cistern (R47). -/
def cqOk (cq : Option CQual) (named : Bool) : Bool := cq.isSome == named

/-- A destination field and a source field name one cistern (R48). -/
def VOp.clash : VOp → VOp → Bool
  | .c m, .c n => m == n
  | _, _ => false

def VB.clash (d : VOp) : VB → Bool
  | .vec x => d.clash x
  | .scal _ => false

def EOp.clash : EOp → EOp → Bool
  | .c m, .c n => m == n
  | _, _ => false

def Alu2.wf (x : Alu2) (satOk : Bool) : Bool := x.ty.isInt && (!x.sat || satOk)

def Alu1.wf (x : Alu1) : Bool := x.ty.isInt

def VBin.shape (x : VBin) : Bool :=
  cqOk x.cq (x.d.isC || x.a.isC || x.b.isC) && !x.d.clash x.a && !x.b.clash x.d

/-- `vadd`, `vsub`, `vmul` (R117, R120). -/
def VBin.wfArith (x : VBin) : Bool :=
  x.shape && x.ty.isLane32 && (!x.sat || x.ty != .f32) && (x.round == .rne || x.ty == .f32)

/-- `vmin`, `vmax` (R120). -/
def VBin.wfMinMax (x : VBin) : Bool :=
  x.shape && x.ty.isLane32 && !x.sat && x.round == .rne

/-- The forms without a type (R120), whose type code is 0. -/
def VBin.wfBits (x : VBin) : Bool :=
  x.shape && x.ty == .i8 && !x.sat && x.round == .rne

def VUn.wf (x : VUn) : Bool :=
  cqOk x.cq (x.d.isC || x.a.isC) && !x.d.clash x.a && (x.ty == .i32 || (x.ty == .f32 && !x.sat))

def VTri.wf (x : VTri) : Bool :=
  cqOk x.cq (x.d.isC || x.a.isC || x.b.isC || x.c.isC) && !x.d.clash x.a && !x.b.clash x.d
    && !x.d.clash x.c

/-- `vld`: a cistern in D takes the qualifier in place of order and scope (R47, R128). -/
def VMem.wfLoad (x : VMem) : Bool :=
  cqOk x.cq x.d.isC && x.ty.hasLane && x.order != .sc && loadOrderOk x.sp x.order x.scope
    && (!x.d.isC || x.order == .plain)

def VMem.wfStore (x : VMem) : Bool :=
  cqOk x.cq false && !x.d.isC && x.ty.hasLane && x.order != .sc && storeOrderOk x.sp x.order x.scope

/-- Types of `vgath` and `vscat` (R128). -/
def Ty.isWhole (t : Ty) : Bool := t.hasLane && t != .i4 && t != .n4 && t != .e2m1

def VIdx.wfLoad (x : VIdx) : Bool :=
  cqOk x.cq (x.d.isC || x.b.isC) && !x.d.clash x.b && x.ty.isWhole && x.order != .sc
    && loadOrderOk x.sp x.order x.scope && (!(x.d.isC || x.b.isC) || x.order == .plain)

def VIdx.wfStore (x : VIdx) : Bool :=
  cqOk x.cq x.b.isC && !x.d.isC && x.ty.isWhole && x.order != .sc
    && storeOrderOk x.sp x.order x.scope && (!x.b.isC || x.order == .plain)

def Spec.wf (x : Spec) : Bool := cqOk x.cq (x.d.isC || x.a.isC) && !x.d.clash x.a

def Dot.wf (x : Dot) : Bool := cqOk x.cq (x.act.isC || x.rcd.isC) && (x.ty == .i8 || x.ty == .e4m3)

def Joint.wf (x : Joint) : Bool := x.fmt != .l8 && (x.ty == .i8 || x.ty == .e4m3)

def Atom.wfInt (x : Atom) : Bool :=
  (x.ty == .i32 || x.ty == .i64 || x.ty == .n32 || x.ty == .n64) && atomOrderOk x.order x.scope

def Atom.wfFloat (x : Atom) : Bool :=
  (x.ty == .f32 || x.ty == .bf16 || x.ty == .e4m3) && atomOrderOk x.order x.scope

/-- Types of a chamber operation (R355). -/
def Coll.wf (x : Coll) (roundOk : Bool) : Bool :=
  (x.ty == .f32 || x.ty == .bf16 || x.ty == .e4m3) && (roundOk || x.round == .rne)

/-- `ldp`, `stp`: the 64-bit form has displacement 0 (R104). -/
def Mem.wfPair (m : Mem) : Bool :=
  match m.disp with
  | .d16 i => i == 0
  | .d32 _ => true

/-- System register numbers that name a register (R103, R317). -/
def regNamed (n : Nat) : Bool :=
  [0x00, 0x01, 0x02, 0x03, 0x04, 0x10, 0x11, 0x12, 0x13, 0x14, 0x15, 0x20, 0x21, 0x22, 0x40, 0x41,
    0x60, 0x80, 0x81, 0x82, 0x90, 0x91, 0x92, 0x93, 0xA0, 0xA1, 0xA8, 0xB0].contains n

def fieldOk (reg : BitVec 16) (f : Option RegField) : Bool :=
  regNamed reg.toNat &&
    match f with
    | none => true
    | some f => decide (f.lo.val + f.w1.val + 1 ≤ 64)

/-- The two registers differ, or both are `g0` (R104, R187, R255). -/
def pairOk (d c : Fin 32) : Bool := d != c || d == 0

/-- An event of the machine: no word encodes it. -/
def Instr.isEvent : Instr → Bool
  | .repeatIssue _ | .storeDrain _ _ _ | .loadSatisfied _ _ _ _ | .storePerformed _ _
  | .streamReadAhead _ _ | .packetQueueAdmit _ | .cisternRelease _ _ | .eq0Accept _ _
  | .eq0OpStart _ | .veinUpdate _ | .lpertArm _ | .kStep _ | .multistepResume _
  | .atomicPerform _ _ | .messagePlace _ _ | .sendStall _ _ | .barrierRelease _ | .copyStart _ _
  | .copyComplete _ _ | .copyFault _ _ _ _ | .windowFill _ _ | .windowFillComplete _ _
  | .pageAnswer _ | .dispatchDecision _ | .sliceExpiry _ | .gangEvict _ | .savedGangReady _
  | .fcastUpdate _ | .recordOffer _ _ | .hostQueuePortWrite _ _ | .refusalCountWrite
  | .quiescenceDetect _ | .lapidaryRequest _ _ | .lapidaryRerepresent _ _ | .pairIntervalEnd _
  | .pairLost _ | .pqstatWrite _ _ | .containmentWrite _ _ | .injectWrite _ _
  | .debugWindowWrite _ _ | .veinCellVWrite _ _ | .veinCellAnchorWrite _ _ | .scWindowEnd
  | .scWindowDeliver | .pcapWrite _ | .pstRequest _ | .parkRequest _ | .unparkRequest _
  | .dieParkProceed _ | .governorTick _ _ _ | .droopEvent _ | .ctxEnable _ | .ctxDisable _
  | .invWrite _ | .invComplete | .registerWrite _ | .attestNonceWrite _ | .attestReportReady
  | .moduleReset _ _ _ | .clusterReset _ | .flitReceive _ _ _ _ _ _ _ | .linkRetrain _
  | .linkDown _ | .portTrainingRetry _ _ | .keyRollover _ | .keyDiscard _ | .heartbeat
  | .remoteAck _ _ | .remoteLoadReturn _ _ _ _ | .moduleLossDetect _ _ | .viewProposal ..
  | .viewConfirm .. | .viewCommit _ _ _ _ | .joinCommit .. | .kviewMatch _ _
  | .kviewTimeout _ | .kjoinTimeout _ | .collectiveAccept _ | .collectiveFlit _
  | .collectiveComplete .. | .pStateStepComplete _ | .unparkComplete _ | .droopRecovery _
  | .linkTrainingComplete _ | .lsortComplete _ | .hostCxlMemWrite _ _ => true
  | _ => false

/-- The instructions that a `rep` may precede (R141). -/
def Instr.repeatable : Instr → Bool
  | .add _ | .sub _ | .mul _ | .mulh _ | .div _ | .rem _ | .and _ | .or _ | .xor _ | .andn _
  | .shl _ | .shr _ | .sar _ | .rol _ | .clz _ | .ctz _ | .popc _ | .min _ | .max _
  | .sel .. | .cmp .. | .bext .. | .bins .. | .lea .. | .mov _ | .li .. | .nop _
  | .ld .. | .st ..
  | .vadd _ | .vsub _ | .vmul _ | .vfma _ | .vfms _ | .vmin _ | .vmax _ | .vabs _ | .vneg _
  | .vcvt .. | .vcmp .. | .vsel .. | .vand _ | .vor _ | .vxor _ | .vshl _ | .vshr _ | .vsar _
  | .vperm .. | .vbcast .. | .vsum .. | .vdot .. | .vld _ | .vst _ | .vgath _ | .vscat _ | .vmov ..
  | .fexp _ | .flog _ | .frcp _ | .frsq _ | .fsqrt _ | .fsin _ | .fcos _ | .ftanh _ | .fsig _
  | .fgelu _ | .fsilu _ | .ferf _
  | .lplan .. | .ldot _ | .ldot2 _ | .lsort .. | .lclr .. | .lrd .. | .lrdRaw .. | .lrdSt ..
  | .lrdV .. | .lwr .. | .lwrAdd .. => true
  | _ => false

/-- The limits of each instruction's description. Events carry no limit. The stepping rule of `rep`
(R142) speaks of encoded fields and stands beside the encoder (`Decode.repOk`). -/
def Instr.wf : Instr → Bool
  | .add x | .sub x | .mul x => x.wf true
  | .mulh x | .div x | .rem x | .and x | .or x | .xor x | .andn x | .shl x | .shr x | .sar x
  | .rol x | .min x | .max x => x.wf false
  | .clz x | .ctz x | .popc x | .mov x => x.wf
  | .cmp _ _ ty _ _ _ => ty.isInt
  | .bext _ _ _ pos w1 _ => decide (pos.val + w1.val + 1 ≤ 64)
  | .bins _ _ _ pos w1 => decide (pos.val + w1.val + 1 ≤ 64)
  | .sysrd _ _ reg f => fieldOk reg f
  | .syswr _ _ reg f => fieldOk reg f
  | .ld _ _ m ty o s => ty.isInt && loadOrderOk m.sp o s
  | .st _ _ m ty o s => ty.isInt && storeOrderOk m.sp o s
  | .ldp _ d c m o s => m.wfPair && loadOrderOk m.sp o s && pairOk d c
  | .stp _ _ _ m o s => m.wfPair && storeOrderOk m.sp o s
  | .fence _ o _ => fenceOrderOk o
  | .aadd x | .amin x | .amax x | .aand x | .aor x | .axor x | .aswap x => x.wfInt
  | .acas x _ => x.wfInt && (match x.disp with | .d16 i => i == 0 | .d32 _ => true)
  | .afadd x => x.wfFloat
  | .xstart _ h _ _ _ _ _ => decide (1 ≤ h.val) && decide (h.val ≤ 10)
  | .xjoin _ (.imm m) => m &&& 0xF801 == 0
  | .tself _ _ n => decide (n.val ≤ 4)
  | .wtake _ d c _ => pairOk d c
  | .dmem _ _ lvl => decide (lvl.val ≤ 4) || decide (lvl.val = 7)
  | .sbind _ _ _ _ _ ty _ _ _ _ _ => ty.hasLane
  | .vadd x | .vsub x | .vmul x => x.wfArith
  | .vmin x | .vmax x => x.wfMinMax
  | .vand x | .vor x | .vxor x | .vshl x | .vshr x | .vsar x => x.wfBits
  | .vabs x | .vneg x => x.wf
  | .vfma x | .vfms x => x.wf
  | .vcvt _ d a src dst _ cq => cqOk cq (d.isC || a.isC) && !d.clash a && src.hasLane && dst.hasLane
  | .vcmp _ _ a b _ ty cq => cqOk cq (a.isC || b.isC) && ty.isLane32
  | .vsel _ d a b _ cq => cqOk cq (d.isC || a.isC || b.isC) && !d.clash a && !d.clash b
  | .vperm _ d a b cq => cqOk cq (d.isC || a.isC || b.isC) && !d.clash a && !d.clash b
  | .vbcast _ d (.scal _) cq => cqOk cq d.isC
  | .vbcast _ d (.lane a _) cq => cqOk cq (d.isC || a.isC) && !d.clash a
  | .vsum _ d a ty sat r cq => cqOk cq (d.isC || a.isC) && !d.clash a && ty.isLane32
      && (!sat || ty != .f32) && (r == .rne || ty == .f32)
  | .vdot _ d a b ty _ cq => cqOk cq (d.isC || a.isC || b.isC) && !d.clash a && !b.clash d
      && (ty == .i4 || ty == .n4 || ty == .i8 || ty == .n8 || ty == .i16 || ty == .n16)
  | .vld x => x.wfLoad
  | .vst x => x.wfStore
  | .vgath x => x.wfLoad
  | .vscat x => x.wfStore
  | .vmov _ (.vec d a) cq => cqOk cq (d.isC || a.isC) && !d.clash a
  | .vmov _ (.toG _ a _) cq => cqOk cq a.isC
  | .vmov _ (.fromG d _ _) cq => cqOk cq d.isC
  | .fexp x | .flog x | .frcp x | .frsq x | .fsqrt x | .fsin x | .fcos x | .ftanh x | .fsig x
  | .fgelu x | .fsilu x | .ferf x => x.wf
  | .lplan _ _ r _ cq => cqOk cq r.isC
  | .ldot x => x.wf
  | .ldot2 x => x.wf && decide (x.w.val ≤ 62) && decide (x.k.val ≤ 6)
  | .lsort _ d s fmt ty _ cq => cqOk cq (d.isC || s.isC) && !d.clash s
      && (fmt == .l3 || fmt == .l4 || fmt == .l8)
      && (ty == .i8 || ty == .f32 || ty == .bf16 || ty == .e4m3)
  | .lrd _ _ _ ty _ => ty == .f32 || ty == .bf16
  | .lrdRaw _ d b _ => pairOk d b
  | .lrdV _ d w ty _ cq => cqOk cq d.isC && decide (w.val ≤ 48) && (ty == .f32 || ty == .bf16)
  | .lgang x | .lrot x => x.wf
  | .hquery _ _ _ q => decide (q.val ≤ 4)
  | .kred x _ => x.wf true
  | .krsc x => x.wf true
  | .kbcast x | .kgath x => x.wf false
  | .kstat _ _ a _ q => decide (q.val ≤ 4) && (a == 0 || decide (q.val = 4))
  | .rep _ _ _ _ body => body.repeatable && body.wf
  | _ => true

end Sys2Proof
end

