-- ==== Sys2Proof/Decode.lean ====
section
/-! DEFINITION. Decoding of instruction words (R36 to R62 and the encoding of each family), total on any
bytes and rejecting by the trap's name, and the encoder written from the same tables. -/

namespace Sys2Proof.Decode

open Sys2Proof.Machine

/-- The traps of decode other than fetch-fault, in the order of R59. `field`: R229, 0 D, 1 A, 2 B,
3 the field at [53:48], 4 the field at [59:54]. -/
inductive DecTrap
  | illegalLength
  | fetchBoundary
  | illegalInstruction
  | illegalOperand (field : Nat)
  deriving DecidableEq, Repr

/-- The fields of an instruction word (R39, R40). `ext` is bits [127:64], or [95:64] in the 96-bit form. -/
structure Fields where
  len : Nat
  major : Nat
  guard : Nat
  neg : Nat
  d : Nat
  a : Nat
  b : Nat
  minor : Nat
  ty : Nat
  order : Nat
  scope : Nat
  round : Nat
  i16 : Nat
  ext : Nat
  deriving DecidableEq, Repr

/-- The fields of the number `w` whose bits are the instruction's (R39). -/
def parse (w : Nat) : Fields :=
  { len := w % 4
    major := w / 2 ^ 2 % 2 ^ 8
    guard := w / 2 ^ 10 % 2 ^ 3
    neg := w / 2 ^ 13 % 2
    d := w / 2 ^ 14 % 2 ^ 6
    a := w / 2 ^ 20 % 2 ^ 6
    b := w / 2 ^ 26 % 2 ^ 6
    minor := w / 2 ^ 32 % 2 ^ 4
    ty := w / 2 ^ 36 % 2 ^ 4
    order := w / 2 ^ 40 % 2 ^ 3
    scope := w / 2 ^ 43 % 2 ^ 3
    round := w / 2 ^ 46 % 2 ^ 2
    i16 := w / 2 ^ 48 % 2 ^ 16
    ext := w / 2 ^ 64 % 2 ^ 64 }

/-- The number whose fields are `f` (R39). -/
def unparse (f : Fields) : Nat :=
  f.len + 2 ^ 2 * f.major + 2 ^ 10 * f.guard + 2 ^ 13 * f.neg + 2 ^ 14 * f.d + 2 ^ 20 * f.a
    + 2 ^ 26 * f.b + 2 ^ 32 * f.minor + 2 ^ 36 * f.ty + 2 ^ 40 * f.order + 2 ^ 43 * f.scope
    + 2 ^ 46 * f.round + 2 ^ 48 * f.i16 + 2 ^ 64 * f.ext

/-- Bytes of an instruction by its length bits (R37). -/
def lenBytes (l : Nat) : Nat := if l = 1 then 8 else if l = 2 then 12 else 16

abbrev Dec := Except DecTrap

/-- A condition of R42: when it fails, illegal-instruction. -/
def need (c : Bool) : Dec Unit := if c then .ok () else .error .illegalInstruction

/-- A condition of R43 or R48 on field `field`: when it fails, illegal-operand. -/
def operand (c : Bool) (field : Nat) : Dec Unit := if c then .ok () else .error (.illegalOperand field)

/-- Class g (R43). -/
def opG (x field : Nat) : Dec (Fin 32) :=
  if h : x < 32 then .ok ⟨x, h⟩ else .error (.illegalOperand field)

/-- Class p and class k (R43). -/
def op8 (x field : Nat) : Dec (Fin 8) :=
  if h : x < 8 then .ok ⟨x, h⟩ else .error (.illegalOperand field)

/-- Class v where no cistern is accepted (R43). -/
def opV0 (x field : Nat) : Dec (Fin 16) :=
  if h : x < 16 then .ok ⟨x, h⟩ else .error (.illegalOperand field)

/-- Class v in the cistern-capable majors (R43). -/
def opV (x field : Nat) : Dec VOp :=
  if h : x < 16 then .ok (.v ⟨x, h⟩)
  else if h : 32 ≤ x ∧ x < 48 then .ok (.c ⟨x - 32, by omega⟩)
  else .error (.illegalOperand field)

/-- Class e (R43). -/
def opE (x field : Nat) : Dec EOp :=
  if h : x < 32 then .ok (.ls ⟨x, h⟩)
  else if h : 32 ≤ x ∧ x < 48 then .ok (.c ⟨x - 32, by omega⟩)
  else .error (.illegalOperand field)

/-- Class c (R43). -/
def opC (x field : Nat) : Dec (Fin 16) :=
  if h : 32 ≤ x ∧ x < 48 then .ok ⟨x - 32, by omega⟩ else .error (.illegalOperand field)

/-- Class w: every value of the field (R43). -/
def opW (x : Nat) : Fin 64 := Fin.ofNat 64 x

/-- Whether a field value of class v or e names a cistern (R43). -/
def namesC (x : Nat) : Bool := decide (32 ≤ x) && decide (x < 48)

/-- Type of a code (R41). -/
def tyOf : Nat → Ty
  | 0 => .i8 | 1 => .i16 | 2 => .i32 | 3 => .i64 | 4 => .n8 | 5 => .n16 | 6 => .n32 | 7 => .n64
  | 8 => .i4 | 9 => .n4 | 10 => .f32 | 11 => .bf16 | 12 => .f16 | 13 => .e4m3 | 14 => .e5m2 | _ => .e2m1

/-- Order of a code below 6 (R41). -/
def orderOf : Nat → Order
  | 0 => .plain | 1 => .rlx | 2 => .acq | 3 => .rel | 4 => .ar | _ => .sc

/-- Scope of a code below 6 (R41). -/
def scopeOf : Nat → Scope
  | 0 => .str | 1 => .core | 2 => .clu | 3 => .die | 4 => .mod | _ => .chm

def roundOf : Nat → Round
  | 0 => .rne | 1 => .rtz | 2 => .rdn | _ => .rup

def condOf : Nat → Cond
  | 0 => .eq | 1 => .ne | 2 => .lt | 3 => .le | 4 => .gt | _ => .ge

def fmtOf : Nat → Fmt
  | 0 => .l2 | 1 => .l3 | 2 => .l4 | 3 => .t3 | _ => .l8

/-- The guard of the word (R39). -/
def gdOf (f : Fields) : Guard := ⟨Fin.ofNat 8 f.guard, f.neg == 1⟩

/-- No order, scope or rounding (R42). -/
def plainOsr (f : Fields) : Bool := f.order == 0 && f.scope == 0 && f.round == 0

/-- The immediate form of a scalar instruction: 64-bit with imm16, or 96-bit with imm32 and
[63:48] zero (R90). -/
def immLenOk (f : Fields) : Bool := f.len == 1 || (f.len == 2 && f.i16 == 0)

def dispOf (f : Fields) : Disp :=
  if f.len == 1 then .d16 (BitVec.ofNat 16 f.i16) else .d32 (BitVec.ofNat 32 f.ext)

def bImmOf (f : Fields) : BSrc :=
  if f.len == 1 then .imm16 (BitVec.ofNat 16 f.i16) else .imm32 (BitVec.ofNat 32 f.ext)

/-- The cistern qualifier, when some field of class v or e names a cistern (R47). -/
def cqOf (f : Fields) (named : Bool) : Option CQual :=
  if named then some ⟨Fin.ofNat 8 f.order, f.scope == 1⟩ else none

/-- Bits [45:40] where no order is accepted: zero, or a qualifier with [45:44] zero (R47). -/
def cqBitsOk (f : Fields) (named : Bool) : Bool :=
  if named then decide (f.scope < 2) else f.order == 0 && f.scope == 0

/-- Bits [45:40] of a vector memory form (R47, R128). -/
def cqOrderOk (f : Fields) (named load sp : Bool) : Bool :=
  if named then decide (f.scope < 2)
  else decide (f.order < 5) && decide (f.scope < 6) &&
    (if load then loadOrderOk sp (orderOf f.order) (scopeOf f.scope)
     else storeOrderOk sp (orderOf f.order) (scopeOf f.scope))

/-! ### Scalar instructions (R88 to R115) -/

/-- Two-operand forms (R90). -/
def decAlu2 (f : Fields) (satOk : Bool) (mk : Alu2 → Instr) : Dec Instr := do
  need (plainOsr f && decide (f.ty < 8) && decide (f.minor < 4) && (satOk || decide (f.minor < 2)))
  if f.minor % 2 = 0 then
    need (f.len == 1 && f.i16 == 0)
    let d ← opG f.d 0
    let a ← opG f.a 1
    let b ← opG f.b 2
    .ok (mk ⟨gdOf f, d, a, .reg b, tyOf f.ty, f.minor == 2⟩)
  else
    need (f.b == 0 && immLenOk f)
    let d ← opG f.d 0
    let a ← opG f.a 1
    .ok (mk ⟨gdOf f, d, a, bImmOf f, tyOf f.ty, f.minor == 3⟩)

/-- One-operand forms (R92). -/
def decAlu1 (f : Fields) (mk : Alu1 → Instr) : Dec Instr := do
  need (plainOsr f && decide (f.ty < 8) && f.minor == 0 && f.b == 0 && f.i16 == 0 && f.len == 1)
  let d ← opG f.d 0
  let a ← opG f.a 1
  .ok (mk ⟨gdOf f, d, a, tyOf f.ty⟩)

def decSel (f : Fields) : Dec Instr := do
  need (plainOsr f && f.ty == 0 && f.minor == 0 && f.len == 1 && decide (f.i16 < 64))
  let d ← opG f.d 0
  let a ← opG f.a 1
  let b ← opG f.b 2
  let c ← op8 f.i16 3
  .ok (.sel (gdOf f) d a b c)

def decCmp (f : Fields) : Dec Instr := do
  need (plainOsr f && decide (f.ty < 8) && decide (f.minor % 8 < 6))
  if f.minor < 8 then
    need (f.len == 1 && f.i16 == 0)
    let d ← op8 f.d 0
    let a ← opG f.a 1
    let b ← opG f.b 2
    .ok (.cmp (gdOf f) (condOf f.minor) (tyOf f.ty) d a (.reg b))
  else
    need (f.b == 0 && immLenOk f)
    let d ← op8 f.d 0
    let a ← opG f.a 1
    .ok (.cmp (gdOf f) (condOf (f.minor % 8)) (tyOf f.ty) d a (bImmOf f))

/-- `bext` and `bins` (R95): pos in imm16 [5:0], width minus 1 in [11:6]. -/
def decBits (f : Fields) (ins : Bool) : Dec Instr := do
  need (plainOsr f && f.ty == 0 && f.len == 1 && f.b == 0 && decide (f.i16 < 2 ^ 12)
    && decide (f.i16 % 64 + f.i16 / 64 + 1 ≤ 64) && decide (f.minor < (if ins then 1 else 2)))
  let d ← opG f.d 0
  let a ← opG f.a 1
  let pos := Fin.ofNat 64 f.i16
  let w1 := Fin.ofNat 64 (f.i16 / 64)
  .ok (if ins then .bins (gdOf f) d a pos w1 else .bext (gdOf f) d a pos w1 (f.minor == 1))

def decLea (f : Fields) : Dec Instr := do
  need (plainOsr f && f.ty == 0 && decide (f.minor < 4) && immLenOk f)
  let d ← opG f.d 0
  let a ← opG f.a 1
  let b ← opG f.b 2
  .ok (.lea (gdOf f) d a b (Fin.ofNat 4 f.minor) (dispOf f))

def decLi (f : Fields) : Dec Instr := do
  need (plainOsr f && f.ty == 0 && f.minor == 0 && f.a == 0 && f.b == 0 && (f.len == 1 || f.i16 == 0))
  let d ← opG f.d 0
  .ok (.li (gdOf f) d (if f.len == 1 then .i16 (BitVec.ofNat 16 f.i16)
    else if f.len == 2 then .i32 (BitVec.ofNat 32 f.ext) else .i64 (BitVec.ofNat 64 f.ext)))

/-- `nop` and `nop.blk` (R53): the bits above [63:0] are ignored. -/
def decNop (f : Fields) : Dec Instr := do
  need (plainOsr f && f.ty == 0 && f.a == 0 && f.b == 0 && f.d == 0 && f.guard == 0 && f.neg == 0
    && f.i16 == 0)
  if f.minor = 0 then
    .ok (.nop (if f.len == 1 then .b8 else if f.len == 2 then .b12 else .b16))
  else do
    need (f.minor == 1 && f.len == 1)
    .ok .nopBlk

/-- The fields a control instruction leaves zero (R98). -/
def ctl (f : Fields) (useD useA : Bool) : Bool :=
  plainOsr f && f.ty == 0 && f.minor == 0 && f.b == 0 && (useD || f.d == 0) && (useA || f.a == 0)

def decBr (f : Fields) : Dec Instr := do
  need (ctl f false false && immLenOk f)
  .ok (.br (gdOf f) (dispOf f))

def decJmp (f : Fields) : Dec Instr := do
  need (ctl f false false && f.i16 == 0 && f.len != 1)
  .ok (.jmp (gdOf f) (if f.len == 2 then .i32 (BitVec.ofNat 32 f.ext) else .i64 (BitVec.ofNat 64 f.ext)))

def decJal (f : Fields) : Dec Instr := do
  need (ctl f true false && immLenOk f)
  let d ← opG f.d 0
  .ok (.jal (gdOf f) d (dispOf f))

def decJr (f : Fields) : Dec Instr := do
  need (ctl f true true && f.len == 1)
  let d ← opG f.d 0
  let a ← opG f.a 1
  .ok (.jr (gdOf f) d a (BitVec.ofNat 16 f.i16))

def decRet (f : Fields) : Dec Instr := do
  need (ctl f false true && f.len == 1 && f.i16 == 0)
  let a ← opG f.a 1
  .ok (.ret (gdOf f) a)

def decLoop (f : Fields) : Dec Instr := do
  need (ctl f true false && immLenOk f)
  let d ← opG f.d 0
  .ok (.loop (gdOf f) d (dispOf f))

def decTrap (f : Fields) : Dec Instr := do
  need (ctl f false false && f.len == 1)
  .ok (.trap (gdOf f) (BitVec.ofNat 16 f.i16))

/-- The field of a system register in the 96-bit form (R101). -/
def fieldOf (f : Fields) : Option RegField :=
  if f.len == 1 then none else some ⟨Fin.ofNat 64 f.ext, Fin.ofNat 64 (f.ext / 64)⟩

/-- A system register that is named, whose field lies within its 64 bits (R8, R101).
(DESIGN CHOICE, log 70) -/
def sysOk (f : Fields) : Bool :=
  (f.len == 1 || (f.len == 2 && decide (f.ext < 2 ^ 12) && decide (f.ext % 64 + f.ext / 64 + 1 ≤ 64)))
    && regNamed f.i16

def decSysrd (f : Fields) : Dec Instr := do
  need (ctl f true false && sysOk f)
  let d ← opG f.d 0
  .ok (.sysrd (gdOf f) d (BitVec.ofNat 16 f.i16) (fieldOf f))

def decSyswr (f : Fields) : Dec Instr := do
  need (ctl f false true && sysOk f)
  let a ← opG f.a 1
  .ok (.syswr (gdOf f) a (BitVec.ofNat 16 f.i16) (fieldOf f))

/-- The instructions of g registers alone with every other field zero: `n` source fields. -/
def bare (f : Fields) (useD useA useB : Bool) : Bool :=
  plainOsr f && f.ty == 0 && f.len == 1 && (useD || f.d == 0) && (useA || f.a == 0) && (useB || f.b == 0)

def decThaw (f : Fields) : Dec Instr := do
  need (bare f true true false && f.minor == 0 && f.i16 == 0)
  let d ← opG f.d 0
  let a ← opG f.a 1
  .ok (.thaw (gdOf f) d a)

/-- Orders and scopes of the scalar memory instructions (R105). -/
def memOrderOk (f : Fields) (load : Bool) : Bool :=
  decide (f.order < 6) && decide (f.scope < 6) && f.round == 0 &&
    (if load then loadOrderOk (f.minor % 2 == 1) (orderOf f.order) (scopeOf f.scope)
     else storeOrderOk (f.minor % 2 == 1) (orderOf f.order) (scopeOf f.scope))

def memOf (f : Fields) (a b : Fin 32) (disp : Disp) : Mem :=
  ⟨a, b, Fin.ofNat 4 (f.minor / 2), f.minor % 2 == 1, disp⟩

def decLdSt (f : Fields) (load : Bool) : Dec Instr := do
  need (decide (f.minor < 8) && decide (f.ty < 8) && immLenOk f && memOrderOk f load)
  let d ← opG f.d 0
  let a ← opG f.a 1
  let b ← opG f.b 2
  let m := memOf f a b (dispOf f)
  .ok (if load then .ld (gdOf f) d m (tyOf f.ty) (orderOf f.order) (scopeOf f.scope)
    else .st (gdOf f) d m (tyOf f.ty) (orderOf f.order) (scopeOf f.scope))

def decPair (f : Fields) (load : Bool) : Dec Instr := do
  need (decide (f.minor < 8) && f.ty == 0 && (f.len == 1 || f.len == 2) && decide (f.i16 < 64)
    && memOrderOk f load)
  let d ← opG f.d 0
  let a ← opG f.a 1
  let b ← opG f.b 2
  let c ← opG f.i16 3
  operand (!load || pairOk d c) 3
  let m := memOf f a b (if f.len == 1 then .d16 0 else .d32 (BitVec.ofNat 32 f.ext))
  .ok (if load then .ldp (gdOf f) d c m (orderOf f.order) (scopeOf f.scope)
    else .stp (gdOf f) d c m (orderOf f.order) (scopeOf f.scope))

def decFence (f : Fields) : Dec Instr := do
  need (f.len == 1 && f.i16 == 0 && f.round == 0 && f.ty == 0 && f.minor == 0 && f.b == 0 && f.a == 0
    && f.d == 0 && decide (f.order < 5) && decide (f.scope < 6) && fenceOrderOk (orderOf f.order))
  .ok (.fence (gdOf f) (orderOf f.order) (scopeOf f.scope))

def decQfence (f : Fields) : Dec Instr := do
  need (bare f false false false && f.minor == 0 && decide (f.i16 < 16))
  .ok (.qfence (gdOf f) (BitVec.ofNat 4 f.i16))

/-- Atomics other than `acas` (R221). -/
def decAtom (f : Fields) (float : Bool) (mk : Atom → Instr) : Dec Instr := do
  need (f.minor == 0 && f.round == 0 && immLenOk f && decide (f.order < 6) && decide (f.scope < 6)
    && atomOrderOk (orderOf f.order) (scopeOf f.scope)
    && (if float then f.ty == 10 || f.ty == 11 || f.ty == 13
        else f.ty == 2 || f.ty == 3 || f.ty == 6 || f.ty == 7))
  let d ← opG f.d 0
  let a ← opG f.a 1
  let b ← opG f.b 2
  .ok (mk ⟨gdOf f, d, a, b, dispOf f, tyOf f.ty, orderOf f.order, scopeOf f.scope⟩)

def decAcas (f : Fields) : Dec Instr := do
  need (f.minor == 0 && f.round == 0 && (f.len == 1 || f.len == 2) && decide (f.i16 < 64)
    && decide (f.order < 6) && decide (f.scope < 6) && atomOrderOk (orderOf f.order) (scopeOf f.scope)
    && (f.ty == 2 || f.ty == 3 || f.ty == 6 || f.ty == 7))
  let d ← opG f.d 0
  let a ← opG f.a 1
  let b ← opG f.b 2
  let c ← opG f.i16 3
  let disp : Disp := if f.len == 1 then .d16 0 else .d32 (BitVec.ofNat 32 f.ext)
  .ok (.acas ⟨gdOf f, d, a, b, disp, tyOf f.ty, orderOf f.order, scopeOf f.scope⟩ c)

/-- `xstart` (R111): arg3 in [53:48], arg4 in [59:54]. -/
def decXstart (f : Fields) : Dec Instr := do
  need (plainOsr f && f.ty == 0 && f.len == 2 && f.d == 0 && decide (1 ≤ f.minor)
    && decide (f.minor ≤ 10) && decide (f.i16 < 2 ^ 12))
  let a1 ← opG f.a 1
  let a2 ← opG f.b 2
  let a3 ← opG (f.i16 % 64) 3
  let a4 ← opG (f.i16 / 64) 4
  .ok (.xstart (gdOf f) (Fin.ofNat 16 f.minor) (BitVec.ofNat 32 f.ext) a1 a2 a3 a4)

def decXjoin (f : Fields) : Dec Instr := do
  need (bare f false true false && decide (f.minor < 2))
  if f.minor = 0 then
    need (f.a == 0 && f.i16 % 2 == 0 && decide (f.i16 < 2 ^ 11))
    .ok (.xjoin (gdOf f) (.imm (BitVec.ofNat 16 f.i16)))
  else
    need (f.i16 == 0)
    let a ← opG f.a 1
    .ok (.xjoin (gdOf f) (.reg a))

def decXend (f : Fields) : Dec Instr := do
  need (bare f false false false && f.minor == 0 && f.i16 == 0)
  .ok (.xend (gdOf f))

/-! ### Tasks, domains, cisterns, streams, messages -/

def decSpawn (f : Fields) (join : Bool) : Dec Instr := do
  need (bare f true true false && f.minor == 0 && f.i16 == 0)
  let d ← opG f.d 0
  let a ← opG f.a 1
  .ok (if join then .tjoin (gdOf f) d a else .tspawn (gdOf f) d a)

def decTfin (f : Fields) : Dec Instr := do
  need (bare f false false false && f.minor == 0 && f.i16 == 0)
  .ok (.tfin (gdOf f))

def decTself (f : Fields) : Dec Instr := do
  need (bare f true false false && decide (f.minor ≤ 4) && f.i16 == 0)
  let d ← opG f.d 0
  .ok (.tself (gdOf f) d (Fin.ofNat 16 f.minor))

def decWapp (f : Fields) : Dec Instr := do
  need (bare f true true false && f.minor == 0 && decide (f.i16 < 256))
  let d ← opG f.d 0
  let a ← opG f.a 1
  .ok (.wapp (gdOf f) d a (BitVec.ofNat 8 f.i16))

/-- `wtake` (R255): list in [61:54], C in [53:48]. -/
def decWtake (f : Fields) : Dec Instr := do
  need (bare f true false false && f.minor == 0 && decide (f.i16 < 2 ^ 14))
  let d ← opG f.d 0
  let c ← opG (f.i16 % 64) 3
  operand (pairOk d c) 3
  .ok (.wtake (gdOf f) d c (BitVec.ofNat 8 (f.i16 / 64)))

def decDbar (f : Fields) : Dec Instr := do
  need (bare f true false false && decide (f.minor < 2) && f.i16 == 0)
  let d ← opG f.d 0
  .ok (.dbar (gdOf f) d (f.minor == 1))

def decDphase (f : Fields) : Dec Instr := do
  need (bare f true false false && decide (f.minor < 4) && f.i16 == 0)
  let d ← opG f.d 0
  .ok (.dphase (gdOf f) d (f.minor % 2 == 1) (f.minor / 2 == 1))

def decDmem (f : Fields) : Dec Instr := do
  need (bare f true false false && (decide (f.minor ≤ 4) || f.minor == 7) && f.i16 == 0)
  let d ← opG f.d 0
  .ok (.dmem (gdOf f) d (Fin.ofNat 8 f.minor))

def decTtime (f : Fields) : Dec Instr := do
  need (bare f true true true && f.minor == 0 && f.i16 == 0)
  let d ← opG f.d 0
  let a ← opG f.a 1
  let b ← opG f.b 2
  .ok (.ttime (gdOf f) d a b)

/-- `cdef` (R157): offset in [83:64], [95:84] zero. -/
def decCdef (f : Fields) : Dec Instr := do
  need (plainOsr f && f.ty == 0 && f.minor == 0 && f.len == 2 && f.b == 0 && decide (f.ext < 2 ^ 20))
  let c ← opC f.d 0
  let a ← opG f.a 1
  .ok (.cdef (gdOf f) c a (BitVec.ofNat 20 f.ext) (BitVec.ofNat 8 f.i16) (BitVec.ofNat 8 (f.i16 / 256)))

/-- `cadv` and `cwait` (R158). -/
def decCnt (f : Fields) (wait : Bool) : Dec Instr := do
  need (bare f true true false && decide (f.minor < 4)
    && (if f.minor < 2 then f.a == 0 && decide (f.i16 < 2 ^ 9) else f.i16 == 0))
  let c ← opC f.d 0
  let k ← if f.minor < 2 then Except.ok (CntSrc.imm (BitVec.ofNat 9 f.i16))
    else (do let a ← opG f.a 1; Except.ok (CntSrc.reg a))
  .ok (if f.minor % 2 = 1 then (if wait then .cwaitProd (gdOf f) c k else .cadvProd (gdOf f) c k)
    else (if wait then .cwaitCons (gdOf f) c k else .cadvCons (gdOf f) c k))

def decCstat (f : Fields) : Dec Instr := do
  need (bare f true true false && f.minor == 0 && f.i16 == 0)
  let d ← opG f.d 0
  let c ← opC f.a 1
  .ok (.cstat (gdOf f) d c)

/-- `sbind` (R134): the descriptor stands in [127:40]. -/
def decSbind (f : Fields) : Dec Instr := do
  need (plainOsr f && f.len == 3 && f.b == 0 && f.i16 == 0 && decide (f.minor < 8) && f.ty != 3
    && f.ty != 7)
  let d ← opV0 f.d 0
  let a ← opG f.a 1
  .ok (.sbind (gdOf f) (Fin.ofNat 4 f.minor) d a (f.minor / 4 == 1) (tyOf f.ty) (BitVec.ofNat 20 f.ext)
    (BitVec.ofNat 12 (f.ext / 2 ^ 20)) (BitVec.ofNat 8 (f.ext / 2 ^ 32))
    (BitVec.ofNat 16 (f.ext / 2 ^ 40)) (BitVec.ofNat 8 (f.ext / 2 ^ 56)))

def decSunbind (f : Fields) : Dec Instr := do
  need (bare f false false false && decide (f.minor < 4) && f.i16 == 0)
  .ok (.sunbind (gdOf f) (Fin.ofNat 4 f.minor))

def decSend (f : Fields) : Dec Instr := do
  need (bare f false true true)
  let a ← opG f.a 1
  let b ← opG f.b 2
  .ok (.send (gdOf f) a b (BitVec.ofNat 16 f.i16) (Fin.ofNat 16 f.minor))

def decRecv (f : Fields) : Dec Instr := do
  need (bare f true true false && f.minor == 0)
  let d ← opG f.d 0
  let a ← opG f.a 1
  .ok (.recv (gdOf f) d a (BitVec.ofNat 16 f.i16))

def decRpoll (f : Fields) : Dec Instr := do
  need (bare f true false false && f.minor == 0 && f.i16 == 0)
  let d ← opG f.d 0
  .ok (.rpoll (gdOf f) d)

/-! ### Vector instructions (R116 to R131) -/

/-- The B field of a form with `bs` (R117). -/
def opVB (f : Fields) (bs : Bool) : Dec VB := do
  if bs then
    let b ← opG f.b 2
    .ok (.scal b)
  else
    let b ← opV f.b 2
    .ok (.vec b)

/-- Lane-wise forms with two sources (R120). `tys`: accepted codes; `satOk`, `roundOk` for this type. -/
def decVBin (f : Fields) (tyOk satOk roundOk : Bool) (mk : VBin → Instr) : Dec Instr := do
  let bs := f.minor % 2 == 1
  let named := namesC f.d || namesC f.a || (!bs && namesC f.b)
  need (f.len == 1 && f.i16 == 0 && tyOk && decide (f.minor < 4) && (satOk || decide (f.minor < 2))
    && (roundOk || f.round == 0) && cqBitsOk f named)
  let d ← opV f.d 0
  let a ← opV f.a 1
  let b ← opVB f bs
  operand (!d.clash a && !b.clash d) 0
  .ok (mk ⟨gdOf f, d, a, b, tyOf f.ty, f.minor / 2 == 1, roundOf f.round, cqOf f named⟩)

def lane32 (f : Fields) : Bool := f.ty == 2 || f.ty == 6 || f.ty == 10

def decVUn (f : Fields) (mk : VUn → Instr) : Dec Instr := do
  let named := namesC f.d || namesC f.a
  need (f.len == 1 && f.i16 == 0 && f.b == 0 && f.round == 0 && cqBitsOk f named
    && ((f.ty == 2 && (f.minor == 0 || f.minor == 2)) || (f.ty == 10 && f.minor == 0)))
  let d ← opV f.d 0
  let a ← opV f.a 1
  operand (!d.clash a) 0
  .ok (mk ⟨gdOf f, d, a, tyOf f.ty, f.minor == 2, cqOf f named⟩)

def decVTri (f : Fields) (mk : VTri → Instr) : Dec Instr := do
  let bs := f.minor % 2 == 1
  let named := namesC f.d || namesC f.a || (!bs && namesC f.b) || namesC f.i16
  need (f.len == 1 && f.ty == 10 && decide (f.minor < 2) && decide (f.i16 < 64) && cqBitsOk f named)
  let d ← opV f.d 0
  let a ← opV f.a 1
  let b ← opVB f bs
  let c ← opV f.i16 3
  operand (!d.clash a && !b.clash d && !d.clash c) 0
  .ok (mk ⟨gdOf f, d, a, b, c, roundOf f.round, cqOf f named⟩)

def decVcvt (f : Fields) : Dec Instr := do
  let named := namesC f.d || namesC f.a
  need (f.len == 1 && f.i16 == 0 && f.b == 0 && f.ty != 3 && f.ty != 7 && f.minor != 3 && f.minor != 7
    && cqBitsOk f named)
  let d ← opV f.d 0
  let a ← opV f.a 1
  operand (!d.clash a) 0
  .ok (.vcvt (gdOf f) d a (tyOf f.minor) (tyOf f.ty) (roundOf f.round) (cqOf f named))

def decVcmp (f : Fields) : Dec Instr := do
  let bs := f.minor / 8 == 1
  let named := namesC f.a || (!bs && namesC f.b)
  need (f.len == 1 && f.i16 == 0 && f.round == 0 && lane32 f && decide (f.minor % 8 < 6)
    && cqBitsOk f named)
  let d ← op8 f.d 0
  let a ← opV f.a 1
  let b ← opVB f bs
  .ok (.vcmp (gdOf f) d a b (condOf (f.minor % 8)) (tyOf f.ty) (cqOf f named))

def decVsel (f : Fields) : Dec Instr := do
  let named := namesC f.d || namesC f.a || namesC f.b
  need (f.len == 1 && f.round == 0 && f.ty == 0 && f.minor == 0 && decide (f.i16 < 64)
    && cqBitsOk f named)
  let d ← opV f.d 0
  let a ← opV f.a 1
  let b ← opV f.b 2
  let c ← op8 f.i16 3
  operand (!d.clash a && !d.clash b) 0
  .ok (.vsel (gdOf f) d a b c (cqOf f named))

def decVperm (f : Fields) : Dec Instr := do
  let named := namesC f.d || namesC f.a || namesC f.b
  need (f.len == 1 && f.round == 0 && f.ty == 0 && f.minor == 0 && f.i16 == 0 && cqBitsOk f named)
  let d ← opV f.d 0
  let a ← opV f.a 1
  let b ← opV f.b 2
  operand (!d.clash a && !d.clash b) 0
  .ok (.vperm (gdOf f) d a b (cqOf f named))

def decVbcast (f : Fields) : Dec Instr := do
  let named := namesC f.d || (f.minor == 1 && namesC f.a)
  need (f.len == 1 && f.round == 0 && f.ty == 0 && f.b == 0 && decide (f.minor < 2)
    && (if f.minor = 0 then f.i16 == 0 else decide (f.i16 < 16)) && cqBitsOk f named)
  let d ← opV f.d 0
  if f.minor = 0 then
    let a ← opG f.a 1
    .ok (.vbcast (gdOf f) d (.scal a) (cqOf f named))
  else
    let a ← opV f.a 1
    operand (!d.clash a) 0
    .ok (.vbcast (gdOf f) d (.lane a (Fin.ofNat 16 f.i16)) (cqOf f named))

def decVsum (f : Fields) : Dec Instr := do
  let named := namesC f.d || namesC f.a
  need (f.len == 1 && f.i16 == 0 && f.b == 0 && lane32 f && (f.minor == 0 || (f.minor == 2 && f.ty != 10))
    && (f.round == 0 || f.ty == 10) && cqBitsOk f named)
  let d ← opV f.d 0
  let a ← opV f.a 1
  operand (!d.clash a) 0
  .ok (.vsum (gdOf f) d a (tyOf f.ty) (f.minor == 2) (roundOf f.round) (cqOf f named))

def decVdot (f : Fields) : Dec Instr := do
  let bs := f.minor % 2 == 1
  let named := namesC f.d || namesC f.a || (!bs && namesC f.b)
  need (f.len == 1 && f.i16 == 0 && f.round == 0
    && (f.ty == 0 || f.ty == 1 || f.ty == 4 || f.ty == 5 || f.ty == 8 || f.ty == 9)
    && (f.minor == 0 || f.minor == 1 || f.minor == 4 || f.minor == 5) && cqBitsOk f named)
  let d ← opV f.d 0
  let a ← opV f.a 1
  let b ← opVB f bs
  operand (!d.clash a && !b.clash d) 0
  .ok (.vdot (gdOf f) d a b (tyOf f.ty) (f.minor / 4 == 1) (cqOf f named))

/-- `vld` and `vst` (R128). A store's D that names a cistern makes the word a qualified one (R47) and is
illegal-operand. -/
def decVmem (f : Fields) (load : Bool) : Dec Instr := do
  let named := namesC f.d
  need (immLenOk f && f.b == 0 && f.round == 0 && f.ty != 3 && f.ty != 7 && decide (f.minor < 2)
    && cqOrderOk f named load (f.minor == 1))
  let d ← opV f.d 0
  let a ← opG f.a 1
  operand (load || !d.isC) 0
  let m : VMem := ⟨gdOf f, d, a, dispOf f, f.minor == 1, tyOf f.ty,
    if named then .plain else orderOf f.order, if named then .str else scopeOf f.scope, cqOf f named⟩
  .ok (if load then .vld m else .vst m)

/-- `vgath` and `vscat` (R128). -/
def decVidx (f : Fields) (load : Bool) : Dec Instr := do
  let named := namesC f.d || namesC f.b
  need (immLenOk f && f.round == 0 && f.ty != 3 && f.ty != 7 && f.ty != 8 && f.ty != 9 && f.ty != 15
    && decide (f.minor < 8) && cqOrderOk f named load (f.minor % 2 == 1))
  let d ← opV f.d 0
  let a ← opG f.a 1
  let b ← opV f.b 2
  operand ((load || !d.isC) && !d.clash b) 0
  let m : VIdx := ⟨gdOf f, d, a, b, Fin.ofNat 4 (f.minor / 2), dispOf f, f.minor % 2 == 1, tyOf f.ty,
    if named then .plain else orderOf f.order, if named then .str else scopeOf f.scope, cqOf f named⟩
  .ok (if load then .vgath m else .vscat m)

def decVmov (f : Fields) : Dec Instr := do
  let named := (f.minor != 1 && namesC f.d) || (f.minor != 2 && namesC f.a)
  need (f.len == 1 && f.round == 0 && f.ty == 0 && f.b == 0 && decide (f.minor < 3)
    && (if f.minor = 0 then f.i16 == 0 else decide (f.i16 < 16)) && cqBitsOk f named)
  if f.minor = 0 then
    let d ← opV f.d 0
    let a ← opV f.a 1
    operand (!d.clash a) 0
    .ok (.vmov (gdOf f) (.vec d a) (cqOf f named))
  else if f.minor = 1 then
    let d ← opG f.d 0
    let a ← opV f.a 1
    .ok (.vmov (gdOf f) (.toG d a (Fin.ofNat 16 f.i16)) (cqOf f named))
  else
    let d ← opV f.d 0
    let a ← opG f.a 1
    .ok (.vmov (gdOf f) (.fromG d a (Fin.ofNat 16 f.i16)) (cqOf f named))

/-- Special functions (R62, R131). -/
def decSpec (f : Fields) (mk : Spec → Instr) : Dec Instr := do
  let named := namesC f.d || namesC f.a
  need (f.len == 1 && f.i16 == 0 && f.round == 0 && f.ty == 10 && f.b == 0 && decide (f.minor < 2)
    && cqBitsOk f named)
  let d ← opV f.d 0
  let a ← opV f.a 1
  operand (!d.clash a) 0
  .ok (mk ⟨gdOf f, d, a, f.minor == 1, cqOf f named⟩)

/-! ### Stalagmite engine (R177, R213) -/

def decLplan (f : Fields) : Dec Instr := do
  let named := namesC f.a
  need (f.len == 1 && f.i16 == 0 && f.round == 0 && f.ty == 0 && f.b == 0 && decide (f.minor < 5)
    && cqBitsOk f named)
  let k ← op8 f.d 0
  let r ← opE f.a 1
  .ok (.lplan (gdOf f) k r (fmtOf f.minor) (cqOf f named))

def decLdot (f : Fields) (two : Bool) : Dec Instr := do
  let named := namesC f.a || namesC f.b
  need (f.len == 1 && decide (f.i16 < 64) && f.round == 0 && (f.ty == 0 || f.ty == 13)
    && decide (f.minor < 5) && cqBitsOk f named)
  operand (!two || decide (f.d ≤ 62)) 0
  let act ← opE f.a 1
  let r ← opE f.b 2
  let k ← op8 f.i16 3
  operand (!two || decide (f.i16 ≤ 6)) 3
  let x : Dot := ⟨gdOf f, opW f.d, act, r, k, fmtOf f.minor, tyOf f.ty, cqOf f named⟩
  .ok (if two then .ldot2 x else .ldot x)

def decLsort (f : Fields) : Dec Instr := do
  let named := namesC f.d || namesC f.a
  need (f.len == 1 && f.i16 == 0 && f.b == 0 && (f.ty == 0 || f.ty == 10 || f.ty == 11 || f.ty == 13)
    && (f.minor == 1 || f.minor == 2 || f.minor == 4) && cqBitsOk f named)
  let d ← opE f.d 0
  let s ← opE f.a 1
  operand (!d.clash s) 0
  .ok (.lsort (gdOf f) d s (fmtOf f.minor) (tyOf f.ty) (roundOf f.round) (cqOf f named))

def decLclr (f : Fields) : Dec Instr := do
  need (bare f true false false && f.minor == 0 && decide (f.i16 < 256))
  .ok (.lclr (gdOf f) (opW f.d) (BitVec.ofNat 8 f.i16))

/-- The four forms of `lrd` (R187). -/
def decLrd (f : Fields) : Dec Instr := do
  let named := f.minor == 3 && namesC f.d
  need (f.len == 1 && f.i16 == 0 && decide (f.minor < 4) && cqBitsOk f named
    && (f.minor == 1 || f.b == 0)
    && (if f.minor == 0 || f.minor == 3 then f.ty == 10 || f.ty == 11 else f.ty == 0 && f.round == 0))
  if f.minor = 0 then
    let d ← opG f.d 0
    .ok (.lrd (gdOf f) d (opW f.a) (tyOf f.ty) (roundOf f.round))
  else if f.minor = 1 then
    let d ← opG f.d 0
    let b ← opG f.b 2
    operand (pairOk d b) 2
    .ok (.lrdRaw (gdOf f) d b (opW f.a))
  else if f.minor = 2 then
    let d ← opG f.d 0
    .ok (.lrdSt (gdOf f) d (opW f.a))
  else
    let d ← opV f.d 0
    operand (decide (f.a ≤ 48)) 1
    .ok (.lrdV (gdOf f) d (opW f.a) (tyOf f.ty) (roundOf f.round) (cqOf f named))

def decLwr (f : Fields) : Dec Instr := do
  need (bare f true true true && decide (f.minor < 2) && decide (f.i16 < 64))
  let a ← opG f.a 1
  let b ← opG f.b 2
  let c ← opG f.i16 3
  .ok (if f.minor = 0 then .lwr (gdOf f) (opW f.d) a b c else .lwrAdd (gdOf f) (opW f.d) a b c)

def decLprog (f : Fields) : Dec Instr := do
  need (bare f (f.minor == 0) (f.minor == 1) false && decide (f.minor < 3) && f.i16 == 0)
  if f.minor = 0 then
    let d ← opG f.d 0
    .ok (.lprog (gdOf f) d)
  else if f.minor = 1 then
    let a ← opG f.a 1
    .ok (.lprogSet (gdOf f) a)
  else .ok (.lprogDrop (gdOf f))

def decLpert (f : Fields) : Dec Instr := do
  need (bare f false true false && f.minor == 0 && f.i16 == 0)
  let a ← opG f.a 1
  .ok (.lpert (gdOf f) a)

/-- `lgang` and `lrot` (R213). -/
def decJoint (f : Fields) (mk : Joint → Instr) : Dec Instr := do
  need (f.len == 1 && f.order == 0 && f.scope == 0 && f.round == 0 && (f.ty == 0 || f.ty == 13)
    && decide (f.minor < 4) && decide (f.i16 < 256))
  let a ← opG f.a 1
  let b ← opG f.b 2
  .ok (mk ⟨gdOf f, opW f.d, a, b, BitVec.ofNat 8 f.i16, fmtOf f.minor, tyOf f.ty⟩)

/-! ### Handles, copies, windows, chambers, pairs -/

/-- `hnew`, `hwiden`, `hnarrow` (R297). -/
def decOps (f : Fields) (mk : Guard → Fin 32 → Fin 32 → OpsSrc → Instr) : Dec Instr := do
  need (bare f true true true && decide (f.minor < 2) && (if f.minor = 0 then f.b == 0 else f.i16 == 0))
  let d ← opG f.d 0
  let a ← opG f.a 1
  if f.minor = 0 then .ok (mk (gdOf f) d a (.imm (BitVec.ofNat 16 f.i16)))
  else
    let b ← opG f.b 2
    .ok (mk (gdOf f) d a (.reg b))

def decDA (f : Fields) (mk : Guard → Fin 32 → Fin 32 → Instr) : Dec Instr := do
  need (bare f true true false && f.minor == 0 && f.i16 == 0)
  let d ← opG f.d 0
  let a ← opG f.a 1
  .ok (mk (gdOf f) d a)

def decHquery (f : Fields) : Dec Instr := do
  need (bare f true true false && decide (f.minor ≤ 4) && f.i16 == 0)
  let d ← opG f.d 0
  let a ← opG f.a 1
  .ok (.hquery (gdOf f) d a (Fin.ofNat 16 f.minor))

def decHbind (f : Fields) : Dec Instr := do
  need (bare f true true true && decide (f.minor < 8) && decide (f.i16 < 64))
  let d ← opG f.d 0
  let a ← opG f.a 1
  let b ← opG f.b 2
  let c ← opG f.i16 3
  .ok (.hbind (gdOf f) d (Fin.ofNat 8 f.minor) a b c)

def decHunbind (f : Fields) : Dec Instr := do
  need (bare f (decide (8 ≤ f.minor)) false false && f.i16 == 0)
  let d ← opG f.d 0
  .ok (if f.minor < 8 then .hunbind (gdOf f) (Fin.ofNat 8 f.minor)
    else .hunbindWb (gdOf f) d (Fin.ofNat 8 f.minor))

/-- The local side of a copy (R274). -/
def opSide (f : Fields) : Dec LSide :=
  if f.minor / 2 % 2 = 1 then (do let c ← opC f.b 2; .ok (.c c))
  else (do let b ← opG f.b 2; .ok (.ls b))

def decCopy (f : Fields) (minorOk : Bool) (mk : Copy → Instr) : Dec Instr := do
  need (bare f true true true && minorOk && decide (f.i16 < 64))
  let d ← opG f.d 0
  let a ← opG f.a 1
  let b ← opSide f
  let c ← opG f.i16 3
  .ok (mk ⟨gdOf f, d, a, b, c⟩)

def decHexport (f : Fields) : Dec Instr := do
  need (bare f true true true && f.minor == 0 && f.i16 == 0)
  let d ← opG f.d 0
  let a ← opG f.a 1
  let b ← opG f.b 2
  .ok (.hexport (gdOf f) d a b)

def decKview (f : Fields) : Dec Instr := do
  need (bare f true (f.minor == 0) true && decide (f.minor < 2) && f.i16 == 0)
  let d ← opG f.d 0
  let a ← opG f.a 1
  let b ← opG f.b 2
  .ok (if f.minor = 0 then .kview (gdOf f) d a b else .kviewDrop (gdOf f) d b)

/-- The collectives (R355). -/
def decColl (f : Fields) (rwOk roundOk : Bool) (mk : Coll → Bool → Instr) : Dec Instr := do
  need (f.len == 1 && f.i16 == 0 && f.order == 0 && f.scope == 0 && (roundOk || f.round == 0)
    && (f.ty == 10 || f.ty == 11 || f.ty == 13) && decide (f.minor < (if rwOk then 2 else 1)))
  let d ← opG f.d 0
  let a ← opG f.a 1
  let b ← opG f.b 2
  .ok (mk ⟨gdOf f, d, a, b, tyOf f.ty, roundOf f.round⟩ (f.minor == 1))

def decKbar (f : Fields) : Dec Instr := do
  need (bare f true false true && f.minor == 0 && f.i16 == 0)
  let d ← opG f.d 0
  let b ← opG f.b 2
  .ok (.kbar (gdOf f) d b)

def decKjoin (f : Fields) : Dec Instr := do
  need (bare f true true true && f.minor == 0 && f.i16 == 0)
  let d ← opG f.d 0
  let a ← opG f.a 1
  let b ← opG f.b 2
  .ok (.kjoin (gdOf f) d a b)

def decKstat (f : Fields) : Dec Instr := do
  need (bare f true (f.minor == 4) true && decide (f.minor ≤ 4) && f.i16 == 0)
  let d ← opG f.d 0
  let a ← opG f.a 1
  let b ← opG f.b 2
  .ok (.kstat (gdOf f) d a b (Fin.ofNat 16 f.minor))

def decPairStart (f : Fields) : Dec Instr := do
  need (bare f true true false && f.minor == 0 && f.i16 == 0)
  let d ← opG f.d 0
  let a ← opG f.a 1
  .ok (.pair (gdOf f) d a)

def decUnpair (f : Fields) : Dec Instr := do
  need (bare f true false false && f.minor == 0 && f.i16 == 0)
  let d ← opG f.d 0
  .ok (.unpair (gdOf f) d)

def decFprint (f : Fields) : Dec Instr := do
  need (bare f true false false && decide (f.minor < 3) && f.i16 == 0)
  let d ← opG f.d 0
  .ok (if f.minor = 0 then .fprint (gdOf f) d
    else if f.minor = 1 then .fprintLast (gdOf f) d else .fprintSt (gdOf f) d)

/-- The opcode map (R61) less the `rep` prefix; every other major is reserved. -/
def decodeFields (f : Fields) : Dec Instr :=
  match f.major with
  | 0x01 => decAlu2 f true .add
  | 0x02 => decAlu2 f true .sub
  | 0x03 => decAlu2 f true .mul
  | 0x04 => decAlu2 f false .mulh
  | 0x05 => decAlu2 f false .div
  | 0x06 => decAlu2 f false .rem
  | 0x07 => decAlu2 f false .and
  | 0x08 => decAlu2 f false .or
  | 0x09 => decAlu2 f false .xor
  | 0x0A => decAlu2 f false .andn
  | 0x0B => decAlu2 f false .shl
  | 0x0C => decAlu2 f false .shr
  | 0x0D => decAlu2 f false .sar
  | 0x0E => decAlu2 f false .rol
  | 0x0F => decAlu1 f .clz
  | 0x10 => decAlu1 f .ctz
  | 0x11 => decAlu1 f .popc
  | 0x12 => decAlu2 f false .min
  | 0x13 => decAlu2 f false .max
  | 0x14 => decSel f
  | 0x15 => decCmp f
  | 0x16 => decBits f false
  | 0x17 => decBits f true
  | 0x18 => decLea f
  | 0x19 => decAlu1 f .mov
  | 0x1A => decLi f
  | 0x30 => decNop f
  | 0x31 => decBr f
  | 0x32 => decJmp f
  | 0x33 => decJal f
  | 0x34 => decJr f
  | 0x35 => decRet f
  | 0x36 => decLoop f
  | 0x37 => decTrap f
  | 0x38 => decSysrd f
  | 0x39 => decSyswr f
  | 0x3A => decThaw f
  | 0x40 => decLdSt f true
  | 0x41 => decLdSt f false
  | 0x42 => decPair f true
  | 0x43 => decPair f false
  | 0x44 => decFence f
  | 0x45 => decQfence f
  | 0x50 => decAtom f false .aadd
  | 0x51 => decAtom f false .amin
  | 0x52 => decAtom f false .amax
  | 0x53 => decAtom f false .aand
  | 0x54 => decAtom f false .aor
  | 0x55 => decAtom f false .axor
  | 0x56 => decAtom f false .aswap
  | 0x57 => decAcas f
  | 0x58 => decAtom f true .afadd
  | 0x60 => decXstart f
  | 0x61 => decXjoin f
  | 0x62 => decXend f
  | 0x63 => decSpawn f false
  | 0x64 => decSpawn f true
  | 0x65 => decTfin f
  | 0x66 => decTself f
  | 0x67 => decWapp f
  | 0x68 => decWtake f
  | 0x69 => decDbar f
  | 0x6A => decDphase f
  | 0x6B => decDmem f
  | 0x6C => decTtime f
  | 0x70 => decCdef f
  | 0x71 => decCnt f false
  | 0x72 => decCnt f true
  | 0x73 => decCstat f
  | 0x74 => decSbind f
  | 0x75 => decSunbind f
  | 0x76 => decSend f
  | 0x77 => decRecv f
  | 0x78 => decRpoll f
  | 0x80 => decVBin f (lane32 f) (f.ty != 10) (f.ty == 10) .vadd
  | 0x81 => decVBin f (lane32 f) (f.ty != 10) (f.ty == 10) .vsub
  | 0x82 => decVBin f (lane32 f) (f.ty != 10) (f.ty == 10) .vmul
  | 0x83 => decVTri f .vfma
  | 0x84 => decVTri f .vfms
  | 0x85 => decVBin f (lane32 f) false false .vmin
  | 0x86 => decVBin f (lane32 f) false false .vmax
  | 0x87 => decVUn f .vabs
  | 0x88 => decVUn f .vneg
  | 0x89 => decVcvt f
  | 0x8A => decVcmp f
  | 0x8B => decVsel f
  | 0x8C => decVBin f (f.ty == 0) false false .vand
  | 0x8D => decVBin f (f.ty == 0) false false .vor
  | 0x8E => decVBin f (f.ty == 0) false false .vxor
  | 0x8F => decVBin f (f.ty == 0) false false .vshl
  | 0x90 => decVBin f (f.ty == 0) false false .vshr
  | 0x91 => decVBin f (f.ty == 0) false false .vsar
  | 0x92 => decVperm f
  | 0x93 => decVbcast f
  | 0x94 => decVsum f
  | 0x95 => decVdot f
  | 0x96 => decVmem f true
  | 0x97 => decVmem f false
  | 0x98 => decVidx f true
  | 0x99 => decVidx f false
  | 0x9A => decVmov f
  | 0xB0 => decSpec f .fexp
  | 0xB1 => decSpec f .flog
  | 0xB2 => decSpec f .frcp
  | 0xB3 => decSpec f .frsq
  | 0xB4 => decSpec f .fsqrt
  | 0xB5 => decSpec f .fsin
  | 0xB6 => decSpec f .fcos
  | 0xB7 => decSpec f .ftanh
  | 0xB8 => decSpec f .fsig
  | 0xB9 => decSpec f .fgelu
  | 0xBA => decSpec f .fsilu
  | 0xBB => decSpec f .ferf
  | 0xC0 => decLplan f
  | 0xC1 => decLdot f false
  | 0xC2 => decLdot f true
  | 0xC3 => decLsort f
  | 0xC4 => decLclr f
  | 0xC5 => decLrd f
  | 0xC6 => decLwr f
  | 0xC7 => decLprog f
  | 0xC8 => decLpert f
  | 0xC9 => decJoint f .lgang
  | 0xCA => decJoint f .lrot
  | 0xD0 => decOps f .hnew
  | 0xD1 => decDA f .hfree
  | 0xD2 => decOps f .hwiden
  | 0xD3 => decOps f .hnarrow
  | 0xD4 => decHquery f
  | 0xD5 => decHbind f
  | 0xD6 => decHunbind f
  | 0xD7 => if f.minor % 2 = 0 then decCopy f (decide (f.minor < 8)) (.hcopyLd · (f.minor / 4 == 1))
      else decCopy f (f.minor == 1 || f.minor == 3) .hcopySt
  | 0xD8 => decCopy f (f.minor == 0 || f.minor == 2) .hgath
  | 0xD9 => if f.minor % 2 = 0 then decCopy f (decide (f.minor < 4)) .hscat
      else decCopy f (decide (f.minor < 4)) .hscatAdd
  | 0xDA => decHexport f
  | 0xDB => decDA f .himport
  | 0xE0 => decKview f
  | 0xE1 => decColl f true true .kred
  | 0xE2 => decColl f false false (fun x _ => .kbcast x)
  | 0xE3 => decColl f false false (fun x _ => .kgath x)
  | 0xE4 => decColl f false true (fun x _ => .krsc x)
  | 0xE5 => decKbar f
  | 0xE6 => decKjoin f
  | 0xE7 => decKstat f
  | 0xE8 => decPairStart f
  | 0xE9 => decUnpair f
  | 0xEA => decFprint f
  | _ => .error .illegalInstruction

/-! ### The encoder -/

/-- The common fields of an instruction (R39), every operand field zero. -/
def base (len major : Nat) (gd : Guard) : Fields :=
  ⟨len, major, gd.p.val, b2n gd.neg, 0, 0, 0, 0, 0, 0, 0, 0, 0, 0⟩

def Disp.len : Disp → Nat
  | .d16 _ => 1
  | .d32 _ => 2

def Disp.i16 : Disp → Nat
  | .d16 i => i.toNat
  | .d32 _ => 0

def Disp.ext : Disp → Nat
  | .d16 _ => 0
  | .d32 i => i.toNat

/-- `f` in the length of displacement `d`, which fills its immediate. -/
def withDisp (f : Fields) (d : Disp) : Fields :=
  { f with len := Disp.len d, i16 := Disp.i16 d, ext := Disp.ext d }

def vNum : VOp → Nat
  | .v n => n.val
  | .c n => n.val + 32

def eNum : EOp → Nat
  | .ls n => n.val
  | .c n => n.val + 32

def vbNum : VB → Nat
  | .vec x => vNum x
  | .scal b => b.val

def vbBs : VB → Nat
  | .vec _ => 0
  | .scal _ => 1

/-- Bits [45:40] of a form with qualifier `cq` and no order (R47). -/
def withCq (f : Fields) : Option CQual → Fields
  | none => f
  | some q => { f with order := q.wait.val, scope := b2n q.adv }

def withCqOrder (f : Fields) (cq : Option CQual) (o : Order) (s : Scope) : Fields :=
  match cq with
  | none => { f with order := o.code, scope := s.code }
  | some q => { f with order := q.wait.val, scope := b2n q.adv }

def encAlu2 (major : Nat) (x : Alu2) : Fields :=
  let f := { base 1 major x.gd with d := x.d.val, a := x.a.val, ty := x.ty.code, minor := 2 * b2n x.sat }
  match x.b with
  | .reg b => { f with b := b.val }
  | .imm16 i => { f with minor := f.minor + 1, i16 := i.toNat }
  | .imm32 i => { f with len := 2, minor := f.minor + 1, ext := i.toNat }

def encAlu1 (major : Nat) (x : Alu1) : Fields :=
  { base 1 major x.gd with d := x.d.val, a := x.a.val, ty := x.ty.code }

def encAtom (major : Nat) (x : Atom) : Fields :=
  withDisp { base 1 major x.gd with
    d := x.d.val, a := x.a.val, b := x.b.val, ty := x.ty.code, order := x.order.code, scope := x.scope.code }
    x.disp

def encVBin (major : Nat) (x : VBin) : Fields :=
  withCq { base 1 major x.gd with
    d := vNum x.d, a := vNum x.a, b := vbNum x.b, ty := x.ty.code, round := x.round.code,
    minor := vbBs x.b + 2 * b2n x.sat } x.cq

def encVUn (major : Nat) (x : VUn) : Fields :=
  withCq { base 1 major x.gd with d := vNum x.d, a := vNum x.a, ty := x.ty.code, minor := 2 * b2n x.sat } x.cq

def encVTri (major : Nat) (x : VTri) : Fields :=
  withCq { base 1 major x.gd with
    d := vNum x.d, a := vNum x.a, b := vbNum x.b, i16 := vNum x.c, ty := 10, round := x.round.code,
    minor := vbBs x.b } x.cq

def encVMem (major : Nat) (x : VMem) : Fields :=
  withDisp (withCqOrder { base 1 major x.gd with
    d := vNum x.d, a := x.a.val, ty := x.ty.code, minor := b2n x.sp } x.cq x.order x.scope) x.disp

def encVIdx (major : Nat) (x : VIdx) : Fields :=
  withDisp (withCqOrder { base 1 major x.gd with
    d := vNum x.d, a := x.a.val, b := vNum x.b, ty := x.ty.code, minor := b2n x.sp + 2 * x.sc.val }
    x.cq x.order x.scope) x.disp

def encSpec (major : Nat) (x : Spec) : Fields :=
  withCq { base 1 major x.gd with d := vNum x.d, a := vNum x.a, ty := 10, minor := b2n x.acc } x.cq

def encDot (major : Nat) (x : Dot) : Fields :=
  withCq { base 1 major x.gd with
    d := x.w.val, a := eNum x.act, b := eNum x.rcd, i16 := x.k.val, minor := x.fmt.code, ty := x.ty.code } x.cq

def encJoint (major : Nat) (x : Joint) : Fields :=
  { base 1 major x.gd with
    d := x.w.val, a := x.a.val, b := x.b.val, i16 := x.n1.toNat, minor := x.fmt.code, ty := x.ty.code }

def encCopy (major minor : Nat) (x : Copy) : Fields :=
  let f := { base 1 major x.gd with d := x.d.val, a := x.a.val, i16 := x.c.val, minor := minor }
  match x.b with
  | .ls b => { f with b := b.val }
  | .c c => { f with b := c.val + 32, minor := minor + 2 }

def encColl (major minor : Nat) (x : Coll) : Fields :=
  { base 1 major x.gd with
    d := x.d.val, a := x.a.val, b := x.b.val, ty := x.ty.code, round := x.round.code, minor := minor }

def encSys (major : Nat) (gd : Guard) (d a : Nat) (reg : BitVec 16) (f : Option RegField) : Fields :=
  let r := { base 1 major gd with d := d, a := a, i16 := reg.toNat }
  match f with
  | none => r
  | some x => { r with len := 2, ext := x.lo.val + 64 * x.w1.val }

def encMem (major : Nat) (gd : Guard) (d : Fin 32) (m : Mem) (ty : Nat) (o : Order) (s : Scope) : Fields :=
  withDisp { base 1 major gd with
    d := d.val, a := m.a.val, b := m.b.val, ty := ty, order := o.code, scope := s.code,
    minor := b2n m.sp + 2 * m.sc.val } m.disp

def encPair (major : Nat) (gd : Guard) (d c : Fin 32) (m : Mem) (o : Order) (s : Scope) : Fields :=
  { encMem major gd d m 0 o s with i16 := c.val }

def encCnt (major prod : Nat) (gd : Guard) (c : Fin 16) (k : CntSrc) : Fields :=
  let f := { base 1 major gd with d := c.val + 32, minor := prod }
  match k with
  | .imm i => { f with i16 := i.toNat }
  | .reg a => { f with a := a.val, minor := prod + 2 }

def encOps (major : Nat) (gd : Guard) (d a : Fin 32) (o : OpsSrc) : Fields :=
  let f := { base 1 major gd with d := d.val, a := a.val }
  match o with
  | .imm m => { f with i16 := m.toNat }
  | .reg b => { f with b := b.val, minor := 1 }

def encLi (gd : Guard) (d : Fin 32) (i : LiImm) : Fields :=
  let f := { base 1 0x1A gd with d := d.val }
  match i with
  | .i16 x => { f with i16 := x.toNat }
  | .i32 x => { f with len := 2, ext := x.toNat }
  | .i64 x => { f with len := 3, ext := x.toNat }

/-- The fields of each instruction's word; for a `rep`, of its prefix (R140). Events have no word. -/
def toFields : Instr → Fields
  | .add x => encAlu2 0x01 x
  | .sub x => encAlu2 0x02 x
  | .mul x => encAlu2 0x03 x
  | .mulh x => encAlu2 0x04 x
  | .div x => encAlu2 0x05 x
  | .rem x => encAlu2 0x06 x
  | .and x => encAlu2 0x07 x
  | .or x => encAlu2 0x08 x
  | .xor x => encAlu2 0x09 x
  | .andn x => encAlu2 0x0A x
  | .shl x => encAlu2 0x0B x
  | .shr x => encAlu2 0x0C x
  | .sar x => encAlu2 0x0D x
  | .rol x => encAlu2 0x0E x
  | .clz x => encAlu1 0x0F x
  | .ctz x => encAlu1 0x10 x
  | .popc x => encAlu1 0x11 x
  | .min x => encAlu2 0x12 x
  | .max x => encAlu2 0x13 x
  | .sel gd d a b c => { base 1 0x14 gd with d := d.val, a := a.val, b := b.val, i16 := c.val }
  | .cmp gd cond ty d a b =>
    let f := { base 1 0x15 gd with d := d.val, a := a.val, ty := ty.code, minor := cond.code }
    match b with
    | .reg b => { f with b := b.val }
    | .imm16 i => { f with minor := cond.code + 8, i16 := i.toNat }
    | .imm32 i => { f with len := 2, minor := cond.code + 8, ext := i.toNat }
  | .bext gd d a pos w1 s =>
    { base 1 0x16 gd with d := d.val, a := a.val, minor := b2n s, i16 := pos.val + 64 * w1.val }
  | .bins gd d a pos w1 => { base 1 0x17 gd with d := d.val, a := a.val, i16 := pos.val + 64 * w1.val }
  | .lea gd d a b sc disp =>
    withDisp { base 1 0x18 gd with d := d.val, a := a.val, b := b.val, minor := sc.val } disp
  | .mov x => encAlu1 0x19 x
  | .li gd d i => encLi gd d i
  | .nop n => base (match n with | .b8 => 1 | .b12 => 2 | .b16 => 3) 0x30 ⟨0, false⟩
  | .nopBlk => { base 1 0x30 ⟨0, false⟩ with minor := 1 }
  | .br gd off => withDisp (base 1 0x31 gd) off
  | .jmp gd t =>
    match t with
    | .i32 x => { base 2 0x32 gd with ext := x.toNat }
    | .i64 x => { base 3 0x32 gd with ext := x.toNat }
  | .jal gd d off => withDisp { base 1 0x33 gd with d := d.val } off
  | .jr gd d a disp => { base 1 0x34 gd with d := d.val, a := a.val, i16 := disp.toNat }
  | .ret gd a => { base 1 0x35 gd with a := a.val }
  | .loop gd d off => withDisp { base 1 0x36 gd with d := d.val } off
  | .trap gd code => { base 1 0x37 gd with i16 := code.toNat }
  | .sysrd gd d reg f => encSys 0x38 gd d.val 0 reg f
  | .syswr gd a reg f => encSys 0x39 gd 0 a.val reg f
  | .thaw gd d a => { base 1 0x3A gd with d := d.val, a := a.val }
  | .ld gd d m ty o s => encMem 0x40 gd d m ty.code o s
  | .st gd d m ty o s => encMem 0x41 gd d m ty.code o s
  | .ldp gd d c m o s => encPair 0x42 gd d c m o s
  | .stp gd d c m o s => encPair 0x43 gd d c m o s
  | .fence gd o s => { base 1 0x44 gd with order := o.code, scope := s.code }
  | .qfence gd m => { base 1 0x45 gd with i16 := m.toNat }
  | .aadd x => encAtom 0x50 x
  | .amin x => encAtom 0x51 x
  | .amax x => encAtom 0x52 x
  | .aand x => encAtom 0x53 x
  | .aor x => encAtom 0x54 x
  | .axor x => encAtom 0x55 x
  | .aswap x => encAtom 0x56 x
  | .acas x c => { encAtom 0x57 x with i16 := c.val }
  | .afadd x => encAtom 0x58 x
  | .xstart gd h off a1 a2 a3 a4 =>
    { base 2 0x60 gd with
      a := a1.val, b := a2.val, i16 := a3.val + 64 * a4.val, minor := h.val, ext := off.toNat }
  | .xjoin gd m =>
    match m with
    | .imm x => { base 1 0x61 gd with i16 := x.toNat }
    | .reg a => { base 1 0x61 gd with a := a.val, minor := 1 }
  | .xend gd => base 1 0x62 gd
  | .tspawn gd d a => { base 1 0x63 gd with d := d.val, a := a.val }
  | .tjoin gd d a => { base 1 0x64 gd with d := d.val, a := a.val }
  | .tfin gd => base 1 0x65 gd
  | .tself gd d n => { base 1 0x66 gd with d := d.val, minor := n.val }
  | .wapp gd d a l => { base 1 0x67 gd with d := d.val, a := a.val, i16 := l.toNat }
  | .wtake gd d c l => { base 1 0x68 gd with d := d.val, i16 := c.val + 64 * l.toNat }
  | .dbar gd d m => { base 1 0x69 gd with d := d.val, minor := b2n m }
  | .dphase gd d m comm => { base 1 0x6A gd with d := d.val, minor := b2n m + 2 * b2n comm }
  | .dmem gd d l => { base 1 0x6B gd with d := d.val, minor := l.val }
  | .ttime gd d a b => { base 1 0x6C gd with d := d.val, a := a.val, b := b.val }
  | .cdef gd c a off s1 n1 =>
    { base 2 0x70 gd with
      d := c.val + 32, a := a.val, i16 := s1.toNat + 256 * n1.toNat, ext := off.toNat }
  | .cadvProd gd c k => encCnt 0x71 1 gd c k
  | .cadvCons gd c k => encCnt 0x71 0 gd c k
  | .cwaitProd gd c k => encCnt 0x72 1 gd c k
  | .cwaitCons gd c k => encCnt 0x72 0 gd c k
  | .cstat gd d c => { base 1 0x73 gd with d := d.val, a := c.val + 32 }
  | .sbind gd q d a wr ty base0 s0 n0 s1 n1 =>
    { base 3 0x74 gd with
      d := d.val, a := a.val, minor := q.val + 4 * b2n wr, ty := ty.code,
      ext := base0.toNat + 2 ^ 20 * s0.toNat + 2 ^ 32 * n0.toNat + 2 ^ 40 * s1.toNat + 2 ^ 56 * n1.toNat }
  | .sunbind gd q => { base 1 0x75 gd with minor := q.val }
  | .send gd a b disp tag => { base 1 0x76 gd with a := a.val, b := b.val, i16 := disp.toNat, minor := tag.val }
  | .recv gd d a disp => { base 1 0x77 gd with d := d.val, a := a.val, i16 := disp.toNat }
  | .rpoll gd d => { base 1 0x78 gd with d := d.val }
  | .vadd x => encVBin 0x80 x
  | .vsub x => encVBin 0x81 x
  | .vmul x => encVBin 0x82 x
  | .vfma x => encVTri 0x83 x
  | .vfms x => encVTri 0x84 x
  | .vmin x => encVBin 0x85 x
  | .vmax x => encVBin 0x86 x
  | .vabs x => encVUn 0x87 x
  | .vneg x => encVUn 0x88 x
  | .vcvt gd d a src dst r cq =>
    withCq { base 1 0x89 gd with
      d := vNum d, a := vNum a, minor := src.code, ty := dst.code, round := r.code } cq
  | .vcmp gd d a b cond ty cq =>
    withCq { base 1 0x8A gd with
      d := d.val, a := vNum a, b := vbNum b, minor := cond.code + 8 * vbBs b, ty := ty.code } cq
  | .vsel gd d a b c cq =>
    withCq { base 1 0x8B gd with d := vNum d, a := vNum a, b := vNum b, i16 := c.val } cq
  | .vand x => encVBin 0x8C x
  | .vor x => encVBin 0x8D x
  | .vxor x => encVBin 0x8E x
  | .vshl x => encVBin 0x8F x
  | .vshr x => encVBin 0x90 x
  | .vsar x => encVBin 0x91 x
  | .vperm gd d a b cq => withCq { base 1 0x92 gd with d := vNum d, a := vNum a, b := vNum b } cq
  | .vbcast gd d src cq =>
    match src with
    | .scal a => withCq { base 1 0x93 gd with d := vNum d, a := a.val } cq
    | .lane a l => withCq { base 1 0x93 gd with d := vNum d, a := vNum a, minor := 1, i16 := l.val } cq
  | .vsum gd d a ty sat r cq =>
    withCq { base 1 0x94 gd with
      d := vNum d, a := vNum a, ty := ty.code, minor := 2 * b2n sat, round := r.code } cq
  | .vdot gd d a b ty z cq =>
    withCq { base 1 0x95 gd with
      d := vNum d, a := vNum a, b := vbNum b, ty := ty.code, minor := vbBs b + 4 * b2n z } cq
  | .vld x => encVMem 0x96 x
  | .vst x => encVMem 0x97 x
  | .vgath x => encVIdx 0x98 x
  | .vscat x => encVIdx 0x99 x
  | .vmov gd form cq =>
    match form with
    | .vec d a => withCq { base 1 0x9A gd with d := vNum d, a := vNum a } cq
    | .toG d a l => withCq { base 1 0x9A gd with d := d.val, a := vNum a, minor := 1, i16 := l.val } cq
    | .fromG d a l => withCq { base 1 0x9A gd with d := vNum d, a := a.val, minor := 2, i16 := l.val } cq
  | .fexp x => encSpec 0xB0 x
  | .flog x => encSpec 0xB1 x
  | .frcp x => encSpec 0xB2 x
  | .frsq x => encSpec 0xB3 x
  | .fsqrt x => encSpec 0xB4 x
  | .fsin x => encSpec 0xB5 x
  | .fcos x => encSpec 0xB6 x
  | .ftanh x => encSpec 0xB7 x
  | .fsig x => encSpec 0xB8 x
  | .fgelu x => encSpec 0xB9 x
  | .fsilu x => encSpec 0xBA x
  | .ferf x => encSpec 0xBB x
  | .lplan gd k r fmt cq => withCq { base 1 0xC0 gd with d := k.val, a := eNum r, minor := fmt.code } cq
  | .ldot x => encDot 0xC1 x
  | .ldot2 x => encDot 0xC2 x
  | .lsort gd d s fmt ty r cq =>
    withCq { base 1 0xC3 gd with
      d := eNum d, a := eNum s, minor := fmt.code, ty := ty.code, round := r.code } cq
  | .lclr gd w anchor => { base 1 0xC4 gd with d := w.val, i16 := anchor.toNat }
  | .lrd gd d w ty r => { base 1 0xC5 gd with d := d.val, a := w.val, ty := ty.code, round := r.code }
  | .lrdRaw gd d b w => { base 1 0xC5 gd with d := d.val, a := w.val, b := b.val, minor := 1 }
  | .lrdSt gd d w => { base 1 0xC5 gd with d := d.val, a := w.val, minor := 2 }
  | .lrdV gd d w ty r cq =>
    withCq { base 1 0xC5 gd with
      d := vNum d, a := w.val, ty := ty.code, round := r.code, minor := 3 } cq
  | .lwr gd w a b c => { base 1 0xC6 gd with d := w.val, a := a.val, b := b.val, i16 := c.val }
  | .lwrAdd gd w a b c => { base 1 0xC6 gd with d := w.val, a := a.val, b := b.val, i16 := c.val, minor := 1 }
  | .lprog gd d => { base 1 0xC7 gd with d := d.val }
  | .lprogSet gd a => { base 1 0xC7 gd with a := a.val, minor := 1 }
  | .lprogDrop gd => { base 1 0xC7 gd with minor := 2 }
  | .lpert gd a => { base 1 0xC8 gd with a := a.val }
  | .lgang x => encJoint 0xC9 x
  | .lrot x => encJoint 0xCA x
  | .hnew gd d a o => encOps 0xD0 gd d a o
  | .hfree gd d a => { base 1 0xD1 gd with d := d.val, a := a.val }
  | .hwiden gd d a o => encOps 0xD2 gd d a o
  | .hnarrow gd d a o => encOps 0xD3 gd d a o
  | .hquery gd d a q => { base 1 0xD4 gd with d := d.val, a := a.val, minor := q.val }
  | .hbind gd d win a b c =>
    { base 1 0xD5 gd with d := d.val, a := a.val, b := b.val, i16 := c.val, minor := win.val }
  | .hunbind gd win => { base 1 0xD6 gd with minor := win.val }
  | .hunbindWb gd d win => { base 1 0xD6 gd with d := d.val, minor := win.val + 8 }
  | .hcopyLd x t => encCopy 0xD7 (4 * b2n t) x
  | .hcopySt x => encCopy 0xD7 1 x
  | .hgath x => encCopy 0xD8 0 x
  | .hscat x => encCopy 0xD9 0 x
  | .hscatAdd x => encCopy 0xD9 1 x
  | .hexport gd d a b => { base 1 0xDA gd with d := d.val, a := a.val, b := b.val }
  | .himport gd d a => { base 1 0xDB gd with d := d.val, a := a.val }
  | .kview gd d a b => { base 1 0xE0 gd with d := d.val, a := a.val, b := b.val }
  | .kviewDrop gd d b => { base 1 0xE0 gd with d := d.val, b := b.val, minor := 1 }
  | .kred x rw => encColl 0xE1 (b2n rw) x
  | .kbcast x => encColl 0xE2 0 x
  | .kgath x => encColl 0xE3 0 x
  | .krsc x => encColl 0xE4 0 x
  | .kbar gd d b => { base 1 0xE5 gd with d := d.val, b := b.val }
  | .kjoin gd d a b => { base 1 0xE6 gd with d := d.val, a := a.val, b := b.val }
  | .kstat gd d a b q => { base 1 0xE7 gd with d := d.val, a := a.val, b := b.val, minor := q.val }
  | .pair gd d a => { base 1 0xE8 gd with d := d.val, a := a.val }
  | .unpair gd d => { base 1 0xE9 gd with d := d.val }
  | .fprint gd d => { base 1 0xEA gd with d := d.val }
  | .fprintLast gd d => { base 1 0xEA gd with d := d.val, minor := 1 }
  | .fprintSt gd d => { base 1 0xEA gd with d := d.val, minor := 2 }
  | .rep n1 sd sa sb _ =>
    { base 1 0xFF ⟨0, false⟩ with
      i16 := n1.val + 64 * sd.toNat + 512 * sa.toNat + 4096 * sb.toNat }
  | _ => base 0 0 ⟨0, false⟩

/-- The length in bytes of an instruction's word; a `rep` unit counts the prefix and what it repeats. -/
def instrLen : Instr → Nat
  | .rep _ _ _ _ body => 8 + lenBytes (toFields body).len
  | i => lenBytes (toFields i).len

/-- The bytes of an instruction from the lowest address (R6, R39). -/
def encode : Instr → List Byte
  | .rep n1 sd sa sb body =>
    leBytes 8 (unparse (toFields (.rep n1 sd sa sb body)))
      ++ leBytes (lenBytes (toFields body).len) (unparse (toFields body))
  | i => leBytes (lenBytes (toFields i).len) (unparse (toFields i))

/-! ### The repeat prefix (R140 to R142) -/

/-- Which of the fields D, A, B the instruction uses as a register or cistern operand (R142). -/
def usesD : Instr → Bool
  | .nop _ => false
  | _ => true

def usesA : Instr → Bool
  | .nop _ | .li .. | .lclr .. => false
  | _ => true

def usesB : Instr → Bool
  | .add x | .sub x | .mul x | .mulh x | .div x | .rem x | .and x | .or x | .xor x | .andn x
  | .shl x | .shr x | .sar x | .rol x | .min x | .max x => match x.b with | .reg _ => true | _ => false
  | .cmp _ _ _ _ _ (.reg _) => true
  | .sel .. | .lea .. | .ld .. | .st .. => true
  | .vadd _ | .vsub _ | .vmul _ | .vfma _ | .vfms _ | .vmin _ | .vmax _ | .vcmp .. | .vsel ..
  | .vand _ | .vor _ | .vxor _ | .vshl _ | .vshr _ | .vsar _ | .vperm .. | .vdot .. | .vgath _ | .vscat _ => true
  | .ldot _ | .ldot2 _ | .lrdRaw .. | .lwr .. | .lwrAdd .. => true
  | _ => false

/-- A 3-bit two's-complement step (R140). -/
def stepOf (s : BitVec 3) : Int := s.toInt

/-- Field value F + i·step when it stays in 0..63 and on its side of the cistern range; class w is
one range (R142). -/
def bumpField (F : Nat) (step : Int) (i : Nat) (isW : Bool) : Option Nat :=
  let x := (F : Int) + step * i
  if 0 ≤ x ∧ x < 64 ∧ (isW = true ∨ (F < 32 ↔ x < 32)) then some x.toNat else none

/-- Whether D or A of a major is of class w (R177). -/
def wClassD (major : Nat) : Bool := [0xC1, 0xC2, 0xC4, 0xC6].contains major
def wClassA (major : Nat) : Bool := major == 0xC5

/-- The fields of repeat `i`, or the number of the first field out of its range (R142). -/
def bump (f : Fields) (sd sa sb : BitVec 3) (i : Nat) : Dec Fields :=
  match bumpField f.d (stepOf sd) i (wClassD f.major) with
  | none => .error (.illegalOperand 0)
  | some d =>
    match bumpField f.a (stepOf sa) i (wClassA f.major) with
    | none => .error (.illegalOperand 1)
    | some a =>
      match bumpField f.b (stepOf sb) i false with
      | none => .error (.illegalOperand 2)
      | some b => .ok { f with d := d, a := a, b := b }

/-- The instruction of repeat `i` (R143). Any refusal of a stepped field is illegal-operand (R142). -/
def repeatOf (body : Instr) (sd sa sb : BitVec 3) (i : Nat) : Dec Instr := do
  let f ← bump (toFields body) sd sa sb i
  match decodeFields f with
  | .ok j => .ok j
  | .error (.illegalOperand k) => .error (.illegalOperand k)
  | .error _ => .error (.illegalOperand 0)

/-- Check repeats `i` to `i + n - 1` in order. -/
def repeatsOk (body : Instr) (sd sa sb : BitVec 3) : Nat → Nat → Dec Unit
  | 0, _ => .ok ()
  | n + 1, i => do
    let _ ← repeatOf body sd sa sb i
    repeatsOk body sd sa sb n (i + 1)

/-- Every field that a nonzero step changes is one that the instruction uses (R142). -/
def stepsUsed (sd sa sb : BitVec 3) (body : Instr) : Bool :=
  (sd == 0 || usesD body) && (sa == 0 || usesA body) && (sb == 0 || usesB body)

/-- The rules of R141 and R142 for a prefix before `body`. (DESIGN CHOICE, log 70) -/
def repCheck (n1 : Fin 64) (sd sa sb : BitVec 3) (body : Instr) : Dec Unit := do
  need body.repeatable
  need (stepsUsed sd sa sb body)
  repeatsOk body sd sa sb (n1.val + 1) 0

/-- A `rep` that its prefix's rules accept. -/
def repOk : Instr → Bool
  | .rep n1 sd sa sb body => match repCheck n1 sd sa sb body with | .ok _ => true | .error _ => false
  | _ => true

/-- The instructions that have a word: well formed, no event, and a `rep` that R142 accepts. -/
def encodable (i : Instr) : Bool := i.wf && !i.isEvent && repOk i

/-! ### Decoding bytes -/

/-- The first `n` bytes as a number, bytes beyond the list reading 0. -/
def wordAt (bs : List Byte) (n : Nat) : Nat := leNat (bs.take n)

/-- Decode one word that is no `rep`, given its bytes and its offset in the fetch block (R51, R59). -/
def decodeOne (off : Nat) (bs : List Byte) : Dec Instr := do
  let l := wordAt bs 1 % 4
  if l = 0 then .error .illegalLength
  else if off + lenBytes l > 32 then .error .fetchBoundary
  else decodeFields (parse (wordAt bs (lenBytes l)))

/-- The word is of an instruction that a prefix may precede (R141). -/
def repMajor (f : Fields) : Bool :=
  let m := f.major
  (decide (1 ≤ m) && decide (m ≤ 0x1A)) || (m == 0x30 && f.minor == 0) || m == 0x40 || m == 0x41
    || (decide (0x80 ≤ m) && decide (m ≤ 0x9A)) || (decide (0xB0 ≤ m) && decide (m ≤ 0xBB))
    || (decide (0xC0 ≤ m) && decide (m ≤ 0xC6))

/-- The class of a field that a prefix may step (R43); `none`: the field is no register or cistern operand. -/
inductive StepClass
  | none | g | v | p | e | w
  deriving DecidableEq, Repr

def StepClass.takes (c : StepClass) (x : Nat) : Bool :=
  match c with
  | .none | .w => true
  | .g => decide (x < 32)
  | .v => decide (x < 16) || namesC x
  | .p => decide (x < 8)
  | .e => decide (x < 32) || namesC x

/-- The classes of D, A and B of a word that a prefix may precede (R90 to R131, R177). -/
def stepClasses (f : Fields) : StepClass × StepClass × StepClass :=
  let vb : StepClass := if f.minor % 2 = 1 then .g else .v
  match f.major with
  | 0x0F | 0x10 | 0x11 | 0x16 | 0x17 | 0x19 => (.g, .g, .none)
  | 0x14 | 0x18 | 0x40 | 0x41 => (.g, .g, .g)
  | 0x15 => (.p, .g, if f.minor < 8 then .g else .none)
  | 0x1A => (.g, .none, .none)
  | 0x30 => (.none, .none, .none)
  | 0x87 | 0x88 | 0x89 | 0x94 => (.v, .v, .none)
  | 0x8A => (.p, .v, if f.minor < 8 then .v else .g)
  | 0x8B | 0x92 => (.v, .v, .v)
  | 0x93 => (.v, if f.minor = 0 then .g else .v, .none)
  | 0x96 | 0x97 => (.v, .g, .none)
  | 0x98 | 0x99 => (.v, .g, .v)
  | 0x9A => (if f.minor = 1 then .g else .v, if f.minor = 2 then .g else .v, .none)
  | 0xC0 => (.p, .e, .none)
  | 0xC1 | 0xC2 => (.w, .e, .e)
  | 0xC3 => (.e, .e, .none)
  | 0xC4 => (.w, .none, .none)
  | 0xC5 => (if f.minor = 3 then .v else .g, .w, if f.minor = 1 then .g else .none)
  | 0xC6 => (.w, .g, .g)
  | m =>
    if m < 0x40 then (.g, .g, if f.minor % 2 = 0 then .g else .none)
    else if 0xB0 ≤ m then (.v, .v, .none)
    else (.v, .v, vb)

/-- The value of a stepped field in repeat `i` is one of its class, in the range where it began (R142). -/
def stepTakes (c : StepClass) (F : Nat) (s : BitVec 3) (field i : Nat) : Dec Unit :=
  if s = 0 then .ok ()
  else match bumpField F (stepOf s) i (c == .w) with
    | some x => operand (c.takes x) field
    | none => .error (.illegalOperand field)

def stepsTake (f : Fields) (sd sa sb : BitVec 3) : Nat → Nat → Dec Unit
  | 0, _ => .ok ()
  | n + 1, i => do
    let cs := stepClasses f
    stepTakes cs.1 f.d sd 0 i
    stepTakes cs.2.1 f.a sa 1 i
    stepTakes cs.2.2 f.b sb 2 i
    stepsTake f sd sa sb n (i + 1)

/-- The prefix's own conditions on its steps, before those of the repeated instruction with fields `f` (R59, R142).
(DEDUCED, log 8) -/
def prefixSteps (f : Fields) (n1 : Fin 64) (sd sa sb : BitVec 3) : Dec Unit := do
  let cs := stepClasses f
  need ((sd == 0 || cs.1 != .none) && (sa == 0 || cs.2.1 != .none) && (sb == 0 || cs.2.2 != .none))
  stepsTake f sd sa sb (n1.val + 1) 0

/-- Decode the `rep` unit whose prefix has fields `f`: the prefix is checked, then the repeated instruction (R52, R59, R60,
R140). (DEDUCED, log 8) -/
def decodeRep (f : Fields) (off : Nat) (bs : List Byte) : Dec Instr := do
  let rest := bs.drop 8
  let l := wordAt rest 1 % 4
  if f.len ≠ 1 then .error .illegalInstruction
  else if off + 8 ≥ 32 then .error .fetchBoundary
  else if l ≠ 0 ∧ off + 8 + lenBytes l > 32 then .error .fetchBoundary
  else
    need (f.guard == 0 && f.neg == 0 && f.d == 0 && f.a == 0 && f.b == 0 && f.minor == 0
      && f.ty == 0 && plainOsr f && decide (f.i16 < 2 ^ 15))
    let g := parse (wordAt rest (lenBytes l))
    need (repMajor g)
    let n1 := Fin.ofNat 64 f.i16
    let sd := BitVec.ofNat 3 (f.i16 / 64)
    let sa := BitVec.ofNat 3 (f.i16 / 512)
    let sb := BitVec.ofNat 3 (f.i16 / 4096)
    prefixSteps g n1 sd sa sb
    let body ← decodeOne (off + 8) rest
    repCheck n1 sd sa sb body
    .ok (.rep n1 sd sa sb body)

/-- Decode the instruction at offset `off` of a fetch block whose bytes from there on are `bs`, in the
order of R59 (the fetch itself comes before). (DEDUCED, log 7, 8) -/
def decode (off : Nat) (bs : List Byte) : Dec Instr := do
  let l := wordAt bs 1 % 4
  if l = 0 then .error .illegalLength
  else if off + lenBytes l > 32 then .error .fetchBoundary
  else
    let f := parse (wordAt bs (lenBytes l))
    if f.major = 0xFF then decodeRep f off bs else decodeFields f

end Sys2Proof.Decode

namespace Sys2Proof

/-- The instruction that the decoder reads from the bits `w` of an opcode-table word of `nbits` bits,
every bit above `nbits` zero, at the start of a fetch block. -/
def decodeTableWord (nbits w : Nat) : Option Instr :=
  match Decode.decode 0 (Machine.leBytes 32 (w % 2 ^ nbits)) with
  | .ok i => some i
  | .error _ => none

end Sys2Proof
end

