-- ==== Sys2Proof/Config.lean ====
section
/-! DEFINITION. What the manual leaves to the implementation or states no value for.
Every free value is an opaque constant: nothing can evaluate it, and a claim about it holds for every
function of its type. The log entry of each stands in its docstring. -/

namespace Sys2Proof.Config

/-- The result of special function `f` (major minus 0xB0) in the accurate (`true`) or fast grade, for
operand `a`, before the limits of R132 are applied to it (DESIGN CHOICE, log 10). -/
opaque special (f : Nat) (acc : Bool) (a : Lane) : Lane

/-- Bits [62:0] of the `n`-th handle value that `hnew` or `himport` issues (R293; DESIGN CHOICE, log 11). -/
opaque handleBits (n : Nat) : BitVec 63

/-- Base of the virtual range of the `n`-th handle, when its set holds AD (R294, R301; DESIGN CHOICE, log 11). -/
opaque handleBase (n : Nat) : Word

/-- The class mask the Lapidary chooses beyond the forced classes and R339 (R295; DESIGN CHOICE, log 12). -/
opaque placement (n : Nat) : BitVec 8

/-- Whether the tiers can hold the representation asked for at choice `n` (R298, R300; DESIGN CHOICE, log 12). -/
opaque tiersHold (n : Nat) : Bool

/-- Whether the current representation serves the widened set at choice `n` (R300; DESIGN CHOICE, log 12). -/
opaque serves (n : Nat) : Bool

/-- Whether a narrowing re-represents at choice `n` (R300; DESIGN CHOICE, log 12). -/
opaque narrowMoves (n : Nat) : Bool

/-- The storage a handle occupies and the dies holding slices of it, at query `n` (R301; DESIGN CHOICE, log 12). -/
opaque storage (n : Nat) : BitVec 48
opaque slices (n : Nat) : BitVec 8

/-- Bits [61:0] of the `n`-th export token (R302; DESIGN CHOICE, log 11). -/
opaque tokenBits (n : Nat) : BitVec 62

/-- What a token of another module stands for, when it names this module and context `ctx`: the exporting module, the
handle there, and its set, type, record format, sizes, rank and E4M3 mode, at the `n`-th import (R302; DESIGN CHOICE,
log 11). -/
structure Foreign where
  mod : BitVec 24
  handle : Word
  ops : BitVec 16
  ty : Ty
  rfmt : Fin 5
  e : Vector Nat 4
  rank : Fin 4
  mode : Bool

opaque foreign (n ctx : Nat) (token : Word) : Option Foreign

/-- The signature values r and s of the `n`-th report over its first 128 bytes (R331; DESIGN CHOICE, log 13). -/
opaque signature (n : Nat) (report : List Byte) : BitVec 512

/-- The id of the `n`-th page request (R326; DESIGN CHOICE, log 18). -/
opaque requestId (n : Nat) : BitVec 32

/-- The address that the fault of a fill of a freed handle names (R284, R299; DESIGN CHOICE, log 18). -/
opaque freedPage (n : Nat) : Word

/-- Whether the predicted draw of die `d` in state `p` keeps R319, from the dies' forecasts, the measured averages and the
bound (R322; DESIGN CHOICE, log 5). -/
opaque drawKept (fcast : List (BitVec 16)) (a1 a10 : BitVec 11) (bound d p : Nat) : Bool

/-- The P-state in which a die comes back from parking, and dword 1 of a reset's entry in the error log (R285, R327,
DESIGN CHOICE, log 19). -/
opaque unparkState (n : Nat) : Fin 7
opaque resetCause (n : Nat) : Word

/-- One less than the modules along each dimension of the torus, before the bound of R5 (R344; DESIGN CHOICE, log 14). -/
opaque torusExtent (dim : Fin 3) : Nat

/-- Modules along each dimension of the torus: at most 16, 16 and 18 (R5, R344). -/
def torus (dim : Fin 3) : Nat := torusExtent dim % (if dim = 2 then 18 else 16) + 1

/-- The place of the line that a full cache gives up at moment `n` for line `line` (R3, R5; DESIGN CHOICE, log 3). -/
opaque victim (n line : Nat) : Nat

/-- The port of a direction that carries a flit with no target address (R344; DESIGN CHOICE, log 14). -/
opaque lane (n : Nat) : Fin 4

/-- The flits of a channel that a port of this module has room for when its link comes up (R343, R344; DESIGN CHOICE,
log 78). -/
opaque creditsGiven (vc : Fin 8) : Nat

/-- The fingerprint of a shadow whose run has parted from its leader's (R237; DESIGN CHOICE, log 45). -/
opaque shadowPrint (n : Nat) : BitVec 32

/-- What an atomic replies whose module is lost before it is performed (R351; DESIGN CHOICE, log 20). -/
opaque lostReply (n : Nat) : Word

/-- Whether the queue of a port's next packet is delayed, and other yes or no choices a rule leaves
open with no event of its own (DESIGN CHOICE, log 14). -/
opaque choice (n : Nat) : Bool

/-- The flags that the other modules of a chamber bring to a barrier, at choice `n` (R206, R359; DESIGN CHOICE, log 14). -/
opaque remoteFlags (n : Nat) : BitVec 5

/-- The phase that a `dphase` of another module of a chamber selects for a barrier, when the last arrival is one, at choice
`n` (R206; DESIGN CHOICE, log 14). -/
opaque remotePhase (n : Nat) : Option Bool

/-- The cluster's cycle count, as packets and the error log show it, at cycle `n` of the model (R228,
R327; DESIGN CHOICE, log 15). -/
opaque clock (n : Nat) : Word

/-- A byte that another module's memory, read by this module's hubs, or a device register page gives: at moment `n` and a
place (R246, R268, R302; DESIGN CHOICE, log 67, 76). -/
opaque outsideByte (n place : Nat) : BitVec 8

/-- A byte that the module writes into a context's save area at moment `n`, for the byte's virtual address: the layout is its
own (R211, R244, R255; DESIGN CHOICE, log 37). -/
opaque areaByte (n va : Nat) : BitVec 8

/-- Which of the two hubs is the home of a sector (R290; DESIGN CHOICE, log 26). -/
opaque hubOf (sector : Nat) : Bool

/-- Which of the two hubs is the home of a sector of a handle's virtual range (R290; DESIGN CHOICE, log 26). -/
opaque rangeHub (handle : Word) (sector : Nat) : Bool

end Sys2Proof.Config
end

