-- ==== Sys2Proof/Machine/Flags.lean ====
section
/-! DEFINITION. The flags of `%fflags` (R16): each result's flags are computed beside the result (saturation and
rounding in `Num`, the engine and the readouts of veins in their own files) and joined here. -/

namespace Sys2Proof.Machine

/-- Flags in the layout of `%fflags` [5:0] (R16). -/
abbrev Flags := BitVec 6

def fSA : Flags := 32
def fNV : Flags := 16
def fDZ : Flags := 8
def fOF : Flags := 4
def fUF : Flags := 2
def fNX : Flags := 1

/-- A flag set when a condition holds. -/
def flagIf (c : Bool) (f : Flags) : Flags := if c then f else 0

end Sys2Proof.Machine
end

