-- ==== Sys2Proof/Machine/Num.lean ====
section
/-! DEFINITION. Exact numbers, the floating-point formats and rounding (R63 to R69, R76, R83 to R86). -/

namespace Sys2Proof

open Sys2Proof.Machine (sextN)

/-- Bits of a type (R63, R64). -/
def Ty.bits : Ty → Nat
  | .i4 | .n4 | .e2m1 => 4
  | .i8 | .n8 | .e4m3 | .e5m2 => 8
  | .i16 | .n16 | .bf16 | .f16 => 16
  | .i32 | .n32 | .f32 => 32
  | .i64 | .n64 => 64

/-- Signed integer types (R63, R88). -/
def Ty.signed : Ty → Bool
  | .i4 | .i8 | .i16 | .i32 | .i64 => true
  | _ => false

/-- Bounds of an integer type (R63). -/
def Ty.lo (t : Ty) : Int := if t.signed then -(2 ^ (t.bits - 1) : Nat) else 0
def Ty.hi (t : Ty) : Int := if t.signed then (2 ^ (t.bits - 1) : Nat) - 1 else (2 ^ t.bits : Nat) - 1

/-- `sext` or `zext` of the low bits of a pattern, by the type (R89). -/
def Ty.read (t : Ty) (x : Nat) : Int :=
  if t.signed then sextN x t.bits else ((x % 2 ^ t.bits : Nat) : Int)

end Sys2Proof

namespace Sys2Proof.Machine

/-- A NaN (`sig`: signalling), an infinity, or the number (-1)^neg * m * 2^e / den. The sign of a zero
is kept; `den` is positive. -/
inductive XReal
  | nan (sig : Bool)
  | inf (neg : Bool)
  | num (neg : Bool) (m : Nat) (e : Int) (den : Nat)
  deriving DecidableEq, Repr

/-- A floating-point format (R64, R65): exponent and mantissa bits, bias, the code of the largest finite
value, the code of infinity, the canonical NaN, and whether a NaN can be signalling. -/
structure Flt where
  eb : Nat
  mb : Nat
  bias : Nat
  top : Nat
  inf : Option Nat
  nan : Option Nat
  sig : Bool
  deriving DecidableEq, Repr

/-- The format of a floating type; `iee` is the E4M3 mode (R64 to R66). -/
def floatOf (iee : Bool) : Ty → Option Flt
  | .f32 => some ⟨8, 23, 127, 0x7F7FFFFF, some 0x7F800000, some 0x7FC00000, true⟩
  | .bf16 => some ⟨8, 7, 127, 0x7F7F, some 0x7F80, some 0x7FC0, true⟩
  | .f16 => some ⟨5, 10, 15, 0x7BFF, some 0x7C00, some 0x7E00, true⟩
  | .e4m3 => if iee then some ⟨4, 3, 7, 0x77, some 0x78, some 0x7C, false⟩
      else some ⟨4, 3, 7, 0x7E, none, some 0x7F, false⟩
  | .e5m2 => some ⟨5, 2, 15, 0x7B, some 0x7C, some 0x7E, false⟩
  | .e2m1 => some ⟨2, 1, 1, 7, none, none, false⟩
  | _ => none

/-- FP32. -/
def fp32 : Flt := ⟨8, 23, 127, 0x7F7FFFFF, some 0x7F800000, some 0x7FC00000, true⟩

/-- `sat` of R86: the value and the flag `sa`. -/
def satTo (x : Int) (t : Ty) : Int × Flags :=
  if x < t.lo then (t.lo, fSA) else if t.hi < x then (t.hi, fSA) else (x, 0)

/-- The value of a code (R64); the code's bits above the format are ignored. -/
def Flt.value (f : Flt) (code : Nat) : XReal :=
  let neg := bitAt code (f.eb + f.mb)
  let mag := code % 2 ^ (f.eb + f.mb)
  let M := mag % 2 ^ f.mb
  let E := mag / 2 ^ f.mb
  if f.top < mag then
    if f.inf = some mag then .inf neg else .nan (f.sig && !bitAt mag (f.mb - 1))
  else if E = 0 then .num neg M (1 - (f.bias : Int) - f.mb) 1
  else .num neg (2 ^ f.mb + M) ((E : Int) - f.bias - f.mb) 1

/-- The pair whose quotient is `m * 2^sh / den`. -/
def scaleBy (m den : Nat) (sh : Int) : Nat × Nat :=
  if 0 ≤ sh then (m * 2 ^ sh.toNat, den) else (m, den * 2 ^ (-sh).toNat)

/-- The integer `a / b` rounded under a mode, for a number of sign `neg`, and whether it was exact. -/
def roundDiv (neg : Bool) (a b : Nat) (md : Round) : Nat × Bool :=
  let n := a / b
  let r := a % b
  let up := match md with
    | .rne => decide (b < 2 * r) || (2 * r == b && n % 2 == 1)
    | .rtz => false
    | .rdn => neg && r != 0
    | .rup => !neg && r != 0
  (if up then n + 1 else n, r == 0)

/-- The largest integer `k` with `2^k ≤ m * 2^e / den`, for positive `m` and `den`. -/
def floorLog (m : Nat) (e : Int) (den : Nat) : Int :=
  let k : Int := (Nat.log2 m : Int) - Nat.log2 den + e
  let p := scaleBy m den (e - k)
  if p.2 ≤ p.1 then k else k - 1

/-- `rnd` to a floating format (R84): the code and the flags. -/
def Flt.rnd (f : Flt) (md : Round) : XReal → Nat × Flags
  | .nan _ => match f.nan with
    | some c => (c, 0)
    | none => (0, fNV)
  | .inf neg => match f.inf with
    | some c => (c + 2 ^ (f.eb + f.mb) * b2n neg, 0)
    | none => (f.top + 2 ^ (f.eb + f.mb) * b2n neg, fNV)
  | .num neg m e den =>
    let sgn := 2 ^ (f.eb + f.mb) * b2n neg
    if m = 0 then (sgn, 0)
    else
      let qmin : Int := 1 - (f.bias : Int) - f.mb
      let q := max (floorLog m e den - f.mb) qmin
      let p := scaleBy m den (e - q)
      let n := roundDiv neg p.1 p.2 md
      let code := (q - qmin).toNat * 2 ^ f.mb + n.1
      if f.top < code then
        let away := md == .rne || (md == .rdn && neg) || (md == .rup && !neg)
        match f.inf, away with
        | some c, true => (c + sgn, fOF ||| fNX)
        | _, _ => (f.top + sgn, fOF ||| fNX)
      else (code + sgn, flagIf (!n.2) fNX ||| flagIf (!n.2 && decide (code < 2 ^ f.mb)) fUF)

/-- `rnd` to an integer type (R84). -/
def rndInt (md : Round) (t : Ty) : XReal → Int × Flags
  | .nan _ => (0, fNV)
  | .inf neg => (if neg then t.lo else t.hi, fNV)
  | .num neg m e den =>
    let p := scaleBy m den e
    let n := roundDiv neg p.1 p.2 md
    let y : Int := if neg then -(n.1 : Int) else n.1
    if y < t.lo then (t.lo, fNV) else if t.hi < y then (t.hi, fNV) else (y, flagIf (!n.2) fNX)

/-- The number of an integer. -/
def XReal.ofInt (x : Int) : XReal := .num (decide (x < 0)) x.natAbs 0 1

def XReal.isNan : XReal → Bool
  | .nan _ => true
  | _ => false

def XReal.isSig : XReal → Bool
  | .nan s => s
  | _ => false

def XReal.isInf : XReal → Bool
  | .inf _ => true
  | _ => false

/-- The sign; a NaN has none. -/
def XReal.isNeg : XReal → Bool
  | .nan _ => false
  | .inf n => n
  | .num n _ _ _ => n

def XReal.isZero : XReal → Bool
  | .num _ 0 _ _ => true
  | _ => false

def XReal.negate : XReal → XReal
  | .nan s => .nan s
  | .inf n => .inf !n
  | .num n m e d => .num (!n) m e d

def XReal.abs : XReal → XReal
  | .nan s => .nan s
  | .inf _ => .inf false
  | .num _ m e d => .num false m e d

/-- `x * 2^k`. -/
def XReal.shift (x : XReal) (k : Int) : XReal :=
  match x with
  | .num n m e d => .num n m (e + k) d
  | y => y

/-- `x / n` for positive `n`. -/
def XReal.divNat (x : XReal) (n : Nat) : XReal :=
  match x with
  | .num s m e d => .num s m e (d * n)
  | y => y

/-- The product, and `nv` for 0 × ∞ (R119). -/
def XReal.mul : XReal → XReal → XReal × Flags
  | .nan _, _ => (.nan false, 0)
  | _, .nan _ => (.nan false, 0)
  | .inf a, .inf b => (.inf (a != b), 0)
  | .inf a, .num b m _ _ => if m = 0 then (.nan false, fNV) else (.inf (a != b), 0)
  | .num a m _ _, .inf b => if m = 0 then (.nan false, fNV) else (.inf (a != b), 0)
  | .num a m e d, .num b m' e' d' => (.num (a != b) (m * m') (e + e') (d * d'), 0)

/-- The exact sum of two finite parts (signed numerator, exponent, denominator). -/
def addFin (x y : Int × Int × Nat) : Int × Int × Nat :=
  let e := min x.2.1 y.2.1
  (x.1 * 2 ^ (x.2.1 - e).toNat * y.2.2 + y.1 * 2 ^ (y.2.1 - e).toNat * x.2.2, e, x.2.2 * y.2.2)

/-- The signed parts of a finite number. -/
def XReal.parts : XReal → Int × Int × Nat
  | .num n m e d => (if n then -(m : Int) else m, e, d)
  | _ => (0, 0, 1)

/-- The sum of a list (R119, R125): NaN, infinities of both signs, and the sign of an exact zero sum. -/
def sumX (md : Round) (xs : List XReal) : XReal × Flags :=
  if xs.any XReal.isNan then (.nan false, 0)
  else if xs.any XReal.isInf then
    let pos := xs.any (fun x => x.isInf && !x.isNeg)
    let neg := xs.any (fun x => x.isInf && x.isNeg)
    if pos && neg then (.nan false, fNV) else (.inf neg, 0)
  else
    let t := xs.foldl (fun a x => addFin a x.parts) (0, 0, 1)
    if t.1 = 0 then
      if xs = [] then (.num false 0 0 1, 0)
      else if xs.all XReal.isNeg then (.num true 0 0 1, 0)
      else if xs.all (fun x => !x.isNeg) then (.num false 0 0 1, 0)
      else (.num (md == .rdn) 0 0 1, 0)
    else (.num (decide (t.1 < 0)) t.1.natAbs t.2.1 t.2.2, 0)

/-- Order of two numbers that are not NaN, -0 and +0 equal. -/
def XReal.cmp : XReal → XReal → Ordering
  | .inf a, .inf b => if a == b then .eq else if a then .lt else .gt
  | .inf a, _ => if a then .lt else .gt
  | _, .inf b => if b then .gt else .lt
  | x, y =>
    let d := (addFin x.parts y.negate.parts).1
    if d < 0 then .lt else if d = 0 then .eq else .gt

/-- Strictly below, -0 below +0 (`vmin`, `vmax`: R120). -/
def XReal.below (x y : XReal) : Bool :=
  match x.cmp y with
  | .lt => true
  | .gt => false
  | .eq => x.isNeg && !y.isNeg

/-- Largest integer at or below a finite number, and whether it is the number. -/
def XReal.floor (x : XReal) : Int × Bool :=
  let p := x.parts
  let s := scaleBy p.1.natAbs p.2.2 p.2.1
  let n : Int := if p.1 < 0 then -(s.1 : Int) else s.1
  (n / (s.2 : Int), n % (s.2 : Int) == 0)

/-! ### Lanes (R116) -/

/-- The container of a value of an integer type. -/
def laneOfInt (x : Int) : Lane := BitVec.ofInt 32 x

/-- The value of a container read as an integer type. -/
def laneInt (t : Ty) (x : Lane) : Int := t.read x.toNat

/-- The value of a container read as any type with a container. -/
def laneReal (iee : Bool) (t : Ty) (x : Lane) : XReal :=
  match floatOf iee t with
  | some f => f.value x.toNat
  | none => .ofInt (laneInt t x)

/-- The container of an element whose bits are `x`. -/
def laneOfBits (t : Ty) (x : Nat) : Lane :=
  if t.isInt || t == .i4 || t == .n4 then laneOfInt (t.read x) else BitVec.ofNat 32 (x % 2 ^ t.bits)

/-- R119 applied to an exact value with the flags raised so far. -/
def roundLane (md : Round) (x : XReal × Flags) : Lane × Flags :=
  let y := fp32.rnd md x.1
  (BitVec.ofNat 32 y.1, y.2 ||| x.2)

/-- `nv` when an operand is a signalling NaN (R119). -/
def sigFlag (xs : List XReal) : Flags := flagIf (xs.any XReal.isSig) fNV

/-! ### Veins (R77 to R80) -/

/-- A vein: the 160-bit sum S of V and `ext`, the anchor and the sticky flags (R77). -/
structure Vein where
  s : BitVec 160 := 0
  anchor : BitVec 8 := 0
  vx : Bool := false
  ho : Bool := false
  deriving DecidableEq, Repr

/-- V: bits [127:0] of S. -/
def Vein.v (w : Vein) : BitVec 128 := w.s.setWidth 128

/-- `vo`: `ho`, or S outside the 128-bit range (R77). -/
def Vein.vo (w : Vein) : Bool :=
  w.ho || decide (w.s.toInt < -(2 ^ 127 : Nat)) || decide ((2 ^ 127 : Nat) - 1 < w.s.toInt)

/-- A write of V: `ext` becomes its sign extension (R77). -/
def Vein.setV (w : Vein) (v : BitVec 128) : Vein := { w with s := v.signExtend 160 }

/-- `vein_add` (R78). -/
def Vein.add (w : Vein) (x : XReal) : Vein :=
  match x with
  | .nan _ => { w with ho := true }
  | .inf _ => { w with ho := true }
  | x =>
    let q := (x.shift (64 - w.anchor.toInt)).floor
    let w := { w with vx := w.vx || !q.2 }
    if 2 ^ 127 ≤ q.1.natAbs then { w with ho := true }
    else { w with s := w.s + BitVec.ofInt 160 q.1 }

/-- The exact value V * 2^(anchor-64). -/
def Vein.value (w : Vein) : XReal := (XReal.ofInt w.v.toInt).shift (w.anchor.toInt - 64)

/-- A rounded readout (R80); `m` divides the value first (`kred.rw`, R357). -/
def Vein.readDiv (w : Vein) (f : Flt) (md : Round) (m : Nat) : Nat × Flags :=
  if w.vo then (f.nan.getD 0, fNV) else f.rnd md (w.value.divNat m)

def Vein.read (w : Vein) (f : Flt) (md : Round) : Nat × Flags := w.readDiv f md 1

/-- The status word of `lrd.st`, `afadd` and the cell image (R187, R219, R222). -/
def Vein.status (w : Vein) : Nat := 512 * b2n w.vo + 256 * b2n w.vx + w.anchor.toNat

end Sys2Proof.Machine
end

