-- ==== Sys2Proof/Machine/Sparse.lean ====
section
/-! DEFINITION. Sparse data: the operations on lists of a key and a value, and memory in its canonical
form (log 3: a byte that nothing has written reads 0). -/

namespace Sys2Proof.Machine

/-- The value listed for a key. -/
def sfind {α : Type} : Sparse α → Nat → Option α
  | [], _ => none
  | x :: xs, k => if x.1 = k then some x.2 else sfind xs k

/-- The value of a key, `d` when it is not listed. -/
def sget {α : Type} (d : α) (m : Sparse α) (k : Nat) : α := (sfind m k).getD d

/-- The list without a key. -/
def serase {α : Type} (m : Sparse α) (k : Nat) : Sparse α := m.filter (fun x => x.1 != k)

/-- The list with a key set, keys rising. -/
def sput {α : Type} : Sparse α → Nat → α → Sparse α
  | [], k, v => [(k, v)]
  | x :: xs, k, v =>
    if k < x.1 then (k, v) :: x :: xs
    else if x.1 = k then (k, v) :: xs
    else x :: sput xs k v

/-- `sput` that lists no default. -/
def sset {α : Type} [DecidableEq α] (d : α) (m : Sparse α) (k : Nat) (v : α) : Sparse α :=
  if v = d then serase m k else sput m k v

/-- What an unlisted byte of memory or local store reads as (log 3; R147 for local store).
(DESIGN CHOICE, log 3) -/
def unlisted : Byte := 0

/-- One byte of memory. (DESIGN CHOICE, log 3) -/
def memGet (m : Sparse Byte) (a : Nat) : Byte := sget unlisted m a

/-- Memory with one byte written. (DESIGN CHOICE, log 3) -/
def memSet (m : Sparse Byte) (a : Nat) (b : Byte) : Sparse Byte := sset unlisted m a b

/-- Memory with several bytes written, the first first. -/
def memSetAll : Sparse Byte → List (Nat × Byte) → Sparse Byte
  | m, [] => m
  | m, x :: xs => memSetAll (memSet m x.1 x.2) xs

/-- The bytes at `a`, `a + 1`, … -/
def memRead (m : Sparse Byte) (a : Nat) : Nat → List Byte
  | 0 => []
  | n + 1 => memGet m a :: memRead m (a + 1) n

/-- The bytes `bs` at `a`, `a + 1`, … -/
def placeAt (a : Nat) : List Byte → List (Nat × Byte)
  | [] => []
  | b :: bs => (a, b) :: placeAt (a + 1) bs

/-- Keys rising and every value other than the default: the canonical form. -/
def Memory.wf : Sparse Byte → Bool
  | [] => true
  | [x] => x.2 != unlisted
  | x :: y :: m => x.2 != unlisted && decide (x.1 < y.1) && Memory.wf (y :: m)

/-- Insertion of an element in a list by position. -/
def setAt {α : Type} : List α → Nat → α → List α
  | [], _, _ => []
  | _ :: xs, 0, v => v :: xs
  | x :: xs, n + 1, v => x :: setAt xs n v

end Sys2Proof.Machine
end

