-- ==== Sys2Proof/Machine/State.lean ====
section
/-! DEFINITION. The state of a Zilush Z8 module, its reset, and the reasons a step can stop.
Sparse data lists what differs from a default. A core's number is 3456 * die + 36 * cluster + position. -/

namespace Sys2Proof.Machine

/-- Why the machine itself stops. The specification gives no such case: every trap freezes its core and
the machine goes on (R24, R226). -/
inductive Fault
  /-- Raised by nobody. Safe: a fault can only make a claim unprovable. -/
  | none
  deriving DecidableEq, Repr

/-- What the model does not run. -/
inductive Refusal
  /-- An instruction with no meaning yet; only `exec` answers it. Safe: nothing is claimed of the run. -/
  | notModelled (mnemonic : String)
  deriving DecidableEq, Repr

/-! ### Strands -/

/-- `%dom` (R199). -/
structure Dom where
  key : BitVec 16 := 0
  chm : BitVec 8 := 0
  chv : Bool := false
  gw : BitVec 3 := 0
  gh : BitVec 3 := 0
  gx : BitVec 3 := 0
  gy : BitVec 3 := 0
  lvl : BitVec 3 := 0
  deriving DecidableEq, Repr

/-- Where a memory point keeps a location (R268). -/
inductive Home
  | hub
  | cluster (clu : Nat)
  deriving DecidableEq, Repr

/-- What a byte address names. `ls`, `stray`: the own core's local store, in the allocation or beyond it
(R148). `peer`: the gang window (R202), by the wrapped offset in the member's local store, with 2^20 added where the byte
lies beyond its allocation or the member has gone. `range`: the virtual range of a handle (R301). `device`: a page whose translation
says device register page (R268). The others are the blocks of the fixed region (R379), memory and the memory of another
physical module (R348). -/
inductive Place
  | ls
  | stray
  | peer (gx gy : Nat)
  | mem (home : Home)
  | cell
  | sup
  | dbg (pos : Nat)
  | harvest
  | fabric
  | remote (mod : Nat)
  | range (handle : Word)
  | device
  deriving DecidableEq, Repr

/-- One byte of one place. -/
structure Loc where
  at' : Place
  addr : Nat
  deriving DecidableEq, Repr

/-- A register that the scoreboard can hold pending (R22). -/
inductive RegName
  | g (n : Fin 32)
  | v (n : Fin 16)
  | p (n : Fin 8)
  deriving DecidableEq, Repr

/-- Where a load puts what it reads (R107, R129, R135). `cis`: the 4 local-store offsets of a cistern lane. `strm`: a lane
of a register that a write stream binds; `entry` is the store-buffer entry of the write, `locs` the bytes of the lane's
element (none where the stream takes no element of it), `ety` and `ebit` the element's type and first bit. -/
inductive LoadDst
  | g (d : Fin 32) (ty : Ty)
  | pair (d c : Fin 32)
  | lane (d : Fin 16) (l : Fin 16) (ty : Ty) (bit : Nat)
  | cis (offs : List Nat) (ty : Ty) (bit : Nat)
  | strm (d : Fin 16) (l : Fin 16) (ty : Ty) (bit : Nat) (entry : Nat) (locs : List Loc) (ety : Ty) (ebit : Nat)
  deriving DecidableEq, Repr

/-- What an instruction whose loads are pending has moved already, so that it can be taken back (R25, R135): slots of a
cistern, the position of a stream port with its elements read ahead, `%ssw.sx`, and a store-buffer entry. -/
inductive Undo
  | cis (c : Fin 16) (prod : Bool) (k : Nat) (held : Nat)
  | port (q : Fin 4) (pos : Nat) (ahead : List Nat)
  | sx (b : Bool)
  | entry (id : Nat)
  deriving DecidableEq, Repr

/-- A load issued and not yet satisfied (R30). `id` counts the strand's accesses in program order. -/
structure PendLoad where
  id : Nat
  locs : List Loc
  dst : LoadDst
  acq : Bool := false
  scope : Scope := .str
  sc : Bool := false
  va : Word := 0
  lane : Nat := 0
  /-- The load's own PC, the PC after it (R25), and its first 64 bits (R228). -/
  pc : Pc := 0
  next : Pc := 0
  iw : Word := 0
  /-- Performed as single-byte accesses (R108); `got`: the bytes taken so far, by their place in the access. -/
  split : Bool := false
  got : List (Nat × Byte) := []
  undo : List Undo := []
  /-- The issue slot of its instruction, and whether the instruction has written state already (R25). -/
  slot : Nat := 0
  part : Bool := false
  deriving DecidableEq, Repr

/-- A request of the strand to the Lapidary (R297). -/
inductive LapReq
  | hnew (desc : Nat) (ops : BitVec 16) (mode : Bool) (bytes : List Byte)
  | hfree (h : Word)
  | hwiden (h : Word) (ops : BitVec 16)
  /-- `refused`: the set stays (R300); `none'`: no operation is named (R303). -/
  | hnarrow (h : Word) (refused none' : Bool)
  | hquery (h : Word) (q : Nat)
  | hexport (h dest : Word)
  | himport (token : Word)
  deriving DecidableEq, Repr

/-- A message (R210). -/
structure Msg where
  kind : Fin 3 := 0
  mode : Bool := false
  tag : Fin 16 := 0
  src : BitVec 16 := 0
  data : List Byte := []
  deriving DecidableEq, Repr

/-- What an entry of the store buffer does when it is performed. -/
inductive BufOp
  /-- A store of the entry's bytes (R29). -/
  | store
  /-- A fence standing in the buffer (R33): `ar` also holds later loads. -/
  | fence (ar : Bool)
  | atom (op : AtomOp) (ty : Ty) (b c : Word) (d : Fin 32)
  | fadd (ty : Ty) (x : Word) (mode : Bool) (d : Fin 32)
  | send (dst : Nat) (m : Msg)
  | offer (join : Bool) (l : Loc) (va : Word) (d : Fin 32)
  | wapp (list : Nat) (item : Word) (d : Fin 32)
  | lap (r : LapReq) (d : Fin 32)
  | coll (op : Nat)
  deriving DecidableEq, Repr

/-- An entry of a strand store buffer (R29). -/
structure BufEntry where
  id : Nat
  op : BufOp
  bytes : List (Loc × Byte) := []
  rel : Bool := false
  scope : Scope := .str
  sc : Bool := false
  va : Word := 0
  /-- Bytes of which only the bits of a mask are stored (sub-byte elements, R130). -/
  mask : List (Loc × Byte) := []
  /-- Bytes of one element: beyond the core each element is a store of its own (R130); 0: one store. -/
  el : Nat := 0
  /-- PC and first 64 bits of the instruction, and the addresses it accesses by this entry (R228, R237). -/
  pc : Pc := 0
  iw : Word := 0
  vas : List Word := []
  /-- Single-byte stores of one local-store access carry the identifier of its first (R108); 0: a store of its own. -/
  grp : Nat := 0
  deriving DecidableEq, Repr

/-- What a blocked strand waits on (R21, R263). -/
inductive WaitObj
  | none
  /-- A barrier generation arrived at: its domain and generation (R206, R359). -/
  | barrier (dom gen : Nat)
  /-- A `kview` request waiting on chamber `chm` (R359); `reply` is set when one is ready. -/
  | kview (chm : Nat) (reply : Option Nat)
  /-- A `kjoin` request waiting (R359). -/
  | kjoin (chm : Nat) (reply : Option Nat)
  /-- A window of a core being filled (R283); `failed`: its fill could not be served (R284). -/
  | touch (core win : Nat) (failed : Option (Bool × Word))
  /-- Operations of the engine queues `qs` with a smaller identifier (R162, R163). -/
  | queue (qs : List (Fin 4)) (limit : Nat)
  /-- A message on its way (R210). -/
  | send (id : Nat)
  /-- Slots of cisterns, each with the producer's side or not and the count (R155, R158). -/
  | slots (need : List (Fin 16 × Bool × Nat))
  /-- A message to receive (R210). -/
  | recv
  /-- Helpers to end (R112). -/
  | helpers (mask : BitVec 16)
  deriving DecidableEq, Repr

/-- Results that run-ahead instructions hold (R145). -/
structure Ahead where
  pc : Pc
  g : List (Fin 32 × Word) := []
  p : List (Fin 8 × BitVec 16) := []
  flags : Flags := 0
  n : Nat := 0
  /-- An instruction that would trap, or that may not run ahead, waits for the repeats. -/
  stop : Bool := false
  /-- What the instructions contribute to the fingerprint (R237). -/
  trace : List Byte := []
  deriving DecidableEq, Repr

/-- A `rep` sequence whose repeats the repetition buffer issues (R143, R144). -/
structure RepSeq where
  body : Instr
  n : Nat
  sd : BitVec 3
  sa : BitVec 3
  sb : BitVec 3
  i : Nat
  ahead : Ahead
  deriving DecidableEq, Repr

/-- A pending membership-change trap (R363). -/
structure Change where
  chm : Nat
  view : Nat
  sub : Nat
  count : Nat
  hnd : Word := 0
  deriving DecidableEq, Repr

/-- The private state of a strand (R11) and its place in the ordering machine.
(DESIGN CHOICE, log 1) -/
structure Strand where
  pc : Pc := 0
  g : Vector Word 32 := .replicate 32 0
  v : Vector Vec 16 := .replicate 16 (.replicate 16 0)
  p : Vector (BitVec 16) 8 := .replicate 8 0
  -- %ssw (R14); `sid` is the strand's index
  priv : Bool := false
  rei : Bool := false
  slicefix : Bool := false
  sx : Bool := false
  blk : BitVec 4 := 0
  live : Bool := false
  repact : Bool := false
  repcnt : BitVec 7 := 0
  fflags : Flags := 0
  dom : Dom := {}
  stamp : Nat := 0
  buf : List BufEntry := []
  loads : List PendLoad := []
  /-- Scoreboard: the access, copy or collective whose reply a register waits for (R22). -/
  pend : List (Nat × RegName) := []
  /-- Accesses without which no later instruction issues (R33, R210, R312). -/
  gates : List Nat := []
  wait : WaitObj := .none
  /-- PC of the instruction that waits on `wait`. -/
  waitAt : Pc := 0
  rep : Option RepSeq := Option.none
  /-- PC of the prefix whose sequence `repcnt` counts (R146). -/
  repAt : Pc := 0
  /-- Times before which a plain-data line, cluster-cache line or hub copy is void (R225, R270, R350). -/
  voidP : Nat := 0
  voidC : Nat := 0
  voidR : Nat := 0
  /-- Chambers this strand uses (R363). -/
  uses : List Nat := []
  changes : List Change := []
  /-- Address of a dropped remote store (R351). -/
  dropped : Option Word := Option.none
  /-- First 64 bits of the instruction being issued (packet dword 3, R228). -/
  iw : Word := 0
  deriving DecidableEq, Repr

/-! ### Cores -/

/-- A cistern (R154). `held`: slots taken by an advance and not yet released, oldest first, each with
the producer's side or not, its count and what its release waits for. -/
inductive RelCond
  | now
  /-- The loads of a strand with these identifiers (R158). -/
  | loads (strand : Fin 11) (ids : List Nat)
  /-- The store-buffer entries of a strand with these identifiers (R158). -/
  | stores (strand : Fin 11) (ids : List Nat)
  /-- An operation of an engine queue (R155). -/
  | op (id : Nat)
  /-- None of the operations `ids` of the engine queues reads, or with `write` writes, one of the bytes any more (R158). -/
  | clear (write : Bool) (ids : List Nat) (ls : List Loc)
  deriving DecidableEq, Repr

structure Held where
  id : Nat
  prod : Bool
  k : Nat
  cond : List RelCond
  /-- The queue and the operation whose slots they are (R162). -/
  of : Option (Fin 4 × Nat) := none
  deriving DecidableEq, Repr

structure Cistern where
  defined : Bool := false
  base : BitVec 20 := 0
  slot : Nat := 0
  n : Nat := 0
  pp : Nat := 0
  cp : Nat := 0
  filled : Nat := 0
  free : Nat := 0
  held : List Held := []
  deriving DecidableEq, Repr

/-- A bound stream port (R134, R139). `base`: B0; `word`: the base in the `sbind` word (R231); `ahead`: elements read and not
yet returned (R138). -/
structure Port where
  strand : Fin 11
  d : Fin 16
  ty : Ty
  wr : Bool
  base : BitVec 20
  s0 : BitVec 12
  n0 : Nat
  s1 : BitVec 16
  n1 : Nat
  pos : Nat := 0
  ahead : List Nat := []
  /-- Stores of the strand with a smaller identifier are seen (R138). -/
  since : Nat := 0
  word : BitVec 20 := 0
  deriving DecidableEq, Repr

/-- A permutation table (R172). (DESIGN CHOICE, log 1) -/
structure Table where
  valid : Bool := false
  pi : List (BitVec 7) := List.replicate 128 0
  deriving DecidableEq, Repr

/-- One row an engine operation adds: its vein and exact contribution (R169). -/
structure Row where
  w : Fin 64
  x : XReal
  deriving DecidableEq, Repr

/-- A joint operation (R213, R214). -/
structure JointOp where
  rot : Bool
  w : Fin 64
  act : Nat
  rcd : Nat
  n : Nat
  fmt : Fmt
  ty : Ty
  mode : Bool
  start : Nat
  deriving DecidableEq, Repr

/-- `out`: the record that `lsort` writes, byte by byte. -/
inductive Eq0Kind
  | plan
  | rows (two : Bool) (rs : List Row)
  | sort (out : List (Loc × Byte))
  | clr (w : Fin 64) (anchor : BitVec 8)
  | wr (w : Fin 64) (v : BitVec 128) (status : Word) (add : Bool)
  | pert (cmd : Word)
  | joint (j : JointOp)
  deriving DecidableEq, Repr

/-- An operation of EQ0 (R160, R171). -/
structure Eq0Op where
  id : Nat
  strand : Fin 11
  kind : Eq0Kind
  /-- Cisterns it names (R157). -/
  names : List (Fin 16) := []
  /-- The cistern it writes (R158). -/
  dst : Option (Fin 16) := none
  started : Bool := false
  /-- The step and the window whose fill the operation has asked EQ1 for in vain, in its error state (R164). -/
  asked : Option (Nat × Nat) := none
  deriving DecidableEq, Repr

/-- The local side of a copy (R274). -/
inductive LocalSide
  | at' (base : Nat)
  | cis (c : Fin 16)
  deriving DecidableEq, Repr

inductive CopyKind
  | ld (t : Bool)
  | st
  | gath
  | scat (add : Bool)
  | bind (win : Fin 8)
  | unbind (win : Fin 8) (wb : Bool)
  | fill (win : Fin 8)
  deriving DecidableEq, Repr

/-- A box (R271) or an index list (R275), as read at acceptance. -/
inductive Shape
  | box (o e : Vector Nat 4) (p : Vector Nat 3) (lsel : Nat)
  | rows (q : Nat) (idx : List Nat)
  deriving DecidableEq, Repr

/-- A fault a copy has met on the handle side (R280): the page, whether it was a write, and the elements moved
before it. -/
structure CopyStall where
  va : Word
  write : Bool
  after : Nat
  deriving DecidableEq, Repr

/-- An operation of EQ1 or EQ2 (R160, R276). -/
structure CopyOp where
  id : Nat
  strand : Fin 11
  kind : CopyKind
  h : Word := 0
  dst : Option (Fin 32) := Option.none
  side : LocalSide := .at' 0
  desc : Nat := 0
  priv : Bool := false
  dfield : Nat := 0
  major : Nat := 0
  /-- Identifier of the youngest store the strand had issued (R166). -/
  after : Nat := 0
  shape : Option Shape := Option.none
  started : Bool := false
  stall : Option CopyStall := Option.none
  /-- The window whose fill the operation waits for, and a failed fill: whether it was refused for protection (R284). -/
  waits : Option Nat := Option.none
  failed : Option Bool := Option.none
  /-- Elements read by a write that has met a fault, in copy order, those in the spill buffer among them; `whole`: all of
  its source has been read; `moved`: elements before the last fault (R280, R281). -/
  src : Option (List Nat) := Option.none
  whole : Bool := false
  moved : Nat := 0
  /-- Slots of a cistern moved so far, and the bytes read from them (R277). -/
  slots : Nat := 0
  taken : List Byte := []
  deriving DecidableEq, Repr

/-- A queue in the error state (R164): the cause, the offset, the operations discarded. -/
structure QErr where
  cause : Nat
  off : Nat
  discarded : Nat := 0
  deriving DecidableEq, Repr

/-- A window (R282). -/
structure Window where
  h : Word
  base : Nat
  shape : Shape
  present : Bool
  lo : Nat
  hi : Nat
  filled : Bool := false
  /-- The descriptor's offset and the D field of the `hbind`, for the notice of a fill (R279). -/
  desc : Nat := 0
  d : Nat := 0
  deriving DecidableEq, Repr

inductive CollMajor | kred | kbcast | kgath | krsc
  deriving DecidableEq, Repr

/-- The descriptor of a collective (R354). -/
structure CollDesc where
  n : Nat
  cell : Nat
  anchor : BitVec 8
  root : Nat
  src : Nat
  dst : Nat
  hnd : Word
  row : Nat
  deriving DecidableEq, Repr

/-- A collective in EQ3 (R355). `drained`: it has its place; `turn`: the order of acceptance in the module; `cleared`,
`entered`: the cells have been cleared, and hold its own elements; `steps`: ring steps complete; `got`, `part`: what has arrived of the block of the next
step; `own`: the source; `out`: bits [6:0] of the status. -/
structure CollOp where
  id : Nat
  strand : Fin 11
  chm : Nat
  major : CollMajor
  rw : Bool
  ty : Ty
  md : Round
  mode : Bool
  desc : Nat
  d : Fin 32
  priv : Bool
  drained : Bool := false
  accepted : Option CollDesc := Option.none
  turn : Nat := 0
  cleared : Bool := false
  entered : Bool := false
  started : Bool := false
  steps : Nat := 0
  got : Nat := 0
  part : List Nat := []
  own : List Nat := []
  out : BitVec 7 := 0
  /-- Results (position, element) of 16-byte units that are not whole yet (R167). -/
  res : List (Nat × Nat) := []
  deriving DecidableEq, Repr

/-- A cache line of 64 bytes and the time it was filled (R153, R224). -/
structure Line where
  stamp : Nat
  data : List Byte
  deriving DecidableEq, Repr

/-- A translation leaf as held by a TLB (R269). -/
structure Leaf where
  ctx : Nat
  va : Nat
  size : Nat
  entry : Word
  deriving DecidableEq, Repr

/-- What leaves the core order point outward (R165): performed at cluster scope once `stage` is 1.
`held`: it waits in a pair's store queue (R237). -/
structure OutEntry where
  strand : Fin 11
  e : BufEntry
  /-- The task and the context that issued it. -/
  task : Option Nat := Option.none
  ctx : Nat := 0
  stage : Nat := 0
  held : Bool := false
  /-- It needs no place in the order of `.sc` accesses (R312). -/
  go : Bool := true
  /-- The moment at which it was performed at cluster scope (R224). -/
  turn : Nat := 0
  deriving DecidableEq, Repr

/-- What a retired instruction contributes to the fingerprint (R237): bytes, and results of registers that are pending
still. -/
inductive TrailPart
  | bytes (bs : List Byte)
  | reg (r : RegName)
  deriving DecidableEq, Repr

/-- A retired instruction of which not every result is there; its accesses have the identifiers from `since` to below
`upto`. -/
structure Trail where
  strand : Fin 11
  since : Nat
  upto : Nat
  parts : List TrailPart
  deriving DecidableEq, Repr

/-- `%lprog` (R190). -/
structure Lprog where
  act : Bool := false
  sus : Bool := false
  total : Nat := 0
  start : BitVec 9 := 0
  done : Nat := 0
  op : Nat := 0
  deriving DecidableEq, Repr

/-- `%late` (R208). -/
structure Late where
  cyc : BitVec 32 := 0
  cnt : BitVec 16 := 0
  comm : Bool := false
  deriving DecidableEq, Repr

/-- A fault packet of eight dwords (R228). -/
abbrev Packet := List Word

structure Core where
  task : Option Nat := Option.none
  ctx : Nat := 0
  lnum : BitVec 16 := 0xFFFF
  frozen : Bool := false
  /-- Frozen by a placement conflict (R310). -/
  conflict : Bool := false
  trapStrand : BitVec 4 := 0
  /-- Packets waiting for a slot (R226). -/
  held : List Packet := []
  /-- No further packet until the thaw (R226). -/
  packed : Bool := false
  strands : Vector Strand 11 := .replicate 11 {}
  ls : Sparse Byte := []
  -- %ls (R149)
  stray : Bool := false
  ue : Bool := false
  soff : BitVec 20 := 0
  lspan : BitVec 4 := 0
  size : BitVec 8 := 0
  -- %core.ecc (R150), words with one wrong bit, poisoned words (R151, R152)
  ecc : BitVec 16 := 0
  weak : List (Nat × Nat) := []
  bad : List Nat := []
  e4m3 : Bool := false
  org : Vector (BitVec 32) 3 := .replicate 3 0
  ext : Vector (BitVec 32) 3 := .replicate 3 0
  lprog : Lprog := {}
  late : Late := {}
  cist : Vector Cistern 16 := .replicate 16 {}
  ports : Vector (Option Port) 4 := .replicate 4 Option.none
  /-- What the debug window has written of ports that are not bound (R231). -/
  drafts : Vector (Option Port) 4 := .replicate 4 Option.none
  veins : Vector Vein 64 := .replicate 64 {}
  tabs : Vector Table 8 := .replicate 8 {}
  eq0 : List Eq0Op := []
  eq1 : List CopyOp := []
  eq2 : List CopyOp := []
  eq3 : List CollOp := []
  err : Vector (Option QErr) 4 := .replicate 4 Option.none
  armed : Option Word := Option.none
  wins : Vector (Option Window) 8 := .replicate 8 Option.none
  rq : List Msg := []
  ovf : List Msg := []
  pdc : Sparse Line := []
  /-- The values of each 8-byte unit that fetch and prefetch have taken since the instruction cache was emptied, oldest
  first (R58). -/
  icache : Sparse (List Word) := []
  outq : List OutEntry := []
  utlb : List Leaf := []
  repOwner : Option (Fin 11) := Option.none
  /-- Issue slots that the core has had: the cycles that ready stamps count (R19). -/
  slot : Nat := 0
  -- fingerprints (R236, R237)
  fp : BitVec 32 := 0xFFFFFFFF
  fpLast : BitVec 32 := 0
  /-- Retired instructions that the fingerprint has not taken yet, in order. -/
  trail : List Trail := []
  /-- The leader's number of the pair this core is in. -/
  pairOf : Option Nat := Option.none
  /-- The pair's undo window: the old bytes of local-store writes, latest first (R237), and the words written whole
meanwhile (R152). -/
  undo : List (Nat × Byte) := []
  whole : List Nat := []
  /-- `tfin` has returned this core while its gang goes on (R202, R254). -/
  returned : Bool := false
  /-- Echo detector: a worker of the list domain, and idle (R256). -/
  worker : Bool := false
  idle : Bool := false
  /-- Sequence number of `.sc` announcements (R312). -/
  scSeq : Nat := 0
  deriving DecidableEq, Repr

/-- A pair (R236, R237). `snap`: the leader at the agreed point. -/
structure PairRec where
  leader : Nat
  shadow : Nat
  interval : Nat
  retired : Nat := 0
  snap : Core
  rollbacks : Nat := 0
  /-- The interval is being run again. -/
  again : Bool := false
  /-- An end of the interval is due. -/
  due : Bool := false
  /-- `tfin` or an eviction ends the pair at the next agreement. -/
  ending : Bool := false
  /-- An instruction that reaches beyond the pair may be performed: nothing has retired since the agreement. -/
  pass : Bool := false
  /-- One core has met an uncorrectable word that the other has not: what their fingerprints say is open (R152). -/
  split : Bool := false
  /-- Such an instruction has retired: nothing issues until its entries have left the strand's buffer, and the
  agreed point then lies after it. -/
  settle : Bool := false
  deriving DecidableEq, Repr

/-! ### Clusters and dies -/

/-- A vein cell and its contributor span (R219, R356); `bad`: an injected error of its engine line stands in it (R239). -/
structure Cell where
  w : Vein := {}
  span : Option (Nat × Nat) := Option.none
  bad : Bool := false
  deriving DecidableEq, Repr

/-- `harvest`, `stacked`, `sup`: fused; bit p of `stacked` is 0 when the stacked half of core p's local store is fused
off (R2). (DESIGN CHOICE, log 2) -/
structure Cluster where
  harvest : BitVec 36 := 0xFFFFFFFFF
  stacked : BitVec 36 := 0xFFFFFFFFF
  sup : Nat := 0
  hchain : BitVec 28 := 0
  cells : Sparse Cell := []
  slots : Vector Packet 64 := .replicate 64 []
  pqHead : Nat := 0
  pqCount : Nat := 0
  mdrop : Bool := false
  seq : Nat := 0
  halt : Bool := false
  haltDepth : BitVec 4 := 0
  cont : Vector Word 4 := .replicate 4 0
  inject : Word := 0
  cache : Sparse Line := []
  tlb : List Leaf := []
  deriving DecidableEq, Repr

/-- A reservation for the head of a queue of a context (R259): its first record, or a saved gang (`gang`). -/
structure Reserve where
  ctx : Nat
  queue : Nat
  gang : Option Nat
  cores : List Nat
  deriving DecidableEq, Repr

inductive Power | offline | online | parking | parked | unparking
  deriving DecidableEq, Repr

/-- A die: `%disp`, the dispatcher's pointers and reservations, and the power state (R257 to R260, R285, R320).
(DESIGN CHOICE, log 1) -/
structure Die where
  fcast : BitVec 16 := 0
  slice : BitVec 16 := 200
  age : BitVec 8 := 64
  rr : Vector Nat 4 := .replicate 4 63
  reserve : List Reserve := []
  power : Power := .online
  cur : BitVec 4 := 1
  stepTo : Option (BitVec 4) := Option.none
  stretched : Bool := false
  deriving DecidableEq, Repr

/-! ### Tasks, contexts and handles -/

/-- A task record with its origin address (R247). -/
structure Rec where
  dwords : List Word
  origin : Word := 0
  age : Nat := 0
  /-- Tasks the record notes (R310). -/
  notes : List Nat := []
  deriving DecidableEq, Repr

/-- A task that has issued `tjoin` on the record at an address of a context (R310). -/
structure Joiner where
  ctx : Nat
  va : Word
  task : Nat
  deriving DecidableEq, Repr

/-- A declared-set entry (R308). -/
structure SetEntry where
  h : Word
  first : Nat
  count : Nat
  mode : Nat
  retired : Bool := false
  deriving DecidableEq, Repr

/-- A running or saved task. `cores`: physical cores in row order. `saved`: the cores' states (R263). `detached`: the
copies that go on without their core, with its place (R281). -/
structure Task where
  id : Nat
  ctx : Nat
  record : Rec
  w : Nat
  h : Nat
  cores : List Nat
  lnums : List Nat
  entries : List SetEntry := []
  live : Bool := true
  saved : List Core := []
  ready : Bool := false
  detached : List (Nat × CopyOp) := []
  deriving DecidableEq, Repr

/-- A failure event of a context (R246, R247, R254). -/
structure Failure where
  origin : Word
  cause : Nat
  addr : Word := 0
  lnums : List Nat := []
  deriving DecidableEq, Repr

/-- A context (R243): the copied descriptor and the root. -/
structure Ctx where
  desc : List Word := []
  root : Word := 0
  checked : Bool := false
  stopped : Bool := false
  fails : List Failure := []
  lists : Sparse (List Word) := []
  /-- The Echo detector reports the list domain quiescent (R256). -/
  quiet : Bool := false
  /-- The `.lsdata` image of the context's program, which each task start lays down (R147). -/
  lsdata : List Byte := []
  deriving DecidableEq, Repr

/-- A handle (R293 to R307). `data`: bytes of the element stream, each row padded to whole sectors
(R82). `inOrder`: the operation that holds the handle's order (R304, R305). -/
structure Handle where
  v : Word
  ctx : Nat
  ops : BitVec 16
  ty : Ty
  rfmt : Nat
  e : Vector Nat 4
  rank : Nat
  mode : Bool
  classes : BitVec 8
  rerep : Nat := 0
  base : Word := 0
  freed : Bool := false
  data : Sparse Byte := []
  bad : List Nat := []
  holder : Option (Nat × Nat) := Option.none
  /-- For an imported handle: the exporting module, the exported handle and the token (R302). -/
  imported : Option Nat := Option.none
  source : Word := 0
  token : Word := 0
  /-- The data stand in another module: what it holds at moment `n` is a free value (R302, R351). -/
  outside : Option Nat := Option.none
  deriving DecidableEq, Repr

/-- An export token (R302). -/
structure Token where
  v : Word
  h : Word
  dest : Option Nat
  ctx : Nat
  deriving DecidableEq, Repr

/-- An arrival at a barrier: the logical core, its flags, and the phase that a `dphase` selects (R206). -/
structure Arrival where
  lnum : Nat
  flags : BitVec 5 := 0
  phase : Option Bool := Option.none
  deriving DecidableEq, Repr

/-- The open barrier generation of a domain (R204, R206): level, key and place name the domain; `arrived`: the arrivals in
their order; `done`: the merged flags of the last generation released. -/
structure Barrier where
  dom : Nat
  ctx : Nat
  key : BitVec 16
  lvl : Nat
  place : Nat
  gen : Nat := 0
  arrived : List Arrival := []
  done : BitVec 5 := 0
  deriving DecidableEq, Repr

/-- An outstanding page request of copy `op` (R326); `posted`: it stands in the ring. -/
structure PageReq where
  id : BitVec 32
  op : Nat
  ctx : Nat
  va : Word
  write : Bool
  posted : Bool
  deriving DecidableEq, Repr

/-- An announcement of an `.sc` access (R312). -/
structure Announce where
  lnum : Nat
  seq : Nat
  core : Nat
  strand : Fin 11
  id : Nat
  deriving DecidableEq, Repr

/-! ### Fabric -/

inductive PortState | down | training | up
  deriving DecidableEq, Repr

/-- A flit's share of a set of members by route index (R343, R361): the `part`-th of `parts`.
(DESIGN CHOICE, log 78) -/
structure ViewPart where
  chm : Nat
  view : Nat
  part : Nat
  parts : Nat
  set : ViewSet := {}
  deriving DecidableEq, Repr

/-- What a flit of this module carries (R343, R346, R349, R352, R361, R364). -/
inductive OutLoad
  | coll (f : CollFlit)
  | store (mod addr : Nat) (bytes mask : List Byte)
  | load (mod addr n : Nat)
  | atomic (mod addr : Nat) (op : BufOp)
  | heartbeat
  | proposal (p : ViewPart)
  /-- `route`: the member that confirms. -/
  | confirm (route : Nat) (p : ViewPart)
  | commit (p : ViewPart)
  /-- For a joiner: its view's mode, and the members in `set.joined`. -/
  | entry (mode : Bool) (p : ViewPart)
  | joinRequest (chm : Nat)
  | noMember (chm : Nat)
  | response (addr : Nat) (bytes : List Byte)
  /-- Requests to the Lapidary of the module that exported a handle (R351). -/
  | lap (mod : Nat) (h : Word) (ask : HandleAsk)
  | rowsRead (mod : Nat) (h : Word)
  | rows (mod : Nat) (h : Word) (els : List (Nat × Nat × Nat))
  | ack (addr : Nat)
  | keyNotice (first : List Nat)
  | transit (dest addr : Nat) (payload : List Byte)
  | askReplay (vc : Fin 8) (seq : Nat)
  /-- Room for `n` more flits of a channel (R343, R344). -/
  | credit (vc : Fin 8) (n : Nat)
  deriving DecidableEq, Repr

/-- A flit in a replay buffer (R345). -/
structure Kept where
  vc : Fin 8
  seq : Nat
  phase : Bool
  load : OutLoad
  deriving DecidableEq, Repr

/-- A fabric port (R343 to R347). `phase`, `roll`: of the sending side, `rxPhase`, `rxRoll`: of the receiving side, with
`rxFirst` the first sequence numbers under its new key;
`next`: the sequence number expected on each channel; `early`: good flits held back (channel, number, load); `kept`: the
replay buffers; `wait`: what waits for room, for credits or for the link; `badRun`: failed flits in a row; `credits`: the
flits that the partner still has room for, on each channel; `granted`: this side has given its own.
(DEDUCED, log 54; DESIGN CHOICE, log 78) -/
structure FPort where
  state : PortState := .down
  phase : Bool := false
  roll : Bool := false
  rxPhase : Bool := false
  rxRoll : Bool := false
  rxFirst : List Nat := []
  replay : BitVec 16 := 0
  crc : BitVec 16 := 0
  tag : BitVec 16 := 0
  next : Vector Nat 8 := .replicate 8 0
  early : List (Fin 8 × Nat × FlitLoad) := []
  badRun : Nat := 0
  kept : List Kept := []
  wait : List (Fin 8 × OutLoad) := []
  txSeq : Vector Nat 8 := .replicate 8 0
  credits : Vector Nat 8 := .replicate 8 0
  granted : Bool := false
  deriving DecidableEq, Repr

/-- A proposal being agreed (R361, R364): the departed members and those that join, by route index. -/
structure Proposal where
  view : Nat
  set : ViewSet := {}
  deriving DecidableEq, Repr

/-- A chamber's view on this module (R352, R360): its members in the order of route indices. `joining`: the modules
whose requests to join stand (R364); `via`: the port by which the proposal first came, and `owed`: this module has still to
confirm it; `confirms`: the sets confirmed to this module, by route index (R361). -/
structure Chamber where
  ctx : Nat
  view : Nat
  members : List Nat
  rank : Nat
  mode : Bool
  kept : Nat := 0
  joined : Nat := 0
  departed : Nat := 0
  badMode : Nat := 0
  badTag : Nat := 0
  joining : List Nat := []
  proposal : Option Proposal := Option.none
  via : Option (Fin 24) := Option.none
  owed : Bool := false
  confirms : List (Nat × Proposal) := []
  deriving DecidableEq, Repr

/-- A `kview` or `kjoin` request of this module (R359); `lnum`: the logical core. -/
structure KReq where
  chm : Nat
  ctx : Nat
  core : Nat
  lnum : Nat
  strand : Fin 11
  list : List Nat := []
  mode : Bool := false
  join : Bool := false
  contact : Nat := 0
  deriving DecidableEq, Repr

/-- What the module sends over the fabric or to the host. -/
inductive Sent
  | flit (port : Fin 24) (vc : Fin 8) (seq : Nat) (phase : Bool) (load : OutLoad)
  | dieOffline (die : Fin 8)
  | dieOnline (die : Fin 8)
  deriving DecidableEq, Repr

/-! ### The module -/

/-- A move of the schedule: let a core issue, each 8-byte unit of its fetch block as memory is now (0, or no entry of
`held`) or as the core has taken it for the `n`-th time since its instruction cache was emptied (`n`, from 1; R58); a
prefetch of a unit for a strand (R55); an event; or the firmware's: installing a supervision routine in the clusters of a
context's region (R338), measuring an image that it loads (R330). -/
inductive Move
  | issue (core : Nat) (held : List Nat)
  | prefetch (core : Nat) (strand : Fin 11) (va : Nat)
  | event (i : Instr)
  | install (ctx : Fin 64) (code : Word) (lsdata : List Byte)
  | measure (hash : BitVec 256)
  deriving DecidableEq, Repr

/-- The state of the module. Fields that are the model's own: `agenda`, `cur`, `retired`, `cycle`,
`nextId`, `draws`. (DESIGN CHOICE, log 2) -/
structure State where
  cores : Sparse Core := []
  clusters : Sparse Cluster := []
  dies : Vector Die 8 := .replicate 8 {}
  mem : Sparse Byte := []
  poisoned : List Nat := []
  -- %mod (R292)
  poison : Bool := false
  rev : BitVec 8 := 0
  part : BitVec 16 := 8
  -- %pcap (R318)
  lock : Bool := false
  str : BitVec 15 := 0
  a10 : BitVec 11 := 0
  a1 : BitVec 11 := 0
  ceil : BitVec 11 := 1200
  /-- Earlier ceilings, each with the governor's ticks for which it still bounds the draw (R319). -/
  ceilPast : List (BitVec 11 × Nat) := []
  -- %pst.req (R322)
  req : BitVec 32 := 0x11111111
  ctxbase : Word := 0
  -- %ctxcmd (R324), %ctxen
  ctxRes : BitVec 3 := 0
  ctxOp : BitVec 2 := 0
  ctxNum : BitVec 6 := 0
  ctxen : Word := 0
  -- %inv (R325): the register without busy
  inv : Word := 0
  invBusy : Bool := false
  -- %preq (R326), %elog (R327)
  preqHead : BitVec 7 := 0
  preqBase : Word := 0
  preqTail : BitVec 7 := 0
  elogBase : Word := 0
  elogNext : BitVec 7 := 0
  preqs : List PageReq := []
  hubWrites : List RegWrite := []
  ctxs : Sparse Ctx := []
  queues : Sparse (List Rec) := []
  joins : List Joiner := []
  tasks : List Task := []
  pairs : List PairRec := []
  barriers : List Barrier := []
  handles : List Handle := []
  tokens : List Token := []
  scWindow : List Announce := []
  scFlight : List (List Announce) := []
  /-- Announced accesses in the order in which they are performed (R312). -/
  scOrder : List Announce := []
  refusals : Nat := 0
  measure : Vector (BitVec 256) 2 := .replicate 2 0
  nonce : Option (BitVec 256) := Option.none
  report : List Byte := []
  recovery : Bool := false
  fports : Vector FPort 24 := .replicate 24 {}
  self : BitVec 24 := 0
  lostCount : Nat := 0
  lost : List Nat := []
  chambers : Sparse Chamber := []
  kreqs : List KReq := []
  /-- Cached copies of remote lines in the hubs (R349), by physical module * 2^52 + line. -/
  rcopies : Sparse Line := []
  sent : List Sent := []
  injectOk : Bool := false
  agenda : List Move := []
  cur : Nat × Fin 11 := (0, 0)
  retired : Bool := false
  cycle : Nat := 0
  nextId : Nat := 1
  draws : Nat := 0
  deriving DecidableEq, Repr

/-- The module right after reset: every field at its default above. No task runs and no context is
enabled (R324, R330). Values that the specification does not give stand in the log: 1, 2 and 3.
(DESIGN CHOICE, log 1) -/
def State.reset : State := {}

end Sys2Proof.Machine
end

