-- ==== Sys2Proof/Machine/Ops.lean ====
section
/-! DEFINITION. The named operations over the state: cores, strands and registers, local store,
messages, the end of a gang, TAKING A TRAP with its packet and the handler chain, the thaw, translation
and the checks of a memory access, and the runner that every instruction's meaning goes through. -/

namespace Sys2Proof.Machine

/-! ### Cores, clusters, strands -/

/-- Die, cluster number in the module, and position of a core. -/
def dieOf (c : Nat) : Nat := c / 3456
def cluOf (c : Nat) : Nat := c / 36
def posOf (c : Nat) : Nat := c % 36

/-- Bits [47:32] of `%core` (R150): die, cluster in the die, position. -/
def physOf (c : Nat) : Nat := 8192 * dieOf c + 64 * (cluOf c % 96) + posOf c

/-- The core that bits [15:0] of a core-table entry name (R245). -/
def coreOfPhys (e : Nat) : Nat := 3456 * (e / 8192) + 36 * (e / 64 % 128) + e % 64

namespace State

def core (s : State) (c : Nat) : Core := sget {} s.cores c
def setCore (s : State) (c : Nat) (k : Core) : State := { s with cores := sput s.cores c k }
def modCore (s : State) (c : Nat) (f : Core → Core) : State := s.setCore c (f (s.core c))

def cluster (s : State) (i : Nat) : Cluster := sget {} s.clusters i
def setCluster (s : State) (i : Nat) (k : Cluster) : State := { s with clusters := sput s.clusters i k }
def modCluster (s : State) (i : Nat) (f : Cluster → Cluster) : State := s.setCluster i (f (s.cluster i))

def die (s : State) (d : Fin 8) : Die := s.dies[d]
def modDie (s : State) (d : Fin 8) (f : Die → Die) : State := { s with dies := s.dies.set d (f s.dies[d]) }

/-- Strand `h` of core `c`. -/
def strandAt (s : State) (c : Nat) (h : Fin 11) : Strand := (s.core c).strands[h]
def modStrandAt (s : State) (c : Nat) (h : Fin 11) (f : Strand → Strand) : State :=
  s.modCore c (fun k => { k with strands := k.strands.set h (f k.strands[h]) })

/-- The core and the strand that the issue acts on. -/
def myCore (s : State) : Core := s.core s.cur.1
def modMyCore (s : State) (f : Core → Core) : State := s.modCore s.cur.1 f
def me (s : State) : Strand := s.strandAt s.cur.1 s.cur.2
def modMe (s : State) (f : Strand → Strand) : State := s.modStrandAt s.cur.1 s.cur.2 f

/-- A fresh identifier: accesses, operations and cache fills take rising numbers.
(DESIGN CHOICE, log 4) -/
def fresh (s : State) : State := { s with nextId := s.nextId + 1 }

/-- The counter of free values advances. (DESIGN CHOICE, log 4) -/
def draw (s : State) : State := { s with draws := s.draws + 1 }

/-- The context of a number. -/
def ctx (s : State) (n : Nat) : Ctx := sget {} s.ctxs n
def setCtx (s : State) (n : Nat) (x : Ctx) : State := { s with ctxs := sput s.ctxs n x }
def modCtx (s : State) (n : Nat) (f : Ctx → Ctx) : State := s.setCtx n (f (s.ctx n))

/-- The task of a number. -/
def task? (s : State) (id : Nat) : Option Task := s.tasks.find? (fun t => t.id == id)
def modTask (s : State) (id : Nat) (f : Task → Task) : State :=
  { s with tasks := s.tasks.map (fun t => if t.id = id then f t else t) }

/-- The handle of a value. -/
def handle? (s : State) (v : Word) : Option Handle := s.handles.find? (fun h => h.v == v)
def modHandle (s : State) (v : Word) (f : Handle → Handle) : State :=
  { s with handles := s.handles.map (fun h => if h.v = v then f h else h) }

end State

/-! ### Registers (R11) -/

namespace Strand

/-- g[n]; `g0` reads zero (R11). -/
def rg (t : Strand) (n : Fin 32) : Word := if n = 0 then 0 else t.g[n]

/-- Write of g[n]; a write of `g0` is discarded. -/
def wg (t : Strand) (n : Fin 32) (x : Word) : Strand := if n = 0 then t else { t with g := t.g.set n x }

/-- p[n]; `p0` reads all ones (R11). -/
def rp (t : Strand) (n : Fin 8) : BitVec 16 := if n = 0 then 0xFFFF else t.p[n]

def wp (t : Strand) (n : Fin 8) (x : BitVec 16) : Strand := if n = 0 then t else { t with p := t.p.set n x }

def rv (t : Strand) (n : Fin 16) : Vec := t.v[n]
def wv (t : Strand) (n : Fin 16) (x : Vec) : Strand := { t with v := t.v.set n x }

/-- Flags set in `%fflags` (R16). -/
def raise (t : Strand) (f : Flags) : Strand := { t with fflags := t.fflags ||| f }

/-- `%ssw` of strand `h` (R14). -/
def ssw (t : Strand) (h : Nat) : Word :=
  BitVec.ofNat 64 (2 ^ 23 * b2n t.priv + 2 ^ 22 * b2n t.rei + 2 ^ 21 * b2n t.slicefix + 2 ^ 20 * b2n t.sx
    + 2 ^ 16 * t.blk.toNat + 2 ^ 12 * h + 2 ^ 11 * b2n t.live + 2 ^ 7 * b2n t.repact + t.repcnt.toNat)

end Strand

/-- The bytes of a register's result. -/
def Strand.resultBytes (t : Strand) : RegName → List Byte
  | .g n => leBytes 8 (t.rg n).toNat
  | .v n => (t.rv n).toList.flatMap (fun l => leBytes 4 l.toNat)
  | .p n => leBytes 8 (t.rp n).toNat

/-- `%dom` (R199). -/
def Dom.word (d : Dom) : Word :=
  BitVec.ofNat 64 (2 ^ 48 * d.key.toNat + 2 ^ 40 * d.chm.toNat + 2 ^ 39 * b2n d.chv + 2 ^ 27 * d.gw.toNat
    + 2 ^ 24 * d.gh.toNat + 2 ^ 21 * d.gx.toNat + 2 ^ 18 * d.gy.toNat + d.lvl.toNat)

/-- A strand holds register `r` pending (R22). -/
def Strand.pending (t : Strand) (r : RegName) : Bool := t.pend.any (fun x => x.2 == r)

/-! ### Local store (R148 to R152) -/

/-- Bytes of the allocation and its span (R149). -/
def Core.lsSize (k : Core) : Nat := k.size.toNat * 4096
def Core.lsSpan (k : Core) : Nat := 2 ^ (k.lspan.toNat + 12)

/-- The wrapped offset of a byte (R148). -/
def Core.wrap (k : Core) (off : Nat) : Nat := off % 2 ^ 20 % k.lsSpan

/-- The byte named by offset `off`: in the allocation or stray (R148). -/
def Core.lsLoc (k : Core) (off : Nat) : Loc :=
  let o := k.wrap off
  if o < k.lsSize then ⟨.ls, o⟩ else ⟨.stray, o⟩

/-- A byte access strays at wrapped offset `o` (R148). -/
def Core.markStray (k : Core) (o : Nat) : Core :=
  if k.stray then k else { k with stray := true, soff := BitVec.ofNat 20 o }

/-- A single-bit error is corrected and counted (R151). -/
def Core.correct (k : Core) (o : Nat) : Core :=
  if k.weak.any (fun x => x.1 == o / 8) then
    { k with weak := k.weak.filter (fun x => x.1 != o / 8),
             ecc := if k.ecc = 0xFFFF then k.ecc else k.ecc + 1 }
  else k

/-- One byte read at the core order point; `none` when its word is poisoned (R148, R151, R152). -/
def Core.readByte (k : Core) (l : Loc) : Option Byte × Core :=
  match l.at' with
  | .ls => if k.bad.contains (l.addr / 8) then (none, k) else (some (memGet k.ls l.addr), k.correct l.addr)
  | _ => (some 0, k.markStray l.addr)

/-- Bytes read in order, a poisoned byte as 0, and the first poisoned offset. (DEDUCED, log 25) -/
def Core.readBytes (k : Core) : List Loc → List Byte × Core × Option Nat
  | [] => ([], k, none)
  | l :: ls =>
    let r := k.readByte l
    let rest := r.2.readBytes ls
    (r.1.getD 0 :: rest.1, rest.2.1, if r.1.isNone then some l.addr else rest.2.2)

/-- One byte written at the core order point (R148). (DESIGN CHOICE, log 73) -/
def Core.writeByte (k : Core) (l : Loc) (b : Byte) : Core :=
  match l.at' with
  | .ls => { k with ls := memSet k.ls l.addr b, weak := k.weak.filter (fun x => x.1 != l.addr / 8) }
  | _ => k.markStray l.addr

/-- The write covers every byte of word `w` (R152). -/
def coversWord (bs : List (Loc × Byte)) (w : Nat) : Bool :=
  (List.range 8).all (fun j => bs.any (fun x => x.1 == ⟨.ls, 8 * w + j⟩))

/-- One access that writes bytes: a full word loses its poison (R152). (DEDUCED, log 25) -/
def Core.writeBytes (k : Core) (bs : List (Loc × Byte)) : Core :=
  let k' := bs.foldl (fun k x => k.writeByte x.1 x.2) k
  { k' with bad := k'.bad.filter (fun w => !coversWord bs w) }

/-- A write of the core's own strands or its EQ0: a pair logs the old bytes (R237). -/
def Core.ownWrite (k : Core) (bs : List (Loc × Byte)) : Core :=
  let k' := k.writeBytes bs
  if k.pairOf.isNone then k'
  else
    let own := bs.filter (fun x => x.1.at' == .ls)
    { k' with
      undo := own.map (fun x => (x.1.addr, memGet k.ls x.1.addr)) ++ k.undo
      whole := (own.map (fun x => x.1.addr / 8)).filter (coversWord bs) ++ k.whole }

/-- The bytes `off`, `off + 1`, … of an access (R148). -/
def Core.lsRange (k : Core) (off n : Nat) : List Loc := (List.range n).map (fun j => k.lsLoc (off + j))

/-- `%ls.cap` of core `c`: 512 KiB on a Z8, 256 KiB on a Z8C and where the stacked half is fused off (R1, R2, R149).
(DESIGN CHOICE, log 2) -/
def State.lsCap (s : State) (c : Nat) : Nat :=
  if s.part = 0x0108 || !bitAt (s.cluster (cluOf c)).stacked.toNat (posOf c) then 0x40000 else 0x80000

/-! ### What a strand waits on (R21 to R23) -/

/-- Operations that have left queue `q` while slots of a cistern that they used are still to be released (R162). -/
def Core.releasing (k : Core) (q : Fin 4) : List Nat :=
  (k.cist.toList.flatMap Cistern.held).filterMap (fun h => match h.of with
    | some (p, id) => if p = q then some id else none
    | none => none)

/-- Identifiers of the operations of queue `q` that are not complete. -/
def Core.opsIn (k : Core) (q : Fin 4) : List Nat :=
  (match q with
    | 0 => k.eq0.map Eq0Op.id
    | 1 => k.eq1.map CopyOp.id
    | 2 => k.eq2.map CopyOp.id
    | 3 => k.eq3.map CollOp.id) ++ k.releasing q

/-- Some helper of the mask is live. -/
def Core.anyLive (k : Core) (m : BitVec 16) : Bool :=
  (List.finRange 11).any (fun h => h != 0 && m.getLsbD h.val && k.strands[h].live)

/-- What the strand's present instruction waits on. -/
def Strand.waiting (t : Strand) : WaitObj := if t.waitAt = t.pc then t.wait else .none

/-- The location belongs to another module. -/
def Loc.isRemote (l : Loc) : Bool :=
  match l.at' with
  | .remote _ => true
  | _ => false

/-- The strand waits for the reply of another module's memory (R21). -/
def Strand.awaitsRemote (t : Strand) : Bool :=
  t.loads.any (fun l => t.gates.contains l.id && l.locs.any Loc.isRemote)

/-- The lower nonzero of two codes (R23). -/
def lowCode (a b : BitVec 4) : BitVec 4 := if a = 0 then b else if b = 0 then a else if a.toNat ≤ b.toNat then a else b

/-- The code for cistern slots that are short: the consumer's is the lower. -/
def Core.slotCode (k : Core) (need : List (Fin 16 × Bool × Nat)) : BitVec 4 :=
  if need.any (fun x => !x.2.1 && decide (k.cist[x.1].filled < x.2.2)) then 2
  else if need.any (fun x => x.2.1 && decide (k.cist[x.1].free < x.2.2)) then 5
  else 0

/-- The code of a wait on `w` of a strand of core `k`, 0 once what it waits for has come about (R21). -/
def State.waitCode (s : State) (k : Core) : WaitObj → BitVec 4
  | .none => 0
  | .barrier d g => if s.barriers.any (fun b => b.dom == d && decide (g < b.gen)) then 0 else 1
  | .kview _ r | .kjoin _ r => if r.isNone then 1 else 0
  | .slots need => k.slotCode need
  | .recv => if k.rq.isEmpty && k.ovf.isEmpty then 3 else 0
  | .helpers m => if k.anyLive m then 6 else 0
  | .touch m w failed =>
    if failed.isNone && ((s.core m).wins.toList.getD w Option.none).any (fun x => !x.present) then 7 else 0
  | .send id => if k.outq.any (fun o => o.e.id == id && o.stage == 1) then 8 else 0
  | .queue qs n => if qs.any (fun q => (k.opsIn q).any (fun i => decide (i < n))) then 9 else 0

/-- `%ssw.blk` of strand `h` of core `c` at this moment (R21, R23); a freeze keeps the code (R25). -/
def State.blkOf (s : State) (c : Nat) (h : Fin 11) : BitVec 4 :=
  let k := s.core c
  let t := k.strands[h]
  if k.frozen then t.blk else lowCode (s.waitCode k t.waiting) (if t.awaitsRemote then 4 else 0)

/-- The strands of core `c` keep their codes as it freezes (R25). -/
def State.holdCodes (s : State) (c : Nat) : State :=
  s.modCore c (fun k => { k with strands := Vector.ofFn (fun h => { k.strands[h] with blk := s.blkOf c h }) })

/-- `%ls` (R149). -/
def State.lsWord (s : State) (c : Nat) : Word :=
  let k := s.core c
  BitVec.ofNat 64 (2 ^ 63 * b2n k.stray + 2 ^ 62 * b2n k.ue + 2 ^ 36 * k.soff.toNat
    + 2 ^ 32 * k.lspan.toNat + 2 ^ 20 * k.size.toNat + s.lsCap c)

/-- `%core` (R150). -/
def Core.word (k : Core) (c : Nat) : Word :=
  BitVec.ofNat 64 (2 ^ 48 * k.ecc.toNat + 2 ^ 32 * physOf c + 2 ^ 16 * k.lnum.toNat)

/-! ### Positions, containment and roles (R197, R234, R238) -/

/-- Entry `i` of `%hchain`, when valid (R234). -/
def Cluster.entry (k : Cluster) (i : Nat) : Option Nat :=
  let e := k.hchain.toNat / 2 ^ (7 * i) % 128
  if i < 4 && bitAt e 6 then some (e % 64) else none

/-- The chain entry that names a position. -/
def Cluster.chainIndex (k : Cluster) (pos : Nat) : Option Nat :=
  (List.range 4).find? (fun i => k.entry i == some pos)

/-- A position lies in an active containment rectangle (R238). -/
def inRect (r : Nat) (pos : Nat) : Bool :=
  decide (r % 8 ≤ pos % 6) && decide (pos % 6 ≤ r / 64 % 8)
    && decide (r / 8 % 8 ≤ pos / 6) && decide (pos / 6 ≤ r / 512 % 8)

def Cluster.contained (k : Cluster) (pos : Nat) : Bool :=
  k.cont.toList.any (fun r => bitAt r.toNat 63 && inRect r.toNat pos)

def Cluster.good (k : Cluster) (pos : Nat) : Bool := decide (pos < 36) && bitAt k.harvest.toNat pos

def State.contained (s : State) (c : Nat) : Bool := (s.cluster (cluOf c)).contained (posOf c)

/-! ### Messages (R211) and the error log (R327) -/

/-- A message joins a core's queue, or its overflow area; `none` when both are full (R211). -/
def Core.place (k : Core) (m : Msg) : Option Core :=
  if k.rq.length < 32 && k.ovf.isEmpty then some { k with rq := k.rq ++ [m] }
  else if k.ovf.length < 2048 then some { k with ovf := k.ovf ++ [m] }
  else none

/-- An entry of the error log (R327): the time is a free value (log 15). (DESIGN CHOICE, log 15) -/
def State.log (s : State) (kind : Nat) (info : Word) : State :=
  let a := s.elogBase.toNat + 32 * s.elogNext.toNat
  let bs := leBytes 8 kind ++ leBytes 8 info.toNat ++ leBytes 8 (Config.clock s.cycle).toNat ++ leBytes 8 0
  { s with mem := memSetAll s.mem (placeAt a bs), elogNext := s.elogNext + 1 }

/-! ### The end of a task (R238, R254, R316) -/

/-- A core whose state is discarded (R238): its stores past the order point stand, and the errors of its local store
and what its instruction cache holds stay with it. -/
def Core.freed (k : Core) (frozen : Bool) : Core :=
  { ({} : Core) with
    ecc := k.ecc, weak := k.weak, bad := k.bad, frozen := frozen, held := k.held, icache := k.icache, slot := k.slot
    outq := k.outq.filter (fun e => !e.held) }

/-- A strand that the end of its task leaves: no longer live, with its registers as they were. -/
def Strand.ended (t : Strand) : Strand :=
  { t with live := false, blk := 0, buf := [], loads := [], pend := [], gates := [], wait := .none, rep := none
           changes := [], uses := [], dropped := none }

/-- A core that `tfin` or an eviction returns to the dispatcher (R254, R263): what the task has left in it stands until
the next task starts on it (R9, R147). (DEDUCED, log 65) -/
def Core.handedBack (k : Core) (frozen : Bool) : Core :=
  { k with
    task := none, lnum := 0xFFFF, frozen := frozen, conflict := false, packed := false
    strands := k.strands.map Strand.ended, ports := .replicate 4 none, eq0 := [], eq1 := [], eq2 := [], eq3 := []
    wins := .replicate 8 none, repOwner := none, pairOf := none, undo := [], whole := [], returned := false, worker := false, idle := false
    outq := k.outq.filter (fun e => !e.held) }

/-- Core `c` returns free, with its state kept or discarded; a contained core, or one of a halted cluster, stays
frozen. (DEDUCED, log 65) -/
def State.freeCore (s : State) (keep : Bool) (c : Nat) : State :=
  let frozen := s.contained c || (s.cluster (cluOf c)).halt
  { s.modCore c (fun k => if keep then k.handedBack frozen else k.freed frozen) with
    handles := s.handles.map (fun h =>
      if (h.holder.map Prod.fst) = some c then { h with holder := none } else h)
    pairs := s.pairs.filter (fun p => p.leader != c && p.shadow != c) }

def State.freeCores (s : State) (keep : Bool) : List Nat → State
  | [] => s
  | c :: cs => (s.freeCore keep c).freeCores keep cs

/-- The merged flags of the arrivals, and the phase that the last `dphase` among them selects (R206).
(DEDUCED, log 30) -/
def Barrier.flags (b : Barrier) : BitVec 5 := b.arrived.foldl (fun f a => f ||| a.flags) 0
def Barrier.phase (b : Barrier) : Option Bool := b.arrived.foldl (fun p a => a.phase.or p) none

/-- Logical core `n` has arrived. -/
def Barrier.has (b : Barrier) (n : Nat) : Bool := b.arrived.any (fun a => a.lnum == n)

/-- The logical cores of an ended task count no longer at a barrier (R204, R238). -/
def Barrier.without (b : Barrier) (ctx : Nat) (lnums : List Nat) : Barrier :=
  if b.ctx = ctx then { b with arrived := b.arrived.filter (fun a => !lnums.contains a.lnum) } else b

/-- The task ends: its cores return, its entries and arrivals go, and a failure event names it when `cause` is given;
its cores' state is then discarded (R238, R254). -/
def State.endTask (s : State) (id : Nat) (cause : Option (Nat × Word)) : State :=
  match s.task? id with
  | none => s
  | some t =>
    let cs := t.cores.filter (fun c => (s.core c).task == some id)
    let shadows := (s.pairs.filter (fun p => cs.contains p.leader)).map PairRec.shadow
    let s := s.freeCores cause.isNone (cs ++ shadows)
    let s := { s with
      barriers := s.barriers.map (fun b => b.without t.ctx t.lnums)
      tasks := s.tasks.filter (fun t => t.id != id)
      kreqs := s.kreqs.filter (fun r => !(r.ctx == t.ctx && t.lnums.contains r.lnum)) }
    match cause with
    | none => s
    | some (k, a) => s.modCtx t.ctx (fun x =>
        { x with fails := x.fails ++ [⟨t.record.origin, k, a, t.lnums⟩] })

def State.endTasks (s : State) : List Nat → Option (Nat × Word) → State
  | [], _ => s
  | i :: is, cause => (s.endTask i cause).endTasks is cause

/-- Tasks with a core, running or held, among `cs`. -/
def State.tasksOn (s : State) (p : Nat → Bool) : List Nat :=
  (s.tasks.filter (fun t => t.saved.isEmpty && t.cores.any (fun c => p c && (s.core c).task == some t.id))).map
    Task.id

/-! ### Traps (R24 to R27, R226 to R229, R235) -/

/-- A trap: its code, sub-code, dword 2 and dword 4 (R229). -/
structure Trap where
  code : Nat
  sub : Nat := 0
  addr : Word := 0
  detail : Word := 0
  deriving DecidableEq, Repr

namespace Trap

def illegalInstruction (pc : Word) : Trap := { code := 0x02, addr := pc }
def badTarget (t : Word) : Trap := { code := 0x06, addr := t }
def handleAddress (ea : Word) : Trap := { code := 0x10, addr := ea }
def badAddress (ea : Word) : Trap := { code := 0x11, addr := ea }
def misaligned (ea : Word) : Trap := { code := 0x12, addr := ea }
def translationFault (ea : Word) : Trap := { code := 0x13, addr := ea }
def protectionFault (ea : Word) : Trap := { code := 0x14, addr := ea }
def atomicTarget (ea : Word) : Trap := { code := 0x15, addr := ea }
def badCistern (base : Word) (c : Nat) : Trap := { code := 0x18, addr := base, detail := BitVec.ofNat 64 c }
def cisternUndefined (c : Nat) : Trap := { code := 0x19, detail := BitVec.ofNat 64 c }
def portBusy (q : Nat) : Trap := { code := 0x1A, detail := BitVec.ofNat 64 q }
def streamMisuse (q : Nat) : Trap := { code := 0x1B, detail := BitVec.ofNat 64 q }

end Trap

/-- A packet (R228) of strand `h` of core `c`, about the instruction at `pc` whose first 64 bits are `iw`.
(DESIGN CHOICE, log 15) -/
def State.packet (s : State) (c : Nat) (h : Fin 11) (kind depth : Nat) (t : Trap) (pc : Pc) (iw : Word) : Packet :=
  let k := s.core c
  let st := k.strands[h]
  [BitVec.ofNat 64 (2 ^ 48 * k.lnum.toNat + 2 ^ 32 * physOf c + 2 ^ 28 * h.val + 2 ^ 24 * kind
      + 2 ^ 16 * depth + 2 ^ 8 * t.sub + t.code),
    pc.setWidth 64, t.addr, iw, t.detail, Config.clock s.cycle, { st with blk := s.blkOf c h }.ssw h.val,
    BitVec.ofNat 64 (s.cluster (cluOf c)).seq]

/-- The core of cluster `i` that a packet of chain depth `d` goes to (R226, R235). -/
def Cluster.receiver (k : Cluster) (depth : Nat) : Option Nat :=
  if depth = 0 then some k.sup else k.entry (depth - 1)

/-- A packet takes a slot, and its first half goes to the receiver as a message of kind 2 (R226, R227).
(DEDUCED, log 38) -/
def State.enqueuePacket (s : State) (clu : Nat) (pk : Packet) (pos : Nat) : State :=
  let s := s.modCluster clu (fun k =>
    { k with slots := k.slots.set ((k.pqHead + k.pqCount) % 64) pk (Nat.mod_lt _ (by omega)),
             pqCount := k.pqCount + 1 })
  let m : Msg := { kind := 2, src := 0xFFFF, data := (pk.take 4).flatMap (fun w => leBytes 8 w.toNat) }
  match (s.core (36 * clu + pos)).place m with
  | some k => s.setCore (36 * clu + pos) k
  | none => s.modCluster clu (fun k => { k with mdrop := true })

/-- The chain depth that a packet names, and its sequence number (R228). -/
def packetDepth (p : Packet) : Nat := bitsN (p.headD 0).toNat 23 16
def packetSeq (p : Packet) : Nat := (p.getD 7 0).toNat

/-- The packets that the cores of a cluster hold for a receiver (R226). -/
def State.heldIn (s : State) (clu : Nat) : List Packet :=
  ((List.range 36).flatMap (fun p => (s.core (36 * clu + p)).held)).filter
    (fun p => ((s.cluster clu).receiver (packetDepth p)).isSome)

/-- A packet is sent: admitted, or held by core `c` while the queue is full or an earlier packet waits (R226). -/
def State.send (s : State) (c : Nat) (depth : Nat) (pk : Packet) : State :=
  let clu := cluOf c
  match (s.cluster clu).receiver depth with
  | none => s.modCore c (fun k => { k with held := k.held ++ [pk] })
  | some pos =>
    if (s.cluster clu).pqCount < 64 && (s.heldIn clu).isEmpty then s.enqueuePacket clu pk pos
    else s.modCore c (fun k => { k with held := k.held ++ [pk] })

def State.freezeAll (s : State) : List Nat → State
  | [] => s
  | c :: cs => ((s.holdCodes c).modCore c (fun k => { k with frozen := true })).freezeAll cs

/-- Cores of a cluster. -/
def coresOf (clu : Nat) : List Nat := (List.range 36).map (fun p => 36 * clu + p)

/-- The cluster halts at a chain depth (R235, R316): cores freeze, gangs end, the log notes it.
(DEDUCED, log 35) -/
def State.haltCluster (s : State) (clu depth : Nat) : State :=
  let s := s.modCluster clu (fun k => { k with halt := true, haltDepth := BitVec.ofNat 4 depth })
  let s := s.freezeAll (coresOf clu)
  let s := s.endTasks (s.tasksOn (fun c => cluOf c == clu)) (some (2, 0))
  s.log 2 (BitVec.ofNat 64 (8192 * (clu / 96) + 64 * (clu % 96)))

/-- Depth of a fault of a position: 0 for a worker, 1 for the supervisor, i + 2 for chain entry i (R235). -/
def Cluster.depthOf (k : Cluster) (pos : Nat) : Nat :=
  if pos = k.sup then 1 else match k.chainIndex pos with
    | some i => i + 2
    | none => 0

/-- A fault of strand `h` of core `c`, at the instruction at `pc`, is reported (R226, R235). -/
def State.sendReportAt (s : State) (c : Nat) (h : Fin 11) (kind : Nat) (t : Trap) (pc : Pc) (iw : Word) : State :=
  let clu := cluOf c
  let depth := (s.cluster clu).depthOf (posOf c)
  let pk := s.packet c h (if depth = 0 then kind else 2) depth t pc iw
  let s := s.modCluster clu (fun k => { k with seq := k.seq + 1 })
  let s := s.modCore c (fun k => { k with packed := true })
  let s := s.send c depth pk
  match (s.cluster clu).receiver depth with
  | none => s.haltCluster clu depth
  | some _ => s

/-- The report of a fault of the strand's present instruction. (DEDUCED, log 38) -/
def State.sendReport (s : State) (c : Nat) (h : Fin 11) (kind : Nat) (t : Trap) : State :=
  s.sendReportAt c h kind t (s.strandAt c h).pc (s.strandAt c h).iw

/-- A notice of an uncorrectable local-store error that the instruction at `pc` of strand `h` has met; it freezes nothing
(R152, R226, R228). One of the supervisor or of a handler names depth 0 and goes to the supervisor too.
(DESIGN CHOICE, log 84) -/
def State.notice (s : State) (c : Nat) (h : Fin 11) (off : Nat) (pc : Pc) (iw : Word) : State :=
  if (s.core c).packed then s
  else
    let pk := s.packet c h 1 0 { code := 0x38, addr := BitVec.ofNat 64 off } pc iw
    (s.modCluster (cluOf c) (fun k => { k with seq := k.seq + 1 })).send c 0 pk

/-- The uncorrectable words of a shadow's local store, of which its leader has written some whole since the agreed point
(R152, R237). -/
def Core.badBeside (k lead : Core) : List Nat := k.bad.filter (fun w => !lead.whole.contains w)

/-- The leader `c` of a pair reads bytes by the instruction at `pc` of strand `h`, and its shadow reads its own: the shadow
corrects and reports its own errors, and the runs part where a word is uncorrectable in one core alone (R151, R152, R237).
(DEDUCED, log 45) -/
def State.splitRead (s : State) (c : Nat) (h : Fin 11) (ls : List Loc) (pc : Pc) (iw : Word) : State :=
  match s.pairs.find? (fun p => p.leader == c) with
  | none => s
  | some p =>
    let own := ls.filter (fun l => l.at' == .ls)
    let lead := s.core c
    let there := (s.core p.shadow).badBeside lead
    let s := s.modCore p.shadow (fun k => own.foldl (fun k l => k.correct l.addr) k)
    let s := if own.any (fun l => there.contains (l.addr / 8) != lead.bad.contains (l.addr / 8)) then
        { s with pairs := s.pairs.map (fun q => if q.leader = c then { q with split := true } else q) }
      else s
    match own.find? (fun l => there.contains (l.addr / 8)) with
    | none => s
    | some l => (s.modCore p.shadow (fun k => { k with ue := true })).notice p.shadow h l.addr pc iw

/-- The wait is on something that the instruction has done already: an arrival, a request, a message, a fill (R25). -/
def WaitObj.lasting : WaitObj → Bool
  | .none | .slots _ | .recv | .helpers _ | .queue .. => false
  | _ => true

/-- The pending loads of a strand that has issued nothing after them are cancelled (R25): those of one instruction that
has written nothing yet and moved nothing, with no lasting effect of the next instruction made. -/
def Strand.cancel (t : Strand) : Strand :=
  match t.loads with
  | [] => t
  | l :: ls =>
    if t.live && t.pc == l.next && (l :: ls).all (fun x => x.slot == l.slot && x.undo.isEmpty && !x.part) && t.rep.isNone
        && !t.wait.lasting then
      { t with loads := [], pend := t.pend.filter (fun x => !(l :: ls).any (fun y => y.id == x.1)),
               gates := t.gates.filter (fun x => !(l :: ls).any (fun y => y.id == x)),
               pc := l.pc, rei := true, wait := .none }
    else t

/-- A retired instruction whose loads are cancelled has not retired after all (R25, R237). -/
def Core.dropTrail (k : Core) (h : Fin 11) (ids : List Nat) : Core :=
  { k with trail := k.trail.filter (fun x =>
      !(x.strand == h && ids.any (fun i => decide (x.since ≤ i) && decide (i < x.upto)))) }

/-- The loads of strand `h` are cancelled where they can be. -/
def Core.cancelStrand (k : Core) (h : Fin 11) : Core :=
  let t := k.strands[h]
  let k' := { k with strands := k.strands.set h t.cancel }
  if t.cancel.loads.length < t.loads.length then k'.dropTrail h (t.loads.map PendLoad.id) else k'

/-- Whether loads in flight complete or are cancelled at a freeze is left open (R25, log 14).
(DESIGN CHOICE, log 14) -/
def State.cancelOthers (s : State) (c : Nat) (h : Fin 11) : State :=
  if (s.core c).strands.toList.all (fun t => t.loads.isEmpty) then s
  else if Config.choice s.draws then
    (s.modCore c (fun k => ((List.finRange 11).filter (fun i => i != h)).foldl Core.cancelStrand k)).draw
  else s.draw

/-- A sequence of repeats stops at the current repeat, and held results are discarded (R25, R146). -/
def Strand.stopRep (t : Strand) : Strand := { t with rep := none }

/-- Core `c` freezes with `h` the trapping strand (R24, R25). -/
def State.freeze (s : State) (c : Nat) (h : Fin 11) : State :=
  let s := (s.cancelOthers c h).holdCodes c
  s.modCore c (fun k =>
    { k with frozen := true, trapStrand := BitVec.ofNat 4 h.val, repOwner := none,
             strands := k.strands.map Strand.stopRep })

/-- The shadow or leader of a paired core. -/
def State.partner (s : State) (c : Nat) : Option Nat :=
  match s.pairs.find? (fun p => p.leader == c || p.shadow == c) with
  | none => none
  | some p => some (if p.leader = c then p.shadow else p.leader)

/-- The stores that wait in the store queue of the pair that core `c` leads are released in order (R237). -/
def State.releaseHeld (s : State) (c : Nat) : State :=
  s.modCore c (fun k => { k with outq := k.outq.map (fun o => { o with held := false }) })

/-- A shadow as it stands beside its leader: the state of the task is the leader's, what belongs to the core's own
hardware its own (R236, R237). (DEDUCED, log 45) -/
def Core.mirror (old lead : Core) : Core :=
  { lead with
    task := none, frozen := true, held := old.held, packed := old.packed, ecc := old.ecc, weak := old.weak
    bad := old.bad, outq := old.outq, utlb := old.utlb, icache := [], pdc := [], pairOf := old.pairOf, undo := [], whole := []
    eq0 := [], eq1 := [], eq2 := [], eq3 := [], repOwner := none
    strands := lead.strands.map (fun t => { t with buf := [], loads := [], rep := none }) }

/-- A freeze of a paired core freezes its partner too, and the leader reports (R237). -/
def State.freezePartner (s : State) (c : Nat) : State :=
  match s.partner c with
  | none => s
  | some d => (s.holdCodes d).modCore d (fun k => if k.pairOf = some c then k.mirror (s.core c) else { k with frozen := true })

/-- A trapping strand waits on nothing, and its instruction has issued again: a touch is made again after the thaw (R14,
R25). -/
def Strand.endTouch (t : Strand) : Strand :=
  match t.wait with
  | .touch .. | .slots _ | .recv | .helpers _ => { t with wait := .none, blk := 0, rei := false }
  | _ => { t with blk := 0, rei := false }

/-- TAKING A TRAP: strand `h` of core `c` traps (R24): the core freezes, the PC still names the
instruction, and the supervisor or the next handler receives the packet. -/
def State.trapAt (s : State) (c : Nat) (h : Fin 11) (t : Trap) : State :=
  let s := s.freeze c h
  let s := s.modStrandAt c h Strand.endTouch
  (s.freezePartner c).sendReport c h 0 t

/-- The return from the freeze (R233): the instruction cache is emptied, the queues leave the error state
and every live strand issues from its PC. -/
def State.thawCore (s : State) (c : Nat) : State :=
  s.modCore c (fun k => { k with
    frozen := false
    conflict := false
    packed := false
    icache := []
    drafts := Vector.replicate 4 none
    err := Vector.replicate 4 none })

/-! ### Results of a meaning -/

/-- Why an instruction does not complete: it traps, it waits (the state may have changed: an arrival, a
fill), or the model does not run it. -/
inductive Stop
  | trap (t : Trap)
  /-- The fault of a dropped remote store, told once (R351). -/
  | drop (t : Trap)
  | wait (blk : BitVec 4) (s : State)
  /-- The access has ended the tasks of its context (R246). -/
  | ended (s : State)
  | refuse (r : Refusal)

abbrev Res := Except Stop

def raise {α : Type} (t : Trap) : Res α := .error (.trap t)

/-- A stall (R22). -/
def stall {α : Type} (s : State) : Res α := .error (.wait 0 s)

/-- A block with a code of R21. -/
def block {α : Type} (blk : BitVec 4) (s : State) : Res α := .error (.wait blk s)

/-- A trap when a condition holds. -/
def trapIf (c : Bool) (t : Trap) : Res Unit := if c then raise t else .ok ()

/-- A whole guard lets the instruction execute (R49). -/
def Strand.guardOn (t : Strand) (g : Guard) : Bool := (t.rp g.p).getLsbD 0 != g.neg

/-- A lane is active (R49). -/
def Strand.laneOn (t : Strand) (g : Guard) (l : Nat) : Bool := (t.rp g.p).getLsbD l != g.neg

/-- The issuing strand's instruction waits on `w`. -/
def State.awaitObj (s : State) (w : WaitObj) : State := s.modMe (fun t => { t with wait := w, waitAt := t.pc })

/-- The issuing strand goes on at `pc`: its instruction waits on nothing; what a later one of which the effect is made
already waits on stands (R25). -/
def State.goTo (s : State) (pc : Pc) : State :=
  { s.modMe (fun t => { t with pc := pc, blk := 0, rei := false, stamp := s.myCore.slot
                               wait := if t.waitAt = t.pc then .none else t.wait }) with
    retired := true }

/-- The instruction of `len` bytes has completed. (DEDUCED, log 6) -/
def State.retire (s : State) (len : Nat) : State := s.goTo (s.me.pc + BitVec.ofNat 57 len)

/-- Begin of a wait with code 2 or 3 in a communication phase (R208). -/
def Core.countWait (k : Core) (old new : BitVec 4) : Core :=
  if k.late.comm && old != new && (new == 2 || new == 3) && k.late.cnt != 0xFFFF then
    { k with late := { k.late with cnt := k.late.cnt + 1 } }
  else k

/-- The issuing strand waits: its PC still names the instruction. (DEDUCED, log 6) -/
def State.waitOn (s : State) (blk : BitVec 4) : State :=
  let s := s.modMyCore (fun k => k.countWait s.me.blk blk)
  { s.modMe (fun t => { t with blk := blk, stamp := s.myCore.slot + 1 }) with retired := false }

/-- The entry is an atomic: a fence waits for it as for a load (R109). -/
def BufEntry.isAtomic (e : BufEntry) : Bool :=
  match e.op with
  | .atom .. | .fadd .. => true
  | _ => false

/-- An atomic of strand `h` issued before access `id` has not replied yet. -/
def Core.atomicBefore (k : Core) (h : Fin 11) (id : Nat) : Bool :=
  k.strands[h].buf.any (fun e => e.isAtomic && decide (e.id < id))
    || k.outq.any (fun o => o.strand == h && o.e.isAtomic && decide (o.e.id < id))

/-- The entry has a reply for a result register: its instruction is complete with the reply (R24). -/
def BufEntry.replies (e : BufEntry) : Bool :=
  match e.op with
  | .atom .. | .fadd .. | .offer .. | .wapp .. | .lap .. => true
  | _ => false

/-- Earlier loads and atomics of the issuing strand are complete. -/
def State.settled (s : State) : Bool := s.me.loads.isEmpty && !s.myCore.atomicBefore s.cur.2 s.nextId

/-- Earlier instructions of strand `h` of core `c`, from access `id` down, are complete: loads, and requests that have a
reply (R24). -/
def Core.completeBefore (k : Core) (h : Fin 11) (id : Nat) : Bool :=
  k.strands[h].loads.all (fun l => decide (id ≤ l.id))
    && k.strands[h].buf.all (fun e => !(e.replies && decide (e.id < id)))
    && k.outq.all (fun o => !(o.strand == h && o.e.replies && decide (o.e.id < id)))

/-- Earlier instructions of the issuing strand are complete (R24). -/
def State.earlierDone (s : State) : Bool := s.myCore.completeBefore s.cur.2 s.nextId

/-- The issuing strand traps, once its earlier instructions are complete (R24).
(DEDUCED, log 60) -/
def State.takeTrap (s : State) (t : Trap) : State :=
  if s.earlierDone then { s.trapAt s.cur.1 s.cur.2 t with retired := false } else s.waitOn 0

/-- The outcome of a meaning's body on `s`, with `done` applied when it completes.
(DEDUCED, log 60) -/
def conclude {α : Type} (s : State) (r : Res α) (done : α → State) : Host.Outcome State Fault Refusal :=
  match r with
  | .ok x => .next (done x)
  | .error (.trap t) => .next (s.takeTrap t)
  | .error (.drop t) => .next ((if s.earlierDone then s.modMe (fun x => { x with dropped := none }) else s).takeTrap t)
  | .error (.wait b s') => .next (s'.waitOn b)
  | .error (.ended s') => .next { s' with retired := false }
  | .error (.refuse r) => .refused r

/-- An instruction under a whole guard (R49). -/
def runW (g : Guard) (len : Nat) (s : State) (body : State → Res State) :
    Host.Outcome State Fault Refusal :=
  if s.me.guardOn g then conclude s (body s) (fun s' => s'.retire len) else .next (s.retire len)

/-- An instruction that changes only registers and flags of its strand. -/
def runR (g : Guard) (len : Nat) (s : State) (f : Strand → Strand) : Host.Outcome State Fault Refusal :=
  runW g len s (fun s => .ok (s.modMe f))

/-- An instruction under a lane guard: it always executes (R49). -/
def runL (len : Nat) (s : State) (body : State → Res State) : Host.Outcome State Fault Refusal :=
  conclude s (body s) (fun s' => s'.retire len)

/-- A control transfer under a whole guard: the body gives the next PC. -/
def runJ (g : Guard) (len : Nat) (s : State) (body : State → Res (State × Pc)) :
    Host.Outcome State Fault Refusal :=
  if s.me.guardOn g then conclude s (body s) (fun x => x.1.goTo x.2) else .next (s.retire len)

/-- An event that is enabled changes the state; one that is not has no effect.
(DESIGN CHOICE, log 16) -/
def runE (s : State) (r : Option State) : Host.Outcome State Fault Refusal := .next (r.getD s)

end Sys2Proof.Machine
end

