-- ==== Sys2Proof/Machine/HandleData.lean ====
section
/-! DEFINITION. The data of a handle: element sizes, rows padded to whole sectors, elements as bits of a
stream, and the checks every access to a handle makes (R81, R82, R293, R294, R308, R309). -/

namespace Sys2Proof.Machine

/-- Bytes of a record format number 1 to 4 (R71, R296). -/
def rfmtBytes : Nat → Nat
  | 1 => 48
  | 2 => 64
  | 3 => 80
  | _ => 48

namespace Handle

/-- Bits of an element (R271, R296). -/
def bits (h : Handle) : Nat := if h.rfmt = 0 then h.ty.bits else 8 * rfmtBytes h.rfmt

/-- Bytes of a row, padded to whole sectors (R82). (DEDUCED, log 29) -/
def rowBytes (h : Handle) : Nat := 64 * ceilDiv (h.e[0] * h.bits) 512

/-- Number of rows (R275) and of elements. -/
def rows (h : Handle) : Nat := h.e[1] * h.e[2] * h.e[3]
def count (h : Handle) : Nat := h.e[0] * h.rows

/-- Bytes of the virtual range. (DEDUCED, log 29) -/
def extent (h : Handle) : Nat := h.rowBytes * h.rows

end Handle

/-- `n` bits from bit `b` on of a byte store read through `rd`. -/
def bitsOf (rd : Nat → Byte) (b n : Nat) : Nat :=
  leNat ((List.range (ceilDiv (b % 8 + n) 8)).map (fun j => rd (b / 8 + j))) / 2 ^ (b % 8) % 2 ^ n

/-- The bytes that writing `n` bits `x` at bit `b` changes, over the old bytes (R272). -/
def bitsTo (rd : Nat → Byte) (b n x : Nat) : List (Nat × Byte) :=
  let k := ceilDiv (b % 8 + n) 8
  let old := leNat ((List.range k).map (fun j => rd (b / 8 + j)))
  placeAt (b / 8) (leBytes k (setBits old (b % 8) n x))

namespace Handle

/-- Byte `j` of the data; of data in another module, a free value (R302).
(DESIGN CHOICE, log 76) -/
def byte (h : Handle) (j : Nat) : Byte :=
  match h.outside with
  | some n => Config.outsideByte n j
  | none => memGet h.data j

/-- Element `i0` of row `r`. -/
def get (h : Handle) (i0 r : Nat) : Nat := bitsOf h.byte (8 * h.rowBytes * r + i0 * h.bits) h.bits

def put (h : Handle) (i0 r x : Nat) : Handle :=
  { h with data := memSetAll h.data (bitsTo (memGet h.data) (8 * h.rowBytes * r + i0 * h.bits) h.bits x) }

/-- The declared set holds operation `b` (R294). -/
def has (h : Handle) (b : Nat) : Bool := h.ops.getLsbD b

end Handle

def stale (v : Word) (sub : Nat) : Trap := { code := 0x30, sub := sub, addr := v }

/-- The handle is imported from a module that is lost (R351). -/
def State.exporterLost (s : State) (h : Handle) : Bool := h.imported.any s.lost.contains

/-- The handle a strand names, or stale-handle (R276, R297, R303, R351). -/
def State.nameHandle (s : State) (priv : Bool) (ctx : Nat) (v : Word) : Res Handle :=
  if !v.getLsbD 63 then raise (stale v 0)
  else match s.handle? v with
    | none => raise (stale v 1)
    | some h =>
      if h.freed || s.exporterLost h then raise (stale v 1)
      else if h.ctx != ctx && !priv then raise (stale v 2)
      else .ok h

/-- The handle that holds the data and the order of handle `v`: of one imported from this module, the exported (R302). -/
def State.rootOf (s : State) (v : Word) : Word :=
  match s.handle? v with
  | some h => if h.imported.isSome && h.outside.isNone then h.source else v
  | none => v

/-- The handle whose data an operation on `v` moves, unless one of the two has been freed (R299). -/
def State.dataOf (s : State) (v : Word) : Option Handle :=
  match s.handle? v, s.handle? (s.rootOf v) with
  | some h, some r => if h.freed || r.freed then none else some r
  | _, _ => none

/-- Operation `id` of core `c` takes its place in the handle's order and holds it (R304, R305). -/
def Handle.hold (h : Handle) (c id : Nat) : Handle :=
  { h with holder := some (c, id), outside := h.outside.map (fun _ => id) }

/-- The operation on handle `v` runs on data of a module that is lost (R351). -/
def State.sourceLost (s : State) (v : Word) : Bool := (s.handle? v).any s.exporterLost

/-- undeclared-operation for the first missing operation (R303). -/
def needOps (h : Handle) : List Nat → Res Unit
  | [] => .ok ()
  | b :: bs => if h.has b then needOps h bs else raise { code := 0x31, sub := b, addr := h.v }

/-- The elements are `e4m3` (R68). -/
def Handle.modeSensitive (h : Handle) : Bool := h.rfmt == 0 && h.ty == .e4m3

/-- format-mode for an `e4m3` handle under the other mode (R68). -/
def needMode (h : Handle) (mode : Bool) : Res Unit :=
  trapIf (h.modeSensitive && h.mode != mode)
    { code := 0x28, addr := h.v, detail := BitVec.ofNat 64 (b2n h.mode) }

/-- Live entries of a task on a handle whose mode covers `need` (1 R, 2 W) (R308, R309). -/
def State.entriesOn (s : State) (task : Option Nat) (v : Word) (need : Nat) : List SetEntry :=
  match task.bind s.task? with
  | none => []
  | some t => if t.live then t.entries.filter (fun e => e.h == v && !e.retired && e.mode / need % 2 == 1) else []

/-- Rows of an entry: a count of 0 means every row from the first on. -/
def SetEntry.holds (e : SetEntry) (r : Nat) : Bool :=
  decide (e.first ≤ r) && (e.count == 0 || decide (r < e.first + e.count))

/-- memory-model with sub-code 1 (R309): dword 4 holds the row and 0xFFFF. -/
def modelTrap (v : Word) (row : Nat) : Trap :=
  { code := 0x32, sub := 1, addr := v, detail := BitVec.ofNat 64 (0xFFFF * 2 ^ 32 + row % 2 ^ 32) }

/-! ### Representation classes (R295, R339) -/

/-- The classes that a set forces. -/
def forcedClasses (ops : BitVec 16) : BitVec 8 :=
  BitVec.ofNat 8 (2 ^ 7 * b2n (ops.getLsbD 10) + 2 * b2n (ops.getLsbD 13) + 4 * b2n (ops.getLsbD 7)
    + 2 ^ 5 * b2n (ops.getLsbD 14))

/-- A handle of at most 4 KiB whose set holds nothing but RD, WR and EW. (DEDUCED, log 44) -/
def dense (bits : Nat) (ops : BitVec 16) : Bool := decide (bits ≤ 8 * 4096) && ops &&& 0xFFF8 == 0

/-- The classes of a representation that the Lapidary chooses now. -/
def State.chooseClasses (s : State) (ops : BitVec 16) : BitVec 8 := Config.placement s.draws ||| forcedClasses ops

/-- The handle is re-represented in classes `m` (R305). (DEDUCED, log 44) -/
def Handle.rerepresent (h : Handle) (m : BitVec 8) : Handle := { h with classes := m, rerep := min 0xFFFF (h.rerep + 1) }

end Sys2Proof.Machine
end

