-- ==== Sys2Proof/Machine/Links.lean ====
section
/-! DEFINITION. How the module sends over the fabric: the path of a flit (R344), the replay buffers of a port (R345),
and sequence numbers and phase (R346). -/

namespace Sys2Proof.Machine

/-! ### Paths (R344) -/

/-- Coordinate `i` of a physical module: x, y, z. -/
def coordOf (m i : Nat) : Nat := m / 256 ^ i % 256

/-- The way along a dimension of `n` modules from `x` to `y`: `true` the + way, which ties take. -/
def plusWay (n x y : Nat) : Bool := decide ((y + n - x) % n ≤ (x + n - y) % n)

/-- The direction 0 to 5 in which a request of module `a` for module `b` leaves: x first, then y, then z.
(DESIGN CHOICE, log 14) -/
def hopOf (a b : Nat) : Nat :=
  ((List.finRange 3).findSome? (fun i =>
    let x := coordOf a i.val
    let y := coordOf b i.val
    if x = y then none else some (2 * i.val + b2n (!plusWay (Config.torus i) x y)))).getD 0

/-- The way back along the same dimension. -/
def backWay (d : Nat) : Nat := if d % 2 = 0 then d + 1 else d - 1

/-- The ports of direction `d`, the one with number `k` first. -/
def portsOf (d k : Nat) : List (Fin 24) :=
  Fin.ofNat 24 (4 * d + k) :: ((List.range 4).filter (fun i => i != k)).map (fun i => Fin.ofNat 24 (4 * d + i))

/-- The port that a flit of direction `d` takes: its own unless that is down; then another of the direction that is up, or
one of the other way round (R345). -/
def State.linkFor (s : State) (d k : Nat) : Fin 24 :=
  let own := Fin.ofNat 24 (4 * d + k)
  if s.fports[own].state != .down then own
  else ((portsOf d k ++ portsOf (backWay d) k).find? (fun p => s.fports[p].state == .up)).getD own

/-! ### Sending (R345, R346) -/

def State.modPort (s : State) (p : Fin 24) (f : FPort → FPort) : State :=
  { s with fports := s.fports.set p (f s.fports[p]) }

/-- A channel's replay buffer has room for a flit. -/
def FPort.room (p : FPort) (vc : Fin 8) : Bool := decide ((p.kept.filter (fun k => k.vc == vc)).length < 256)

/-- The channel has a credit; VC6, which carries the credits, needs none (R343, R344).
(DESIGN CHOICE, log 78) -/
def FPort.credit (p : FPort) (vc : Fin 8) : Bool := vc == 6 || decide (0 < p.credits[vc])

/-- A flit spends a credit of its channel. -/
def FPort.spend (p : FPort) (vc : Fin 8) : FPort :=
  if vc = 6 then p else { p with credits := p.credits.set vc (p.credits[vc] - 1) }

/-- A flit leaves by port `p` on channel `vc` with the next sequence number, or waits for the link, for a credit or for
room. (DEDUCED, log 54) -/
def State.tx (s : State) (p : Fin 24) (vc : Fin 8) (x : OutLoad) : State :=
  let f := s.fports[p]
  if f.state == .up && f.room vc && f.credit vc then
    let n := f.txSeq[vc]
    { s.modPort p (fun f =>
        { f.spend vc with kept := f.kept ++ [⟨vc, n, f.phase, x⟩], txSeq := f.txSeq.set vc (n + 1) }) with
      sent := s.sent ++ [.flit p vc n f.phase x] }
  else s.modPort p (fun f => { f with wait := f.wait ++ [(vc, x)] })

/-- What waits at a port is tried again. -/
def State.flush (s : State) (p : Fin 24) : State :=
  s.fports[p].wait.foldl (fun s y => s.tx p y.1 y.2) (s.modPort p (fun f => { f with wait := [] }))

/-- The partner has room for `n` more flits of channel `vc`: those that wait leave. -/
def State.credited (s : State) (p : Fin 24) (vc : Fin 8) (n : Nat) : State :=
  (s.modPort p (fun f => { f with credits := f.credits.set vc (f.credits[vc] + n) })).flush p

/-- A delivered flit's room is given back to the partner. -/
def State.giveBack (s : State) (p : Fin 24) (vc : Fin 8) : State := if vc = 6 then s else s.tx p 6 (.credit vc 1)

/-- When a link comes up the partner is told the room of each channel, once until the link is down.
(DESIGN CHOICE, log 78) -/
def State.grant (s : State) (p : Fin 24) : State :=
  if s.fports[p].granted then s
  else ((List.finRange 8).filter (fun vc => vc != 6)).foldl (fun s vc => s.tx p 6 (.credit vc (Config.creditsGiven vc)))
    (s.modPort p (fun f => { f with granted := true }))

/-- A port goes down: what is not acknowledged, and what waits, is sent by another port of the direction, or the other way
round; credits of the link are void (R345). (DEDUCED, log 54) -/
def State.portDown (s : State) (p : Fin 24) : State :=
  let f := s.fports[p]
  let xs := (f.kept.map (fun k => (k.vc, k.load)) ++ f.wait).filter (fun x => !isCredit x.2)
  let s := s.modPort p (fun f =>
    { f with state := .down, kept := [], wait := [], early := [], badRun := 0, credits := .replicate 8 0, granted := false })
  xs.foldl (fun s x => s.tx (s.linkFor (p.val / 4) (p.val % 4)) x.1 x.2) s
where
  isCredit : OutLoad → Bool
    | .credit .. => true
    | _ => false

/-- Channel `base` or the one after it, by bit 6 of an address. -/
def channelOf (base addr : Nat) : Fin 8 := Fin.ofNat 8 (base + addr / 64 % 2)

/-- A request or a response about `addr` goes to module `m`: its port by bits [8:7] of the address. -/
def State.txTo (s : State) (m base addr : Nat) (x : OutLoad) : State :=
  s.tx (s.linkFor (hopOf s.self.toNat m) (addr / 128 % 4)) (channelOf base addr) x

/-- A request goes to the module that exported handle `v`, when that is another (R351). -/
def State.askExporter (s : State) (v : Word) (x : Nat → Handle → OutLoad) : State :=
  match s.handle? v with
  | none => s
  | some h => match h.outside, h.imported with
    | some _, some m => s.txTo m 0 0 (x m h)
    | _, _ => s

/-- An operation asks for the rows of a handle whose data stand in another module. -/
def State.askRows (s : State) (v : Word) : State := s.askExporter v (fun m h => .rowsRead m h.source)

/-- A flit with no target address goes to module `m`. (DESIGN CHOICE, log 14) -/
def State.txPlain (s : State) (m : Nat) (vc : Fin 8) (x : OutLoad) : State :=
  (s.tx (s.linkFor (hopOf s.self.toNat m) (Config.lane s.draws).val) vc x).draw

/-- A flit goes out by every port that is up, but not by `via`. (DEDUCED, log 54) -/
def State.txOthers (s : State) (via : Option (Fin 24)) (vc : Fin 8) (x : OutLoad) : State :=
  ((List.finRange 24).filter (fun p => s.fports[p].state == .up && some p != via)).foldl (fun s p => s.tx p vc x) s

/-- A flit goes out by every port that is up. -/
def State.txAll (s : State) (vc : Fin 8) (x : OutLoad) : State := s.txOthers none vc x

end Sys2Proof.Machine
end

