-- ==== Sys2Proof/Machine/Translate.lean ====
section
/-! DEFINITION. Translation and the checks of an access to memory (R106, R202, R219, R230, R268, R269,
R287, R347, R348, R379). -/

namespace Sys2Proof.Machine

/-- What an access is: a scalar, a pair, a vector lane, an atomic, an `afadd`, or a record's bytes. -/
inductive AccShape | plain | pair | vec | atom | fadd | record
  deriving DecidableEq, Repr

structure Acc where
  n : Nat
  rd : Bool
  wr : Bool
  shape : AccShape
  deriving DecidableEq, Repr

/-- How a walk fails (R268). -/
inductive WalkFail | translation | protection
  deriving DecidableEq, Repr

def WalkFail.trap (va : Word) : WalkFail → Trap
  | .translation => Trap.translationFault va
  | .protection => Trap.protectionFault va

def WalkFail.code : WalkFail → Nat
  | .translation => 0x13
  | .protection => 0x14

/-- A leaf that no rule calls malformed: a home cluster is 0 to 95 (R268). -/
def leafOk (e : Nat) : Bool := !(bitsN e 7 6 == 1 && decide (96 ≤ bitsN e 58 52))

/-- A walk from the table at `tbl` at level `lvl` (R268). (DEDUCED, log 28) -/
def walk (m : Sparse Byte) (ctx va : Nat) (tbl : Nat) : Nat → Except WalkFail Leaf
  | 0 =>
    let e := leNat (memRead m (tbl + 8 * (va / 2 ^ 12 % 512)) 8)
    if !bitAt e 0 then .error .translation
    else if bitAt e 62 || bitAt e 63 || !bitAt e 1 || !leafOk e then .error .protection
    else .ok ⟨ctx, va / 2 ^ 12 * 2 ^ 12, 2 ^ 12, BitVec.ofNat 64 e⟩
  | lvl + 1 =>
    let sh := 12 + 9 * (lvl + 1)
    let e := leNat (memRead m (tbl + 8 * (va / 2 ^ sh % 512)) 8)
    if !bitAt e 0 then .error .translation
    else if bitAt e 62 || bitAt e 63 then .error .protection
    else if bitAt e 1 then
      if lvl + 1 ≤ 2 && leafOk e then .ok ⟨ctx, va / 2 ^ sh * 2 ^ sh, 2 ^ sh, BitVec.ofNat 64 e⟩ else .error .protection
    else walk m ctx va (bitsN e 51 12 * 2 ^ 12) lvl

/-- A leaf covers an address. -/
def Leaf.covers (l : Leaf) (ctx va : Nat) : Bool :=
  l.ctx == ctx && decide (l.va ≤ va) && decide (va < l.va + l.size)

/-- The leaf for an address: from the micro-TLB, the cluster TLB, or a walk, which both then hold (R269). -/
def State.leafFor (s : State) (c ctx : Nat) (va : Nat) : Except WalkFail (Leaf × State) :=
  match (s.core c).utlb.find? (fun l => l.covers ctx va) with
  | some l => .ok (l, s)
  | none =>
    let hold (l : Leaf) (s : State) : State :=
      s.modCore c (fun k => { k with utlb := (l :: k.utlb).take 32 })
    match (s.cluster (cluOf c)).tlb.find? (fun l => l.covers ctx va) with
    | some l => .ok (l, hold l s)
    | none =>
      match walk s.mem ctx va (s.ctx ctx).root.toNat 4 with
      | .error e => .error e
      | .ok l => .ok (l, hold l (s.modCluster (cluOf c) (fun k => { k with tlb := (l :: k.tlb).take 2048 })))

/-- The attributes of a leaf (R268, R348). -/
def Leaf.home (l : Leaf) : Nat := bitsN l.entry.toNat 7 6
def Leaf.privOnly (l : Leaf) : Bool := l.entry.getLsbD 5
def Leaf.exec (l : Leaf) : Bool := l.entry.getLsbD 4
def Leaf.write (l : Leaf) : Bool := l.entry.getLsbD 3
def Leaf.read (l : Leaf) : Bool := l.entry.getLsbD 2

/-- The physical address of a virtual one: frame bits above the page size. (DEDUCED, log 28) -/
def Leaf.phys (l : Leaf) (va : Nat) : Nat := bitsN l.entry.toNat 51 12 * 2 ^ 12 / l.size * l.size + va % l.size

/-- The address on the remote module (R348): frame bits [48:12]. (DEDUCED, log 28) -/
def Leaf.remote (l : Leaf) (va : Nat) : Nat :=
  bitsN l.entry.toNat 48 12 * 2 ^ 12 / l.size * l.size + va % l.size

/-- The route index of a remote leaf (R348). -/
def Leaf.route (l : Leaf) : Nat := bitsN l.entry.toNat 61 52 * 8 + bitsN l.entry.toNat 51 49

/-- Fields of a context's descriptor (R243). -/
def Ctx.dword (x : Ctx) (i : Nat) : Nat := (x.desc.getD i 0).toNat
def Ctx.priv (x : Ctx) : Bool := bitAt (x.dword 0) 62
def Ctx.mode (x : Ctx) : Bool := bitAt (x.dword 0) 61
def Ctx.lssize (x : Ctx) : Nat := bitsN (x.dword 0) 55 48
def Ctx.ncores (x : Ctx) : Nat := bitsN (x.dword 0) 47 32
def Ctx.ctab (x : Ctx) : Nat := x.dword 1
def Ctx.rtab (x : Ctx) : Nat := x.dword 2
def Ctx.qmask (x : Ctx) : Nat := x.dword 3
def Ctx.qpri (x : Ctx) (q : Nat) : Nat := (x.dword 4 + 2 ^ 64 * x.dword 5) / 2 ^ (2 * q) % 4
def Ctx.cbase (x : Ctx) : Nat := bitsN (x.dword 6) 9 0
def Ctx.ccount (x : Ctx) : Nat := bitsN (x.dword 6) 20 10
def Ctx.lcap (x : Ctx) : Nat := bitsN (x.dword 6) 25 21
def Ctx.nlists (x : Ctx) : Nat := bitsN (x.dword 6) 34 26

/-- Base of the fixed region (R379). -/
def fixedBase : Nat := 0x01FFF80000000000

/-! ### Accesses of the hubs (R246) -/

/-- How an access of the hubs to the fixed region fails: no table there is theirs to reach (R246, R287, R347, R379). -/
def fixedFail (va : Nat) : WalkFail :=
  let off := (va - fixedBase) % 2 ^ 40
  let inside : Bool := match (va - fixedBase) / 2 ^ 40 with
    | 0 => decide (off < 4096)
    | 2 => decide (off < 8192)
    | 4 => decide (off < 0x2000) || (decide (0x01000000 ≤ off) && decide (off < 0x03400000))
    | 6 => decide (off < 0x8000)
    | _ => false
  cond inside .protection .translation

/-- The handle whose virtual range holds an address in a context (R301). (DEDUCED, log 29) -/
def State.rangeOf (s : State) (ctx va : Nat) : Option Handle :=
  s.handles.find? (fun h => h.has 10 && h.ctx == ctx && h.imported.isNone && decide (h.base.toNat ≤ va)
    && decide (va < h.base.toNat + h.extent))

/-- The physical address of a byte of a table that stands in this module's memory. -/
def State.localPhys (s : State) (ctx va : Nat) : Except WalkFail Nat :=
  if fixedBase ≤ va then .error (fixedFail va)
  else match walk s.mem ctx va (s.ctx ctx).root.toNat 4 with
    | .error e => .error e
    | .ok l =>
      if !l.read || decide (2 ≤ l.home) || s.poisoned.contains (l.phys va / 64) then .error .protection
      else .ok (l.phys va)

/-- The offset in a handle's virtual range, as the hubs reach it with an operation of the set (R246, R294, R299, R315). -/
def Handle.hubByte (h : Handle) (op va : Nat) : Except WalkFail Nat :=
  let off := va - h.base.toNat
  if h.freed then .error .translation
  else if !h.has op || (h.bad.contains (off / 64) && !h.has 14) then .error .protection
  else .ok off

/-- The four bytes of entry `i` of the route table, in memory or in a handle's range, or how and where reading them fails
(R245). (DESIGN CHOICE, log 76) -/
def State.routeEntry (s : State) (ctx i : Nat) : Except (WalkFail × Nat) Nat :=
  let va := (s.ctx ctx).rtab + 4 * i
  match match s.rangeOf ctx va with
    | some h => (h.hubByte 0 va).map (fun off => memRead h.data off 4)
    | none => (s.localPhys ctx va).map (fun a => memRead s.mem a 4) with
  | .error e => .error (e, va)
  | .ok bs => .ok (leNat bs)

/-- Entry of the route table (R245): the physical module, when valid. -/
def State.routeOf (s : State) (ctx i : Nat) : Option Nat :=
  match s.routeEntry ctx i with
  | .ok e => if bitAt e 31 then some (e % 2 ^ 24) else none
  | .error _ => none

/-- Where the hubs find a byte of a context (R246): in memory, in another module's, on a device, or in a handle. -/
inductive HubPlace
  | mem (a : Nat)
  | remote (m a : Nat)
  | device
  | range (h : Word) (off : Nat)

/-- The byte at a virtual address of a context, reached as a privileged strand would (R246, R268, R348).
(DEDUCED, log 28) -/
def State.hubPlace (s : State) (ctx : Nat) (write : Bool) (va : Nat) : Except WalkFail HubPlace :=
  if fixedBase ≤ va then .error (fixedFail va)
  else match s.rangeOf ctx va with
  | some h => (h.hubByte (if write then 1 else 0) va).map (HubPlace.range h.v)
  | none =>
    match walk s.mem ctx va (s.ctx ctx).root.toNat 4 with
    | .error e => .error e
    | .ok l =>
      if !(if write then l.write else l.read) then .error .protection
      else match l.home with
      | 2 => .ok .device
      | 3 =>
        if 4608 ≤ l.route then .error .protection
        else match s.routeOf ctx l.route with
          | none => .error .translation
          | some m => if s.lost.contains m then .error .translation else .ok (.remote m (l.remote va))
      | _ => if s.poisoned.contains (l.phys va / 64) then .error .protection else .ok (.mem (l.phys va))

/-- A byte that the hubs read; of another module's memory or of a device it is a free value.
(DESIGN CHOICE, log 76) -/
def State.ctxByte (s : State) (ctx va : Nat) : Except WalkFail Byte :=
  (s.hubPlace ctx false va).map (fun p => match p with
    | .mem a => memGet s.mem a
    | .remote m a => Config.outsideByte s.nextId (2 ^ 52 * (m + 1) + a)
    | .device => Config.outsideByte s.nextId 0
    | .range v off => ((s.handle? v).map (fun h => memGet h.data off)).getD 0)

/-- Bytes at rising addresses, or how and where reading them fails. -/
def State.ctxBytes (s : State) (ctx va : Nat) : Nat → Except (WalkFail × Nat) (List Byte)
  | 0 => .ok []
  | n + 1 =>
    match s.ctxByte ctx va, s.ctxBytes ctx (va + 1) n with
    | .ok b, .ok bs => .ok (b :: bs)
    | .error e, _ => .error (e, va)
    | _, .error e => .error e

/-- Writes of bytes at virtual addresses of a context by the hubs, or how and where they fail (R246). -/
def State.ctxWrite (s : State) (ctx va : Nat) : List Byte → Except (WalkFail × Nat) State
  | [] => .ok s
  | b :: bs =>
    match s.hubPlace ctx true va with
    | .error e => .error (e, va)
    | .ok p =>
      let s : State := match p with
        | .mem a => { s with mem := memSet s.mem a b }
        | .remote m a => s.txTo m 0 a (.store m a [b] [])
        | .device => s
        | .range v off => s.modHandle v (fun h => { h with data := memSet h.data off b })
      s.ctxWrite ctx (va + 1) bs

/-- How an access to `n` bytes of the save area from `va` on fails, page by page (R244, R246). -/
def State.areaFault (s : State) (ctx : Nat) (write : Bool) : Nat → Nat → Nat → Option (WalkFail × Nat)
  | 0, _, _ => none
  | f + 1, va, n =>
    if n = 0 then none
    else match s.hubPlace ctx write va with
    | .error e => some (e, va)
    | .ok p =>
      let size := match walk s.mem ctx va (s.ctx ctx).root.toNat 4 with
        | .ok l => l.size
        | .error _ => 4096
      let k := min n (size - va % size)
      let hurt := match p with
        | .mem a => s.poisoned.any (fun x => decide (a / 64 ≤ x) && decide (64 * x < a + k))
        | _ => false
      if hurt then some (.protection, va) else s.areaFault ctx write f (va + k) (n - k)

/-- How an access to the saved state of logical core `n` in its save slot fails (R244, R246).
(DESIGN CHOICE, log 37) -/
def State.slotFault (s : State) (ctx : Nat) (write : Bool) (n : Nat) : Option (WalkFail × Nat) :=
  s.areaFault ctx write 241 ((s.ctx ctx).dword 7 + n * 2 ^ 20) 0xF0000

/-- How an access to entry `i` of the overflow area of logical core `n` fails (R211, R244, R246). -/
def State.overflowFault (s : State) (ctx : Nat) (write : Bool) (n i : Nat) : Option (WalkFail × Nat) :=
  s.areaFault ctx write 2 ((s.ctx ctx).dword 7 + n * 2 ^ 20 + 0xF0000 + 32 * (i % 2048)) 32

/-- How an access to place `i` of work list `l` fails (R243, R246, R255). -/
def State.listFault (s : State) (ctx : Nat) (write : Bool) (l i : Nat) : Option (WalkFail × Nat) :=
  let x := s.ctx ctx
  s.areaFault ctx write 2 (x.dword 7 + x.ncores * 2 ^ 20 + 8 * (l * 2 ^ x.lcap + i % 2 ^ x.lcap)) 8

/-- The parts of `n` bytes of the save area from `va` on that stand in memory of this module or in a handle's data, page by
page: the place, the virtual address and the length. -/
def State.areaParts (s : State) (ctx : Nat) : Nat → Nat → Nat → List (HubPlace × Nat × Nat)
  | 0, _, _ => []
  | f + 1, va, n =>
    if n = 0 then []
    else
      let k := min n (4096 - va % 4096)
      let rest := s.areaParts ctx f (va + k) (n - k)
      match s.hubPlace ctx true va with
      | .ok p => (p, va, k) :: rest
      | .error _ => rest

/-- Bytes that the module writes at `n` addresses. -/
def areaBytes (moment va n : Nat) : List Byte := (List.range n).map (fun j => Config.areaByte moment (va + j))

/-- The module writes `n` bytes of the save area of a context from `va` on, in its own layout: each becomes a free value
(R244). (DESIGN CHOICE, log 37) -/
def State.writeArea (s : State) (ctx va n : Nat) : State :=
  let parts := s.areaParts ctx (n / 4096 + 2) va n
  { s.draw with
    mem := memSetAll s.mem (parts.flatMap (fun x => match x.1 with
      | .mem a => placeAt a (areaBytes s.draws x.2.1 x.2.2)
      | _ => []))
    handles := s.handles.map (fun h => { h with data := memSetAll h.data (parts.flatMap (fun x => match x.1 with
      | .range v off => if v = h.v then placeAt off (areaBytes s.draws x.2.1 x.2.2) else []
      | _ => [])) }) }

/-- The save slot of logical core `n` is written (R263), its overflow area (R211), and a work list (R255). -/
def State.writeSlot (s : State) (ctx n : Nat) : State := s.writeArea ctx ((s.ctx ctx).dword 7 + n * 2 ^ 20) 0xF0000
def State.writeOverflow (s : State) (ctx n : Nat) : State :=
  s.writeArea ctx ((s.ctx ctx).dword 7 + n * 2 ^ 20 + 0xF0000) 0x10000
def State.writeList (s : State) (ctx l : Nat) : State :=
  let x := s.ctx ctx
  s.writeArea ctx (x.dword 7 + x.ncores * 2 ^ 20 + 8 * (l * 2 ^ x.lcap)) (8 * 2 ^ x.lcap)

/-- A failure event is noted for the context (R246, R254). (DEDUCED, log 35) -/
def State.fail (s : State) (ctx : Nat) (f : Failure) : State :=
  s.modCtx ctx (fun x => { x with fails := x.fails ++ [f] })

/-- A table or the save area can no longer be read or written at an address: every task of the context ends, and none is
placed again (R246). (DEDUCED, log 35) -/
def State.stopCtx (s : State) (ctx : Nat) (e : WalkFail × Nat) : State :=
  let a := BitVec.ofNat 64 e.2
  let ids := (s.tasks.filter (fun t => t.ctx == ctx)).map Task.id
  ((s.endTasks ids (some (e.1.code, a))).fail ctx { origin := 0, cause := e.1.code, addr := a }).modCtx ctx
    (fun x => { x with stopped := true })

/-- Entry of the core table (R245), `none` when absent, or how and where reading it fails. -/
def State.coreEntry (s : State) (ctx n : Nat) : Except (WalkFail × Nat) (Option Nat) :=
  if n < (s.ctx ctx).ncores then
    (s.ctxBytes ctx ((s.ctx ctx).ctab + 2 * n) 2).map (fun bs =>
      if leNat bs = 0xFFFF then none else some (coreOfPhys (leNat bs)))
  else .ok none

/-- Entry of the core table: `none` when absent or unreadable. -/
def State.coreOf (s : State) (ctx n : Nat) : Option Nat :=
  match s.coreEntry ctx n with
  | .ok x => x
  | .error _ => none

/-- How reading the core table fails. -/
def State.tableFault (s : State) (ctx : Nat) : Option (WalkFail × Nat) :=
  match s.ctxBytes ctx (s.ctx ctx).ctab (2 * (s.ctx ctx).ncores) with
  | .ok _ => none
  | .error e => some e

/-! ### The checks of a strand's access -/

/-- The checks of an access to a block of the fixed region (R379); `w`, `h`: the gang's shape. A privileged access to the
supervision page or a debug window that R230 gives no meaning raises protection-fault.
(DESIGN CHOICE, log 83) -/
def fixedCheck (x : Ctx) (priv : Bool) (w h : Nat) (a : Acc) (va : Word) : Res Loc :=
  let blk := (va.toNat - fixedBase) / 2 ^ 40
  let off := (va.toNat - fixedBase) % 2 ^ 40
  let fault {α : Type} : Res α := raise (Trap.translationFault va)
  let prot {α : Type} : Res α := raise (Trap.protectionFault va)
  match blk with
  | 0 => if off < 4096 then
      if a.shape == .plain && a.n == 8 && !a.wr && priv then .ok ⟨.fabric, off⟩ else prot
    else fault
  | 2 => if off < 8192 then
      if a.shape == .plain && a.n == 8 && !a.wr && priv then .ok ⟨.harvest, off⟩ else prot
    else fault
  | 4 =>
    let ok := priv && ((a.shape == .plain && a.n == 8) || a.shape == .pair)
    if off < 0x2000 then if ok then .ok ⟨.sup, off⟩ else prot
    else if 0x01000000 ≤ off ∧ off < 0x03400000 then
      if ok then .ok ⟨.dbg ((off - 0x01000000) / 2 ^ 20), off % 2 ^ 20⟩ else prot
    else fault
  | 6 => if off < 0x8000 then
      let c := off / 32
      if c < x.cbase ∨ x.cbase + x.ccount ≤ c then prot
      else if a.wr && !(a.shape == .atom || a.shape == .fadd)
          && !(a.shape == .pair && off % 32 == 0) && !(a.shape == .plain && a.n == 8 && off % 32 == 16) then
        raise (Trap.atomicTarget va)
      else .ok ⟨.cell, off⟩
    else fault
  | 7 => if off < 2 ^ 26 then
      let gx := off / 2 ^ 20 % 8
      let gy := off / 2 ^ 23
      if gx < w ∧ gy < h then .ok ⟨.peer gx gy, off % 2 ^ 20⟩ else fault
    else fault
  | _ => fault

/-- The checks of a plain access to the virtual range of a handle (R294, R299, R309).
(DEDUCED, log 29) -/
def State.rangeCheck (s : State) (h : Handle) (a : Acc) (va : Word) : Res Loc := do
  let off := va.toNat - h.base.toNat
  trapIf h.freed (Trap.translationFault va)
  needOps h (if a.shape == .atom then [8] else (if a.rd then [0] else []) ++ (if a.wr then [1] else []))
  needMode h s.myCore.e4m3
  let row := off / h.rowBytes
  let need := if a.wr then 2 else 1
  let es := s.entriesOn s.myCore.task h.v need
  trapIf (!s.me.priv && !es.any (fun e => e.holds row)) (modelTrap h.v row)
  .ok ⟨.range h.v, off⟩

/-- The member at (gx, gy) of the gang of a task, while it still runs the task (R202). -/
def State.memberOf (s : State) (task : Option Nat) (gx gy : Nat) : Option Nat :=
  match task.bind s.task? with
  | none => none
  | some t =>
    match t.cores[gy * t.w + gx]? with
    | none => none
    | some m => if (s.core m).task == some t.id && !(s.core m).returned && !s.contained m then some m else none

/-- The member of the gang of the task that core `c` runs. -/
def State.member (s : State) (c gx gy : Nat) : Option Nat := s.memberOf (s.core c).task gx gy

/-- A byte of the gang window by the wrapped offset in its member (R148, R202). -/
def State.peerWrap (s : State) (c : Nat) (l : Loc) : Loc :=
  match l.at' with
  | .peer gx gy => match s.member c gx gy with
    | none => ⟨l.at', l.addr + 2 ^ 20⟩
    | some m =>
      let x := (s.core m).lsLoc l.addr
      ⟨l.at', x.addr + 2 ^ 20 * b2n (x.at' == .stray)⟩
  | _ => l

/-- The checks of R106 on address `ea`: the first byte's place, and the state with the translation held.
(DEDUCED, log 21) -/
def State.xlate (s : State) (a : Acc) (ea : Word) : Res (Loc × State) := do
  trapIf (ea.getLsbD 63) (Trap.handleAddress ea)
  trapIf (decide (2 ^ 57 ≤ ea.toNat)) (Trap.badAddress ea)
  trapIf (ea.toNat % a.n != 0) (Trap.misaligned ea)
  let ctx := s.myCore.ctx
  if fixedBase ≤ ea.toNat then do
    let l ← fixedCheck (s.ctx ctx) s.me.priv s.me.dom.gw.toNat s.me.dom.gh.toNat a ea
    .ok (s.peerWrap s.cur.1 l, s)
  else match s.rangeOf ctx ea.toNat with
    | some h => do
      let l ← s.rangeCheck h a ea
      .ok (l, s)
    | none =>
      match s.leafFor s.cur.1 ctx ea.toNat with
      | .error e => raise (e.trap ea)
      | .ok (l, s') => do
        trapIf ((l.privOnly && !s.me.priv) || (a.rd && !l.read) || (a.wr && !l.write)) (Trap.protectionFault ea)
        match l.home with
        | 0 => .ok (⟨.mem .hub, l.phys ea.toNat⟩, s')
        | 1 => .ok (⟨.mem (.cluster (96 * bitsN l.entry.toNat 61 59 + bitsN l.entry.toNat 58 52)),
            l.phys ea.toNat⟩, s')
        | 2 => .ok (⟨.device, l.phys ea.toNat⟩, s')
        | _ =>
          if 4608 ≤ l.route then raise (Trap.protectionFault ea)
          else match s.routeEntry ctx l.route with
          | .error e => .error (.ended (s.stopCtx ctx e))
          | .ok _ => match s.routeOf ctx l.route with
            | none => raise (Trap.translationFault ea)
            | some m =>
              if s.lost.contains m then raise (Trap.translationFault ea)
              else .ok (⟨.remote m, l.remote ea.toNat⟩, s')

/-- The `n` bytes that follow a location. -/
def Loc.span (l : Loc) (n : Nat) : List Loc := (List.range n).map (fun j => ⟨l.at', l.addr + j⟩)

/-! ### Armed errors that wait for a use (R239) -/

def injKind (x : Nat) : Nat := bitsN x 62 59
def injPos (x : Nat) : Nat := bitsN x 58 53

def State.disarm (s : State) (clu : Nat) : State :=
  s.modCluster clu (fun k => { k with inject := BitVec.ofNat 64 (k.inject.toNat % 2 ^ 63) })

/-- A sector of memory is poisoned: `%mod.poison` and the error log say so (R315, R327). -/
def State.poisonSector (s : State) (n : Nat) : State :=
  ({ s with poisoned := n :: s.poisoned.filter (fun x => x != n), poison := true } : State).log 1
    (BitVec.ofNat 64 (64 * n))

/-- The use of a memory byte in cluster `clu` makes an armed error of kind 4: the line is the one at the index's place in
the cluster cache. (DESIGN CHOICE, log 40) -/
def State.lineUse (s : State) (clu : Nat) (l : Loc) : Option State :=
  let x := (s.cluster clu).inject.toNat
  if bitAt x 63 && injKind x == 4
      && (((s.cluster clu).cache[x % 2 ^ 26]?).map Prod.fst == some (l.addr / 64)) then
    some ((s.poisonSector (l.addr / 64)).disarm clu)
  else none

/-- The cluster whose atomic engine keeps the line or cell of a location used in cluster `clu` (R220). -/
def Loc.engine (clu : Nat) (l : Loc) : Option Nat :=
  match l.at' with
  | .cell => some clu
  | .mem (.cluster u) => some u
  | _ => none

/-- An access in cluster `clu` by the atomic engine makes an armed error of kind 5, where the line or cell that it uses is
the one that the index names, a free choice: a line's sector is poisoned, and a cell is bad.
(DESIGN CHOICE, log 40) -/
def State.engineUse (s : State) (clu : Nat) (l : Loc) : Res State :=
  match l.engine clu with
  | none => .ok s
  | some u =>
    let x := (s.cluster u).inject.toNat
    if !(bitAt x 63 && injKind x == 5) then .ok s
    else if !Config.choice s.draws then .ok s.draw
    else if l.at' == .cell then
      stall ((s.draw.disarm u).modCluster u (fun k =>
        { k with cells := sput k.cells (l.addr / 32) { sget {} k.cells (l.addr / 32) with bad := true } }))
    else stall ((s.draw.poisonSector (l.addr / 64)).disarm u)

/-- A poisoned sector stops a load or an atomic, and a bad cell likewise; of a handle with a mirror it is rewritten instead
(R315). An armed error is made first (R239). (DESIGN CHOICE, log 40) -/
def State.poisonCheck (s : State) (ea : Word) (l : Loc) : Res State :=
  match l.at' with
  | .mem _ => do
    match s.lineUse (cluOf s.cur.1) l with
    | some s => stall s
    | none => trapIf (s.poisoned.contains (l.addr / 64)) (Trap.protectionFault ea)
    .ok s
  | .cell => do
    let s ← s.engineUse (cluOf s.cur.1) l
    trapIf (sget {} (s.cluster (cluOf s.cur.1)).cells (l.addr / 32)).bad (Trap.protectionFault ea)
    .ok s
  | .range v =>
    match s.handle? v with
    | none => .ok s
    | some h =>
      if !h.bad.contains (l.addr / 64) then .ok s
      else if h.has 14 then .ok (s.modHandle v (fun h => { h with bad := h.bad.filter (fun n => n != l.addr / 64) }))
      else raise (Trap.protectionFault ea)
  | _ => .ok s

end Sys2Proof.Machine
end

