-- ==== Sys2Proof/Machine/Devices.lean ====
section
/-! DEFINITION. The device pages of the fixed region: supervision page and debug windows (R230 to R232),
vein-cell images (R219), harvest directory (R287) and fabric page (R347). -/

namespace Sys2Proof.Machine

/-- Byte `i` of a dword. -/
def byteOf (w : Nat) (i : Nat) : Byte := BitVec.ofNat 8 (w / 256 ^ i)

/-! ### Veins and cells in their image (R219) -/

/-- Dword `i` of a vein's image. -/
def Vein.image (w : Vein) (i : Nat) : Nat :=
  match i with
  | 0 => w.v.toNat % 2 ^ 64
  | 1 => w.v.toNat / 2 ^ 64
  | 2 => w.status
  | _ => 0

/-- A write of the anchor dword: V becomes 0 (R219). -/
def anchorWrite (x : Word) : Vein :=
  { s := 0, anchor := x.setWidth 8, vx := x.getLsbD 8, ho := x.getLsbD 9 }

/-- A write of one dword of a vein's image through the debug window. (DEDUCED, log 38) -/
def Vein.writeImage (w : Vein) (i : Nat) (x : Word) : Vein :=
  match i with
  | 0 => w.setV (BitVec.ofNat 128 (setBits w.v.toNat 0 64 x.toNat))
  | 1 => w.setV (BitVec.ofNat 128 (setBits w.v.toNat 64 64 x.toNat))
  | 2 => anchorWrite x
  | _ => w

def Cluster.cell (k : Cluster) (i : Nat) : Cell := sget {} k.cells i
def Cluster.setCell (k : Cluster) (i : Nat) (x : Cell) : Cluster := { k with cells := sset {} k.cells i x }

/-! ### %clu (R197) and the supervision page (R230) -/

def popcount36 (x : BitVec 36) : Nat := ((List.range 36).filter (fun i => x.getLsbD i)).length

/-- The `%clu` image of cluster `i` of the module. -/
def Cluster.cluWord (k : Cluster) (i : Nat) : Nat :=
  2 ^ 52 * k.sup + 2 ^ 46 * popcount36 k.harvest + 2 ^ 43 * (i / 96) + 2 ^ 36 * (i % 96) + k.harvest.toNat

/-- A dword of the supervision page (R230). -/
def Cluster.supDword (k : Cluster) (off : Nat) : Nat :=
  if off = 0 then k.pqCount + 2 ^ 8 * k.pqHead + 2 ^ 14 * b2n k.mdrop
  else if off = 8 then b2n k.halt + 16 * k.haltDepth.toNat
  else if 0x40 ≤ off ∧ off < 0x60 then (k.cont.toList.getD ((off - 0x40) / 8) 0).toNat
  else if off = 0x60 then k.inject.toNat
  else if 0x1000 ≤ off ∧ off < 0x2000 then
    ((k.slots.toList.getD ((off - 0x1000) / 64) []).getD (off % 64 / 8) 0).toNat
  else 0

/-! ### The debug window (R231, R232) -/

/-- The word `cstat` reads (R159). -/
def Cistern.stat (x : Cistern) : Nat :=
  if x.defined then 2 ^ 63 + 2 ^ 48 * x.cp + 2 ^ 32 * x.pp + 2 ^ 16 * x.free + x.filled else 0

def Cistern.shape (x : Cistern) : Nat :=
  if x.defined then x.base.toNat + 2 ^ 20 * (x.slot / 16 - 1) + 2 ^ 28 * (x.n - 1) else 0

/-- Bits [127:64] of the `sbind` word of a port (R134). -/
def Port.bindWord (p : Port) : Nat :=
  p.word.toNat + 2 ^ 20 * p.s0.toNat + 2 ^ 32 * (p.n0 - 1) + 2 ^ 40 * p.s1.toNat + 2 ^ 56 * (p.n1 - 1)

def Port.stateWord (p : Port) (q : Nat) : Nat :=
  q + 4 * b2n p.wr + 2 ^ 4 * p.strand.val + 2 ^ 8 * p.d.val + 2 ^ 12 * p.ty.code + 2 ^ 32 * p.pos + 2 ^ 63

/-- `%lprog` (R190) and `%late` (R208). -/
def Lprog.word (x : Lprog) : Nat :=
  2 ^ 63 * b2n x.act + 2 ^ 62 * b2n x.sus + 2 ^ 50 * x.total + 2 ^ 41 * x.start.toNat + 2 ^ 32 * x.done
    + 2 ^ 24 * x.op

def Late.word (x : Late) : Nat := 2 ^ 32 * x.cyc.toNat + 2 ^ 16 * x.cnt.toNat + b2n x.comm

/-- A dword of a strand's image (R231). -/
def Strand.dbgDword (t : Strand) (h off : Nat) : Nat :=
  if off < 0x100 then (t.rg (Fin.ofNat 32 (off / 8))).toNat
  else if off < 0x500 then
    let v := (t.v.toList.getD ((off - 0x100) / 64) (.replicate 16 0)).toList
    (v.getD (off % 64 / 4) 0).toNat + 2 ^ 32 * (v.getD (off % 64 / 4 + 1) 0).toNat
  else if off < 0x540 then (t.rp (Fin.ofNat 8 ((off - 0x500) / 8))).toNat
  else if off = 0x540 then t.pc.toNat
  else if off = 0x548 then (t.ssw h).toNat
  else if off = 0x550 then t.fflags.toNat
  else if off = 0x558 then t.dom.word.toNat
  else 0

/-- Bit 7 of every byte of a table is its valid bit (R172). -/
def Table.byte (t : Table) (j : Nat) : Nat := (t.pi.getD j 0).toNat + 128 * b2n t.valid

/-- A dword of the debug window of core `c` (R231); 0 unless it is frozen (R232). -/
def State.dbgDword (s : State) (c off : Nat) : Nat :=
  let k := s.core c
  if !k.frozen then 0
  else if off < 0x80000 then if off < s.lsCap c then leNat (memRead k.ls off 8) else 0
  else if off < 0x85800 then
    let h := (off - 0x80000) / 0x800
    let t := k.strands.toList.getD h {}
    if t.live then t.dbgDword h (off % 0x800) else 0
  else if off < 0x86000 then 0
  else if off < 0x86800 then (k.veins.toList.getD ((off - 0x86000) / 32) {}).image (off % 32 / 8)
  else if off < 0x86C00 then
    let t := k.tabs.toList.getD ((off - 0x86800) / 128) {}
    leNat ((List.range 8).map (fun j => BitVec.ofNat 8 (t.byte (off % 128 + j))))
  else if off < 0x86D00 then
    let x := k.cist.toList.getD ((off - 0x86C00) / 16) {}
    if off % 16 = 0 then x.stat else x.shape
  else if off < 0x86D40 then
    let q := (off - 0x86D00) / 16
    match k.ports.toList.getD q none, k.drafts.toList.getD q none with
    | some p, _ => if off % 16 = 0 then p.bindWord else p.stateWord q
    | none, some p => if off % 16 = 0 then p.bindWord else p.stateWord q % 2 ^ 63
    | none, none => 0
  else if off = 0x86E00 then b2n k.e4m3
  else if off = 0x86E08 then (s.lsWord c).toNat
  else if off = 0x86E10 then (k.word c).toNat
  else if off = 0x86E18 then k.lprog.word
  else if off = 0x86E20 then k.late.word
  else if 0x86E28 ≤ off ∧ off < 0x86E40 then (k.org.toList.getD ((off - 0x86E28) / 8) 0).toNat
  else if 0x86E40 ≤ off ∧ off < 0x86E58 then (k.ext.toList.getD ((off - 0x86E40) / 8) 0).toNat
  else if off = 0x86F00 then
    2 ^ 63 + 2 ^ 62 * b2n (s.contained c) + 2 ^ 61 * b2n k.pairOf.isSome
      + 2 ^ 8 * (List.range 4).foldl (fun a q => a + 2 ^ q * b2n ((k.err.toList.getD q none).isSome)) 0
      + k.trapStrand.toNat
  else 0

/-- A write of a strand's image (R13, R14, R231, R232). -/
def Strand.dbgWrite (t : Strand) (off : Nat) (x : Word) : Strand :=
  if !t.live then t
  else if off < 0x100 then t.wg (Fin.ofNat 32 (off / 8)) x
  else if off < 0x500 then
    let n := Fin.ofNat 16 ((off - 0x100) / 64)
    let l := off % 64 / 4
    t.wv n (((t.rv n).set! l (x.setWidth 32)).set! (l + 1) (BitVec.ofNat 32 (x.toNat / 2 ^ 32)))
  else if off < 0x540 then t.wp (Fin.ofNat 8 ((off - 0x500) / 8)) (x.setWidth 16)
  else if off = 0x540 then
    let pc : Pc := BitVec.ofNat 57 (x.toNat / 4 * 4)
    { t with pc := pc, wait := if pc = t.pc then t.wait else .none }
  else if off = 0x548 then
    { t with
      priv := x.getLsbD 23
      rei := x.getLsbD 22
      slicefix := x.getLsbD 21
      sx := x.getLsbD 20
      blk := BitVec.ofNat 4 (x.toNat / 2 ^ 16)
      repact := x.getLsbD 7
      repcnt := x.setWidth 7
      repAt := t.pc }
  else if off = 0x550 then { t with fflags := x.setWidth 6 }
  else if off = 0x558 then
    { t with dom :=
      { key := BitVec.ofNat 16 (x.toNat / 2 ^ 48), chm := BitVec.ofNat 8 (x.toNat / 2 ^ 40)
        chv := x.getLsbD 39, gw := BitVec.ofNat 3 (x.toNat / 2 ^ 27), gh := BitVec.ofNat 3 (x.toNat / 2 ^ 24)
        gx := BitVec.ofNat 3 (x.toNat / 2 ^ 21), gy := BitVec.ofNat 3 (x.toNat / 2 ^ 18)
        lvl := if 4 < x.toNat % 8 then t.dom.lvl else x.setWidth 3 } }
  else t

/-- A write of a cistern's two dwords (R231, R232). -/
def Cistern.dbgWrite (x : Cistern) (first : Bool) (w : Nat) : Cistern :=
  if first then
    { x with defined := bitAt w 63, cp := bitsN w 55 48, pp := bitsN w 39 32, free := bitsN w 24 16
             filled := bitsN w 8 0 }
  else { x with base := BitVec.ofNat 20 w, slot := 16 * (bitsN w 27 20 + 1), n := bitsN w 35 28 + 1 }

/-- A port with the fields of one of its two dwords written (R231): what the register added to the word's base stays.
(DESIGN CHOICE, log 85) -/
def Port.dbgWrite (q : Port) (first : Bool) (w : Nat) : Port :=
  if first then
    { q with word := BitVec.ofNat 20 w, base := BitVec.ofNat 20 w + (q.base - q.word), s0 := BitVec.ofNat 12 (w / 2 ^ 20), n0 := bitsN w 39 32 + 1
             s1 := BitVec.ofNat 16 (w / 2 ^ 40), n1 := bitsN w 63 56 + 1, ahead := [] }
  else
    { q with wr := bitAt w 2, strand := Fin.ofNat 11 (min (bitsN w 7 4) 10), d := Fin.ofNat 16 (bitsN w 11 8)
             ty := Decode.tyOf (bitsN w 15 12), pos := bitsN w 48 32, ahead := [] }

/-- A write of a dword of port `q`: bit 63 of the second alone says whether the port is bound (R231). -/
def Core.portDbgWrite (k : Core) (q : Fin 4) (first : Bool) (w : Nat) : Core :=
  let old := (k.ports[q].or k.drafts[q]).getD ⟨0, 0, .i8, false, 0, 0, 1, 0, 1, 0, [], 0, 0⟩
  let p := old.dbgWrite first w
  if (if first then k.ports[q].isSome else bitAt w 63) then
    { k with ports := k.ports.set q (some p), drafts := k.drafts.set q none }
  else { k with ports := k.ports.set q none, drafts := k.drafts.set q (some p) }

/-- A write of `%ls` by the supervisor (R232). -/
def Core.dbgLs (k : Core) (x : Nat) : Core :=
  { k with stray := bitAt x 63, ue := bitAt x 62, soff := BitVec.ofNat 20 (x / 2 ^ 36) }

def lprogOf (x : Nat) : Lprog :=
  ⟨bitAt x 63, bitAt x 62, bitsN x 58 50, BitVec.ofNat 9 (x / 2 ^ 41), bitsN x 40 32, bitsN x 31 24⟩

def lateOf (x : Nat) : Late := ⟨BitVec.ofNat 32 (x / 2 ^ 32), BitVec.ofNat 16 (x / 2 ^ 16), bitAt x 0⟩

/-- A write of one dword of the debug window of a core (R231, R232). -/
def Core.dbgWrite (k : Core) (cap off : Nat) (x : Word) : Core :=
  if !k.frozen then k
  else if off < 0x80000 then
    if off < cap then k.writeBytes ((placeAt off (leBytes 8 x.toNat)).map (fun y => (⟨.ls, y.1⟩, y.2))) else k
  else if off < 0x85800 then
    let h := Fin.ofNat 11 ((off - 0x80000) / 0x800)
    { k with strands := k.strands.set h (k.strands[h].dbgWrite (off % 0x800) x) }
  else if off < 0x86000 then k
  else if off < 0x86800 then
    let w := Fin.ofNat 64 ((off - 0x86000) / 32)
    { k with veins := k.veins.set w (k.veins[w].writeImage (off % 32 / 8) x) }
  else if off < 0x86C00 then
    let i := Fin.ofNat 8 ((off - 0x86800) / 128)
    let t := k.tabs[i]
    let pi := (List.range 8).foldl (fun a j => setAt a (off % 128 + j) (BitVec.ofNat 7 (x.toNat / 256 ^ j))) t.pi
    { k with tabs := k.tabs.set i ⟨x.getLsbD 63, pi⟩ }
  else if off < 0x86D00 then
    let c := Fin.ofNat 16 ((off - 0x86C00) / 16)
    { k with cist := k.cist.set c (k.cist[c].dbgWrite (off % 16 == 0) x.toNat) }
  else if off < 0x86D40 then
    let q := Fin.ofNat 4 ((off - 0x86D00) / 16)
    k.portDbgWrite q (off % 16 == 0) x.toNat
  else if off = 0x86E00 then { k with e4m3 := x.getLsbD 0 }
  else if off = 0x86E08 then k.dbgLs x.toNat
  else if off = 0x86E10 then { k with ecc := BitVec.ofNat 16 (x.toNat / 2 ^ 48) }
  else if off = 0x86E18 then { k with lprog := lprogOf x.toNat }
  else if off = 0x86E20 then { k with late := lateOf x.toNat }
  else if 0x86E28 ≤ off ∧ off < 0x86E40 then
    { k with org := k.org.set (Fin.ofNat 3 ((off - 0x86E28) / 8)) (x.setWidth 32) }
  else if 0x86E40 ≤ off ∧ off < 0x86E58 then
    { k with ext := k.ext.set (Fin.ofNat 3 ((off - 0x86E40) / 8)) (x.setWidth 32) }
  else k

/-! ### The fabric page (R347) -/

def PortState.code : PortState → Nat
  | .down => 0 | .training => 1 | .up => 2

def FPort.word (p : FPort) : Nat :=
  2 ^ 60 * p.state.code + 2 ^ 59 * b2n p.phase + 2 ^ 58 * b2n (p.roll || p.rxRoll) + 2 ^ 32 * p.replay.toNat
    + 2 ^ 16 * p.crc.toNat + p.tag.toNat

def State.fabricDword (s : State) (off : Nat) : Nat :=
  if off < 192 then (s.fports.toList.getD (off / 8) {}).word
  else if off = 0x100 then s.self.toNat
  else if off = 0x108 then min s.lostCount (2 ^ 64 - 1)
  else 0

/-- The byte that stands at a location, for a reader in core `c` (R165, R219, R224, R290).
(DESIGN CHOICE, log 67) -/
def State.pointByte (s : State) (c : Nat) (l : Loc) : Byte :=
  let w := l.addr / 8 * 8
  match l.at' with
  | .ls => memGet (s.core c).ls l.addr
  | .stray => 0
  | .peer _ _ => 0
  | .mem _ => memGet s.mem l.addr
  | .cell => byteOf (((s.cluster (cluOf c)).cell (l.addr / 32)).w.image (l.addr % 32 / 8)) (l.addr % 8)
  | .sup => byteOf ((s.cluster (cluOf c)).supDword w) (l.addr % 8)
  | .dbg p => byteOf (s.dbgDword (36 * cluOf c + p) w) (l.addr % 8)
  | .harvest => if l.addr < 0x1800 then byteOf ((s.cluster (l.addr / 8)).cluWord (l.addr / 8)) (l.addr % 8) else 0
  | .fabric => byteOf (s.fabricDword w) (l.addr % 8)
  | .remote _ => 0
  | .device => Config.outsideByte s.nextId 0
  | .range v => match s.handle? v with
    | some h => memGet h.data l.addr
    | none => 0

end Sys2Proof.Machine
end

