-- ==== Sys2Proof/Machine/Access.lean ====
section
/-! DEFINITION. The ordering machine's moves: a load or a store enters its strand (R28 to R30), an entry
drains (R31), a load is satisfied (R30, R153, R225, R270, R291, R350) and a store is performed (R224, R270,
R291, R349). -/

namespace Sys2Proof.Machine

/-! ### Issue -/

/-- Entries of the store buffer that count against its 16 (R29). -/
def BufEntry.counts (e : BufEntry) : Bool :=
  match e.op with
  | .fence _ => false
  | _ => true

/-- The single-byte stores of one access take one of them together (R29, R108).
(DEDUCED, log 25) -/
def Strand.bufCount (t : Strand) : Nat :=
  (((t.buf.filter BufEntry.counts).map (fun e => if e.grp = 0 then e.id else e.grp)).eraseDups).length

/-- Registers that a load's result fills. -/
def LoadDst.regs : LoadDst → List RegName
  | .g d _ => if d = 0 then [] else [.g d]
  | .pair d c => (if d = 0 then [] else [.g d]) ++ (if c = 0 then [] else [.g c])
  | .lane d _ _ _ => [.v d]
  | .cis _ _ _ => []
  | .strm d .. => [.v d]

/-- An acquire qualifier that acts beyond the strand (R33, R34). -/
def acquires (o : Order) (s : Scope) : Bool := (o == .acq || o == .ar || o == .sc) && s != .str

/-- A release qualifier that acts beyond the strand (R33, R34). -/
def releases (o : Order) (s : Scope) : Bool := (o == .rel || o == .ar || o == .sc) && s != .str

/-- A load of another module's memory asks that module (R349). -/
def State.askRemote (s : State) (locs : List Loc) : State :=
  match locs with
  | ⟨.remote m, a⟩ :: _ => s.txTo m 0 a (.load m a locs.length)
  | _ => s

/-- An access to local store at an offset that is no multiple of its size is made byte by byte (R108). -/
def torn (locs : List Loc) (off : Nat) : Bool := off != 0 && locs.all (fun l => l.at' == .ls || l.at' == .stray)

/-- A load of the issuing strand is issued (R28): later instructions wait for an acquire, an `.sc` or a
remote load (R33, R312, R349). -/
def State.issueLoad (s : State) (locs : List Loc) (dst : LoadDst) (o : Order) (sc : Scope) (va : Word)
    (lane len : Nat) : State :=
  let id := s.nextId
  let s := (s.askRemote locs).fresh
  s.modMe (fun t =>
    { t with
      loads := t.loads ++ [{ id := id, locs := locs, dst := dst, acq := acquires o sc, scope := sc, sc := o == .sc, va := va
                             lane := lane, pc := t.pc, next := t.pc + BitVec.ofNat 57 len, iw := t.iw
                             split := torn locs (va.toNat % locs.length), slot := s.myCore.slot }]
      pend := t.pend ++ dst.regs.map (fun r => (id, r))
      gates := if acquires o sc || locs.any Loc.isRemote then t.gates ++ [id] else t.gates })

/-- An entry joins the buffer of the issuing strand (R29). -/
def State.pushBuf (s : State) (e : BufEntry) : State :=
  s.fresh.modMe (fun t => { t with buf := t.buf ++ [{ e with id := s.nextId, pc := t.pc, iw := t.iw }] })

/-- A store enters the buffer of the issuing strand (R29). -/
def State.pushEntry (s : State) (op : BufOp) (bytes : List (Loc × Byte)) (o : Order) (sc : Scope) (va : Word)
    (el : Nat) : State :=
  s.pushBuf { id := 0, op := op, bytes := bytes, rel := releases o sc, scope := sc, sc := o == .sc, va := va, el := el
              vas := if bytes.isEmpty then [] else [va] }

/-- The single-byte stores of an access that is made byte by byte, in the order of their places (R108). -/
def State.pushTorn (s : State) (grp : Nat) (bytes : List (Loc × Byte)) (o : Order) (sc : Scope) (va : Word) : State :=
  bytes.foldl (fun s b => s.pushBuf
    { id := 0, op := .store, bytes := [b], rel := releases o sc, scope := sc, sc := o == .sc, va := va, grp := grp
      vas := if s.nextId = grp then [va] else [] }) s

/-- A full buffer stalls a store (R29): `n` entries are needed. -/
def State.bufRoom (s : State) (n : Nat) : Res Unit :=
  if s.me.bufCount + n ≤ 16 then .ok () else stall s

/-- A result register waits for the reply of access `id` (R22). -/
def State.await (s : State) (id : Nat) (d : Fin 32) : State :=
  if d = 0 then s else s.modMe (fun t => { t with pend := t.pend ++ [(id, .g d)] })

/-- Later instructions wait for access `id`. -/
def State.gate (s : State) (id : Nat) : State := s.modMe (fun t => { t with gates := t.gates ++ [id] })

/-! ### Windows (R283) -/

/-- Location `l` lies in the span of absent window `w`. -/
def Core.absentAt (k : Core) (l : Loc) (w : Option Window) : Bool :=
  match w with
  | none => false
  | some w => !w.present && l.at' == .ls && decide ((l.addr + k.lsSpan - k.wrap w.lo) % k.lsSpan ≤ w.hi - w.lo)

/-- The absent window that an access touches. -/
def Core.touched (k : Core) (ls : List Loc) : Option (Fin 8) :=
  (List.finRange 8).find? (fun i => ls.any (fun l => k.absentAt l k.wins[i]))

/-- A fill of window `i` enters EQ1 unless one is there (R283); in the error state it is discarded, and counted where the
request for it is the first (R164). (DESIGN CHOICE, log 72) -/
def State.enterFill (s : State) (c : Nat) (h : Fin 11) (i : Fin 8) (first : Bool) : State :=
  let k := s.core c
  match k.err[1] with
  | some e =>
    if first then s.modCore c (fun k => { k with err := k.err.set 1 (some { e with discarded := e.discarded + 1 }) }) else s
  | none =>
    if k.eq1.any (fun o => o.kind == .fill i) || 16 ≤ k.eq1.length then s
    else
      let op : CopyOp := { id := s.nextId, strand := h, kind := .fill i }
      s.fresh.modCore c (fun k => { k with eq1 := k.eq1 ++ [op] })

/-- A strand's access to bytes of the local store of core `m`: a touch of an absent window waits for its fill, with code
7, or takes the fault of a fill that could not be served (R283, R284). -/
def State.touchAt (s : State) (m : Nat) (ls : List Loc) : Res State :=
  match (s.core m).touched ls with
  | none => .ok s
  | some i =>
    let obj : WaitObj := .touch m i.val none
    let wait : Res State := block 7 ((s.enterFill m s.cur.2 i (s.me.waiting != obj)).awaitObj obj)
    match s.me.waiting with
    | .touch c j (some (prot, va)) =>
      if c = m ∧ j = i.val then raise (if prot then Trap.protectionFault va else Trap.translationFault va) else wait
    | _ => wait

/-- A touch of the own local store. -/
def State.touch (s : State) (ls : List Loc) : Res State := s.touchAt s.cur.1 ls

/-- A touch of a window of the member of the gang that an access through the gang window reaches (R202, R283). -/
def State.touchPeer (s : State) (l : Loc) (n : Nat) : Res State :=
  match l.at' with
  | .peer gx gy => match s.member s.cur.1 gx gy with
    | none => .ok s
    | some m => s.touchAt m ((l.span n).map (fun x => (s.core m).lsLoc x.addr))
  | _ => .ok s

/-! ### Satisfaction of a load (R30) -/

/-- Two lists of locations share a byte. -/
def overlap (a b : List Loc) : Bool := a.any (fun l => b.contains l)

def BufEntry.locs (e : BufEntry) : List Loc := e.bytes.map Prod.fst

/-- The byte an entry writes at a location. -/
def BufEntry.byteAt (e : BufEntry) (l : Loc) : Option Byte := (e.bytes.reverse.find? (fun x => x.1 == l)).map Prod.snd

/-- Byte `b` of location `l` once the entry has been written over it. -/
def BufEntry.over (e : BufEntry) (l : Loc) (b : Byte) : Byte :=
  match e.byteAt l with
  | none => b
  | some x => match e.mask.find? (fun y => y.1 == l) with
    | none => x
    | some (_, m) => (x &&& m) ||| (b &&& ~~~m)

/-- The whole bytes the entry writes over what `rd` reads. -/
def BufEntry.onto (e : BufEntry) (rd : Loc → Byte) : List (Loc × Byte) :=
  e.locs.map (fun l => (l, e.over l (rd l)))

/-- The stores older than access `id` to some of the bytes, youngest first. (DEDUCED, log 9) -/
def Strand.olderStores (t : Strand) (id : Nat) (ls : List Loc) : List BufEntry :=
  (t.buf.filter (fun e => decide (e.id < id) && overlap e.locs ls)).reverse

/-- The load that fills a lane of the write of a stream puts the lane's element into this entry. -/
def LoadDst.entry : LoadDst → Option Nat
  | .strm _ _ _ _ e _ _ _ => some e
  | _ => none

/-- Elements of entry `id` have not been loaded yet (R130, R135). -/
def Strand.unfilled (t : Strand) (id : Nat) : Bool := t.loads.any (fun l => l.dst.entry == some id)

/-- What the buffer gives a load: its bytes, nothing, or a wait (R30). (DEDUCED, log 9) -/
inductive Forward
  | bytes (bs : List Byte)
  | none
  | wait
  deriving DecidableEq, Repr

/-- The byte lies in no local store: what is written there is lost, and it reads as 0 (R148, R202). -/
def Loc.lost (l : Loc) : Bool :=
  match l.at' with
  | .stray => true
  | .peer _ _ => decide (2 ^ 20 ≤ l.addr)
  | _ => false

/-- What the youngest older store to the bytes gives (R30), to a load of any scope.
(DESIGN CHOICE, log 75, 80) -/
def Strand.forward (t : Strand) (id : Nat) (ls : List Loc) : Forward :=
  match t.olderStores id ls with
  | [] => .none
  | e :: _ =>
    if e.op == .store && !t.unfilled e.id && e.mask.isEmpty && ls.all (fun l => e.locs.contains l && !l.lost) then
      .bytes (ls.map (fun l => (e.byteAt l).getD 0))
    else .wait

/-- A fence holds a later load until every store before the fence has drained (R33). -/
def Strand.fenced (t : Strand) (id : Nat) : Bool :=
  t.buf.any (fun f => f.op == .fence true && decide (f.id < id)
    && t.buf.any (fun e => e.counts && decide (e.id < f.id)))

/-- The bytes that a load has still to take, each with its place. -/
def PendLoad.left (l : PendLoad) : List (Nat × Loc) :=
  ((List.range l.locs.length).zip l.locs).filter (fun x => !l.got.any (fun y => y.1 == x.1))

/-- A load of the strand that reads a common byte is older (R30). -/
def Strand.olderLoad (t : Strand) (id : Nat) (ls : List Loc) : Bool :=
  t.loads.any (fun l => decide (l.id < id) && overlap (l.left.map Prod.snd) ls)

/-- Line number and offset of a memory byte. -/
def lineOf (a : Nat) : Nat := a / 64

/-- Bytes of a line that the core's own outward stores have written past its order point (R153). -/
def Core.overlay (k : Core) (l : Loc) (b : Byte) : Byte :=
  k.outq.foldl (fun b o => if o.e.op == .store then o.e.over l b else b) b

/-- The line of 64 bytes around memory address `a` as `rd` gives it. -/
def lineData (rd : Nat → Byte) (a : Nat) : List Byte := (List.range 64).map (fun j => rd (lineOf a * 64 + j))

/-- Insertion by the moment at which the cluster's memory point took a store. -/
def insertTurn (o : OutEntry) : List OutEntry → List OutEntry
  | [] => [o]
  | x :: xs => if o.turn ≤ x.turn then o :: x :: xs else x :: insertTurn o xs

/-- The stores that are performed at cluster `clu`'s memory point and not at their home yet, in order (R224). -/
def State.aheadOf (s : State) (clu : Nat) : List OutEntry :=
  ((coresOf clu).flatMap (fun c => (s.core c).outq.filter (fun o => o.stage == 1 && o.e.op == .store))).foldr insertTurn []

/-- Byte `b` of location `l` once the stores `os` have been written over it. -/
def overAll (os : List OutEntry) (l : Loc) (b : Byte) : Byte := os.foldl (fun b o => o.e.over l b) b

/-- A store that the cluster's cache holds and the home does not yet (R224). -/
def State.clusterAhead (s : State) (clu : Nat) (l : Loc) : Bool := (s.aheadOf clu).any (fun o => o.e.locs.contains l)

/-- The line around `l` at the memory point of cluster `clu`: the home's, under the stores that have not reached it
(R224). -/
def State.clusterLine (s : State) (clu : Nat) (l : Loc) : List Byte :=
  let os := s.aheadOf clu
  lineData (fun a => overAll os ⟨l.at', a⟩ (memGet s.mem a)) l.addr

/-- The byte of memory location `l` from source `src`: 0 the home, 1 the plain-data cache, 2 the cluster
cache; `none` when the rules do not allow it (R153, R225, R270, R291). -/
def State.memByte (s : State) (c : Nat) (t : Strand) (scope : Scope) (src : Nat) (l : Loc) : Option Byte :=
  let k := s.core c
  let own := k.outq.filter (fun o => o.e.locs.contains l)
  let narrow := decide (scope.code ≤ 1)
  if !narrow && own.any (fun o => o.stage == 0 || 2 < scope.code) then none
  else if narrow && own.any (fun o => o.e.op != .store) then none
  else
    let home := l.at' == .mem (.cluster (cluOf c))
    let base : Option Byte :=
      if src = 1 then
        if !narrow then none
        else (sfind k.pdc (lineOf l.addr)).bind (fun x =>
          if t.voidP ≤ x.stamp then x.data[l.addr % 64]? else none)
      else if src = 2 then
        if 2 < scope.code || home then none
        else (sfind (s.cluster (cluOf c)).cache (lineOf l.addr)).bind (fun x =>
          if t.voidC ≤ x.stamp then x.data[l.addr % 64]? else none)
      else if scope.code ≤ 2 && s.clusterAhead (cluOf c) l then none
      else some (s.pointByte c l)
    if narrow then base.map (fun b => k.overlay l b) else base

/-- The member's location for an offset of the gang window. -/
def State.peerLoc (s : State) (m off : Nat) : Loc := (s.core m).lsLoc off

/-- The core and the byte of its local store that a location of core `c` reaches, directly, through the gang window or
through the debug window of a frozen core (R202, R231, R232). -/
def State.lsPlace (s : State) (c : Nat) (l : Loc) : Option (Nat × Loc) :=
  match l.at' with
  | .ls | .stray => some (c, l)
  | .peer gx gy => (s.member c gx gy).map (fun m => (m, s.peerLoc m l.addr))
  | .dbg p =>
    let m := 36 * cluOf c + p
    if (s.core m).frozen && decide (l.addr < s.lsCap m) then some (m, ⟨.ls, l.addr⟩) else none
  | _ => none

/-- A byte at the order point or at a memory point, and the state with the marks it leaves; `none` when the
load may not be satisfied there now. The flag tells a poisoned word. -/
def State.loadByte (s : State) (c : Nat) (t : Strand) (scope : Scope) (src : Nat) (l : Loc) :
    Option (Byte × Bool × State) :=
  let busy := (s.core c).outq.any (fun o => o.e.locs.contains l)
  match s.lsPlace c l with
  | some (m, x) =>
    if busy then none
    else
      let r := (s.core m).readByte x
      some (r.1.getD 0, r.1.isNone, s.setCore m r.2)
  | none =>
  match l.at' with
  | .mem _ => (s.memByte c t scope src l).map (fun b => (b, false, s))
  | .remote m =>
    if busy || src != 3 || scope == .chm then none
    else (sfind s.rcopies (m * 2 ^ 52 + lineOf l.addr)).bind (fun x =>
      if t.voidR ≤ x.stamp then (x.data[l.addr % 64]?).map (fun b => (b, false, s)) else none)
  | .range v =>
    if busy || (s.handle? v).any (fun h => h.holder.isSome) then none else some (s.pointByte c l, false, s)
  | _ => if busy then none else some (s.pointByte c l, false, s)

def State.loadBytes (s : State) (c : Nat) (t : Strand) (scope : Scope) (src : Nat) :
    List Loc → Option (List Byte × Bool × State)
  | [] => some ([], false, s)
  | l :: ls =>
    match s.loadByte c t scope src l with
    | none => none
    | some (b, bad, s') =>
      match s'.loadBytes c t scope src ls with
      | none => none
      | some (bs, bad', s'') => some (b :: bs, bad || bad', s'')

/-- A cache of `n` lines that is full of others gives up one of them when line `i` joins it at moment `now`.
(DESIGN CHOICE, log 3) -/
def roomFor (n now i : Nat) (c : Sparse Line) : Sparse Line :=
  if c.length < n || (sfind c i).isSome then c else c.eraseIdx (Config.victim now i % c.length)

/-- Line `i` joins a cache of `n` lines. -/
def putLine (n : Nat) (c : Sparse Line) (i : Nat) (x : Line) : Sparse Line := sput (roomFor n x.stamp i c) i x

/-- Lines of the plain-data cache, of a cluster cache and of the hubs' caches (R3, R5). -/
def pdcLines : Nat := 256
def cacheLines : Nat := 8192
def hubLines : Nat := 4194304

/-- A load from the home fills the cluster's line, and a load of narrow scope the plain-data line too
(R153, R224). (DESIGN CHOICE, log 3) -/
def State.fillLines (s : State) (c : Nat) (scope : Scope) (src : Nat) (ls : List Loc) : State :=
  match ls with
  | [] => s
  | l :: _ =>
    match l.at' with
    | .mem home =>
      let clu := cluOf c
      if 2 < scope.code ∨ src = 1 then s
      else
        let data := if src = 2 then ((sfind (s.cluster clu).cache (lineOf l.addr)).map Line.data).getD []
          else s.clusterLine clu l
        let stamp := s.nextId
        let s := s.fresh
        let s := if src = 0 && home != .cluster clu then
            s.modCluster clu (fun k => { k with cache := putLine cacheLines k.cache (lineOf l.addr) ⟨stamp, data⟩ }) else s
        if scope.code ≤ 1 then
          s.modCore c (fun k =>
            let seen := (List.range 64).map (fun j => k.overlay ⟨l.at', lineOf l.addr * 64 + j⟩ (data.getD j 0))
            { k with pdc := putLine pdcLines k.pdc (lineOf l.addr) ⟨stamp, seen⟩ })
        else s
    | _ => s

/-- The strand's later loads use no older line (R225, R270, R291, R350). -/
def Strand.void (t : Strand) (scope : Scope) (now : Nat) : Strand :=
  match scope with
  | .str => t
  | .core => t
  | .clu => { t with voidP := now }
  | .die => { t with voidP := now, voidC := now }
  | .mod => { t with voidP := now, voidC := now }
  | .chm => { t with voidP := now, voidC := now, voidR := now }

/-- An access of the strand is done: its registers and gates are released, and a strand that waited for another module's
memory alone is ready (R14, R21). -/
def Strand.release (t : Strand) (id : Nat) : Strand :=
  let t := { t with pend := t.pend.filter (fun x => x.1 != id), gates := t.gates.filter (fun x => x != id) }
  if t.blk == 4 && !t.awaitsRemote then { t with blk := 0 } else t

/-- The parts of an element: the bytes of `x` under its type at the places `ls`, from bit `bit`, each with the bits of it
that are the element's. -/
def elemParts (ty : Ty) (ls : List Loc) (bit : Nat) (x : Lane) : List (Loc × Byte × Byte) :=
  if ty.bits < 8 then
    ls.map (fun l => (l, BitVec.ofNat 8 (x.toNat % 2 ^ ty.bits * 2 ^ bit), BitVec.ofNat 8 ((2 ^ ty.bits - 1) * 2 ^ bit)))
  else (ls.zip (leBytes (ty.bits / 8) x.toNat)).map (fun y => (y.1, y.2, 0xFF))

/-- Parts of an element joined to an entry that holds their places. -/
def BufEntry.fill (e : BufEntry) (parts : List (Loc × Byte × Byte)) : BufEntry :=
  { e with bytes := e.bytes.map (fun b => match parts.find? (fun p => p.1 == b.1) with
      | some (_, x, m) => (b.1, (x &&& m) ||| (b.2 &&& ~~~m))
      | none => b) }

/-- A load's bytes go to its destination (R107, R129, R135). -/
def State.deliver (s : State) (c : Nat) (h : Fin 11) (dst : LoadDst) (bs : List Byte) : State :=
  match dst with
  | .g d ty => s.modStrandAt c h (fun t => t.wg d (wordOfInt (ty.read (leNat bs))))
  | .pair d e => s.modStrandAt c h (fun t =>
      (t.wg d (BitVec.ofNat 64 (leNat (bs.take 8)))).wg e (BitVec.ofNat 64 (leNat (bs.drop 8))))
  | .lane d l ty bit => s.modStrandAt c h (fun t =>
      t.wv d ((t.rv d).set l (laneOfBits ty (leNat bs / 2 ^ bit))))
  | .cis offs ty bit =>
    let x := laneOfBits ty (leNat bs / 2 ^ bit)
    s.modCore c (fun k => k.ownWrite ((offs.zip (leBytes 4 x.toNat)).map (fun y => (k.lsLoc y.1, y.2))))
  | .strm d l ty bit e ls ety ebit =>
    let x := laneOfBits ty (leNat bs / 2 ^ bit)
    s.modStrandAt c h (fun t => { t.wv d ((t.rv d).set l x) with
      buf := t.buf.map (fun b => if b.id = e then b.fill (elemParts ety ls ebit x) else b) })

/-- A load is complete: its destination is written, and an acquire voids older lines. -/
def State.finishLoad (s : State) (c : Nat) (h : Fin 11) (l : PendLoad) (bs : List Byte) : State :=
  let s := s.deliver c h l.dst bs
  let now := s.nextId
  let s := s.fresh
  s.modStrandAt c h (fun t =>
    let left := (t.loads.filter (fun x => x.id != l.id)).map (fun x => if x.slot = l.slot then { x with part := true } else x)
    let t := { t with loads := left }.release l.id
    if l.acq then t.void l.scope now else t)

/-- The core and the local-store offset of an uncorrectable byte that the location reaches (R152, R202, R231).
(DEDUCED, log 63) -/
def State.errorAt (s : State) (c : Nat) (l : Loc) : Option (Nat × Nat) :=
  (s.lsPlace c l).bind (fun x => if ((s.core x.1).readByte x.2).1.isNone then some (x.1, x.2.addr) else none)

/-- An uncorrectable word that the instruction at `pc` of a strand has read: `%ls.ue` and the notice of the core whose
local store it is (R152, R202, R228). (DEDUCED, log 60, 63) -/
def State.lsError (s : State) (c : Nat) (h : Fin 11) (bad : Bool) (ls : List Loc) (pc : Pc) (iw : Word) : State :=
  let s := s.splitRead c h ls pc iw
  if bad then
    match (ls.filterMap (s.errorAt c)).head? with
    | none => s
    | some (m, off) => (s.modCore m (fun k => { k with ue := true })).notice m h off pc iw
  else s

/-- One byte of a load that is made byte by byte; with the last the load is complete (R108). -/
def State.takeByte (s : State) (c : Nat) (h : Fin 11) (l : PendLoad) (j : Nat) (b : Byte) : State :=
  let got := l.got ++ [(j, b)]
  if got.length < l.locs.length then
    s.modStrandAt c h (fun t => { t with loads := t.loads.map (fun x => if x.id = l.id then { x with got := got } else x) })
  else
    s.finishLoad c h l ((List.range l.locs.length).map (fun i => ((got.find? (fun x => x.1 == i)).map Prod.snd).getD 0))

/-- Bytes `ls` of load `l` as its strand's buffer or the source gives them, with the marks an error leaves; `none` when
they may not be taken now (R30). -/
def State.take (s : State) (c : Nat) (h : Fin 11) (l : PendLoad) (src : Nat) (ls : List Loc) : Option (List Byte × State) :=
  let t := s.strandAt c h
  if t.fenced l.id || t.olderLoad l.id ls then none
  else match t.forward l.id ls with
    | .wait => none
    | .bytes bs => some (bs, s)
    | .none => (s.loadBytes c t l.scope src ls).map (fun x =>
        (x.1, (x.2.2.lsError c h x.2.1 ls l.pc l.iw).fillLines c l.scope src ls))

/-- The virtual range of a handle that has been freed (R299). -/
def State.freedRange (s : State) (l : Loc) : Bool :=
  match l.at' with
  | .range v => (s.handle? v).all Handle.freed
  | _ => false

/-- An access that strand `h` of core `c` issued, at `pc`, meets a fault when it is placed (R299): the core freezes, and the
packet names the access. The PC names it again when the strand has issued nothing since.
(DESIGN CHOICE, log 66) -/
def State.lateFault (s : State) (c : Nat) (h : Fin 11) (pc : Pc) (next : Option Pc) (iw : Word) (t : Trap) : State :=
  let s := s.modStrandAt c h (fun x =>
    if next = some x.pc ∧ !x.wait.lasting ∧ x.rep = none then { x with pc := pc, rei := false, wait := .none } else x)
  let s := (s.freeze c h).modStrandAt c h Strand.endTouch
  (s.freezePartner c).sendReportAt c h 0 t pc iw

/-- Load `l` is taken back: its registers and gates are released unwritten. -/
def Strand.dropLoad (t : Strand) (id : Nat) : Strand :=
  { t with loads := t.loads.filter (fun x => x.id != id) }.release id

/-- The load with identifier `id` takes its value (R30), one that is made byte by byte its byte `src`; `none` when it may
not now. One of a freed handle's range faults (R299). (DEDUCED, log 9, 25) -/
def State.satisfy (s : State) (c : Nat) (h : Fin 11) (id src : Nat) : Option State :=
  match (s.strandAt c h).loads.find? (fun l => l.id == id) with
  | none => none
  | some l =>
    if l.locs.any s.freedRange then
      if (s.core c).frozen then none
      else some ((s.modStrandAt c h (fun t => t.dropLoad id)).lateFault c h l.pc (some l.next) l.iw
        { Trap.translationFault l.va with sub := l.lane })
    else if l.split then
      match l.left.find? (fun x => x.1 == src) with
      | none => none
      | some (j, x) => (s.take c h l 0 [x]).map (fun r => r.2.takeByte c h l j (r.1.headD 0))
    else (s.take c h l src l.locs).map (fun r => r.2.finishLoad c h l r.1)

/-! ### Draining (R31) -/

/-- Every earlier store of the strand has been performed at the scope (R225, R270, R291, R350).
(DEDUCED, log 55) -/
def Core.performed (k : Core) (h : Fin 11) (scope : Scope) : Bool :=
  let mine := k.outq.filter (fun o => o.strand == h)
  match scope with
  | .str => true
  | .core => true
  | .clu => mine.all (fun o => o.stage != 0)
  | .die => mine.all (fun o => o.stage != 0 && o.e.locs.any Loc.isRemote)
  | .mod => mine.all (fun o => o.stage != 0 && o.e.locs.any Loc.isRemote)
  | .chm => mine.isEmpty

/-- The entry may drain (R31, R225). (DEDUCED, log 55) -/
def Core.canDrain (k : Core) (h : Fin 11) (e : BufEntry) : Bool :=
  let t := k.strands[h]
  let older := t.buf.filter (fun x => decide (x.id < e.id))
  older.all (fun x => !x.rel && !overlap x.locs e.locs) && !t.unfilled e.id
    && (!e.rel || (older.isEmpty && t.loads.all (fun l => decide (e.id < l.id)) && !k.atomicBefore h e.id
        && k.performed h e.scope))

/-- A drained store updates the plain-data line it hits (R153). -/
def Core.updatePdc (k : Core) (e : BufEntry) : Core :=
  { k with pdc := e.locs.foldl (fun m x =>
      match x.at' with
      | .mem _ => match sfind m (lineOf x.addr) with
        | none => m
        | some l => sput m (lineOf x.addr)
            { l with data := setAt l.data (x.addr % 64) (e.over x (l.data.getD (x.addr % 64) 0)) }
      | _ => m) k.pdc }

/-- Lists of `n` elements. -/
def chunks {α : Type} (n : Nat) : Nat → List α → List (List α)
  | 0, _ => []
  | f + 1, xs => if xs.isEmpty then [] else xs.take n :: chunks n f (xs.drop n)

/-- A drained entry leaves the core order point, one store for each element (R130, R165). -/
def State.outward (s : State) (c : Nat) (h : Fin 11) (held go : Bool) (e : BufEntry) :
    List (List (Loc × Byte)) → State
  | [] => s
  | bs :: rest =>
    let o : OutEntry := { strand := h, e := { e with id := if e.el = 0 then e.id else s.nextId, bytes := bs }, task := (s.core c).task
                          ctx := (s.core c).ctx, held := held, go := go }
    (s.fresh.modCore c (fun k => { k with outq := k.outq ++ [o] })).outward c h held go e rest

/-- The entry is one of the own local store. -/
def BufEntry.isLocal (e : BufEntry) : Bool :=
  e.op == .store && e.bytes.all (fun x => x.1.at' == .ls || x.1.at' == .stray)

/-- The stores of core `c` wait in its pair's store queue (R237). -/
def State.holdsStores (s : State) (c : Nat) : Bool := s.pairs.any (fun p => p.leader == c && !p.settle)

/-- A collective whose entry has drained takes its place in EQ3, after those before it (R355). -/
def Core.placeColl (k : Core) (op : Nat) : Core :=
  let mine := (k.eq3.filter (fun o => o.id == op)).map (fun o => { o with drained := true })
  let others := k.eq3.filter (fun o => o.id != op)
  { k with eq3 := others.filter CollOp.drained ++ mine ++ others.filter (fun o => !o.drained) }

/-- The entry `id` drains (R31, R32): a local store takes place, a store to memory goes outward.
(DEDUCED, log 25) -/
def State.drain (s : State) (c : Nat) (h : Fin 11) (id : Nat) : Option State :=
  let k := s.core c
  match k.strands[h].buf.find? (fun e => e.id == id) with
  | none => none
  | some e =>
    if !k.canDrain h e then none
    else
      let s' := s.modStrandAt c h (fun t => { t with buf := t.buf.filter (fun x => x.id != id) })
      match e.op with
      | .fence _ => some s'
      | .coll op => some (s'.modCore c (fun k => k.placeColl op))
      | .store =>
        if e.isLocal then some (s'.modCore c (fun k => k.ownWrite (e.onto (fun l => memGet k.ls l.addr))))
        else
          let s' := s'.modCore c (fun k => k.updatePdc e)
          let parts := if e.el = 0 then [e.bytes] else chunks e.el e.bytes.length e.bytes
          let s'' := s'.outward c h (s.holdsStores c) (!e.sc) e parts
          if e.sc then
            some { s''.modCore c (fun k => { k with scSeq := k.scSeq + 1 }) with
              scWindow := s''.scWindow ++ [⟨k.lnum.toNat, k.scSeq, c, h, e.id⟩] }
          else some s''
      | _ =>
        let o : OutEntry := { strand := h, e := e, task := k.task, ctx := k.ctx, go := !e.sc }
        let s'' := s'.modCore c (fun k => { k with outq := k.outq ++ [o] })
        if e.sc then
          some { s''.modCore c (fun k => { k with scSeq := k.scSeq + 1 }) with
            scWindow := s''.scWindow ++ [⟨k.lnum.toNat, k.scSeq, c, h, e.id⟩] }
        else some s''

/-! ### Performing (R224, R270, R291) -/

/-- Stores reach the cluster memory points in the order in which they left the core (R224). -/
def Core.firstOut (k : Core) (id : Nat) : Bool :=
  match (k.outq.filter (fun o => o.stage == 0)).head? with
  | none => false
  | some o => o.e.id == id

/-- The home of a byte: a cluster, one of the two hubs, a sector of another module (R350), or the place itself. -/
inductive HomePoint
  | cluster (clu : Nat)
  | hub (second : Bool)
  | sector (mod n : Nat)
  | place (p : Place)
  deriving DecidableEq, Repr

/-- The home of a byte: each sector of memory has its hub, that of a handle's virtual range too, and the home of a page of
a parked die is the hub (R270, R285, R290, R291). (DESIGN CHOICE, log 26) -/
def State.homePoint (s : State) (l : Loc) : HomePoint :=
  match l.at' with
  | .mem .hub => .hub (Config.hubOf (l.addr / 64))
  | .mem (.cluster u) =>
    let p := (s.dies[(Fin.ofNat 8 (u / 96))]).power
    if p == .parked || p == .unparking then .hub (Config.hubOf (l.addr / 64)) else .cluster u
  | .range v => .hub (Config.rangeHub v (l.addr / 64))
  | .remote m => .sector m (l.addr / 64)
  | p => .place p

/-- An older store of core `c` to the same home has not gone outward yet (R224, R270, R291).
(DESIGN CHOICE, log 26) -/
def State.olderSameHome (s : State) (c : Nat) (o : OutEntry) : Bool :=
  ((s.core c).outq.takeWhile (fun x => x.e.id != o.e.id)).any (fun x => x.stage == 1
    && x.e.locs.any (fun a => o.e.locs.any (fun b => s.homePoint a == s.homePoint b)))

/-- Entry `id` leaves the queue: its strand waits for it no longer. -/
def State.dropOut (s : State) (c id : Nat) : State :=
  s.modCore c (fun k =>
    { k with
      outq := k.outq.filter (fun o => o.e.id != id)
      strands := k.strands.map (fun t => { t with gates := t.gates.filter (fun x => x != id) }) })

def State.stageOut (s : State) (c id : Nat) : State :=
  s.fresh.modCore c (fun k =>
    { k with outq := k.outq.map (fun o => if o.e.id = id then { o with stage := 1, turn := s.nextId } else o) })

/-- A store to the same bytes was performed at the cluster's memory point before `o` and has not reached the home yet: the
home keeps the cluster's order (R224). -/
def State.behind (s : State) (c : Nat) (o : OutEntry) : Bool :=
  (s.aheadOf (cluOf c)).any (fun x => decide (x.turn < o.turn) && overlap x.e.locs o.e.locs)

/-- Bytes written into the line of a cluster cache, which a store allocates (R224).
(DESIGN CHOICE, log 3) -/
def State.cacheWrite (s : State) (clu : Nat) (e : BufEntry) : State :=
  e.locs.foldl (fun s x =>
    let n := lineOf x.addr
    let l := (sfind (s.cluster clu).cache n).getD ⟨s.nextId, s.clusterLine clu x⟩
    let b := e.over x (l.data.getD (x.addr % 64) 0)
    s.modCluster clu (fun k =>
      { k with cache := putLine cacheLines k.cache n { l with data := setAt l.data (x.addr % 64) b } })) s

/-- Addressed bytes cover every byte of sector `n`. -/
def coversSector (bs : List (Nat × Byte)) (n : Nat) : Bool :=
  (List.range 64).all (fun j => bs.any (fun x => x.1 == 64 * n + j))

/-- Bytes written at the home of memory (R290); a whole sector loses its poison (R315). -/
def State.writeMem (s : State) (bs : List (Loc × Byte)) : State :=
  let bs := bs.map (fun x => (x.1.addr, x.2))
  { s with mem := memSetAll s.mem bs, poisoned := s.poisoned.filter (fun n => !coversSector bs n) }

/-- Bytes written through the gang window at a member's order point (R202). -/
def State.peerWrite (s : State) (task : Option Nat) (gx gy : Nat) (e : BufEntry) : State :=
  match s.memberOf task gx gy with
  | none => s
  | some m => s.modCore m (fun k => k.writeBytes
      ((e.onto (fun l => memGet k.ls (k.lsLoc l.addr).addr)).map (fun x => (k.lsLoc x.1.addr, x.2))))

/-- Bytes written in the virtual range of a handle; a freed handle takes nothing, and a whole sector loses its poison
(R299, R304, R315). -/
def State.rangeWrite (s : State) (v : Word) (bs : List (Loc × Byte)) : State :=
  let bs := bs.map (fun x => (x.1.addr, x.2))
  s.modHandle v (fun h => if h.freed then h else
    { h with data := memSetAll h.data bs, bad := h.bad.filter (fun n => !coversSector bs n) })

/-- Entry `o` of core `c`, which names a freed handle's range, takes the fault of R299, unless its task has gone; it waits
while the core is frozen. (DESIGN CHOICE, log 66) -/
def State.freedAccess (s : State) (c : Nat) (o : OutEntry) : Option State :=
  let s' := (s.modStrandAt c o.strand (fun t => t.release o.e.id)).dropOut c o.e.id
  if (s.core c).task != o.task || o.task.isNone then some (s.dropOut c o.e.id)
  else if (s.core c).frozen then none
  else some (s'.lateFault c o.strand o.e.pc none o.e.iw (Trap.translationFault o.e.va))

/-- The bits of each byte that the entry stores; none named when it stores whole bytes (R130). -/
def BufEntry.masks (e : BufEntry) : List Byte :=
  if e.mask.isEmpty then []
  else e.bytes.map (fun x => ((e.mask.find? (fun y => y.1 == x.1)).map Prod.snd).getD 0xFF)

/-- The next stage of store `o` of core `c` (R202, R224, R291, R304, R349); `none` when it must wait.
(DESIGN CHOICE, log 26, 67) -/
def State.perform (s : State) (c : Nat) (o : OutEntry) : Option State :=
  let k := s.core c
  let id := o.e.id
  match o.e.bytes with
  | [] => some (s.dropOut c id)
  | x :: _ =>
    match x.1.at' with
    | .mem home =>
      if o.stage = 0 then
        let s := (s.lineUse (cluOf c) x.1).getD s
        if !k.firstOut id then none
        else if home = .cluster (cluOf c) then
          some ((s.writeMem (o.e.onto (fun l => memGet s.mem l.addr))).dropOut c id)
        else some ((s.cacheWrite (cluOf c) o.e).stageOut c id)
      else if s.olderSameHome c o || s.behind c o then none
      else some ((s.writeMem (o.e.onto (fun l => memGet s.mem l.addr))).dropOut c id)
    | .peer gx gy => if k.firstOut id then some ((s.peerWrite o.task gx gy o.e).dropOut c id) else none
    | .range v =>
      if !k.firstOut id || s.olderSameHome c o || (s.handle? v).any (fun h => h.holder.isSome) then none
      else if s.freedRange x.1 then s.freedAccess c o
      else some ((s.rangeWrite v (o.e.onto (fun l => s.pointByte c l))).dropOut c id)
    | .remote m =>
      if o.stage = 0 && k.firstOut id && !s.olderSameHome c o then
        some ((s.stageOut c id).txTo m 0 x.1.addr (.store m x.1.addr (o.e.bytes.map Prod.snd) o.e.masks))
      else none
    | .device => if k.firstOut id then some (s.dropOut c id) else none
    | _ => none

/-- An announced `.sc` access has been performed (R312). -/
def State.scDone (s : State) (a : Announce) : Bool :=
  let k := s.core a.core
  !k.outq.any (fun o => o.e.id == a.id) && !k.strands[a.strand].loads.any (fun l => l.id == a.id)

/-- The first access of the order of `.sc` accesses that has not been performed is access `id` of core `c`. -/
def State.scTurn (s : State) (c id : Nat) : Bool :=
  match s.scOrder.find? (fun a => !s.scDone a) with
  | some a => a.core == c && a.id == id
  | none => false

/-- The outward entry `id` of core `c`, when it may be performed. -/
def State.outEntry (s : State) (c id : Nat) : Option OutEntry :=
  (s.core c).outq.find? (fun o => o.e.id == id && !o.held && (o.go || s.scTurn c id))

end Sys2Proof.Machine
end

