-- ==== Sys2Proof/Machine/Operands.lean ====
section
/-! DEFINITION. Operand forms of the scalar instructions: the B position, displacements, and the length
each form gives its instruction (R37, R40, R87, R90). -/

namespace Sys2Proof

/-- Bytes of an instruction with this B position (R90). -/
def BSrc.len : BSrc → Nat
  | .reg _ => 8
  | .imm16 _ => 8
  | .imm32 _ => 12

/-- Bytes of an instruction with this displacement (R87). -/
def Disp.len : Disp → Nat
  | .d16 _ => 8
  | .d32 _ => 12

/-- The sign-extended displacement (R40). -/
def Disp.val : Disp → Word
  | .d16 i => i.signExtend 64
  | .d32 i => i.signExtend 64

def LiImm.len : LiImm → Nat
  | .i16 _ => 8
  | .i32 _ => 12
  | .i64 _ => 16

/-- The value `li` writes (R97). -/
def LiImm.val : LiImm → Word
  | .i16 i => i.signExtend 64
  | .i32 i => i.signExtend 64
  | .i64 i => i

def JmpT.len : JmpT → Nat
  | .i32 _ => 12
  | .i64 _ => 16

/-- The target of `jmp` (R98). -/
def JmpT.val : JmpT → Word
  | .i32 i => i.setWidth 64
  | .i64 i => i

def NopLen.len : NopLen → Nat
  | .b8 => 8
  | .b12 => 12
  | .b16 => 16

/-- Bytes of an instruction with this optional register field (R101). -/
def fieldLen : Option RegField → Nat
  | none => 8
  | some _ => 12

end Sys2Proof

namespace Sys2Proof.Machine

/-- The B operand before the type reads it: a register or a sign-extended immediate (R89). -/
def braw (t : Strand) : BSrc → Word
  | .reg b => t.rg b
  | .imm16 i => i.signExtend 64
  | .imm32 i => i.signExtend 64

/-- `ext` of R89: the low bits of an integer read as the type. -/
def extTo (ty : Ty) (x : Int) : Int := ty.read (x % (2 ^ ty.bits : Nat)).toNat

/-- The operand of a register or immediate under a type (R89). -/
def operandOf (ty : Ty) (x : Word) : Int := ty.read x.toNat

/-- The N-bit pattern of an operand. -/
def patternOf (ty : Ty) (x : Int) : Nat := (x % (2 ^ ty.bits : Nat)).toNat

/-- The shift amount (R89). -/
def shiftOf (ty : Ty) (b : Word) : Nat := b.toNat % 64 % ty.bits

/-- The PC as a 64-bit address. -/
def pcWord (t : Strand) : Word := t.pc.setWidth 64

/-- The target check of R38: bits [1:0] and [63:57] are zero. -/
def targetOk (t : Word) : Bool := t.toNat % 4 == 0 && decide (t.toNat < 2 ^ 57)

/-- Address arithmetic of `lea` and of the memory instructions (R96, R106). -/
def effAddr (t : Strand) (a b : Fin 32) (sc : Fin 4) (d : Disp) : Word :=
  t.rg a + t.rg b * BitVec.ofNat 64 (2 ^ sc.val) + d.val

end Sys2Proof.Machine
end

