-- ==== Sys2Proof/Machine/Memory.lean ====
section
/-! DEFINITION. Loads, stores, fences and `qfence` (R104 to R110, R162), and the two moves of the strand
store buffer: STORE_DRAIN (R31) and LOAD_SATISFIED (R30). -/

namespace Sys2Proof.Machine

/-- The effective address (R106). -/
def Mem.ea (m : Mem) (t : Strand) : Word := effAddr t m.a m.b m.sc m.disp

/-- The first release or fence of chamber scope after a remote store was dropped (R351). -/
def State.dropCheck (s : State) (sc : Scope) (applies : Bool) : Res Unit :=
  match s.me.dropped with
  | none => .ok ()
  | some a => if applies && sc == .chm then .error (.drop (Trap.translationFault a)) else .ok ()

/-- An `.sc` access waits until the earlier accesses of its strand allow it (R312). -/
def State.scReady (s : State) (o : Order) : Res Unit :=
  if o == .sc && !(s.me.buf.isEmpty && s.me.loads.isEmpty && s.myCore.performed s.cur.2 .mod) then stall s
  else .ok ()

/-- Announcement of the `.sc` access `id` of the issuing strand (R312). -/
def State.announce (s : State) (id : Nat) : State :=
  { s.modMyCore (fun k => { k with scSeq := k.scSeq + 1 }) with
    scWindow := s.scWindow ++ [⟨s.myCore.lnum.toNat, s.myCore.scSeq, s.cur.1, s.cur.2, id⟩] }

/-- A load of `n` bytes at issue (R106, R107). -/
def loadBody (n : Nat) (shape : AccShape) (dst : LoadDst) (m : Mem) (o : Order) (sc : Scope) (len : Nat)
    (s : State) : Res State := do
  let ea := Mem.ea m s.me
  if m.sp then
    let locs := s.myCore.lsRange ea.toNat n
    let s ← s.touch locs
    .ok (s.issueLoad locs dst o sc ea 0 len)
  else
    s.scReady o
    let (l, s) ← s.xlate ⟨n, true, false, shape⟩ ea
    let s ← s.poisonCheck ea l
    let s ← s.touchPeer l n
    let id := s.nextId
    let s := s.issueLoad (l.span n) dst o sc ea 0 len
    .ok (if o == .sc then s.announce id else s)

/-- A store of bytes at issue (R29, R106). -/
def storeBody (shape : AccShape) (bs : List Byte) (m : Mem) (o : Order) (sc : Scope) (s : State) : Res State := do
  let ea := Mem.ea m s.me
  if m.sp then
    let locs := s.myCore.lsRange ea.toNat bs.length
    let s ← s.touch locs
    s.bufRoom 1
    .ok (if torn locs (ea.toNat % bs.length) then s.pushTorn s.nextId (locs.zip bs) o sc ea
      else s.pushEntry .store (locs.zip bs) o sc ea 0)
  else
    s.dropCheck sc (releases o sc)
    let (l, s) ← s.xlate ⟨bs.length, false, true, shape⟩ ea
    let s ← s.touchPeer l bs.length
    s.bufRoom 1
    let id := s.nextId
    let s := s.pushEntry .store ((l.span bs.length).zip bs) o sc ea 0
    .ok (if o == .sc then s.gate id else s)

/-- Bytes of an access of an integer type. -/
def Ty.bytes (ty : Ty) : Nat := ty.bits / 8

/-- `ld` (R104). -/
def execLd (gd : Guard) (d : Fin 32) (m : Mem) (ty : Ty) (order : Order) (scope : Scope) (s : State) :=
  runW gd m.disp.len s (loadBody (Ty.bytes ty) .plain (.g d ty) m order scope m.disp.len)

/-- `st` (R104). -/
def execSt (gd : Guard) (d : Fin 32) (m : Mem) (ty : Ty) (order : Order) (scope : Scope) (s : State) :=
  runW gd m.disp.len s (fun s => storeBody .plain (leBytes (Ty.bytes ty) (s.me.rg d).toNat) m order scope s)

/-- `ldp` (R104). -/
def execLdp (gd : Guard) (d c : Fin 32) (m : Mem) (order : Order) (scope : Scope) (s : State) :=
  runW gd m.disp.len s (loadBody 16 .pair (.pair d c) m order scope m.disp.len)

/-- The 16 bytes `stp` stores (R104). -/
def pairBytes (t : Strand) (d c : Fin 32) : List Byte := leBytes 8 (t.rg d).toNat ++ leBytes 8 (t.rg c).toNat

/-- `stp` (R104). -/
def execStp (gd : Guard) (d c : Fin 32) (m : Mem) (order : Order) (scope : Scope) (s : State) :=
  runW gd m.disp.len s (fun s => storeBody .pair (pairBytes s.me d c) m order scope s)

/-- A fence with an acquire half waits for the earlier loads and atomics, then voids older lines (R33, R225, R270, R291,
R350); one with a release half stands in the buffer before later stores. -/
def fenceBody (o : Order) (sc : Scope) (s : State) : Res State := do
  s.dropCheck sc true
  if sc == .str then .ok s
  else
    if acquires o sc && !s.settled then stall s
    let s := if acquires o sc then s.fresh.modMe (fun t => t.void sc s.nextId) else s
    .ok (if releases o sc then s.pushEntry (.fence (o == .ar)) [] o sc 0 0 else s)

/-- `fence` (R109). -/
def execFence (gd : Guard) (order : Order) (scope : Scope) (s : State) := runW gd 8 s (fenceBody order scope)

/-! ### Waiting for the engine queues (R162, R164) -/

/-- The trap of a queue in the error state (R164, R229). (DESIGN CHOICE, log 72) -/
def engineError (q : Fin 4) (e : QErr) : Trap :=
  { code := 0x1C, sub := q.val, addr := BitVec.ofNat 64 e.off
    detail := BitVec.ofNat 64 (2 ^ 32 * e.discarded + 2 ^ 8 * e.cause) }

/-- The first queue of a list in the error state. -/
def Core.firstError (k : Core) : List (Fin 4) → Option Trap
  | [] => none
  | q :: qs => match k.err[q] with
    | some e => some (engineError q e)
    | none => k.firstError qs

/-- Wait until the operations accepted before now into the queues `qs` are complete (R162). -/
def State.drainQueues (s : State) (qs : List (Fin 4)) : Res State :=
  let limit := match s.me.waiting with
    | .queue _ n => n
    | _ => s.nextId
  if qs.any (fun q => (s.myCore.opsIn q).any (fun i => decide (i < limit))) then
    block 9 (s.awaitObj (.queue qs limit))
  else match s.myCore.firstError qs with
    | some t => raise t
    | none => .ok s

/-- `qfence` (R162). -/
def execQfence (gd : Guard) (mask : BitVec 4) (s : State) :=
  runW gd 8 s (fun s => s.drainQueues ((List.finRange 4).filter (fun q => mask.getLsbD q.val)))

/-! ### Events -/

/-- STORE_DRAIN: an entry leaves its strand store buffer (R31, R32). -/
def execStoreDrain (core : Nat) (strand : Fin 11) (id : Nat) (s : State) := runE s (s.drain core strand id)

/-- A pending load waits for the single order of `.sc` accesses (R312). -/
def State.scLoad (s : State) (c : Nat) (h : Fin 11) (id : Nat) : Bool :=
  (s.strandAt c h).loads.any (fun l => l.id == id && l.sc)

/-- LOAD_SATISFIED: a pending load takes its value (R30). -/
def execLoadSatisfied (core : Nat) (strand : Fin 11) (id src : Nat) (s : State) :=
  runE s (if s.scLoad core strand id && !s.scTurn core id then none else s.satisfy core strand id src)

end Sys2Proof.Machine
end

