-- ==== Sys2Proof/Machine/Atomics.lean ====
section
/-! DEFINITION. The atomics (R220 to R223) and ATOMIC_PERFORM. -/

namespace Sys2Proof.Machine

/-- The effective address of an atomic (R222). -/
def Atom.ea (x : Atom) (t : Strand) : Word := t.rg x.a + x.disp.val

/-- The entry of an atomic in the buffer of the issuing strand, with its waits: the reply register (R22), and
an acquire (R33) or `.sc` order (R312). (DEDUCED, log 27) -/
def State.pushAtomic (s : State) (op : BufOp) (d : Fin 32) (ls : List Loc) (o : Order) (sc : Scope) (ea : Word) :
    State :=
  let id := s.nextId
  let s := (s.pushEntry op (ls.map (fun l => (l, 0))) o sc ea 0).await id d
  if acquires o sc then s.gate id else s

/-- The body of an integer atomic. `c`: the third operand of `acas`. (DEDUCED, log 27) -/
def atomBody (op : AtomOp) (x : Atom) (c : Word) (s : State) : Res State := do
  let ea := Atom.ea x s.me
  let n := x.ty.bits / 8
  s.dropCheck x.scope (releases x.order x.scope)
  let (l, s) ← s.xlate ⟨n, false, true, .atom⟩ ea
  let s ← if l.at' == .cell then .ok s else s.engineUse (cluOf s.cur.1) l
  let s ← s.poisonCheck ea l
  trapIf (l.at' == .cell) (Trap.atomicTarget ea)
  let s ← s.touchPeer l n
  s.bufRoom 1
  .ok (s.pushAtomic (.atom op x.ty (s.me.rg x.b) c x.d) x.d (l.span n) x.order x.scope ea)

/-- The body of `afadd`: 32 bytes, in the cell range only; the protection-fault of a poisoned sector comes before
atomic-target. (DEDUCED, log 27; DESIGN CHOICE, log 83) -/
def faddBody (x : Atom) (s : State) : Res State := do
  let ea := Atom.ea x s.me
  s.dropCheck x.scope (releases x.order x.scope)
  let (l, s) ← s.xlate ⟨32, false, true, .fadd⟩ ea
  let s ← s.poisonCheck ea l
  trapIf (l.at' != .cell) (Trap.atomicTarget ea)
  s.bufRoom 1
  .ok (s.pushAtomic (.fadd x.ty (s.me.rg x.b) s.myCore.e4m3 x.d) x.d (l.span 32) x.order x.scope ea)

def execAadd (x : Atom) (s : State) := runW x.gd x.disp.len s (atomBody .aadd x 0)
def execAmin (x : Atom) (s : State) := runW x.gd x.disp.len s (atomBody .amin x 0)
def execAmax (x : Atom) (s : State) := runW x.gd x.disp.len s (atomBody .amax x 0)
def execAand (x : Atom) (s : State) := runW x.gd x.disp.len s (atomBody .aand x 0)
def execAor (x : Atom) (s : State) := runW x.gd x.disp.len s (atomBody .aor x 0)
def execAxor (x : Atom) (s : State) := runW x.gd x.disp.len s (atomBody .axor x 0)
def execAswap (x : Atom) (s : State) := runW x.gd x.disp.len s (atomBody .aswap x 0)
/-- `acas`: its 64-bit form has displacement 0 (R221). -/
def execAcas (x : Atom) (c : Fin 32) (s : State) :=
  runW x.gd x.disp.len s (fun s => atomBody .acas x (s.me.rg c) s)
def execAfadd (x : Atom) (s : State) := runW x.gd x.disp.len s (faddBody x)

/-! ### ATOMIC_PERFORM (R220, R222) -/

/-- The new value of an integer atomic (R221): `old` and `b` read under the type. -/
def atomNew (op : AtomOp) (ty : Ty) (old b c : Int) : Int :=
  match op with
  | .aadd => old + b
  | .amin => if old ≤ b then old else b
  | .amax => if old ≤ b then b else old
  | .aand => (patternOf ty old &&& patternOf ty b : Nat)
  | .aor => (patternOf ty old ||| patternOf ty b : Nat)
  | .axor => (patternOf ty old ^^^ patternOf ty b : Nat)
  | .aswap => b
  | .acas => if old = b then c else old

/-- A reply that a strand waits for: the register, the gate and the acquire (R22, R33, R225). -/
def Strand.takeReply (t : Strand) (id : Nat) (d : Fin 32) (scope : Scope) (now : Nat) (x : Word) : Strand :=
  let t := if t.pending (.g d) && t.pend.any (fun y => y.1 == id) then t.wg d x else t
  let t := if t.gates.contains id then t.void scope now else t
  t.release id

/-- The reply to access `id` reaches strand `h` of core `c`; a pair's agreed point takes it too (R237). -/
def State.reply (s : State) (c : Nat) (h : Fin 11) (id : Nat) (d : Fin 32) (scope : Scope) (x : Word) : State :=
  let now := s.nextId
  let f (k : Core) : Core := { k with strands := k.strands.set h (k.strands[h].takeReply id d scope now x) }
  { s.fresh.modCore c f with
    pairs := s.pairs.map (fun p => if p.leader = c then { p with snap := f p.snap } else p) }

/-- The bytes that an atomic writes, and its result. -/
def atomResult (op : AtomOp) (ty : Ty) (old : List Byte) (b c : Word) : List Byte × Word :=
  let o := ty.read (leNat old)
  let y := atomNew op ty o (ty.read b.toNat) (ty.read c.toNat)
  (leBytes (ty.bits / 8) (patternOf ty y), wordOfInt o)

/-- The caches that the atomic's own core reads through take its write (R153, R224). -/
def State.refresh (s : State) (c : Nat) (bs : List (Loc × Byte)) : State :=
  let s := s.modCore c (fun k => k.updatePdc { id := 0, op := .store, bytes := bs })
  s.modCluster (cluOf c) (fun k =>
    { k with cache := bs.foldl (fun m x =>
        match sfind m (lineOf x.1.addr) with
        | none => m
        | some l => sput m (lineOf x.1.addr) { l with data := setAt l.data (x.1.addr % 64) x.2 }) k.cache })

/-- The integer atomic `o` of core `c` is performed at its home (R220): the state, and what it returns; a device register
gives a free value. (DEDUCED, log 63) -/
def State.atomAt (s : State) (c : Nat) (o : OutEntry) (op : AtomOp) (ty : Ty) (b x : Word) :
    Option (State × Word) :=
  let ls := o.e.locs
  match ls with
  | [] => none
  | l :: _ =>
    match l.at' with
    | .mem _ =>
      let r := atomResult op ty (ls.map (fun l => memGet s.mem l.addr)) b x
      let bs := ls.zip r.1
      some ((s.writeMem bs).refresh c bs, r.2)
    | .peer gx gy =>
      match s.memberOf o.task gx gy with
      | none => some (s, wordOfInt 0)
      | some m =>
        let rd := (s.core m).readBytes (ls.map (fun l => s.peerLoc m l.addr))
        let r := atomResult op ty rd.1 b x
        some (((s.setCore m rd.2.1).lsError c o.strand rd.2.2.isSome ls o.e.pc o.e.iw).modCore m (fun k =>
          k.writeBytes ((ls.map (fun l => k.lsLoc l.addr)).zip r.1)), r.2)
    | .range v =>
      match s.handle? v with
      | none => none
      | some h =>
        if h.holder.isSome then none
        else
          let r := atomResult op ty (ls.map (fun l => memGet h.data l.addr)) b x
          some (s.rangeWrite v (ls.zip r.1), r.2)
    | .device =>
      some (s, wordOfInt (ty.read (leNat ((List.range (ty.bits / 8)).map (Config.outsideByte s.nextId)))))
    | _ => none

/-- The value `afadd` adds (R222). -/
def faddValue (ty : Ty) (mode : Bool) (x : Word) : XReal :=
  match floatOf mode ty with
  | some f => f.value (x.toNat % 2 ^ ty.bits)
  | none => .num false 0 0 1

/-- ATOMIC_PERFORM: entry `id` of core `core` is performed, when it is the next of its core and no older store
to its home is on the way; one for another module leaves this one (R349). -/
def State.performAtomic (s : State) (core id : Nat) : Option State :=
  match s.outEntry core id with
  | none => none
  | some o =>
    if !(s.core core).firstOut id || s.olderSameHome core o || o.e.locs.any (s.clusterAhead (cluOf core)) then none
    else if o.e.locs.any s.freedRange then s.freedAccess core o
    else match o.e.op with
      | .atom op ty b x d =>
        match o.e.locs.head? with
        | some ⟨.remote r, a⟩ =>
          if o.stage = 0 then some ((s.stageOut core id).txTo r 0 a (.atomic r a o.e.op)) else none
        | _ =>
          match s.atomAt core o op ty b x with
          | none => none
          | some (s, y) => some ((s.reply core o.strand id d o.e.scope y).dropOut core id)
      | .fadd ty x mode d =>
        match o.e.locs with
        | [] => none
        | l :: _ =>
          let n := l.addr / 32
          let w := ((s.cluster (cluOf core)).cell n).w.add (faddValue ty mode x)
          let s := s.modCluster (cluOf core) (fun k => k.setCell n { k.cell n with w := w })
          some ((s.reply core o.strand id d o.e.scope (BitVec.ofNat 64 w.status)).dropOut core id)
      | _ => none

def execAtomicPerform (core : Nat) (id : Nat) (s : State) := runE s (s.performAtomic core id)

end Sys2Proof.Machine
end

