-- ==== Sys2Proof/Machine/Records.lean ====
section
/-! DEFINITION. Task records (R247), the logical cores of tasks (R245, R265), and the members of a domain (R203). -/

namespace Sys2Proof.Machine

/-! ### Fields of a record (R247) -/

def Rec.dword (r : Rec) (i : Nat) : Nat := (r.dwords.getD i 0).toNat
def Rec.cl (r : Rec) : Bool := bitAt (r.dword 0) 63
def Rec.h (r : Rec) : Nat := bitsN (r.dword 0) 62 60 + 1
def Rec.w (r : Rec) : Nat := bitsN (r.dword 0) 59 57 + 1
def Rec.code (r : Rec) : Nat := bitsN (r.dword 0) 56 0
def Rec.frame (r : Rec) : Nat := r.dword 1
def Rec.key (r : Rec) : Nat := bitsN (r.dword 2) 63 48
def Rec.queue (r : Rec) : Nat := bitsN (r.dword 2) 47 42
def Rec.bx (r : Rec) : Bool := bitAt (r.dword 2) 41
def Rec.join (r : Rec) : Nat := bitsN (r.dword 2) 31 0
def Rec.sets (r : Rec) : Nat := r.dword 3

/-! ### Logical cores -/

/-- The cores of a running task that have not returned, with their logical numbers. -/
def State.runningCores (s : State) (t : Task) : List (Nat × Nat) :=
  if t.saved.isEmpty then (t.cores.zip t.lnums).filter (fun x => (s.core x.1).task == some t.id) else []

/-- The logical cores of a task that are members of its domains, each with the physical core it has or had
(R203: a saved gang stays a member). -/
def State.taskMembers (s : State) (t : Task) : List (Nat × Nat) :=
  if t.saved.isEmpty then s.runningCores t
  else (((t.cores.zip t.lnums).zip t.saved).filter (fun x => !x.2.returned)).map Prod.fst

/-- The running core of a logical number of a context. -/
def State.coreByLnum (s : State) (ctx n : Nat) : Option Nat :=
  ((s.tasks.filter (fun t => t.ctx == ctx)).flatMap s.runningCores).findSome? (fun x =>
    if x.2 = n then some x.1 else none)

/-- A saved gang of the context holds the logical core: its task and the place in it. -/
def State.savedByLnum (s : State) (ctx n : Nat) : Option (Nat × Nat) :=
  (s.tasks.filter (fun t => t.ctx == ctx && !t.saved.isEmpty)).findSome? (fun t =>
    let i := t.lnums.idxOf n
    match t.saved[i]? with
    | some k => if k.returned then none else some (t.id, i)
    | none => none)

/-- The saved state of a core changes. -/
def State.modSaved (s : State) (id i : Nat) (f : Core → Core) : State :=
  s.modTask id (fun t => { t with saved := t.saved.mapIdx (fun j k => if j = i then f k else k) })

/-- The state of a logical core changes, running or saved. -/
def State.modLnum (s : State) (ctx n : Nat) (f : Core → Core) : State :=
  match s.coreByLnum ctx n with
  | some c => s.modCore c f
  | none => match s.savedByLnum ctx n with
    | some (id, i) => s.modSaved id i f
    | none => s

/-! ### Places of messages (R211, R246) -/

/-- Message `m` takes a place in core `c`; `none` when there is no room. An overflow area that cannot be written ends the
tasks of its context. (DESIGN CHOICE, log 37) -/
def State.hand (s : State) (c : Nat) (m : Msg) : Option State :=
  let k := s.core c
  (k.place m).map (fun k' =>
    if k'.ovf.length = k.ovf.length || k.task.isNone then s.setCore c k'
    else match s.overflowFault k.ctx true k.lnum.toNat k.ovf.length with
    | some e => s.stopCtx k.ctx e
    | none => (s.writeOverflow k.ctx k.lnum.toNat).setCore c k')

/-- Message `m` takes a place in the overflow area of the saved core at `i` of task `id`.
(DESIGN CHOICE, log 37) -/
def State.handSaved (s : State) (id i : Nat) (m : Msg) : Option State :=
  match (s.task? id).bind (fun t => t.saved[i]?) with
  | none => none
  | some k =>
    if 2048 ≤ k.ovf.length then none
    else match s.overflowFault k.ctx true k.lnum.toNat k.ovf.length with
      | some e => some (s.stopCtx k.ctx e)
      | none => some ((s.writeOverflow k.ctx k.lnum.toNat).modSaved id i (fun k => { k with ovf := k.ovf ++ [m] }))

/-! ### Domains (R203, R207) -/

/-- What names a domain besides its level: the key and the place. -/
def domainOf (t : Task) (c lvl : Nat) : Nat × Nat :=
  match lvl with
  | 0 => (0, t.id)
  | 1 => (t.record.key, cluOf c)
  | 2 => (t.record.key, dieOf c)
  | _ => (t.record.key, 0)

/-- The logical cores that are members of the domain of level 0 to 3 with the name `x` (R203). -/
def State.domainMembers (s : State) (ctx lvl : Nat) (x : Nat × Nat) : List Nat :=
  ((s.tasks.filter (fun t => t.ctx == ctx)).flatMap (fun t =>
    (s.taskMembers t).filter (fun y => domainOf t y.1 lvl == x))).map Prod.snd

/-- The members of the domain of level 0 to 3 in which core `c` takes part for task `t`. -/
def State.members (s : State) (t : Task) (c lvl : Nat) : List Nat := s.domainMembers t.ctx lvl (domainOf t c lvl)

/-! ### Chambers -/

def State.chamber (s : State) (n : Nat) : Option Chamber := sfind s.chambers n

/-- Chamber `n` is active on this module for a context (R355). -/
def State.chamberFor (s : State) (n ctx : Nat) : Option Chamber := (s.chamber n).filter (fun k => k.ctx == ctx)

end Sys2Proof.Machine
end

