-- ==== Sys2Proof/Machine/Strands.lean ====
section
/-! DEFINITION. Helper strands (R12, R17, R18, R35, R111 to R114) and the release of stream ports (R137). -/

namespace Sys2Proof.Machine

/-- The privilege of the strands of the issuing core: the context's, or of a core without a task its control strand's (R14,
R243, R338). -/
def State.strandPriv (s : State) : Bool := if s.myCore.task.isSome then (s.ctx s.myCore.ctx).priv else s.me.priv

/-- The state of a helper that becomes live (R12, R14, R199): arguments, PC and the control strand's domain; it uses no line
from before `since`, the start of its task (R251). -/
def helperStart (priv : Bool) (control : Strand) (pc : Pc) (a1 a2 a3 a4 : Word) (now since : Nat) : Strand :=
  let z : Strand := {}
  { z with
    pc := pc
    g := (((z.g.set 1 a1).set 2 a2).set 3 a3).set 4 a4
    priv := priv
    live := true
    dom := control.dom
    stamp := now
    voidP := since
    voidC := since }

/-- The target of `xstart` (R111). -/
def xstartTarget (t : Strand) (off : BitVec 32) : Word := pcWord t + 4 * off.signExtend 64

/-- An instruction that only the control strand may issue (R18, R111, R112, R206, R236, R254). -/
def State.controlOnly (s : State) : Res Unit :=
  trapIf (decide (s.cur.2 ≠ 0)) (Trap.illegalInstruction (pcWord s.me))

/-- Only a helper may issue `xend` (R18, R113). -/
def State.helperOnly (s : State) : Res Unit :=
  trapIf (decide (s.cur.2 = 0)) (Trap.illegalInstruction (pcWord s.me))

def xstartBody (h : Fin 16) (off : BitVec 32) (a1 a2 a3 a4 : Fin 32) (s : State) : Res State := do
  s.controlOnly
  let t := s.me
  let target := xstartTarget t off
  trapIf (decide (2 ^ 57 ≤ target.toNat)) (Trap.badTarget target)
  let k : Fin 11 := Fin.ofNat 11 h.val
  trapIf (s.strandAt s.cur.1 k).live { code := 0x08, detail := BitVec.ofNat 64 h.val }
  if !t.buf.isEmpty then stall s
  .ok (s.modStrandAt s.cur.1 k (fun _ =>
    helperStart s.strandPriv t (target.setWidth 57) (t.rg a1) (t.rg a2) (t.rg a3) (t.rg a4) s.myCore.slot
      (s.myCore.task.getD 0)))

/-- `xstart` (R111). -/
def execXstart (gd : Guard) (h : Fin 16) (off : BitVec 32) (a1 a2 a3 a4 : Fin 32) (s : State) :=
  runW gd 12 s (xstartBody h off a1 a2 a3 a4)

/-- The helpers that `xjoin` names (R112). -/
def joinMask (t : Strand) : MaskSrc → BitVec 16
  | .imm m => m
  | .reg a => (t.rg a).setWidth 16

/-- The wait for the helpers of a mask. -/
def State.awaitHelpers (s : State) (m : BitVec 16) : Res Unit :=
  if s.myCore.anyLive m then block 6 (s.awaitObj (.helpers m)) else .ok ()

/-- `xjoin` (R112). -/
def execXjoin (gd : Guard) (m : MaskSrc) (s : State) :=
  runW gd 8 s (fun s => do
    s.controlOnly
    s.awaitHelpers (joinMask s.me m)
    .ok s)

/-- The ports of strand `h` are released (R137). -/
def Core.releasePorts (k : Core) (h : Fin 11) : Core :=
  { k with ports := k.ports.map (fun p => if p.any (fun x => x.strand == h) then none else p) }

/-- The helper becomes idle: its flags join those of strand 0 (R17, R113, R137). -/
def State.endHelper (s : State) : State :=
  let f := s.me.fflags
  let s := s.modStrandAt s.cur.1 0 (fun t => t.raise f)
  let s := s.modMyCore (fun k => k.releasePorts s.cur.2)
  { s.modMe (fun _ => {}) with retired := true }

/-- `xend` (R113): it waits for the helper's stores, and for its loads and atomics too.
(DESIGN CHOICE, log 64) -/
def execXend (gd : Guard) (s : State) : Host.Outcome State Fault Refusal :=
  if s.me.guardOn gd then
    conclude s (do
      s.helperOnly
      if !s.me.buf.isEmpty || !s.settled then stall s
      .ok s) State.endHelper
  else .next (s.retire 8)

end Sys2Proof.Machine
end

