-- ==== Sys2Proof/Machine/SetCheck.lean ====
section
/-! DEFINITION. The declared sets and the set checker (R308 to R310). -/

namespace Sys2Proof.Machine

/-- Two handle values name one handle, or handles imported from one export (R310). -/
def State.sameObject (s : State) (a b : Word) : Bool :=
  a == b || match s.handle? a, s.handle? b with
    | some x, some y => x.imported.isSome && y.imported.isSome && x.token == y.token
    | _, _ => false

/-- The rows of two entries overlap; the first common row. -/
def rowOverlap (a b : SetEntry) : Option Nat :=
  let lo := max a.first b.first
  if a.holds lo && b.holds lo then some lo else none

/-- Two entries conflict, with the first conflicting row (R310). -/
def State.entryConflict (s : State) (a b : SetEntry) : Option Nat :=
  if s.sameObject a.h b.h && (a.mode / 2 % 2 == 1 || b.mode / 2 % 2 == 1) then rowOverlap a b else none

/-- The first live entry of task `t` that conflicts with one of `es`, with its row. -/
def State.conflictWith (s : State) (es : List SetEntry) (t : Task) : Option Nat :=
  if !t.live then none
  else es.findSome? (fun a => (t.entries.filter (fun b => !b.retired)).findSome? (fun b => s.entryConflict a b))

/-- The conflict of the live ones of the entries `es` of task `id`, whose record notes the tasks `notes`: the handle, the row and
the other task's first logical core. -/
def State.conflict (s : State) (id : Nat) (es : List SetEntry) (notes : List Nat) : Option (Word × Nat × Nat) :=
  (es.filter (fun a => !a.retired)).findSome? (fun a =>
    (s.tasks.filter (fun t => t.id != id && !notes.contains t.id)).findSome? (fun t =>
      (s.conflictWith [a] t).map (fun r => (a.h, r, t.lnums.headD 0xFFFF))))

/-- The conflict of a task that is held frozen still stands (R233, R310). -/
def State.conflictStands (s : State) (id : Nat) : Bool :=
  match s.task? id with
  | none => false
  | some t => (s.conflict id t.entries t.record.notes).isSome

/-- Entries of task `id` that conflict with a record's list are retired (R310). -/
def State.retireEntries (s : State) (id : Nat) (es : List SetEntry) : State :=
  s.modTask id (fun t =>
    { t with entries := t.entries.map (fun b =>
        if es.any (fun a => (s.entryConflict a b).isSome) then { b with retired := true } else b) })

end Sys2Proof.Machine
end

