-- ==== Sys2Proof/Machine/SysRegs.lean ====
section
/-! DEFINITION. The system registers: `sysrd` and `syswr` (R8, R101 to R103) over the maps of every level, and
`thaw` (R233). -/

namespace Sys2Proof.Machine

/-! ### The words of the registers above the core -/

def Power.isOnline : Power → Bool
  | .online | .parking => true
  | _ => false

def Power.isParked : Power → Bool
  | .parking | .parked | .unparking => true
  | _ => false

/-- Bit `d` of a mask over the dies. -/
def State.dieMask (s : State) (f : Die → Bool) : Nat :=
  (List.finRange 8).foldl (fun a d => a + 2 ^ d.val * b2n (f s.dies[d])) 0

/-- `%mod` (R292). -/
def State.modWord (s : State) : Nat :=
  2 ^ 56 * s.dieMask (fun d => d.power.isParked) + 2 ^ 48 * s.dieMask (fun d => d.power.isOnline)
    + 2 ^ 47 * b2n s.poison + 2 ^ 46 * b2n (s.clusters.any (fun x => x.2.halt)) + 2 ^ 16 * s.rev.toNat
    + s.part.toNat

/-- `%disp` (R260). -/
def Die.word (d : Die) (ctx : Nat) : Nat :=
  2 ^ 48 * d.fcast.toNat + 2 ^ 32 * d.slice.toNat + 2 ^ 24 * d.age.toNat + 2 ^ 18 * (ctx % 64)

/-- `%pcap` (R318). -/
def State.pcapWord (s : State) : Nat :=
  2 ^ 63 * b2n s.lock + 2 ^ 48 * s.str.toNat + 2 ^ 33 * s.a10.toNat + 2 ^ 22 * s.a1.toNat + s.ceil.toNat

/-- `%pst` (R322). -/
def State.pstWord (s : State) : Nat :=
  (List.finRange 8).foldl (fun a d => a + 2 ^ (32 + 4 * d.val) * s.dies[d].cur.toNat) s.req.toNat

/-- `%ctxcmd` (R324). -/
def State.ctxcmdWord (s : State) : Nat :=
  2 ^ 60 * s.ctxRes.toNat + 2 ^ 8 * s.ctxOp.toNat + s.ctxNum.toNat

/-- `%feat` (R332). -/
def State.featWord (s : State) : Nat :=
  0x1D + 2 * b2n (s.part != 0x0108 && s.clusters.all (fun x =>
    x.2.harvest &&& ~~~x.2.stacked == 0))

/-- A register of the hubs (R317). -/
def State.hubWord (s : State) (n : Nat) : Option Nat :=
  match n with
  | 0x81 => some s.pcapWord
  | 0x82 => some s.pstWord
  | 0x90 => some s.ctxbase.toNat
  | 0x91 => some s.ctxcmdWord
  | 0x92 => some s.ctxen.toNat
  | 0x93 => some (2 ^ 63 * b2n s.invBusy + s.inv.toNat)
  | 0xA0 => some (2 ^ 57 * s.preqHead.toNat + s.preqBase.toNat + 2 ^ 5 * s.preqTail.toNat)
  | 0xA1 => some 0
  | 0xA8 => some (2 ^ 57 * s.elogNext.toNat + s.elogBase.toNat)
  | 0xB0 => some s.featWord
  | _ => none

/-- The value of register `n` as the issuing strand reads it; `none` when no register has the number (R103). -/
def State.sysReg (s : State) (n : Nat) : Option Nat :=
  let k := s.myCore
  let t := s.me
  if n = 0 then some (t.ssw s.cur.2.val).toNat
  else if n = 1 then some t.fflags.toNat
  else if n = 2 then some (b2n k.e4m3)
  else if n = 3 then some t.dom.word.toNat
  else if n = 4 then some k.late.word
  else if 0x10 ≤ n ∧ n < 0x13 then some (k.org.toList.getD (n - 0x10) 0).toNat
  else if 0x13 ≤ n ∧ n < 0x16 then some (k.ext.toList.getD (n - 0x13) 0).toNat
  else if n = 0x20 then some (s.lsWord s.cur.1).toNat
  else if n = 0x21 then some (k.word s.cur.1).toNat
  else if n = 0x22 then some k.lprog.word
  else if n = 0x40 then some ((s.cluster (cluOf s.cur.1)).cluWord (cluOf s.cur.1))
  else if n = 0x41 then some (s.cluster (cluOf s.cur.1)).hchain.toNat
  else if n = 0x60 then some (s.dies[(Fin.ofNat 8 (dieOf s.cur.1))].word k.ctx)
  else if n = 0x80 then some s.modWord
  else s.hubWord n

/-! ### sysrd -/

/-- Lowest bit and width of the part of a register that is named. -/
def fieldBits : Option RegField → Nat × Nat
  | none => (0, 64)
  | some f => (f.lo.val, f.w1.val + 1)

/-- A module register is read at its hub once the writes of the own core have arrived there (R102, R317). -/
def sysrdBody (d : Fin 32) (reg : BitVec 16) (f : Option RegField) (s : State) : Res State :=
  if 0x81 ≤ reg.toNat ∧ s.hubWrites.any (fun w => w.core == some s.cur.1) then stall s
  else match s.sysReg reg.toNat with
    | none => raise (Trap.illegalInstruction (pcWord s.me))
    | some x =>
      let b := fieldBits f
      .ok (s.modMe (fun t => t.wg d (BitVec.ofNat 64 (x / 2 ^ b.1 % 2 ^ b.2))))

/-- `sysrd` (R101). -/
def execSysrd (gd : Guard) (d : Fin 32) (reg : BitVec 16) (f : Option RegField) (s : State) :=
  runW gd (fieldLen f) s (sysrdBody d reg f)

/-! ### syswr -/

/-- A write: the bits named, and the value at their places. -/
structure RegPut where
  mask : Nat
  val : Nat

def putOf (f : Option RegField) (x : Word) : RegPut :=
  let b := fieldBits f
  ⟨(2 ^ b.2 - 1) * 2 ^ b.1, x.toNat % 2 ^ b.2 * 2 ^ b.1⟩

/-- Bits [lo+w-1:lo] after a write, where they read and write. -/
def RegPut.rw (p : RegPut) (lo w old : Nat) : Nat :=
  let m := p.mask / 2 ^ lo % 2 ^ w
  (old &&& (2 ^ w - 1 - m)) ||| (p.val / 2 ^ lo % 2 ^ w &&& m)

/-- A bit after a write, where a one clears it. -/
def RegPut.w1c (p : RegPut) (i : Nat) (old : Bool) : Bool := old && !(bitAt p.mask i && bitAt p.val i)

/-- The entries of `%hchain` as a write would leave them are legal (R234). -/
def Cluster.chainOk (k : Cluster) (x : BitVec 28) : Bool :=
  let k' := { k with hchain := x }
  let es := (List.range 4).filterMap k'.entry
  es.all (fun p => k.good p && p != k.sup) && decide es.Nodup

/-- The state after a write of register `n` below the hubs (R15, R16, R66, R149, R150, R190, R199, R208, R234,
R260, R292). -/
def State.sysPut (s : State) (n : Nat) (p : RegPut) (priv : Bool) : State :=
  if n = 0 then s.modMe (fun t => { t with sx := p.w1c 20 t.sx, slicefix := p.w1c 21 t.slicefix })
  else if n = 1 then s.modMe (fun t => { t with fflags := BitVec.ofNat 6 (p.rw 0 6 t.fflags.toNat) })
  else if n = 2 then s.modMyCore (fun k => { k with e4m3 := p.rw 0 1 (b2n k.e4m3) == 1 })
  else if n = 3 then s.modMe (fun t =>
    let l := p.rw 0 3 t.dom.lvl.toNat
    if 4 < l then t else { t with dom := { t.dom with lvl := BitVec.ofNat 3 l } })
  else if n = 4 then s.modMyCore (fun k =>
    { k with late :=
      { k.late with cyc := BitVec.ofNat 32 (p.rw 32 32 k.late.cyc.toNat)
                    cnt := BitVec.ofNat 16 (p.rw 16 16 k.late.cnt.toNat) } })
  else if n = 0x20 then s.modMyCore (fun k => { k with stray := p.w1c 63 k.stray, ue := p.w1c 62 k.ue })
  else if n = 0x21 then
    if priv then s.modMyCore (fun k => { k with ecc := BitVec.ofNat 16 (p.rw 48 16 k.ecc.toNat) }) else s
  else if n = 0x22 then s.modMyCore (fun k =>
    { k with lprog := { k.lprog with start := BitVec.ofNat 9 (p.rw 41 9 k.lprog.start.toNat) } })
  else if n = 0x41 then
    if priv then s.modCluster (cluOf s.cur.1) (fun k =>
      let x := BitVec.ofNat 28 (p.rw 0 28 k.hchain.toNat)
      if k.chainOk x then { k with hchain := x } else k)
    else s
  else if n = 0x60 then
    if priv then s.modDie (Fin.ofNat 8 (dieOf s.cur.1)) (fun d =>
      let sl := p.rw 32 16 d.slice.toNat
      { d with slice := if sl = 0 then d.slice else BitVec.ofNat 16 sl
               age := BitVec.ofNat 8 (p.rw 24 8 d.age.toNat) })
    else s
  else if n = 0x80 then { s with poison := p.w1c 47 s.poison }
  else s

/-- A write of a hub register travels to the hubs (R317). -/
def syswrBody (a : Fin 32) (reg : BitVec 16) (f : Option RegField) (s : State) : Res State :=
  match s.sysReg reg.toNat with
  | none => raise (Trap.illegalInstruction (pcWord s.me))
  | some _ =>
    let x := s.me.rg a
    let b := fieldBits f
    if 0x81 ≤ reg.toNat then
      .ok { s with hubWrites := s.hubWrites ++ [⟨reg.toNat, b.1, b.2, x, some s.cur.1, s.me.priv⟩] }
    else .ok (s.sysPut reg.toNat (putOf f x) s.me.priv)

/-- `syswr` (R101). -/
def execSyswr (gd : Guard) (a : Fin 32) (reg : BitVec 16) (f : Option RegField) (s : State) :=
  runW gd (fieldLen f) s (syswrBody a reg f)

/-- Write `w` of a module register takes effect at the hubs: the writes of one core arrive in the order of their issue,
those of the host at any time (R317). -/
def State.takeWrite (s : State) (w : RegWrite) : Option State :=
  match w.core with
  | none => some s
  | some c =>
    if (s.hubWrites.find? (fun x => x.core == some c)) == some w then
      some { s with hubWrites := s.hubWrites.erase w }
    else none

/-- The writer may write privileged fields: a privileged strand, or the host once the module has booted (R317, R330). -/
def State.mayWrite (s : State) (w : RegWrite) : Bool := if w.core.isNone then !s.recovery else w.priv

/-- The bits that a write names, and the value at their places. -/
def putOfWrite (w : RegWrite) : RegPut :=
  ⟨(2 ^ w.width - 1) * 2 ^ w.lo, w.value.toNat % 2 ^ w.width * 2 ^ w.lo⟩

/-! ### thaw (R233) -/

/-- The stores of the issuing strand are performed at a scope: what a release waits for.
(DEDUCED, log 55) -/
def State.released (s : State) (sc : Scope) : Bool := s.me.buf.isEmpty && s.myCore.performed s.cur.2 sc

/-- Core `c` resumes, and its partner with it unless that is contained (R238); a task that a placement conflict held becomes live (R310). -/
def State.resume (s : State) (c : Nat) : State :=
  let k := s.core c
  let s := match k.conflict, k.task with
    | true, some id => s.modTask id (fun t => { t with live := true })
    | _, _ => s
  let s := s.thawCore c
  match s.partner c with
  | some d => if s.contained d then s else s.thawCore d
  | none => s

def thawBody (d a : Fin 32) (s : State) : Res State := do
  trapIf (!s.me.priv) (Trap.illegalInstruction (pcWord s.me))
  if !s.released .clu then stall s
  let p := (s.me.rg a).toNat % 64
  let c := 36 * cluOf s.cur.1 + p
  let k := s.core c
  let put (s : State) (x : Word) : State := s.modMe (fun t => t.wg d x)
  if 35 < p || !k.frozen then .ok (put s 1)
  else if s.contained c then .ok (put s 2)
  else if k.conflict && k.task.any s.conflictStands then .ok (put s 3)
  else .ok (put (s.resume c) 0)

/-- `thaw` (R233). -/
def execThaw (gd : Guard) (d a : Fin 32) (s : State) := runW gd 8 s (thawBody d a)

end Sys2Proof.Machine
end

