-- ==== Sys2Proof/Machine/Cisterns.lean ====
section
/-! DEFINITION. Cisterns (R154 to R159): the instructions and the advance of an operand. -/

namespace Sys2Proof.Machine

/-- Cistern `c` of the issuing core. -/
def State.cistern (s : State) (c : Fin 16) : Cistern := s.myCore.cist[c]

def State.modCistern (s : State) (c : Fin 16) (f : Cistern → Cistern) : State :=
  s.modMyCore (fun k => { k with cist := k.cist.set c (f k.cist[c]) })

/-- A defined cistern, or the trap (R158, R229). -/
def State.defined (s : State) (c : Fin 16) : Res Cistern :=
  let x := s.cistern c
  if x.defined then .ok x else raise (Trap.cisternUndefined c.val)

/-- Local-store address of slot `j` positions after pointer `p`. -/
def Cistern.slotAt (x : Cistern) (p j : Nat) : Nat := x.base.toNat + (p + j) % x.n * x.slot

/-- An advance on the consumer's side by `k` slots, held until `cond` (R155, R158). -/
def Cistern.takeCons (x : Cistern) (k : Nat) (h : Held) : Cistern :=
  { x with filled := x.filled - k, cp := (x.cp + k) % x.n, held := x.held ++ [h] }

/-- An advance on the producer's side. -/
def Cistern.takeProd (x : Cistern) (k : Nat) (h : Held) : Cistern :=
  { x with free := x.free - k, pp := (x.pp + k) % x.n, held := x.held ++ [h] }

/-- An advance by `k` slots under identifier `id` is taken back, released or not (R25). -/
def Cistern.untake (x : Cistern) (prod : Bool) (k id : Nat) : Cistern :=
  let back (p : Nat) : Nat := (p + (x.n - k % x.n)) % x.n
  let spent (n : Nat) : Nat := if x.held.any (fun h => h.id == id) then n else n - k
  let held := x.held.filter (fun h => h.id != id)
  if prod then { x with free := x.free + k, pp := back x.pp, filled := spent x.filled, held := held }
  else { x with filled := x.filled + k, cp := back x.cp, free := spent x.free, held := held }

/-- The advance of cistern `c` by `k` slots on a side; `of`: the engine operation that it is made for. -/
def State.advance (s : State) (c : Fin 16) (prod : Bool) (k : Nat) (cond : List RelCond)
    (of : Option (Fin 4 × Nat) := none) : State :=
  let h : Held := { id := s.nextId, prod := prod, k := k, cond := cond, of := of }
  s.fresh.modCistern c (fun x => if prod then x.takeProd k h else x.takeCons k h)

/-- Operations of the engine queues that name cistern `c` (R157, R158). -/
def Core.opsNaming (k : Core) (c : Fin 16) : List Nat :=
  (k.eq0.filter (fun o => o.names.contains c)).map Eq0Op.id
    ++ ((k.eq1 ++ k.eq2).filter (fun o => o.side == .cis c)).map CopyOp.id

/-- Operations of EQ0 that write the slots of cistern `c` at its pointer (R158). -/
def Core.opsWriting (k : Core) (c : Fin 16) : List Nat := (k.eq0.filter (fun o => o.dst == some c)).map Eq0Op.id

/-! ### The instructions -/

def cdefBody (c : Fin 16) (a : Fin 32) (off : BitVec 20) (slot1 n1 : BitVec 8) (s : State) : Res State := do
  let b := (s.me.rg a + off.setWidth 64).setWidth 20
  trapIf (b.toNat % 16 != 0) (Trap.badCistern (b.setWidth 64) c.val)
  if !(s.cistern c).held.isEmpty || !(s.myCore.opsNaming c).isEmpty then stall s
  .ok (s.modCistern c (fun _ =>
    { defined := true, base := b, slot := 16 * (slot1.toNat + 1), n := n1.toNat + 1, free := n1.toNat + 1 }))

/-- `cdef` (R157). -/
def execCdef (gd : Guard) (c : Fin 16) (a : Fin 32) (off : BitVec 20) (slot1 n1 : BitVec 8) (s : State) :=
  runW gd 12 s (cdefBody c a off slot1 n1)

/-- The count of `cadv` and `cwait` (R158). -/
def countOf (t : Strand) : CntSrc → Nat
  | .imm k => k.toNat
  | .reg a => (t.rg a).toNat

/-- The wait for cistern slots, with the code of what is short (R21, R23). -/
def State.slotWait (s : State) (need : List (Fin 16 × Bool × Nat)) : Res Unit :=
  let code := s.myCore.slotCode need
  if code = 0 then .ok () else block code (s.awaitObj (.slots need))

/-- The slots that operands wait for, sources and destinations. -/
def slotNeed (w : Nat) (srcs dst : List (Fin 16)) : List (Fin 16 × Bool × Nat) :=
  srcs.map (fun c => (c, false, w)) ++ dst.map (fun c => (c, true, w))

/-- The checks and the wait that `cadv` and `cwait` share: the count, once it may go on. -/
def State.awaitSlots (s : State) (c : Fin 16) (prod : Bool) (src : CntSrc) : Res Nat := do
  let x ← s.defined c
  let k := countOf s.me src
  trapIf (k == 0 || decide (x.n < k)) (Trap.badCistern (x.base.setWidth 64) c.val)
  s.slotWait [(c, prod, k)]
  .ok k

/-- Every operation in the engine queues. -/
def Core.queued (k : Core) : List Nat :=
  k.eq0.map Eq0Op.id ++ (k.eq1 ++ k.eq2).map CopyOp.id ++ k.eq3.map CollOp.id

/-- The wait for the accesses that earlier-accepted operations make to `n` slots by their addresses (R158). -/
def State.slotsClear (s : State) (c : Fin 16) (prod : Bool) (n : Nat) : List RelCond :=
  let x := s.cistern c
  let ls := (List.range n).flatMap (fun j => s.myCore.lsRange (x.slotAt (if prod then x.pp else x.cp) j) x.slot)
  if s.myCore.queued.isEmpty then [] else [.clear prod s.myCore.queued ls]

/-- `cadv.cons`: the slots return once the earlier loads are done, and what earlier-accepted operations read of them (R158).
An engine operation has read its operands when it is accepted; a copy reads the slots that it takes itself. -/
def execCadvCons (gd : Guard) (c : Fin 16) (k : CntSrc) (s : State) :=
  runW gd 8 s (fun s => do
    let n ← s.awaitSlots c false k
    .ok (s.advance c false n
      (.loads s.cur.2 (s.me.loads.map PendLoad.id) :: s.slotsClear c false n)))

/-- `cadv.prod`: the slots are published once the earlier stores and accepted writes stand (R158). -/
def execCadvProd (gd : Guard) (c : Fin 16) (k : CntSrc) (s : State) :=
  runW gd 8 s (fun s => do
    let n ← s.awaitSlots c true k
    .ok (s.advance c true n
      (.stores s.cur.2 ((s.me.buf.filter BufEntry.counts).map BufEntry.id) :: (s.myCore.opsWriting c).map RelCond.op
        ++ s.slotsClear c true n)))

/-- `cwait.cons` (R158). -/
def execCwaitCons (gd : Guard) (c : Fin 16) (k : CntSrc) (s : State) :=
  runW gd 8 s (fun s => do
    let _ ← s.awaitSlots c false k
    .ok s)

/-- `cwait.prod` (R158). -/
def execCwaitProd (gd : Guard) (c : Fin 16) (k : CntSrc) (s : State) :=
  runW gd 8 s (fun s => do
    let _ ← s.awaitSlots c true k
    .ok s)

/-- `cstat` (R159). -/
def execCstat (gd : Guard) (d : Fin 32) (c : Fin 16) (s : State) :=
  runW gd 8 s (fun s => .ok (s.modMe (fun t => t.wg d (BitVec.ofNat 64 (s.cistern c).stat))))

end Sys2Proof.Machine
end

