-- ==== Sys2Proof/Machine/VecOperands.lean ====
section
/-! DEFINITION. Vector operands: registers, streams (R134 to R139) and cisterns (R118, R155) as sources and
destinations, their checks and waits, and the lane guard (R49). -/

namespace Sys2Proof

def VOp.cis : VOp → List (Fin 16)
  | .v _ => []
  | .c n => [n]

def VB.ops : VB → List VOp
  | .vec x => [x]
  | .scal _ => []

end Sys2Proof

namespace Sys2Proof.Machine

/-! ### Qualifiers -/

/-- The wait count (R47). -/
def cqWait : Option CQual → Nat
  | some q => q.wait.val + 1
  | none => 1

/-- Cisterns advance (R47). -/
def cqAdv : Option CQual → Bool
  | some q => q.adv
  | none => false

/-! ### Bytes of local store and of vectors -/

/-- Lane l is bits [32·l+31 : 32·l] (R116). -/
def vecOfBytes (bs : List Byte) : Vec := Vector.ofFn (fun l => BitVec.ofNat 32 (leNat ((bs.drop (4 * l.val)).take 4)))

/-- The byte places `from'` to `from' + n - 1` of a cistern operand at pointer `p`: none beyond the last waited
slot (R118, R174). -/
def Cistern.span (x : Cistern) (k : Core) (p w from' n : Nat) : List (Option Loc) :=
  (List.range n).map (fun i =>
    let j := from' + i
    if j / x.slot < w then some (k.lsLoc (x.slotAt p (j / x.slot) + j % x.slot)) else none)

/-- The 64 byte places of a vector (R118). -/
def Cistern.window (x : Cistern) (k : Core) (p w : Nat) : List (Option Loc) := x.span k p w 0 64

/-- Bytes read for the places that are there, 0 for the others. -/
def fillBack : List (Option Loc) → List Byte → List Byte
  | [], _ => []
  | none :: ps, bs => 0 :: fillBack ps bs
  | some _ :: ps, bs => bs.headD 0 :: fillBack ps (bs.drop 1)

/-- Local-store bytes read by strand `h` of core `c` at the core order point, with the marks of an error. -/
def State.readLs (s : State) (c : Nat) (h : Fin 11) (ls : List Loc) : List Byte × State :=
  let r := (s.core c).readBytes ls
  (r.1, (s.setCore c r.2.1).lsError c h r.2.2.isSome ls (s.strandAt c h).pc (s.strandAt c h).iw)

/-! ### Streams (R134, R135) -/

/-- The port that binds register `n` of strand `h`. -/
def Core.portOf (k : Core) (h : Fin 11) (n : Fin 16) : Option (Fin 4 × Port) :=
  (List.finRange 4).findSome? (fun q =>
    match k.ports[q] with
    | some p => if p.strand = h ∧ p.d = n then some (q, p) else none
    | none => none)

def Port.total (p : Port) : Nat := p.n0 * p.n1

/-- Offset E of element `j`, in elements (R134). -/
def Port.elem (p : Port) (j : Nat) : Int := (j / p.n0 : Nat) * p.s1.toInt + (j % p.n0 : Nat) * p.s0.toInt

/-- Bytes of an element, and the first byte and bit of element `j` (R81, R134). -/
def Port.size (p : Port) : Nat := max (p.ty.bits / 8) 1
def Port.byte (p : Port) (j : Nat) : Nat := ((p.base.toNat + p.elem j * p.ty.bits / 8) % 2 ^ 20).toNat
def Port.bit (p : Port) (j : Nat) : Nat := (p.elem j * p.ty.bits % 8).toNat

/-- The local-store bytes of element `j`. -/
def Port.locs (k : Core) (p : Port) (j : Nat) : List Loc := k.lsRange (p.byte j) p.size

/-- The elements that a read must still fetch. -/
def Port.toFetch (p : Port) : List Nat :=
  (List.range 16).filterMap (fun l =>
    if p.ahead.length ≤ l ∧ p.pos + l < p.total then some (p.pos + l) else none)

/-- Element `j` satisfied (R138): stores of the strand older than the binding are seen; `none` when one of them
must drain first. -/
def State.streamElem (s : State) (c : Nat) (p : Port) (j : Nat) : Option (Nat × State) :=
  let k := s.core c
  let ls := p.locs k j
  let cont (bs : List Byte) : Nat := (laneOfBits p.ty (leNat bs / 2 ^ p.bit j)).toNat
  match (k.strands[p.strand]).forward p.since ls with
  | .wait => none
  | .bytes bs => some (cont bs, s)
  | .none =>
    let r := s.readLs c p.strand ls
    some (cont r.1, r.2)

/-- Elements satisfied in order. -/
def State.streamElems (s : State) (c : Nat) (p : Port) : List Nat → List Nat × State
  | [] => ([], s)
  | j :: js =>
    match s.streamElem c p j with
    | none => ([], s)
    | some (x, s) =>
      let r := s.streamElems c p js
      (x :: r.1, r.2)

def State.setPort (s : State) (c : Nat) (q : Fin 4) (p : Option Port) : State :=
  s.modCore c (fun k => { k with ports := k.ports.set q p })

/-- A read of a bound register: 16 containers, the position moved, and `sx` at the end (R135). -/
def State.streamRead (s : State) (n : Fin 16) (q : Fin 4) (p : Port) : Vec × State :=
  let r := s.streamElems s.cur.1 p p.toFetch
  let all := p.ahead ++ r.1
  let x : Vec := Vector.ofFn (fun l => BitVec.ofNat 32 (all.getD l.val 0))
  let s := r.2.setPort s.cur.1 q (some { p with pos := min (p.pos + 16) p.total, ahead := all.drop 16 })
  (x, s.modMe (fun t => { t.wv n x with sx := t.sx || p.pos == p.total }))

/-- A byte, of which the bits of a mask are written, joins the parts of one entry. -/
def addPart : List (Loc × Byte × Byte) → Loc × Byte × Byte → List (Loc × Byte × Byte)
  | [], y => [y]
  | x :: xs, y =>
    if x.1 = y.1 then (x.1, (y.2.1 &&& y.2.2) ||| (x.2.1 &&& ~~~y.2.2), x.2.2 ||| y.2.2) :: xs
    else x :: addPart xs y

/-- An entry from its parts: whole bytes, and masks for the others. -/
def entryOf (parts : List (Loc × Byte × Byte)) : List (Loc × Byte) × List (Loc × Byte) :=
  (parts.map (fun x => (x.1, x.2.1)),
   (parts.filter (fun x => x.2.2 != 0xFF)).map (fun x => (x.1, x.2.2)))

/-- A store-buffer entry of the issuing strand made of parts; `vas`: the addresses of its elements. -/
def State.pushParts (s : State) (parts : List (Loc × Byte × Byte)) (o : Order) (sc : Scope) (vas : List Word) (el : Nat) :
    State :=
  let e := entryOf parts
  if parts.isEmpty then s
  else s.pushBuf { id := 0, op := .store, bytes := e.1, mask := e.2, rel := releases o sc, scope := sc
                   va := vas.headD 0, el := el, vas := vas }

/-- Lane `l` of a write of a stream puts down an element (R135). -/
def Port.takes (p : Port) (act : Fin 16 → Bool) (l : Fin 16) : Bool := act l && decide (p.pos + l.val < p.total)

/-- The parts of the elements that the lanes of a write put down, a later lane over an earlier one (R135). -/
def Port.parts (p : Port) (k : Core) (act : Fin 16 → Bool) (x : Vec) : List (Loc × Byte × Byte) :=
  (List.finRange 16).foldl (fun ps l =>
    if p.takes act l then
      (elemParts p.ty (p.locs k (p.pos + l.val)) (p.bit (p.pos + l.val)) x[l]).foldl addPart ps
    else ps) []

/-- The position after a write. -/
def Port.past (p : Port) : Port := { p with pos := min (p.pos + 16) p.total }

/-- A write of a bound register: the elements of the active lanes enter the buffer as one entry (R135, R138). -/
def State.streamWrite (s : State) (q : Fin 4) (p : Port) (act : Fin 16 → Bool) (x : Vec) : State :=
  (s.pushParts (p.parts s.myCore act x) .plain .str [] 0).setPort s.cur.1 q (some p.past)

/-! ### Checks and waits -/

/-- The port of a register operand of the issuing strand. -/
def State.portFor (s : State) : VOp → Option (Fin 4 × Port)
  | .v n => s.myCore.portOf s.cur.2 n
  | .c _ => none

/-- The traps of the operands: a stream against its direction (R136), an undefined cistern. -/
def State.operandTraps (s : State) (srcs : List VOp) (dst : Option VOp) : Res Unit := do
  srcs.forM (fun o => match s.portFor o with
    | some (q, p) => trapIf p.wr (Trap.streamMisuse q.val)
    | none => .ok ())
  match dst.bind s.portFor with
  | some (q, p) => trapIf (!p.wr || p.pos == p.total) (Trap.streamMisuse q.val)
  | none => .ok ()
  (srcs ++ dst.toList).forM (fun o => o.cis.forM (fun c => do
    let _ ← s.defined c
    .ok ()))

/-- The waits of the cisterns (R155): the consumer's code is the lower (R23). -/
def State.cisternWaits (s : State) (w : Nat) (srcs : List VOp) (dst : Option VOp) : Res Unit :=
  s.slotWait (slotNeed w (srcs.flatMap VOp.cis) (dst.toList.flatMap VOp.cis))

/-- Local-store bytes of the operands' cistern slots. -/
def State.slotLocs (s : State) (w : Nat) (srcs : List VOp) (dst : Option VOp) : List Loc × List Loc :=
  (srcs.flatMap (fun o => o.cis.flatMap (fun c => ((s.cistern c).window s.myCore (s.cistern c).cp w).filterMap id)),
   dst.toList.flatMap (fun o => o.cis.flatMap (fun c => ((s.cistern c).window s.myCore (s.cistern c).pp w).filterMap id)))

/-- Local-store bytes of the elements that the operands' streams reach. -/
def State.streamLocs (s : State) (srcs : List VOp) (dst : Option VOp) : List Loc :=
  srcs.flatMap (fun o => match s.portFor o with
    | some (_, p) => p.toFetch.flatMap (p.locs s.myCore)
    | none => [])
  ++ (match dst.bind s.portFor with
    | some (_, p) => (List.range 16).flatMap (fun l => if p.pos + l < p.total then p.locs s.myCore (p.pos + l) else [])
    | none => [])

/-- The traps of a vector instruction's operands and their waits that have a code (R21, R23). -/
def State.vblocks (s : State) (cq : Option CQual) (srcs : List VOp) (dst : Option VOp) : Res State := do
  s.operandTraps srcs dst
  s.cisternWaits (cqWait cq) srcs dst
  let slots := s.slotLocs (cqWait cq) srcs dst
  s.touch (slots.1 ++ slots.2 ++ s.streamLocs srcs dst)

/-- The stalls of the operands (R22, R138, R155). -/
def State.vstalls (s : State) (cq : Option CQual) (srcs : List VOp) (dst : Option VOp) : Res Unit := do
  if s.me.buf.any (fun e => overlap e.locs (s.slotLocs (cqWait cq) srcs none).1) then stall s
  if srcs.any (fun o => match s.portFor o with
    | some (_, p) => p.toFetch.any (fun j => s.me.forward p.since (p.locs s.myCore j) == .wait)
    | none => false) then stall s
  if (dst.bind s.portFor).isSome then s.bufRoom 1

/-- Every check and wait of a vector instruction's operands, the waits with a code first (R23): the state is unchanged when
it may go on. -/
def State.vcheck (s : State) (cq : Option CQual) (srcs : List VOp) (dst : Option VOp) : Res State := do
  let s ← s.vblocks cq srcs dst
  s.vstalls cq srcs dst
  .ok s

/-- A destination that is read waits for the strand's own stores to its slots (R155). -/
def State.oldWait (s : State) (cq : Option CQual) (dst : VOp) : Res Unit :=
  if s.me.buf.any (fun e => overlap e.locs (s.slotLocs (cqWait cq) [] (some dst)).2) then stall s else .ok ()

/-! ### Reading and writing -/

/-- One source operand. -/
def State.vread (s : State) (w : Nat) (o : VOp) : Vec × State :=
  match o with
  | .v n =>
    match s.myCore.portOf s.cur.2 n with
    | some (q, p) => s.streamRead n q p
    | none => (s.me.rv n, s)
  | .c c =>
    let ps := (s.cistern c).window s.myCore (s.cistern c).cp w
    let r := s.readLs s.cur.1 s.cur.2 (ps.filterMap id)
    (vecOfBytes (fillBack ps r.1), r.2)

/-- The distinct operands read once each (R48, R135). -/
def State.vreadAll (s : State) (w : Nat) : List VOp → List (VOp × Vec) → List (VOp × Vec) × State
  | [], acc => (acc, s)
  | o :: os, acc =>
    if acc.any (fun x => x.1 == o) then s.vreadAll w os acc
    else
      let r := s.vread w o
      r.2.vreadAll w os (acc ++ [(o, r.1)])

/-- The values of source operands, in their order. -/
def State.vreads (s : State) (cq : Option CQual) (srcs : List VOp) : List Vec × State :=
  let r := s.vreadAll (cqWait cq) srcs []
  (srcs.map (fun o => ((r.1.find? (fun x => x.1 == o)).map Prod.snd).getD (.replicate 16 0)), r.2)

/-- What a destination holds before it is written, for the forms that read it; of a register that a write stream binds, the
register as it stands. (DESIGN CHOICE, log 71) -/
def State.vold (s : State) (cq : Option CQual) (dst : VOp) : Vec × State :=
  match dst with
  | .v n => (s.me.rv n, s)
  | .c c =>
    let ps := (s.cistern c).window s.myCore (s.cistern c).pp (cqWait cq)
    let r := s.readLs s.cur.1 s.cur.2 (ps.filterMap id)
    (vecOfBytes (fillBack ps r.1), r.2)

/-- Active lanes replaced. -/
def mergeLanes (act : Fin 16 → Bool) (old new : Vec) : Vec := Vector.ofFn (fun l => if act l then new[l] else old[l])

/-- The lanes `act` of a result go to the destination (R49, R118); a stream takes an element of every lane that the guard
makes active, `on` (R135). -/
def State.vwrite (s : State) (cq : Option CQual) (dst : VOp) (on act : Fin 16 → Bool) (x : Vec) : State :=
  match dst with
  | .v n =>
    let y := mergeLanes act (s.me.rv n) x
    let s := match s.myCore.portOf s.cur.2 n with
      | some (q, p) => s.streamWrite q p on y
      | none => s
    s.modMe (fun t => t.wv n y)
  | .c c =>
    let ps := (s.cistern c).window s.myCore (s.cistern c).pp (cqWait cq)
    let bs := (List.finRange 16).flatMap (fun l =>
      if act l then (((ps.drop (4 * l.val)).take 4).zip (leBytes 4 x[l].toNat)).filterMap
        (fun y => y.1.map (fun a => (a, y.2))) else [])
    s.modMyCore (fun k => k.ownWrite bs)

/-- The advances of the operands' cisterns (R155), each once (R48); what the releases wait for is given for the
destination side. -/
def State.vadvance (s : State) (cq : Option CQual) (srcs : List VOp) (dst : Option VOp) (cond : List RelCond) : State :=
  if cqAdv cq then
    let s := ((srcs.flatMap VOp.cis).eraseDups).foldl (fun s c => s.advance c false (cqWait cq) []) s
    (dst.toList.flatMap VOp.cis).foldl (fun s c => s.advance c true (cqWait cq) cond) s
  else s

/-! ### The body of a lane-wise instruction -/

/-- The results and flags of the active lanes. -/
def laneMap (act : Fin 16 → Bool) (f : Fin 16 → Lane × Flags) : Vec × Flags :=
  (Vector.ofFn (fun l => if act l then (f l).1 else 0),
   (List.finRange 16).foldl (fun a l => if act l then a ||| (f l).2 else a) 0)

/-- What a lane-wise instruction computes: from the strand and the E4M3 mode, the source vectors and the old
destination. -/
abbrev LaneFn := Strand → Bool → List Vec → Vec → Fin 16 → Lane × Flags

/-- An instruction that writes lanes `act` of its destination under a lane guard that makes `on` active (R117 to R120, R135,
R155). `old`: it reads its destination. -/
def lanesBody (cq : Option CQual) (srcs : List VOp) (dst : VOp) (old : Bool) (on act : Strand → Fin 16 → Bool)
    (f : LaneFn) (s : State) : Res State := do
  let s ← s.vcheck cq srcs (some dst)
  if old then s.oldWait cq dst
  let t := s.me
  let mode := s.myCore.e4m3
  let rd := s.vreads cq srcs
  let od := if old then rd.2.vold cq dst else (.replicate 16 0, rd.2)
  let r := laneMap (act t) (f t mode rd.1 od.1)
  let s := (od.2.vwrite cq dst (on t) (act t) r.1).modMe (fun x => x.raise r.2)
  .ok (s.vadvance cq srcs (some dst) [])

/-- A lane-wise instruction: it writes the active lanes. -/
def vecBody (cq : Option CQual) (srcs : List VOp) (dst : VOp) (old : Bool) (act : Strand → Fin 16 → Bool) (f : LaneFn) :
    State → Res State := lanesBody cq srcs dst old act act f

/-- Lane `l` of source `i`. -/
def srcLane (vs : List Vec) (i : Nat) (l : Fin 16) : Lane := (vs.getD i (.replicate 16 0))[l]

/-- Lane `l` of the B position: a vector, which follows source `i`, or the low 32 bits of a g register (R117). -/
def bLane (b : VB) (t : Strand) (vs : List Vec) (i : Nat) (l : Fin 16) : Lane :=
  match b with
  | .vec _ => srcLane vs i l
  | .scal r => (t.rg r).setWidth 32

end Sys2Proof.Machine
end

