-- ==== Sys2Proof/Machine/Vector.lean ====
section
/-! DEFINITION. Vector arithmetic, comparison, movement, reduction and conversion (R119 to R127). -/

namespace Sys2Proof.Machine

/-! ### Operations on one lane -/

abbrev LaneOp := Lane → Lane → Lane × Flags

/-- An integer operation on exact values, saturated or wrapped (R120). -/
def intLane (ty : Ty) (sat : Bool) (x : Int) : Lane × Flags :=
  if sat then (laneOfInt (satTo x ty).1, (satTo x ty).2) else (laneOfInt x, 0)

/-- The forms of R120 on `i32`, `n32` and `f32`. -/
def arithOp (ty : Ty) (sat : Bool) (md : Round) (int : Int → Int → Int)
    (real : XReal → XReal → XReal × Flags) : LaneOp := fun a b =>
  if ty = .f32 then
    let x := fp32.value a.toNat
    let y := fp32.value b.toNat
    let z := real x y
    roundLane md (z.1, z.2 ||| sigFlag [x, y])
  else intLane ty sat (int (laneInt ty a) (laneInt ty b))

/-- The canonical NaN of FP32 (R65). -/
def qNan : Lane := 0x7FC00000

/-- `vmin.f32` and `vmax.f32` (R120): `pick` says whether the first operand is returned. -/
def pickReal (pick : XReal → XReal → Bool) : LaneOp := fun a b =>
  let x := fp32.value a.toNat
  let y := fp32.value b.toNat
  let fl := sigFlag [x, y]
  if x.isNan && y.isNan then (qNan, fl)
  else if x.isNan then (b, fl)
  else if y.isNan then (a, fl)
  else (if pick x y then a else b, fl)

def minOp (ty : Ty) : LaneOp := fun a b =>
  if ty = .f32 then pickReal (fun x y => !y.below x) a b
  else (if laneInt ty a ≤ laneInt ty b then a else b, 0)

def maxOp (ty : Ty) : LaneOp := fun a b =>
  if ty = .f32 then pickReal (fun x y => !x.below y) a b
  else (if laneInt ty a ≤ laneInt ty b then b else a, 0)

/-- `vabs` and `vneg` (R120). -/
def signOp (ty : Ty) (sat : Bool) (int : Int → Int) (code : Lane → Lane) (a : Lane) : Lane × Flags :=
  if ty = .f32 then
    let x := fp32.value a.toNat
    if x.isNan then (qNan, sigFlag [x]) else (code a, 0)
  else intLane ty sat (int (laneInt ty a))

/-- `a × b + c` rounded once (R121). -/
def fmaOp (md : Round) (a b c : Lane) (neg : Bool) : Lane × Flags :=
  let x := fp32.value a.toNat
  let y := fp32.value b.toNat
  let z := fp32.value c.toNat
  let p := x.mul y
  let r := sumX md [p.1, if neg then z.negate else z]
  roundLane md (r.1, p.2 ||| r.2 ||| sigFlag [x, y, z])

/-- The truth of a comparison (R122). -/
def cmpOp (c : Cond) (ty : Ty) (a b : Lane) : Bool × Flags :=
  if ty = .f32 then
    let x := fp32.value a.toNat
    let y := fp32.value b.toNat
    if x.isNan || y.isNan then (c == .ne, sigFlag [x, y])
    else
      let o := x.cmp y
      (match c with
        | .eq => o == .eq
        | .ne => o != .eq
        | .lt => o == .lt
        | .le => o != .gt
        | .gt => o == .gt
        | .ge => o != .lt, 0)
  else (condInt' c (laneInt ty a) (laneInt ty b), 0)
where
  condInt' (c : Cond) (a b : Int) : Bool :=
    match c with
    | .eq => a == b
    | .ne => a != b
    | .lt => decide (a < b)
    | .le => decide (a ≤ b)
    | .gt => decide (b < a)
    | .ge => decide (b ≤ a)

/-- Element `j` of a lane that packs elements of a type (R81, R126). -/
def packed (ty : Ty) (x : Lane) (j : Nat) : Int := ty.read (x.toNat / 2 ^ (ty.bits * j))

/-- `vdot` on one lane (R126). -/
def dotOp (ty : Ty) (z : Bool) (d a b : Lane) : Lane × Flags :=
  let acc : Ty := if ty.signed then .i32 else .n32
  let t0 : Int := if z then 0 else laneInt acc d
  let t := (List.range (32 / ty.bits)).foldl (fun t j => t + packed ty a j * packed ty b j) t0
  (laneOfInt (satTo t acc).1, (satTo t acc).2)

/-- `vcvt` on one lane (R127). -/
def cvtOp (src dst : Ty) (md : Round) (mode : Bool) (a : Lane) : Lane × Flags :=
  let x := laneReal mode src a
  match floatOf mode dst with
  | some f =>
    let y := f.rnd md x
    (BitVec.ofNat 32 y.1, y.2 ||| sigFlag [x])
  | none =>
    match floatOf mode src with
    | some _ =>
      let y := rndInt md dst x
      (laneOfInt y.1, y.2)
    | none => intLane dst true (laneInt src a)

/-! ### Bodies -/

/-- The lanes a guard makes active (R49). -/
def lanesOf (g : Guard) (t : Strand) (l : Fin 16) : Bool := t.laneOn g l.val

/-- A form with two sources (R120). -/
def binBody (f : LaneOp) (x : VBin) : State → Res State :=
  vecBody x.cq (x.a :: x.b.ops) x.d false (lanesOf x.gd)
    (fun t _ vs _ l => f (srcLane vs 0 l) (bLane x.b t vs 1 l))

/-- A form with one source (R120). -/
def unBody (f : Lane → Lane × Flags) (x : VUn) : State → Res State :=
  vecBody x.cq [x.a] x.d false (lanesOf x.gd) (fun _ _ vs _ l => f (srcLane vs 0 l))

/-- `vfma` and `vfms` (R121). -/
def triBody (neg : Bool) (x : VTri) : State → Res State :=
  vecBody x.cq (x.a :: x.c :: x.b.ops) x.d false (lanesOf x.gd)
    (fun t _ vs _ l => fmaOp x.round (srcLane vs 0 l) (bLane x.b t vs 2 l) (srcLane vs 1 l) neg)

/-- A 32-bit pattern operation, which sets no flag. -/
def bitOp (f : Lane → Lane → Lane) : LaneOp := fun a b => (f a b, 0)

/-- The shift amount of a lane (R120). -/
def laneShift (b : Lane) : Nat := b.toNat % 32

def execVadd (x : VBin) (s : State) :=
  runL 8 s (binBody (arithOp x.ty x.sat x.round (· + ·) (fun a b => sumX x.round [a, b])) x)
def execVsub (x : VBin) (s : State) :=
  runL 8 s (binBody (arithOp x.ty x.sat x.round (· - ·) (fun a b => sumX x.round [a, b.negate])) x)
def execVmul (x : VBin) (s : State) := runL 8 s (binBody (arithOp x.ty x.sat x.round (· * ·) XReal.mul) x)
def execVmin (x : VBin) (s : State) := runL 8 s (binBody (minOp x.ty) x)
def execVmax (x : VBin) (s : State) := runL 8 s (binBody (maxOp x.ty) x)
def execVand (x : VBin) (s : State) := runL 8 s (binBody (bitOp (· &&& ·)) x)
def execVor (x : VBin) (s : State) := runL 8 s (binBody (bitOp (· ||| ·)) x)
def execVxor (x : VBin) (s : State) := runL 8 s (binBody (bitOp (· ^^^ ·)) x)
def execVshl (x : VBin) (s : State) := runL 8 s (binBody (bitOp (fun a b => a <<< laneShift b)) x)
def execVshr (x : VBin) (s : State) := runL 8 s (binBody (bitOp (fun a b => a >>> laneShift b)) x)
def execVsar (x : VBin) (s : State) := runL 8 s (binBody (bitOp (fun a b => a.sshiftRight (laneShift b))) x)
def execVabs (x : VUn) (s : State) :=
  runL 8 s (unBody (signOp x.ty x.sat (fun a => a.natAbs) (fun a => a &&& 0x7FFFFFFF)) x)
def execVneg (x : VUn) (s : State) :=
  runL 8 s (unBody (signOp x.ty x.sat (fun a => -a) (fun a => a ^^^ 0x80000000)) x)
def execVfma (x : VTri) (s : State) := runL 8 s (triBody false x)
def execVfms (x : VTri) (s : State) := runL 8 s (triBody true x)

/-- `vcvt` (R127). -/
def execVcvt (gd : Guard) (d a : VOp) (src dst : Ty) (round : Round) (cq : Option CQual) (s : State) :=
  runL 8 s (vecBody cq [a] d false (lanesOf gd) (fun _ mode vs _ l => cvtOp src dst round mode (srcLane vs 0 l)))

/-- The predicate after a lane-wise comparison (R122). -/
def cmpLanes (act : Fin 16 → Bool) (old : BitVec 16) (f : Fin 16 → Bool) : BitVec 16 :=
  BitVec.ofNat 16 ((List.finRange 16).foldl (fun a l =>
    a + 2 ^ l.val * b2n (if act l then f l else old.getLsbD l.val)) 0)

def vcmpBody (gd : Guard) (d : Fin 8) (a : VOp) (b : VB) (cond : Cond) (ty : Ty) (cq : Option CQual) (s : State) :
    Res State := do
  let srcs := a :: b.ops
  let s ← s.vcheck cq srcs none
  let t := s.me
  let act := lanesOf gd t
  let rd := s.vreads cq srcs
  let f (l : Fin 16) : Bool × Flags := cmpOp cond ty (srcLane rd.1 0 l) (bLane b t rd.1 1 l)
  let fl := (List.finRange 16).foldl (fun a l => if act l then a ||| (f l).2 else a) 0
  let s := rd.2.modMe (fun x => (x.wp d (cmpLanes act (t.rp d) (fun l => (f l).1))).raise fl)
  .ok (s.vadvance cq srcs none [])

/-- `vcmp` (R122). -/
def execVcmp (gd : Guard) (d : Fin 8) (a : VOp) (b : VB) (cond : Cond) (ty : Ty) (cq : Option CQual) (s : State) :=
  runL 8 s (vcmpBody gd d a b cond ty cq)

/-- `vsel` (R123). -/
def execVsel (gd : Guard) (d a b : VOp) (c : Fin 8) (cq : Option CQual) (s : State) :=
  runL 8 s (vecBody cq [a, b] d false (lanesOf gd)
    (fun t _ vs _ l => (if (t.rp c).getLsbD l.val then srcLane vs 0 l else srcLane vs 1 l, 0)))

/-- `vperm` (R124). -/
def execVperm (gd : Guard) (d a b : VOp) (cq : Option CQual) (s : State) :=
  runL 8 s (vecBody cq [a, b] d false (lanesOf gd)
    (fun _ _ vs _ l => (srcLane vs 0 (Fin.ofNat 16 (srcLane vs 1 l).toNat), 0)))

/-- `vbcast` (R124). -/
def execVbcast (gd : Guard) (d : VOp) (src : BcastSrc) (cq : Option CQual) (s : State) :=
  match src with
  | .scal a => runL 8 s (vecBody cq [] d false (lanesOf gd) (fun t _ _ _ _ => ((t.rg a).setWidth 32, 0)))
  | .lane a n => runL 8 s (vecBody cq [a] d false (lanesOf gd) (fun _ _ vs _ _ => (srcLane vs 0 n, 0)))

/-- `vsum` writes lane 0 whatever the guard (R125). -/
def sumLane (gd : Guard) (ty : Ty) (sat : Bool) (md : Round) (t : Strand) (vs : List Vec) : Lane × Flags :=
  let on := (List.finRange 16).filter (lanesOf gd t)
  if ty = .f32 then
    let xs := on.map (fun l => fp32.value (srcLane vs 0 l).toNat)
    let r := sumX md xs
    roundLane md (r.1, r.2 ||| sigFlag xs)
  else intLane ty sat (on.foldl (fun a l => a + laneInt ty (srcLane vs 0 l)) 0)

/-- `vsum` (R125). -/
def execVsum (gd : Guard) (d a : VOp) (ty : Ty) (sat : Bool) (round : Round) (cq : Option CQual) (s : State) :=
  runL 8 s (lanesBody cq [a] d false (lanesOf gd) (fun _ l => l == 0) (fun t _ vs _ _ => sumLane gd ty sat round t vs))

/-- `vdot` (R126). -/
def execVdot (gd : Guard) (d a : VOp) (b : VB) (ty : Ty) (z : Bool) (cq : Option CQual) (s : State) :=
  runL 8 s (vecBody cq (a :: b.ops) d (!z) (lanesOf gd)
    (fun t _ vs old l => dotOp ty z old[l] (srcLane vs 0 l) (bLane b t vs 1 l)))

/-- `vmov gD, vA, lane` (R124). -/
def vmovToG (gd : Guard) (d : Fin 32) (a : VOp) (n : Fin 16) (cq : Option CQual) (s : State) : Res State := do
  let s ← s.vcheck cq [a] none
  let on := lanesOf gd s.me n
  let rd := s.vreads cq [a]
  let s := if on then rd.2.modMe (fun t => t.wg d ((srcLane rd.1 0 n).setWidth 64)) else rd.2
  .ok (s.vadvance cq [a] none [])

/-- `vmov` (R124). From `g` to a lane that is inactive, with D bound by a `.wr` stream, the element of R135 is still written: the
active lanes' values as they stand. (DESIGN CHOICE, log 81) -/
def execVmov (gd : Guard) (form : VmovForm) (cq : Option CQual) (s : State) :=
  match form with
  | .vec d a => runL 8 s (vecBody cq [a] d false (lanesOf gd) (fun _ _ vs _ l => (srcLane vs 0 l, 0)))
  | .toG d a n => runL 8 s (vmovToG gd d a n cq)
  | .fromG d a n => runL 8 s (lanesBody cq [] d false (lanesOf gd) (fun t l => l == n && lanesOf gd t l)
      (fun t _ _ _ _ => ((t.rg a).setWidth 32, 0)))

end Sys2Proof.Machine
end

