-- ==== Sys2Proof/Machine/VecMem.lean ====
section
/-! DEFINITION. Vector loads and stores, gathers and scatters (R128 to R130). -/

namespace Sys2Proof.Machine

/-- Bytes of an element's access (R129). -/
def elemBytes (ty : Ty) : Nat := max (ty.bits / 8) 1

/-- Byte and bit of element `l` of a `vld` or `vst` from `ea` on (R129). -/
def elemAt (ty : Ty) (ea : Word) (l : Fin 16) : Word × Nat :=
  (ea + BitVec.ofNat 64 (l.val * ty.bits / 8), l.val * ty.bits % 8)

/-- The address of lane `l` of a `vgath` or `vscat` (R129). -/
def gathAt (ea : Word) (sc : Fin 4) (ix : Vec) (l : Fin 16) : Word × Nat :=
  (ea + (ix[l]).setWidth 64 * BitVec.ofNat 64 (2 ^ sc.val), 0)

/-- A trap of a memory check names its lane (R129, R229). -/
def nameLane {α : Type} (l : Fin 16) : Res α → Res α
  | .error (.trap t) =>
    if 0x10 ≤ t.code ∧ t.code ≤ 0x14 then .error (.trap { t with sub := l.val }) else .error (.trap t)
  | r => r

/-- An element of a lane: its lane, address, bit and bytes. -/
structure Elem where
  lane : Fin 16
  ea : Word
  bit : Nat
  locs : List Loc

/-- The checks of the active lanes, in lane order (R129). -/
def State.laneElems (s : State) (sp load : Bool) (n : Nat) : List (Fin 16 × Word × Nat) → Res (List Elem × State)
  | [] => .ok ([], s)
  | (l, ea, bit) :: ls => do
    if sp then
      let r ← s.laneElems sp load n ls
      .ok (⟨l, ea, bit, s.myCore.lsRange ea.toNat n⟩ :: r.1, r.2)
    else
      let (p, s) ← nameLane l (s.xlate ⟨n, load, !load, .vec⟩ ea)
      let s ← if load then nameLane l (s.poisonCheck ea p) else .ok s
      let r ← s.laneElems sp load n ls
      .ok (⟨l, ea, bit, p.span n⟩ :: r.1, r.2)

/-- The addresses of the active lanes. -/
def laneAddrs (act : Fin 16 → Bool) (at' : Fin 16 → Word × Nat) : List (Fin 16 × Word × Nat) :=
  ((List.finRange 16).filter act).map (fun l => (l, (at' l).1, (at' l).2))

/-- Elements that reach a window through the gang window await its fill in the state `s0` (R202, R283). -/
def State.touchElems (s0 : State) (n : Nat) : List Elem → Res Unit
  | [] => .ok ()
  | e :: es => do
    let _ ← nameLane e.lane (match e.locs with
      | l :: _ => s0.touchPeer l n
      | [] => .ok s0)
    s0.touchElems n es

/-- The elements of the active lanes, checked; one may touch a window, which the strand then awaits in the state `s0` that
the instruction found. -/
def State.elems (s s0 : State) (sp load : Bool) (ty : Ty) (act : Fin 16 → Bool) (at' : Fin 16 → Word × Nat) :
    Res (List Elem × State) := do
  let r ← s.laneElems sp load (elemBytes ty) (laneAddrs act at')
  if sp then
    let _ ← s0.touch (r.1.flatMap Elem.locs)
    .ok r
  else
    s0.touchElems (elemBytes ty) r.1
    .ok r

/-! ### Loads -/

/-- One load of each element (R130). -/
def State.issueElems (s : State) (dst : Elem → LoadDst) (o : Order) (sc : Scope) (len : Nat) : List Elem → State
  | [] => s
  | e :: es => (s.issueLoad e.locs (dst e) o sc e.ea e.lane.val len).issueElems dst o sc len es

/-- Local-store offsets of lane `l` of a destination cistern. -/
def Cistern.laneOffs (x : Cistern) (w : Nat) (l : Fin 16) : List Nat :=
  (List.range 4).filterMap (fun j =>
    let i := 4 * l.val + j
    if i / x.slot < w then some (x.slotAt x.pp (i / x.slot) + i % x.slot) else none)

/-- The pending loads after the first `k` carry what their instruction has moved. -/
def State.noteUndo (s : State) (k : Nat) (us : List Undo) : State :=
  s.modMe (fun t => { t with loads := t.loads.take k ++ (t.loads.drop k).map (fun l => { l with undo := us }) })

/-- What the operands of a vector load take back with it (R25): the ports and cisterns as state `s0` has them. `held`: the
identifiers of the advances. -/
def State.undoOf (s0 : State) (cq : Option CQual) (srcs : List VOp) (d : VOp) (held : Nat) : List Undo :=
  let ports := (srcs ++ [d]).filterMap (fun o => (s0.portFor o).map (fun x => Undo.port x.1 x.2.pos x.2.ahead))
  let cs := (srcs.flatMap VOp.cis).eraseDups.map (fun c => (c, false)) ++ d.cis.map (fun c => (c, true))
  ports ++ (if ports.isEmpty then [] else [Undo.sx s0.me.sx])
    ++ (if cqAdv cq then cs.zipIdx.map (fun x => Undo.cis x.1.1 x.1.2 (cqWait cq) (held + x.2)) else [])

/-- Where the loads of a write of a stream put lane `e.lane`: an element that a higher active lane writes too is that
lane's (R135). -/
def Port.loadDst (p : Port) (k : Core) (n : Fin 16) (act : Fin 16 → Bool) (ty : Ty) (entry : Nat) (e : Elem) : LoadDst :=
  let place (l : Fin 16) : List Loc × Nat := (p.locs k (p.pos + l.val), p.bit (p.pos + l.val))
  let last := (List.finRange 16).all (fun l => !(decide (e.lane < l) && p.takes act l && place l == place e.lane))
  if p.takes act e.lane && last then .strm n e.lane ty e.bit entry (place e.lane).1 p.ty (place e.lane).2
  else .strm n e.lane ty e.bit 0 [] p.ty 0

/-- The loads of a vector load, and the advances; a stream's entry waits in the buffer for the elements (R130, R135).
(DEDUCED, log 22) -/
def vloadTo (d : VOp) (ty : Ty) (o : Order) (sc : Scope) (cq : Option CQual) (srcs : List VOp) (act : Fin 16 → Bool)
    (len : Nat) (es : List Elem) (s0 s : State) : Res State :=
  let first := s.nextId
  let old := s.me.loads.length
  let ids := (List.range es.length).map (fun j => first + j)
  let advanced (s : State) (us : List Undo) (cond : List RelCond) : State :=
    (s.vadvance cq srcs (some d) cond).noteUndo old (s0.undoOf cq srcs d s.nextId ++ us)
  match d with
  | .v n =>
    match s.myCore.portOf s.cur.2 n with
    | some (q, p) =>
      let k := s.myCore
      let parts := p.parts k act (.replicate 16 0)
      let entry := first + es.length
      let s := s.issueElems (p.loadDst k n act ty entry) o sc len es
      let s := (s.pushParts parts .plain .str [] 0).setPort s.cur.1 q (some p.past)
      .ok (advanced s (if parts.isEmpty then [] else [.entry entry]) [])
    | none => .ok (advanced (s.issueElems (fun e => .lane n e.lane ty e.bit) o sc len es) [] [])
  | .c c =>
    let x := s.cistern c
    .ok (advanced (s.issueElems (fun e => .cis (x.laneOffs (cqWait cq) e.lane) ty e.bit) o sc len es) []
      [.loads s.cur.2 ids])

def vldBody (x : VMem) (s : State) : Res State := do
  let s1 ← s.vblocks x.cq [] (some x.d)
  let act := lanesOf x.gd s1.me
  let r ← s1.elems s x.sp true x.ty act (elemAt x.ty (s1.me.rg x.a + x.disp.val))
  s1.vstalls x.cq [] (some x.d)
  vloadTo x.d x.ty x.order x.scope x.cq [] act x.disp.len r.1 s r.2

/-- `vld` (R128, R129). -/
def execVld (x : VMem) (s : State) := runL x.disp.len s (vldBody x)

def vgathBody (x : VIdx) (s : State) : Res State := do
  let s1 ← s.vblocks x.cq [x.b] (some x.d)
  s1.vstalls x.cq [x.b] none
  let act := lanesOf x.gd s1.me
  let base := s1.me.rg x.a + x.disp.val
  let rd := s1.vreads x.cq [x.b]
  let r ← rd.2.elems s x.sp true x.ty act (gathAt base x.sc (rd.1.getD 0 (.replicate 16 0)))
  s1.vstalls x.cq [x.b] (some x.d)
  vloadTo x.d x.ty x.order x.scope x.cq [x.b] act x.disp.len r.1 s r.2

/-- `vgath` (R128, R129). -/
def execVgath (x : VIdx) (s : State) := runL x.disp.len s (vgathBody x)

/-! ### Stores -/

/-- The parts of the elements a vector store writes: a later lane over an earlier one. -/
def storeParts (ty : Ty) (v : Vec) (es : List Elem) : List (Loc × Byte × Byte) :=
  es.foldl (fun ps e => (elemParts ty e.locs e.bit v[e.lane]).foldl addPart ps) []

def vstBody (x : VMem) (s : State) : Res State := do
  s.dropCheck x.scope (!x.sp && releases x.order x.scope)
  let s1 ← s.vblocks x.cq [x.d] none
  let act := lanesOf x.gd s1.me
  let ea := s1.me.rg x.a + x.disp.val
  let r ← s1.elems s x.sp false x.ty act (elemAt x.ty ea)
  s1.vstalls x.cq [x.d] none
  s.bufRoom 1
  let rd := r.2.vreads x.cq [x.d]
  .ok (rd.2.pushParts (storeParts x.ty (rd.1.getD 0 (.replicate 16 0)) r.1) x.order x.scope (r.1.map Elem.ea)
    (if x.sp then 0 else elemBytes x.ty))

/-- `vst`: one store-buffer entry (R128 to R130). -/
def execVst (x : VMem) (s : State) := runL x.disp.len s (vstBody x)

/-- One entry of each element, in lane order (R130). -/
def State.scatter (s : State) (ty : Ty) (o : Order) (sc : Scope) (v : Vec) : List Elem → State
  | [] => s
  | e :: es => (s.pushParts ((elemParts ty e.locs e.bit v[e.lane]).foldl addPart []) o sc [e.ea] 0).scatter ty o sc v es

def vscatBody (x : VIdx) (s : State) : Res State := do
  s.dropCheck x.scope (!x.sp && releases x.order x.scope)
  let s1 ← s.vblocks x.cq [x.b, x.d] none
  s1.vstalls x.cq [x.b] none
  let act := lanesOf x.gd s1.me
  let base := s1.me.rg x.a + x.disp.val
  let r ← s1.elems s x.sp false x.ty act (gathAt base x.sc ((s1.vreads x.cq [x.b]).1.getD 0 (.replicate 16 0)))
  s1.vstalls x.cq [x.b, x.d] none
  s.bufRoom r.1.length
  let rd := r.2.vreads x.cq [x.b, x.d]
  .ok ((rd.2.scatter x.ty x.order x.scope (rd.1.getD 1 (.replicate 16 0)) r.1).vadvance x.cq [x.b, x.d] none [])

/-- `vscat`: one entry per active lane (R128 to R130). -/
def execVscat (x : VIdx) (s : State) := runL x.disp.len s (vscatBody x)

end Sys2Proof.Machine
end

