-- ==== Sys2Proof/Machine/Cluster.lean ====
section
/-! DEFINITION. Domain barriers and phases, `dmem`, `ttime` (R203 to R209), messages (R210 to R212), and the events
BARRIER_RELEASE, MESSAGE_PLACE and SEND_STALL. -/

namespace Sys2Proof.Machine

/-! ### Barriers (R204, R206) -/

/-- Scope of the fence of a barrier. -/
def barrierScope (lvl : Nat) : Scope :=
  match lvl with
  | 0 | 1 => .clu
  | 2 => .die
  | 3 => .mod
  | _ => .chm

/-- The barrier record of a domain, made when it has none. -/
def State.openBarrier (s : State) (ctx lvl key place : Nat) : Barrier × State :=
  match s.barriers.find? (fun b => b.ctx == ctx && b.lvl == lvl && b.key.toNat == key && b.place == place) with
  | some b => (b, s)
  | none =>
    let b : Barrier := { dom := s.nextId, ctx := ctx, key := BitVec.ofNat 16 key, lvl := lvl, place := place }
    (b, { s.fresh with barriers := s.barriers ++ [b] })

/-- The issuing core arrives with flags `f`; `phase`: what a `dphase` selects. (DEDUCED, log 30) -/
def State.arrive (s : State) (lvl key place : Nat) (f : BitVec 5) (phase : Option Bool) : State :=
  let r := s.openBarrier s.myCore.ctx lvl key place
  let n := r.2.myCore.lnum.toNat
  let bs := r.2.barriers.map (fun (b : Barrier) =>
    if b.dom = r.1.dom then
      { b with arrived := b.arrived ++ [{ lnum := n, flags := f, phase := phase }] } else b)
  ({ r.2 with barriers := bs } : State).awaitObj (.barrier r.1.dom r.1.gen)

/-- What a barrier leaves once its generation is released: the merged flags, and no older line for later loads.
(DEDUCED, log 32) -/
def State.passBarrier (s : State) (b : Barrier) (sc : Scope) (d : Fin 32) (m : Bool) : State :=
  let now := s.nextId
  s.fresh.modMe (fun t =>
    let t := (t.wg d (b.done.setWidth 64)).void sc now
    if m then t.raise (b.done.setWidth 6) else t)

/-- The barrier of the domain that `lvl`, `key` and `place` name: fence, arrival, wait, release (R206).
(DEDUCED, log 30) -/
def barrierBody (lvl key place : Nat) (d : Fin 32) (m : Bool) (phase : Option Bool) (s : State) : Res State :=
  let sc := barrierScope lvl
  match s.me.waiting with
  | .barrier dom gen => match s.barriers.find? (fun b => b.dom == dom) with
    | none => block 1 s
    | some b => if gen < b.gen then .ok (s.passBarrier b sc d m) else block 1 s
  | _ =>
    if !s.me.loads.isEmpty || !s.released sc then stall s
    else block 1 (s.arrive lvl key place (s.me.fflags.setWidth 5) phase)

/-- The issuing strand uses chamber `n` (R363). -/
def State.useChamber (s : State) (n : Nat) : State :=
  s.modMe (fun t => if t.uses.contains n then t else { t with uses := n :: t.uses })

def badDomain (t : Strand) : Trap := { code := 0x29, detail := t.dom.lvl.setWidth 64 }

/-- A barrier of chamber `n` (R206, R359). (DEDUCED, log 31) -/
def chamberBarrier (n : Nat) (d : Fin 32) (m : Bool) (phase : Option Bool) (s : State) : Res State :=
  match s.me.waiting, s.chamberFor n s.myCore.ctx with
  | .barrier _ _, _ => barrierBody 4 0 n d m phase s
  | _, none => raise (badDomain s.me)
  | _, some _ => do
    s.dropCheck .chm true
    barrierBody 4 0 n d m phase (s.useChamber n)

/-- `dbar` and `dphase` at `%dom.lvl` (R206). On a core without a task, which is in no domain of levels 0 to 3, the strand
waits and nothing releases it. (DESIGN CHOICE, log 82) -/
def domainBarrier (d : Fin 32) (m : Bool) (phase : Option Bool) (s : State) : Res State := do
  s.controlOnly
  let lvl := s.me.dom.lvl.toNat
  trapIf (lvl == 4 && !s.me.dom.chv) (badDomain s.me)
  if lvl = 4 then chamberBarrier s.me.dom.chm.toNat d m phase s
  else match s.myCore.task.bind s.task? with
    | none => block 1 (s.awaitObj (.barrier 0 0))
    | some t =>
      let x := domainOf t s.cur.1 lvl
      barrierBody lvl x.1 x.2 d m phase s

/-- `dbar` (R205, R206). -/
def execDbar (gd : Guard) (d : Fin 32) (m : Bool) (s : State) := runW gd 8 s (domainBarrier d m none)

/-- `dphase` (R205, R206). -/
def execDphase (gd : Guard) (d : Fin 32) (m comm : Bool) (s : State) := runW gd 8 s (domainBarrier d m (some comm))

/-- Every current member of the domain has arrived: of a chamber, the other modules' arrivals come from outside
(R204, R359). An arrival of a gang that has left the domain's place stands. (DEDUCED, log 30) -/
def State.allArrived (s : State) (b : Barrier) : Bool :=
  !b.arrived.isEmpty && (b.lvl == 4 || (s.domainMembers b.ctx b.lvl (b.key.toNat, b.place)).all b.has)

/-- Other modules take part in a chamber's barrier. -/
def State.othersAt (s : State) (b : Barrier) : Bool :=
  b.lvl == 4 && (s.chamber b.place).any (fun k => decide (1 < k.members.length))

/-- The flags, and the phase of a `dphase`, that other modules bring to a chamber's barrier.
(DESIGN CHOICE, log 14) -/
def State.otherFlags (s : State) (b : Barrier) : BitVec 5 := if s.othersAt b then Config.remoteFlags s.draws else 0
def State.otherPhase (s : State) (b : Barrier) : Option Bool := if s.othersAt b then Config.remotePhase s.draws else none

/-- BARRIER_RELEASE: a generation in which every member has arrived releases (R204, R206).
(DEDUCED, log 30) -/
def State.releaseBarrier (s : State) (dom : Nat) : Option State :=
  match s.barriers.find? (fun b => b.dom == dom) with
  | none => none
  | some b =>
    if !s.allArrived b then none
    else
      let done := b.flags ||| s.otherFlags b
      let phase := (s.otherPhase b).or b.phase
      let s := { s.draw with barriers := s.barriers.map (fun x =>
        if x.dom = dom then { x with gen := x.gen + 1, arrived := [], done := done } else x) }
      match phase with
      | none => some s
      | some p => some (b.arrived.foldl (fun s a =>
          s.modLnum b.ctx a.lnum (fun k => { k with late := { k.late with comm := p } })) s)

def execBarrierRelease (dom : Nat) (s : State) := runE s (s.releaseBarrier dom)

/-! ### dmem and ttime (R207, R209) -/

/-- `members * 2^16 + rank`; 0 on a core without a task, and for a chamber that is no longer active.
(DESIGN CHOICE, log 82) -/
def State.memberWord (s : State) (lvl : Nat) : Nat :=
  if lvl = 4 then
    if s.me.dom.chv then
      match s.chamber s.me.dom.chm.toNat with
      | some k => k.members.length * 2 ^ 16 + k.rank
      | none => 0
    else 0
  else match s.myCore.task.bind s.task? with
    | none => 0
    | some t =>
      let ms := s.members t s.cur.1 lvl
      ms.length * 2 ^ 16 + (ms.filter (fun n => decide (n < s.myCore.lnum.toNat))).length

/-- `dmem` (R205, R207): selector 7 takes the level of `%dom.lvl`. -/
def execDmem (gd : Guard) (d : Fin 32) (lvl : Fin 8) (s : State) :=
  runR gd 8 s (fun t => t.wg d (BitVec.ofNat 64 (s.memberWord (if lvl = 7 then t.dom.lvl.toNat else lvl.val))))

/-- Mesh position of a core in its die: row and column. -/
def meshOf (c : Nat) : Nat × Nat :=
  let u := cluOf c % 96
  (6 * (u / 12) + posOf c / 6, 6 * (u % 12) + posOf c % 6)

def natDist (a b : Nat) : Nat := (a - b) + (b - a)

/-- Cycles from one core to another (R209). -/
def travelTime (a b : Nat) : Nat :=
  let x := meshOf a
  let y := meshOf b
  if dieOf a = dieOf b then 4 + natDist x.1 y.1 + natDist x.2 y.2 else 44 + x.1 + y.1

/-- The physical core of a logical number given by a register; a core table that cannot be read ends the tasks of the
context (R246). -/
def State.coreOfWord (s : State) (x : Word) : Res (Option Nat) :=
  match s.coreEntry s.myCore.ctx x.toNat with
  | .ok c => .ok c
  | .error e => .error (.ended (s.stopCtx s.myCore.ctx e))

/-- `ttime` (R209). -/
def execTtime (gd : Guard) (d a b : Fin 32) (s : State) :=
  runW gd 8 s (fun s => do
    let x ← s.coreOfWord (s.me.rg a)
    let y ← s.coreOfWord (s.me.rg b)
    .ok (s.modMe (fun t => t.wg d (match x, y with
      | some x, some y => BitVec.ofNat 64 (travelTime x y)
      | _, _ => BitVec.allOnes 64))))

/-! ### Messages (R210 to R212) -/

/-- The smallest scope that holds two cores. -/
def scopeOf (a b : Nat) : Scope :=
  if a = b then .core else if cluOf a = cluOf b then .clu else if dieOf a = dieOf b then .die else .mod

/-- Local-store bytes that an instruction reads at its issue under R30, for an entry of the buffer: from an older store of
the strand or at the core order point. -/
def State.readPayload (s : State) (ls : List Loc) : Res (List Byte × State) := do
  let s ← s.touch ls
  s.bufRoom 1
  let t := s.me
  if t.fenced s.nextId || t.olderLoad s.nextId ls then stall s
  match t.forward s.nextId ls with
  | .wait => stall s
  | .bytes bs => .ok (bs, s)
  | .none => .ok (s.readLs s.cur.1 s.cur.2 ls)

/-- The message entry of the issuing strand is still in its buffer or on its way; `true`: it stands before a full
receiver. -/
def State.sendState (s : State) (id : Nat) : Option Bool :=
  if s.me.buf.any (fun e => e.id == id) then some false
  else match s.myCore.outq.find? (fun o => o.e.id == id) with
    | some o => some (o.stage == 1)
    | none => none

/-- `send` (R210): the strand waits until its message is placed, discarded or withdrawn. -/
def sendBody (a b : Fin 32) (disp : BitVec 16) (tag : Fin 16) (s : State) : Res State :=
  match s.me.waiting with
  | .send id => match s.sendState id with
    | none => .ok s
    | some full => block (if full then 8 else 0) s
  | _ => do
    let t := s.me.rg a
    let off := (s.me.rg b + disp.signExtend 64).toNat
    match ← s.coreOfWord t with
    | none => raise { code := 0x2A, detail := t }
    | some c => do
      let (bs, s) ← s.readPayload (s.myCore.lsRange off 32)
      let m : Msg := { kind := 0, mode := s.myCore.e4m3, tag := tag, src := s.myCore.lnum, data := bs }
      let id := s.nextId
      let s := s.pushBuf { id := 0, op := .send t.toNat m, rel := true, scope := scopeOf s.cur.1 c }
      stall (s.awaitObj (.send id))

/-- `send` (R210, R211). (DEDUCED, log 32) -/
def execSend (gd : Guard) (a b : Fin 32) (disp : BitVec 16) (tag : Fin 16) (s : State) :=
  runW gd 8 s (sendBody a b disp tag)

/-- The head message leaves the queue, and the oldest overflow entry takes the free place (R211). -/
def Core.popMsg (k : Core) : Core :=
  match k.rq with
  | [] => { k with ovf := k.ovf.drop 1 }
  | _ :: rest => { k with rq := rest ++ k.ovf.take 1, ovf := k.ovf.drop 1 }

/-- The oldest overflow entry moves to the queue: an area that cannot be read ends the tasks of its context (R246). -/
def State.overflowRead (s : State) : Res State :=
  let k := s.myCore
  match if k.ovf.isEmpty || k.task.isNone then none else s.overflowFault k.ctx false k.lnum.toNat 0 with
  | some e => .error (.ended (s.stopCtx k.ctx e))
  | none => .ok s

def Core.headMsg (k : Core) : Option Msg := (k.rq ++ k.ovf).head?

/-- The word `recv` writes. -/
def Msg.word (m : Msg) : Word :=
  BitVec.ofNat 64 (m.kind.val * 2 ^ 24 + 2 ^ 20 * b2n m.mode + m.tag.val * 2 ^ 16 + m.src.toNat)

/-- `recv` (R210, R212). -/
def recvBody (d a : Fin 32) (disp : BitVec 16) (s : State) : Res State :=
  match s.myCore.headMsg with
  | none => block 3 (s.awaitObj .recv)
  | some m => do
    trapIf (m.kind == 0 && m.mode != s.myCore.e4m3) { code := 0x28, detail := BitVec.ofNat 64 (b2n m.mode) }
    let off := (s.me.rg a + disp.signExtend 64).toNat
    let ls := s.myCore.lsRange off 32
    let s ← s.touch ls
    s.bufRoom 1
    let s ← s.overflowRead
    let s := (s.modMyCore Core.popMsg).pushEntry .store (ls.zip m.data) .plain .str (BitVec.ofNat 64 off) 0
    let now := s.nextId
    .ok (s.fresh.modMe (fun t => (t.wg d m.word).void .mod now))

/-- `recv` (R210, R212). (DEDUCED, log 32) -/
def execRecv (gd : Guard) (d a : Fin 32) (disp : BitVec 16) (s : State) := runW gd 8 s (recvBody d a disp)

/-- `rpoll` (R210). -/
def execRpoll (gd : Guard) (d : Fin 32) (s : State) :=
  runR gd 8 s (fun t => t.wg d (BitVec.ofNat 64 (s.myCore.rq.length + s.myCore.ovf.length)))

/-- Where a message for logical core `n` of a context goes: discarded, placed, or no room (R211, R212). -/
def State.placeMsg (s : State) (ctx n : Nat) (m : Msg) : Option State :=
  match s.coreByLnum ctx n with
  | some c => s.hand c m
  | none => match s.savedByLnum ctx n with
    | none => some s
    | some (id, i) => s.handSaved id i m

/-- The message entry `id` of core `core`, when it is the next to leave or stands before a full receiver. -/
def State.msgEntry (s : State) (core id : Nat) : Option (OutEntry × Nat × Msg) :=
  match s.outEntry core id with
  | none => none
  | some o => match o.e.op with
    | .send t m => if o.stage == 1 || (s.core core).firstOut id then some (o, t, m) else none
    | _ => none

/-- The smallest scope that holds core `c` and the core on which logical core `n` runs now; of a saved core, the module. -/
def State.scopeTo (s : State) (c ctx n : Nat) : Scope :=
  match s.coreByLnum ctx n with
  | some m => scopeOf c m
  | none => if (s.savedByLnum ctx n).isSome then .mod else .core

/-- What the strand of the message has stored before it is performed at a scope that holds the receiver as it stands now
(R212). -/
def State.storesAhead (s : State) (core : Nat) (o : OutEntry) (t : Nat) : Bool :=
  let k := s.core core
  ({ k with outq := k.outq.takeWhile (fun x => x.e.id != o.e.id) } : Core).performed o.strand (s.scopeTo core o.ctx t)

/-- MESSAGE_PLACE: the message arrives (R211, R212). -/
def State.arriveMsg (s : State) (core id : Nat) : Option State :=
  match s.msgEntry core id with
  | none => none
  | some (o, t, m) =>
    if !s.storesAhead core o t then none
    else match s.placeMsg o.ctx t m with
      | some s => some (s.dropOut core id)
      | none => some (s.stageOut core id)

def execMessagePlace (core id : Nat) (s : State) := runE s (s.arriveMsg core id)

/-- SEND_STALL: a message that has stood before a full receiver for 1 ms is withdrawn with a trap (R211). -/
def State.withdrawMsg (s : State) (core id : Nat) : Option State :=
  match s.msgEntry core id with
  | none => none
  | some (o, t, _) =>
    if o.stage = 1 && o.task == (s.core core).task && !(s.core core).frozen then
      let s := (s.dropOut core id).modStrandAt core o.strand (fun x => { x with wait := .none })
      some (s.trapAt core o.strand { code := 0x2B, detail := BitVec.ofNat 64 t })
    else none

def execSendStall (core id : Nat) (s : State) := runE s (s.withdrawMsg core id)

end Sys2Proof.Machine
end

