-- ==== Sys2Proof/Machine/Hazard.lean ====
section
/-! DEFINITION. The registers an instruction reads and writes: what the scoreboard holds it for (R19, R22,
R28, R50), and the majors that may run ahead of a repeat sequence (R145). -/

namespace Sys2Proof

open Sys2Proof.Machine (RegName)

/-- The predicate of a guard is a source (R50). -/
def Guard.src (g : Guard) : List RegName := [.p g.p]

def BSrc.src : BSrc → List RegName
  | .reg b => [.g b]
  | _ => []

def VOp.regs : VOp → List RegName
  | .v n => [.v n]
  | .c _ => []

def VB.src : VB → List RegName
  | .vec x => x.regs
  | .scal b => [.g b]

def EOp.src : EOp → List RegName
  | .ls n => [.g n]
  | .c _ => []

def LSide.src : LSide → List RegName
  | .ls n => [.g n]
  | .c _ => []

def OpsSrc.src : OpsSrc → List RegName
  | .imm _ => []
  | .reg b => [.g b]

def CntSrc.src : CntSrc → List RegName
  | .imm _ => []
  | .reg a => [.g a]

def MaskSrc.src : MaskSrc → List RegName
  | .imm _ => []
  | .reg a => [.g a]

def Mem.src (m : Mem) : List RegName := [.g m.a, .g m.b]
def Alu2.src (x : Alu2) : List RegName := x.gd.src ++ [.g x.a] ++ x.b.src
def Alu1.src (x : Alu1) : List RegName := x.gd.src ++ [.g x.a]
def Atom.src (x : Atom) : List RegName := x.gd.src ++ [.g x.a, .g x.b]
def VBin.src (x : VBin) : List RegName := x.gd.src ++ x.a.regs ++ x.b.src
def VUn.src (x : VUn) : List RegName := x.gd.src ++ x.a.regs
def VTri.src (x : VTri) : List RegName := x.gd.src ++ x.a.regs ++ x.b.src ++ x.c.regs
def Spec.src (x : Spec) : List RegName := x.gd.src ++ x.a.regs
def Dot.src (x : Dot) : List RegName := x.gd.src ++ x.act.src ++ x.rcd.src
def Joint.src (x : Joint) : List RegName := x.gd.src ++ [.g x.a, .g x.b]
def Copy.src (x : Copy) : List RegName := x.gd.src ++ [.g x.a, .g x.c] ++ x.b.src
def Coll.src (x : Coll) : List RegName := x.gd.src ++ [.g x.a, .g x.b]

/-- The registers an instruction reads. -/
def Instr.srcs : Instr → List RegName
  | .add x | .sub x | .mul x | .mulh x | .div x | .rem x | .and x | .or x | .xor x | .andn x
  | .shl x | .shr x | .sar x | .rol x | .min x | .max x => x.src
  | .clz x | .ctz x | .popc x | .mov x => x.src
  | .sel gd _ a b c => gd.src ++ [.g a, .g b, .p c]
  | .cmp gd _ _ _ a b => gd.src ++ [.g a] ++ b.src
  | .bext gd _ a _ _ _ => gd.src ++ [.g a]
  | .bins gd d a _ _ => gd.src ++ [.g d, .g a]
  | .lea gd _ a b _ _ => gd.src ++ [.g a, .g b]
  | .li gd _ _ => gd.src
  | .nop _ | .nopBlk => []
  | .br gd _ | .jmp gd _ | .jal gd _ _ | .trap gd _ => gd.src
  | .jr gd _ a _ => gd.src ++ [.g a]
  | .ret gd a => gd.src ++ [.g a]
  | .loop gd d _ => gd.src ++ [.g d]
  | .sysrd gd _ _ _ => gd.src
  | .syswr gd a _ _ => gd.src ++ [.g a]
  | .thaw gd _ a => gd.src ++ [.g a]
  | .ld gd _ m _ _ _ => gd.src ++ m.src
  | .st gd d m _ _ _ => gd.src ++ m.src ++ [.g d]
  | .ldp gd _ _ m _ _ => gd.src ++ m.src
  | .stp gd d c m _ _ => gd.src ++ m.src ++ [.g d, .g c]
  | .fence gd _ _ | .qfence gd _ => gd.src
  | .aadd x | .amin x | .amax x | .aand x | .aor x | .axor x | .aswap x | .afadd x => x.src
  | .acas x c => x.src ++ [.g c]
  | .xstart gd _ _ a1 a2 a3 a4 => gd.src ++ [.g a1, .g a2, .g a3, .g a4]
  | .xjoin gd m => gd.src ++ m.src
  | .xend gd => gd.src
  | .tspawn gd _ a | .tjoin gd _ a => gd.src ++ [.g a]
  | .tfin gd => gd.src
  | .tself gd _ _ => gd.src
  | .wapp gd _ a _ => gd.src ++ [.g a]
  | .wtake gd _ _ _ => gd.src
  | .dbar gd _ _ | .dphase gd _ _ _ | .dmem gd _ _ => gd.src
  | .ttime gd _ a b => gd.src ++ [.g a, .g b]
  | .cdef gd _ a _ _ _ => gd.src ++ [.g a]
  | .cadvProd gd _ k | .cadvCons gd _ k | .cwaitProd gd _ k | .cwaitCons gd _ k => gd.src ++ k.src
  | .cstat gd _ _ => gd.src
  | .sbind gd _ _ a _ _ _ _ _ _ _ => gd.src ++ [.g a]
  | .sunbind gd _ => gd.src
  | .send gd a b _ _ => gd.src ++ [.g a, .g b]
  | .recv gd _ a _ => gd.src ++ [.g a]
  | .rpoll gd _ => gd.src
  | .vadd x | .vsub x | .vmul x | .vmin x | .vmax x | .vand x | .vor x | .vxor x | .vshl x | .vshr x
  | .vsar x => x.src
  | .vfma x | .vfms x => x.src
  | .vabs x | .vneg x => x.src
  | .vcvt gd _ a _ _ _ _ => gd.src ++ a.regs
  | .vcmp gd _ a b _ _ _ => gd.src ++ a.regs ++ b.src
  | .vsel gd _ a b c _ => gd.src ++ a.regs ++ b.regs ++ [.p c]
  | .vperm gd _ a b _ => gd.src ++ a.regs ++ b.regs
  | .vbcast gd _ (.scal a) _ => gd.src ++ [.g a]
  | .vbcast gd _ (.lane a _) _ => gd.src ++ a.regs
  | .vsum gd _ a _ _ _ _ => gd.src ++ a.regs
  | .vdot gd d a b _ _ _ => gd.src ++ d.regs ++ a.regs ++ b.src
  | .vld x => x.gd.src ++ [.g x.a]
  | .vst x => x.gd.src ++ [.g x.a] ++ x.d.regs
  | .vgath x => x.gd.src ++ [.g x.a] ++ x.b.regs
  | .vscat x => x.gd.src ++ [.g x.a] ++ x.b.regs ++ x.d.regs
  | .vmov gd (.vec _ a) _ => gd.src ++ a.regs
  | .vmov gd (.toG _ a _) _ => gd.src ++ a.regs
  | .vmov gd (.fromG _ a _) _ => gd.src ++ [.g a]
  | .fexp x | .flog x | .frcp x | .frsq x | .fsqrt x | .fsin x | .fcos x | .ftanh x | .fsig x | .fgelu x
  | .fsilu x | .ferf x => x.src
  | .lplan gd _ r _ _ => gd.src ++ r.src
  | .ldot x | .ldot2 x => x.src
  | .lsort gd d a _ _ _ _ => gd.src ++ d.src ++ a.src
  | .lclr gd _ _ | .lrd gd _ _ _ _ | .lrdRaw gd _ _ _ | .lrdSt gd _ _ | .lrdV gd _ _ _ _ _ => gd.src
  | .lwr gd _ a b c | .lwrAdd gd _ a b c => gd.src ++ [.g a, .g b, .g c]
  | .lprog gd _ | .lprogDrop gd => gd.src
  | .lprogSet gd a | .lpert gd a => gd.src ++ [.g a]
  | .lgang x | .lrot x => x.src
  | .hnew gd _ a o | .hwiden gd _ a o | .hnarrow gd _ a o => gd.src ++ [.g a] ++ o.src
  | .hfree gd _ a | .hquery gd _ a _ | .himport gd _ a => gd.src ++ [.g a]
  | .hbind gd _ _ a b c => gd.src ++ [.g a, .g b, .g c]
  | .hunbind gd _ | .hunbindWb gd _ _ => gd.src
  | .hcopyLd x _ | .hcopySt x | .hgath x | .hscat x | .hscatAdd x => x.src
  | .hexport gd _ a b => gd.src ++ [.g a, .g b]
  | .kview gd _ a b => gd.src ++ [.g a, .g b]
  | .kviewDrop gd _ b | .kbar gd _ b => gd.src ++ [.g b]
  | .kred x _ => x.src
  | .kbcast x | .kgath x | .krsc x => x.src
  | .kjoin gd _ a b | .kstat gd _ a b _ => gd.src ++ [.g a, .g b]
  | .pair gd _ a => gd.src ++ [.g a]
  | .unpair gd _ | .fprint gd _ | .fprintLast gd _ | .fprintSt gd _ => gd.src
  | _ => []

/-- The registers an instruction writes. -/
def Instr.dsts : Instr → List RegName
  | .add x | .sub x | .mul x | .mulh x | .div x | .rem x | .and x | .or x | .xor x | .andn x
  | .shl x | .shr x | .sar x | .rol x | .min x | .max x => [.g x.d]
  | .clz x | .ctz x | .popc x | .mov x => [.g x.d]
  | .sel _ d _ _ _ | .bext _ d _ _ _ _ | .bins _ d _ _ _ | .lea _ d _ _ _ _ | .li _ d _ => [.g d]
  | .cmp _ _ _ d _ _ => [.p d]
  | .jal _ d _ | .jr _ d _ _ | .loop _ d _ | .sysrd _ d _ _ | .thaw _ d _ => [.g d]
  | .ld _ d _ _ _ _ => [.g d]
  | .ldp _ d c _ _ _ => [.g d, .g c]
  | .aadd x | .amin x | .amax x | .aand x | .aor x | .axor x | .aswap x | .afadd x => [.g x.d]
  | .acas x _ => [.g x.d]
  | .tspawn _ d _ | .tjoin _ d _ | .tself _ d _ | .wapp _ d _ _ => [.g d]
  | .wtake _ d c _ => [.g d, .g c]
  | .dbar _ d _ | .dphase _ d _ _ | .dmem _ d _ | .ttime _ d _ _ => [.g d]
  | .cstat _ d _ | .recv _ d _ _ | .rpoll _ d => [.g d]
  | .vadd x | .vsub x | .vmul x | .vmin x | .vmax x | .vand x | .vor x | .vxor x | .vshl x | .vshr x
  | .vsar x => x.d.regs
  | .vfma x | .vfms x => x.d.regs
  | .vabs x | .vneg x => x.d.regs
  | .vcvt _ d _ _ _ _ _ => d.regs
  | .vcmp _ d _ _ _ _ _ => [.p d]
  | .vsel _ d _ _ _ _ | .vperm _ d _ _ _ | .vbcast _ d _ _ | .vsum _ d _ _ _ _ _
  | .vdot _ d _ _ _ _ _ => d.regs
  | .vld x => x.d.regs
  | .vgath x => x.d.regs
  | .vmov _ (.vec d _) _ => d.regs
  | .vmov _ (.toG d _ _) _ => [.g d]
  | .vmov _ (.fromG d _ _) _ => d.regs
  | .fexp x | .flog x | .frcp x | .frsq x | .fsqrt x | .fsin x | .fcos x | .ftanh x | .fsig x | .fgelu x
  | .fsilu x | .ferf x => x.d.regs
  | .lrd _ d _ _ _ | .lrdSt _ d _ => [.g d]
  | .lrdRaw _ d b _ => [.g d, .g b]
  | .lrdV _ d _ _ _ _ => d.regs
  | .lprog _ d => [.g d]
  | .hnew _ d _ _ | .hwiden _ d _ _ | .hnarrow _ d _ _ => [.g d]
  | .hfree _ d _ | .hquery _ d _ _ | .himport _ d _ => [.g d]
  | .hbind _ d _ _ _ _ | .hunbindWb _ d _ => [.g d]
  | .hcopyLd x _ | .hcopySt x | .hgath x | .hscat x | .hscatAdd x => [.g x.d]
  | .hexport _ d _ _ | .kview _ d _ _ | .kviewDrop _ d _ | .kbar _ d _ => [.g d]
  | .kred x _ => [.g x.d]
  | .kbcast x | .kgath x | .krsc x => [.g x.d]
  | .kjoin _ d _ _ | .kstat _ d _ _ _ => [.g d]
  | .pair _ d _ | .unpair _ d | .fprint _ d | .fprintLast _ d | .fprintSt _ d => [.g d]
  | _ => []

/-- Every register an instruction names: none may be pending when it issues (R22, R28). -/
def Instr.regs (i : Instr) : List RegName := i.srcs ++ i.dsts

/-- The registers that say how many slots an instruction waits for (R158). -/
def Instr.countRegs : Instr → List RegName
  | .cadvProd _ _ k | .cadvCons _ _ k | .cwaitProd _ _ k | .cwaitCons _ _ k => k.src
  | _ => []

/-- The registers that say which places an instruction accesses as it issues (R106, R129, R210). -/
def Instr.placeRegs : Instr → List RegName
  | .ld _ _ m _ _ _ | .st _ _ m _ _ _ | .ldp _ _ _ m _ _ | .stp _ _ _ m _ _ => m.src
  | .vld x | .vst x => [.g x.a]
  | .vgath x | .vscat x => [.g x.a] ++ x.b.regs
  | .send _ _ b _ _ => [.g b]
  | .recv _ _ a _ => [.g a]
  | .aadd x | .amin x | .amax x | .aand x | .aor x | .axor x | .aswap x | .afadd x | .acas x _ => [.g x.a]
  | i => i.srcs

/-- The whole guard of an instruction (R49). -/
def Instr.whole : Instr → Option Guard
  | .add x | .sub x | .mul x | .mulh x | .div x | .rem x | .and x | .or x | .xor x | .andn x
  | .shl x | .shr x | .sar x | .rol x | .min x | .max x => some x.gd
  | .clz x | .ctz x | .popc x | .mov x => some x.gd
  | .aadd x | .amin x | .amax x | .aand x | .aor x | .axor x | .aswap x | .acas x _ | .afadd x => some x.gd
  | .ldot x | .ldot2 x => some x.gd
  | .lgang x | .lrot x => some x.gd
  | .hcopyLd x _ | .hcopySt x | .hgath x | .hscat x | .hscatAdd x => some x.gd
  | .kred x _ | .kbcast x | .kgath x | .krsc x => some x.gd
  | .sel g .. | .cmp g .. | .bext g .. | .bins g .. | .lea g .. | .li g .. | .br g _ | .jmp g _ | .jal g .. | .jr g ..
  | .ret g _ | .loop g .. | .trap g _ | .sysrd g .. | .syswr g .. | .thaw g .. | .ld g .. | .st g .. | .ldp g ..
  | .stp g .. | .fence g .. | .qfence g _ | .xstart g .. | .xjoin g _ | .xend g | .tspawn g .. | .tjoin g .. | .tfin g
  | .tself g .. | .wapp g .. | .wtake g .. | .dbar g .. | .dphase g .. | .dmem g .. | .ttime g .. | .cdef g ..
  | .cadvProd g .. | .cadvCons g .. | .cwaitProd g .. | .cwaitCons g .. | .cstat g .. | .sbind g .. | .sunbind g _
  | .send g .. | .recv g .. | .rpoll g _ | .lplan g .. | .lsort g .. | .lclr g .. | .lrd g .. | .lrdRaw g ..
  | .lrdSt g .. | .lrdV g .. | .lwr g .. | .lwrAdd g .. | .lprog g _ | .lprogSet g _ | .lprogDrop g | .lpert g _
  | .hnew g .. | .hfree g .. | .hwiden g .. | .hnarrow g .. | .hquery g .. | .hbind g .. | .hunbind g _
  | .hunbindWb g .. | .hexport g .. | .himport g .. | .kview g .. | .kviewDrop g .. | .kbar g .. | .kjoin g ..
  | .kstat g .. | .pair g .. | .unpair g _ | .fprint g _ | .fprintLast g _ | .fprintSt g _ => some g
  | _ => none

/-- Majors 0x01 to 0x1A and 0x30 to 0x36 (R145). -/
def Instr.runsAhead : Instr → Bool
  | .add _ | .sub _ | .mul _ | .mulh _ | .div _ | .rem _ | .and _ | .or _ | .xor _ | .andn _
  | .shl _ | .shr _ | .sar _ | .rol _ | .clz _ | .ctz _ | .popc _ | .min _ | .max _
  | .sel .. | .cmp .. | .bext .. | .bins .. | .lea .. | .mov _ | .li .. | .nop _ | .nopBlk
  | .br .. | .jmp .. | .jal .. | .jr .. | .ret .. | .loop .. => true
  | _ => false

end Sys2Proof
end

