-- ==== Sys2Proof/Machine/Issue.lean ====
section
/-! DEFINITION. Issue: the order of the barrel (R19), instruction fetch (R55 to R58), the decode traps (R59),
the scoreboard (R22), a pending membership change (R363), the fingerprint of retired instructions (R237) and
the instructions that run ahead of a repeat sequence (R145). The meaning of an instruction is an argument. -/

namespace Sys2Proof.Machine

/-- What an instruction does: the type of `exec`. -/
abbrev Meaning := Instr → State → Host.Outcome State Fault Refusal

/-! ### The barrel (R19) -/

/-- Insertion by stamp; of equal stamps the lower number comes first. -/
def insertStrand (k : Core) (h : Fin 11) : List (Fin 11) → List (Fin 11)
  | [] => [h]
  | x :: xs => if k.strands[h].stamp ≤ k.strands[x].stamp then h :: x :: xs else x :: insertStrand k h xs

/-- The live strands of a core, smallest stamp first. (DEDUCED, log 6) -/
def Core.order (k : Core) : List (Fin 11) :=
  ((List.finRange 11).filter (fun h => k.strands[h].live)).foldr (insertStrand k) []

/-! ### Fetch (R51, R55 to R58) -/

/-- Why nothing was fetched: a fetch-fault with its sub-code, a block that has not arrived, or a route table that the hubs
cannot read (R246). -/
inductive NoFetch
  | fault (sub : Nat)
  | wait
  | ended (s : State)

/-- The aligned 8-byte units from `u` on, as memory is now or as the core has taken them since its instruction cache was
emptied: `held` tells for each (R58). (DESIGN CHOICE, log 3; DEDUCED, log 23) -/
def fetchUnits (cache : Sparse (List Word)) (rd : Nat → Word) : Nat → List Nat → Nat → List Word × Sparse (List Word)
  | _, _, 0 => ([], cache)
  | u, held, n + 1 =>
    let had := (sfind cache u).getD []
    let w := match held.headD 0 with
      | 0 => rd u
      | j + 1 => had.getD j (rd u)
    let cache := if had.contains w then cache else sput cache u (had ++ [w])
    let r := fetchUnits cache rd (u + 1) (held.drop 1) n
    (w :: r.1, r.2)

/-- The physical block of a PC of the issuing strand: its address, in this module's memory or in another's, which stands
with it (R56, R57, R315, R348, R379). (DEDUCED, log 21; DESIGN CHOICE, log 74) -/
def State.fetchAddr (s : State) (va : Nat) : Except NoFetch ((Nat ⊕ Nat) × State) :=
  let ctx := s.myCore.ctx
  if fixedBase ≤ va then .error (.fault 1)
  else match s.rangeOf ctx va with
    | some _ => .error (.fault 1)
    | none =>
      match s.leafFor s.cur.1 ctx va with
      | .error .translation => .error (.fault 0)
      | .error .protection => .error (.fault 1)
      | .ok (l, s) =>
        if !l.exec || l.home == 2 || (l.privOnly && !s.me.priv) then .error (.fault 1)
        else if l.home = 3 then
          if 4608 ≤ l.route then .error (.fault 1)
          else match s.routeEntry ctx l.route with
          | .error e => .error (.ended (s.stopCtx ctx e))
          | .ok _ => match s.routeOf ctx l.route with
            | none => .error (.fault 0)
            | some m => if s.lost.contains m then .error (.fault 0)
                else .ok (.inr ((m + 1) * 2 ^ 58 + l.remote va), s)
        else if s.poisoned.contains (l.phys va / 64) then .error (.fault 1)
        else .ok (.inl (l.phys va), s)

/-- A unit of memory. (DEDUCED, log 23) -/
def State.memUnit (s : State) (u : Nat) : Word := BitVec.ofNat 64 (leNat (memRead s.mem (8 * u) 8))

/-- A unit of a hub copy of another module's line (R349). (DEDUCED, log 24) -/
def State.copyUnit (s : State) (u : Nat) : Option Word :=
  let a := 8 * u
  (sfind s.rcopies ((a / 2 ^ 58 - 1) * 2 ^ 52 + lineNo a)).map
    (fun x => BitVec.ofNat 64 (leNat ((x.data.drop (a % 64)).take 8)))
where lineNo (a : Nat) : Nat := a % 2 ^ 58 / 64

/-- The unit at a fetched place as it is now; none while the hub has no copy of another module's line. -/
def State.unitAt (s : State) (place : Nat ⊕ Nat) : Option Word :=
  match place with
  | .inl a => some (s.memUnit (a / 8))
  | .inr a => s.copyUnit (a / 8)

def unitNo : Nat ⊕ Nat → Nat
  | .inl a => a / 8
  | .inr a => a / 8

/-- A prefetch for strand `h` of core `c`: the core takes the unit that holds address `va` as it is now, where the strand
could execute it (R55, R58). (DEDUCED, log 23) -/
def State.prefetch (s : State) (c : Nat) (h : Fin 11) (va : Nat) : State :=
  if !(s.strandAt c h).live || 2 ^ 57 ≤ va then s
  else match ({ s with cur := (c, h) } : State).fetchAddr va with
    | .error _ => s
    | .ok (place, _) => match s.unitAt place with
      | none => s
      | some w => s.modCore c (fun k =>
          { k with icache := (fetchUnits k.icache (fun _ => w) (unitNo place) [] 1).2 })

/-- The bytes of the fetch block from `pc` on. (DEDUCED, log 23) -/
def State.fetch (s : State) (pc : Pc) (held : List Nat) : Except NoFetch (List Byte × State) :=
  match s.fetchAddr pc.toNat with
  | .error e => .error e
  | .ok (place, s) =>
    if (s.unitAt place).isNone then .error .wait
    else
      let a := match place with
        | .inl a => a
        | .inr a => a
      let rd (u : Nat) : Word := match place with
        | .inl _ => s.memUnit u
        | .inr _ => (s.copyUnit u).getD 0
      let r := fetchUnits s.myCore.icache rd (a / 8) held (4 - a % 32 / 8)
      .ok ((r.1.flatMap (fun w => leBytes 8 w.toNat)).drop (a % 8), s.modMyCore (fun k => { k with icache := r.2 }))

/-- The trap of a decode check (R59, R229). (DEDUCED, log 7) -/
def decodeTrap (pc : Word) : Decode.DecTrap → Trap
  | .illegalLength => { code := 0x01, addr := pc }
  | .illegalInstruction => { code := 0x02, addr := pc }
  | .illegalOperand f => { code := 0x03, addr := pc, detail := BitVec.ofNat 64 f }
  | .fetchBoundary => { code := 0x04, addr := pc }

/-! ### Fingerprints (R237) -/

/-- The registers that have taken a result of instruction `i`, before which the strand was `t0` and after which it is `t`: not
g0 and p0, and none where a guard holds the write back (R11, R49, R124) or `wtake` returns no item (R255). -/
def Strand.results (t0 t : Strand) (i : Instr) : List RegName :=
  let rs : List RegName := match i with
    | .vmov gd (.toG d _ l) _ => if t0.laneOn gd l.val then [.g d] else []
    | .wtake _ d c _ => if t.rg c = 0 then [.g d, .g c] else [.g c]
    | i => i.dsts
  if i.whole.any (fun gd => !t0.guardOn gd) then [] else rs.filter (fun r => r != .g 0 && r != .p 0)

/-- What instruction `i`, before which the strand was `t0`, contributes: its results, then the addresses of the accesses it
has issued, from identifier `since` on (R237). (DEDUCED, log 45) -/
def Strand.traceOf (t0 t : Strand) (i : Instr) (since : Nat) : List TrailPart :=
  (t0.results t i).map (fun r => if t.pending r then .reg r else .bytes (t.resultBytes r))
    ++ (t.loads.filter (fun l => decide (since ≤ l.id))).map (fun l => .bytes (leBytes 8 l.va.toNat))
    ++ (t.buf.filter (fun e => decide (since ≤ e.id))).flatMap (fun e => e.vas.map (fun a => .bytes (leBytes 8 a.toNat)))

/-- A register that no access holds any more has its result. -/
def TrailPart.settle (t : Strand) : TrailPart → TrailPart
  | .bytes bs => .bytes bs
  | .reg r => if t.pending r then .reg r else .bytes (t.resultBytes r)

/-- The instruction's results are all there, and its loads are complete. -/
def Trail.closed (x : Trail) (t : Strand) : Bool :=
  x.parts.all (fun p => match p with
    | .bytes _ => true
    | .reg _ => false)
    && t.loads.all (fun l => !(decide (x.since ≤ l.id) && decide (l.id < x.upto)))

def Trail.all (x : Trail) : List Byte :=
  x.parts.flatMap (fun p => match p with
    | .bytes bs => bs
    | .reg _ => [])

/-- Registers of `lead`, the core as it was before its present instruction, give the results that were awaited. -/
def Core.settleTrail (k lead : Core) : Core :=
  { k with trail := k.trail.map (fun x => { x with parts := x.parts.map (TrailPart.settle lead.strands[x.strand]) }) }

/-- The fingerprint takes the retired instructions that are complete, in the order of retirement (R237). -/
def Core.takeTrail (k : Core) : Core :=
  let done := k.trail.takeWhile (fun x => x.closed k.strands[x.strand])
  { k with fp := crc32 k.fp (done.flatMap Trail.all), trail := k.trail.drop done.length }

/-- The core with a fingerprint over all that is complete now. -/
def Core.printed (k : Core) : Core := (k.settleTrail k).takeTrail

/-- The interval of a pair is full: `n` instructions, 256 stores, or 16 KiB of old bytes (R237). -/
def Core.pairFull (k : Core) (p : PairRec) (n : Nat) : Bool :=
  decide (p.interval ≤ n) || decide (256 ≤ (k.outq.filter OutEntry.held).length) || decide (16384 ≤ k.undo.length)

/-- Retirement of `n` instructions of a strand of core `c` with what they contribute; `k0` is the core before
them. (DEDUCED, log 45) -/
def State.noteRetired (s : State) (c : Nat) (k0 : Core) (n : Nat) (x : Trail) : State :=
  let s := s.modCore c (fun k =>
    let k := k.settleTrail k0
    ({ k with trail := k.trail ++ [x] } : Core).takeTrail)
  let passed := s.pairs.any (fun p => p.leader == c && p.pass)
  let s := if passed then s.releaseHeld c else s
  { s with pairs := s.pairs.map (fun p =>
      if p.leader = c then
        { p with retired := p.retired + n, pass := false, settle := p.settle || p.pass
                 due := p.due || (s.core c).pairFull p (p.retired + n) }
      else p) }

/-- An instruction that reaches beyond a pair (R237). -/
def beyondPair : Instr → Bool
  | .aadd _ | .amin _ | .amax _ | .aand _ | .aor _ | .axor _ | .aswap _ | .acas .. | .afadd _
  | .send .. | .recv .. | .rpoll .. | .tspawn .. | .tjoin .. | .tfin .. | .tself .. | .wapp .. | .wtake ..
  | .dbar .. | .dphase .. | .lgang _ | .lrot _
  | .hnew .. | .hfree .. | .hwiden .. | .hnarrow .. | .hquery .. | .hbind .. | .hunbind .. | .hunbindWb ..
  | .hcopyLd .. | .hcopySt .. | .hgath .. | .hscat .. | .hscatAdd .. | .hexport .. | .himport ..
  | .kview .. | .kviewDrop .. | .kred .. | .kbcast .. | .kgath .. | .krsc .. | .kbar .. | .kjoin .. | .kstat ..
  | .unpair .. => true
  | .sysrd _ _ reg _ => decide (0x40 ≤ reg.toNat)
  | _ => false

/-! ### Membership change (R363) -/

/-- An instruction whose wait is itself cut short by a membership change. (DEDUCED, log 53) -/
def State.chamberWait (s : State) (i : Instr) (chm : Nat) : Bool :=
  match i with
  | .kbar _ _ b => (s.me.rg b).toNat % 256 == chm
  | .dbar _ _ _ | .dphase _ _ _ _ => s.me.dom.lvl == 4 && s.me.dom.chm.toNat == chm
  | .qfence _ m => m.getLsbD 3
  | _ => false

/-- The arrival of core `c` at a barrier is withdrawn. -/
def State.withdraw (s : State) (c : Nat) : WaitObj → State
  | .barrier d g => { s with barriers := s.barriers.map (fun b =>
      if b.dom = d ∧ b.gen = g then
        { b with arrived := b.arrived.filter (fun x => x.lnum != (s.core c).lnum.toNat) } else b) }
  | _ => s

/-- The issuing strand takes its pending membership-change trap, once its earlier instructions are complete (R24).
(DEDUCED, log 53) -/
def State.takeChange (s : State) (ch : Change) : State :=
  if !s.earlierDone then s.waitOn 0
  else
  let s := ((s.withdraw s.cur.1 s.me.waiting).awaitObj .none).modMe (fun t => { t with changes := t.changes.drop 1 })
  s.takeTrap { code := 0x33, sub := ch.sub, addr := ch.hnd
               detail := BitVec.ofNat 64 (2 ^ 32 * ch.view + 2 ^ 24 * ch.chm + ch.count % 2 ^ 13) }

/-! ### One attempt to issue -/

/-- A strand waits outside a blocking point: a stall, or the reply of another module's memory (R21, R22). -/
def Strand.gateCode (t : Strand) : BitVec 4 := if t.awaitsRemote then 4 else 0

/-- What follows the retirement of instruction `i`, before which the state was `s0`: a sequence of repeats that was
interrupted is forgotten by any other instruction (R146), and the fingerprint takes the results. -/
def State.afterIssue (s : State) (i : Instr) (s0 : State) : State :=
  let isRep := match i with
    | .rep .. => true
    | _ => false
  if isRep then s
  else (s.modMe (fun t => { t with repact := false, repcnt := 0 })).noteRetired s.cur.1 s0.myCore 1
    ⟨s.cur.2, s0.nextId, s.nextId, s0.me.traceOf s.me i s0.nextId⟩

/-- The pair in which core `c` leads. -/
def State.leads (s : State) (c : Nat) : Option PairRec := s.pairs.find? (fun p => p.leader == c)

/-- The stores that wait are released, and the shadow of the pair that core `c` leads keeps the errors that no write has
covered (R152, R237). -/
def State.beside (s : State) (c : Nat) : State :=
  match s.leads c with
  | none => s.releaseHeld c
  | some p => (s.releaseHeld c).modCore p.shadow (fun k => { k with bad := k.badBeside (s.core c) })

/-- The agreed point of the pair that core `c` leads is the present state: the stores are released and the undo window
is cleared (R237). -/
def State.agreePoint (s : State) (c : Nat) : State :=
  let s := (s.beside c).modCore c (fun k => { k with undo := [], whole := [] })
  { s with pairs := s.pairs.map (fun p => if p.leader = c then { p with snap := s.core c, settle := false } else p) }

/-- The entries that reach beyond the pair have left the buffers. -/
def Core.left (k : Core) : Bool :=
  k.strands.toList.all (fun t => t.buf.all (fun e => !e.counts || e.op == .store))

/-- What a pair makes of an attempt to issue instruction `i` (R237): the state with which it goes on, or in which it
waits. -/
def State.pairGate (s : State) (i : Instr) : Except State State :=
  let c := s.cur.1
  match s.leads c with
  | none => .ok s
  | some p =>
    if p.settle && !s.myCore.left then .error s
    else
      let s := if p.settle then s.agreePoint c else s
      if p.due then .error s
      else if beyondPair i && !p.pass then
        .error { s with pairs := s.pairs.map (fun p => if p.leader = c then { p with due := true } else p) }
      else .ok s

/-- A strand whose registers are not all there waits: with the code of the cistern, message or window that it waits on too,
where that does not hang on a register it lacks (R23). -/
def State.heldWait (s : State) (ex : Meaning) (i : Instr) : State :=
  match ex i s with
  | .next s' =>
    let b := s'.me.blk
    let known := match b.toNat with
      | 2 | 5 => !i.countRegs.any s.me.pending
      | 3 => true
      | 6 => !i.regs.any s.me.pending
      | 7 => !i.placeRegs.any s.me.pending
      | _ => false
    if !s'.retired && !(s'.core s.cur.1).frozen && known then s' else s.waitOn 0
  | _ => s.waitOn 0

/-- A strand whose gates hold its next instruction: it waits with the code of the cistern, message or helpers that the
instruction would wait on too, where that is the lower (R21, R23). -/
def State.gateWait (s : State) (ex : Meaning) (held : List Nat) : State :=
  let code := s.me.gateCode
  match s.fetch s.me.pc held with
  | .error _ => s.waitOn code
  | .ok (bs, _) => match Decode.decode (s.me.pc.toNat % 32) bs with
    | .error _ => s.waitOn code
    | .ok i => match ex i s with
      | .next s' =>
        let known := match s'.me.wait with
          | .slots _ => !i.countRegs.any s.me.pending
          | .recv => true
          | .helpers _ => !i.regs.any s.me.pending
          | _ => false
        if !s'.retired && !(s'.core s.cur.1).frozen && s.me.wait != s'.me.wait && known then
          (s.awaitObj s'.me.wait).waitOn (lowCode code s'.me.blk)
        else s.waitOn (lowCode code (s.waitCode s.myCore s.me.waiting))
      | _ => s.waitOn code

/-- The issuing strand issues the decoded instruction `i`, unless something holds it.
(DEDUCED, log 77) -/
def issueDecoded (ex : Meaning) (i : Instr) (s : State) : Host.Outcome State Fault Refusal :=
  if i.regs.any s.me.pending then .next (s.heldWait ex i)
  else match s.pairGate i with
    | .error s => .next (s.waitOn 0)
    | .ok s =>
      match ex i s with
      | .next s' =>
        match s.me.changes with
        | ch :: _ =>
          if s'.retired || (s'.core s.cur.1).frozen || s.me.changes.any (fun x => s.chamberWait i x.chm) then
            .next (s.takeChange ch)
          else .next s'
        | [] => .next (if s'.retired then s'.afterIssue i s else s')
      | o => o

/-- An attempt of a strand with no sequence of repeats in progress. -/
def attemptPlain (ex : Meaning) (held : List Nat) (s : State) : Host.Outcome State Fault Refusal :=
  if !s.me.gates.isEmpty then .next (s.gateWait ex held)
  else
    let pc := s.me.pc
    match s.fetch pc held with
    | .error .wait => .next (s.waitOn 0)
    | .error (.ended s) => .next { s with retired := false }
    | .error (.fault sub) =>
      .next ((s.modMe (fun t => { t with iw := 0 })).takeTrap { code := 0x05, sub := sub, addr := pc.setWidth 64 })
    | .ok (bs, s) =>
      let s := s.modMe (fun t => { t with iw := BitVec.ofNat 64 (leNat (bs.take 8)) })
      match Decode.decode (pc.toNat % 32) bs with
      | .error e => .next (s.takeTrap (decodeTrap (pc.setWidth 64) e))
      | .ok i => issueDecoded ex i s

/-! ### Running ahead of repeats (R145) -/

/-- A strand as its run-ahead instructions see it. -/
def Strand.overlaid (t : Strand) (a : Ahead) : Strand :=
  let t := a.g.foldl (fun t x => t.wg x.1 x.2) t
  let t := a.p.foldl (fun t x => t.wp x.1 x.2) t
  { t with pc := a.pc, fflags := 0, rep := none }

/-- The held results after one more run-ahead instruction, which found strand `t0` and left strand `t`. -/
def Ahead.extend (a : Ahead) (i : Instr) (t0 t : Strand) : Ahead :=
  { a with
    pc := t.pc
    g := a.g ++ i.dsts.filterMap (fun r => match r with
      | .g n => some (n, t.rg n)
      | _ => none)
    p := a.p ++ i.dsts.filterMap (fun r => match r with
      | .p n => some (n, t.rp n)
      | _ => none)
    flags := a.flags ||| t.fflags
    n := a.n + 1
    trace := a.trace ++ (t0.results t i).flatMap t.resultBytes }

/-- Registers that the repeats from `i` on name. -/
def RepSeq.remaining (r : RepSeq) : List RegName :=
  (List.range (r.n - r.i)).flatMap (fun j =>
    match Decode.repeatOf r.body r.sd r.sa r.sb (r.i + j) with
    | .ok b => b.regs
    | .error _ => [])

/-- A strand that waits behind its own repeats is ready at the next issue slot at the earliest (R19).
(DEDUCED, log 6) -/
def State.notReady (s : State) : State := s.modMe (fun t => { t with stamp := s.myCore.slot + 1 })

/-- No further instruction runs ahead: it waits for the last repeat. -/
def State.stopAhead (s : State) : State :=
  s.notReady.modMe (fun t => { t with rep := t.rep.map (fun r => { r with ahead := { r.ahead with stop := true } }) })

/-- An attempt of a strand whose repeats are in progress: the instruction's results are held. -/
def attemptAhead (ex : Meaning) (held : List Nat) (r : RepSeq) (s : State) : Host.Outcome State Fault Refusal :=
  if r.ahead.stop || 8 ≤ r.ahead.n || s.blkOf s.cur.1 s.cur.2 != 0 || !s.me.gates.isEmpty then .next s.notReady
  else
    match s.fetch r.ahead.pc held with
    | .error .wait => .next s.notReady
    | .error _ => .next s.stopAhead
    | .ok (bs, s) =>
      match Decode.decode (r.ahead.pc.toNat % 32) bs with
      | .error _ => .next s.stopAhead
      | .ok i =>
        if !i.runsAhead then .next s.stopAhead
        else if i.regs.any (fun x => s.me.pending x || (x != .p 0 && r.remaining.contains x)) then .next s.notReady
        else match ex i (s.modMe (fun t => t.overlaid r.ahead)) with
          | .next s' =>
            if s'.retired then
              let a := r.ahead.extend i (s.me.overlaid r.ahead) s'.me
              .next { s.modMe (fun t => { t with stamp := s.myCore.slot, rep := some { r with ahead := a } }) with retired := true }
            else .next s.stopAhead
          | o => o

/-- One attempt of strand `h` of core `c`. -/
def attempt (ex : Meaning) (c : Nat) (h : Fin 11) (held : List Nat) (s : State) : Host.Outcome State Fault Refusal :=
  let s := { s with cur := (c, h), retired := false }
  match s.me.rep with
  | some r => attemptAhead ex held r s
  | none => attemptPlain ex held s

/-- The strands that come after the one that issued: one that waits takes its wait up, and one that is ready keeps its
stamp (R19). (DEDUCED, log 6) -/
def looks (ex : Meaning) (c : Nat) (held : List Nat) : List (Fin 11) → State → State
  | [], s => s
  | h :: hs, s =>
    if !(s.strandAt c h).live then looks ex c held hs s
    else match attempt ex c h held s with
      | .next s' =>
        looks ex c held hs (if s'.retired || (s'.core c).frozen || (s'.core c).task != (s.core c).task then s
          else { s' with cur := s.cur, retired := s.retired })
      | _ => looks ex c held hs s

/-- The strands that come after one that has trapped: one that waits in the state `s0` of that slot is ready at the next slot
at the earliest (R19). (DEDUCED, log 6) -/
def restamp (ex : Meaning) (c : Nat) (held : List Nat) (s0 : State) : List (Fin 11) → State → State
  | [], s => s
  | h :: hs, s =>
    let waits := (s0.strandAt c h).live && (match attempt ex c h held s0 with
      | .next s' => !s'.retired && !(s'.core c).frozen
      | _ => false)
    restamp ex c held s0 hs
      (if waits then s.modStrandAt c h (fun t => { t with stamp := (s0.core c).slot + 1 }) else s)

/-- The strands in turn, until one issues or traps. (DEDUCED, log 6) -/
def attempts (ex : Meaning) (c : Nat) (held : List Nat) : List (Fin 11) → State → Host.Outcome State Fault Refusal
  | [], s => .next s
  | h :: hs, s =>
    match attempt ex c h held s with
    | .next s' =>
      if (s'.core c).frozen then .next (restamp ex c held s hs s')
      else if s'.retired then .next (looks ex c held hs s')
      else attempts ex c held hs s'
    | o => o

/-- The core's die has power, and the module has booted (R285, R330). (DEDUCED, log 47) -/
def State.powered (s : State) (c : Nat) : Bool :=
  !s.recovery && (match (s.dies[(Fin.ofNat 8 (dieOf c))]).power with
    | .online | .parking => true
    | _ => false)

/-- Core `c` takes its issue slot (R19). A frozen core and a shadow issue nothing; a core without a task
runs the routine that the firmware has started on it, if any (R227, R338). -/
def issueCore (ex : Meaning) (c : Nat) (held : List Nat) (s : State) : Host.Outcome State Fault Refusal :=
  let k := s.core c
  if k.frozen || k.pairOf.any (fun l => l != c) || !s.powered c then .next s
  else attempts ex c held k.order (s.modCore c (fun k => { k with slot := k.slot + 1 }))

end Sys2Proof.Machine
end

