-- ==== Sys2Proof/Machine/Offer.lean ====
section
/-! DEFINITION. Offers of task records (R248, R249, R252), `tself` (R253), work lists and the Echo detector (R255,
R256), with the events RECORD_OFFER, HOST_QUEUE_PORT_WRITE, REFUSAL_COUNT_WRITE and QUIESCENCE_DETECT. -/

namespace Sys2Proof.Machine

/-! ### The region of a context and its rectangles (R245, R248, R257) -/

/-- The physical cores that the core table names, by logical number. -/
def State.region (s : State) (ctx : Nat) : List (Nat × Nat) :=
  (List.range (s.ctx ctx).ncores).filterMap (fun n => (s.coreOf ctx n).map (fun c => (n, c)))

/-- Cores of the rectangle of shape w×h whose north-west corner is at column x, row y of a cluster, in row order. -/
def rectAt (clu x y w h : Nat) : List Nat :=
  (List.range h).flatMap (fun j => (List.range w).map (fun i => 36 * clu + 6 * (y + j) + (x + i)))

/-- The rectangles of a shape in a cluster, in the order of R257. -/
def rectsOf (clu w h : Nat) : List (List Nat) :=
  (List.range (7 - h)).flatMap (fun y => (List.range (7 - w)).map (fun x => rectAt clu x y w h))

/-- The core can take a task at all: good, no supervisor, no handler, not contained, its cluster not halted. -/
def State.sound (s : State) (c : Nat) : Bool :=
  let k := s.cluster (cluOf c)
  k.good (posOf c) && k.sup != posOf c && (k.chainIndex (posOf c)).isNone && !k.contained (posOf c) && !k.halt

/-- The clusters of a list of cores, rising. -/
def clustersOf (cs : List Nat) : List Nat := (List.range 768).filter (fun u => cs.any (fun c => cluOf c == u))

/-- The first rectangle of a shape all of whose cores satisfy `ok`, in the clusters `us`. -/
def firstRect (ok : Nat → Bool) (us : List Nat) (w h : Nat) : Option (List Nat) :=
  us.findSome? (fun u => (rectsOf u w h).find? (fun r => r.all ok))

/-- Some cluster of the region holds a rectangle of placeable cores (R248). -/
def State.placeable (s : State) (ctx w h : Nat) : Bool :=
  let cs := (s.region ctx).map Prod.snd
  (firstRect (fun c => cs.contains c && s.sound c) (clustersOf cs) w h).isSome

/-! ### The status of an offer (R248) -/

/-- No value of a list occurs twice. -/
def distinct (l : List Nat) : Bool := decide l.Nodup

/-- The core table as the dispatcher checks it: 16-bit entries (R245). -/
def coreTableOk (es : List Nat) : Bool :=
  let xs := es.filter (fun e => e != 0xFFFF)
  xs.all (fun e => decide (e / 64 % 128 < 96) && decide (e % 64 < 36)) && distinct xs

/-- The entries of `w` bytes of a table. -/
def tableEntries (w n : Nat) (bs : List Byte) : List Nat :=
  (List.range n).map (fun i => leNat ((bs.drop (w * i)).take w))

/-- The tables of a context can be read and keep the rules of R245. -/
def State.tablesOk (s : State) (ctx : Nat) : Bool :=
  let x := s.ctx ctx
  match s.ctxBytes ctx x.ctab (2 * x.ncores), s.ctxBytes ctx x.rtab (4 * 4608) with
  | .ok cs, .ok rs =>
    coreTableOk (tableEntries 2 x.ncores cs)
      && distinct (((tableEntries 4 4608 rs).filter (fun e => bitAt e 31)).map (fun e => e % 2 ^ 24))
  | _, _ => false

/-- The context has a queued, running or saved task. -/
def State.ctxBusy? (s : State) (ctx : Nat) : Bool :=
  s.tasks.any (fun t => t.ctx == ctx)
    || (List.range 64).any (fun q => bitAt (s.ctx ctx).qmask q && !(sget [] s.queues q).isEmpty)

/-- The core table of a context can be read, and where it has no task yet its tables keep the rules of R245. -/
def State.tablesServe (s : State) (ctx : Nat) : Bool :=
  if s.ctxBusy? ctx then (s.tableFault ctx).isNone else s.tablesOk ctx

/-- The status of a record offered in a context. (DEDUCED, log 35) -/
def State.offerStatus (s : State) (ctx : Nat) (r : Rec) : Nat :=
  if bitsN (r.dword 2) 40 32 != 0 || r.code % 4 != 0 then 5
  else if !bitAt (s.ctx ctx).qmask r.queue then 3
  else if !s.tablesServe ctx then 6
  else if 6 < r.w || 6 < r.h || !s.placeable ctx r.w r.h then 4
  else 1

/-- A ready queue holds at most 65,536 records. -/
def State.queueFull (s : State) (q : Nat) : Bool := decide (65536 ≤ (sget [] s.queues q).length)

/-- An accepted record joins the tail of its queue with age 0. -/
def State.enqueue (s : State) (r : Rec) : State :=
  { s with queues := sput s.queues r.queue (sget [] s.queues r.queue ++ [{ r with age := 0 }]) }

/-- An offer finds the core table of a busy context unreadable: the tasks of the context end (R246). -/
def State.offerStop (s : State) (ctx st : Nat) : State :=
  if st = 6 && s.ctxBusy? ctx && !(s.ctx ctx).stopped then
    match s.tableFault ctx with
    | some e => s.stopCtx ctx e
    | none => s
  else s

/-- A record of a context is offered: its status, `none` while the queue is full. -/
def State.offer (s : State) (ctx : Nat) (r : Rec) : Option (Nat × State) :=
  let st := s.offerStatus ctx r
  if st = 1 then if s.queueFull r.queue then none else some (1, s.enqueue r)
  else some (st, s.offerStop ctx st)

/-! ### tspawn, tjoin, tself -/

/-- The dwords of a record's 32 bytes. -/
def recordOf (bs : List Byte) : List Word :=
  (List.range 4).map (fun i => BitVec.ofNat 64 (leNat ((bs.drop (8 * i)).take 8)))

/-- The bytes of the record at a location, for a task. -/
def State.recordBytes (s : State) (c : Nat) (task : Option Nat) (l : Loc) : List Byte :=
  (l.span 32).map (fun x => match x.at' with
    | .peer gx gy => match s.memberOf task gx gy with
      | none => 0
      | some m => ((s.core m).readByte (s.peerLoc m x.addr)).1.getD 0
    | _ => s.pointByte c x)

/-- The places of dword 2 of the record at a location. -/
def joinSpan (l : Loc) : List Loc := ((l.span 32).drop 16).take 8

/-- Dword 2 of the record at a location is written by `tjoin` (R252). -/
def State.putJoin (s : State) (c : Nat) (task : Option Nat) (l : Loc) (x : Nat) : State :=
  let bs := (joinSpan l).zip (leBytes 8 x)
  match l.at' with
  | .mem _ => (s.writeMem bs).refresh c bs
  | .range v => s.rangeWrite v bs
  | .peer gx gy => s.peerWrite task gx gy { id := 0, op := .store, bytes := bs }
  | _ => s

/-- `tspawn` and `tjoin` at issue (R252). A `tjoin` writes dword 2, so that later loads of it wait. -/
def offerBody (join : Bool) (d a : Fin 32) (s : State) : Res State := do
  let ea := s.me.rg a
  trapIf (ea.toNat % 32 != 0) (Trap.misaligned ea)
  let (l, s) ← s.xlate ⟨32, true, join, .record⟩ ea
  let s ← s.poisonCheck ea l
  let s ← s.touchPeer l 32
  s.bufRoom 1
  let bytes := if join then joinSpan l else []
  let id := s.nextId
  .ok ((s.pushEntry (.offer join l ea d) (bytes.map (fun b => (b, 0))) .rel .mod ea 0).await id d)

/-- `tspawn` (R252). -/
def execTspawn (gd : Guard) (d a : Fin 32) (s : State) := runW gd 8 s (offerBody false d a)

/-- `tjoin` (R252). -/
def execTjoin (gd : Guard) (d a : Fin 32) (s : State) := runW gd 8 s (offerBody true d a)

/-- The entries of a record's set list, as far as a conflict needs them (R308, R310). -/
def State.listEntries (s : State) (ctx : Nat) (r : Rec) : List SetEntry :=
  if r.sets = 0 then []
  else match s.ctxBytes ctx r.sets 16 with
    | .error _ => []
    | .ok hd =>
      let n := (hd.headD 0).toNat
      match s.ctxBytes ctx (r.sets + 16) (16 * n) with
      | .error _ => []
      | .ok bs => (List.range n).map (fun i =>
          let x := leNat ((bs.drop (16 * i + 8)).take 8)
          { h := BitVec.ofNat 64 (leNat ((bs.drop (16 * i)).take 8)), first := bitsN x 31 0, count := bitsN x 59 32
            mode := bitsN x 61 60 })

/-- What `tspawn` and `tjoin` do to the issuer's entries: conflicting entries are retired (R310). The record notes every task
that has issued one of them on it, by its address. (DESIGN CHOICE, log 37) -/
def State.noteOffer (s : State) (o : OutEntry) (va : Word) (r : Rec) : State :=
  match o.task with
  | none => s
  | some id =>
    let s := s.retireEntries id (s.listEntries o.ctx r)
    { s with joins := s.joins ++ [⟨o.ctx, va, id⟩] }

/-- Tasks that have issued `tspawn` or `tjoin` on the record at an address of a context (R310).
(DESIGN CHOICE, log 37) -/
def State.joiners (s : State) (ctx : Nat) (va : Word) : List Nat :=
  (s.joins.filter (fun j => j.ctx == ctx && j.va == va)).map Joiner.task

/-- A record is offered with the tasks that it notes; once it is queued they are noted with it alone. -/
def State.offerNoted (s : State) (ctx : Nat) (va : Word) (ds : List Word) : Option (Nat × State) :=
  (s.offer ctx { dwords := ds, origin := va, notes := s.joiners ctx va }).map (fun x =>
    (x.1, if x.1 = 1 then { x.2 with joins := x.2.joins.filter (fun j => !(j.ctx == ctx && j.va == va)) } else x.2))

/-- The offer `o` of core `c` is made on a record of bytes `bs`, whose counter `put` writes (R252). -/
def State.makeOffer (s : State) (c : Nat) (o : OutEntry) (join : Bool) (va : Word) (d : Fin 32) (bs : List Byte)
    (put : State → Nat → State) : Option State :=
  let ds := recordOf bs
  let r : Rec := { dwords := ds, origin := va }
  let finish (s : State) (x : Nat) : State :=
    (s.dropOut c o.e.id).reply c o.strand o.e.id d .mod (BitVec.ofNat 64 x)
  let s := s.noteOffer o va r
  let left (v : Nat) : Nat := setBits (r.dword 2) 0 32 v
  if !join then (s.offerNoted o.ctx va ds).map (fun x => finish x.2 x.1)
  else if r.join = 0 then some (finish s 2)
  else if 1 < r.join then some (finish (put s (left (r.join - 1))) 0)
  else ((put s (left 0)).offerNoted o.ctx va (ds.set 2 (BitVec.ofNat 64 (left 0)))).map (fun x => finish x.2 x.1)

/-- RECORD_OFFER: a drained `tspawn` or `tjoin` reaches the record. One in another module's memory is asked of that module:
its bytes as they are, or as its counter is taken down (R349). (DEDUCED, log 57) -/
def State.recordOffer (s : State) (core id : Nat) : Option State :=
  match s.outEntry core id with
  | none => none
  | some o => match o.e.op with
    | .offer join l va d =>
      if !(s.core core).firstOut id || (l.span 32).any (s.clusterAhead (cluOf core)) then none
      else if s.freedRange l then s.freedAccess core o
      else match l.at' with
      | .remote m =>
        if o.stage = 0 then
          some ((s.stageOut core id).txTo m 0 l.addr (if join then .atomic m l.addr o.e.op else .load m l.addr 32))
        else none
      | .range v =>
        if (s.handle? v).any (fun h => h.holder.isSome) then none
        else s.makeOffer core o join va d (s.recordBytes core o.task l) (fun s x => s.putJoin core o.task l x)
      | _ => s.makeOffer core o join va d (s.recordBytes core o.task l) (fun s x => s.putJoin core o.task l x)
    | _ => none

def execRecordOffer (core id : Nat) (s : State) := runE s (s.recordOffer core id)

/-- The value of `tself` (R253). -/
def State.selfWord (s : State) (n : Nat) : Word :=
  match s.myCore.task.bind s.task? with
  | none => 0
  | some t => if n < 4 then t.record.dwords.getD n 0 else t.record.origin

def execTself (gd : Guard) (d : Fin 32) (n : Fin 16) (s : State) :=
  runW gd 8 s (fun s => do
    trapIf (decide (4 < n.val)) (Trap.illegalInstruction (pcWord s.me))
    .ok (s.modMe (fun t => t.wg d (s.selfWord n.val))))

/-! ### The host's offers (R249, R329) -/

/-- The enabled context that holds a queue. -/
def State.queueOwner (s : State) (q : Nat) : Option Nat :=
  (List.range 64).find? (fun c => s.ctxen.getLsbD c && bitAt (s.ctx c).qmask q)

/-- A record written to the port of queue `q`: 32 bytes, or it is discarded. -/
def State.portWrite (s : State) (q : Nat) (ds : List Word) : Option State :=
  let r : Rec := { dwords := ds }
  let refuse (s : State) : State := { s with refusals := s.refusals + 1 }
  if ds.length != 4 || s.recovery then none
  else match s.queueOwner q with
    | none => some (refuse s)
    | some ctx =>
      if r.queue != q then some (refuse s)
      else (s.offer ctx r).map (fun x => if x.1 = 1 then x.2 else refuse x.2)

/-- HOST_QUEUE_PORT_WRITE (R249, R329). (DEDUCED, log 61) -/
def execHostQueuePortWrite (q : Fin 64) (dwords : List Word) (s : State) := runE s (s.portWrite q.val dwords)

/-- A host write of any value clears the refusal count (R329). -/
def execRefusalCountWrite (s : State) := runE s (if s.recovery then none else some { s with refusals := 0 })

/-! ### Work lists (R255, R256) -/

/-- The issuing core is a worker of its list domain, which is not quiescent while the worker is not idle. -/
def State.markWorker (s : State) (idle : Bool) : State :=
  (s.modMyCore (fun k => { k with worker := true, idle := idle })).modCtx s.myCore.ctx
    (fun x => { x with quiet := x.quiet && idle })

def wappBody (d a : Fin 32) (list : Nat) (s : State) : Res State :=
  if (s.ctx s.myCore.ctx).nlists ≤ list then .ok ((s.markWorker false).modMe (fun t => t.wg d 2))
  else do
    s.bufRoom 1
    let id := s.nextId
    .ok (((s.markWorker false).pushEntry (.wapp list (s.me.rg a) d) [] .rel .mod 0 0).await id d)

/-- `wapp` (R255): from its issue an append is in flight, and the domain is not quiescent (R256). -/
def execWapp (gd : Guard) (d a : Fin 32) (list : BitVec 8) (s : State) := runW gd 8 s (wappBody d a list.toNat)

def Ctx.list (x : Ctx) (n : Nat) : List Word := sget [] x.lists n

/-- The effect of a drained `wapp`: an item joins the list, or the list is full; a list that cannot be written ends the
tasks of its context (R246). -/
def State.appendItem (s : State) (c : Nat) (o : OutEntry) (list : Nat) (item : Word) (d : Fin 32) : State :=
  let ctx := o.ctx
  let x := s.ctx ctx
  let n := (x.list list).length
  let full := decide (2 ^ x.lcap ≤ n)
  match if full then none else s.listFault ctx true list n with
  | some e => (s.dropOut c o.e.id).stopCtx ctx e
  | none =>
    let s := if full then s else
      (s.writeList ctx list).setCtx ctx { x with lists := sput x.lists list (x.list list ++ [item]), quiet := false }
    (s.dropOut c o.e.id).reply c o.strand o.e.id d .mod (if full then 1 else 0)

/-- `wtake` at issue: at one moment at the list's tail-keeper. -/
def wtakeBody (d c : Fin 32) (list : Nat) (s : State) : Res State :=
  let ctx := s.myCore.ctx
  let x := s.ctx ctx
  if x.nlists ≤ list then .ok ((s.markWorker s.myCore.idle).modMe (fun t => t.wg c 3))
  else match if (x.list list).isEmpty then none else s.listFault ctx false list 0 with
  | some e => .error (.ended (s.stopCtx ctx e))
  | none =>
    let now := s.nextId
    let s := s.fresh.modMe (fun t => t.void .mod now)
    .ok (match x.list list with
      | y :: ys =>
        ((s.setCtx ctx { x with lists := sput x.lists list ys, quiet := false }).markWorker false).modMe
          (fun t => (t.wg d y).wg c 0)
      | [] => (s.markWorker true).modMe (fun t => t.wg c (if x.quiet then 2 else 1)))

/-- `wtake` (R255). -/
def execWtake (gd : Guard) (d c : Fin 32) (list : BitVec 8) (s : State) := runW gd 8 s (wtakeBody d c list.toNat)

/-- The entry is a `wapp`. -/
def BufEntry.isAppend (e : BufEntry) : Bool :=
  match e.op with
  | .wapp _ _ _ => true
  | _ => false

/-- A `wapp` of a core is in flight. -/
def Core.appending (k : Core) : Bool :=
  k.outq.any (fun o => o.e.isAppend) || k.strands.toList.any (fun t => t.buf.any BufEntry.isAppend)

/-- A `wapp` of a task of the context is in flight, of one that has ended too. -/
def State.appending (s : State) (ctx : Nat) : Bool :=
  s.cores.any (fun x => x.2.outq.any (fun o => o.e.isAppend && o.ctx == ctx))

/-- Every core of the context's list domain, running or saved. -/
def State.listCores (s : State) (ctx : Nat) : List Core :=
  (s.tasks.filter (fun t => t.ctx == ctx)).flatMap (fun t =>
    (s.runningCores t).map (fun x => s.core x.1) ++ t.saved)

/-- QUIESCENCE_DETECT: every list is empty, no append is in flight and every worker is idle (R256). -/
def execQuiescenceDetect (ctx : Fin 64) (s : State) :=
  let x := s.ctx ctx.val
  let ks := s.listCores ctx.val
  runE s (if x.lists.all (fun l => l.2.isEmpty) && !s.appending ctx.val && ks.all (fun k => !k.appending && (!k.worker || k.idle)) then
    some (s.setCtx ctx.val { x with quiet := true }) else none)

end Sys2Proof.Machine
end

