-- ==== Sys2Proof/Machine/Ladder.lean ====
section
/-! DEFINITION. Group records, activation groups, the exact sum of a group-row, and the record that `lsort`
builds (R70 to R76, R169, R179, R182 to R184). -/

namespace Sys2Proof

/-- Bytes of a record (R71, R178). -/
def Fmt.bytes : Fmt → Nat
  | .l2 => 48 | .l3 => 64 | .l4 => 80 | .t3 => 48 | .l8 => 256

/-- Bits of a code. -/
def Fmt.codeBits : Fmt → Nat
  | .l2 => 2 | .l3 => 3 | .l4 => 4 | .t3 => 2 | .l8 => 7

/-- Bytes of the codes: the ladder follows them. -/
def Fmt.codeBytes (f : Fmt) : Nat := 16 * f.codeBits

/-- Levels that the format can hold: N of R72. -/
def Fmt.maxLevels : Fmt → Nat
  | .l2 => 4 | .l3 => 8 | .l4 => 16 | .t3 => 3 | .l8 => 128

end Sys2Proof

namespace Sys2Proof.Machine

/-! ### Records -/

/-- A record as an engine operation reads it. -/
structure Ladder where
  codes : List Nat
  e : Nat
  base : Int
  /-- d₁ to d_{N-1}. -/
  deltas : List Nat
  levels : Nat
  shift : Nat
  mag : Nat
  malformed : Bool
  deriving DecidableEq, Repr

/-- The code of every lane (R81). -/
def codesOf (f : Fmt) (bs : List Byte) : List Nat :=
  let x := leNat (bs.take f.codeBytes)
  (List.range 128).map (fun i => x / 2 ^ (f.codeBits * i) % 2 ^ f.codeBits)

def zeroFrom (l : List Byte) (n : Nat) : Bool := (l.drop n).all (fun b => b == 0)

/-- A delta with index at or above the level count is nonzero (`j` counts from 1). -/
def strayDelta (levels : Nat) : Nat → List Nat → Bool
  | _, [] => false
  | j, d :: ds => (decide (levels ≤ j) && d != 0) || strayDelta levels (j + 1) ds

/-- A record of format L2, L3 or L4 (R72, R74). -/
def ladder4 (f : Fmt) (bs : List Byte) : Ladder :=
  let l := bs.drop f.codeBytes
  let n := f.maxLevels
  let nib (k : Nat) : Nat := (l.getD (2 + k / 2) 0).toNat / 16 ^ (k % 2) % 16
  let levels := nib (n - 1) + 1
  let codes := codesOf f bs
  let deltas := (List.range (n - 1)).map nib
  let e := (l.getD 0 0).toNat
  { codes := codes
    e := e
    base := sextN (l.getD 1 0).toNat 8
    deltas := deltas
    levels := levels
    shift := 0
    mag := 0
    malformed := e == 255 || decide (n < levels) || codes.any (fun c => decide (levels ≤ c))
      || strayDelta levels 1 deltas || !zeroFrom l (2 + n / 2) }

/-- A T3 record. -/
def ladderT (bs : List Byte) : Ladder :=
  let l := bs.drop 32
  let codes := codesOf .t3 bs
  let e := (l.getD 0 0).toNat
  { codes := codes
    e := e
    base := 0
    deltas := []
    levels := 3
    shift := 0
    mag := (l.getD 1 0).toNat
    malformed := e == 255 || codes.contains 2 || !zeroFrom l 2 }

/-- An L8 record. -/
def ladder8 (bs : List Byte) : Ladder :=
  let e := (bs.getD 112 0).toNat
  let sh := (bs.getD 241 0).toNat
  { codes := codesOf .l8 bs
    e := e
    base := sextN (bs.getD 113 0).toNat 8
    deltas := ((bs.drop 114).take 127).map BitVec.toNat
    levels := 128
    shift := sh % 8
    mag := 0
    malformed := e == 255 || sh / 8 != 0 || !zeroFrom bs 242 }

def ladderOf (f : Fmt) (bs : List Byte) : Ladder :=
  match f with
  | .t3 => ladderT bs
  | .l8 => ladder8 bs
  | f => ladder4 f bs

/-! ### Activation groups (R75, R76, R169) -/

/-- The integers α_i, and the exponent of σ; `none` for the cases of R75. -/
def activations (ty : Ty) (mode : Bool) (bs : List Byte) : Option (List Int × Int) :=
  if ty = .i8 then
    let e := (bs.getD 128 0).toNat
    if e = 255 then none else some ((bs.take 128).map (fun b => sextN b.toNat 8), (e : Int) - 127)
  else
    match floatOf mode .e4m3 with
    | none => none
    | some f =>
      let xs := (bs.take 128).map (fun b => f.value b.toNat)
      if xs.any (fun x => x.isNan || x.isInf) then none
      else some (xs.map (fun x => (x.shift 9).floor.1), -9)

/-- Bytes of an activation group that the engine uses (R174). -/
def actBytes (ty : Ty) : Nat := if ty = .i8 then 129 else 128

/-- Distance of one activation group from the next (R174, R213). -/
def actPitch (ty : Ty) : Nat := if ty = .i8 then 144 else 128

/-! ### The exact sum (R169) -/

/-- The sum of the activations whose code is `c`. -/
def bucket (as : List Int) (codes : List Nat) (c : Nat) : Int :=
  ((as.zip codes).map (fun x => if x.2 = c then x.1 else 0)).sum

/-- The suffix sum: activations whose code is `j` or higher. -/
def suffixSum (as : List Int) (codes : List Nat) (j : Nat) : Int :=
  ((as.zip codes).map (fun x => if j ≤ x.2 then x.1 else 0)).sum

/-- Σ d_j · S_j for j from `j` on. -/
def deltaSum (as : List Int) (codes : List Nat) : Nat → List Nat → Int
  | _, [] => 0
  | j, d :: ds => d * suffixSum as codes j + deltaSum as codes (j + 1) ds

/-- X of R169. -/
def rowSum (f : Fmt) (r : Ladder) (as : List Int) : Int :=
  match f with
  | .t3 => r.mag * (bucket as r.codes 1 - bucket as r.codes 3)
  | _ => r.base * as.sum + 2 ^ r.shift * deltaSum as r.codes 1 (r.deltas.take (r.levels - 1))

/-- What one group-row adds to its vein (R169, R181). (DESIGN CHOICE, log 72) -/
def contribution (f : Fmt) (ty : Ty) (mode : Bool) (act rcd : List Byte) : XReal :=
  let r := ladderOf f rcd
  match activations ty mode act with
  | none => .nan false
  | some (as, sg) => (XReal.ofInt (rowSum f r as)).shift ((r.e : Int) - 127 + sg)

/-! ### Permutation tables (R179, R181) -/

/-- The lanes ordered by code, equal codes in lane order. -/
def planOf (f : Fmt) (codes : List Nat) : List (BitVec 7) :=
  (List.range (2 ^ f.codeBits)).flatMap (fun c =>
    (List.range 128).filterMap (fun i => if codes.getD i 0 = c then some (BitVec.ofNat 7 i) else none))

/-- The codes read through a table run in non-decreasing order. -/
def ordered : List Nat → Bool
  | [] => true
  | [_] => true
  | a :: b :: l => decide (a ≤ b) && ordered (b :: l)

def planFits (pi : List (BitVec 7)) (codes : List Nat) : Bool := ordered (pi.map (fun j => codes.getD j.toNat 0))

/-! ### `lsort` (R182 to R184) -/

/-- Rounding to an integer. -/
def XReal.round (md : Round) : XReal → Int
  | .num neg m e den =>
    let p := scaleBy m den e
    let n := (roundDiv neg p.1 p.2 md).1
    if neg then -(n : Int) else n
  | _ => 0

/-- x - b for an integer b. -/
def XReal.minus (x : XReal) (b : Int) : XReal :=
  let t := addFin x.parts (-b, 0, 1)
  .num (decide (t.1 < 0)) t.1.natAbs t.2.1 t.2.2

/-- Insertion in sorted order, equal values in lane order. -/
def insertLane (x : Nat × XReal) : List (Nat × XReal) → List (Nat × XReal)
  | [] => [x]
  | y :: ys => if x.2.cmp y.2 == .gt then y :: insertLane x ys else x :: y :: ys

def sortLanes : List (Nat × XReal) → List (Nat × XReal)
  | [] => []
  | x :: xs => insertLane x (sortLanes xs)

/-- Differences of successive entries. -/
def deltasOf : List Int → List Int
  | [] => []
  | [_] => []
  | a :: b :: l => (b - a) :: deltasOf (b :: l)

/-- The base and the deltas for scale `e` and shift `sh`, when they fit (R183). -/
def fit8 (md : Round) (ys : List XReal) (e sh : Nat) : Option (Int × List Int) :=
  let sc (x : XReal) : XReal := x.shift (127 - (e : Int))
  let b := (sc (ys.headD (.num false 0 0 1))).round md
  let ds := 0 :: (ys.drop 1).map (fun y => (((sc y).minus b).shift (-(sh : Int))).round md)
  let d := deltasOf ds
  if -128 ≤ b ∧ b ≤ 127 ∧ d.all (fun x => decide (0 ≤ x) && decide (x ≤ 255)) then some (b, d) else none

/-- The pair with the smallest e + s, then the smallest e: `t` is the sum, from `261 - fuel` up. -/
def find8 (md : Round) (ys : List XReal) (fuel t : Nat) : Option (Nat × Nat × Int × List Int) :=
  match fuel with
  | 0 => none
  | fuel + 1 =>
    match (List.range 8).reverse.findSome? (fun sh =>
        if sh ≤ t ∧ t - sh ≤ 254 then (fit8 md ys (t - sh) sh).map (fun r => (t - sh, sh, r)) else none) with
    | some r => some r
    | none => find8 md ys fuel (t + 1)

/-- Codes of the lanes packed at `w` bits. -/
def packCodes (w : Nat) (codes : List Nat) : List Byte :=
  leBytes (16 * w) ((List.range 128).foldl (fun a i => a + codes.getD i 0 * 2 ^ (w * i)) 0)

def byteI (x : Int) : Byte := BitVec.ofInt 8 x

/-- The record of a NaN or an infinity (R182). -/
def poisonRecord (f : Fmt) : List Byte := setAt (List.replicate f.bytes 0) f.codeBytes 0xFF

def sort8 (md : Round) (xs : List XReal) : List Byte :=
  let s := sortLanes ((List.range 128).zip xs)
  match find8 md (s.map Prod.snd) 262 0 with
  | none => poisonRecord .l8
  | some (e, sh, b, d) =>
    let codes := (List.range 128).map (fun i => s.findIdx (fun y => y.1 == i))
    packCodes 7 codes ++ [BitVec.ofNat 8 e, byteI b] ++ d.map byteI ++ [BitVec.ofNat 8 sh] ++ List.replicate 14 0

/-- The base for scale `e` and delta `dl`, when the values fit (R184). -/
def fit4 (md : Round) (lo hi : XReal) (levels e dl : Nat) : Option Int :=
  let b := (lo.shift (127 - (e : Int))).round md
  if -128 ≤ b ∧ b ≤ 127
      ∧ ((((hi.shift (127 - (e : Int))).minus b).divNat dl).round md) ≤ (levels : Int) - 1 then some b else none

/-- The pair with the smallest u·δ, then the smallest e. -/
def find4 (md : Round) (lo hi : XReal) (levels : Nat) : Option (Nat × Nat × Int) :=
  ((List.range 255).flatMap (fun e => (List.range 15).map (fun d => (e, d + 1)))).foldl (fun best x =>
    match best with
    | some y => if 2 ^ y.1 * y.2.1 ≤ 2 ^ x.1 * x.2 then best
        else match fit4 md lo hi levels x.1 x.2 with
          | some b => some (x.1, x.2, b)
          | none => best
    | none => (fit4 md lo hi levels x.1 x.2).map (fun b => (x.1, x.2, b))) none

def sort4 (f : Fmt) (md : Round) (xs : List XReal) : List Byte :=
  let s := (sortLanes ((List.range 128).zip xs)).map Prod.snd
  let levels := f.maxLevels
  match find4 md (s.headD (.num false 0 0 1)) (s.getLastD (.num false 0 0 1)) levels with
  | none => poisonRecord f
  | some (e, dl, b) =>
    let code (x : XReal) : Nat :=
      min (levels - 1) ((((x.shift (127 - (e : Int))).minus b).divNat dl).round md).toNat
    let nibs := List.replicate (levels - 1) dl ++ [levels - 1]
    let bytes := (List.range (levels / 2)).map (fun i =>
      BitVec.ofNat 8 (nibs.getD (2 * i) 0 + 16 * nibs.getD (2 * i + 1) 0))
    packCodes f.codeBits (xs.map code) ++ [BitVec.ofNat 8 e, byteI b] ++ bytes
      ++ List.replicate (14 - levels / 2) 0

/-- The record of 128 values (R182). -/
def sortRecord (f : Fmt) (md : Round) (xs : List XReal) : List Byte :=
  if xs.any (fun x => x.isNan || x.isInf) then poisonRecord f
  else if f = .l8 then sort8 md xs else sort4 f md xs

/-- The values of an `lsort` source. -/
def sortValues (ty : Ty) (mode : Bool) (bs : List Byte) : List XReal :=
  let n := ty.bits / 8
  (List.range 128).map (fun i => laneReal mode ty (BitVec.ofNat 32 (leNat ((bs.drop (n * i)).take n))))

end Sys2Proof.Machine
end

