-- ==== Sys2Proof/Machine/Stalagmite.lean ====
section
/-! DEFINITION. The Stalagmite engine: acceptance into EQ0 (R160 to R168, R173 to R175), the instructions of
majors 0xC0 to 0xCA (R177 to R191, R213), the events of the queue (R171, R175, R189), and the multi-step
operations (R190 to R192, R213 to R218). -/

namespace Sys2Proof

def EOp.cis : EOp → List (Fin 16)
  | .ls _ => []
  | .c n => [n]

end Sys2Proof

namespace Sys2Proof.Machine

/-! ### Operands (R174) -/

/-- The places of bytes `from'` to `from' + n - 1` of an operand; `prod`: one that is written. -/
def State.eopLocs (s : State) (w : Nat) (o : EOp) (prod : Bool) (from' n : Nat) : List (Option Loc) :=
  match o with
  | .ls r => (s.myCore.lsRange ((s.me.rg r).toNat % 2 ^ 20 + from') n).map some
  | .c c =>
    let x := s.cistern c
    x.span s.myCore (if prod then x.pp else x.cp) w from' n

/-- The local-store offset at which an operand begins. -/
def State.eopBase (s : State) (o : EOp) (prod : Bool) : Nat :=
  match o with
  | .ls r => (s.me.rg r).toNat % 2 ^ 20
  | .c c =>
    let x := s.cistern c
    x.slotAt (if prod then x.pp else x.cp) 0

/-- The trap of an operand that does not begin on 16 bytes. -/
def aligned16 (off : Nat) : Res Unit := trapIf (off % 16 != 0) (Trap.misaligned (BitVec.ofNat 64 off))

/-! ### Acceptance (R173) -/

/-- The operation writes local store. -/
def Eq0Kind.writesLs : Eq0Kind → Bool
  | .sort _ => true
  | .joint j => j.rot
  | _ => false

/-- The conditions of acceptance that name no operand byte: the traps of undefined cisterns, then the waits, a block
before a stall (R22, R23). -/
def State.eq0Ready (s : State) (cq : Option CQual) (srcs : List EOp) (dst : Option EOp) : Res Unit := do
  (srcs ++ dst.toList).forM (fun o => o.cis.forM (fun c => do
    let _ ← s.defined c
    .ok ()))
  s.slotWait (slotNeed (cqWait cq) (srcs.flatMap EOp.cis) (dst.toList.flatMap EOp.cis))
  if 32 ≤ s.myCore.eq0.length || s.myCore.eq0.any (fun o => o.kind.writesLs) then stall s
  else .ok ()

/-- A store of the strand has not drained yet (R166). -/
def Strand.storing (t : Strand) : Bool := t.buf.any (fun e => e.op == .store)

/-- No window with one of the bytes is absent, and the strand's earlier stores have drained (R166, R173, R283). -/
def State.eq0Reads (s : State) (ls : List Loc) : Res State := do
  let s ← s.touch ls
  if s.me.storing then stall s else .ok (s.splitRead s.cur.1 s.cur.2 ls s.me.pc s.me.iw)

/-- The bytes of an operand as the engine reads them, 0 for places beyond the last waited slot, with the first
poisoned offset (R152). -/
def Core.engineRead (k : Core) (ps : List (Option Loc)) : List Byte × Core × Option Nat :=
  let r := k.readBytes (ps.filterMap id)
  (fillBack ps r.1, r.2.1, r.2.2)

/-- EQ0 enters the error state: the operations not started are discarded and counted (R164); the table that an accepted
`lplan` has written stays (R175). (DEDUCED, log 33; DESIGN CHOICE, log 79) -/
def Core.stopEq0 (k : Core) (cause off : Nat) : Core :=
  let n := (k.eq0.filter (fun o => !o.started)).length
  let e : QErr := match k.err[0] with
    | some e => { e with discarded := e.discarded + n }
    | none => { cause := cause, off := off, discarded := n }
  { k with eq0 := k.eq0.filter Eq0Op.started, err := k.err.set 0 (some e) }

/-- The advances of an accepted operation (R155, R173): source slots return at once, destination slots when
operation `id` is complete. -/
def State.eq0Advance (s : State) (cq : Option CQual) (srcs : List EOp) (dst : Option EOp) (id : Nat) : State :=
  if cqAdv cq then
    let s := ((srcs.flatMap EOp.cis).eraseDups).foldl (fun s c => s.advance c false (cqWait cq) [] (some (0, id))) s
    (dst.toList.flatMap EOp.cis).foldl (fun s c => s.advance c true (cqWait cq) [.op id] (some (0, id))) s
  else s

/-- EQ0 accepts an operation: `f` is its effect at acceptance. A poisoned source stops it (R152); in the error
state it is discarded with no effect and counted (R164). (DEDUCED, log 33) -/
def State.enterEq0 (s : State) (cq : Option CQual) (srcs : List EOp) (dst : Option EOp) (kind : Eq0Kind)
    (bad : Option Nat) (f : Core → Core) : State :=
  match s.myCore.err[0] with
  | some e => s.modMyCore (fun k => { k with err := k.err.set 0 (some { e with discarded := e.discarded + 1 }) })
  | none =>
    let id := s.nextId
    let op : Eq0Op :=
      { id := id, strand := s.cur.2, kind := kind, names := (srcs ++ dst.toList).flatMap EOp.cis
        dst := (dst.toList.flatMap EOp.cis).head? }
    let s := s.fresh
    let s := match bad with
      | some off => s.modMyCore (fun k => k.stopEq0 0x38 off)
      | none => s.modMyCore (fun k => { f k with eq0 := k.eq0 ++ [op] })
    s.eq0Advance cq srcs dst id

/-! ### The traps of the checks (R229) -/

def noPlan (off table : Nat) : Trap := { code := 0x20, addr := BitVec.ofNat 64 off, detail := BitVec.ofNat 64 table }
def badRecord (off field : Nat) : Trap :=
  { code := 0x21, addr := BitVec.ofNat 64 off, detail := BitVec.ofNat 64 field }
def planMismatch (off table : Nat) : Trap :=
  { code := 0x22, addr := BitVec.ofNat 64 off, detail := BitVec.ofNat 64 table }
def badProgress (x : Word) (field : Nat) : Trap := { code := 0x23, addr := x, detail := BitVec.ofNat 64 field }

/-! ### lplan, ldot, ldot2, lsort -/

def lplanBody (k : Fin 8) (rcd : EOp) (fmt : Fmt) (cq : Option CQual) (s : State) : Res State := do
  s.eq0Ready cq [rcd] none
  let off := s.eopBase rcd false
  aligned16 off
  let ps := s.eopLocs (cqWait cq) rcd false 0 fmt.bytes
  let s ← s.eq0Reads (ps.filterMap id)
  let r := s.myCore.engineRead ps
  let rec' := ladderOf fmt r.1
  trapIf (r.2.2.isNone && rec'.malformed) (badRecord off 1)
  let s := s.modMyCore (fun _ => r.2.1)
  .ok (s.enterEq0 cq [rcd] none .plan r.2.2
    (fun c => { c with tabs := c.tabs.set k { valid := true, pi := planOf fmt rec'.codes } }))

/-- `lplan` (R179). -/
def execLplan (gd : Guard) (k : Fin 8) (rcd : EOp) (fmt : Fmt) (cq : Option CQual) (s : State) :=
  runW gd 8 s (lplanBody k rcd fmt cq)

/-- The checks of one row (R181). (DEDUCED, log 33) -/
def rowChecks (fmt : Fmt) (t : Table) (table off : Nat) (bs : List Byte) : Res Unit := do
  let r := ladderOf fmt bs
  trapIf (!t.valid) (noPlan off table)
  trapIf r.malformed (badRecord off 2)
  trapIf (!planFits t.pi r.codes) (planMismatch off table)

/-- `ldot` and `ldot2`: one or two rows on one activation group (R180, R181). -/
def dotBody (x : Dot) (two : Bool) (s : State) : Res State := do
  s.eq0Ready x.cq [x.act, x.rcd] none
  let off := s.eopBase x.rcd false
  aligned16 (s.eopBase x.act false)
  aligned16 off
  let w := cqWait x.cq
  let n := x.fmt.bytes
  let pa := s.eopLocs w x.act false 0 (actBytes x.ty)
  let pr := s.eopLocs w x.rcd false 0 (if two then 2 * n else n)
  let s ← s.eq0Reads ((pa ++ pr).filterMap id)
  let ra := s.myCore.engineRead pa
  let rr := ra.2.1.engineRead pr
  let bad := ra.2.2.or rr.2.2
  let k2 : Fin 8 := x.k + 1
  if bad.isNone then
    rowChecks x.fmt s.myCore.tabs[x.k] x.k.val off (rr.1.take n)
    if two then rowChecks x.fmt s.myCore.tabs[k2] k2.val (off + n) (rr.1.drop n)
  let mode := s.myCore.e4m3
  let row (w : Fin 64) (bs : List Byte) : Row := ⟨w, contribution x.fmt x.ty mode ra.1 bs⟩
  let rows := row x.w (rr.1.take n) :: (if two then [row (x.w + 1) (rr.1.drop n)] else [])
  let s := s.modMyCore (fun _ => rr.2.1)
  .ok (s.enterEq0 x.cq [x.act, x.rcd] none (.rows two rows) bad id)

/-- `ldot` (R180, R181). -/
def execLdot (x : Dot) (s : State) := runW x.gd 8 s (dotBody x false)

/-- `ldot2`: row 1 takes the next vein, the next record and the next table. -/
def execLdot2 (x : Dot) (s : State) := runW x.gd 8 s (dotBody x true)

def lsortBody (dst src : EOp) (fmt : Fmt) (ty : Ty) (md : Round) (cq : Option CQual) (s : State) : Res State := do
  s.eq0Ready cq [src] (some dst)
  aligned16 (s.eopBase dst true)
  aligned16 (s.eopBase src false)
  let w := cqWait cq
  let ps := s.eopLocs w src false 0 (128 * (ty.bits / 8))
  let pd := s.eopLocs w dst true 0 fmt.bytes
  let s ← s.eq0Reads (ps.filterMap id)
  let r := s.myCore.engineRead ps
  let out := (pd.zip (sortRecord fmt md (sortValues ty s.myCore.e4m3 r.1))).filterMap
    (fun y => y.1.map (fun l => (l, y.2)))
  let s := s.modMyCore (fun _ => r.2.1)
  .ok (s.enterEq0 cq [src] (some dst) (.sort out) r.2.2 id)

/-- `lsort` (R182): the source is read at acceptance, the record written when the operation completes.
(DEDUCED, log 33) -/
def execLsort (gd : Guard) (dst src : EOp) (fmt : Fmt) (ty : Ty) (round : Round) (cq : Option CQual) (s : State) :=
  runW gd 8 s (lsortBody dst src fmt ty round cq)

/-! ### lclr, lwr, lpert -/

/-- An operation with no operand in local store. -/
def plainOp (kind : Eq0Kind) (s : State) : Res State := do
  s.eq0Ready none [] none
  .ok (s.enterEq0 none [] none kind none id)

/-- `lclr` (R185). -/
def execLclr (gd : Guard) (w : Fin 64) (anchor : BitVec 8) (s : State) := runW gd 8 s (plainOp (.clr w anchor))

/-- The 128-bit value of two registers (R188). -/
def veinValue (lo hi : Word) : BitVec 128 := BitVec.ofNat 128 (lo.toNat + 2 ^ 64 * hi.toNat)

/-- `lwr` (R188). -/
def execLwr (gd : Guard) (w : Fin 64) (a b c : Fin 32) (s : State) :=
  runW gd 8 s (fun s => plainOp (.wr w (veinValue (s.me.rg a) (s.me.rg b)) (s.me.rg c) false) s)

/-- `lwr.add` (R188). -/
def execLwrAdd (gd : Guard) (w : Fin 64) (a b c : Fin 32) (s : State) :=
  runW gd 8 s (fun s => plainOp (.wr w (veinValue (s.me.rg a) (s.me.rg b)) (s.me.rg c) true) s)

/-- `lpert` (R189). -/
def execLpert (gd : Guard) (a : Fin 32) (s : State) :=
  runW gd 8 s (fun s => do
    trapIf (!s.me.priv) (Trap.illegalInstruction (pcWord s.me))
    plainOp (.pert (s.me.rg a)) s)

/-! ### lrd (R187): at issue, whatever the queue holds -/

/-- The readout of a vein in a type `f32` or `bf16`. -/
def readVein (w : Vein) (ty : Ty) (md : Round) : Nat × Flags :=
  match floatOf false ty with
  | some f => w.read f md
  | none => (0, 0)

def execLrd (gd : Guard) (d : Fin 32) (w : Fin 64) (ty : Ty) (round : Round) (s : State) :=
  runR gd 8 s (fun t =>
    let r := readVein s.myCore.veins[w] ty round
    (t.wg d (BitVec.ofNat 64 r.1)).raise r.2)

def execLrdRaw (gd : Guard) (d b : Fin 32) (w : Fin 64) (s : State) :=
  runR gd 8 s (fun t =>
    let v := s.myCore.veins[w].v.toNat
    (t.wg d (BitVec.ofNat 64 v)).wg b (BitVec.ofNat 64 (v / 2 ^ 64)))

def execLrdSt (gd : Guard) (d : Fin 32) (w : Fin 64) (s : State) :=
  runR gd 8 s (fun t => t.wg d (BitVec.ofNat 64 s.myCore.veins[w].status))

/-- Lane `l` takes the readout of vein `w + l`; the guard is whole. A register is taken as it stands, whatever a stream
binds (R135, R136). -/
def lrdVBody (d : VOp) (w : Fin 64) (ty : Ty) (md : Round) (cq : Option CQual) (s : State) : Res State := do
  let lane (l : Fin 16) : Lane × Flags :=
    let r := readVein s.myCore.veins[(Fin.ofNat 64 (w.val + l.val))] ty md
    (BitVec.ofNat 32 r.1, r.2)
  let r := laneMap (fun _ => true) lane
  match d with
  | .v n => .ok (s.modMe (fun t => (t.wv n r.1).raise r.2))
  | .c _ =>
    let s ← s.vcheck cq [] (some d)
    let s := (s.vwrite cq d (fun _ => true) (fun _ => true) r.1).modMe (fun t => t.raise r.2)
    .ok (s.vadvance cq [] (some d) [])

def execLrdV (gd : Guard) (d : VOp) (w : Fin 64) (ty : Ty) (round : Round) (cq : Option CQual) (s : State) :=
  runW gd 8 s (lrdVBody d w ty round cq)

/-! ### Multi-step operations -/

/-- The joint operation at the head of EQ0. -/
def Core.headJoint (k : Core) : Option (Eq0Op × JointOp) :=
  match k.eq0 with
  | o :: _ => match o.kind with
    | .joint j => some (o, j)
    | _ => none
  | [] => none

/-- The gang of core `c`: its width and its cores in row order. -/
def State.gangOf (s : State) (c : Nat) : Nat × List Nat :=
  match (s.core c).task.bind s.task? with
  | some t => (t.w, t.cores)
  | none => (1, [c])

/-- The participants: the gang row for `lgang`, in order of gx, the whole gang for `lrot` (R214). -/
def State.jointCores (s : State) (c : Nat) (rot : Bool) : List Nat :=
  let g := s.gangOf c
  if rot then g.2 else
    let row := g.2.idxOf c / (max g.1 1)
    (g.2.drop (row * g.1)).take g.1

/-- The operation leaves the head of EQ0 on core `c`; with a cause, the queue enters the error state (R192,
R218). -/
def State.endJoint (s : State) (c : Nat) (err : Option (Nat × Nat)) : State :=
  s.modCore c (fun k =>
    let k := { k with eq0 := k.eq0.drop 1, lprog := { k.lprog with act := false, sus := false } }
    match err with
    | some (cause, off) => k.stopEq0 cause off
    | none => k)

/-- The operation ends on every participant; `bad` names the core that stops it, the cause and the offset. -/
def State.endJoints (s : State) (bad : Option (Nat × Nat × Nat)) : List Nat → State
  | [] => s
  | c :: cs =>
    (s.endJoint c (bad.bind (fun b => if b.1 = c then some b.2 else none))).endJoints bad cs

/-- Acceptance of `lgang` and `lrot` (R173, R190, R213): the operation takes `%lprog.start`. -/
def jointBody (x : Joint) (rot : Bool) (s : State) : Res State := do
  s.eq0Ready none [] none
  let act := (s.me.rg x.a).toNat % 2 ^ 20
  let rcd := (s.me.rg x.b).toNat % 2 ^ 20
  aligned16 act
  aligned16 rcd
  let n := x.n1.toNat + 1
  if s.me.storing then stall s
  let j : JointOp := { rot := rot, w := x.w, act := act, rcd := rcd, n := n, fmt := x.fmt, ty := x.ty
                       mode := s.myCore.e4m3, start := s.myCore.lprog.start.toNat }
  .ok (s.enterEq0 none [] none (.joint j) none (fun k => { k with lprog := { k.lprog with start := 0 } }))

/-- `lgang` (R213 to R215). -/
def execLgang (x : Joint) (s : State) := runW x.gd 8 s (jointBody x false)

/-- `lrot` (R213, R214, R216). -/
def execLrot (x : Joint) (s : State) := runW x.gd 8 s (jointBody x true)

/-- `lprog` (R191). -/
def execLprog (gd : Guard) (d : Fin 32) (s : State) :=
  runR gd 8 s (fun t => t.wg d (BitVec.ofNat 64 s.myCore.lprog.word))

/-- `lprog.set` (R191). -/
def execLprogSet (gd : Guard) (a : Fin 32) (s : State) :=
  runW gd 8 s (fun s => do
    let x := s.me.rg a
    trapIf (decide (512 ≤ x.toNat)) (badProgress x 1)
    .ok (s.modMyCore (fun k => { k with lprog := { k.lprog with start := x.setWidth 9 } })))

/-- `lprog.drop` on any participant of a suspended operation (R191, R218). -/
def execLprogDrop (gd : Guard) (s : State) :=
  runW gd 8 s (fun s =>
    .ok (match s.myCore.headJoint with
      | some (o, j) =>
        let cs := s.jointCores s.cur.1 j.rot
        if o.started && cs.any (fun c => (s.core c).lprog.sus) then s.endJoints none cs else s
      | none => s))

/-! ### EQ0_ACCEPT and EQ0_OP_START (R171, R173, R214) -/

/-- EQ0_ACCEPT: the conditions of R173 that EQ0 itself sets are met, and a strand that waits for acceptance is ready;
its next attempt reads the sources and makes the checks. -/
def execEq0Accept (core : Nat) (strand : Fin 11) (s : State) :=
  let k := s.core core
  let t := k.strands[strand]
  runE s (if k.frozen || !t.live || s.blkOf core strand != 0 || t.stamp ≤ k.slot || 32 ≤ k.eq0.length
      || k.eq0.any (fun o => o.kind.writesLs) then none
    else some (s.modStrandAt core strand (fun t => { t with stamp := k.slot + 1 })))

def Core.markStarted (k : Core) (id : Nat) : Core :=
  { k with eq0 := k.eq0.map (fun o => if o.id = id then { o with started := true } else o) }

def Core.dropOp (k : Core) (id : Nat) : Core := { k with eq0 := k.eq0.filter (fun o => o.id != id) }

/-- A started operation that holds both planes, and one that holds a plane (R171). -/
def Core.sorting (k : Core) : Bool := k.eq0.any (fun o => o.started && (match o.kind with
  | .sort _ => true
  | _ => false))
def Core.stepping (k : Core) : Bool := k.eq0.any (fun o => o.started && (match o.kind with
  | .joint _ => true
  | _ => false))

/-- The participants agree (R214). -/
def jointAgree (a b : JointOp) : Bool :=
  a.fmt == b.fmt && a.ty == b.ty && a.start == b.start && (!a.rot || (a.n == b.n && a.w == b.w))

/-- The start of the joint operation at the head of EQ0 of the participants `cs`.
(DEDUCED, log 34) -/
def State.startJoint (s : State) (rot : Bool) (cs : List Nat) : Option State :=
  let run := cs.map (fun c => ((s.core c).task, (s.core c).returned))
  let js := cs.filterMap (fun c => (s.core c).headJoint)
  if run.any (fun x => x != (run.headD (none, false)) || x.2) then none
  else if js.length != cs.length || js.any (fun x => x.2.rot != rot || x.1.started) then none
  else match js with
    | [] => none
    | (_, j) :: _ =>
      if !js.all (fun x => jointAgree j x.2) then
        some (cs.foldl (fun s c => s.endJoint c (some (0x24, 0))) s)
      else
        let total := (js.map (fun x => x.2.n)).foldl max 0
        let s := cs.foldl (fun s c => s.modCore c (fun k =>
          { k with
            eq0 := k.eq0.mapIdx (fun i o => if i = 0 then { o with started := true } else o)
            lprog := { k.lprog with act := true, sus := false, total := total, done := min j.start total
                                    op := if rot then 0xCA else 0xC9 } })) s
        some (if total ≤ j.start then s.endJoints none cs else s)

/-- The oldest operation not yet started starts when its resources are free. -/
def State.startEq0 (s : State) (c : Nat) : Option State :=
  let k := s.core c
  if k.lprog.sus then none
  else match k.eq0.find? (fun o => !o.started) with
    | none => none
    | some o =>
      match o.kind with
      | .plan => if k.sorting then none else some (s.modCore c (fun k => k.dropOp o.id))
      | .rows two _ => if k.sorting || (two && k.stepping) then none
          else some (s.modCore c (fun k => k.markStarted o.id))
      | .sort _ => if k.sorting || k.stepping then none else some (s.modCore c (fun k => k.markStarted o.id))
      | .joint j => s.startJoint j.rot (s.jointCores c j.rot)
      | _ => some (s.modCore c (fun k => k.markStarted o.id))

def execEq0OpStart (core : Nat) (s : State) := runE s (s.startEq0 core)

/-! ### VEIN_UPDATE, LPERT_ARM, LSORT_COMPLETE (R175, R189) -/

def Core.addVein (k : Core) (w : Fin 64) (x : XReal) : Core := { k with veins := k.veins.set w (k.veins[w].add x) }

/-- The armed command acts on the first or the second vein of the operation, and is disarmed (R189). -/
def Core.perturb (k : Core) (first : Fin 64) (second : Option (Fin 64)) : Core :=
  match k.armed with
  | none => k
  | some cmd =>
    let k := { k with armed := none }
    match (if cmd.getLsbD 0 then second else some first) with
    | none => k
    | some w =>
      let v := k.veins[w]
      let v := { v with s := v.s + BitVec.ofInt 160 (sextN (cmd.toNat / 2 ^ 32) 32), ho := v.ho || cmd.getLsbD 1 }
      { k with veins := k.veins.set w v }

/-- A write or an addition of a raw vein value (R188). -/
def Vein.wr (w : Vein) (v : BitVec 128) (st : Word) (add : Bool) : Vein :=
  if add then
    let y := w.add ((XReal.ofInt v.toInt).shift ((st.setWidth 8 : BitVec 8).toInt - 64))
    { y with vx := y.vx || st.getLsbD 8, ho := y.ho || st.getLsbD 9 }
  else
    { s := v.signExtend 160, anchor := st.setWidth 8, vx := st.getLsbD 8, ho := st.getLsbD 9 }

/-- The oldest operation that acts on veins or on the armed command. -/
def Core.nextVein (k : Core) : Option Eq0Op :=
  k.eq0.find? (fun o => match o.kind with
    | .plan => false
    | .sort _ => false
    | _ => true)

/-- Its vein update, when it is one of one moment. -/
def Core.updateVeins (k : Core) (o : Eq0Op) : Option Core :=
  if !o.started then none
  else match o.kind with
    | .rows _ rs =>
      let k := rs.foldl (fun k r => k.addVein r.w r.x) k
      match rs with
      | [] => some (k.dropOp o.id)
      | r :: rest => some ((k.perturb r.w (rest.head?.map Row.w)).dropOp o.id)
    | .clr w a =>
      let v : Vein := { s := 0, anchor := a, vx := false, ho := false }
      some ({ k with veins := k.veins.set w v }.dropOp o.id)
    | .wr w v st add =>
      some (({ k with veins := k.veins.set w (k.veins[w].wr v st add) }.perturb w none).dropOp o.id)
    | _ => none

def execVeinUpdate (core : Nat) (s : State) :=
  let k := s.core core
  runE s ((k.nextVein.bind k.updateVeins).map (s.setCore core))

/-- An `lpert` at its turn arms its command. -/
def Core.armPert (k : Core) (o : Eq0Op) : Option Core :=
  match o.kind with
  | .pert cmd => if o.started then some ({ k with armed := some cmd }.dropOp o.id) else none
  | _ => none

def execLpertArm (core : Nat) (s : State) :=
  let k := s.core core
  runE s ((k.nextVein.bind k.armPert).map (s.setCore core))

/-- The record of a started `lsort` is written. -/
def Core.finishSort (k : Core) : Option Core :=
  (k.eq0.find? (fun o => o.started && (match o.kind with
    | .sort _ => true
    | _ => false))).bind (fun o => match o.kind with
      | .sort out => some ((k.ownWrite out).dropOp o.id)
      | _ => none)

def execLsortComplete (core : Nat) (s : State) := runE s ((s.core core).finishSort.map (s.setCore core))

/-! ### K_STEP and MULTISTEP_RESUME (R192, R215, R216, R218) -/

/-- Offsets of the activation group and the record of step `i`. -/
def JointOp.offsets (j : JointOp) (i : Nat) : Nat × Nat :=
  let m := if j.rot then i % 2 else i
  (j.act + m * actPitch j.ty, j.rcd + m * j.fmt.bytes)

/-- The places that step `i` reads. -/
def Core.stepLocs (k : Core) (j : JointOp) (i : Nat) : List Loc × List Loc :=
  let o := j.offsets i
  (k.lsRange o.1 (actBytes j.ty), k.lsRange o.2 j.fmt.bytes)

/-- Core `c` takes part in step `i`. -/
def JointOp.takes (j : JointOp) (i : Nat) : Bool := j.rot || decide (i < j.n)

/-- The absent window that the next step of core `k` would touch. -/
def Core.stepTouches (k : Core) : Option (Fin 8) :=
  match k.headJoint with
  | none => none
  | some (o, j) =>
    let ls := k.stepLocs j k.lprog.done
    if o.started && j.takes k.lprog.done then k.touched (ls.1 ++ ls.2) else none

/-- What a participant adds at step `i`: its contribution, or the cause and the offset that stop it. -/
def Core.stepValue (k : Core) (j : JointOp) (i : Nat) : Except (Nat × Nat) XReal × Core :=
  let ls := k.stepLocs j i
  let ra := k.readBytes ls.1
  let rr := ra.2.1.readBytes ls.2
  match ra.2.2.or rr.2.2 with
  | some off => (.error (0x38, off), rr.2.1)
  | none =>
    if (ladderOf j.fmt rr.1).malformed then (.error (0x21, (j.offsets i).2), rr.2.1)
    else (.ok (contribution j.fmt j.ty j.mode ra.1 rr.1), rr.2.1)

/-- The values of the participants of step `i`, or the first that stops. -/
def State.stepValues (s : State) (i : Nat) : List Nat → Except (Nat × Nat × Nat) (List (Nat × XReal)) × State
  | [] => (.ok [], s)
  | c :: cs =>
    match (s.core c).headJoint with
    | none => s.stepValues i cs
    | some (_, j) =>
      if !j.takes i then s.stepValues i cs
      else
        let r := (s.core c).stepValue j i
        let s := s.setCore c r.2
        match r.1 with
        | .error e => (.error (c, e), s)
        | .ok x =>
          let rest := s.stepValues i cs
          (rest.1.map (fun l => (c, x) :: l), rest.2)

/-- Contributions enter vein `w` of core `c` at one moment, the armed command with them.
(DEDUCED, log 34) -/
def State.stepAdd (s : State) (c : Nat) (w : Fin 64) (xs : List XReal) : State :=
  s.modCore c (fun k => (xs.foldl (fun k x => k.addVein w x) k).perturb w none)

/-- The bytes of both slots of step `i` that a participant of `lrot` sends on, with the marks that reading them leaves, and
the first poisoned offset (R151, R152). -/
def Core.slotBytes (k : Core) (j : JointOp) (i : Nat) : (List Byte × List Byte) × Core × Option Nat :=
  let o := j.offsets i
  let ra := k.readBytes (k.lsRange o.1 (actPitch j.ty))
  let rr := ra.2.1.readBytes (k.lsRange o.2 j.fmt.bytes)
  ((ra.1, rr.1), rr.2.1, ra.2.2.or rr.2.2)

/-- What the participants send on after step `i`, or the first that cannot: its number, the cause and the offset. -/
def State.slotsSent (s : State) (i : Nat) : List Nat → Except (Nat × Nat × Nat) (List (List Byte × List Byte)) × State
  | [] => (.ok [], s)
  | c :: cs => match (s.core c).headJoint with
    | none =>
      let rest := s.slotsSent i cs
      (rest.1.map (fun l => ([], []) :: l), rest.2)
    | some (_, j) =>
      let r := (s.core c).slotBytes j i
      let s := s.setCore c r.2.1
      match r.2.2 with
      | some off => (.error (c, 0x38, off), s)
      | none =>
        let rest := s.slotsSent i cs
        (rest.1.map (fun l => r.1 :: l), rest.2)

/-- Bytes arrive in local store at an offset. -/
def Core.receive (k : Core) (off : Nat) (bs : List Byte) : Core := k.writeBytes ((k.lsRange off bs.length).zip bs)

/-- The slots `sent` of the participants arrive: activations go west, records north (R216).
(DEDUCED, log 34) -/
def State.shiftSlots (s : State) (w : Nat) (cs : List Nat) (sent : List (List Byte × List Byte)) (i : Nat) : State :=
  let h := cs.length / max w 1
  (List.range cs.length).foldl (fun s p =>
    let x := p % w
    let y := p / w
    let east := sent.getD (y * w + (x + 1) % w) ([], [])
    let south := sent.getD ((y + 1) % h * w + x) ([], [])
    match cs[p]? with
    | none => s
    | some c => match (s.core c).headJoint with
      | none => s
      | some (_, j) =>
        let o := j.offsets (i + 1)
        s.modCore c (fun k => (k.receive o.1 east.1).receive o.2 south.2)) s

/-- `done` moves on every participant. -/
def State.stepDone (s : State) (i : Nat) (cs : List Nat) : State :=
  cs.foldl (fun s c => s.modCore c (fun k => { k with lprog := { k.lprog with done := i + 1 } })) s

/-- Step `i` of the participants `cs`: all add, or one stops the operation on all (R218); a slot that cannot be sent on stops
it after the step (R152). (DEDUCED, log 34) -/
def State.runStep (s : State) (rot : Bool) (w i total : Nat) (cs : List Nat) : State :=
  match s.stepValues i cs with
  | (.error b, s) => s.endJoints (some b) cs
  | (.ok xs, s) =>
    let dest (c : Nat) : Fin 64 := match (s.core c).headJoint with
      | some (_, j) => j.w
      | none => 0
    let s := if rot then xs.foldl (fun s x => s.stepAdd x.1 (dest x.1) [x.2]) s
      else match cs with
        | [] => s
        | c :: _ => s.stepAdd c (dest c) (xs.map Prod.snd)
    let s := s.stepDone i cs
    let fin (s : State) : State := if total ≤ i + 1 then s.endJoints none cs else s
    if rot then match s.slotsSent i cs with
      | (.error b, s) => s.endJoints (some b) cs
      | (.ok sent, s) => fin (s.shiftSlots w cs sent i)
    else fin s

/-- A fault holds the fill of window `i`: an operation of its own, or the first part of a copy of EQ1 (R192, R280, R283). -/
def Core.fillStalled (k : Core) (i : Fin 8) : Bool :=
  k.eq1.any (fun o => (o.kind == .fill i || o.waits == some i.val) && o.stall.isSome)

/-- A fill that an operation waits for has faulted: the operation suspends (R192).
(DEDUCED, log 34) -/
def Core.suspend (k : Core) (i : Fin 8) : Core :=
  if k.stepTouches == some i then { k with lprog := { k.lprog with sus := true } } else k

/-- An operation remembers what it has asked EQ1 for in vain, so that each discarded fill is counted once (R164). -/
def Core.noteAsk (k : Core) (id : Nat) (ask : Option (Nat × Nat)) : Core :=
  { k with eq0 := k.eq0.map (fun o => if o.id = id then { o with asked := ask } else o) }

/-- A step waits for the fills of the windows that it touches; one that a fault holds suspends it (R192, R283). -/
def State.stepFills (s : State) : List Nat → State
  | [] => s
  | c :: cs => match (s.core c).stepTouches, (s.core c).headJoint with
    | some i, some (o, _) =>
      let ask : Option (Nat × Nat) := if (s.core c).err[(1 : Fin 4)].isSome then some ((s.core c).lprog.done, i.val) else none
      ((s.enterFill c o.strand i (o.asked != ask)).modCore c (fun k =>
        (if k.fillStalled i then k.suspend i else k).noteAsk o.id ask)).stepFills cs
    | _, _ => s.stepFills cs

/-- K_STEP of the operation in which core `c` takes part. -/
def State.kStep (s : State) (c : Nat) : Option State :=
  match (s.core c).headJoint with
  | none => none
  | some (o, j) =>
    let cs := s.jointCores c j.rot
    if !o.started || cs.any (fun c => (s.core c).lprog.sus) then none
    else if cs.any (fun c => (s.core c).stepTouches.isSome) then some (s.stepFills cs)
    else some (s.runStep j.rot (s.gangOf c).1 (s.core c).lprog.done (s.core c).lprog.total cs)

def execKStep (core : Nat) (s : State) := runE s (s.kStep core)

/-- A fill that an operation waits for could not be served: it stops with cause 0x25 (R192, R284). -/
def State.fillStops (s : State) (c : Nat) (i : Fin 8) : State :=
  let k := s.core c
  match k.headJoint with
  | none => s
  | some (_, j) =>
    if k.stepTouches == some i then
      s.endJoints (some (c, 0x25, (j.offsets k.lprog.done).1)) (s.jointCores c j.rot)
    else s

/-- MULTISTEP_RESUME: the fill has been serviced. -/
def execMultistepResume (core : Nat) (s : State) :=
  let k := s.core core
  runE s (if k.lprog.sus && !k.stepTouches.any k.fillStalled then
    some (s.modCore core (fun k => { k with lprog := { k.lprog with sus := false } })) else none)

end Sys2Proof.Machine
end

