-- ==== Sys2Proof/Machine/Dispatcher.lean ====
section
/-! DEFINITION. The dispatcher: placement and the start of tasks (R250, R251, R257 to R259), eviction and resumption
(R262 to R267), `tfin` (R254), and the events DISPATCH_DECISION, SLICE_EXPIRY, GANG_EVICT, SAVED_GANG_READY and
FCAST_UPDATE. -/

namespace Sys2Proof.Machine

/-! ### The start of a task (R147, R201, R250) -/

/-- The exponent of `%ls.lspan` for a size in 4 KiB units (R149). -/
def spanOf (size : Nat) : Nat := ((List.range 8).find? (fun k => decide (size ≤ 2 ^ k))).getD 7

/-- The iteration box of a record: origins and extents (R247). -/
structure Box where
  o : List Nat
  e : List Nat

/-- Origin and extent of dimension `i`, divided over `n` cores, for the core at place `g` (R201). -/
def Box.part (b : Box) (i n g : Nat) : BitVec 32 × BitVec 32 :=
  let e := b.e.getD i 1
  let w := ceilDiv e n
  (BitVec.ofNat 32 (b.o.getD i 0 + g * w), BitVec.ofNat 32 (min w (e - g * w)))

/-- The box of a record, or how and where reading its frame fails (R247). -/
def State.readBox (s : State) (ctx : Nat) (r : Rec) : Except (WalkFail × Nat) Box :=
  if r.bx then
    (s.ctxBytes ctx r.frame 24).map (fun bs =>
      let x := tableEntries 4 6 bs
      ⟨x.take 3, (x.drop 3).map (fun e => max e 1)⟩)
  else .ok ⟨[0, 0, 0], [1, 1, 1]⟩

/-- The control strand of a starting task (R12, R250): from `now` on it uses no line of before, as after an acquire at
module scope (R251). -/
def startStrand (x : Ctx) (r : Rec) (gx gy slot now : Nat) : Strand :=
  let z : Strand := {}
  { z with
    pc := BitVec.ofNat 57 r.code
    g := (z.g.set 1 (BitVec.ofNat 64 r.frame)).set 2 r.origin
    priv := x.priv
    live := true
    stamp := slot
    voidP := now
    voidC := now
    dom := { key := BitVec.ofNat 16 r.key, gw := BitVec.ofNat 3 r.w, gh := BitVec.ofNat 3 r.h
             gx := BitVec.ofNat 3 gx, gy := BitVec.ofNat 3 gy } }

/-- A core with `cap` bytes of local store (R2, R149) that takes the core at place (gx, gy) of task `id`: what belongs to
the hardware stays, the rest stands as R147 and R250 give. (DESIGN CHOICE, log 36, 68) -/
def Core.start (old : Core) (id ctx : Nat) (x : Ctx) (r : Rec) (b : Box) (lnum gx gy cap : Nat) : Core :=
  let d0 := b.part 0 r.w gx
  let d1 := b.part 1 r.h gy
  let size := min x.lssize (cap / 4096)
  let z : Core := {}
  { z with
    task := some id
    ctx := ctx
    lnum := BitVec.ofNat 16 lnum
    ls := memSetAll [] ((placeAt 0 x.lsdata).filter (fun y => decide (y.1 < size * 4096)))
    lspan := BitVec.ofNat 4 (spanOf size)
    size := BitVec.ofNat 8 size
    ecc := old.ecc
    weak := old.weak.filter (fun y => decide (size * 512 ≤ y.1))
    bad := old.bad.filter (fun y => decide (size * 512 ≤ y))
    e4m3 := x.mode
    org := #v[d0.1, d1.1, BitVec.ofNat 32 (b.o.getD 2 0)]
    ext := #v[d0.2, d1.2, BitVec.ofNat 32 (b.e.getD 2 1)]
    outq := old.outq
    held := old.held
    utlb := old.utlb
    slot := old.slot
    strands := z.strands.set 0 (startStrand x r gx gy old.slot id) }

/-! ### Set lists (R308, R310) -/

/-- A set list as placement reads it: its entries, or the trap that freezes the new task. The trap of a malformed entry
names its handle (R303). -/
def State.readList (s : State) (ctx : Nat) (r : Rec) : Except Trap (List SetEntry) :=
  let bad : Trap := { code := 0x32, sub := 2, detail := BitVec.ofNat 64 (0xFFFF * 2 ^ 32) }
  if r.sets = 0 then .ok []
  else if r.sets % 16 != 0 then .error bad
  else match s.ctxBytes ctx r.sets 16 with
    | .error _ => .error bad
    | .ok hd =>
      let n := (hd.headD 0).toNat
      let es := s.listEntries ctx r
      if n = 0 ∨ 15 < n ∨ !(hd.drop 1).all (fun b => b == 0) ∨ es.length ≠ n then .error bad
      else match s.ctxBytes ctx (r.sets + 16) (16 * n) with
        | .error _ => .error bad
        | .ok bs =>
          match es.zipIdx.find? (fun e => e.1.mode == 0
              || bitsN (leNat ((bs.drop (16 * e.2 + 8)).take 8)) 63 62 != 0) with
          | some e => .error { bad with addr := e.1.h }
          | none =>
            match es.findSome? (fun e =>
                match s.nameHandle (s.ctx ctx).priv ctx e.h with
                | .error (.trap t) => some t
                | .error _ => some bad
                | .ok h => if e.mode = 3 ∧ !h.has 2 then some { code := 0x31, sub := 2, addr := e.h } else none) with
            | some t => .error t
            | none => .ok es

/-- The trap of a placement conflict (R303, R310). -/
def conflictTrap (x : Word × Nat × Nat) : Trap :=
  { code := 0x32, sub := 0, addr := x.1, detail := BitVec.ofNat 64 (x.2.2 % 2 ^ 16 * 2 ^ 32 + x.2.1 % 2 ^ 32) }

/-- The cores of a task freeze before their next instruction. -/
def State.freezeTask (s : State) (cs : List Nat) (t : Trap) (conflict : Bool) : State :=
  cs.foldl (fun s c => (s.trapAt c 0 t).modCore c (fun k => { k with conflict := conflict })) s

/-- The set checker at a placement or a resumption: a conflict freezes the task, its entries not live (R267, R310). -/
def State.checkSets (s : State) (id : Nat) (cs : List Nat) : State :=
  match s.task? id with
  | none => s
  | some t => match s.conflict id t.entries t.record.notes with
    | none => s
    | some x => (s.modTask id (fun t => { t with live := false })).freezeTask cs (conflictTrap x) true

/-- The task of a record starts on a rectangle (R250). -/
def State.startTask (s : State) (ctx : Nat) (r : Rec) (b : Box) (rect : List Nat) : State :=
  let id := s.nextId
  let reg := s.region ctx
  let lnum (c : Nat) : Nat := ((reg.find? (fun x => x.2 == c)).map Prod.fst).getD 0xFFFF
  let l := s.readList ctx r
  let es := match l with
    | .ok es => es
    | .error _ => []
  let t : Task := { id := id, ctx := ctx, record := r, w := r.w, h := r.h, cores := rect, lnums := rect.map lnum
                    entries := es }
  let s := { s.fresh with tasks := s.tasks ++ [t] }
  let s := (rect.zipIdx).foldl (fun s x =>
    s.modCore x.1 (fun k => k.start id ctx (s.ctx ctx) r b (lnum x.1) (x.2 % r.w) (x.2 / r.w) (s.lsCap x.1))) s
  match l with
  | .ok _ => s.checkSets id rect
  | .error tr => s.freezeTask rect tr false

/-! ### Eligible cores and heads (R257, R258, R264) -/

/-- The reservation is that of the first record of queue `q` of a context, or of a saved gang. -/
def Reserve.isOf (r : Reserve) (ctx q : Nat) (gang : Option Nat) : Bool := r.ctx == ctx && r.queue == q && r.gang == gang

/-- Reserved for another head (R259). -/
def State.reservedFor (s : State) (c ctx q : Nat) (gang : Option Nat) : Bool :=
  (s.dies[(Fin.ofNat 8 (dieOf c))]).reserve.any (fun r => r.cores.contains c && !r.isOf ctx q gang)

/-- A reservation is released. -/
def State.release (s : State) (ctx q : Nat) (gang : Option Nat) : State :=
  { s with dies := s.dies.map (fun d => { d with reserve := d.reserve.filter (fun r => !r.isOf ctx q gang) }) }

/-- The core runs no task and is no shadow. -/
def Core.vacant (k : Core) : Bool := k.task.isNone && k.pairOf.isNone

/-- Eligible for a head of queue `q` of a context whose region is `reg`; `stay`: for a saved gang that may not leave
its cluster, a parking die too (R257, R266, R286). -/
def State.eligible (s : State) (reg : List Nat) (ctx q : Nat) (gang : Option Nat) (stay : Bool) (c : Nat) : Bool :=
  let p := (s.dies[(Fin.ofNat 8 (dieOf c))]).power
  reg.contains c && s.sound c && (s.core c).vacant && !s.reservedFor c ctx q gang
    && (p == .online || (stay && p == .parking))

/-- What waits at the head of a ready queue: a saved gang that is ready stands before the records (R264). -/
inductive Head
  | gang (t : Task)
  | rec' (r : Rec)
  deriving DecidableEq, Repr

/-- The head of ready queue `q` of a context: a saved gang that is ready, or the oldest record (R258, R265).
(DEDUCED, log 59) -/
def State.headOf (s : State) (ctx q : Nat) : Option Head :=
  if (s.ctx ctx).stopped then none
  else match s.tasks.find? (fun t => t.ctx == ctx && !t.saved.isEmpty && t.ready && t.record.queue == q) with
    | some t => some (.gang t)
    | none => (sget [] s.queues q).head?.map .rec'

def Head.record : Head → Rec
  | .gang t => t.record
  | .rec' r => r

def Head.gang? : Head → Option Nat
  | .gang t => some t.id
  | .rec' _ => none

/-- The clusters in which a head may be placed: a gang whose record has `cl` set returns to the one it left (R264). -/
def Head.clusters (h : Head) (reg : List Nat) : List Nat :=
  match h with
  | .gang t => if t.record.cl then [cluOf (t.cores.headD 0)] else clustersOf reg
  | .rec' _ => clustersOf reg

/-- A saved gang that may not leave its cluster is placed on a parking die too (R266, R286). -/
def Head.stays : Head → Bool
  | .gang t => t.record.cl
  | .rec' _ => false

/-- The queues in the order of a decision of a die: priority 3 to 0, round-robin within one (R258).
(DEDUCED, log 59) -/
def State.queueOrder (s : State) (d : Fin 8) : List (Nat × Nat × Head) :=
  [3, 2, 1, 0].flatMap (fun p =>
    (List.range 64).filterMap (fun i =>
      let q := ((s.dies[d]).rr.toList.getD p 63 + 1 + i) % 64
      match s.queueOwner q with
      | none => none
      | some ctx => if (s.ctx ctx).qpri q = p then (s.headOf ctx q).map (fun h => (ctx, q, h)) else none))

/-- The first fitting rectangle of a head on a die. -/
def State.fit (s : State) (d : Fin 8) (ctx q : Nat) (h : Head) : Option (List Nat) :=
  let reg := ((s.region ctx).map Prod.snd).filter (fun c => dieOf c == d.val)
  firstRect (s.eligible reg ctx q h.gang? h.stays) (h.clusters reg) h.record.w h.record.h

/-- A die may place a head: the region has cores on it that the head may take, and it is online, or parking where the head
returns to its own cluster (R258, R266). -/
def State.reaches (s : State) (d : Fin 8) (ctx : Nat) (h : Head) : Bool :=
  let p := (s.dies[d]).power
  let reg := ((s.region ctx).map Prod.snd).filter (fun c => dieOf c == d.val)
  (p == .online || (h.stays && p == .parking)) && reg.any (fun c => (h.clusters reg).contains (cluOf c))

/-! ### Failures of a context (R246 to R248) -/

/-- The head record of a queue leaves it, with its reservation. -/
def State.dequeue (s : State) (ctx q : Nat) : State :=
  { s.release ctx q none with queues := sput s.queues q ((sget [] s.queues q).drop 1) }

/-- The queued records of queue `q` that no rectangle of placeable cores can take any more are withdrawn with status 4,
the first with its reservation (R248, R259); of a context that has been stopped, or whose core table cannot be read, none
is (R246). -/
def State.withdrawFrom (s : State) (q : Nat) : State :=
  match s.queueOwner q with
  | none => s
  | some ctx =>
    let rs := sget [] s.queues q
    let gone := rs.filter (fun r => !s.placeable ctx r.w r.h)
    if gone.isEmpty || (s.ctx ctx).stopped || (s.tableFault ctx).isSome then s
    else
      let s' := if rs.head?.any (fun r => !s.placeable ctx r.w r.h) then s.release ctx q none else s
      gone.foldl (fun s' r => s'.fail ctx { origin := r.origin, cause := 4 })
        { s' with queues := sput s'.queues q (rs.filter (fun r => s.placeable ctx r.w r.h)) }

/-! ### Resumption (R265) -/

/-- The vacated core that goes to the logical core whose own core the gang takes: from place `i`, following the
cores that the gang both leaves and takes. -/
def vacated (old new : List Nat) : Nat → Nat → Nat
  | 0, i => old.getD i 0
  | f + 1, i =>
    let c := old.getD i 0
    if new.contains c then vacated old new f (new.idxOf c) else c

/-- The core table after a gang with logical cores `ls` has moved from `old` to `new`: the entries that change. -/
def movedEntries (reg : List (Nat × Nat)) (ls old new : List Nat) : List (Nat × Nat) :=
  ls.zip new ++ reg.filterMap (fun x =>
    if ls.contains x.1 || !new.contains x.2 then none
    else some (x.1, vacated old new new.length (new.idxOf x.2)))

/-- The cores that the core table names for the logical cores of a task now. -/
def Task.current (t : Task) (reg : List (Nat × Nat)) : List Nat :=
  (t.lnums.zip t.cores).map (fun x => ((reg.find? (fun y => y.1 == x.1)).map Prod.snd).getD x.2)

/-- The dispatcher rewrites the core table. -/
def State.writeTable (s : State) (ctx : Nat) : List (Nat × Nat) → Except (WalkFail × Nat) State
  | [] => .ok s
  | x :: xs => match s.ctxWrite ctx ((s.ctx ctx).ctab + 2 * x.1) (leBytes 2 (physOf x.2)) with
    | .ok s => s.writeTable ctx xs
    | .error e => .error e

/-- A saved core's state on the core that it resumes on, which has `cap` bytes of local store, with its strands ready
together; a place whose core had returned stays free. (DESIGN CHOICE, log 68) -/
def Core.resumeOn (old saved : Core) (cap : Nat) : Core :=
  if saved.returned then old
  else
    let size := min saved.size.toNat (cap / 4096)
    { saved with
      size := BitVec.ofNat 8 size, ls := saved.ls.filter (fun y => decide (y.1 < size * 4096))
      outq := old.outq, held := old.held, utlb := [], icache := old.icache
      pdc := [], frozen := false, slot := old.slot
      strands := saved.strands.map (fun t => { t with stamp := old.slot }) }

/-- A core number that no core has: it stands for the core of a detached copy. -/
def noCore : Nat := 27648

/-- The queue of a copy. -/
def CopyOp.queue (o : CopyOp) : Fin 4 :=
  match o.kind with
  | .gath | .scat _ => 2
  | _ => 1

/-- A started copy holds its handle's order for core `c` (R304, R305). -/
def State.holdFor (s : State) (c : Nat) (o : CopyOp) : State :=
  s.modHandle (s.rootOf o.h) (fun h => h.hold c o.id)

/-- A detached copy of a resumed gang stands in the queue of the core that has its place (R281). -/
def State.reattach (s : State) (c : Nat) (o : CopyOp) : State :=
  (s.modCore c (fun k => if o.queue = 2 then { k with eq2 := k.eq2 ++ [o] } else { k with eq1 := k.eq1 ++ [o] })).holdFor
    c o

/-- A saved gang resumes on a rectangle. -/
def State.resumeGang (s : State) (t : Task) (rect : List Nat) : State :=
  match s.writeTable t.ctx (movedEntries (s.region t.ctx) t.lnums (t.current (s.region t.ctx)) rect) with
  | .error e => s.stopCtx t.ctx e
  | .ok s => match t.lnums.findSome? (s.slotFault t.ctx false) with
  | some e => s.stopCtx t.ctx e
  | none =>
    let s := (rect.zip t.saved).foldl (fun s x => s.modCore x.1 (fun k => k.resumeOn x.2 (s.lsCap x.1))) s
    let s := s.modTask t.id (fun x => { x with cores := rect, saved := [], ready := false, detached := [] })
    let s := t.detached.foldl (fun s x => s.reattach (rect.getD x.1 0) x.2) s
    s.checkSets t.id ((rect.zip t.saved).filterMap (fun x => if x.2.returned then none else some x.1))

/-! ### DISPATCH_DECISION (R258, R259) -/

/-- A head is placed on a rectangle. -/
def State.placeHead (s : State) (x : Nat × Nat × Head) (rect : List Nat) : State :=
  match x.2.2 with
  | .gang t => (s.release x.1 x.2.1 (some t.id)).resumeGang t rect
  | .rec' r =>
    let s := s.dequeue x.1 x.2.1
    match s.readBox x.1 r with
    | .error e => s.fail x.1 { origin := r.origin, cause := e.1.code, addr := BitVec.ofNat 64 r.frame }
    | .ok b => s.startTask x.1 r b rect

/-- A head one decision older. -/
def Head.older : Head → Head
  | .gang t => .gang { t with record := { t.record with age := t.record.age + 1 } }
  | .rec' r => .rec' { r with age := r.age + 1 }

/-- A head that a decision which places another passes over ages by one. (DEDUCED, log 59) -/
def State.ageHead (s : State) (x : Nat × Nat × Head) : State :=
  match x.2.2 with
  | .gang t => s.modTask t.id (fun t => { t with record := { t.record with age := t.record.age + 1 } })
  | .rec' r => { s with queues := sput s.queues x.2.1 ({ r with age := r.age + 1 } :: (sget [] s.queues x.2.1).drop 1) }

/-- The rectangle with the fewest cores running tasks, the first of equals. -/
def fewest (busy : Nat → Bool) : List (List Nat) → Option (List Nat)
  | [] => none
  | r :: rs => match fewest busy rs with
    | none => some r
    | some b => if (r.filter busy).length ≤ (b.filter busy).length then some r else some b

/-- A head whose age exceeds the threshold reserves a rectangle that it may be placed on, unless the region on the die
holds a reservation (R259, R264). -/
def State.reserveFor (s : State) (d : Fin 8) (x : Nat × Nat × Head) : State :=
  let die := s.dies[d]
  let r := x.2.2.record
  let reg := ((s.region x.1).map Prod.snd).filter (fun c => dieOf c == d.val)
  if r.age ≤ die.age.toNat ∨ die.reserve.any (fun y => y.ctx == x.1 || y.cores.any reg.contains) ∨ die.power ≠ .online then s
  else
    let rects := ((x.2.2.clusters reg).flatMap (fun u => rectsOf u r.w r.h)).filter (fun l =>
      l.all (fun c => reg.contains c && s.sound c))
    match fewest (fun c => !(s.core c).vacant) rects with
    | none => s
    | some l => s.modDie d (fun y => { y with reserve := y.reserve ++ [⟨x.1, x.2.1, x.2.2.gang?, l⟩] })

/-- The dispatcher's choice: the heads passed over, and the first that fits. -/
def State.choose (s : State) (d : Fin 8) : List (Nat × Nat × Head) → List (Nat × Nat × Head) →
    List (Nat × Nat × Head) × Option ((Nat × Nat × Head) × List Nat)
  | [], past => (past, none)
  | x :: xs, past => match s.fit d x.1 x.2.1 x.2.2 with
    | some r => (past, some (x, r))
    | none => s.choose d xs (past ++ [x])

/-- The checker of a die holds 4,096 live entries; while it is full no record with a list is placed (R310).
(DEDUCED, log 44) -/
def State.checkerFull (s : State) : Bool :=
  decide (4096 ≤ ((s.tasks.filter Task.live).map (fun t => (t.entries.filter (fun e => !e.retired)).length)).sum)

def State.placeableHead (s : State) (x : Nat × Nat × Head) : Bool :=
  match x.2.2 with
  | .gang _ => true
  | .rec' r => r.sets == 0 || !s.checkerFull

/-- The heads that die `d` may place, in the order of its decision. -/
def State.headsOn (s : State) (d : Fin 8) : List (Nat × Nat × Head) :=
  (s.queueOrder d).filter (fun x => s.reaches d x.1 x.2.2)

/-- One decision of the dispatcher of die `d`: heads age when it places one. (DEDUCED, log 59) -/
def State.dispatchOn (s : State) (d : Fin 8) : State :=
  match (s.queueOrder d).findSome? (fun x => (s.tableFault x.1).map (fun f => (x.1, f))) with
  | some (ctx, f) => s.stopCtx ctx f
  | none =>
    let s := (List.range 64).foldl State.withdrawFrom s
    let r := s.choose d ((s.headsOn d).filter s.placeableHead) []
    match r.2 with
    | none => r.1.foldl (fun s x => s.reserveFor d x) s
    | some (x, rect) =>
      let s := r.1.foldl State.ageHead s
      let p := (s.ctx x.1).qpri x.2.1
      let s := (s.modDie d (fun y => { y with rr := y.rr.setIfInBounds p x.2.1 })).placeHead x rect
      r.1.foldl (fun s x => s.reserveFor d (x.1, x.2.1, x.2.2.older)) s

/-- DISPATCH_DECISION: at most one head is placed. -/
def execDispatchDecision (die : Fin 8) (s : State) := runE s (some (s.dispatchOn die))

/-! ### tfin (R254) -/

/-- Every store of the core is performed at module scope. -/
def Core.settled (k : Core) : Bool :=
  k.strands.toList.all (fun t => t.buf.isEmpty) && k.outq.all (fun o => o.stage != 0 && o.e.locs.any Loc.isRemote)

/-- The pair of the issuing core is to end with its interval (R237). -/
def State.askUnpair (s : State) (c : Nat) : State :=
  { s with pairs := s.pairs.map (fun p => if p.leader = c then { p with due := true, ending := true } else p) }

/-- The core returns free, as its task leaves it, and counts at no barrier; with the last core of the gang the task has
ended (R204, R254). -/
def State.returnCore (s : State) (c : Nat) : State :=
  let k := s.core c
  let id := k.task
  let s := s.freeCore true c
  { s with
    barriers := s.barriers.map (fun b => b.without k.ctx [k.lnum.toNat])
    tasks := s.tasks.filter (fun t => !(some t.id == id && (s.runningCores t).isEmpty && t.saved.isEmpty))
    retired := true }

def tfinBody (s : State) : Res State := do
  s.controlOnly
  s.awaitHelpers 0xFFFF
  let s ← s.drainQueues [0, 1, 2, 3]
  if (s.leads s.cur.1).isSome then stall (s.askUnpair s.cur.1)
  if !s.myCore.settled then stall s
  .ok s

/-- `tfin` (R254). -/
def execTfin (gd : Guard) (s : State) : Host.Outcome State Fault Refusal :=
  if s.me.guardOn gd then conclude s (tfinBody s) (fun s => s.returnCore s.cur.1) else .next (s.retire 8)

/-! ### Eviction (R262, R263, R266) -/

/-- Every live strand of a core is blocked with an eligible code. -/
def State.blocked (s : State) (c : Nat) : Bool :=
  !(s.core c).frozen && (List.finRange 11).all (fun h =>
    !(s.strandAt c h).live || (decide (1 ≤ (s.blkOf c h).toNat) && decide ((s.blkOf c h).toNat ≤ 4)))

def State.gangBlocked (s : State) (t : Task) : Bool :=
  t.saved.isEmpty && (s.runningCores t).all (fun x => s.blocked x.1 && !(s.core x.1).lprog.sus)

/-- The gang holds cores of a parking die that it must leave (R266). -/
def State.mustLeave (s : State) (t : Task) : Bool :=
  !t.record.cl && (s.runningCores t).any (fun x => (s.dies[(Fin.ofNat 8 (dieOf x.1))]).power == .parking)

/-- Some rectangle of placeable cores of die `d` in the context's region can hold the head. -/
def State.holds (s : State) (d : Fin 8) (ctx : Nat) (h : Head) : Bool :=
  let reg := ((s.region ctx).map Prod.snd).filter (fun c => dieOf c == d.val)
  (firstRect (fun c => reg.contains c && s.sound c) (h.clusters reg) h.record.w h.record.h).isSome

/-- A ready head of equal or higher priority waits for cores of the gang's die. -/
def State.wanted (s : State) (t : Task) : Bool :=
  let d := Fin.ofNat 8 (dieOf (t.cores.headD 0))
  let p := (s.ctx t.ctx).qpri t.record.queue
  (s.headsOn d).any (fun x => p ≤ (s.ctx x.1).qpri x.2.1 && s.holds d x.1 x.2.2)

/-- The dispatcher would evict the gang but for its time. -/
def State.evictable (s : State) (t : Task) : Bool := s.gangBlocked t && (s.mustLeave t || s.wanted t)

/-- SLICE_EXPIRY: the blocked time has passed the slice while it is below the switch cost (R262). -/
def execSliceExpiry (task : Nat) (s : State) :=
  runE s (match s.task? task with
    | none => none
    | some t =>
      if s.gangBlocked t && s.wanted t then
        some ((s.runningCores t).foldl (fun s x => s.modCore x.1 (fun k =>
          { k with strands := k.strands.map (fun y => if y.live then { y with slicefix := true } else y) })) s)
      else none)

/-- A copy that is detached does not hold back eviction (R281). -/
def CopyOp.detached (o : CopyOp) : Bool := o.stall.any (fun x => x.write) && o.whole

def lastDetached : List CopyOp → Bool
  | [] => true
  | [o] => o.detached
  | _ => false

/-- Everything that must be drained before a core is saved has drained: only replies of other modules' loads are
outstanding (R263, R264). -/
def Core.saveable (k : Core) : Bool :=
  k.eq0.isEmpty && k.eq3.isEmpty && lastDetached k.eq1 && lastDetached k.eq2 && k.outq.isEmpty
    && k.cist.toList.all (fun c => c.held.isEmpty) && k.pairOf.isNone
    && k.strands.toList.all (fun t => t.buf.isEmpty && t.loads.all (fun l => l.locs.any Loc.isRemote))

/-- A core as its save slot holds it: a sequence of repeats has stopped, and its prefix issues again (R146, R263). -/
def Core.savedAs (k : Core) : Core :=
  { k with eq1 := [], eq2 := [], conflict := false, repOwner := none, strands := k.strands.map Strand.stopRep }

/-- The cores that a gang of a context has left keep no leaf, nor does their cluster's table once no core of the cluster
runs the context (R269). -/
def State.dropLeaves (s : State) (ctx : Nat) (cs : List Nat) : State :=
  let clu := cluOf (cs.headD 0)
  let s := cs.foldl (fun s c => s.modCore c (fun k => { k with utlb := [] })) s
  if cs.isEmpty || (coresOf clu).any (fun c => (s.core c).task.isSome && (s.core c).ctx == ctx) then s
  else s.modCluster clu (fun k => { k with tlb := k.tlb.filter (fun l => l.ctx != ctx) })

/-- GANG_EVICT: the gang's cores are saved and return free. (DESIGN CHOICE, log 37) -/
def State.evict (s : State) (task : Nat) : Option State :=
  match s.task? task with
  | none => none
  | some t =>
    let cs := t.cores
    let mine (c : Nat) : Bool := (s.core c).task == some t.id
    if !s.evictable t then none
    else if (s.pairs.any (fun p => cs.contains p.leader)) then
      some ((cs.filter mine).foldl State.askUnpair s)
    else if !(cs.filter mine).all (fun c => (s.core c).saveable) then none
    else match t.lnums.findSome? (s.slotFault t.ctx true) with
    | some e => some (s.stopCtx t.ctx e)
    | none =>
      let saved := cs.map (fun c => if mine c then (s.core c).savedAs else { ({} : Core) with returned := true })
      let copies := (cs.zipIdx.filter (fun x => mine x.1)).flatMap (fun x =>
        ((s.core x.1).eq1 ++ (s.core x.1).eq2).map (fun o => (x.2, o)))
      let s := ((t.lnums.zip cs).filter (fun x => mine x.2)).foldl (fun s x => s.writeSlot t.ctx x.1) s
      let s := ((s.freeCores true (cs.filter mine)).dropLeaves t.ctx (cs.filter mine)).modTask task (fun x =>
        { x with saved := saved, ready := false, detached := copies })
      some (copies.foldl (fun s x => s.holdFor noCore x.2) s)

def execGangEvict (task : Nat) (s : State) := runE s (s.evict task)

/-- A saved strand's wait is met (R264), or it has a membership change to take (R363). -/
def State.savedMet (s : State) (k : Core) (t : Strand) : Bool :=
  t.live && (!t.changes.isEmpty || (match t.blk.toNat with
    | 1 => (match t.waiting with
      | .barrier d g => s.barriers.any (fun b => b.dom == d && decide (g < b.gen))
      | .kview _ r => r.isSome
      | .kjoin _ r => r.isSome
      | _ => true)
    | 2 => true
    | 3 => !(k.rq.isEmpty && k.ovf.isEmpty)
    | _ => t.loads.isEmpty))

/-- SAVED_GANG_READY. -/
def execSavedGangReady (task : Nat) (s : State) :=
  runE s (match s.task? task with
    | none => none
    | some t =>
      if !t.saved.isEmpty && !t.ready && t.saved.any (fun k => !k.returned && k.strands.toList.any (s.savedMet k)) then
        some (s.modTask task (fun x => { x with ready := true }))
      else none)

/-! ### FCAST_UPDATE (R261) -/

/-- Good worker cores of a die. -/
def State.workers (s : State) (d : Nat) : Nat :=
  ((List.range 96).map (fun u =>
    let k := s.cluster (96 * d + u)
    popcount36 k.harvest - 1 - ((List.range 4).filterMap k.entry).length)).sum

/-- Cores running tasks on a die. -/
def State.runningOn (s : State) (d : Nat) : Nat :=
  (s.cores.filter (fun x => dieOf x.1 == d && x.2.task.isSome)).length

/-- A die may place a record: it is online, and the region has a rectangle of placeable cores on it. -/
def State.mayPlace (s : State) (d : Fin 8) (ctx : Nat) (r : Rec) : Bool :=
  (s.dies[d]).power == .online && !(s.ctx ctx).stopped && s.holds d ctx (.rec' r)

/-- Cores that the ready records which a die may place ask for. -/
def State.askedOn (s : State) (d : Fin 8) : Nat :=
  ((List.range 64).map (fun q => match s.queueOwner q with
    | none => 0
    | some ctx => (((sget [] s.queues q).filter (s.mayPlace d ctx)).map (fun r => r.w * r.h)).sum)).sum

def execFcastUpdate (die : Fin 8) (s : State) :=
  runE s (some (s.modDie die (fun x =>
    { x with fcast := BitVec.ofNat 16 (min (s.workers die.val) (s.runningOn die.val + s.askedOn die)) })))

end Sys2Proof.Machine
end

