-- ==== Sys2Proof/Machine/Copies.lean ====
section
/-! DEFINITION. The data movement of copies and windows (R271 to R284): boxes and index lists, elements between a handle
and local store, status words, notices, and the ends of copies. -/

namespace Sys2Proof.Machine

/-! ### Boxes and index lists (R271 to R275) -/

/-- An element of a copy, in copy order: inside the handle or not, its place there and its local position. -/
structure BoxEl where
  inside : Bool
  i0 : Nat
  row : Nat
  pos : Nat
  deriving DecidableEq, Repr

/-- The elements of a box; `t`: the local layout swaps i0 and i1. -/
def boxElems (h : Handle) (o e : Vector Nat 4) (p : Vector Nat 3) (lsel : Nat) (t : Bool) : List BoxEl :=
  (List.range e[3]).flatMap (fun x3 => (List.range e[2]).flatMap (fun x2 => (List.range e[1]).flatMap (fun x1 =>
    (List.range e[0]).map (fun x0 =>
      { inside := decide (o[0] + x0 < h.e[0]) && decide (o[1] + x1 < h.e[1]) && decide (o[2] + x2 < h.e[2])
          && decide (o[3] + x3 < h.e[3])
        i0 := o[0] + x0
        row := (o[1] + x1) + h.e[1] * ((o[2] + x2) + h.e[2] * (o[3] + x3))
        pos := lsel + (if t then x1 + p[0] * x0 else x0 + p[0] * x1) + p[1] * x2 + p[2] * x3 }))))

/-- The elements of a list of rows. -/
def rowElems (h : Handle) (q : Nat) (idx : List Nat) : List BoxEl :=
  idx.zipIdx.flatMap (fun x => (List.range h.e[0]).map (fun i =>
    { inside := decide (x.1 < h.rows), i0 := i, row := x.1, pos := x.2 * q + i }))

def Shape.elems (sh : Shape) (h : Handle) (t : Bool) : List BoxEl :=
  match sh with
  | .box o e p lsel => boxElems h o e p lsel t
  | .rows q idx => rowElems h q idx

/-- The `n32` at byte `i`. -/
def n32At (bs : List Byte) (i : Nat) : Nat := leNat ((bs.drop i).take 4)

/-- The box of a descriptor, unless it is refused (R273). -/
def boxOf (h : Handle) (bs : List Byte) : Option Shape :=
  let o : Vector Nat 4 := #v[n32At bs 0, n32At bs 4, n32At bs 8, n32At bs 12]
  let e : Vector Nat 4 := #v[n32At bs 16, n32At bs 20, n32At bs 24, n32At bs 28]
  let beyond := (List.range 4).any (fun d =>
    decide (h.rank ≤ d) && (o.toList.getD d 0 != 0 || decide (1 < e.toList.getD d 0)))
  if 2 ^ 47 < e[0] * e[1] * e[2] * e[3] || !(bs.drop 48).all (fun b => b == 0) || beyond then none
  else some (.box o e #v[n32At bs 32, n32At bs 36, n32At bs 40] (n32At bs 44))

/-! ### Elements and bytes -/

/-- Local-store bytes that element position `pos` of `b` bits covers from `base` on. -/
def Core.elemLocs (k : Core) (base b pos : Nat) : List Loc :=
  (List.range (ceilDiv (b * pos % 8 + b) 8)).map (fun j => k.lsLoc (base + b * pos / 8 + j))

def Core.byteAt (k : Core) (l : Loc) : Byte :=
  match l.at' with
  | .ls => memGet k.ls l.addr
  | _ => 0

/-- A byte at one of the locations lies in a poisoned word (R152). -/
def Core.poisonedAt (k : Core) (ls : List Loc) : Option Nat :=
  (ls.find? (fun l => l.at' == .ls && k.bad.contains (l.addr / 8))).map Loc.addr

/-- The bytes of element position `pos` of `b` bits with value `v`, each with the bits of it that are the element's. -/
def Core.bitParts (k : Core) (base b pos v : Nat) : List (Loc × Byte × Byte) :=
  ((bitsTo (fun _ => 0) (b * pos) b v).zip (bitsTo (fun _ => 0) (b * pos) b (2 ^ b - 1))).map
    (fun y => (k.lsLoc (base + y.1.1), y.1.2, y.2.2))

/-- Bytes written under masks (R272): one that is written in part keeps its other bits, and a poison with them. -/
def Core.writeParts (k : Core) (ps : List (Loc × Byte × Byte)) : Core :=
  let k' := k.writeBytes ((ps.filter (fun x => x.2.2 == 0xFF)).map (fun x => (x.1, x.2.1)))
  (ps.filter (fun x => x.2.2 != 0xFF)).foldl (fun k x =>
    k.writeByte x.1 ((x.2.1 &&& x.2.2) ||| (k.byteAt x.1 &&& ~~~x.2.2))) k'

/-- Elements (position, value) written to local store, a later one over an earlier one. -/
def Core.putElems (k : Core) (base b : Nat) (xs : List (Nat × Nat)) : Core :=
  k.writeParts (xs.foldl (fun ps x => (k.bitParts base b x.1 x.2).foldl addPart ps) [])

/-- The value at an element position of local store. -/
def Core.getElem (k : Core) (base b pos : Nat) : Nat := bitsOf (fun a => k.byteAt (k.lsLoc (base + a))) (b * pos) b

/-- The values of the elements before the first with a poisoned byte, the core with the marks that reading them leaves,
and that byte's offset (R148, R151, R152). -/
def Core.readEls (k : Core) (base b : Nat) : List BoxEl → List Nat × Core × Option Nat
  | [] => ([], k, none)
  | e :: es =>
    let ls := k.elemLocs base b e.pos
    match k.poisonedAt ls with
    | some a => ([], k, some a)
    | none =>
      let r := (k.readBytes ls).2.1.readEls base b es
      (k.getElem base b e.pos :: r.1, r.2)

/-- The words that a copy reads are corrected (R151). -/
def Core.correctAll (k : Core) (ls : List Loc) : Core := (k.readBytes ls).2.1

/-- Sectors of a handle's data that an element covers. -/
def Handle.sectors (h : Handle) (e : BoxEl) : List Nat :=
  let b := 8 * h.rowBytes * e.row + e.i0 * h.bits
  (List.range (ceilDiv (b % 512 + h.bits) 512)).map (fun j => b / 512 + j)

/-- A read of the element meets a poisoned sector; one of a mirrored handle is rewritten instead (R315). -/
def Handle.badAt (h : Handle) (e : BoxEl) : Bool := !h.has 14 && (h.sectors e).any h.bad.contains

/-- The elements before the first that a read cannot take, and whether there is one. -/
def Handle.readable (h : Handle) : List BoxEl → List BoxEl × Bool
  | [] => ([], false)
  | e :: es => if h.badAt e then ([], true) else let r := h.readable es; (e :: r.1, r.2)

/-- The poisoned sectors of a mirrored handle that a read of elements meets are rewritten (R315). -/
def State.mend (s : State) (h : Handle) (es : List BoxEl) : State :=
  if h.has 14 && es.any (fun e => (h.sectors e).any h.bad.contains) then
    s.modHandle h.v (fun h => { h with bad := h.bad.filter (fun n => !es.any (fun e => (h.sectors e).contains n)) })
  else s

/-- The address of the page that holds sector `n` of a handle: known where the handle has a virtual range (R284, R301).
(DESIGN CHOICE, log 18) -/
def State.pageOf (s : State) (h : Handle) (n : Nat) : Word :=
  if h.has 10 then BitVec.ofNat 64 ((h.base.toNat + 64 * n) / 4096 * 4096) else Config.freedPage s.draws

/-- The element types that `hscat.add` adds (R277). -/
def addType (h : Handle) : Bool :=
  h.rfmt == 0 && (match h.ty with
    | .i8 | .i16 | .i32 | .n8 | .n16 | .n32 | .f32 | .bf16 => true
    | _ => false)

/-- Old and new element added: saturated, or rounded to nearest. -/
def addElem (h : Handle) (a b : Nat) : Nat :=
  match floatOf h.mode h.ty with
  | some f => (f.rnd .rne (sumX .rne [f.value a, f.value b]).1).1
  | none => patternOf h.ty (satTo (h.ty.read a + h.ty.read b) h.ty).1

/-- Elements with their values written into the handle; a sector written whole loses its poison (R315). -/
def Handle.putAll (h : Handle) (add : Bool) (xs : List (BoxEl × Nat)) : Handle :=
  let h' := xs.foldl (fun h x => h.put x.1.i0 x.1.row (if add then addElem h (h.get x.1.i0 x.1.row) x.2 else x.2)) h
  let covered (bit : Nat) : Bool := xs.any (fun x =>
    let b := 8 * h.rowBytes * x.1.row + x.1.i0 * h.bits
    decide (b ≤ bit) && decide (bit < b + h.bits))
  { h' with bad := h'.bad.filter (fun n => !(List.range 512).all (fun j => covered (512 * n + j))) }

/-! ### Status and notices (R278, R279) -/

def statusWord (st code count : Nat) : Word := BitVec.ofNat 64 (2 ^ 60 * st + 2 ^ 48 * code + count)

/-- A notice of a clipped copy. -/
def clipNotice (tag : Fin 16) (h : Word) (part : List Nat) (base desc d major : Nat) : Msg :=
  { kind := 1, tag := tag, src := 0xFFFF
    data := leBytes 8 h.toNat ++ part.flatMap (leBytes 4) ++ leBytes 4 base ++ leBytes 2 (desc / 16)
      ++ leBytes 1 d ++ leBytes 1 major }

/-- Bytes 8 to 23 of a notice: the extents inside, or the number of outside rows. -/
def Shape.clipPart (sh : Shape) (h : Handle) : List Nat :=
  match sh with
  | .box o e _ _ => (List.range 4).map (fun d =>
      min (e.toList.getD d 0) (h.e.toList.getD d 0 - o.toList.getD d 0))
  | .rows _ idx => [(idx.filter (fun r => decide (h.rows ≤ r))).length, 0, 0, 0]

def LocalSide.word : LocalSide → Nat
  | .at' b => b
  | .cis c => c.val

/-- The notice of operation `o` on handle data `h`. -/
def CopyOp.notice (o : CopyOp) (h : Handle) (sh : Shape) : Msg :=
  clipNotice (if o.queue = 2 then 2 else 1) o.h (sh.clipPart h) o.side.word o.desc o.dfield o.major

/-- A notice joins the receive queue of core `c` when it must be sent; `none` when there is no room (R211). -/
def State.notify (s : State) (c : Nat) (clipped : Bool) (m : Msg) : Option State :=
  if clipped then s.hand c m else some s

/-! ### The queues -/

/-- The operations of EQ1 or EQ2. -/
def Core.copies (k : Core) (q : Fin 4) : List CopyOp := if q = 2 then k.eq2 else if q = 1 then k.eq1 else []

def Core.head (k : Core) (q : Fin 4) : Option CopyOp := (k.copies q).head?

/-- Operation `o` changes in place. -/
def Core.modCopy (k : Core) (id : Nat) (f : CopyOp → CopyOp) : Core :=
  let g (o : CopyOp) : CopyOp := if o.id = id then f o else o
  { k with eq1 := k.eq1.map g, eq2 := k.eq2.map g }

def Core.dropCopy (k : Core) (id : Nat) : Core :=
  { k with eq1 := k.eq1.filter (fun o => o.id != id), eq2 := k.eq2.filter (fun o => o.id != id) }

/-- The order of a handle that operation `id` of core `c` holds is free again. -/
def State.letGo (s : State) (c id : Nat) : State :=
  { s with handles := s.handles.map (fun h => if h.holder = some (c, id) then { h with holder := none } else h) }

/-- The reply is one whose reading acts as an acquire at a scope (R278, R297). -/
def State.replyAcquire (s : State) (c : Nat) (h : Fin 11) (id : Nat) (d : Fin 32) (scope : Scope) (x : Word) : State :=
  let now := s.nextId
  (s.reply c h id d scope x).modStrandAt c h (fun t => if d = 0 then t else t.void scope now)

/-- A window that `hunbind` or `hunbind.wb` names is released at the end of the operation, whatever its status (R282). -/
def Core.unbound (k : Core) (o : CopyOp) : Core :=
  match o.kind with
  | .unbind i _ => { k with wins := k.wins.set i none }
  | _ => k

/-- Operation `o` of core `c` is complete with a status. -/
def State.endCopy (s : State) (c : Nat) (o : CopyOp) (x : Word) : State :=
  let s := (s.modCore c (fun k => (k.dropCopy o.id).unbound o)).letGo c o.id
  match o.dst with
  | none => s
  | some d => s.replyAcquire c o.strand o.id d .mod x

/-- An operation is discarded with no effect: its status is never written (R164).
(DEDUCED, log 42) -/
def Core.discard (k : Core) (o : CopyOp) : Core :=
  let k := k.dropCopy o.id
  { k with strands := k.strands.set o.strand (k.strands[o.strand].release o.id) }

/-- Queue `q` enters the error state: the operations not started are discarded and counted (R152, R164). -/
def State.failQueue (s : State) (c : Nat) (q : Fin 4) (off : Nat) : State :=
  s.modCore c (fun k =>
    let gone := (k.copies q).filter (fun o => !o.started)
    let n := gone.length
    let e : QErr := match k.err[q] with
      | some e => { e with discarded := e.discarded + n }
      | none => { cause := 0x38, off := off, discarded := n }
    let k' := gone.foldl Core.discard k
    { k' with err := k'.err.set q (some e) })

/-- Operation `o` stops on a poisoned word at `off`, `n` elements done. -/
def State.stopCopy (s : State) (c : Nat) (o : CopyOp) (off n : Nat) : State :=
  (s.endCopy c o (statusWord 4 0x38 n)).failQueue c o.queue off

/-! ### Copy engines and the order of a handle (R277, R304) -/

/-- Copy engines at work on a die. -/
def State.busyEngines (s : State) (d : Nat) : Nat :=
  ((s.cores.filter (fun x => dieOf x.1 == d)).map (fun x =>
    ((x.2.eq1 ++ x.2.eq2).filter CopyOp.started).length)).sum

/-- Operation `o`, as `o'` with its shape known, takes a free engine and its place in the handle's order. -/
def State.takePlace (s : State) (c : Nat) (o : CopyOp) : Option State :=
  if 24 ≤ s.busyEngines (dieOf c) || (s.handle? (s.rootOf o.h)).any (fun h => h.holder.isSome) then none
  else some (((s.modCore c (fun k => k.modCopy o.id (fun _ => { o with started := true }))).holdFor c o).askRows o.h)

/-! ### Fills (R283, R284) -/

/-- What becomes of a fill: done, waiting, or refused. -/
inductive FillRes
  | done (s : State)
  | wait
  | fail (prot : Bool) (va : Word) (s : State)

/-- The elements of a window and their local positions. -/
def Window.elems (w : Window) (h : Handle) : List BoxEl := w.shape.elems h false

/-- The notice of a clipped fill. (DEDUCED, log 43) -/
def Window.notice (w : Window) (h : Handle) : Msg :=
  clipNotice 1 w.h (w.shape.clipPart h) w.base w.desc w.d 0xD5

/-- Elements of handle `h` move into local store from `base` on. -/
def State.moveIn (s : State) (c : Nat) (h : Handle) (base : Nat) (es : List BoxEl) : State :=
  (s.modCore c (fun k => k.putElems base h.bits (es.map (fun e => (e.pos, h.get e.i0 e.row))))).mend h es

/-- The page of the first poisoned sector that a read of elements meets. -/
def State.badPage (s : State) (h : Handle) (es : List BoxEl) : Word :=
  s.pageOf h (((es.flatMap h.sectors).find? h.bad.contains).getD 0)

/-- Window `i` of core `c` is filled. -/
def State.fillNow (s : State) (c : Nat) (i : Fin 8) (w : Window) : FillRes :=
  match if s.sourceLost w.h then none else s.dataOf w.h with
  | none => .fail false (Config.freedPage s.draws) s.draw
  | some h =>
    let es := w.elems h
    let r := h.readable (es.filter BoxEl.inside)
    let s' := s.moveIn c h w.base r.1
    if r.2 then .fail true (s.badPage h (es.filter BoxEl.inside)) s'.draw
    else match s'.notify c (es.any (fun e => !e.inside)) (w.notice h) with
      | none => .wait
      | some s' => .done (s'.modCore c (fun k =>
          { k with wins := k.wins.set i (some { w with present := true, filled := true }) }))

/-- What a copy's access to local store meets. -/
inductive Touched
  | clear (s : State)
  | wait (s : State)
  | fail (prot : Bool) (s : State)

/-- An access of EQ1 or EQ2 to local store: a copy of EQ1 runs the fills that it touches as its first part, one of EQ2
waits for them. -/
def State.copyTouch (s : State) (c : Nat) (o : CopyOp) (ls : List Loc) : Nat → Touched
  | 0 => .wait s
  | f + 1 =>
    match (s.core c).touched ls with
    | none => .clear s
    | some i =>
      if o.queue = 2 then match o.failed with
        | some p => .fail p s
        | none => .wait ((s.enterFill c o.strand i (o.waits != some i.val)).modCore c (fun k =>
            k.modCopy o.id (fun o => { o with waits := some i.val })))
      else match (s.core c).wins[i] with
        | none => .clear s
        | some w =>
          if (s.handle? (s.rootOf w.h)).any (fun h => h.holder.any (fun x => x != (c, o.id))) then .wait s
          else match s.fillNow c i w with
            | .done s => s.copyTouch c o ls f
            | .wait => .wait s
            | .fail p _ s => .fail p s

/-- The code of a fault that cannot be served. -/
def faultCode (prot : Bool) : Nat := if prot then 0x14 else 0x13

/-- A strand that waits for the fill of window `i` of core `c` learns that it cannot be served. -/
def Strand.failTouch (t : Strand) (c : Nat) (i : Fin 8) (prot : Bool) (va : Word) : Strand :=
  if t.wait = .touch c i.val none then { t with wait := .touch c i.val (some (prot, va)) } else t

/-- A fill of window `i` of core `c` cannot be served: its waiters are told, those on other cores of the gang too (R202,
R284). (DEDUCED, log 43) -/
def State.failFill (s : State) (c : Nat) (i : Fin 8) (prot : Bool) (va : Word) : State :=
  let s := (coresOf (cluOf c)).foldl (fun s m =>
    if (s.core m).strands.toList.any (fun t => t.wait == .touch c i.val none) then
      s.modCore m (fun k => { k with strands := k.strands.map (fun t => t.failTouch c i prot va) })
    else s) s
  let s := s.modCore c (fun k =>
    { k with eq2 := k.eq2.map (fun o => if o.waits = some i.val then { o with failed := some prot } else o) })
  s.fillStops c i

end Sys2Proof.Machine
end

