-- ==== Sys2Proof/Machine/CopyOps.lean ====
section
/-! DEFINITION. `hcopy`, `hgath`, `hscat`, `hbind`, `hunbind` (R274 to R277, R282) and the events COPY_START,
COPY_COMPLETE, COPY_FAULT, WINDOW_FILL, WINDOW_FILL_COMPLETE and PAGE_ANSWER (R280, R281, R283, R284, R326). -/

namespace Sys2Proof.Machine

/-! ### Issue (R276) -/

/-- The checks of a copy at issue: operations `ops`, a mode of the declared set (1 R, 2 W). -/
def State.copyChecks (s : State) (v : Word) (ops : List Nat) (need : Nat) : Res Unit := do
  let h ← s.nameHandle s.me.priv s.myCore.ctx v
  needOps h ops
  needMode h s.myCore.e4m3
  trapIf (!s.me.priv && (s.entriesOn s.myCore.task v need).isEmpty) (modelTrap v 0)

/-- Operation `o` enters its queue; in the error state it is discarded and counted (R160, R164). -/
def State.enterCopy (s : State) (o : CopyOp) : Res State :=
  let k := s.myCore
  match k.err[o.queue] with
  | some e => .ok (s.modMyCore (fun k =>
      { k with err := k.err.set o.queue (some { e with discarded := e.discarded + 1 }) }))
  | none =>
    if 16 ≤ (k.copies o.queue).length then stall s
    else
      let o := { o with id := s.nextId, after := s.nextId, strand := s.cur.2, priv := s.me.priv }
      let s := s.fresh.modMyCore (fun k =>
        if o.queue = 2 then { k with eq2 := k.eq2 ++ [o] } else { k with eq1 := k.eq1 ++ [o] })
      .ok (match o.dst with
        | none => s
        | some d => s.await o.id d)

/-- The local side of a copy (R274). -/
def localSide (t : Strand) : LSide → LocalSide
  | .ls n => .at' (t.rg n).toNat
  | .c n => .cis n

/-- Major of a copy kind. -/
def CopyKind.major : CopyKind → Nat
  | .ld _ | .st => 0xD7
  | .gath => 0xD8
  | .scat _ => 0xD9
  | .bind _ | .fill _ => 0xD5
  | .unbind _ _ => 0xD6

/-- Operations of R294 and the mode of the declared set that a copy kind needs. -/
def CopyKind.needs : CopyKind → List Nat × Nat
  | .ld t => (if t then [0, 3] else [0], 1)
  | .st => ([1], 2)
  | .gath => ([4], 1)
  | .scat add => ([if add then 6 else 5], 2)
  | .bind _ | .fill _ => ([0], 1)
  | .unbind _ _ => ([1], 2)

def copyBody (kind : CopyKind) (d a : Fin 32) (b : LSide) (c : Fin 32) (s : State) : Res State := do
  let off := s.me.rg c
  trapIf (off.toNat % 16 != 0) (Trap.misaligned off)
  let v := s.me.rg a
  s.copyChecks v kind.needs.1 kind.needs.2
  s.enterCopy { id := 0, strand := 0, kind := kind, h := v, dst := some d, side := localSide s.me b
                desc := off.toNat % 2 ^ 20, dfield := d.val, major := kind.major }

/-- `hcopy.ld` (R274). -/
def execHcopyLd (x : Copy) (t : Bool) (s : State) := runW x.gd 8 s (copyBody (.ld t) x.d x.a x.b x.c)
/-- `hcopy.st`. -/
def execHcopySt (x : Copy) (s : State) := runW x.gd 8 s (copyBody .st x.d x.a x.b x.c)
/-- `hgath`. -/
def execHgath (x : Copy) (s : State) := runW x.gd 8 s (copyBody .gath x.d x.a x.b x.c)
/-- `hscat`. -/
def execHscat (x : Copy) (s : State) := runW x.gd 8 s (copyBody (.scat false) x.d x.a x.b x.c)
/-- `hscat.add`. -/
def execHscatAdd (x : Copy) (s : State) := runW x.gd 8 s (copyBody (.scat true) x.d x.a x.b x.c)

/-- `hbind` (R282). -/
def execHbind (gd : Guard) (d : Fin 32) (win : Fin 8) (a b c : Fin 32) (s : State) :=
  runW gd 8 s (copyBody (.bind win) d a (.ls b) c)

/-- `hunbind`. -/
def execHunbind (gd : Guard) (win : Fin 8) (s : State) :=
  runW gd 8 s (fun s => s.enterCopy { id := 0, strand := 0, kind := .unbind win false })

/-- The handle that window `i` will have when an operation entering EQ1 now comes to its turn.
(DEDUCED, log 43) -/
def Core.windowHandle (k : Core) (i : Fin 8) : Option Word :=
  k.eq1.foldl (fun x o => match o.kind with
    | .bind j => if j = i then some o.h else x
    | .unbind j _ => if j = i then none else x
    | _ => x) (k.wins[i].map Window.h)

def unbindWbBody (d : Fin 32) (win : Fin 8) (s : State) : Res State := do
  (s.myCore.windowHandle win).forM (fun v => s.copyChecks v [1] 2)
  s.enterCopy { id := 0, strand := 0, kind := .unbind win true, dst := some d, dfield := d.val, major := 0xD6 }

/-- `hunbind.wb`. -/
def execHunbindWb (gd : Guard) (d : Fin 32) (win : Fin 8) (s : State) := runW gd 8 s (unbindWbBody d win)

/-! ### Acceptance and start (R277): COPY_START -/

/-- The shape that an operation's descriptor or list gives. -/
inductive ShapeRes
  | ok (sh : Shape) (s : State)
  | refused (s : State)
  | touch (t : Touched)
  | bad (off : Nat)

/-- `n` bytes at a local offset as a copy reads them at acceptance. -/
def State.copyRead (s : State) (c : Nat) (o : CopyOp) (off n : Nat) : Except ShapeRes (List Byte × State) :=
  let ls := (s.core c).lsRange off n
  match s.copyTouch c o ls 9 with
  | .clear s => match (s.core c).poisonedAt ls with
    | some a => .error (.bad a)
    | none =>
      let r := (s.core c).readBytes ls
      .ok (r.1, s.setCore c r.2.1)
  | t => .error (.touch t)

/-- The descriptor of a box, or the list of rows, of operation `o` on handle `h` (R271, R273, R275). -/
def State.readShape (s : State) (c : Nat) (o : CopyOp) (h : Handle) : ShapeRes :=
  if o.queue != 2 then
    match s.copyRead c o o.desc 64 with
    | .error e => e
    | .ok (bs, s) => match boxOf h bs with
      | some sh => .ok sh s
      | none => .refused s
  else
    match s.copyRead c o o.desc 16 with
    | .error e => e
    | .ok (hd, s) =>
      let n := n32At hd 0
      if n = 0 || 65536 < n || !(hd.drop 8).all (fun b => b == 0) then .refused s
      else match s.copyRead c o (o.desc + 16) (4 * n) with
        | .error e => e
        | .ok (bs, s) => .ok (.rows (n32At hd 4) ((List.range n).map (fun i => n32At bs (4 * i)))) s

/-- Every row inside the handle that the elements touch lies in a live entry of the task (R277, R309). -/
def State.rowsAllowed (s : State) (c : Nat) (o : CopyOp) (es : List BoxEl) : Bool :=
  o.priv || (es.filter BoxEl.inside).all (fun e =>
    (s.entriesOn (s.core c).task o.h o.kind.needs.2).any (fun x => x.holds e.row))

/-- The transposed local layout (R274). -/
def CopyKind.transposed : CopyKind → Bool
  | .ld t => t
  | _ => false

/-- First and last local byte of a box's positions. -/
def spanOfBox (base b : Nat) (es : List BoxEl) : Option (Nat × Nat) :=
  let ps := es.map BoxEl.pos
  match ps with
  | [] => none
  | p :: rest =>
    some (base + b * rest.foldl min p / 8, base + (b * rest.foldl max p + b - 1) / 8)

/-- Window `i` is bound by operation `o`: absent over its span. -/
def State.bindWindow (s : State) (c : Nat) (o : CopyOp) (i : Fin 8) (h : Handle) (sh : Shape) : State :=
  let sp := spanOfBox o.side.word h.bits (sh.elems h false)
  let w : Window := { h := o.h, base := o.side.word, shape := sh, present := sp.isNone
                      lo := (sp.map Prod.fst).getD 0, hi := (sp.map Prod.snd).getD 0, desc := o.desc, d := o.dfield }
  s.modCore c (fun k => { k with wins := k.wins.set i (some w) })

/-- The accepted operation with its shape goes on: refused rows, a freed handle, or its start. -/
def State.goOn (s : State) (c : Nat) (o : CopyOp) (h : Handle) (sh : Shape) : Option State :=
  if !s.rowsAllowed c o (sh.elems h o.kind.transposed) then some (s.endCopy c o (statusWord 2 0x32 0))
  else match o.kind with
    | .bind i => some ((s.bindWindow c o i h sh).endCopy c o 0)
    | _ => if s.sourceLost o.h then some (s.endCopy c o (statusWord 3 0x13 0))
      else if (s.dataOf o.h).isNone then some (s.endCopy c o (statusWord 2 0 0))
      else s.takePlace c { o with shape := some sh }

/-- Acceptance of a copy or a binding. -/
def State.acceptCopy (s : State) (c : Nat) (o : CopyOp) : Option State :=
  match s.handle? (s.rootOf o.h) with
  | none => some (s.endCopy c o (statusWord 2 0 0))
  | some h =>
    match s.readShape c o h with
    | .bad off => some (s.stopCopy c o off 0)
    | .touch (.fail p s) => some (s.endCopy c o (statusWord 3 (faultCode p) 0))
    | .touch (.wait s) => some s
    | .touch (.clear _) => none
    | .refused s => some (s.endCopy c o (statusWord 2 0 0))
    | .ok sh s =>
      if o.kind == .scat true && !addType h then some (s.endCopy c o (statusWord 2 0 0))
      else s.goOn c o h sh

/-- The turn of `hunbind` and `hunbind.wb`. -/
def State.acceptUnbind (s : State) (c : Nat) (o : CopyOp) (i : Fin 8) (wb : Bool) : Option State :=
  match (s.core c).wins[i] with
  | none => some (s.endCopy c o 0)
  | some w =>
    if !wb || !w.filled then some (s.endCopy c o 0)
    else
      let o := { o with h := w.h, side := .at' w.base, desc := w.desc }
      match s.handle? (s.rootOf w.h) with
      | none => some (s.endCopy c o (statusWord 2 0 0))
      | some h =>
        if !s.rowsAllowed c o (w.elems h) then some (s.endCopy c o (statusWord 2 0x32 0))
        else if (s.dataOf w.h).isNone then some (s.endCopy c o (statusWord 2 0 0))
        else s.takePlace c { o with shape := some w.shape }

/-- COPY_START: the head of the queue is accepted, once the earlier stores of its strand have drained, and started. -/
def State.startCopy (s : State) (c : Nat) (q : Fin 4) : Option State :=
  match (s.core c).head q with
  | none => none
  | some o =>
    if o.started || o.stall.isSome || ((s.core c).strands[o.strand].buf.any (fun e => e.counts && decide (e.id < o.after))) then none
    else match o.kind with
      | .fill _ => none
      | .unbind i wb => s.acceptUnbind c o i wb
      | _ => s.acceptCopy c o

def execCopyStart (core : Nat) (q : Fin 4) (s : State) := runE s (s.startCopy core q)

/-! ### The moves and the end (R277, R278): COPY_COMPLETE -/

/-- The operation is complete: a notice when it was clipped, and the status. (DEDUCED, log 43) -/
def State.finish (s : State) (c : Nat) (o : CopyOp) (h : Handle) (es : List BoxEl) : Option State :=
  let clipped := es.any (fun e => !e.inside)
  (s.notify c clipped (o.notice h (o.shape.getD (.rows 0 [])))).map (fun s =>
    s.endCopy c o (statusWord (b2n clipped) 0 (es.filter BoxEl.inside).length))

/-- A copy into local store with its local side at `base`. -/
def State.moveLd (s : State) (c : Nat) (o : CopyOp) (h : Handle) (base : Nat) (es : List BoxEl) : Option State :=
  let r := h.readable (es.filter BoxEl.inside)
  let s' := s.moveIn c h base r.1
  if r.2 then some (s'.endCopy c o (statusWord 3 0x14 r.1.length)) else s'.finish c o h es

/-- Elements with values written to the data of the handle; those for another module leave as requests, 64 bytes at a time
(R343, R351). -/
def State.putHandle (s : State) (h : Handle) (add : Bool) (xs : List (BoxEl × Nat)) : State :=
  match h.outside, h.imported with
  | some _, some m =>
    (chunks (max 1 (512 / max 1 h.bits)) xs.length xs).foldl (fun s ys =>
      s.txTo m 0 (8 * h.rowBytes * (ys.head?.map (fun y => y.1.row)).getD 0)
        (.rows m h.source (ys.map (fun y => (y.1.i0, y.1.row, y.2))))) s
  | _, _ => s.modHandle h.v (fun h => h.putAll add xs)

/-- The form adds (R274). -/
def CopyKind.adds : CopyKind → Bool
  | .scat a => a
  | _ => false

/-- The inside elements with their values go to the handle; an add stops before a poisoned sector. -/
def State.moveSt (s : State) (c : Nat) (o : CopyOp) (h : Handle) (xs : List (BoxEl × Nat)) (es : List BoxEl) :
    Option State :=
  let r := if o.kind.adds then h.readable (xs.map Prod.fst) else (xs.map Prod.fst, false)
  let s' := (if o.kind.adds then s.mend h r.1 else s).putHandle h o.kind.adds (xs.take r.1.length)
  if r.2 then some (s'.endCopy c o (statusWord 3 0x14 r.1.length)) else s'.finish c o h es

/-- Elements of a copy that have been read before now (R280). -/
def CopyOp.had (o : CopyOp) : List Nat := o.src.getD []

/-- A copy out of local store with its local side at `base`: what it has not read yet is read now. -/
def State.moveOut (s : State) (c : Nat) (o : CopyOp) (h : Handle) (base : Nat) (es : List BoxEl) : Option State :=
  let ins := es.filter BoxEl.inside
  let r := (s.core c).readEls base h.bits (ins.drop o.had.length)
  let xs := ins.zip (o.had ++ r.1)
  let s := s.setCore c r.2.1
  match r.2.2 with
  | none => s.moveSt c o h xs es
  | some off => some ((s.putHandle h o.kind.adds xs).stopCopy c o off xs.length)

/-- Bit `n` of the dense stream of a copy into a cistern: of an element or padding; `none` where an outside element keeps
what stands there (R272, R277). -/
def streamBit (h : Handle) (es : List BoxEl) (n : Nat) : Option Bool :=
  match es[n / h.bits]? with
  | none => some false
  | some e => if e.inside then some (bitAt (h.get e.i0 e.row) (n % h.bits)) else none

/-- Byte `i` of slot `j` of the stream: its bits, and which of them are written. -/
def streamByte (h : Handle) (es : List BoxEl) (slot j i : Nat) : Byte × Byte :=
  let bit (r : Nat) : Option Bool := streamBit h es (8 * (j * slot + i) + r)
  (BitVec.ofNat 8 ((List.range 8).foldl (fun a r => a + 2 ^ r * b2n ((bit r).getD false)) 0),
   BitVec.ofNat 8 ((List.range 8).foldl (fun a r => a + 2 ^ r * b2n (bit r).isSome) 0))

/-- The parts of slot `j` of the stream at the places `ls`. -/
def slotParts (h : Handle) (es : List BoxEl) (slot j : Nat) (ls : List Loc) : List (Loc × Byte × Byte) :=
  (ls.zipIdx.map (fun x => (x.1, streamByte h es slot j x.2))).filter (fun x => x.2.2 != 0)

/-- Slots that `n` elements of `b` bits fill. -/
def slotsFor (slot b n : Nat) : Nat := ceilDiv (n * b) (8 * slot)

/-- The elements that a copy into a cistern takes: up to the first that cannot be read. -/
def takenEls (h : Handle) : List BoxEl → List BoxEl × Bool
  | [] => ([], false)
  | e :: es => if e.inside && h.badAt e then ([], true) else let r := takenEls h es; (e :: r.1, r.2)

/-- The elements inside of the slots that a copy into a cistern has written. -/
def CopyOp.produced (o : CopyOp) (slot bits : Nat) (es : List BoxEl) : Nat :=
  ((es.take (8 * o.slots * slot / max 1 bits)).filter BoxEl.inside).length

/-- The next slot of a copy into cistern `i`, or its end. (DEDUCED, log 42) -/
def State.moveProd (s : State) (c : Nat) (o : CopyOp) (h : Handle) (i : Fin 16) (es : List BoxEl) : Option State :=
  let k := s.core c
  let x := k.cist[i]
  let r := takenEls h es
  if x.slot ≠ 0 ∧ slotsFor x.slot h.bits r.1.length ≤ o.slots then
    if r.2 then some (s.endCopy c o (statusWord 3 0x14 (r.1.filter BoxEl.inside).length)) else s.finish c o h es
  else if es.isEmpty then s.finish c o h es
  else if !x.defined || x.free = 0 then none
  else
    let ls := k.lsRange (x.slotAt x.pp 0) x.slot
    match s.copyTouch c o ls 9 with
    | .fail p s => some (s.endCopy c o (statusWord 3 (faultCode p) (o.produced x.slot h.bits es)))
    | .wait s => some s
    | .clear s =>
      let held : Held := { id := s.nextId, prod := true, k := 1, cond := [], of := some (o.queue, o.id) }
      let s := s.mend h (r.1.filter BoxEl.inside)
      some (s.fresh.modCore c (fun k =>
        let k := (k.writeParts (slotParts h r.1 x.slot o.slots ls)).modCopy o.id (fun o => { o with slots := o.slots + 1 })
        { k with cist := k.cist.set i (k.cist[i].takeProd 1 held) }))

/-- The values of the elements that lie whole in the bytes taken from a cistern. -/
def takenValues (b : Nat) (bs : List Byte) (es : List BoxEl) : List (BoxEl × Nat) :=
  (es.zipIdx.filter (fun x => x.1.inside && decide ((x.2 + 1) * b ≤ 8 * bs.length))).map (fun x =>
    (x.1, bitsOf (fun a => bs.getD a 0) (b * x.2) b))

/-- Every slot that a copy out of a cistern needs has been taken. -/
def CopyOp.drained (o : CopyOp) (slot bits : Nat) (es : List BoxEl) : Bool :=
  es.isEmpty || (slot != 0 && decide (slotsFor slot bits es.length ≤ o.slots))

/-- A copy out of cistern `i` takes its next slot. One that a write fault holds does not stop on a poisoned byte: it goes
on to it after the answer. (DEDUCED, log 42) -/
def State.takeSlot (s : State) (c : Nat) (o : CopyOp) (h : Handle) (i : Fin 16) (es : List BoxEl) : Option State :=
  let k := s.core c
  let x := k.cist[i]
  let xs := takenValues h.bits o.taken es
  if !x.defined || x.filled = 0 then none
  else
    let ls := k.lsRange (x.slotAt x.cp 0) x.slot
    match s.copyTouch c o ls 9 with
    | .fail p s =>
      if o.stall.isSome then none
      else some ((s.putHandle h o.kind.adds xs).endCopy c o (statusWord 3 (faultCode p) xs.length))
    | .wait s => some s
    | .clear s => match (s.core c).poisonedAt ls with
      | some off =>
        if o.stall.isSome then none else some ((s.putHandle h o.kind.adds xs).stopCopy c o off xs.length)
      | none =>
        let r := (s.core c).readBytes ls
        let held : Held := { id := s.nextId, prod := false, k := 1, cond := [], of := some (o.queue, o.id) }
        some ((s.fresh.setCore c r.2.1).modCore c (fun k =>
          let o' := { o with slots := o.slots + 1, taken := o.taken ++ r.1 }
          let k := k.modCopy o.id (fun _ => { o' with whole := o'.drained x.slot h.bits es })
          { k with cist := k.cist.set i (k.cist[i].takeCons 1 held) }))

/-- The next slot of a copy out of cistern `i`, or its end. -/
def State.moveCons (s : State) (c : Nat) (o : CopyOp) (h : Handle) (i : Fin 16) (es : List BoxEl) : Option State :=
  if o.drained (s.core c).cist[i].slot h.bits es then s.moveSt c o h (takenValues h.bits o.taken es) es
  else s.takeSlot c o h i es

/-- The copy reads the handle. -/
def CopyKind.loads : CopyKind → Bool
  | .ld _ | .gath | .fill _ => true
  | _ => false

/-- Local bytes of the elements inside. -/
def Core.localLocs (k : Core) (base b : Nat) (es : List BoxEl) : List Loc :=
  (es.filter BoxEl.inside).flatMap (fun e => k.elemLocs base b e.pos)

/-- The next moves of a started copy: all of them, or those of one slot of a cistern.
(DEDUCED, log 42) -/
def State.copyMoves (s : State) (c : Nat) (o : CopyOp) (h : Handle) (es : List BoxEl) : Option State :=
  match o.side with
  | .cis i => if o.kind.loads then s.moveProd c o h i es else s.moveCons c o h i es
  | .at' base =>
    match s.copyTouch c o ((s.core c).localLocs base h.bits es) 9 with
    | .wait s => some s
    | .fail p s => some (s.endCopy c o (statusWord 3 (faultCode p) 0))
    | .clear s => if o.kind.loads then s.moveLd c o h base es else s.moveOut c o h base es

/-- Elements that the spill buffer of 64 KiB takes (R280). -/
def spillRoom (h : Handle) : Nat := 8 * 65536 / max 1 h.bits

/-- A copy that a write fault holds, `after` elements done, goes on reading into the spill buffer while that has room
(R280). (DEDUCED, log 43) -/
def State.readOn (s : State) (c : Nat) (o : CopyOp) (h : Handle) (es : List BoxEl) (after : Nat) : Option State :=
  match o.side with
  | .cis i =>
    if o.drained (s.core c).cist[i].slot h.bits es || after + spillRoom h ≤ (takenValues h.bits o.taken es).length then none
    else s.takeSlot c o h i es
  | .at' base =>
    let ins := es.filter BoxEl.inside
    let next := (ins.take (after + spillRoom h)).drop o.had.length
    match s.copyTouch c o ((s.core c).localLocs base h.bits next) 9 with
    | .wait s => some s
    | .fail _ _ => none
    | .clear s =>
      let r := (s.core c).readEls base h.bits next
      let vs := o.had ++ r.1
      if r.1.isEmpty then none
      else some ((s.setCore c r.2.1).modCore c (fun k =>
        k.modCopy o.id (fun o => { o with src := some vs, whole := decide (ins.length ≤ vs.length) })))

/-- The task and the place that hold detached operation `id`. -/
def State.findDetached (s : State) (id : Nat) : Option (Nat × Nat × CopyOp) :=
  s.tasks.findSome? (fun t => (t.detached.find? (fun x => x.2.id == id)).map (fun x => (t.id, x.1, x.2)))

/-- The status of copy `o` reaches its register. -/
def Core.takeStatus (k : Core) (o : CopyOp) (now : Nat) (x : Word) : Core :=
  match o.dst with
  | none => k
  | some d =>
    let t := (k.strands[o.strand].takeReply o.id d .mod now x).void .mod now
    { k with strands := k.strands.set o.strand t }

/-- What the end of a detached copy leaves in the saved image of its core: the status, and a window that `hunbind.wb`
releases (R281, R282). -/
def Core.endSaved (k : Core) (o : CopyOp) (now : Nat) (x : Word) : Core :=
  (k.takeStatus o now x).unbound o

/-- A detached copy ends: its status goes into the saved image. (DEDUCED, log 43) -/
def State.endDetached (s : State) (task place : Nat) (o : CopyOp) (x : Word) : State :=
  let now := s.nextId
  ((s.letGo noCore o.id).modTask task (fun t =>
    { t with
      detached := t.detached.filter (fun y => y.2.id != o.id)
      saved := t.saved.mapIdx (fun i k => if i = place then k.endSaved o now x else k) })).fresh

/-- The elements inside with their values, of a copy whose whole source has been read. -/
def CopyOp.values (o : CopyOp) (h : Handle) (es : List BoxEl) : List (BoxEl × Nat) :=
  match o.side with
  | .at' _ => (es.filter BoxEl.inside).zip o.had
  | .cis _ => takenValues h.bits o.taken es

/-- Detached operation `id` makes its writes and ends, once no fault holds it (R281). -/
def State.finishDetached (s : State) (id : Nat) : Option State :=
  match s.findDetached id with
  | none => none
  | some (task, place, o) => match s.dataOf o.h, o.shape, o.stall with
    | some h, some sh, none =>
      let es := sh.elems h false
      let xs := o.values h es
      let clipped := es.any (fun e => !e.inside)
      (if clipped then s.handSaved task place (o.notice h sh) else some s).map (fun s =>
        (s.putHandle h o.kind.adds xs).endDetached task place o (statusWord (b2n clipped) 0 xs.length))
    | none, _, none => some (s.endDetached task place o (statusWord 3 0x13 o.moved))
    | _, _, _ => none

/-- Elements that a copy that ends between its slots has moved: those of a copy into a cistern. -/
def State.slotsMoved (s : State) (c : Nat) (o : CopyOp) (h : Handle) (es : List BoxEl) : Nat :=
  match o.side with
  | .cis i => if o.kind.loads then o.produced (s.core c).cist[i].slot h.bits es else 0
  | .at' _ => 0

/-- COPY_COMPLETE: a started copy makes its next moves, and ends with the last; one that a write fault holds only reads.
Detached operation `id` stands under core number `noCore + id`. (DEDUCED, log 42) -/
def State.completeCopy (s : State) (c : Nat) (q : Fin 4) : Option State :=
  match (s.core c).head q with
  | none => if noCore ≤ c then s.finishDetached (c - noCore) else none
  | some o =>
    match o.kind, o.shape, s.handle? (s.rootOf o.h) with
    | .fill _, _, _ => none
    | _, some sh, some h =>
      let es := sh.elems h o.kind.transposed
      if !o.started then none
      else if s.sourceLost o.h then some (s.endCopy c o (statusWord 3 0x13 (s.slotsMoved c o h es)))
      else match o.stall with
        | none => s.copyMoves c o h es
        | some st => if st.write then s.readOn c o h es st.after else none
    | _, _, _ => none

def execCopyComplete (core : Nat) (q : Fin 4) (s : State) := runE s (s.completeCopy core q)

/-! ### Faults on the handle side (R280, R281, R326): COPY_FAULT -/

/-- The oldest request that has no entry is posted while the ring has room. -/
def State.postOne (s : State) : State :=
  match s.preqs.find? (fun r => !r.posted) with
  | none => s
  | some r =>
    if s.preqHead + 1 = s.preqTail then s
    else
      let a := s.preqBase.toNat + 16 * s.preqHead.toNat
      let w := 2 ^ 32 * r.id.toNat + 2 ^ 8 * b2n r.write + r.ctx % 64
      { s with
        mem := memSetAll s.mem (placeAt a (leBytes 8 r.va.toNat ++ leBytes 8 w))
        preqHead := s.preqHead + 1
        preqs := s.preqs.map (fun x => if x.op = r.op then { x with posted := true } else x) }

def State.postAll (s : State) : Nat → State
  | 0 => s
  | n + 1 => s.postOne.postAll n

/-- A copy has moved `after` elements when it meets a fault: no fewer than at an earlier fault, of a cistern those of the
slots that it has taken; what a write has moved it has read. The operation and its core then. -/
def State.faultAt (s : State) (c : Nat) (o : CopyOp) (h : Handle) (es : List BoxEl) (after : Nat) : Option (CopyOp × Core) :=
  let k := s.core c
  let ins := es.filter BoxEl.inside
  let o' := { o with moved := after }
  if after < o.moved || ins.length < after then none
  else match o.side, o.kind.loads with
    | .at' _, true => some (o', k)
    | .cis i, true => if o.produced k.cist[i].slot h.bits es = after then some (o', k) else none
    | .cis _, false => if after ≤ (takenValues h.bits o.taken es).length then some (o', k) else none
    | .at' base, false =>
      let next := (ins.take after).drop o.had.length
      let r := k.readEls base h.bits next
      if (k.touched (k.localLocs base h.bits next)).isSome || r.2.2.isSome then none
      else
        let vs := o.had ++ r.1
        some ({ o' with src := some vs, whole := decide (ins.length ≤ vs.length) }, r.2.1)

/-- The elements of a started operation, a fill's among them. -/
def State.opEls (s : State) (c : Nat) (o : CopyOp) (h : Handle) : Option (List BoxEl) :=
  match o.kind with
  | .fill i => (s.core c).wins[i].map (fun w => w.elems h)
  | k => o.shape.map (fun sh => sh.elems h k.transposed)

/-- The request for a page that operation `id` of a context waits for joins those outstanding, and is posted while the
ring has room (R326). -/
def State.askPage (s : State) (id ctx : Nat) (va : Word) (write : Bool) : State :=
  let r : PageReq := { id := Config.requestId s.draws, op := id, ctx := ctx, va := va, write := write, posted := false }
  ({ s.draw with preqs := s.preqs ++ [r] } : State).postOne

/-- The local bytes that the head of a queue accesses next: its descriptor or list, or its elements or slot. -/
def State.nextLocs (s : State) (c : Nat) (o : CopyOp) : List Loc :=
  let k := s.core c
  match o.started, o.shape, s.handle? (s.rootOf o.h), o.side with
  | true, some sh, some h, .at' base => k.localLocs base h.bits (sh.elems h o.kind.transposed)
  | true, _, _, .cis i => k.lsRange (k.cist[i].slotAt (if o.kind.loads then k.cist[i].pp else k.cist[i].cp) 0) k.cist[i].slot
  | _, _, _, _ => k.lsRange o.desc 64

/-- The absent window that the head of EQ1 fills as its first part (R283). -/
def State.innerFill (s : State) (c : Nat) (o : CopyOp) : Option (Fin 8) :=
  match o.kind, o.queue with
  | .fill _, _ => none
  | .unbind .., _ => if o.started then (s.core c).touched (s.nextLocs c o) else none
  | _, 1 => (s.core c).touched (s.nextLocs c o)
  | _, _ => none

/-- Operation `o` of core `c` waits for page `va` (R280). -/
def State.stallCopy (s : State) (c : Nat) (o : CopyOp) (st : CopyStall) : State :=
  let s := s.modCore c (fun k =>
    let k := k.modCopy o.id (fun _ => { o with stall := some st })
    match o.kind, o.waits with
    | .fill i, _ => k.suspend i
    | _, some i => if o.queue = 1 then k.suspend (Fin.ofNat 8 i) else k
    | _, none => k)
  s.askPage o.id (s.core c).ctx st.va st.write

/-- A write of detached operation `id` meets a further fault, `after` elements done (R280, R281). -/
def State.faultDetached (s : State) (id : Nat) (va : Word) (after : Nat) : Option State :=
  match s.findDetached id with
  | none => none
  | some (task, _, o) =>
    let n := match s.dataOf o.h, o.shape with
      | some h, some sh => (o.values h (sh.elems h false)).length
      | _, _ => 0
    if o.stall.isSome || after < o.moved || n < after then none
    else
      let s' := s.modTask task (fun t => { t with detached := t.detached.map (fun y =>
        if y.2.id = id then (y.1, { y.2 with stall := some ⟨va, true, after⟩, moved := after }) else y) })
      some (s'.askPage id (((s.task? task).map Task.ctx).getD 0) va true)

/-- COPY_FAULT: the element after the first `after` lies on a page `va` that is not resident, or an element of the fill
that a copy of EQ1 runs as its first part. Detached operation `id` stands under core number `noCore + id`.
(DESIGN CHOICE, log 18) -/
def State.faultCopy (s : State) (c : Nat) (q : Fin 4) (va : Word) (after : Nat) : Option State :=
  match (s.core c).head q with
  | none => if noCore ≤ c then s.faultDetached (c - noCore) va after else none
  | some o =>
    if o.stall.isSome then none
    else match s.innerFill c o with
    | some i => some (s.stallCopy c { o with waits := some i.val } ⟨va, false, 0⟩)
    | none => match s.dataOf o.h with
      | none => none
      | some h => match s.opEls c o h with
        | none => none
        | some es =>
          if !o.started then none
          else (s.faultAt c o h es after).map (fun x =>
            (s.setCore c x.2).stallCopy c x.1 ⟨va, !o.kind.loads, after⟩)

def execCopyFault (core : Nat) (q : Fin 4) (va : Word) (after : Nat) (s : State) := runE s (s.faultCopy core q va after)

/-! ### Fills: WINDOW_FILL and WINDOW_FILL_COMPLETE -/

/-- The fill of window `win` at the head of EQ1. -/
def Core.headFill (k : Core) (win : Fin 8) : Option CopyOp :=
  (k.head 1).filter (fun o => o.kind == .fill win)

/-- WINDOW_FILL: the fill takes an engine and its place; of a window no longer absent nothing is filled. -/
def State.startFill (s : State) (c : Nat) (win : Fin 8) : Option State :=
  match (s.core c).headFill win with
  | none => none
  | some o =>
    if o.started then none
    else match (s.core c).wins[win] with
      | none => some (s.endCopy c o 0)
      | some w =>
        if w.present then some (s.endCopy c o 0)
        else match s.dataOf w.h with
          | none => some (((s.endCopy c o 0).failFill c win false (Config.freedPage s.draws)).draw)
          | some _ => s.takePlace c { o with h := w.h }

def execWindowFill (core : Nat) (win : Fin 8) (s : State) := runE s (s.startFill core win)

/-- WINDOW_FILL_COMPLETE: the box stands in local store and the window is present. -/
def State.completeFill (s : State) (c : Nat) (win : Fin 8) : Option State :=
  match (s.core c).headFill win with
  | none => none
  | some o =>
    if !o.started || o.stall.isSome then none
    else match (s.core c).wins[win] with
      | none => some (s.endCopy c o 0)
      | some w => match s.fillNow c win w with
        | .done s => some (s.endCopy c o 0)
        | .wait => none
        | .fail p va s => some ((s.endCopy c o 0).failFill c win p va)

def execWindowFillComplete (core : Nat) (win : Fin 8) (s : State) := runE s (s.completeFill core win)

/-! ### Answers (R280, R281, R326): PAGE_ANSWER -/

/-- The core whose queue holds operation `id`, and the operation. -/
def State.findCopy (s : State) (id : Nat) : Option (Nat × CopyOp) :=
  s.cores.findSome? (fun x => ((x.2.eq1 ++ x.2.eq2).find? (fun o => o.id == id)).map (fun o => (x.1, o)))

/-- A fill that cannot be served ends, its elements before the fault in local store.
(DEDUCED, log 43) -/
def State.refuseFill (s : State) (c : Nat) (o : CopyOp) (i : Fin 8) (st : CopyStall) : State :=
  let s := match s.dataOf o.h, (s.core c).wins[i] with
    | some h, some w => s.moveIn c h w.base (((w.elems h).filter BoxEl.inside).take st.after)
    | _, _ => s
  (s.endCopy c o 0).failFill c i false st.va

/-- A fill that a copy of EQ1 runs as its first part cannot be served: the copy ends, `n` elements done, and the other
agents that wait for the window's fill are told (R192, R284). -/
def State.refuseInner (s : State) (c : Nat) (o : CopyOp) (st : CopyStall) (n : Nat) : State :=
  let s := s.endCopy c o (statusWord 3 0x13 n)
  match o.waits with
  | some i => s.failFill c (Fin.ofNat 8 i) false st.va
  | none => s

/-- The page cannot be served: the elements before it stand, the others are as they were. A fill that a copy runs as its
first part moves nothing of the copy. -/
def State.refuseCopy (s : State) (c : Nat) (o : CopyOp) (st : CopyStall) : State :=
  let fin (s : State) : State := s.endCopy c o (statusWord 3 0x13 st.after)
  match o.kind with
  | .fill i => s.refuseFill c o i st
  | kind =>
    if o.queue = 1 ∧ o.waits.isSome then
      s.refuseInner c o st (match s.dataOf o.h with
        | some h => ((s.opEls c o h).map (s.slotsMoved c o h)).getD 0
        | none => 0)
    else
    match s.dataOf o.h with
    | none => fin s
    | some h => match s.opEls c o h with
      | none => fin s
      | some es =>
        if kind.loads then match o.side with
          | .at' base => fin (s.moveIn c h base ((es.filter BoxEl.inside).take st.after))
          | .cis _ => fin s
        else
          fin (s.putHandle h kind.adds ((o.values h es).take st.after))

/-- The answer to a detached copy: its writes go on, or its spill is discarded. -/
def State.answerDetached (s : State) (task place : Nat) (o : CopyOp) (ok : Bool) : State :=
  match s.dataOf o.h, o.shape, o.stall, ok with
  | some h, some sh, some st, false =>
    (s.putHandle h o.kind.adds ((o.values h (sh.elems h false)).take st.after)).endDetached task place o
      (statusWord 3 0x13 st.after)
  | _, _, _, _ => s.modTask task (fun t =>
    { t with detached := t.detached.map (fun y => if y.2.id = o.id then (y.1, { y.2 with stall := none }) else y) })

/-- A copy whose page is mapped goes on. -/
def CopyOp.mapped (o : CopyOp) : CopyOp :=
  { o with stall := none, waits := if o.queue = 1 then none else o.waits }

/-- An answer to the request of operation `id`. -/
def State.answer (s : State) (id : Nat) (ok : Bool) : State :=
  match s.findCopy id with
  | some (c, o) => match o.stall, ok with
    | some st, false => s.refuseCopy c o st
    | _, _ => s.modCore c (fun k => k.modCopy id CopyOp.mapped)
  | none => match s.findDetached id with
    | some (t, i, o) => s.answerDetached t i o ok
    | none => s

/-- PAGE_ANSWER: a write of `%pans` reaches the hubs. -/
def State.pageAnswer (s : State) (w : RegWrite) : Option State :=
  if w.reg ≠ 0xA1 then none
  else (s.takeWrite w).map (fun s =>
    let x := (putOfWrite w).val
    let ans := x % 4
    if !s.mayWrite w || ans = 0 || ans = 3 then s
    else match s.preqs.find? (fun r => r.posted && r.id.toNat == x / 2 ^ 32) with
      | none => s
      | some r =>
        ({ s with preqs := s.preqs.filter (fun y => y.op != r.op) } : State).answer r.op (ans == 1))

def execPageAnswer (w : RegWrite) (s : State) := runE s (s.pageAnswer w)

end Sys2Proof.Machine
end

