-- ==== Sys2Proof/Machine/Views.lean ====
section
/-! DEFINITION. How the members of a chamber agree its next view: proposals, confirmations and the commit of R361, with the
joined set of R364. -/

namespace Sys2Proof.Machine

/-! ### Sets of members -/

/-- Two lists without repeats joined. -/
def listUnion (a b : List Nat) : List Nat := a ++ b.filter (fun r => !a.contains r)

/-- Two sets merged: a module marked lost by any is lost (R361). -/
def mergeSets (x y : ViewSet) : ViewSet :=
  let l := listUnion x.lost y.lost
  { lost := l, dropped := (listUnion x.dropped y.dropped).filter (fun r => !l.contains r)
    joined := listUnion x.joined y.joined }

/-- Two lists name the same members. -/
def sameList (a b : List Nat) : Bool := a.all b.contains && b.all a.contains

def sameSet (x y : ViewSet) : Bool :=
  sameList x.lost y.lost && sameList x.dropped y.dropped && sameList x.joined y.joined

/-- A member departs. -/
def departsIn (x : ViewSet) (r : Nat) : Bool := x.lost.contains r || x.dropped.contains r

/-- Two proposals name the same set. -/
def Proposal.same (p q : Proposal) : Bool := p.view == q.view && sameSet p.set q.set

/-- The members that a proposal leaves. -/
def Chamber.survivors (k : Chamber) (p : Proposal) : List Nat := k.members.filter (fun r => !departsIn p.set r)

def Chamber.own (k : Chamber) : Nat := k.members.getD k.rank 0

/-- The survivor that gathers the confirmations: the one with the lowest route index. -/
def Chamber.gatherer (k : Chamber) (p : Proposal) : Option Nat := (k.survivors p).head?

def Chamber.gathers (k : Chamber) (p : Proposal) : Bool := k.gatherer p == some k.own

/-- Every other survivor has confirmed, the same set or not. -/
def Chamber.allConfirmed (k : Chamber) (p : Proposal) : Bool :=
  ((k.survivors p).filter (fun r => r != k.own)).all (fun r => k.confirms.any (fun x => x.1 == r))

/-- Every survivor but this module has confirmed the set, and this module owes nothing. -/
def Chamber.ready (k : Chamber) (p : Proposal) : Bool :=
  !k.owed && k.allConfirmed p && k.confirms.all (fun x => !(k.survivors p).contains x.1 || x.2.same p)

/-- The proposal that a chamber's change starts from. -/
def Chamber.pending (k : Chamber) : Proposal := k.proposal.getD { view := k.view + 1 }

/-! ### Their flits -/

/-- A set cut into the shares of flits: a payload of 64 bytes holds 24 members (R343).
(DESIGN CHOICE, log 78) -/
def Proposal.cut (p : Proposal) (chm : Nat) : List ViewPart :=
  let x := p.set
  let marked := x.lost.map (fun r => (r, 0)) ++ x.dropped.map (fun r => (r, 1)) ++ x.joined.map (fun r => (r, 2))
  let cs := if marked.isEmpty then [[]] else chunks 24 marked.length marked
  cs.zipIdx.map (fun x =>
    let of (j : Nat) : List Nat := (x.1.filter (fun y => y.2 == j)).map Prod.fst
    { chm := chm, view := p.view, part := x.2, parts := cs.length
      set := { lost := of 0, dropped := of 1, joined := of 2 } })

/-- A set goes out on VC7 by every port that is up, but not by `via`. -/
def State.flood (s : State) (via : Option (Fin 24)) (mk : ViewPart → OutLoad) (chm : Nat) (p : Proposal) : State :=
  (p.cut chm).foldl (fun s x => s.txOthers via 7 (mk x)) s

/-- A set goes to the member with route index `route`. -/
def State.sendSet (s : State) (k : Chamber) (route : Nat) (mk : ViewPart → OutLoad) (chm : Nat) (p : Proposal) : State :=
  match s.routeOf k.ctx route with
  | none => s
  | some m => (p.cut chm).foldl (fun s x => s.txPlain m 7 (mk x)) s

/-- The confirmation of set `q` by member `route` goes back along the path of the proposal; the module that proposed it
sends it to the gatherer (R361). (DEDUCED, log 51) -/
def State.sendConfirm (s : State) (chm : Nat) (k : Chamber) (p : Proposal) (route : Nat) (q : Proposal) : State :=
  match k.via with
  | some port => (q.cut chm).foldl (fun s x => s.tx port 7 (.confirm route x)) s
  | none => match k.gatherer p with
    | some g => s.sendSet k g (.confirm route) chm q
    | none => s

/-- The commit of a set; a joiner is sent its view. -/
def State.floodCommit (s : State) (chm : Nat) (k : Chamber) (p : Proposal) : State :=
  let members : Proposal := ⟨p.view, { joined := k.survivors p ++ p.set.joined }⟩
  p.set.joined.foldl (fun s r => s.sendSet k r (.entry k.mode) chm members) (s.flood none .commit chm p)

/-! ### The two rounds -/

/-- The accepted operations of a chamber on this module, with their cores. -/
def State.chamberOps (s : State) (chm : Nat) : List (Nat × CollOp) :=
  s.cores.flatMap (fun x => (x.2.eq3.filter (fun o => o.chm == chm && o.accepted.isSome)).map (fun o => (x.1, o)))

/-- A join alone is confirmed once no operation of the chamber is in progress here (R364).
(DEDUCED, log 51) -/
def State.joinWaits (s : State) (chm : Nat) (p : Proposal) : Bool :=
  !p.set.joined.isEmpty && p.set.lost.isEmpty && p.set.dropped.isEmpty && (s.chamberOps chm).any (fun x => x.2.started)

/-- The gatherer commits a set that every survivor has confirmed. -/
def State.tryCommit (s : State) (chm : Nat) (k : Chamber) (p : Proposal) : State :=
  if k.ready p then s.floodCommit chm k p else s

/-- What this module owes of the chamber's proposal, its confirmation, it gives unless a join waits. -/
def State.settle (s : State) (chm : Nat) : State :=
  match s.chamber chm with
  | none => s
  | some k => match k.proposal with
    | none => s
    | some p =>
      if !k.owed || s.joinWaits chm p then s
      else
        let k := { k with owed := false }
        let s := { s with chambers := sput s.chambers chm k }
        if k.gathers p then s.tryCommit chm k p else s.sendConfirm chm k p k.own p

/-- Set `p`, which came by `via` or starts here, is the chamber's proposal: it is sent on, and confirmed (R361). -/
def State.newRound (s : State) (chm : Nat) (k : Chamber) (via : Option (Fin 24)) (p : Proposal) : State :=
  let k := { k with
    proposal := some p
    via := via
    owed := true
    joining := listUnion k.joining p.set.joined }
  (({ s with chambers := sput s.chambers chm k } : State).flood via .proposal chm p).settle chm

/-- Members that depart or join are merged into the chamber's proposal, which is sent on if it grows. -/
def State.propose (s : State) (chm : Nat) (k : Chamber) (via : Option (Fin 24)) (x : ViewSet) : State :=
  let x := { x with lost := x.lost.filter k.members.contains, dropped := x.dropped.filter k.members.contains }
  let p := { k.pending with set := mergeSets k.pending.set x }
  if k.proposal.any (fun q => q.same p) then s else s.newRound chm k via p

/-- A confirmation reaches the gatherer: it commits once every survivor has confirmed the same set; once all have confirmed,
but not the same, it proposes their merged set again (R361). (DEDUCED, log 51) -/
def State.confirm (s : State) (chm : Nat) (k : Chamber) (p : Proposal) (route : Nat) (q : Proposal) : State :=
  let k := { k with confirms := k.confirms.filter (fun x => x.1 != route) ++ [(route, q)] }
  let s := { s with chambers := sput s.chambers chm k }
  if k.allConfirmed p && k.confirms.any (fun x => (k.survivors p).contains x.1 && !x.2.same p) then
    let m := { p with set := k.confirms.foldl (fun m x => mergeSets m x.2.set) p.set }
    s.newRound chm { k with confirms := k.confirms.filter (fun x => x.2.same m) } none m
  else s.tryCommit chm k p

end Sys2Proof.Machine
end

