-- ==== Sys2Proof/Machine/Chambers.lean ====
section
/-! DEFINITION. Chambers: `kview`, `kview.drop`, `kbar`, `kjoin`, `kstat` (R359, R360), the collectives (R353 to R358),
and the events KVIEW_MATCH, KVIEW_TIMEOUT, KJOIN_TIMEOUT, COLLECTIVE_ACCEPT, COLLECTIVE_FLIT and COLLECTIVE_COMPLETE. -/

namespace Sys2Proof.Machine

/-- The chamber that a register names: its bits [7:0] (R355). -/
def chmOf (x : Word) : Nat := x.toNat % 256

/-- A chamber instruction acts after every earlier store of its strand has drained (R359). -/
def State.afterStores (s : State) : Res Unit := if s.me.buf.isEmpty then .ok () else stall s

/-! ### The statuses of collectives (R358) -/

def collStatus (st code view : Nat) (out : BitVec 7) : Word :=
  BitVec.ofNat 64 (2 ^ 60 * st + 2 ^ 48 * code + 2 ^ 16 * (view % 2 ^ 32) + out.toNat)

/-- Operation `id` of EQ3 changes in place. -/
def Core.modColl (k : Core) (id : Nat) (f : CollOp → CollOp) : Core :=
  { k with eq3 := k.eq3.map (fun o => if o.id = id then f o else o) }

def Core.dropColl (k : Core) (id : Nat) : Core := { k with eq3 := k.eq3.filter (fun o => o.id != id) }

/-- The bits of an element, and its format. -/
def CollOp.bits (o : CollOp) : Nat := o.ty.bits
def CollOp.fmt (o : CollOp) : Flt := (floatOf o.mode o.ty).getD fp32

/-- Operation `o` of core `c` ends with a status, whose reading acquires at scope `.chm`; a join that has waited for it is
confirmed (R364). -/
def State.endColl (s : State) (c : Nat) (o : CollOp) (x : Word) : State :=
  (((s.modCore c (fun k => k.dropColl o.id)).letGo c o.id).replyAcquire c o.strand o.id o.d .chm x).settle o.chm

/-- Operation `o` is aborted: the elements that it holds for units not yet whole are written (R365), and it ends. -/
def State.abortColl (s : State) (c : Nat) (o : CollOp) (x : Word) : State :=
  (match o.accepted with
    | some d => s.modCore c (fun k => k.putElems d.dst o.bits o.res)
    | none => s).endColl c o x

/-- An operation is discarded with no effect (R164). -/
def Core.discardColl (k : Core) (o : CollOp) : Core :=
  let k := k.dropColl o.id
  { k with strands := k.strands.set o.strand (k.strands[o.strand].release o.id) }

/-- Operation `o` stops on a poisoned word at `off` (R152): EQ3 enters the error state, and what has not started is
discarded (R164). Of an accepted one the cells stay as its acceptance left them.
(DEDUCED, log 50; DESIGN CHOICE, log 79) -/
def State.stopColl (s : State) (c : Nat) (o : CollOp) (off : Nat) : State :=
  ((s.letGo c o.id).modCore c (fun k =>
    let gone := k.eq3.filter (fun x => x.id != o.id && !x.started)
    let k' := gone.foldl Core.discardColl (k.discardColl o)
    let e : QErr := match k.err[(3 : Fin 4)] with
      | some e => { e with discarded := e.discarded + gone.length }
      | none => { cause := 0x38, off := off, discarded := gone.length }
    { k' with err := k'.err.set (3 : Fin 4) (some e) })).settle o.chm

/-! ### The descriptor (R354, R356) -/

/-- The fields of a descriptor. -/
def collDesc (bs : List Byte) : CollDesc :=
  { n := n32At bs 0, cell := leNat ((bs.drop 4).take 2), anchor := bs.getD 6 0, root := (bs.getD 7 0).toNat
    src := n32At bs 8, dst := n32At bs 12, hnd := BitVec.ofNat 64 (leNat ((bs.drop 16).take 8)), row := n32At bs 24 }

def CollMajor.reduces : CollMajor → Bool
  | .kred | .krsc => true
  | _ => false

/-- The operation takes up and holds the declared set's row (R308, R356). -/
def State.collRow (s : State) (c : Nat) (o : CollOp) (d : CollDesc) : Bool :=
  o.priv || (s.entriesOn (s.core c).task d.hnd 2).any (fun e => e.holds d.row)

/-- The handle of a descriptor serves the operation. (DESIGN CHOICE, log 49) -/
def State.collHandle (s : State) (c : Nat) (o : CollOp) (d : CollDesc) : Bool :=
  match s.handle? d.hnd, s.dataOf d.hnd with
  | some h, some r =>
    h.has 9 && !s.exporterLost h && (h.ctx == (s.core c).ctx || o.priv) && !(h.modeSensitive && h.mode != o.mode)
      && r.e[0] == d.n && decide (d.row < r.rows) && s.collRow c o d
  | _, _ => false

/-- A descriptor that the operation takes (R354, R356). -/
def State.collOk (s : State) (c : Nat) (o : CollOp) (k : Chamber) (bs : List Byte) : Bool :=
  let d := collDesc bs
  let x := s.ctx (s.core c).ctx
  decide (1 ≤ d.n) && decide (d.n ≤ 1024) && decide (d.src % 16 = 0) && decide (d.dst % 16 = 0)
    && (bs.drop 28).all (fun b => b == 0)
    && (if o.major == .kbcast then decide (d.root < k.members.length) else d.root == 0)
    && (!o.major.reduces || (decide (x.cbase ≤ d.cell) && decide (d.cell + d.n ≤ x.cbase + x.ccount)))
    && (d.hnd == 0 || s.collHandle c o d)

/-! ### Elements -/

/-- The element of a row that stands in a handle. (DESIGN CHOICE, log 49) -/
def rowEl (row i : Nat) : BoxEl := { inside := true, i0 := i, row := row, pos := i }

/-- The source elements of an operation with the state that reading them leaves (R151, R315), or why there are none. -/
inductive SrcRes
  | els (xs : List Nat) (s : State)
  | poison (off : Nat)
  | fault (code : Nat)

def State.collSource (s : State) (c : Nat) (o : CollOp) (d : CollDesc) : SrcRes :=
  if d.hnd = 0 then
    let k := s.core c
    let ls := k.lsRange d.src (d.n * o.bits / 8)
    match k.poisonedAt ls with
    | some off => .poison off
    | none => .els ((List.range d.n).map (fun i => k.getElem d.src o.bits i)) (s.setCore c (k.correctAll ls))
  else match if s.sourceLost d.hnd then none else s.dataOf d.hnd with
    | none => .fault 0x13
    | some h =>
      let es := (List.range d.n).map (rowEl d.row)
      if es.any h.badAt then .fault 0x14
      else .els (es.map (fun e => h.get e.i0 d.row % 2 ^ o.bits)) (s.mend h es)

/-- Of the results `res`, for a destination of `total` elements of `bits` bits: those of 16-byte units that are whole, and the
others (R167). -/
def wholeUnits (bits total : Nat) (res : List (Nat × Nat)) : List (Nat × Nat) × List (Nat × Nat) :=
  let per := 128 / bits
  let whole (p : Nat) : Bool := (List.range per).all (fun i =>
    decide (total ≤ p / per * per + i) || res.any (fun x => x.1 == p / per * per + i))
  (res.filter (fun x => whole x.1), res.filter (fun x => !whole x.1))

/-- Elements written to the destination, of `total` elements, from element `pos` on: to local store once their 16-byte unit
is whole; those beyond the row of a handle are not written. (DESIGN CHOICE, log 49) -/
def State.collWrite (s : State) (c : Nat) (o : CollOp) (d : CollDesc) (total pos : Nat) (xs : List Nat) : State :=
  if d.hnd = 0 then s.modCore c (fun k =>
    let held := ((k.eq3.find? (fun x => x.id == o.id)).map CollOp.res).getD []
    let r := wholeUnits o.bits total (held ++ xs.zipIdx.map (fun x => (pos + x.2, x.1)))
    (k.putElems d.dst o.bits r.1).modColl o.id (fun o => { o with res := r.2 }))
  else match s.dataOf d.hnd with
    | none => s
    | some h => s.putHandle h false ((xs.zipIdx.filter (fun x => decide (pos + x.2 < d.n))).map (fun x =>
        (rowEl d.row (pos + x.2), x.1)))

/-! ### Blocks and the ring (R357) -/

/-- First element and length of block `b` of `n` elements over `m` members. -/
def blockOf (n m b : Nat) : Nat × Nat :=
  let size := ceilDiv n m
  (min (b * size) n, min ((b + 1) * size) n - min (b * size) n)

/-- Elements of the destination of an operation on a member of rank `r` of `m` (R357). -/
def CollOp.results (o : CollOp) (d : CollDesc) (m r : Nat) : Nat :=
  match o.major with
  | .kgath => m * d.n
  | .krsc => (blockOf d.n m r).2
  | _ => d.n

/-- Ring steps of an operation that a member of rank `r` of `m` receives. -/
def CollOp.total (o : CollOp) (d : CollDesc) (m r : Nat) : Nat :=
  match o.major with
  | .krsc | .kgath => m - 1
  | .kred => 2 * (m - 1)
  | .kbcast => if r = d.root then 0 else 1

/-- Step `j` (from 1 on) brings partial sums. -/
def CollOp.sums (o : CollOp) (m j : Nat) : Bool := o.major.reduces && decide (j < m)

/-- The block that step `j` brings to rank `r`: its number, its first element and its length. -/
def CollOp.incoming (o : CollOp) (d : CollDesc) (m r j : Nat) : Nat × Nat × Nat :=
  match o.major with
  | .krsc | .kred => let b := (r + 2 * m - 1 - j) % m; (b, blockOf d.n m b)
  | .kgath => ((r + m - j) % m, 0, d.n)
  | .kbcast => (d.root, 0, d.n)

/-- The least span that holds two, taken around `m` ranks from the start of the first. -/
def spanUnion (m : Nat) (a b : Nat × Nat) : Nat × Nat := (a.1, min m (max a.2 ((b.1 + m - a.1) % m + b.2)))

/-- A partial sum is added to a cell: equal anchors, flags and spans joined. -/
def Cell.take (x : Cell) (m : Nat) (p : CellPart) (span : Nat × Nat) : Cell :=
  { w := { x.w with s := x.w.s + p.s, vx := x.w.vx || p.vx, ho := x.w.ho || p.ho }
    span := some (match x.span with
      | none => span
      | some y => spanUnion m span y) }

/-- The next partial sums of a block, from cell `i` on. -/
def Cluster.takeParts (k : Cluster) (m i : Nat) (span : Nat × Nat) : List CellPart → Cluster
  | [] => k
  | p :: ps => (k.setCell i ((k.cell i).take m p span)).takeParts m (i + 1) span ps

/-- The contents of a block cut into payloads of 64 bytes: three cells, or the elements of `bits` bits that fill one (R343).
(DEDUCED, log 48) -/
def payloads (bits : Nat) (cells : List CellPart) (elems : List Nat) : List (List CellPart × List Nat) :=
  if cells.isEmpty && elems.isEmpty then [([], [])]
  else (chunks 3 cells.length cells).map (fun x => (x, [])) ++ (chunks (512 / bits) elems.length elems).map (fun x => ([], x))

/-- The flits of a block for the next member. (DEDUCED, log 48) -/
def State.sendColl (s : State) (chm : Nat) (k : Chamber) (o : CollOp) (j : Nat) (span : Nat × Nat) (cells : List CellPart)
    (elems : List Nat) : State :=
  let m := k.members.length
  match s.routeOf k.ctx (k.members.getD ((k.rank + 1) % m) 0) with
  | none => s
  | some dest => (payloads o.bits cells elems).foldl (fun s x =>
      s.txPlain dest (Fin.ofNat 8 (4 + chm % 2)) (.coll
        { chamber := chm, view := k.view, mode := o.mode, srcRank := k.rank, step := j
          spanStart := span.1, spanLen := span.2, cells := x.1, elems := x.2 })) s

/-- The partial sums of `n` cells of core `c`'s cluster from cell `i` on, and their span. -/
def State.partsOf (s : State) (c i n : Nat) : List CellPart × (Nat × Nat) :=
  let k := s.cluster (cluOf c)
  ((List.range n).map (fun j => let w := (k.cell (i + j)).w; { s := w.s, vx := w.vx, ho := w.ho }),
    ((k.cell i).span).getD (0, 0))

/-- The readout of `n` cells from cell `i` on (R80, R357): elements, and bits [6:0] of the status. -/
def State.readCells (s : State) (c : Nat) (o : CollOp) (i n div : Nat) : List Nat × BitVec 7 :=
  let k := s.cluster (cluOf c)
  (List.range n).foldl (fun a j =>
    let w := (k.cell (i + j)).w
    let r := w.readDiv o.fmt o.md div
    (a.1 ++ [r.1], a.2 ||| BitVec.ofNat 7 (64 * b2n w.vo + 32 * b2n w.vx + r.2.toNat % 32))) ([], 0)

/-- The member's own block of a reduction is read out and written, at element `pos` of the destination; `.rw` divides
by the member count. -/
def State.readOwn (s : State) (c : Nat) (o : CollOp) (d : CollDesc) (k : Chamber) (pos : Nat) : List Nat × State :=
  let b := blockOf d.n k.members.length k.rank
  let r := s.readCells c o (d.cell + b.1) b.2 (if o.rw then k.members.length else 1)
  (r.1, (s.collWrite c o d (o.results d k.members.length k.rank) pos r.1).modCore c (fun x => x.modColl o.id (fun o => { o with out := o.out ||| r.2 })))

/-! ### Acceptance and start (R353, R356, R364): COLLECTIVE_ACCEPT -/

/-- Local bytes of the destination, and of the source. -/
def CollOp.dstRange (o : CollOp) (d : CollDesc) (m : Nat) : Nat × Nat :=
  (d.dst, d.n * o.bits / 8 * (if o.major == .kgath then m else 1))

def CollOp.srcRange (o : CollOp) (d : CollDesc) : Nat × Nat := (d.src, d.n * o.bits / 8)

/-- Members of the chamber of an operation. -/
def State.membersOf (s : State) (o : CollOp) : Nat := ((s.chamber o.chm).map (fun k => k.members.length)).getD 1

/-- Two ranges (first, length) share an element. -/
def meets (a b : Nat × Nat) : Bool := decide (a.1 < b.1 + b.2) && decide (b.1 < a.1 + a.2)

/-- Operation `o` has the cells of an earlier operation of the queue that is not complete (R161). -/
def State.cellClash (s : State) (c : Nat) (o : CollOp) (d : CollDesc) : Bool :=
  o.major.reduces && ((s.core c).eq3.takeWhile (fun x => x.id != o.id)).any (fun x =>
    x.accepted.any (fun e => x.major.reduces && meets (e.cell, e.n) (d.cell, d.n)))

/-- An earlier operation of the queue that is not complete writes what operation `o` reads or writes, has yet to read what
it writes, or has its cells or its handle (R161). -/
def State.collClash (s : State) (c : Nat) (o : CollOp) (d : CollDesc) : Bool :=
  let dst := o.dstRange d (s.membersOf o)
  s.cellClash c o d || ((s.core c).eq3.takeWhile (fun x => x.id != o.id)).any (fun x =>
    match x.accepted with
    | none => true
    | some e =>
      let xdst := x.dstRange e (s.membersOf x)
      (e.hnd == 0 && d.hnd == 0 && (meets xdst (o.srcRange d) || meets xdst dst || (!x.entered && meets (x.srcRange e) dst)))
        || (e.hnd != 0 && s.rootOf e.hnd == s.rootOf d.hnd))

/-- An earlier operation of the queue may still write the descriptor. -/
def State.descClash (s : State) (c : Nat) (o : CollOp) : Bool :=
  ((s.core c).eq3.takeWhile (fun x => x.id != o.id)).any (fun x =>
    match x.accepted with
    | none => true
    | some e => e.hnd == 0 && meets (x.dstRange e (s.membersOf x)) (o.desc, 32))

/-- The cells of a reduction are cleared (R356). -/
def State.clearCells (s : State) (c : Nat) (o : CollOp) (d : CollDesc) : State :=
  if o.major.reduces && !o.cleared then
    (s.modCluster (cluOf c) (fun k => (List.range d.n).foldl (fun k i => k.setCell (d.cell + i) { w := { anchor := d.anchor } }) k)).modCore
      c (fun k => k.modColl o.id (fun o => { o with cleared := true }))
  else s

/-- The cleared cells take the member's own elements (R356). -/
def State.enterCells (s : State) (c : Nat) (o : CollOp) (d : CollDesc) (rank : Nat) (xs : List Nat) : State :=
  s.modCluster (cluOf c) (fun k => xs.zipIdx.foldl (fun k x =>
    k.setCell (d.cell + x.2) { w := (k.cell (d.cell + x.2)).w.add (o.fmt.value x.1), span := some (rank, 1) }) k)

/-- The operation takes in its own elements. (DEDUCED, log 48) -/
def State.enterColl (s : State) (c : Nat) (o : CollOp) (d : CollDesc) (k : Chamber) : State :=
  match s.collSource c o d with
  | .poison off => s.stopColl c o off
  | .fault code => s.endColl c o (collStatus 3 code k.view 0)
  | .els xs s =>
    let s := if o.major.reduces then (s.clearCells c o d).enterCells c o d k.rank xs else s
    s.modCore c (fun x => x.modColl o.id (fun o => { o with entered := true, own := xs }))

/-- The oldest operation that has its place is accepted: the descriptor is read, and refused or taken.
(DEDUCED, log 48, 50) -/
def State.acceptNext (s : State) (c : Nat) : Option State :=
  match (s.core c).eq3.find? (fun o => o.drained && o.accepted.isNone) with
  | none => none
  | some o =>
    if s.descClash c o then none
    else match s.chamberFor o.chm (s.core c).ctx with
      | none => some (s.endColl c o (collStatus 6 0 0 0))
      | some k =>
        let ls := (s.core c).lsRange o.desc 32
        match (s.core c).poisonedAt ls with
        | some off => some (s.stopColl c o off)
        | none =>
          let r := (s.core c).readBytes ls
          let s := s.setCore c r.2.1
          if !s.collOk c o k r.1 then some (s.endColl c o (collStatus 2 0 k.view 0))
          else
            let d := collDesc r.1
            let o := { o with accepted := some d, turn := s.nextId }
            let s := s.fresh.modCore c (fun k => k.modColl o.id (fun _ => o))
            some (if d.hnd == 0 && !s.collClash c o d then s.enterColl c o d k
              else if s.cellClash c o d then s else s.clearCells c o d)

/-- It is the operation's turn in its chamber: none is in progress, none was accepted before it, and no request to join
holds it back. -/
def State.collTurn (s : State) (o : CollOp) (k : Chamber) : Bool :=
  k.joining.isEmpty && (s.chamberOps o.chm).all (fun x => !x.2.started && decide (o.turn ≤ x.2.turn))

/-- The first flits of a started operation. -/
def State.firstFlits (s : State) (c : Nat) (o : CollOp) (d : CollDesc) (k : Chamber) : State :=
  let m := k.members.length
  if m ≤ 1 then s
  else match o.major with
    | .kred | .krsc =>
      let b := blockOf d.n m ((k.rank + m - 1) % m)
      let p := s.partsOf c (d.cell + b.1) b.2
      s.sendColl o.chm k o 1 (k.rank, 1) p.1 []
    | .kgath => s.sendColl o.chm k o 1 (0, 0) [] o.own
    | .kbcast => if k.rank = d.root then s.sendColl o.chm k o 1 (0, 0) [] o.own else s

/-- Operation `id` of core `c` starts: it takes its place in its handle's order, takes in its own elements unless it
has, and sends. -/
def State.startColl (s : State) (c : Nat) (o : CollOp) (d : CollDesc) (k : Chamber) : Option State :=
  if !o.entered && s.collClash c o d then none
  else if d.hnd != 0 && (s.handle? (s.rootOf d.hnd)).any (fun h => h.holder.isSome) then none
  else
    let s := s.modCore c (fun x => x.modColl o.id (fun o => { o with started := true }))
    let s := if d.hnd = 0 then s else (s.modHandle (s.rootOf d.hnd) (fun h => h.hold c o.id)).askRows d.hnd
    let s := if o.entered then s else s.enterColl c o d k
    match (s.core c).eq3.find? (fun x => x.id == o.id) with
    | none => some s
    | some o => some (s.firstFlits c o d k)

/-- The first operation of core `c` whose turn it is starts. (DEDUCED, log 48) -/
def State.startNext (s : State) (c : Nat) : Option State :=
  (s.core c).eq3.findSome? (fun o =>
    match o.accepted, s.chamber o.chm with
    | some d, some k => if !o.started && s.collTurn o k then s.startColl c o d k else none
    | _, _ => none)

/-- COLLECTIVE_ACCEPT: the next operation of EQ3 of core `core` is accepted, and one whose turn it is starts. -/
def State.acceptColl (s : State) (core : Nat) : Option State :=
  match s.acceptNext core with
  | some s => some ((s.startNext core).getD s)
  | none => s.startNext core

def execCollectiveAccept (core : Nat) (s : State) := runE s (s.acceptColl core)

/-! ### Flits (R352, R357, R362): COLLECTIVE_FLIT -/

/-- The operation of a chamber in progress. -/
def State.running (s : State) (chm : Nat) : Option (Nat × CollOp × CollDesc) :=
  (s.chamberOps chm).findSome? (fun x => if x.2.started then x.2.accepted.map (fun d => (x.1, x.2, d)) else none)

/-- A ring step is complete: what has come is passed on, and the last sum of `kred` is read out and sent around. -/
def State.stepColl (s : State) (c : Nat) (o : CollOp) (d : CollDesc) (k : Chamber) : State :=
  let m := k.members.length
  let j := o.steps + 1
  let b := o.incoming d m k.rank j
  let next (s : State) : State := s.modCore c (fun x => x.modColl o.id (fun o => { o with steps := j, got := 0, part := [] }))
  if o.sums m j then
    if j + 1 < m then
      let p := s.partsOf c (d.cell + b.2.1) b.2.2
      (next s).sendColl o.chm k o (j + 1) p.2 p.1 []
    else if o.major == .kred then
      let own := blockOf d.n m k.rank
      let r := (next s).readOwn c o d k own.1
      r.2.sendColl o.chm k o (j + 1) (0, 0) [] r.1
    else next s
  else
    let pos := if o.major == .kgath then b.1 * d.n else b.2.1
    let s := (next s).collWrite c o d (o.results d m k.rank) pos o.part
    let goesOn := match o.major with
      | .kbcast => (k.rank + 1) % m != d.root
      | _ => decide (j < o.total d m k.rank)
    if goesOn then s.sendColl o.chm k o (j + 1) (0, 0) [] o.part else s

/-- The operation takes the contents of a flit: the next of the block of its next step; `none` when it brings
something else. (DEDUCED, log 48) -/
def State.takeColl (s : State) (c : Nat) (o : CollOp) (d : CollDesc) (k : Chamber) (f : CollFlit) : Option State :=
  let m := k.members.length
  let j := o.steps + 1
  let b := o.incoming d m k.rank j
  let sums := o.sums m j
  let n := if sums then f.cells.length else f.elems.length
  let other := if sums then f.elems.length else f.cells.length
  if o.total d m k.rank ≤ o.steps || f.srcRank != (k.rank + m - 1) % m || (o.major != .kbcast && f.step != j)
      || other != 0 || decide (b.2.2 < o.got + n) then none
  else
    let s := if sums then
        s.modCluster (cluOf c) (fun x => x.takeParts m (d.cell + b.2.1 + o.got) (f.spanStart, f.spanLen) f.cells)
      else s
    let o := { o with got := o.got + n, part := o.part ++ f.elems }
    let s := s.modCore c (fun x => x.modColl o.id (fun _ => o))
    some (if o.got = b.2.2 then s.stepColl c o d k else s)

/-- A flit for chamber `f.chamber`: one with another view's tag, or of an `e4m3` operation in the other mode, is
discarded and counted. (DEDUCED, log 50) -/
def State.collFlit (s : State) (f : CollFlit) : Option State :=
  match s.chamber f.chamber with
  | none => none
  | some k =>
    if f.view ≠ k.view then some { s with chambers := sput s.chambers f.chamber { k with badTag := k.badTag + 1 } }
    else match s.running f.chamber with
      | none => none
      | some (c, o, d) =>
        if o.ty == .e4m3 && f.mode != k.mode then
          some { s with chambers := sput s.chambers f.chamber { k with badMode := k.badMode + 1 } }
        else s.takeColl c o d k f

def execCollectiveFlit (f : CollFlit) (s : State) := runE s (s.collFlit f)

/-! ### Completion (R353, R357, R358): COLLECTIVE_COMPLETE -/

/-- What an operation still writes at its end. (DEDUCED, log 48) -/
def State.lastWrites (s : State) (c : Nat) (o : CollOp) (d : CollDesc) (k : Chamber) : State :=
  match o.major with
  | .krsc => (s.readOwn c o d k 0).2
  | .kred => if k.members.length ≤ 1 then (s.readOwn c o d k 0).2 else s
  | .kgath => s.collWrite c o d (o.results d k.members.length k.rank) (k.rank * d.n) o.own
  | .kbcast => if k.rank = d.root then s.collWrite c o d d.n 0 o.own else s

/-- COLLECTIVE_COMPLETE: operation `id` writes its destination and its status; `disagree`: the other members' operation
in this place differs, and nothing moves. (DEDUCED, log 50) -/
def State.completeColl (s : State) (c id : Nat) (disagree : Bool) : Option State :=
  match (s.core c).eq3.find? (fun o => o.id == id) with
  | none => none
  | some o => match o.accepted, s.chamber o.chm with
    | some d, some k =>
      if !o.started then none
      else if disagree then
        if 1 < k.members.length && o.steps = 0 && o.got = 0 then some (s.endColl c o (collStatus 7 0 k.view 0)) else none
      else if o.steps < o.total d k.members.length k.rank then none
      else
        let s := s.lastWrites c o d k
        let out := (((s.core c).eq3.find? (fun x => x.id == id)).map CollOp.out).getD 0
        some (s.endColl c o (collStatus 0 0 k.view out))
    | _, _ => none

def execCollectiveComplete (core id : Nat) (disagree : Bool) (s : State) := runE s (s.completeColl core id disagree)

/-! ### Issue of a collective (R355) -/

/-- Operation `o` takes an entry of EQ3 and enters the store buffer as a release entry of scope `.chm`; in the error
state it is discarded and counted (R164). -/
def State.enterEq3 (s : State) (o : CollOp) : Res State :=
  match s.myCore.err[(3 : Fin 4)] with
  | some e => .ok (s.modMyCore (fun k =>
      { k with err := k.err.set (3 : Fin 4) (some { e with discarded := e.discarded + 1 }) }))
  | none =>
    if 8 ≤ s.myCore.eq3.length then stall s
    else do
      s.bufRoom 1
      let id := s.nextId
      let s := s.modMyCore (fun k => { k with eq3 := k.eq3 ++ [{ o with id := id }] })
      .ok ((s.pushBuf { id := 0, op := .coll id, rel := true, scope := .chm }).await id o.d)

/-- Local bytes as the issuing strand sees them now (R30). -/
def State.peek (s : State) (ls : List Loc) : List Byte :=
  ls.map (fun l => match s.me.forward s.nextId [l] with
    | .bytes (b :: _) => b
    | _ => (s.myCore.readBytes [l]).1.headD 0)

/-- The handle that the descriptor names at issue is of the mode in force (R68).
(DEDUCED, log 50) -/
def State.collMode (s : State) (a : Word) : Res Unit :=
  match s.handle? (BitVec.ofNat 64 (leNat (s.peek (s.myCore.lsRange (a.toNat + 16) 8)))) with
  | some h => needMode h s.myCore.e4m3
  | none => .ok ()

def collBody (major : CollMajor) (rw : Bool) (x : Coll) (s : State) : Res State := do
  let a := s.me.rg x.a
  let n := chmOf (s.me.rg x.b)
  trapIf (a.toNat % 16 != 0) (Trap.misaligned a)
  match s.chamberFor n s.myCore.ctx with
  | none => raise (badDomain s.me)
  | some k => do
    trapIf (x.ty == .e4m3 && s.myCore.e4m3 != k.mode) { code := 0x28, detail := BitVec.ofNat 64 (b2n k.mode) }
    s.collMode a
    s.dropCheck .chm true
    (s.useChamber n).enterEq3 { id := 0, strand := s.cur.2, chm := n, major := major, rw := rw, ty := x.ty, md := x.round
                                mode := s.myCore.e4m3, desc := a.toNat % 2 ^ 20, d := x.d, priv := s.me.priv }

/-- `kred` (R355). -/
def execKred (x : Coll) (rw : Bool) (s : State) := runW x.gd 8 s (collBody .kred rw x)
/-- `kbcast`. -/
def execKbcast (x : Coll) (s : State) := runW x.gd 8 s (collBody .kbcast false x)
/-- `kgath`. -/
def execKgath (x : Coll) (s : State) := runW x.gd 8 s (collBody .kgath false x)
/-- `krsc`. -/
def execKrsc (x : Coll) (s : State) := runW x.gd 8 s (collBody .krsc false x)

/-! ### kview and kjoin (R359) -/

/-- `%dom` names chamber `n`. -/
def Strand.nameChamber (t : Strand) (n : Nat) : Strand :=
  { t with dom := { t.dom with chm := BitVec.ofNat 8 n, chv := true } }

/-- The reply of a request that the issuing strand waits for. -/
def takeReq (n : Nat) (d : Fin 32) (r : Nat) (s : State) : State :=
  s.modMe (fun t => (if r = 0 then t.nameChamber n else t).wg d (BitVec.ofNat 64 r))

/-- A list of route indices as `kview` reads it: `none` when it is malformed, or does not include this module. -/
def State.viewList (s : State) (hd body : List Byte) : Option (List Nat) :=
  let m := leNat (hd.take 2)
  let l := (List.range m).map (fun i => leNat ((body.drop (2 * i)).take 2))
  if m = 0 ∨ 4608 < m ∨ !(hd.drop 2).all (fun b => b == 0) then none
  else if !(l.zip (l.drop 1)).all (fun x => decide (x.1 < x.2)) then none
  else if !l.any (fun r => s.routeOf s.myCore.ctx r == some s.self.toNat) then none
  else some l

/-- The request of the issuing strand. -/
def State.newReq (s : State) (n : Nat) : KReq :=
  { chm := n, ctx := s.myCore.ctx, core := s.cur.1, lnum := s.myCore.lnum.toNat, strand := s.cur.2 }

def kviewBody (d a b : Fin 32) (s : State) : Res State :=
  let n := chmOf (s.me.rg b)
  match s.me.waiting with
  | .kview c (some r) => .ok (takeReq c d r s)
  | .kview _ none => block 1 s
  | _ => do
    let off := s.me.rg a
    trapIf (off.toNat % 16 != 0) (Trap.misaligned off)
    let s := s.useChamber n
    s.afterStores
    let (hd, s) ← s.readPayload (s.myCore.lsRange off.toNat 16)
    let m := min 4608 (leNat (hd.take 2))
    let (body, s) ← s.readPayload (s.myCore.lsRange (off.toNat + 16) (2 * m))
    match s.viewList hd body with
    | none => .ok (takeReq n d 1 s)
    | some l =>
      if (s.chamber n).isSome || s.kreqs.any (fun r => r.chm == n && !r.join) then .ok (takeReq n d 3 s)
      else
        let r := { s.newReq n with list := l, mode := s.myCore.e4m3 }
        block 1 (({ s with kreqs := s.kreqs ++ [r] } : State).awaitObj (.kview n none))

/-- `kview` (R359). (DEDUCED, log 51) -/
def execKview (gd : Guard) (d a b : Fin 32) (s : State) := runW gd 8 s (kviewBody d a b)

def kjoinBody (d a b : Fin 32) (s : State) : Res State :=
  let n := chmOf (s.me.rg b)
  match s.me.waiting with
  | .kjoin c (some r) => .ok (takeReq c d r s)
  | .kjoin _ none => block 1 s
  | _ => do
    let s := s.useChamber n
    s.afterStores
    let route := (s.me.rg a).toNat
    match (if 4608 ≤ route then none else s.routeOf s.myCore.ctx route) with
    | none => .ok (takeReq n d 1 s)
    | some m =>
      let r := { s.newReq n with join := true, contact := route }
      let s := ({ s with kreqs := s.kreqs ++ [r] } : State).txPlain m 7 (.joinRequest n)
      block 1 (s.awaitObj (.kjoin n none))

/-- `kjoin` (R359, R364). (DEDUCED, log 51) -/
def execKjoin (gd : Guard) (d a b : Fin 32) (s : State) := runW gd 8 s (kjoinBody d a b)

/-- A reply reaches a waiting strand. -/
def Core.answerReq (k : Core) (r : KReq) (x : Nat) : Core :=
  let t := k.strands[r.strand]
  let w := match t.wait with
    | .kview c none => if c = r.chm && !r.join then WaitObj.kview c (some x) else t.wait
    | .kjoin c none => if c = r.chm && r.join then WaitObj.kjoin c (some x) else t.wait
    | w => w
  { k with strands := k.strands.set r.strand { t with wait := w } }

/-- Request `r` is answered and withdrawn: its strand runs on a core, is saved, or belongs to a core without a task. -/
def State.replyReq (s : State) (r : KReq) (x : Nat) : State :=
  let s := { s with kreqs := s.kreqs.filter (fun y => y != r) }
  match s.coreByLnum r.ctx r.lnum with
  | some c => s.modCore c (fun k => k.answerReq r x)
  | none => match s.savedByLnum r.ctx r.lnum with
    | some (id, i) => s.modSaved id i (fun k => k.answerReq r x)
    | none => s.modCore r.core (fun k => k.answerReq r x)

/-- The `kview` request of a chamber that waits on this module. -/
def State.viewReq (s : State) (n : Nat) : Option KReq := s.kreqs.find? (fun r => r.chm == n && !r.join)
def State.joinReq (s : State) (n : Nat) : Option KReq := s.kreqs.find? (fun r => r.chm == n && r.join)

/-- This module's route index in a list. -/
def State.ownRoute (s : State) (ctx : Nat) (l : List Nat) : Option Nat :=
  l.find? (fun r => s.routeOf ctx r == some s.self.toNat)

/-- KVIEW_MATCH: every other module of the list has a request waiting (`others`), and they are compared.
(DEDUCED, log 51) -/
def State.matchView (s : State) (n : Nat) (others : List ViewReq) : Option State :=
  match s.viewReq n with
  | none => none
  | some r => match s.ownRoute r.ctx r.list with
    | none => none
    | some own =>
      let rest := r.list.filter (fun x => x != own)
      if !rest.all (fun x => others.any (fun o => o.route == x)) then none
      else if (others.filter (fun o => rest.contains o.route)).all (fun o => o.list == r.list && o.mode == r.mode) then
        let k : Chamber := { ctx := r.ctx, view := 1, members := r.list, rank := r.list.idxOf own, mode := r.mode }
        some { s.replyReq r 0 with chambers := sput s.chambers n k }
      else some (s.replyReq r 2)

def execKviewMatch (chamber : Fin 256) (others : List ViewReq) (s : State) := runE s (s.matchView chamber.val others)

/-- KVIEW_TIMEOUT: 10 ms have passed. -/
def execKviewTimeout (chamber : Fin 256) (s : State) :=
  runE s ((s.viewReq chamber.val).map (fun r => s.replyReq r 4))

/-- KJOIN_TIMEOUT: 100 ms have passed. -/
def execKjoinTimeout (chamber : Fin 256) (s : State) :=
  runE s ((s.joinReq chamber.val).map (fun r => s.replyReq r 4))

/-! ### kview.drop, kbar and kstat (R359, R360) -/

/-- Every operation of a chamber in EQ3 ends with a status. -/
def State.endOps (s : State) (chm : Nat) (x : CollOp → Word) (p : CollOp → Bool) : State :=
  (s.cores.flatMap (fun y => (y.2.eq3.filter (fun o => o.chm == chm && p o)).map (fun o => (y.1, o)))).foldl
    (fun s y => s.abortColl y.1 y.2 (x y.2)) s

/-- This module leaves chamber `n`: the other members see a departure (R359, R361).
(DEDUCED, log 51) -/
def State.leave (s : State) (n : Nat) (k : Chamber) : State :=
  let s := ({ s with chambers := serase s.chambers n } : State).endOps n (fun o => collStatus 6 0 k.view o.out)
    (fun _ => true)
  s.flood none .proposal n ⟨k.view + 1, { dropped := [k.own] }⟩

def kviewDropBody (d b : Fin 32) (s : State) : Res State := do
  let n := chmOf (s.me.rg b)
  let s := s.useChamber n
  s.afterStores
  match s.chamberFor n s.myCore.ctx with
  | none => .ok (s.modMe (fun t => t.wg d 1))
  | some k => .ok ((s.leave n k).modMe (fun t =>
      (if t.dom.chm.toNat = n then { t with dom := { t.dom with chv := false } } else t).wg d 0))

/-- `kview.drop` (R359). -/
def execKviewDrop (gd : Guard) (d b : Fin 32) (s : State) := runW gd 8 s (kviewDropBody d b)

/-- `kbar` (R359): as `dbar` on the chamber. (DEDUCED, log 31) -/
def execKbar (gd : Guard) (d b : Fin 32) (s : State) :=
  runW gd 8 s (fun s => do
    s.controlOnly
    chamberBarrier (chmOf (s.me.rg b)) d false none s)

/-- The word that `kstat` writes (R360). -/
def State.kstatWord (s : State) (n sel : Nat) (a : Word) : Word :=
  match s.chamberFor n s.myCore.ctx with
  | none => if sel = 4 then BitVec.allOnes 64 else 0
  | some k => match sel with
    | 0 => BitVec.ofNat 64 (k.view % 2 ^ 32)
    | 1 => BitVec.ofNat 64 (2 ^ 63 + 2 ^ 16 * (k.rank % 2 ^ 13) + k.members.length % 2 ^ 13)
    | 2 => BitVec.ofNat 64 (2 ^ 32 * (k.kept % 2 ^ 16) + 2 ^ 16 * (k.joined % 2 ^ 13) + k.departed % 2 ^ 13)
    | 3 => BitVec.ofNat 64 (2 ^ 32 * (k.badMode % 2 ^ 32) + k.badTag % 2 ^ 32)
    | _ => match k.members[a.toNat]? with
      | some r => BitVec.ofNat 64 r
      | none => BitVec.allOnes 64

def kstatBody (d a b : Fin 32) (sel : Fin 16) (s : State) : Res State := do
  trapIf (decide (4 < sel.val)) (Trap.illegalInstruction (pcWord s.me))
  let n := chmOf (s.me.rg b)
  let s := s.useChamber n
  s.afterStores
  .ok (s.modMe (fun t => t.wg d (s.kstatWord n sel.val (t.rg a))))

/-- `kstat` (R359, R360). -/
def execKstat (gd : Guard) (d a b : Fin 32) (sel : Fin 16) (s : State) := runW gd 8 s (kstatBody d a b sel)

end Sys2Proof.Machine
end

