-- ==== Sys2Proof/Machine/Control.lean ====
section
/-! DEFINITION. Control transfer, `nop` and `trap` (R53, R98 to R100). -/

namespace Sys2Proof.Machine

/-- `nop` (R53). -/
def execNop (n : NopLen) (s : State) : Host.Outcome State Fault Refusal := .next (s.retire n.len)

/-- `nop.blk` goes on at the next fetch block (R53). -/
def execNopBlk (s : State) : Host.Outcome State Fault Refusal :=
  .next (s.goTo (BitVec.ofNat 57 (s.me.pc.toNat / 32 * 32 + 32)))

/-- The target check, before anything is written (R38, R99). -/
def jumpTo (t : Word) (s : State) : Res (State × Pc) :=
  if targetOk t then .ok (s, t.setWidth 57) else raise (Trap.badTarget t)

/-- `PC + 4 * off` (R98). -/
def relTarget (st : Strand) (off : Disp) : Word := pcWord st + off.val * 4

/-- `br` (R98). -/
def execBr (gd : Guard) (off : Disp) (s : State) := runJ gd off.len s (fun s => jumpTo (relTarget s.me off) s)

/-- `jmp` (R98). -/
def execJmp (gd : Guard) (t : JmpT) (s : State) := runJ gd t.len s (fun s => jumpTo t.val s)

/-- A jump that writes the return address to g[d] (R98, R99). -/
def jumpLink (d : Fin 32) (len : Nat) (t : Word) (s : State) : Res (State × Pc) :=
  jumpTo t (s.modMe (fun x => x.wg d (pcWord x + BitVec.ofNat 64 len)))

/-- `jal` (R98). -/
def execJal (gd : Guard) (d : Fin 32) (off : Disp) (s : State) :=
  runJ gd off.len s (fun s => jumpLink d off.len (relTarget s.me off) s)

/-- `jr` reads g[A] before it writes g[D] (R98, R99). -/
def execJr (gd : Guard) (d a : Fin 32) (disp : BitVec 16) (s : State) :=
  runJ gd 8 s (fun s => jumpLink d 8 (s.me.rg a + disp.signExtend 64) s)

/-- `ret` (R98). -/
def execRet (gd : Guard) (a : Fin 32) (s : State) := runJ gd 8 s (fun s => jumpTo (s.me.rg a) s)

/-- The counter of `loop` after the decrement (R98, R99). -/
def loopCount (t : Strand) (d : Fin 32) : Word := t.rg d - 1

/-- `loop`: the target is checked only when it branches (R98, R99). -/
def execLoop (gd : Guard) (d : Fin 32) (off : Disp) (s : State) :=
  runJ gd off.len s (fun s =>
    let c := loopCount s.me d
    let s' := s.modMe (fun x => x.wg d c)
    if c = 0 then .ok (s', s.me.pc + BitVec.ofNat 57 off.len) else jumpTo (relTarget s.me off) s')

/-- `trap`: the software trap with its code (R100). -/
def execTrap (gd : Guard) (code : BitVec 16) (s : State) :=
  runW gd 8 s (fun _ => raise { code := 0x07, detail := code.setWidth 64 })

end Sys2Proof.Machine
end

