-- ==== Sys2Proof/Machine/Supervise.lean ====
section
/-! DEFINITION. What reaches a memory point from a core's outward queue: STORE_PERFORMED, the writes of the
supervision page (R230, R238, R239), of the debug windows (R232) and of the vein cells (R219), PACKET_QUEUE_ADMIT
(R226) and CLUSTER_RESET (R235). -/

namespace Sys2Proof.Machine

/-! ### Entries by the place they write -/

/-- The place of an entry's first byte, and its address there. -/
def OutEntry.first (o : OutEntry) : Option Loc := o.e.locs.head?

/-- The dwords of an entry of 8 or 16 bytes, with their addresses. -/
def OutEntry.dwords (o : OutEntry) : List (Nat × Word) :=
  (chunks 8 2 o.e.bytes).map (fun bs =>
    ((bs.head?.map (fun x => x.1.addr)).getD 0, BitVec.ofNat 64 (leNat (bs.map Prod.snd))))

/-- Entry `id` of core `c`, when it is the next to reach a memory point. -/
def State.nextOut (s : State) (c id : Nat) : Option OutEntry :=
  if (s.core c).firstOut id then s.outEntry c id else none

/-- Offsets of the supervision page that a write acts on. -/
def supActs (off : Nat) : Bool := off == 0 || (decide (0x40 ≤ off) && decide (off < 0x60)) || off == 0x60

/-- The dwords that entry `o` writes in the supervision page at offsets from `lo` to below `hi`; none when it writes
none. -/
def OutEntry.supDwords (o : OutEntry) (lo hi : Nat) : Option (List (Nat × Word)) :=
  match o.first with
  | some ⟨.sup, _⟩ =>
    let ds := o.dwords.filter (fun d => decide (lo ≤ d.1) && decide (d.1 < hi))
    if o.e.op == .store && !ds.isEmpty then some ds else none
  | _ => none

/-- STORE_PERFORMED: a store to memory, a gang window, a handle's range or another module takes its next step; an
append to a work list is made; a write of the supervision page that acts on nothing is dropped. -/
def State.storeStep (s : State) (core id : Nat) : Option State :=
  match s.outEntry core id with
  | none => none
  | some o => match o.e.op with
    | .store => match o.first with
      | some ⟨.sup, _⟩ =>
        if (s.core core).firstOut id && !o.dwords.any (fun d => supActs d.1) then some (s.dropOut core id) else none
      | _ => s.perform core o
    | .wapp list item d =>
      if (s.core core).firstOut id then some (s.appendItem core o list item d) else none
    | _ => none

def execStorePerformed (core id : Nat) (s : State) := runE s (s.storeStep core id)

/-! ### The packet queue (R226, R230) -/

/-- PACKET_QUEUE_ADMIT: the oldest packet that a core holds takes a free slot, when no core of the cluster holds one that
was sent before it; one with no receiver stays held. -/
def State.admitHeld (s : State) (c : Nat) : Option State :=
  match (s.core c).held with
  | [] => none
  | p :: ps =>
    let k := s.cluster (cluOf c)
    match k.receiver (packetDepth p) with
    | none => none
    | some pos =>
      if k.pqCount < 64 && (s.heldIn (cluOf c)).all (fun q => decide (packetSeq p ≤ packetSeq q)) then
        some ((s.modCore c (fun x => { x with held := ps })).enqueuePacket (cluOf c) p pos)
      else none

def execPacketQueueAdmit (core : Nat) (s : State) := runE s (s.admitHeld core)

/-- A write of `pqstat`: the oldest packet leaves; bit 14 clears `mdrop`. -/
def Cluster.popPacket (k : Cluster) (x : Word) : Cluster :=
  { k with
    pqHead := if k.pqCount = 0 then k.pqHead else (k.pqHead + 1) % 64
    pqCount := k.pqCount - 1
    mdrop := k.mdrop && !x.getLsbD 14 }

/-- PQSTAT_WRITE. -/
def State.writePqstat (s : State) (core id : Nat) : Option State :=
  match s.nextOut core id with
  | none => none
  | some o => (o.supDwords 0 8).map (fun ds =>
      (ds.foldl (fun s d => s.modCluster (cluOf core) (fun k => k.popPacket d.2)) s).dropOut core id)

def execPqstatWrite (core id : Nat) (s : State) := runE s (s.writePqstat core id)

/-! ### Containment (R238) -/

/-- The positions that a rectangle holds. -/
def rectHolds (r : Nat) : List Nat := (List.range 36).filter (inRect r)

/-- A containment register takes a value: rows and columns from 0 to 5 in order, and neither the supervisor nor a
chain entry in the rectangle. (DEDUCED, log 39) -/
def Cluster.contOk (k : Cluster) (r : Nat) : Bool :=
  decide (r % 8 ≤ r / 64 % 8) && decide (r / 64 % 8 ≤ 5) && decide (r / 8 % 8 ≤ r / 512 % 8)
    && decide (r / 512 % 8 ≤ 5) && !inRect r k.sup && !(List.range 4).any (fun i => (k.entry i).any (inRect r))

/-- The bits of a containment register that hold a value. -/
def contBits (x : Word) : Word := BitVec.ofNat 64 (2 ^ 63 * b2n (x.getLsbD 63) + x.toNat % 2 ^ 12)

/-- The leader of a pair goes on unpaired, and its shadow is in no pair. (DEDUCED, log 45) -/
def State.leavePair (s : State) (p : PairRec) : State :=
  { (s.releaseHeld p.leader).modCore p.leader (fun k => { k with pairOf := none, undo := [], whole := [] }) with
    pairs := s.pairs.filter (fun q => q.leader != p.leader) }

/-- The cores of a contained rectangle: their gangs end with cause 1, and each freezes, leaves its pair and loses the
stores in its strands' buffers and its pair's store queue. (DEDUCED, log 35, 39) -/
def State.containCores (s : State) (clu : Nat) (r : Nat) : State :=
  let cs := (rectHolds r).map (fun p => 36 * clu + p)
  let s := s.endTasks (s.tasksOn cs.contains) (some (1, 0))
  let s := (s.pairs.filter (fun p => cs.contains p.shadow)).foldl State.leavePair s
  cs.foldl (fun s c => s.modCore c (fun k => k.freed true)) s

/-- A write of `cont` number `i`. (DEDUCED, log 39) -/
def State.putCont (s : State) (clu i : Nat) (x : Word) : State :=
  if !(s.cluster clu).contOk x.toNat then s
  else
    let s := s.modCluster clu (fun k => { k with cont := k.cont.setIfInBounds i (contBits x) })
    if x.getLsbD 63 then s.containCores clu x.toNat else s

/-- CONTAINMENT_WRITE. -/
def State.writeCont (s : State) (core id : Nat) : Option State :=
  match s.nextOut core id with
  | none => none
  | some o => (o.supDwords 0x40 0x60).map (fun ds =>
      ds.foldl (fun s d => s.putCont (cluOf core) ((d.1 - 0x40) / 8) d.2) (s.dropOut core id))

def execContainmentWrite (core id : Nat) (s : State) := runE s (s.writeCont core id)

/-! ### Error injection (R239) -/

/-- A word of local store gets one more wrong bit: two make it uncorrectable (R151, R152). -/
def Core.spoilBit (k : Core) (w bit : Nat) : Core :=
  match k.weak.find? (fun x => x.1 == w) with
  | none => { k with weak := (w, bit) :: k.weak }
  | some x =>
    if x.2 = bit then { k with weak := k.weak.filter (fun y => y.1 != w) }
    else { k with weak := k.weak.filter (fun y => y.1 != w), bad := w :: k.bad.filter (fun y => y != w) }

/-- An error armed in cluster `clu` whose making waits on nothing is made: kinds 1 and 2 in a word of local store.
(DESIGN CHOICE, log 40) -/
def State.makeError (s : State) (clu : Nat) : State :=
  let x := (s.cluster clu).inject.toNat
  let c := 36 * clu + injPos x
  let w := x % 2 ^ 17
  let inside := decide (injPos x < 36) && decide (8 * w < s.lsCap c)
  if !bitAt x 63 then s
  else match injKind x with
    | 1 => if inside then (s.modCore c (fun k => k.spoilBit w (bitsN x 22 17))).disarm clu else s
    | 2 => if inside then
        (s.modCore c (fun k => { k with bad := w :: k.bad.filter (fun y => y != w) })).disarm clu else s
    | _ => s

/-- The bits of `inject` that hold a value. -/
def injectBits (x : Word) : Word := BitVec.ofNat 64 (2 ^ 53 * (x.toNat / 2 ^ 53) + x.toNat % 2 ^ 26)

/-- INJECT_WRITE: ignored unless the boot firmware has enabled injection.
(DESIGN CHOICE, log 40) -/
def State.writeInject (s : State) (core id : Nat) : Option State :=
  match s.nextOut core id with
  | none => none
  | some o => (o.supDwords 0x60 0x68).map (fun ds =>
      let s := s.dropOut core id
      if !s.injectOk then s
      else ds.foldl (fun s d =>
        (s.modCluster (cluOf core) (fun k => { k with inject := injectBits d.2 })).makeError (cluOf core)) s)

def execInjectWrite (core id : Nat) (s : State) := runE s (s.writeInject core id)

/-! ### The debug window (R232) and the cells (R219) -/

/-- DEBUG_WINDOW_WRITE. -/
def State.writeDebug (s : State) (core id : Nat) : Option State :=
  match s.nextOut core id with
  | none => none
  | some o => match o.first with
    | some ⟨.dbg p, _⟩ =>
      some (o.dwords.foldl (fun s d =>
        s.modCore (36 * cluOf core + p) (fun k => k.dbgWrite (s.lsCap (36 * cluOf core + p)) d.1 d.2)) (s.dropOut core id))
    | _ => none

def execDebugWindowWrite (core id : Nat) (s : State) := runE s (s.writeDebug core id)

/-- A store to the image of a cell: of V with 16 bytes, or of the anchor with 8. -/
def State.writeCell (s : State) (core id : Nat) (v : Bool) : Option State :=
  match s.nextOut core id with
  | none => none
  | some o => match o.e.op, o.first with
    | .store, some ⟨.cell, a⟩ =>
      if v != (a % 32 == 0) then none
      else
        let n := leNat (o.e.bytes.map Prod.snd)
        some ((s.modCluster (cluOf core) (fun k =>
          let x := k.cell (a / 32)
          let w := if v then x.w.setV (BitVec.ofNat 128 n) else anchorWrite (BitVec.ofNat 64 n)
          k.setCell (a / 32) { x with w := w, bad := x.bad && !v })).dropOut core id)
    | _, _ => none

/-- VEIN_CELL_V_WRITE. -/
def execVeinCellVWrite (core id : Nat) (s : State) := runE s (s.writeCell core id true)

/-- VEIN_CELL_ANCHOR_WRITE. -/
def execVeinCellAnchorWrite (core id : Nat) (s : State) := runE s (s.writeCell core id false)

/-! ### Cluster reset (R235) -/

/-- CLUSTER_RESET: a halted cluster whose stores have left it starts again, its fused fields kept.
(DEDUCED, log 41) -/
def State.resetCluster (s : State) (clu : Nat) : Option State :=
  let k := s.cluster clu
  if k.halt && (coresOf clu).all (fun c => (s.core c).outq.isEmpty) then
    some (((coresOf clu).foldl (fun s c => s.setCore c {}) s).setCluster clu { harvest := k.harvest, stacked := k.stacked, sup := k.sup })
  else none

def execClusterReset (clu : Nat) (s : State) := runE s (s.resetCluster clu)

end Sys2Proof.Machine
end

