-- ==== Sys2Proof/Machine/Lapidary.lean ====
section
/-! DEFINITION. Handles: `hnew`, `hfree`, `hwiden`, `hnarrow`, `hquery`, `hexport`, `himport` (R293 to R303), the
events LAPIDARY_REQUEST and LAPIDARY_REREPRESENT (R304 to R306), and the SC sequencer's events SC_WINDOW_END and
SC_WINDOW_DELIVER (R312). -/

namespace Sys2Proof.Machine

/-! ### Issue (R297) -/

/-- A request enters the store buffer as a release entry of module scope, and D waits for the reply. -/
def State.request (s : State) (r : LapReq) (d : Fin 32) : Res State := do
  s.bufRoom 1
  let id := s.nextId
  .ok ((s.pushBuf { id := 0, op := .lap r d, rel := true, scope := .mod }).await id d)

/-- The operation set that an instruction names. -/
def opsOf (t : Strand) : OpsSrc → BitVec 16
  | .imm m => m
  | .reg b => (t.rg b).setWidth 16

def State.named (s : State) (a : Fin 32) : Res Handle := s.nameHandle s.me.priv s.myCore.ctx (s.me.rg a)

def hnewBody (d a : Fin 32) (ops : OpsSrc) (s : State) : Res State := do
  let off := s.me.rg a
  trapIf (off.toNat % 16 != 0) (Trap.misaligned off)
  let (bs, s) ← s.readPayload (s.myCore.lsRange off.toNat 32)
  s.request (.hnew off.toNat (opsOf s.me ops) s.myCore.e4m3 bs) d

/-- `hnew` (R297, R298). -/
def execHnew (gd : Guard) (d a : Fin 32) (ops : OpsSrc) (s : State) := runW gd 8 s (hnewBody d a ops)

/-- `hfree` (R297, R299). -/
def execHfree (gd : Guard) (d a : Fin 32) (s : State) :=
  runW gd 8 s (fun s => do
    let h ← s.named a
    s.request (.hfree h.v) d)

/-- `hwiden` (R297, R300). -/
def execHwiden (gd : Guard) (d a : Fin 32) (ops : OpsSrc) (s : State) :=
  runW gd 8 s (fun s => do
    let h ← s.named a
    s.request (.hwiden h.v (opsOf s.me ops)) d)

/-- A set breaks the rules of R298 on ladder words. -/
def breaksLw (rfmt : Nat) (ops : BitVec 16) : Bool :=
  if ops.getLsbD 7 then rfmt == 0 || ops.getLsbD 2 || ops.getLsbD 6 || ops.getLsbD 8 || ops.getLsbD 9 else rfmt != 0

/-- `hnarrow` at issue: the set loses its operations now, unless a record handle would lose LW. -/
def hnarrowBody (d a : Fin 32) (ops : OpsSrc) (s : State) : Res State := do
  let h ← s.named a
  let m := opsOf s.me ops
  let n := h.ops &&& ~~~m
  let refused := breaksLw h.rfmt n
  let s ← s.request (.hnarrow h.v refused (m == 0)) d
  .ok (if refused then s else s.modHandle h.v (fun h => { h with ops := n }))

/-- `hnarrow` (R297, R300). -/
def execHnarrow (gd : Guard) (d a : Fin 32) (ops : OpsSrc) (s : State) := runW gd 8 s (hnarrowBody d a ops)

/-- `hquery` (R297, R301). -/
def execHquery (gd : Guard) (d a : Fin 32) (sel : Fin 16) (s : State) :=
  runW gd 8 s (fun s => do
    trapIf (decide (4 < sel.val) || (decide (3 ≤ sel.val) && !s.me.priv)) (Trap.illegalInstruction (pcWord s.me))
    let h ← s.named a
    s.request (.hquery h.v sel.val) d)

/-- `hexport` (R297, R302). -/
def execHexport (gd : Guard) (d a b : Fin 32) (s : State) :=
  runW gd 8 s (fun s => do
    let h ← s.named a
    needOps h [15]
    s.request (.hexport h.v (s.me.rg b)) d)

/-- `himport` (R297, R302). -/
def execHimport (gd : Guard) (d a : Fin 32) (s : State) :=
  runW gd 8 s (fun s => s.request (.himport (s.me.rg a)) d)

/-! ### The requests at the Lapidary -/

/-- A shape descriptor keeps R296. -/
def shapeOk (bs : List Byte) : Bool :=
  let e (i : Nat) : Nat := n32At bs (4 * i)
  let rank := (bs.getD 16 0).toNat
  let ty := (bs.getD 17 0).toNat
  let rfmt := (bs.getD 18 0).toNat
  (List.range 4).all (fun i => decide (1 ≤ e i) && (decide (i < rank) || e i == 1)) && decide (1 ≤ rank)
    && decide (rank ≤ 4) && decide (ty < 16) && decide (rfmt ≤ 4) && (rfmt == 0 || ty == 0)
    && (bs.drop 19).all (fun b => b == 0)

/-- Live handles of the module. -/
def State.liveHandles (s : State) : Nat := (s.handles.filter (fun h => !h.freed)).length

/-- The next handle value, unless a handle has it already. (DESIGN CHOICE, log 11) -/
def State.nextHandle (s : State) : Option Word :=
  let v : Word := BitVec.ofNat 64 (2 ^ 63 + (Config.handleBits s.draws).toNat)
  if (s.handle? v).isSome || 1048576 ≤ s.liveHandles then none else some v

/-- The module parts of the local stores of the region of `ctx` hold `bits` bits; there is none on a Z8C (R298, R340). -/
def State.pinFits (s : State) (ctx bits : Nat) : Bool :=
  s.part != 0x0108
    && decide (bits ≤ 8 * ((s.region ctx).map (fun x => s.lsCap x.2 - 4096 * (s.ctx ctx).lssize)).sum)

/-- `hnew`: the reply and the new handle (R298). (DESIGN CHOICE, log 11, 12; DEDUCED, log 44) -/
def State.makeHandle (s : State) (ctx : Nat) (ops : BitVec 16) (mode : Bool) (bs : List Byte) : Word × State :=
  let rfmt := (bs.getD 18 0).toNat
  if !shapeOk bs then (1, s)
  else if breaksLw rfmt ops then (3, s)
  else
    let h : Handle :=
      { v := 0, ctx := ctx, ops := ops, ty := Decode.tyOf (bs.getD 17 0).toNat, rfmt := rfmt
        e := #v[n32At bs 0, n32At bs 4, n32At bs 8, n32At bs 12], rank := (bs.getD 16 0).toNat, mode := mode, classes := 0 }
    let bits := h.count * h.bits
    let pinned := ops.getLsbD 13 && !s.pinFits ctx bits
    match s.nextHandle with
    | none => (2, s.draw)
    | some v =>
      if pinned || !Config.tiersHold s.draws then (2, s.draw)
      else
        let m := if dense bits ops then 1 else s.chooseClasses ops
        let base := if ops.getLsbD 10 then Config.handleBase s.draws else 0
        (v, { s.draw with handles := s.handles ++ [{ h with v := v, classes := m, base := base }] })

/-- A running or saved task other than `me` holds a live entry on the handle. -/
def State.heldElsewhere (s : State) (me : Option Nat) (v : Word) : Bool :=
  s.tasks.any (fun t => some t.id != me && t.live && t.entries.any (fun e => e.h == v && !e.retired))

def statusAndSet (st : Nat) (ops : BitVec 16) : Word := BitVec.ofNat 64 (2 ^ 32 * st + ops.toNat)

/-- The set pins a handle that it did not, in a region with no room for it (R340). -/
def State.pinRefused (s : State) (h : Handle) (n : BitVec 16) : Bool :=
  n.getLsbD 13 && !h.has 13 && !s.pinFits h.ctx (h.count * h.bits)

/-- The classes in use serve set `n` (R295, R300, R339, R340). -/
def State.servesSet (s : State) (h : Handle) (n : BitVec 16) : Bool :=
  if n = h.ops then true
  else if s.pinRefused h n then false
  else if h.classes = 1 && (n &&& ~~~h.ops) &&& 0x70 != 0 then false
  else if forcedClasses n &&& ~~~h.classes != 0 then false
  else Config.serves s.draws

/-- The tiers hold a representation for the widened set (R339, R340). -/
def State.holdsSet (s : State) (h : Handle) (n : BitVec 16) : Bool :=
  if s.pinRefused h n then false
  else if h.classes = 1 && (n &&& ~~~h.ops) &&& 0x70 != 0 then true
  else Config.tiersHold s.draws

/-- The base of the virtual range of a handle whose set is to be `n`: one that gains AD receives its range (R294).
(DESIGN CHOICE, log 11) -/
def State.baseFor (s : State) (h : Handle) (n : BitVec 16) : Word :=
  if n.getLsbD 10 && !h.has 10 then Config.handleBase s.draws else h.base

/-- `hwiden` at its place in the order of `h`. (DESIGN CHOICE, log 12; DEDUCED, log 44) -/
def State.widen (s : State) (h : Handle) (ops : BitVec 16) : Word × State :=
  let n := h.ops ||| ops
  if h.freed then (statusAndSet 4 0, s)
  else if breaksLw h.rfmt n then (statusAndSet 3 h.ops, s)
  else if s.servesSet h n then
    (statusAndSet 0 n, (s.modHandle h.v (fun h => { h with ops := n, base := s.baseFor h n })).draw)
  else if !s.holdsSet h n then (statusAndSet 2 h.ops, s.draw)
  else
    (statusAndSet 1 n, (s.modHandle h.v (fun h =>
      { h.rerepresent (s.chooseClasses n) with ops := n, base := s.baseFor h n })).draw)

/-- `hnarrow` at its place; one that names no operation answers 0 (R303).
(DESIGN CHOICE, log 12) -/
def State.narrowed (s : State) (h : Handle) (refused none' : Bool) : Word × State :=
  if h.freed then (statusAndSet 4 0, s)
  else if refused then (statusAndSet 3 h.ops, s)
  else if none' then (statusAndSet 0 h.ops, s)
  else if Config.narrowMoves s.draws then
    (statusAndSet 1 h.ops, (s.modHandle h.v (fun h => h.rerepresent (s.chooseClasses h.ops))).draw)
  else (statusAndSet 0 h.ops, s.draw)

/-- A doubleword that another module's Lapidary gives, of the representation of a handle exported there. -/
def State.outsideDword (s : State) : Nat := leNat ((List.range 8).map (Config.outsideByte s.nextId))

/-- The dies that may hold slices of handles: those that have not parked (R285). -/
def State.sliceDies (s : State) : BitVec 8 := BitVec.ofNat 8 (s.dieMask (fun d => d.power != .parked && d.power != .offline))

/-- Selector 3 of `hquery` on the handle that holds the data (R301). -/
def State.placeReply (s : State) (r : Handle) : Nat :=
  if r.outside.isSome then s.outsideDword % 2 ^ 48
  else r.classes.toNat + 2 ^ 8 * (Config.slices s.draws &&& s.sliceDies).toNat + 2 ^ 16 * r.rerep

/-- The reply of `hquery` on handle `h`, whose data handle `r` holds (R301).
(DESIGN CHOICE, log 12) -/
def State.queryReply (s : State) (h r : Handle) (q : Nat) : Word :=
  if h.freed || r.freed then BitVec.allOnes 64
  else BitVec.ofNat 64 (match q with
    | 0 => h.ops.toNat + 2 ^ 16 * tyNum h.ty + 2 ^ 20 * h.rfmt + 2 ^ 24 * (h.rank - 1)
        + 2 ^ 26 * b2n (h.rfmt == 0 && h.ty == .e4m3 && h.mode) + 2 ^ 27 * b2n h.imported.isSome
    | 1 => h.count % 2 ^ 48
    | 2 => if h.has 10 then h.base.toNat else 0
    | 3 => s.placeReply r
    | _ => (Config.storage s.draws).toNat)
where
  tyNum (t : Ty) : Nat := ((List.range 16).find? (fun i => Decode.tyOf i == t)).getD 0

/-- `hexport` by context `ctx` at its place: the token names the physical module that the context's route table gives for
the coordinates, or none (R302). (DESIGN CHOICE, log 11; DEDUCED, log 44) -/
def State.exportTo (s : State) (ctx : Nat) (h : Handle) (dest : Word) : Word × State :=
  if h.freed then (4, s)
  else if 2 ^ 30 ≤ dest.toNat then (1, s)
  else
    let v : Word := BitVec.ofNat 64 (2 ^ 62 + (Config.tokenBits s.draws).toNat)
    let n := dest.toNat
    let i := coordOf n 0 + 16 * coordOf n 1 + 256 * coordOf n 2
    let known := decide (coordOf n 0 < 16) && decide (coordOf n 1 < 16) && decide (i < 4608)
    (v, { s.draw with tokens := s.tokens ++ [⟨v, h.v, if known then s.routeOf ctx i else none, n / 2 ^ 24⟩] })

/-- `himport` of a token in context `ctx` (R302). (DESIGN CHOICE, log 11; DEDUCED, log 44) -/
def State.importToken (s : State) (ctx : Nat) (token : Word) : Word × State :=
  let found : Option Handle := match s.tokens.find? (fun t => t.v == token) with
    | some t => if t.dest = some s.self.toNat ∧ t.ctx = ctx then (s.dataOf t.h).map (fun r =>
        { r with rerep := 0, base := 0, data := [], bad := [], holder := none, imported := some s.self.toNat, source := r.v })
      else none
    | none => ((Config.foreign s.draws ctx token).filter (fun x => x.mod != s.self)).map Foreign.handle
  match found with
  | none => (1, s.draw)
  | some r => match s.nextHandle with
    | none => (2, s.draw)
    | some v =>
      let h : Handle := { r with v := v, ctx := ctx, ops := r.ops &&& 0x0299, token := token }
      (v, { s.draw with handles := s.handles ++ [h] })
where
  Foreign.handle (x : Config.Foreign) : Handle :=
    { v := 0, ctx := 0, ops := x.ops, ty := x.ty, rfmt := x.rfmt, e := x.e, rank := x.rank + 1, mode := x.mode
      classes := 0, imported := some x.mod.toNat, source := x.handle, outside := some 0 }

/-- The handle whose order a request takes a place in. -/
def LapReq.handle : LapReq → Option Word
  | .hfree h | .hwiden h _ | .hnarrow h _ _ | .hquery h _ | .hexport h _ => some h
  | .hnew .. | .himport _ => none

/-- What a request asks of the exporter of its handle (R351). -/
def LapReq.ask : LapReq → HandleAsk
  | .hwiden _ ops => .widen ops
  | .hnarrow .. => .narrow
  | .hquery _ q => .query q
  | .hexport .. => .hand
  | .hfree _ | .hnew .. | .himport _ => .free

/-- A request is carried out: its reply and the state. -/
def State.carryOut (s : State) (o : OutEntry) (r : LapReq) : Word × State :=
  match r with
  | .hnew _ ops mode bs => s.makeHandle o.ctx ops mode bs
  | .himport t => s.importToken o.ctx t
  | .hfree v => match s.handle? v with
    | none => (3, s)
    | some h => if h.freed || s.heldElsewhere o.task v then (3, s)
      else (0, s.modHandle v (fun h => { h with freed := true, data := [], bad := [] }))
  | .hwiden v ops => match s.handle? v with
    | none => (statusAndSet 4 0, s)
    | some h => s.widen h ops
  | .hnarrow v refused none' => match s.handle? v with
    | none => (statusAndSet 4 0, s)
    | some h => s.narrowed h refused none'
  | .hquery v q => match s.handle? v, s.handle? (s.rootOf v) with
    | some h, some r => (s.queryReply h r q, s.draw)
    | _, _ => (BitVec.allOnes 64, s)
  | .hexport v dest => match s.handle? v with
    | none => (4, s)
    | some h => s.exportTo o.ctx h dest

/-- LAPIDARY_REQUEST: the drained request takes its place in the handle's order, once no operation holds it. -/
def State.lapidary (s : State) (core id : Nat) : Option State :=
  match s.nextOut core id with
  | none => none
  | some o => match o.e.op with
    | .lap r d =>
      if r.handle.any (fun v => (s.handle? (s.rootOf v)).any (fun h => h.holder.isSome)) then none
      else
        let s := match r.handle with
          | some v => s.askExporter v (fun m h => .lap m h.source r.ask)
          | none => s
        let x := s.carryOut o r
        some ((x.2.replyAcquire core o.strand id d .mod x.1).dropOut core id)
    | _ => none

def execLapidaryRequest (core id : Nat) (s : State) := runE s (s.lapidary core id)

/-- LAPIDARY_REREPRESENT: a move of the Lapidary's own accord, into classes that hold those its set forces; a handle that
R339 places in class 0 stays there. -/
def execLapidaryRerepresent (handle : Word) (classes : BitVec 8) (s : State) :=
  runE s (match s.handle? handle with
    | none => none
    | some h =>
      if h.freed || h.holder.isSome || forcedClasses h.ops &&& ~~~classes != 0
        || (h.classes == 1 && dense (h.count * h.bits) h.ops && classes != 1) then none
      else some (s.modHandle handle (fun h => h.rerepresent classes)))

/-! ### The SC sequencer (R312) -/

/-- SC_WINDOW_END: the window of announcements closes. -/
def execScWindowEnd (s : State) : Host.Outcome State Fault Refusal :=
  .next { s with scFlight := s.scFlight ++ [s.scWindow], scWindow := [] }

/-- The order of a window: by logical core number, then by sequence number. -/
def insertAnnounce (a : Announce) : List Announce → List Announce
  | [] => [a]
  | x :: xs =>
    if a.lnum < x.lnum || (a.lnum == x.lnum && decide (a.seq ≤ x.seq)) then a :: x :: xs else x :: insertAnnounce a xs

/-- SC_WINDOW_DELIVER: the accesses of the oldest closed window join the order in which they are performed. -/
def execScWindowDeliver (s : State) :=
  runE s (match s.scFlight with
    | [] => none
    | w :: ws => some { s with
        scFlight := ws
        scOrder := s.scOrder.filter (fun a => !s.scDone a) ++ w.foldr insertAnnounce [] })

end Sys2Proof.Machine
end

