-- ==== Sys2Proof/Machine/Sha.lean ====
section
/-! DEFINITION. SHA-256, which the boot ROM's measurements use (R330). The manual names the function; its text is the
public standard's (PRESUMED, log 56). -/

namespace Sys2Proof.Machine

/-- The round constants: the first 32 bits of the fractions of the cube roots of the first 64 primes. -/
def shaK : List (BitVec 32) :=
  [0x428A2F98, 0x71374491, 0xB5C0FBCF, 0xE9B5DBA5, 0x3956C25B, 0x59F111F1, 0x923F82A4, 0xAB1C5ED5]
    ++ [0xD807AA98, 0x12835B01, 0x243185BE, 0x550C7DC3, 0x72BE5D74, 0x80DEB1FE, 0x9BDC06A7, 0xC19BF174]
    ++ [0xE49B69C1, 0xEFBE4786, 0x0FC19DC6, 0x240CA1CC, 0x2DE92C6F, 0x4A7484AA, 0x5CB0A9DC, 0x76F988DA]
    ++ [0x983E5152, 0xA831C66D, 0xB00327C8, 0xBF597FC7, 0xC6E00BF3, 0xD5A79147, 0x06CA6351, 0x14292967]
    ++ [0x27B70A85, 0x2E1B2138, 0x4D2C6DFC, 0x53380D13, 0x650A7354, 0x766A0ABB, 0x81C2C92E, 0x92722C85]
    ++ [0xA2BFE8A1, 0xA81A664B, 0xC24B8B70, 0xC76C51A3, 0xD192E819, 0xD6990624, 0xF40E3585, 0x106AA070]
    ++ [0x19A4C116, 0x1E376C08, 0x2748774C, 0x34B0BCB5, 0x391C0CB3, 0x4ED8AA4A, 0x5B9CCA4F, 0x682E6FF3]
    ++ [0x748F82EE, 0x78A5636F, 0x84C87814, 0x8CC70208, 0x90BEFFFA, 0xA4506CEB, 0xBEF9A3F7, 0xC67178F2]

/-- The first hash value: the same of the square roots of the first 8 primes. -/
def shaInit : Vector (BitVec 32) 8 :=
  #v[0x6A09E667, 0xBB67AE85, 0x3C6EF372, 0xA54FF53A,
    0x510E527F, 0x9B05688C, 0x1F83D9AB, 0x5BE0CD19]

/-- The message schedule from `w` on, `n` words longer; the latest word stands first. -/
def shaExpand (w : List (BitVec 32)) : Nat → List (BitVec 32)
  | 0 => w
  | n + 1 =>
    let u (k : Nat) : BitVec 32 := w.getD k 0
    let s0 := (u 14).rotateRight 7 ^^^ (u 14).rotateRight 18 ^^^ (u 14) >>> 3
    let s1 := (u 1).rotateRight 17 ^^^ (u 1).rotateRight 19 ^^^ (u 1) >>> 10
    shaExpand ((u 15 + s0 + u 6 + s1) :: w) n

/-- One round, with the sum of its constant and its schedule word. -/
def shaRound (h : Vector (BitVec 32) 8) (kw : BitVec 32) : Vector (BitVec 32) 8 :=
  let e := h[4]
  let a := h[0]
  let t1 := h[7] + (e.rotateRight 6 ^^^ e.rotateRight 11 ^^^ e.rotateRight 25) + ((e &&& h[5]) ^^^ (~~~e &&& h[6])) + kw
  let t2 := (a.rotateRight 2 ^^^ a.rotateRight 13 ^^^ a.rotateRight 22) + ((a &&& h[1]) ^^^ (a &&& h[2]) ^^^ (h[1] &&& h[2]))
  #v[t1 + t2, a, h[1], h[2], h[3] + t1, e, h[5], h[6]]

/-- A block of 64 bytes. -/
def shaBlock (h : Vector (BitVec 32) 8) (b : List Byte) : Vector (BitVec 32) 8 :=
  let m := (List.range 16).map (fun i => BitVec.ofNat 32 (leNat ((b.drop (4 * i)).take 4).reverse))
  let w := (shaExpand m.reverse 48).reverse
  let r := (List.zipWith (fun k x => k + x) shaK w).foldl shaRound h
  Vector.ofFn (fun i => h[i] + r[i])

/-- SHA-256 of a message: its 32 bytes in order. (PRESUMED, log 56) -/
def sha256 (m : List Byte) : List Byte :=
  let z := (119 - m.length % 64) % 64
  let p := m ++ [0x80] ++ List.replicate z 0 ++ (leBytes 8 (8 * m.length)).reverse
  let h := (List.range (p.length / 64)).foldl (fun h i => shaBlock h ((p.drop (64 * i)).take 64)) shaInit
  h.toList.flatMap (fun x => (leBytes 4 x.toNat).reverse)

/-- A measurement register extended with an image's hash (R330); byte 0 is the least significant (R6).
(PRESUMED, log 56) -/
def extendMeasure (old hash : BitVec 256) : BitVec 256 :=
  BitVec.ofNat 256 (leNat (sha256 (leBytes 32 old.toNat ++ leBytes 32 hash.toNat)))

end Sys2Proof.Machine
end

