-- ==== Sys2Proof/Machine/Power.lean ====
section
/-! DEFINITION. The module's registers at the hubs and what stands behind them: power (R318 to R322), parking (R285,
R286), contexts (R323, R324), invalidation (R325), the other registers, host memory writes (R328), attestation (R331)
and module reset (R330). -/

namespace Sys2Proof.Machine

/-- A write of register `n` takes effect at the hubs as `f` says; an unprivileged one changes nothing. -/
def State.hubWrite (s : State) (w : RegWrite) (ok : Nat → Bool) (f : RegPut → State → State) : Option State :=
  if ok w.reg then (s.takeWrite w).map (fun s => if s.mayWrite w then f (putOfWrite w) s else s) else none

/-! ### Power (R318 to R322) -/

/-- The ceiling takes value `c`: each average obeys the larger of old and new for 10 ms, 1,250 ticks of 8 µs.
(DESIGN CHOICE, log 5) -/
def State.setCeil (s : State) (c : Nat) : State :=
  { s with ceil := BitVec.ofNat 11 c, ceilPast := (s.ceil, 1250) :: s.ceilPast }

/-- PCAP_WRITE. -/
def State.pcap (s : State) (w : RegWrite) : Option State :=
  s.hubWrite w (fun n => n == 0x81) (fun p s =>
    let c := p.rw 0 11 s.ceil.toNat
    let free := !(s.lock && w.core.isSome)
    let s := if free && p.mask % 2 ^ 11 != 0 && decide (300 ≤ c) && decide (c ≤ 1750) && c != s.ceil.toNat then
      s.setCeil c else s
    { s with lock := s.lock || (bitAt p.mask 63 && bitAt p.val 63) })

def execPcapWrite (w : RegWrite) (s : State) := runE s (s.pcap w)

/-- The request of die `d`. -/
def State.reqOf (s : State) (d : Nat) : Nat := bitsN s.req.toNat (4 * d + 3) (4 * d)

/-- `%pst.req` after a write: a nibble of 8 to 15 leaves its die's request. -/
def nibblesTaken (old new : Nat) : Nat :=
  (List.range 8).foldl (fun a d =>
    let x := new / 2 ^ (4 * d) % 16
    a + 2 ^ (4 * d) * (if x < 8 then x else old / 2 ^ (4 * d) % 16)) 0

/-- PST_REQUEST. -/
def State.pst (s : State) (w : RegWrite) : Option State :=
  s.hubWrite w (fun n => n == 0x82) (fun p s =>
    { s with req := BitVec.ofNat 32 (nibblesTaken s.req.toNat (p.rw 0 32 s.req.toNat)) })

def execPstRequest (w : RegWrite) (s : State) := runE s (s.pst w)

/-- The bound on the 10 ms average that holds now (R319). (DESIGN CHOICE, log 5) -/
def State.bound (s : State) : Nat := s.ceilPast.foldl (fun m x => max m x.1.toNat) s.ceil.toNat

/-- The fastest state of die `d` no faster than its request whose predicted draw keeps R319, 6 where none does; 7 when that
is asked for (R322). -/
def State.fastest (s : State) (a1 a10 : BitVec 11) (d : Nat) : Nat :=
  let req := s.reqOf d
  if 7 ≤ req then 7 else ((List.range 6).find? (fun p => decide (req ≤ p) &&
    Config.drawKept (s.dies.toList.map Die.fcast) a1 a10 s.bound d p)).getD 6

/-- The governor steps a running die to a state (R322). (DESIGN CHOICE, log 5) -/
def Die.govern (d : Die) (pick : Nat) : Die :=
  if d.power == .online && d.stepTo.isNone && decide (pick < 7) && d.cur != BitVec.ofNat 4 pick then
    { d with stepTo := some (BitVec.ofNat 4 pick) } else d

/-- The states that the governor chooses for the dies. -/
def State.picks (s : State) (a1 a10 : BitVec 11) : List Nat := (List.range 8).map (s.fastest a1 a10)

/-- GOVERNOR_TICK: the measured averages, within R319, and the state of each die. -/
def State.governor (s : State) (a1 a10 : BitVec 11) (choice : List (Fin 8)) : Option State :=
  if s.bound < a10.toNat || 21 * s.bound < 20 * a1.toNat || choice.map Fin.val != s.picks a1 a10 then none
  else some { s with
    a1 := a1
    a10 := a10
    ceilPast := (s.ceilPast.map (fun x => (x.1, x.2 - 1))).filter (fun x => x.2 != 0)
    dies := s.dies.mapFinIdx (fun i d _ => d.govern (choice.getD i 7).val) }

def execGovernorTick (a1 a10 : BitVec 11) (choice : List (Fin 8)) (s : State) := runE s (s.governor a1 a10 choice)

/-- P_STATE_STEP_COMPLETE. -/
def execPStateStepComplete (die : Fin 8) (s : State) :=
  runE s ((s.dies[die]).stepTo.map (fun c => s.modDie die (fun d => { d with cur := c, stepTo := none })))

/-- DROOP_EVENT: the clock is stretched and the event counted (R320). -/
def execDroopEvent (die : Fin 8) (s : State) :=
  let d := s.dies[die]
  runE s (if d.stretched || !(d.power == .online || d.power == .parking) then none
    else some { s.modDie die (fun d => { d with stretched := true }) with
      str := if s.str = 0x7FFF then s.str else s.str + 1 })

/-- DROOP_RECOVERY. -/
def execDroopRecovery (die : Fin 8) (s : State) :=
  runE s (if (s.dies[die]).stretched then some (s.modDie die (fun d => { d with stretched := false })) else none)

/-! ### Parking (R266, R285, R286) -/

/-- PARK_REQUEST: a running die whose request is 7 begins to park. -/
def execParkRequest (die : Fin 8) (s : State) :=
  runE s (if s.reqOf die.val == 7 && (s.dies[die]).power == .online then
    some (s.modDie die (fun d => { d with power := .parking, reserve := [] })) else none)

/-- A gang keeps a die from parking: it runs there, or it is saved and may resume only in a cluster of the die. -/
def State.holdsDie (s : State) (t : Task) (d : Nat) : Bool :=
  if t.saved.isEmpty then (s.runningCores t).any (fun x => dieOf x.1 == d)
  else t.record.cl && dieOf (t.cores.headD 0) == d

/-- The cores of a die. -/
def State.onDie (s : State) (d : Nat) : List (Nat × Core) := s.cores.filter (fun x => dieOf x.1 == d)

/-- Cluster state of a die that parking and unparking change: caches written back, cells discarded.
(DEDUCED, log 46) -/
def State.clearClusters (s : State) (d : Nat) : State :=
  { s with clusters := s.clusters.map (fun x =>
      if x.1 / 96 = d then (x.1, { x.2 with cache := [], cells := [], tlb := [] }) else x) }

/-- The stores of a core are at their homes and its copy queues have drained (R286). -/
def Core.drained (k : Core) : Bool :=
  k.outq.isEmpty && k.strands.toList.all (fun t => t.buf.isEmpty) && k.eq1.isEmpty && k.eq2.isEmpty

/-- The Lapidary holds a slice of the handle in local stores of die `d` (R295, R301).
(DESIGN CHOICE, log 12) -/
def State.slicedOn (s : State) (d : Fin 8) (h : Handle) : Bool :=
  !h.freed && h.imported.isNone && h.classes.getLsbD 1 && (Config.slices s.draws).getLsbD d

/-- The slices that die `d` holds move to other dies, handle by handle, each move a re-representation (R285, R305, R306). -/
def State.evacuate (s : State) (d : Fin 8) : State :=
  s.handles.foldl (fun s h =>
    (if s.slicedOn d h then s.modHandle h.v (fun h => h.rerepresent (s.chooseClasses h.ops)) else s).draw) s

/-- DIE_PARK_PROCEED: the gangs have left the die, its stores are at their homes and its copies are done; the slices of
handles leave it (R285; DEDUCED, log 46), and it powers down. (DEDUCED, log 46) -/
def execDieParkProceed (die : Fin 8) (s : State) :=
  runE s (if (s.dies[die]).power == .parking && !s.tasks.any (fun t => s.holdsDie t die.val)
      && (s.onDie die.val).all (fun x => x.2.drained)
      && s.handles.all (fun h => h.freed || !h.classes.getLsbD 1 || h.holder.isNone) then
    let s := s.evacuate die
    some { (s.clearClusters die.val).modDie die (fun d =>
        { d with power := .parked, cur := 7, stepTo := none, stretched := false }) with
      sent := s.sent ++ [.dieOffline die] }
    else none)

/-- UNPARK_REQUEST: a parked die whose request is not 7 begins to come back. -/
def execUnparkRequest (die : Fin 8) (s : State) :=
  runE s (if s.reqOf die.val != 7 && (s.dies[die]).power == .parked then
    some (s.modDie die (fun d => { d with power := .unparking })) else none)

/-- UNPARK_COMPLETE. (DESIGN CHOICE, log 19) -/
def execUnparkComplete (die : Fin 8) (s : State) :=
  runE s (if (s.dies[die]).power == .unparking then
    let slow := s.reqOf die.val % 7
    some { ((s.clearClusters die.val).modDie die (fun d =>
        { d with power := .online, cur := BitVec.ofNat 4 (max slow (Config.unparkState s.draws).val) })).draw with
      sent := s.sent ++ [.dieOnline die] }
    else none)

/-! ### Contexts (R243, R323, R324) -/

/-- The largest `%ls.cap` of the module's cores (R1, R2). (DESIGN CHOICE, log 68) -/
def State.largestCap (s : State) : Nat :=
  if s.part != 0x0108
      && (s.clusters.length < 768 || s.clusters.any (fun x => x.2.harvest &&& x.2.stacked != 0)) then 0x80000
  else 0x40000

/-- A descriptor keeps the limits of R243, of which enabling holds `lssize` against the module's largest `%ls.cap`, `cap`.
(DEDUCED, log 46; DESIGN CHOICE, log 68) -/
def descOk (cap : Nat) (x : Ctx) : Bool :=
  let d (i : Nat) : Nat := x.dword i
  bitAt (d 0) 63 && bitsN (d 0) 60 56 == 0 && bitsN (d 0) 31 0 == 0 && decide (1 ≤ x.lssize) && decide (4096 * x.lssize ≤ cap)
    && decide (1 ≤ x.ncores) && decide (x.ncores ≤ 27648) && d 1 % 64 == 0 && d 2 % 64 == 0
    && decide (x.ccount ≤ 1024) && decide (x.cbase + x.ccount ≤ 1024) && decide (x.nlists ≤ 256)
    && (x.nlists == 0 || (decide (4 ≤ x.lcap) && decide (x.lcap ≤ 20))) && bitsN (d 6) 63 35 == 0

/-- The descriptor and the root of context `c` as memory holds them. -/
def State.readCtx (s : State) (c : Nat) : Ctx :=
  let a := s.ctxbase.toNat
  { desc := (List.range 8).map (fun i => BitVec.ofNat 64 (leNat (memRead s.mem (a + 64 * c + 8 * i) 8)))
    root := BitVec.ofNat 64 (leNat (memRead s.mem (a + 0x1000 + 8 * c) 8)), lsdata := (s.ctx c).lsdata }

/-- A write of `%ctxcmd`: the operation and the context that the register then holds. -/
def State.ctxFields (s : State) (p : RegPut) : Nat × Nat := (p.rw 8 2 s.ctxOp.toNat, p.rw 0 6 s.ctxNum.toNat)

def State.putCtx (s : State) (op n res : Nat) : State :=
  { s with ctxOp := BitVec.ofNat 2 op, ctxNum := BitVec.ofNat 6 n, ctxRes := BitVec.ofNat 3 res }

/-- Enabling context `n`; one that is enabled keeps its copy of the descriptor.
(DEDUCED, log 46) -/
def State.enableCtx (s : State) (n : Nat) : Nat × State :=
  let x := s.readCtx n
  if s.ctxen.getLsbD n then (0, s)
  else if !descOk s.largestCap x then (1, s)
  else if x.root.toNat % 4096 != 0 then (3, s)
  else (0, { s.setCtx n x with ctxen := s.ctxen ||| BitVec.ofNat 64 (2 ^ n) })

/-- The operation of `%ctxcmd` that a write gives. -/
def State.ctxOpOf (s : State) (w : RegWrite) : Nat := (s.ctxFields (putOfWrite w)).1

/-- CTX_ENABLE. -/
def State.ctxEnable (s : State) (w : RegWrite) : Option State :=
  if s.ctxOpOf w ≠ 1 then none
  else s.hubWrite w (fun n => n == 0x91) (fun p s =>
    let f := s.ctxFields p
    let r := s.enableCtx f.2
    r.2.putCtx f.1 f.2 r.1)

def execCtxEnable (w : RegWrite) (s : State) := runE s (s.ctxEnable w)

/-- Disabling context `n`: its queued records go. (DEDUCED, log 46) -/
def State.disableCtx (s : State) (n : Nat) : Nat × State :=
  if s.tasks.any (fun t => t.ctx == n) then (2, s)
  else if !s.ctxen.getLsbD n then (0, s)
  else
    (0, { s with
      ctxen := s.ctxen &&& ~~~(BitVec.ofNat 64 (2 ^ n))
      queues := s.queues.filter (fun q => !bitAt (s.ctx n).qmask q.1)
      joins := s.joins.filter (fun j => j.ctx != n)
      barriers := s.barriers.filter (fun b => b.ctx != n)
      dies := s.dies.map (fun d => { d with reserve := d.reserve.filter (fun r => r.ctx != n) }) })

/-- CTX_DISABLE. -/
def State.ctxDisable (s : State) (w : RegWrite) : Option State :=
  if s.ctxOpOf w ≠ 2 then none
  else s.hubWrite w (fun n => n == 0x91) (fun p s =>
    let f := s.ctxFields p
    let r := s.disableCtx f.2
    r.2.putCtx f.1 f.2 r.1)

def execCtxDisable (w : RegWrite) (s : State) := runE s (s.ctxDisable w)

/-! ### Invalidation (R269, R325) -/

/-- INV_WRITE: the request stands and the register reads busy; while it is busy a write is ignored. -/
def State.startInv (s : State) (w : RegWrite) : Option State :=
  s.hubWrite w (fun n => n == 0x93) (fun p s =>
    if s.invBusy then s
    else
      let x := s.inv.toNat
      { s with
        invBusy := true
        inv := BitVec.ofNat 64 (2 ^ 60 * p.rw 60 3 (x / 2 ^ 60 % 8) + 2 ^ 6 * p.rw 6 51 (x / 2 ^ 6 % 2 ^ 51)) })

def execInvWrite (w : RegWrite) (s : State) := runE s (s.startInv w)

/-- The request covers a leaf. -/
def invCovers (x : Nat) (l : Leaf) : Bool :=
  let size := ([2 ^ 12, 2 ^ 16, 2 ^ 21, 2 ^ 30] : List Nat).getD (bitsN x 61 60) 0
  let va := bitsN x 56 12 * 2 ^ 12 / size * size
  l.ctx == bitsN x 11 6 && (bitAt x 62 || (decide (l.va < va + size) && decide (va < l.va + l.size)))

/-- INV_COMPLETE: no translation buffer holds a leaf that the request covers. -/
def execInvComplete (s : State) :=
  runE s (if !s.invBusy then none
    else
      let keep (ls : List Leaf) : List Leaf := ls.filter (fun l => !invCovers s.inv.toNat l)
      some { s with
        invBusy := false
        cores := s.cores.map (fun x => (x.1, { x.2 with utlb := keep x.2.utlb }))
        clusters := s.clusters.map (fun x => (x.1, { x.2 with tlb := keep x.2.tlb })) })

/-! ### The other registers (R317, R323, R326, R327): REGISTER_WRITE -/

/-- A base address in bits [56:12]. -/
def putBase (p : RegPut) (old : Word) : Word := BitVec.ofNat 64 (2 ^ 12 * p.rw 12 45 (old.toNat / 2 ^ 12 % 2 ^ 45))

/-- A write of `%ctxcmd` that gives neither command is one. -/
def State.plainReg (s : State) (w : RegWrite) : Bool :=
  match w.reg with
  | 0x90 | 0x92 | 0xA0 | 0xA8 | 0xB0 => true
  | 0x91 => s.ctxOpOf w != 1 && s.ctxOpOf w != 2
  | _ => false

def State.regWrite (s : State) (w : RegWrite) : Option State :=
  s.hubWrite w (fun _ => s.plainReg w) (fun p s =>
    match w.reg with
    | 0x90 => { s with ctxbase := putBase p s.ctxbase }
    | 0x91 => let f := s.ctxFields p; { s with ctxOp := BitVec.ofNat 2 f.1, ctxNum := BitVec.ofNat 6 f.2 }
    | 0xA0 => ({ s with preqBase := putBase p s.preqBase, preqTail := BitVec.ofNat 7 (p.rw 5 7 s.preqTail.toNat) } :
        State).postAll s.preqs.length
    | 0xA8 => { s with elogBase := putBase p s.elogBase }
    | _ => s)

def execRegisterWrite (w : RegWrite) (s : State) := runE s (s.regWrite w)

/-! ### The host (R328) -/

/-- Sectors that a write of `n` bytes at `a` covers whole. -/
def wholeSectors (a n : Nat) : List Nat :=
  (List.range (n / 64)).filterMap (fun i =>
    let k := ceilDiv a 64 + i
    if 64 * k + 64 ≤ a + n then some k else none)

/-- HOST_CXL_MEM_WRITE: the host writes module memory; a sector written whole loses its poison (R315).
(DEDUCED, log 61) -/
def execHostCxlMemWrite (addr : Nat) (bytes : List Byte) (s : State) :=
  runE s (if s.recovery || decide (2 ^ 52 < addr + bytes.length) then none
    else some { s with
      mem := memSetAll s.mem (placeAt addr bytes)
      poisoned := s.poisoned.filter (fun n => !(wholeSectors addr bytes.length).contains n) })

/-! ### Attestation (R331) -/

/-- ATTEST_NONCE_WRITE. -/
def execAttestNonceWrite (nonce : BitVec 256) (s : State) :=
  runE s (if s.recovery then none else some { s with nonce := some nonce })

/-- The first 128 bytes of a report. -/
def State.reportBody (s : State) (nonce : BitVec 256) : List Byte :=
  leBytes 2 s.part.toNat ++ leBytes 1 s.rev.toNat ++ leBytes 1 (s.dieMask (fun d => d.power.isOnline)) ++ leBytes 4 1
    ++ List.replicate 24 (0 : Byte) ++ leBytes 32 s.measure[0].toNat ++ leBytes 32 s.measure[1].toNat ++ leBytes 32 nonce.toNat

/-- ATTEST_REPORT_READY: the mailbox holds the report on the newest nonce.
(DESIGN CHOICE, log 13) -/
def execAttestReportReady (s : State) :=
  runE s (s.nonce.map (fun n =>
    let b := s.reportBody n
    { s.draw with nonce := none, report := b ++ (leBytes 64 (Config.signature s.draws b).toNat).reverse }))

/-! ### Module reset (R330) -/

/-- What is fused in the clusters. -/
def fusedClusters (cs : Sparse Cluster) : Sparse Cluster :=
  cs.map (fun x => (x.1, { harvest := x.2.harvest, stacked := x.2.stacked, sup := x.2.sup }))

/-- The machine after reset: fused values, memory and the place of the error log stay, and the model's own counters
and its schedule go on, which may measure further images (R330).
(DESIGN CHOICE, log 4; DEDUCED, log 47) -/
def State.afterReset (s : State) : State :=
  { State.reset with
    clusters := fusedClusters s.clusters
    mem := s.mem
    poisoned := s.poisoned
    rev := s.rev
    part := s.part
    self := s.self
    elogBase := s.elogBase
    elogNext := s.elogNext
    cycle := s.cycle
    nextId := s.nextId
    draws := s.draws
    agenda := s.agenda }

/-- A die whose authentication failed stays offline (R330). -/
def State.failDie (s : State) (d : Fin 8) : State :=
  (s.modDie d (fun x => { x with power := .offline })).log 3 (BitVec.ofNat 64 (2 ^ 13 * d.val))

/-- The measurement registers extended with the hash of an image (R330). (DEDUCED, log 47) -/
def State.measureImage (s : State) (hash : BitVec 256) : State :=
  { s with measure := s.measure.map (fun m => extendMeasure m hash) }

/-- MODULE_RESET: the boot ROMs check the firmware, measure it and authenticate the dies.
(DESIGN CHOICE, log 19; DEDUCED, log 47; PRESUMED, log 56) -/
def State.moduleReset (s : State) (imageOk : Bool) (hash : BitVec 256) (dieOk : BitVec 8) : State :=
  let r := s.afterReset
  if !imageOk then { r with recovery := true }
  else
    let r := r.draw.measureImage hash
    let r := (List.finRange 8).foldl (fun r d => if dieOk.getLsbD d.val then r else r.failDie d) r
    r.log 4 (Config.resetCause s.draws)

def execModuleReset (imageOk : Bool) (hash : BitVec 256) (dieOk : BitVec 8) (s : State) :
    Host.Outcome State Fault Refusal := .next (s.moduleReset imageOk hash dieOk)

/-! ### The supervision routine (R338) -/

/-- A supervisor core on which the routine's strand 0 starts: privileged, reading IEE, with 4 KiB of local store that hold
the `.lsdata` image. (DESIGN CHOICE, log 69) -/
def Core.install (old : Core) (ctx code now : Nat) (lsdata : List Byte) : Core :=
  let z : Core := {}
  { z with
    ctx := ctx
    ls := memSetAll [] (placeAt 0 (lsdata.take 4096))
    lspan := BitVec.ofNat 4 (spanOf 1)
    size := 1
    ecc := old.ecc
    weak := old.weak.filter (fun y => decide (512 ≤ y.1))
    bad := old.bad.filter (fun y => decide (512 ≤ y))
    held := old.held
    outq := old.outq
    rq := old.rq
    ovf := old.ovf
    utlb := old.utlb
    slot := old.slot
    strands := z.strands.set 0 { pc := BitVec.ofNat 57 code, priv := true, live := true, stamp := old.slot
                                 voidP := now, voidC := now } }

/-- The boot firmware installs the routine in every cluster that holds a core of the context's region and runs none yet.
(DESIGN CHOICE, log 69) -/
def State.install (s : State) (ctx code : Nat) (lsdata : List Byte) : State :=
  ((s.region ctx).map (fun x => cluOf x.2)).dedup.foldl (fun s u =>
    let c := 36 * u + (s.cluster u).sup
    if s.recovery || (s.cluster u).halt || (s.core c).strands.toList.any Strand.live then s
    else s.modCore c (fun k => k.install ctx code s.nextId lsdata)) s

end Sys2Proof.Machine
end

