-- ==== Sys2Proof/Machine/Releases.lean ====
section
/-! DEFINITION. CISTERN_RELEASE (R154, R155, R158), and the local-store bytes that an operation in an engine queue has still
to read or to write. -/

namespace Sys2Proof.Machine

/-! ### What an operation in a queue accesses by address (R158, R166, R167) -/

/-- Local-store bytes as they are, with no mark. -/
def Core.look (k : Core) (off n : Nat) : List Byte := (k.readBytes (k.lsRange off n)).1

/-- The shape of a copy, as read at its acceptance or as its descriptor or list has it now. -/
def Core.shapeOf (k : Core) (o : CopyOp) (h : Handle) : Option Shape :=
  match o.shape with
  | some sh => some sh
  | none =>
    if o.queue = 2 then
      let hd := k.look o.desc 16
      let n := n32At hd 0
      let idx := k.look (o.desc + 16) (4 * n)
      if 65536 < n then none else some (.rows (n32At hd 4) ((List.range n).map (fun i => n32At idx (4 * i))))
    else boxOf h (k.look o.desc 64)

/-- The descriptor or list that a copy has still to read. -/
def Core.descLocs (k : Core) (o : CopyOp) : List Loc :=
  match o.kind with
  | .fill _ | .unbind _ _ => []
  | _ =>
    if o.started then []
    else if o.queue = 2 then k.lsRange o.desc (16 + 4 * min 65536 (n32At (k.look o.desc 16) 0))
    else k.lsRange o.desc 64

/-- The bytes of the elements of window `i`. -/
def State.windowLocs (s : State) (c : Nat) (i : Fin 8) : List Loc :=
  match (s.core c).wins[i] with
  | none => []
  | some w => match s.handle? (s.rootOf w.h) with
    | none => []
    | some h => (s.core c).localLocs w.base h.bits (w.elems h)

/-- The bytes of the elements of a copy, where it names them by address. -/
def State.elemsReach (s : State) (c : Nat) (o : CopyOp) : List Loc :=
  match o.side, s.handle? (s.rootOf o.h) with
  | .at' base, some h => match (s.core c).shapeOf o h with
    | some sh => (s.core c).localLocs base h.bits (sh.elems h o.kind.transposed)
    | none => []
  | _, _ => []

/-- What a copy has still to read, or to write. -/
def State.copyReach (s : State) (c : Nat) (write : Bool) (o : CopyOp) : List Loc :=
  let k := s.core c
  match o.kind with
  | .fill i => if write then s.windowLocs c i else []
  | .unbind i wb => if write || !wb then [] else s.windowLocs c i
  | .bind _ => if write then [] else k.descLocs o
  | _ => if write then (if o.kind.loads then s.elemsReach c o else [])
      else k.descLocs o ++ (if o.kind.loads then [] else s.elemsReach c o)

/-- What an operation of EQ0 has still to read, or to write, after its acceptance. -/
def Core.eq0Reach (k : Core) (write : Bool) (o : Eq0Op) : List Loc :=
  match o.kind with
  | .sort out => if write then out.map Prod.fst else []
  | .joint j =>
    let steps := if j.rot then [0, 1] else (List.range j.n).drop (if o.started then k.lprog.done else j.start)
    if write && !j.rot then []
    else steps.flatMap (fun i =>
      k.lsRange (j.act + i * actPitch j.ty) (actPitch j.ty) ++ k.lsRange (j.rcd + i * j.fmt.bytes) j.fmt.bytes)
  | _ => []

/-- What a collective has still to read, or to write. -/
def State.collReach (s : State) (c : Nat) (write : Bool) (o : CollOp) : List Loc :=
  let k := s.core c
  let d := o.accepted.getD (collDesc (k.look o.desc 32))
  let dst := o.dstRange d (s.membersOf o)
  let src := o.srcRange d
  if write then (if d.hnd = 0 then k.lsRange dst.1 dst.2 else [])
  else (if o.accepted.isSome then [] else k.lsRange o.desc 32)
    ++ (if d.hnd = 0 && !o.entered then k.lsRange src.1 src.2 else [])

/-- The bytes that the operations `ids` of core `c` have still to read, or to write. -/
def State.reach (s : State) (c : Nat) (write : Bool) (ids : List Nat) : List Loc :=
  let k := s.core c
  (k.eq0.filter (fun o => ids.contains o.id)).flatMap (k.eq0Reach write)
    ++ ((k.eq1 ++ k.eq2).filter (fun o => ids.contains o.id)).flatMap (s.copyReach c write)
    ++ (k.eq3.filter (fun o => ids.contains o.id)).flatMap (s.collReach c write)

/-! ### CISTERN_RELEASE (R154, R155, R158) -/

/-- Operations in the engine queues that can hold slots. -/
def Core.opsIds (k : Core) : List Nat := k.eq0.map Eq0Op.id ++ (k.eq1 ++ k.eq2).map CopyOp.id

/-- What a release waits for has come about; a discarded or stopped operation holds its slots no longer (log 33).
(DESIGN CHOICE, log 72) -/
def State.condMet (s : State) (c : Nat) : RelCond → Bool
  | .now => true
  | .loads h ids => (s.strandAt c h).loads.all (fun l => !ids.contains l.id)
  | .stores h ids => (s.strandAt c h).buf.all (fun e => !ids.contains e.id)
  | .op id => !((s.core c).opsIds.contains id)
  | .clear write ids ls => !overlap (s.reach c write ids) ls

/-- The release with identifier `id`: the oldest of its side, its conditions met. -/
def State.releaseSlots (s : State) (c : Nat) (x : Cistern) (id : Nat) : Option Cistern :=
  match x.held.find? (fun h => h.id == id) with
  | none => none
  | some h =>
    if (x.held.find? (fun y => y.prod == h.prod)).map Held.id != some id || !h.cond.all (s.condMet c) then none
    else
      let x := { x with held := x.held.filter (fun y => y.id != id) }
      some (if h.prod then { x with filled := x.filled + h.k } else { x with free := x.free + h.k })

/-- CISTERN_RELEASE of core `core`. -/
def execCisternRelease (core : Nat) (id : Nat) (s : State) :=
  let k := s.core core
  runE s (((List.finRange 16).findSome? (fun c => (s.releaseSlots core k.cist[c] id).map (fun x => (c, x)))).map
    (fun y => s.modCore core (fun k => { k with cist := k.cist.set y.1 y.2 })))

end Sys2Proof.Machine
end

