-- ==== Sys2Proof/Machine/Fabric.lean ====
section
/-! DEFINITION. The fabric's events: links, replay and keys (R343 to R347), requests of other modules and their replies
(R349 to R351), and the view protocol (R361 to R364). -/

namespace Sys2Proof.Machine

/-! ### Receiving (R345, R346, R349): FLIT_RECEIVE -/

/-- A count of a port that stops at its greatest value (R347). -/
def countUp (x : BitVec 16) : BitVec 16 := if x = 0xFFFF then x else x + 1

/-- Bytes over old ones, under the mask of each. -/
def maskedOver : List Byte → List Byte → List Byte → List Byte
  | b :: bs, m :: ms, o :: os => ((b &&& m) ||| (o &&& ~~~m)) :: maskedOver bs ms os
  | bs, _, _ => bs

/-- A store of another module is performed here, and acknowledged. (DEDUCED, log 58) -/
def State.storeFrom (s : State) (src addr : Nat) (bytes mask : List Byte) : State :=
  ({ s with
    mem := memSetAll s.mem (placeAt addr (maskedOver bytes mask (memRead s.mem addr bytes.length)))
    poisoned := if mask.isEmpty then s.poisoned.filter (fun n => !(wholeSectors addr bytes.length).contains n)
      else s.poisoned } : State).txTo src 2 addr (.ack addr)

/-- An atomic of another module is performed here (R349); on a poisoned sector it does nothing.
(DEDUCED, log 58) -/
def State.atomicFrom (s : State) (src addr : Nat) (op : AtomOp) (ty : Ty) (b c : Word) : State :=
  if s.poisoned.contains (addr / 64) then s
  else
    let r := atomResult op ty (memRead s.mem addr (ty.bits / 8)) b c
    ({ s with mem := memSetAll s.mem (placeAt addr r.1) } : State).txTo src 2 addr (.response addr (leBytes 8 r.2.toNat))

/-- Elements that another module writes to a handle it has imported from here (R351).
(DEDUCED, log 58) -/
def State.rowsFrom (s : State) (v : Word) (els : List (Nat × Nat × Nat)) : State :=
  match s.dataOf v with
  | none => s
  | some h => s.putHandle h false (els.map (fun x => (rowEl x.2.1 x.1, x.2.2)))

/-- A row of a handle that another module has imported from here goes to it, 64 bytes at a time (R302, R343).
(DEDUCED, log 58) -/
def State.sendRow (s : State) (src : Nat) (v : Word) (row : Nat) : State :=
  match s.dataOf v with
  | none => s
  | some h =>
    (List.range (h.rowBytes / 64)).foldl (fun s i =>
      let a := h.rowBytes * row + 64 * i
      s.txTo src 2 a (.response a ((List.range 64).map (fun j => h.byte (a + j)))))
      (s.mend h ((List.range h.e[0]).map (rowEl row)))

/-- A request of an importer takes its place in the order of a handle of this module, and its answer returns (R302, R351): a
set that the representation no longer serves has the handle re-represented; the exporter's own set stays.
(DEDUCED, log 58) -/
def State.lapFrom (s : State) (src : Nat) (v : Word) (ask : HandleAsk) : State :=
  match s.dataOf v with
  | none => s
  | some h =>
    let r : Word × State := match ask with
      | .query q => (s.queryReply h h q, s.draw)
      | .widen ops =>
        let n := h.ops ||| ops
        if s.servesSet h n then (statusAndSet 0 n, s.draw)
        else if !s.holdsSet h n then (statusAndSet 2 h.ops, s.draw)
        else (statusAndSet 1 n, (s.modHandle h.v (fun h => h.rerepresent (s.chooseClasses n))).draw)
      | .free | .narrow | .hand => (0, s)
    r.2.txTo src 2 0 (.response 0 (leBytes 8 r.1.toNat))

/-- The partner has the flits of channel `vc` before number `n`. -/
def State.acked (s : State) (p : Fin 24) (vc : Fin 8) (n : Nat) : State :=
  (s.modPort p (fun f => { f with kept := f.kept.filter (fun k => k.vc != vc || decide (n ≤ k.seq)) })).flush p

/-- The flits of channel `vc` from number `n` on leave again as they were (R345, R346). -/
def State.resend (s : State) (p : Fin 24) (vc : Fin 8) (n : Nat) : State :=
  let ks := s.fports[p].kept.filter (fun k => k.vc == vc && decide (n ≤ k.seq))
  { s.modPort p (fun f => { f with replay := countUp f.replay }) with
    sent := s.sent ++ ks.map (fun k => .flit p k.vc k.seq k.phase k.load) }

/-- A hub copy of another module's line (R349). (DEDUCED, log 24) -/
def State.holdCopy (s : State) (mod addr : Nat) (bytes : List Byte) : State :=
  { s.fresh with rcopies := putLine hubLines s.rcopies (mod * 2 ^ 52 + lineOf addr) ⟨s.nextId, bytes⟩ }

/-- What a delivered flit of channel `vc` does; one for another module goes on to it (R344).
(DEDUCED, log 58) -/
def State.deliverFlit (s : State) (p : Fin 24) (vc : Fin 8) (x : FlitLoad) : State :=
  match x with
  | .none => s
  | .store src addr bytes mask => s.storeFrom src addr bytes mask
  | .transit dest addr payload =>
    s.tx (s.linkFor (hopOf s.self.toNat dest) (addr / 128 % 4)) vc (.transit dest addr payload)
  | .rowRead src h row => s.sendRow src h row
  | .load src addr n => s.txTo src 2 addr (.response addr (memRead s.mem addr n))
  | .atomic src addr op ty b c => s.atomicFrom src addr op ty b c
  | .rows _ h els => s.rowsFrom h els
  | .line mod addr bytes => if bytes.length = 64 then s.holdCopy mod addr bytes else s
  | .ack vc n => s.acked p vc n
  | .replay vc n => s.resend p vc n
  | .keyNotice first => s.modPort p (fun f => { f with rxPhase := !f.rxPhase, rxRoll := true, rxFirst := first })
  | .lap src h ask => s.lapFrom src h ask
  | .credit vc n => s.credited p vc n
  | .joinRequest src chm route => match s.chamber chm.val with
    | none => s.txPlain src 7 (.noMember chm.val)
    | some k => if k.members.contains route then s else s.propose chm.val k none { joined := [route] }
  | .noMember chm => match s.joinReq chm.val with
    | none => s
    | some r => s.replyReq r 1

/-- A flit for a handle that an operation holds waits for its place in the handle's order (R304, R351). -/
def State.mustWait (s : State) : FlitLoad → Bool
  | .rows _ v _ | .rowRead _ v _ | .lap _ v _ => (s.handle? (s.rootOf v)).any (fun h => h.holder.isSome)
  | _ => false

/-- Flits held back are delivered as long as the next in order is among them and need not wait. -/
def State.deliverEarly (s : State) (p : Fin 24) (vc : Fin 8) : Nat → State
  | 0 => s
  | n + 1 =>
    let f := s.fports[p]
    match f.early.find? (fun e => e.1 == vc && e.2.1 == f.next[vc] && !s.mustWait e.2.2) with
    | none => s
    | some e =>
      let s := s.modPort p (fun f =>
        { f with next := f.next.set vc (f.next[vc] + 1), early := f.early.filter (fun x => x != e) })
      ((s.deliverFlit p vc e.2.2).giveBack p vc).deliverEarly p vc n

/-- A failed flit is dropped and counted, and a replay from its number is asked for. -/
def State.failedFlit (s : State) (p : Fin 24) (vc : Fin 8) (seq : Nat) (crcOk : Bool) : State :=
  (s.modPort p (fun f =>
    { f with
      badRun := f.badRun + 1
      crc := if crcOk then f.crc else countUp f.crc
      tag := if crcOk then countUp f.tag else f.tag })).tx p 6 (.askReplay vc seq)

/-- A flit arrives at port `p`: one that fails is dropped, a good one is delivered in the order of its channel.
(PRESUMED, log 56) -/
def State.receive (s : State) (p : Fin 24) (vc : Fin 8) (seq : Nat) (phase crcOk tagOk : Bool) (x : FlitLoad) :
    Option State :=
  let f := s.fports[p]
  if f.state != .up then none
  else if !crcOk || !tagOk || (phase != f.rxPhase && !f.rxRoll) then some (s.failedFlit p vc seq crcOk)
  else
    let s := s.modPort p (fun f => { f with badRun := 0 })
    if seq < f.next[vc] || f.early.any (fun e => e.1 == vc && e.2.1 == seq) then
      some (s.deliverEarly p vc f.early.length)
    else
      let s := s.modPort p (fun f => { f with early := f.early ++ [(vc, seq, x)] })
      some (s.deliverEarly p vc (f.early.length + 1))

def execFlitReceive (port : Fin 24) (vc : Fin 8) (seq : Nat) (phase crcOk tagOk : Bool) (load : FlitLoad) (s : State) :=
  runE s (s.receive port vc seq phase crcOk tagOk load)

/-! ### Links (R345, R347) -/

/-- LINK_RETRAIN: after 16 failed flits in a row. -/
def execLinkRetrain (port : Fin 24) (s : State) :=
  runE s (if s.fports[port].state == .up && decide (16 ≤ s.fports[port].badRun) then
    some (s.modPort port (fun f => { f with state := .training, badRun := 0 })) else none)

/-- LINK_DOWN: no good flit for 50 µs. -/
def execLinkDown (port : Fin 24) (s : State) :=
  runE s (if s.fports[port].state == .down then none else some (s.portDown port))

/-- PORT_TRAINING_RETRY: a port that is not up trains while its partner answers. -/
def execPortTrainingRetry (port : Fin 24) (answers : Bool) (s : State) :=
  runE s (if s.fports[port].state == .up then none
    else if answers then some (s.modPort port (fun f => { f with state := .training }))
    else some (s.portDown port))

/-- LINK_TRAINING_COMPLETE: the port is up, its partner is told its room, and what waits for it leaves. -/
def execLinkTrainingComplete (port : Fin 24) (s : State) :=
  runE s (if s.fports[port].state == .training then
    some (((s.modPort port (fun f => { f with state := .up })).grant port).flush port) else none)

/-! ### Keys (R346) -/

/-- KEY_ROLLOVER: the sender gives notice and sends every new flit under the new key.
(PRESUMED, log 56) -/
def execKeyRollover (port : Fin 24) (s : State) :=
  let f := s.fports[port]
  let first := (f.txSeq.set 6 (f.txSeq[6] + 1)).toList
  runE s (if f.state == .up && !f.roll then
    some ((s.tx port 6 (.keyNotice first)).modPort port (fun f => { f with phase := !f.phase, roll := true })) else none)

/-- Every flit of the old phase has come, on every channel. -/
def FPort.oldDone (f : FPort) : Bool := (List.finRange 8).all (fun vc => decide (f.rxFirst.getD vc.val 0 ≤ f.next[vc]))

/-- KEY_DISCARD: the sender's old key goes once no replay buffer holds a flit of the old phase, the receiver's once every
flit of the old phase has been acknowledged. -/
def execKeyDiscard (port : Fin 24) (s : State) :=
  runE s (
    let f := s.fports[port]
    let done := f.roll && f.kept.all (fun k => k.phase == f.phase)
    let rx := f.rxRoll && f.oldDone
    if done || rx then some (s.modPort port (fun f => { f with roll := f.roll && !done, rxRoll := f.rxRoll && !rx }))
    else none)

/-- HEARTBEAT: on channel 6 of every port that is up (R361). -/
def execHeartbeat (s : State) := runE s (some (s.txAll 6 .heartbeat))

/-! ### Replies of other modules (R349, R350): REMOTE_ACK, REMOTE_LOAD_RETURN -/

/-- The entry `id` of core `c` that has left for another module. -/
def State.awayEntry (s : State) (c id : Nat) : Option OutEntry :=
  (s.core c).outq.find? (fun o => o.e.id == id && o.stage == 1 && o.e.locs.any Loc.isRemote)

/-- REMOTE_ACK: a store of another module's memory has been performed there. -/
def execRemoteAck (core : Nat) (id : Nat) (s : State) :=
  runE s (match s.awayEntry core id with
    | none => none
    | some o => if o.e.op == .store then some (s.dropOut core id) else none)

/-- The part of a reply that a load takes: the value, or its bytes of the whole line. -/
def replyBytes (l : PendLoad) (bytes : List Byte) : Option (List Byte) :=
  if bytes.length = 64 then some (l.locs.map (fun x => bytes.getD (x.addr % 64) 0))
  else if bytes.length = l.locs.length then some bytes
  else none

/-- The line that a reply brings stays in the hub. -/
def State.keepLine (s : State) (l : PendLoad) (bytes : List Byte) : State :=
  match l.locs with
  | ⟨.remote m, a⟩ :: _ => if bytes.length = 64 then s.holdCopy m a bytes else s
  | _ => s

/-- The value of a load of another module's memory returns to a strand of core `c`. -/
def State.returnLoad (s : State) (c : Nat) (h : Fin 11) (id : Nat) (bytes : List Byte) : Option State :=
  let t := s.strandAt c h
  match t.loads.find? (fun l => l.id == id && l.locs.any Loc.isRemote) with
  | none => none
  | some l =>
    if t.fenced id || t.olderLoad id l.locs || t.forward id l.locs != .none then none
    else (replyBytes l bytes).map (fun bs => (s.keepLine l bytes).finishLoad c h l bs)

/-- The saved core, by task and place, that has load `id`. -/
def State.savedLoad (s : State) (h : Fin 11) (id : Nat) : Option (Nat × Nat) :=
  s.tasks.findSome? (fun t =>
    t.saved.zipIdx.findSome? (fun x =>
      if x.1.strands[h].loads.any (fun l => l.id == id) then some (t.id, x.2) else none))

/-- A saved core's state as `f` leaves it, standing meanwhile at the number that no core has. -/
def State.onSaved (s : State) (task place : Nat) (f : State → Option State) : Option State :=
  match (s.task? task).bind (fun t => t.saved[place]?) with
  | none => none
  | some k => (f (s.setCore noCore k)).map (fun s =>
      let k' := s.core noCore
      { s.modSaved task place (fun _ => k') with cores := serase s.cores noCore })

/-- The reply of another module to an atomic, or to `tspawn` or `tjoin` on a record there: the old value, or the record as it
was (R252, R349). (DEDUCED, log 57) -/
def State.returnAtomic (s : State) (c id : Nat) (bytes : List Byte) : Option State :=
  match s.awayEntry c id with
  | none => none
  | some o => match o.e.op with
    | .atom _ ty _ _ d =>
      some ((s.reply c o.strand id d o.e.scope (wordOfInt (ty.read (leNat bytes)))).dropOut c id)
    | .offer join _ va d => if bytes.length = 32 then s.makeOffer c o join va d bytes (fun s _ => s) else none
    | _ => none

/-- REMOTE_LOAD_RETURN: a value returns to core `core`, or to the saved state of the core that has gone. -/
def State.remoteReturn (s : State) (c : Nat) (h : Fin 11) (id : Nat) (bytes : List Byte) : Option State :=
  match s.returnLoad c h id bytes with
  | some s => some s
  | none => match s.returnAtomic c id bytes with
    | some s => some s
    | none => match s.savedLoad h id with
      | some (t, i) => s.onSaved t i (fun s => s.returnLoad noCore h id bytes)
      | none => none

def execRemoteLoadReturn (core : Nat) (strand : Fin 11) (id : Nat) (bytes : List Byte) (s : State) :=
  runE s (s.remoteReturn core strand id bytes)

/-! ### The loss of a module (R348, R351) -/

/-- A location lies on a module that is marked lost. -/
def State.lostLoc (s : State) (l : Loc) : Bool :=
  match l.at' with
  | .remote m => s.lost.contains m
  | _ => false

/-- The places of an entry, the record of an offer among them. -/
def BufEntry.places (e : BufEntry) : List Loc :=
  match e.op with
  | .offer _ l _ _ => [l]
  | _ => e.locs

def State.lostEntry (s : State) (e : BufEntry) : Bool := e.places.any s.lostLoc

/-- The strand forgets an entry for a lost module: a dropped store is told at the next release of scope `.chm`, and the
reply of an atomic or an offer is a free value (log 20).
(DESIGN CHOICE, log 20; DEDUCED, log 52) -/
def State.dropEntry (s : State) (c : Nat) (h : Fin 11) (e : BufEntry) : State :=
  match e.op with
  | .store => s.modStrandAt c h (fun t => { t with dropped := t.dropped.or (some e.va) })
  | .atom _ _ _ _ d | .offer _ _ _ d => (s.reply c h e.id d e.scope (Config.lostReply s.draws)).draw
  | _ => s

/-- Something that the instruction of a load of strand `h` has moved is as it was (R25). -/
def Core.undoMove (k : Core) (h : Fin 11) : Undo → Core
  | .cis i prod n held => { k with cist := k.cist.set i (k.cist[i].untake prod n held) }
  | .port q pos ahead => { k with ports := k.ports.set q (k.ports[q].map (fun p => { p with pos := pos, ahead := ahead })) }
  | .sx b => { k with strands := k.strands.set h { k.strands[h] with sx := b } }
  | .entry id =>
    { k with strands := k.strands.set h { k.strands[h] with buf := k.strands[h].buf.filter (fun e => e.id != id) } }

/-- The outstanding loads of a lost module are taken back with all that their instruction has moved: the PC names the load,
which issues again (R25, R351). (DEDUCED, log 52) -/
def State.rewind (s : State) (k : Core) (h : Fin 11) : Option (PendLoad × Core) :=
  let t := k.strands[h]
  (t.loads.find? (fun l => l.locs.any s.lostLoc)).map (fun l =>
    let gone := (t.loads.filter (fun x => x.pc == l.pc && x.slot == l.slot)).map PendLoad.id
    let t' := { t with
      loads := t.loads.filter (fun x => !gone.contains x.id)
      pend := t.pend.filter (fun x => !gone.contains x.1)
      gates := t.gates.filter (fun x => !gone.contains x)
      pc := l.pc
      rep := none
      rei := true
      blk := 0 }
    let k := ({ k with strands := k.strands.set h t' }).dropTrail h gone
    (l, l.undo.foldl (fun k u => k.undoMove h u) k))

/-- The load that was issued first. -/
def firstLoad : List (Fin 11 × PendLoad) → Option (Fin 11 × PendLoad)
  | [] => none
  | x :: xs => match firstLoad xs with
    | none => some x
    | some y => some (if x.2.id ≤ y.2.id then x else y)

/-- Core `c` after modules have been marked lost: stores on the way are dropped, and the strand whose lost load was issued
first traps at it, while the others issue theirs again (R26, R351). Where its earlier instructions are not complete, it
issues its load again too, and traps at it once they are (R24). (DEDUCED, log 52) -/
def State.coreLoss (s : State) (c : Nat) : State :=
  let k := s.core c
  let outs := k.outq.filter (fun o => s.lostEntry o.e)
  let bufs := (List.finRange 11).flatMap (fun h => (k.strands[h].buf.filter s.lostEntry).map (fun e => (h, e)))
  let mine := (outs.filter (fun o => o.task == k.task)).map (fun o => (o.strand, o.e))
  let s := (mine ++ bufs).foldl (fun s x => s.dropEntry c x.1 x.2) s
  let s := s.modCore c (fun k =>
    { k with
      outq := k.outq.filter (fun o => !s.lostEntry o.e)
      strands := k.strands.map (fun t => { t with buf := t.buf.filter (fun e => !s.lostEntry e) }) })
  let hits := (List.finRange 11).filterMap (fun h => (s.rewind (s.core c) h).map (fun r => (h, r.1)))
  let s := hits.foldl (fun s x => s.modCore c (fun k => ((s.rewind k x.1).map Prod.snd).getD k)) s
  match firstLoad hits with
  | none => s
  | some (h, l) =>
    if (s.core c).frozen || !(s.core c).completeBefore h l.id then s
    else s.trapAt c h { Trap.translationFault l.va with sub := l.lane }

/-- A saved core's loads of lost modules issue again when the gang resumes. -/
def State.savedLoss (s : State) (t : Task) : Task :=
  { t with saved := t.saved.map (fun k =>
      (List.finRange 11).foldl (fun k h => ((s.rewind k h).map Prod.snd).getD k) k) }

/-- The modules that routes of a context name are marked lost (R347, R361). (DEDUCED, log 52) -/
def State.markLost (s : State) (ctx : Nat) (routes : List Nat) : State :=
  let ms := (routes.filterMap (s.routeOf ctx)).filter (fun m => !s.lost.contains m)
  if ms.isEmpty then s
  else
    let s := { s with lost := s.lost ++ ms, lostCount := s.lostCount + ms.length }
    let s := { s with tasks := s.tasks.map s.savedLoss }
    (s.cores.map Prod.fst).foldl State.coreLoss s

/-! ### A change of view (R361 to R364) -/

/-- The ranks of an old list as a new list numbers its members. -/
def newRank (old new : List Nat) (r : Nat) : Nat := new.idxOf (old.getD r 0)

/-- A cell after a change: cleared when its span includes a departed member, else with its span in the new ranks. -/
def Cell.change (x : Cell) (old new : List Nat) : Cell × Bool :=
  match x.span with
  | none => (x, true)
  | some (a, n) =>
    let ranks := (List.range n).map (fun i => (a + i) % old.length)
    if ranks.any (fun r => !new.contains (old.getD r 0)) then
      ({ w := { anchor := x.w.anchor } }, false)
    else ({ x with span := some (newRank old new a, n) }, true)

/-- The cells of a stopped operation after a change, and how many were kept. -/
def Cluster.changeCells (k : Cluster) (old new : List Nat) : Nat → Nat → Cluster × Nat
  | _, 0 => (k, 0)
  | i, n + 1 =>
    let x := (k.cell i).change old new
    let r := (k.setCell i x.1).changeCells old new (i + 1) n
    (r.1, r.2 + b2n x.2)

/-- The cells of every stopped operation, and the number kept. -/
def State.changeOps (s : State) (old new : List Nat) : List (Nat × CollOp) → State × Nat
  | [] => (s, 0)
  | (c, o) :: xs =>
    match o.accepted with
    | some d =>
      if o.major.reduces && (o.cleared || o.entered) then
        let r := (s.cluster (cluOf c)).changeCells old new d.cell d.n
        let rest := (s.setCluster (cluOf c) r.1).changeOps old new xs
        (rest.1, rest.2 + r.2)
      else s.changeOps old new xs
    | none => s.changeOps old new xs

/-- The operations of a chamber that have their place in EQ3. -/
def State.placedOps (s : State) (chm : Nat) : List (Nat × CollOp) :=
  s.cores.flatMap (fun x => (x.2.eq3.filter (fun o => o.chm == chm && o.drained)).map (fun o => (x.1, o)))

/-- A strand that uses the chamber has a trap to take (R363). (DEDUCED, log 53) -/
def Strand.giveChange (t : Strand) (ch : Change) (hnd : Word) : Strand :=
  if t.live && t.uses.contains ch.chm then { t with changes := t.changes ++ [{ ch with hnd := hnd }] } else t

/-- The handle of a stopped operation of strand `h` of core `c`. -/
def stoppedHandle (ops : List (Nat × CollOp)) (c : Nat) (h : Fin 11) : Word :=
  ((ops.find? (fun x => x.1 == c && x.2.strand == h)).bind (fun x => x.2.accepted.map CollDesc.hnd)).getD 0

/-- Every user of the chamber, running or saved, gets the trap. -/
def State.tellUsers (s : State) (ctx : Nat) (ch : Change) (ops : List (Nat × CollOp)) : State :=
  let s := (s.cores.map Prod.fst).foldl (fun s c => s.modCore c (fun k =>
    if k.ctx = ctx then
      { k with strands := k.strands.mapFinIdx (fun i t hi => t.giveChange ch (stoppedHandle ops c ⟨i, hi⟩)) }
    else k)) s
  { s with tasks := s.tasks.map (fun t =>
      if t.ctx = ctx then { t with saved := t.saved.map (fun k =>
        { k with strands := k.strands.map (fun x => x.giveChange ch 0) }) } else t) }

/-- The arrivals at the chamber's barrier are withdrawn (R363). -/
def State.clearBarrier (s : State) (ctx chm : Nat) : State :=
  { s with barriers := s.barriers.map (fun b =>
      if b.ctx = ctx ∧ b.lvl = 4 ∧ b.place = chm then { b with arrived := [] } else b) }

/-- The chamber adopts a view with members `new` (R361, R362): operations stop, cells are cleared or renumbered,
statuses are written, and the users are told. -/
def State.adopt (s : State) (chm : Nat) (k : Chamber) (view : Nat) (new : List Nat) (joined departed : Nat) : State :=
  let ops := s.placedOps chm
  let s := { s with chambers := sput s.chambers chm { k with proposal := none } }
  let r := s.changeOps k.members new ops
  let s := ops.foldl (fun s x => s.abortColl x.1 x.2 (collStatus 6 0 view x.2.out)) r.1
  let own := k.members.getD k.rank 0
  let k' : Chamber := { k with
    view := view
    members := new
    rank := new.idxOf own
    kept := r.2
    joined := joined
    departed := departed
    proposal := none
    via := none
    owed := false
    confirms := [] }
  let s := { s with chambers := sput s.chambers chm k' }
  let sub := if joined = 0 then 0 else if departed = 0 then 1 else 2
  (s.clearBarrier k.ctx chm).tellUsers k.ctx { chm := chm, view := view, sub := sub, count := joined + departed } ops

/-- MODULE_LOSS_DETECT: a neighbour has been silent for 100 µs. -/
def execModuleLossDetect (chamber : Fin 256) (route : Nat) (s : State) :=
  runE s (match s.chamber chamber.val with
    | none => none
    | some k => if k.members.contains route && route != k.own then some (s.propose chamber.val k none { lost := [route] })
      else none)

/-- VIEW_PROPOSAL: a proposal arrives at a port. -/
def execViewProposal (chamber : Fin 256) (port : Fin 24) (view : Nat) (set : ViewSet) (s : State) :=
  runE s (match s.chamber chamber.val with
    | none => none
    | some k =>
      if view = k.view + 1 && !departsIn set k.own then some (s.propose chamber.val k (some port) set) else none)

/-- VIEW_CONFIRM: a confirmation of the member with route index `route` arrives: the gatherer takes it, another member sends
it on. (DEDUCED, log 51) -/
def execViewConfirm (chamber : Fin 256) (route view : Nat) (set : ViewSet) (s : State) :=
  runE s (match s.chamber chamber.val with
    | none => none
    | some k => match k.proposal with
      | none => none
      | some p =>
        if view ≠ p.view || !(k.survivors p).contains route || route == k.own || departsIn set k.own then none
        else if k.gathers p then some (s.confirm chamber.val k p route ⟨view, set⟩)
        else some (s.sendConfirm chamber.val k p route ⟨view, set⟩))

/-- VIEW_COMMIT: the next view is adopted without the departed; those marked lost are marked so on this module. A request
to join that still stands is proposed for the view after it. (DEDUCED, log 51) -/
def State.commitView (s : State) (chm view : Nat) (lost dropped : List Nat) : Option State :=
  match s.chamber chm with
  | none => none
  | some k =>
    let gone := k.members.filter (lost ++ dropped).contains
    if view ≠ k.view + 1 || gone.isEmpty || gone.contains k.own
        || k.proposal.any (fun p => k.gathers p && !(k.ready p && p.same ⟨view, { lost := lost, dropped := dropped }⟩)) then none
    else
      let new := k.members.filter (fun r => !gone.contains r)
      let s := (s.adopt chm k view new 0 gone.length).markLost k.ctx (gone.filter lost.contains)
      some (match s.chamber chm with
        | some k' => if k'.joining.isEmpty then s else s.propose chm k' none { joined := k'.joining }
        | none => s)

def execViewCommit (chamber : Fin 256) (view : Nat) (lost dropped : List Nat) (s : State) :=
  runE s (s.commitView chamber.val view lost dropped)

/-- A member list in the order of route indices. -/
def insertRoute (r : Nat) : List Nat → List Nat
  | [] => [r]
  | x :: xs => if r < x then r :: x :: xs else if r = x then x :: xs else x :: insertRoute r xs

/-- A member takes the view with `joined` admitted: no operation of the chamber is in progress, unless members depart with
the same change and stop it (R362, R364). (DEDUCED, log 51) -/
def State.admitJoin (s : State) (chm : Nat) (k : Chamber) (view : Nat) (joined lost dropped : List Nat) : Option State :=
  let gone := k.members.filter (lost ++ dropped).contains
  let fresh := joined.filter (fun r => !k.members.contains r || gone.contains r)
  if view ≠ k.view + 1 || k.joining.isEmpty || fresh.isEmpty || gone.contains k.own
      || (gone.isEmpty && (s.chamberOps chm).any (fun x => x.2.started))
      || k.proposal.any (fun p => k.gathers p && !(k.ready p && p.same ⟨view, ⟨lost, dropped, joined⟩⟩)) then none
  else
    let new := fresh.foldr insertRoute (k.members.filter (fun r => !gone.contains r))
    let s := (s.adopt chm { k with joining := k.joining.filter (fun r => !fresh.contains r) } view new fresh.length gone.length).markLost k.ctx
      ((gone.filter lost.contains).filter (fun r => !fresh.contains r))
    some { s with lost := s.lost.filter (fun m => !(fresh.filterMap (s.routeOf k.ctx)).contains m) }

/-- The joiner itself: it holds the chamber as the members do. -/
def State.joinSelf (s : State) (chm : Nat) (r : KReq) (view : Nat) (members : List Nat) (mode : Bool) : Option State :=
  match s.ownRoute r.ctx members with
  | none => none
  | some own =>
    let k : Chamber := { ctx := r.ctx, view := view, members := members, rank := members.idxOf own, mode := mode }
    some { s.replyReq r 0 with chambers := sput s.chambers chm k }

/-- JOIN_COMMIT: at the collective boundary the members, and the joiner, take the new view.
(DEDUCED, log 51, 52) -/
def State.commitJoin (s : State) (chm view : Nat) (members joined lost dropped : List Nat) (mode : Bool) : Option State :=
  match s.chamber chm with
  | some k => s.admitJoin chm k view joined lost dropped
  | none => match s.joinReq chm with
    | none => none
    | some r => s.joinSelf chm r view members mode

def execJoinCommit (chamber : Fin 256) (view : Nat) (members joined lost dropped : List Nat) (mode : Bool) (s : State) :=
  runE s (s.commitJoin chamber.val view members joined lost dropped mode)

end Sys2Proof.Machine
end

