-- ==== Sys2Proof/Machine/Pairs.lean ====
section
/-! DEFINITION. Pairs (R236, R237): `pair`, `unpair`, `fprint`, PAIR_INTERVAL_END and PAIR_LOST. The shadow issues what
its leader issues, so its state is its leader's; it is written out when the pair freezes. -/

namespace Sys2Proof.Machine

/-! ### pair and unpair -/

/-- The interval that `pair` asks for. -/
def pairInterval (x : Word) : Nat := if x.toNat % 2 ^ 17 = 0 then 4096 else x.toNat % 2 ^ 17

/-- A core that can become a shadow: a good worker that runs nothing. -/
def State.freeWorker (s : State) (c : Nat) : Bool :=
  s.sound c && (s.core c).vacant && (s.dies[(Fin.ofNat 8 (dieOf c))]).power == .online

/-- The neighbours of a core in its cluster's row, east before west. -/
def rowNeighbours (c : Nat) : List Nat :=
  let x := posOf c % 6
  (if x < 5 then [c + 1] else []) ++ (if 0 < x then [c - 1] else [])

/-- Core `n` becomes the shadow of core `c`. -/
def State.startPair (s : State) (c n interval : Nat) : State :=
  let s := s.modCore c (fun k => { k with pairOf := some c, undo := [], whole := [] })
  let s := s.modCore n (fun k => { ({ k with pairOf := some c } : Core).mirror (s.core c) with frozen := false })
  let p : PairRec := { leader := c, shadow := n, interval := interval, snap := s.core c, settle := true }
  { s with pairs := s.pairs ++ [p] }

/-- A queue in the error state raises engine-error as the drain meets it. (DEDUCED, log 45) -/
def pairBody (d a : Fin 32) (s : State) : Res State := do
  s.controlOnly
  s.awaitHelpers 0xFFFF
  let s ← s.drainQueues [0, 1, 2, 3]
  let c := s.cur.1
  let i := pairInterval (s.me.rg a)
  let put (s : State) (x : Word) : State := s.modMe (fun t => t.wg d x)
  if i < 512 ∨ 65536 < i then .ok (put s 3)
  else if s.myCore.pairOf.isSome then .ok (put s 2)
  else match (rowNeighbours c).find? s.freeWorker with
    | none => .ok (put s 1)
    | some n => .ok ((put s 0).startPair c n i)

/-- `pair` (R236). -/
def execPair (gd : Guard) (d a : Fin 32) (s : State) := runW gd 8 s (pairBody d a)

/-- The pair that core `c` leads ends: the shadow returns to the dispatcher. -/
def State.endPair (s : State) (c : Nat) : State :=
  match s.leads c with
  | none => s
  | some p =>
    let s := s.releaseHeld c
    let s := if (s.core p.shadow).pairOf = some c then s.modCore p.shadow (fun k =>
      k.freed (s.contained p.shadow || (s.cluster (cluOf c)).halt)) else s
    { s.modCore c (fun k => { k with pairOf := none, undo := [], whole := [] }) with
      pairs := s.pairs.filter (fun q => q.leader != c) }

/-- `unpair`: it issues once its interval has ended with an agreement. -/
def unpairBody (d : Fin 32) (s : State) : Res State := do
  s.controlOnly
  match s.leads s.cur.1 with
  | none => .ok (s.modMe (fun t => t.wg d 1))
  | some _ => .ok ((s.modMe (fun t => t.wg d 0)).endPair s.cur.1)

/-- `unpair` (R236). -/
def execUnpair (gd : Guard) (d : Fin 32) (s : State) := runW gd 8 s (unpairBody d)

/-! ### fprint -/

/-- The pair status word; the shadow takes its leader's. (DEDUCED, log 45) -/
def State.pairWord (s : State) (c : Nat) : Nat :=
  match s.leads c with
  | none => 0
  | some p => 2 ^ 63 + 2 ^ 62 + 2 ^ 40 * p.rollbacks + 2 ^ 32 * posOf p.shadow + p.interval

def fprintBody (d : Fin 32) (x : State → Nat) (s : State) : Res State := do
  s.controlOnly
  .ok (s.modMe (fun t => t.wg d (BitVec.ofNat 64 (x s))))

/-- `fprint` (R236): the running fingerprint, once every earlier instruction's results are in it. -/
def execFprint (gd : Guard) (d : Fin 32) (s : State) :=
  runW gd 8 s (fun s =>
    if s.cur.2 = 0 ∧ !s.myCore.printed.trail.isEmpty then stall s
    else fprintBody d (fun s => s.myCore.printed.fp.toNat) s)

/-- `fprint.last`. -/
def execFprintLast (gd : Guard) (d : Fin 32) (s : State) :=
  runW gd 8 s (fprintBody d (fun s => s.myCore.fpLast.toNat))

/-- `fprint.st`. -/
def execFprintSt (gd : Guard) (d : Fin 32) (s : State) := runW gd 8 s (fprintBody d (fun s => s.pairWord s.cur.1))

/-! ### The end of an interval -/

/-- The fingerprint that core `m` sends: an armed error of kind 3 flips a bit of the next one (R239).
(DESIGN CHOICE, log 40) -/
def State.sentPrint (s : State) (m : Nat) (fp : BitVec 32) : BitVec 32 × State :=
  let x := (s.cluster (cluOf m)).inject.toNat
  if bitAt x 63 && injKind x == 3 && injPos x == posOf m then
    (fp ^^^ BitVec.ofNat 32 (2 ^ (x % 32)), s.disarm (cluOf m))
  else (fp, s)

/-- The leader as it stood at the agreed point: its strands, its engine and its core registers; what came from outside
meanwhile stays. (DEDUCED, log 45) -/
def Core.rollBack (k snap : Core) : Core :=
  { k with
    strands := snap.strands
    ls := k.undo.foldl (fun m x => memSet m x.1 x.2) k.ls
    stray := snap.stray, ue := snap.ue, soff := snap.soff, e4m3 := snap.e4m3, lprog := snap.lprog, late := snap.late
    cist := snap.cist, ports := snap.ports, veins := snap.veins, tabs := snap.tabs, eq0 := snap.eq0
    err := snap.err, armed := snap.armed, repOwner := snap.repOwner, fp := snap.fp, trail := snap.trail
    outq := k.outq.filter (fun o => !o.held), undo := [], whole := [], pdc := [] }

/-- Both cores restore the agreed point; the second time they freeze with pair-mismatch, whose dword 4 holds the leader's
fingerprint in [63:32]. (DEDUCED, log 45) -/
def State.disagree (s : State) (p : PairRec) (a b : BitVec 32) : State :=
  let c := p.leader
  let s := s.modCore p.shadow (fun k => { k with bad := k.badBeside (s.core c) })
  let s := s.modCore c (fun k => k.rollBack p.snap)
  let s := { s with pairs := s.pairs.map (fun q => if q.leader = c then
    { q with retired := 0, rollbacks := min 255 (q.rollbacks + 1), again := !q.again, due := q.ending, pass := false, split := false }
    else q) }
  if p.again then
    ((s.freeze c 0).freezePartner c).sendReport c 0 3
      { code := 0x39, addr := (s.strandAt c 0).pc.setWidth 64, detail := BitVec.ofNat 64 (2 ^ 32 * a.toNat + b.toNat) }
  else s

/-- Both cores agree: the fingerprint restarts at the new agreed point. -/
def State.agree (s : State) (p : PairRec) : State :=
  let c := p.leader
  let s := (s.modCore c (fun k => { k with fpLast := k.fp, fp := 0xFFFFFFFF, trail := [] })).agreePoint c
  if p.ending then s.endPair c
  else { s with pairs := s.pairs.map (fun q =>
    if q.leader = c then { q with retired := 0, again := false, due := false, pass := true, split := false } else q) }

/-- PAIR_INTERVAL_END: the pair that `core` leads has its end due, its EQ0 work is complete, and so are the results of
its retired instructions. The shadow's fingerprint is the leader's, or open where their runs have parted.
(DEDUCED, log 45) -/
def State.endInterval (s : State) (core : Nat) : Option State :=
  match s.leads core with
  | none => none
  | some p =>
    let k := (s.core core).printed
    if p.due && !k.frozen && !p.settle && k.eq0.isEmpty && k.trail.isEmpty && (s.core p.shadow).pairOf == some core then
      let x := (s.setCore core k).sentPrint core k.fp
      let y := x.2.draw.sentPrint p.shadow (if p.split then Config.shadowPrint s.draws else k.fp)
      some (if x.1 = y.1 then y.2.agree p else y.2.disagree p x.1 y.1)
    else none

def execPairIntervalEnd (core : Nat) (s : State) := runE s (s.endInterval core)

/-- PAIR_LOST: the partner of `core` has been silent for 10 µs. -/
def State.losePartner (s : State) (core : Nat) : Option State :=
  match s.pairs.find? (fun p => p.leader == core || p.shadow == core) with
  | none => none
  | some p =>
    if (s.core core).frozen then none
    else
      let s := if p.leader = core then s else s.modCore core (fun k => k.mirror (s.core p.leader))
      let other := if p.leader = core then p.shadow else p.leader
      some ((s.freeze core 0).sendReport core 0 3 { code := 0x3A, detail := BitVec.ofNat 64 (posOf other) })

def execPairLost (core : Nat) (s : State) := runE s (s.losePartner core)

end Sys2Proof.Machine
end

