-- ==== Sys2Proof/Machine/Scalar.lean ====
section
/-! DEFINITION. Integer arithmetic and logic (R88 to R97). -/

namespace Sys2Proof.Machine

/-! ### The operations of R90 on exact integers: type, a, b, shift amount -/

abbrev IntOp := Ty → Int → Int → Nat → Int

def opAdd : IntOp := fun _ a b _ => a + b
def opSub : IntOp := fun _ a b _ => a - b
def opMul : IntOp := fun _ a b _ => a * b
def opMulh : IntOp := fun ty a b _ => a * b / (2 ^ ty.bits : Nat)
def opDiv : IntOp := fun _ a b _ => if b = 0 then -1 else a.tdiv b
def opRem : IntOp := fun _ a b _ => if b = 0 then a else a - b * a.tdiv b
def opAnd : IntOp := fun ty a b _ => (patternOf ty a &&& patternOf ty b : Nat)
def opOr : IntOp := fun ty a b _ => (patternOf ty a ||| patternOf ty b : Nat)
def opXor : IntOp := fun ty a b _ => (patternOf ty a ^^^ patternOf ty b : Nat)
def opAndn : IntOp := fun ty a b _ => (patternOf ty a &&& patternOf ty (-b - 1) : Nat)
def opShl : IntOp := fun _ a _ s => a * (2 ^ s : Nat)
def opShr : IntOp := fun ty a _ s => (patternOf ty a / 2 ^ s : Nat)
def opSar : IntOp := fun ty a _ s => sextN (patternOf ty a) ty.bits / (2 ^ s : Nat)
def opRol : IntOp := fun ty a _ s =>
  (patternOf ty a * 2 ^ s % 2 ^ ty.bits + patternOf ty a / 2 ^ (ty.bits - s) : Nat)
def opMin : IntOp := fun _ a b _ => if a ≤ b then a else b
def opMax : IntOp := fun _ a b _ => if a ≤ b then b else a

/-- The result and the flags of a two-operand instruction (R89). -/
def alu2 (op : IntOp) (x : Alu2) (t : Strand) : Word × Flags :=
  let v := op x.ty (operandOf x.ty (t.rg x.a)) (operandOf x.ty (braw t x.b)) (shiftOf x.ty (braw t x.b))
  let y := if x.sat then satTo v x.ty else (extTo x.ty v, 0)
  (wordOfInt y.1, y.2)

/-- A two-operand instruction writes its result and raises `sa` (R89). -/
def Strand.alu2 (op : IntOp) (x : Alu2) (t : Strand) : Strand :=
  let r := Machine.alu2 op x t
  (t.wg x.d r.1).raise r.2

/-! ### One-operand forms (R92) on the N-bit pattern -/

def opClz (n f : Nat) : Nat := if f = 0 then n else n - 1 - Nat.log2 f

/-- Zero bits below the lowest 1 among the low `n` bits. -/
def opCtz : Nat → Nat → Nat
  | 0, _ => 0
  | n + 1, f => if f % 2 = 1 then 0 else 1 + opCtz n (f / 2)

/-- 1 bits among the low `n` bits. -/
def opPopc : Nat → Nat → Nat
  | 0, _ => 0
  | n + 1, f => f % 2 + opPopc n (f / 2)

/-- The result of a one-operand count (R92). -/
def alu1 (op : Nat → Nat → Nat) (x : Alu1) (t : Strand) : Word :=
  wordOfInt (extTo x.ty (op x.ty.bits ((t.rg x.a).toNat % 2 ^ x.ty.bits) : Nat))

/-- Conditions on integers (R93). -/
def condInt (c : Cond) (a b : Int) : Bool :=
  match c with
  | .eq => a == b
  | .ne => a != b
  | .lt => decide (a < b)
  | .le => decide (a ≤ b)
  | .gt => decide (b < a)
  | .ge => decide (b ≤ a)

/-- The predicate `cmp` writes (R93). -/
def cmpVal (c : Cond) (ty : Ty) (a : Fin 32) (b : BSrc) (t : Strand) : BitVec 16 :=
  if condInt c (operandOf ty (t.rg a)) (operandOf ty (braw t b)) then 0xFFFF else 0

/-- `bext` (R95). -/
def bextVal (x : Word) (pos w : Nat) (s : Bool) : Word :=
  let f := bitsN x.toNat (pos + w - 1) pos
  if s then wordOfInt (sextN f w) else BitVec.ofNat 64 f

/-- `bins` (R95). -/
def binsVal (d a : Word) (pos w : Nat) : Word := BitVec.ofNat 64 (setBits d.toNat pos w a.toNat)

/-- What each repeatable integer instruction does to its strand: the body of its meaning, and of each of
its repeats (R143). -/
def Strand.selBody (d a b : Fin 32) (c : Fin 8) (t : Strand) : Strand :=
  t.wg d (if (t.rp c).getLsbD 0 then t.rg a else t.rg b)

def execAdd (x : Alu2) (s : State) := runR x.gd x.b.len s (Strand.alu2 opAdd x)
def execSub (x : Alu2) (s : State) := runR x.gd x.b.len s (Strand.alu2 opSub x)
def execMul (x : Alu2) (s : State) := runR x.gd x.b.len s (Strand.alu2 opMul x)
def execMulh (x : Alu2) (s : State) := runR x.gd x.b.len s (Strand.alu2 opMulh x)
def execDiv (x : Alu2) (s : State) := runR x.gd x.b.len s (Strand.alu2 opDiv x)
def execRem (x : Alu2) (s : State) := runR x.gd x.b.len s (Strand.alu2 opRem x)
def execAnd (x : Alu2) (s : State) := runR x.gd x.b.len s (Strand.alu2 opAnd x)
def execOr (x : Alu2) (s : State) := runR x.gd x.b.len s (Strand.alu2 opOr x)
def execXor (x : Alu2) (s : State) := runR x.gd x.b.len s (Strand.alu2 opXor x)
def execAndn (x : Alu2) (s : State) := runR x.gd x.b.len s (Strand.alu2 opAndn x)
def execShl (x : Alu2) (s : State) := runR x.gd x.b.len s (Strand.alu2 opShl x)
def execShr (x : Alu2) (s : State) := runR x.gd x.b.len s (Strand.alu2 opShr x)
def execSar (x : Alu2) (s : State) := runR x.gd x.b.len s (Strand.alu2 opSar x)
def execRol (x : Alu2) (s : State) := runR x.gd x.b.len s (Strand.alu2 opRol x)
def execMin (x : Alu2) (s : State) := runR x.gd x.b.len s (Strand.alu2 opMin x)
def execMax (x : Alu2) (s : State) := runR x.gd x.b.len s (Strand.alu2 opMax x)
def execClz (x : Alu1) (s : State) := runR x.gd 8 s (fun t => t.wg x.d (alu1 opClz x t))
def execCtz (x : Alu1) (s : State) := runR x.gd 8 s (fun t => t.wg x.d (alu1 opCtz x t))
def execPopc (x : Alu1) (s : State) := runR x.gd 8 s (fun t => t.wg x.d (alu1 opPopc x t))
/-- `mov` (R92). -/
def execMov (x : Alu1) (s : State) := runR x.gd 8 s (fun t => t.wg x.d (alu1 (fun _ f => f) x t))
/-- `sel` (R94). -/
def execSel (gd : Guard) (d a b : Fin 32) (c : Fin 8) (s : State) := runR gd 8 s (Strand.selBody d a b c)
/-- `cmp` (R93). -/
def execCmp (gd : Guard) (cond : Cond) (ty : Ty) (d : Fin 8) (a : Fin 32) (b : BSrc) (s : State) :=
  runR gd b.len s (fun t => t.wp d (cmpVal cond ty a b t))
def execBext (gd : Guard) (d a : Fin 32) (pos w1 : Fin 64) (sg : Bool) (s : State) :=
  runR gd 8 s (fun t => t.wg d (bextVal (t.rg a) pos.val (w1.val + 1) sg))
def execBins (gd : Guard) (d a : Fin 32) (pos w1 : Fin 64) (s : State) :=
  runR gd 8 s (fun t => t.wg d (binsVal (t.rg d) (t.rg a) pos.val (w1.val + 1)))
/-- `lea` (R96). -/
def execLea (gd : Guard) (d a b : Fin 32) (sc : Fin 4) (disp : Disp) (s : State) :=
  runR gd disp.len s (fun t => t.wg d (effAddr t a b sc disp))
/-- `li` (R97). -/
def execLi (gd : Guard) (d : Fin 32) (i : LiImm) (s : State) := runR gd i.len s (fun t => t.wg d i.val)

end Sys2Proof.Machine
end

