-- ==== Sys2Proof/Machine/Special.lean ====
section
/-! DEFINITION. The special functions (R131 to R133). Where the manual gives a bound and no value, the value is
free within it (DESIGN CHOICE, log 10): the bounds of R132 are imposed exactly on `frcp`, `frsq` and `fsqrt`, and in
fixed point, far finer than FP32, on the others. -/

namespace Sys2Proof.Machine

/-- Codes of the special results. -/
def pInf : Lane := 0x7F800000
def nInf : Lane := 0xFF800000
def one : Lane := 0x3F800000
def negZero : Lane := 0x80000000

/-- A subnormal becomes a zero of its sign (R132, fast grade). -/
def flushLane (x : Lane) : Lane := if x.toNat % 2 ^ 31 < 0x00800000 then x &&& 0x80000000 else x

/-- The sign bit of `a` on the magnitude of `x`. -/
def withSign (a x : Lane) : Lane := (a &&& 0x80000000) ||| (x &&& 0x7FFFFFFF)

/-- The rows of R133: the result and flag of a special operand; none for the others. -/
def specialRow (f : Nat) (a : Lane) : Option (Lane × Flags) :=
  let x := fp32.value a.toNat
  let neg := a.getLsbD 31
  if x.isNan then some (qNan, sigFlag [x])
  else match f with
    | 0 => -- fexp
      if x.isInf then some (if neg then 0 else pInf, 0)
      else if x.isZero then some (one, 0)
      else if !neg && decide (0x42B17218 ≤ a.toNat) then some (pInf, fOF)
      else none
    | 1 => -- flog
      if x.isZero then some (nInf, fDZ)
      else if neg then some (qNan, fNV)
      else if x.isInf then some (pInf, 0)
      else if a = one then some (0, 0)
      else none
    | 2 => -- frcp
      if x.isZero then some (withSign a pInf, fDZ)
      else if x.isInf then some (withSign a 0, 0)
      else none
    | 3 => -- frsq
      if x.isZero then some (withSign a pInf, fDZ)
      else if neg then some (qNan, fNV)
      else if x.isInf then some (0, 0)
      else none
    | 4 => -- fsqrt
      if x.isZero then some (a, 0)
      else if neg then some (qNan, fNV)
      else if x.isInf then some (pInf, 0)
      else none
    | 5 => -- fsin
      if x.isInf then some (qNan, fNV) else if x.isZero then some (a, 0) else none
    | 6 => -- fcos
      if x.isInf then some (qNan, fNV) else if x.isZero then some (one, 0) else none
    | 8 => -- fsig
      if x.isInf then some (if neg then 0 else one, 0) else if x.isZero then some (0x3F000000, 0) else none
    | 9 | 10 => -- fgelu, fsilu
      if x.isInf then some (if neg then negZero else pInf, 0) else if x.isZero then some (a, 0) else none
    | _ => -- ftanh, ferf
      if x.isInf then some (withSign a one, 0) else if x.isZero then some (a, 0) else none

/-! ### The bounds of R132 for the algebraic functions, exactly -/

/-- A non-negative rational. -/
structure Rat0 where
  n : Nat
  d : Nat

def Rat0.le (x y : Rat0) : Bool := decide (x.n * y.d ≤ y.n * x.d)
def Rat0.mul (x y : Rat0) : Rat0 := ⟨x.n * y.n, x.d * y.d⟩
def Rat0.add (x y : Rat0) : Rat0 := ⟨x.n * y.d + y.n * x.d, x.d * y.d⟩
def Rat0.sub (x y : Rat0) : Rat0 := ⟨x.n * y.d - y.n * x.d, x.d * y.d⟩

/-- The magnitude of a finite FP32 code, and a power of two. -/
def magOf (x : Lane) : Rat0 :=
  match fp32.value (x.toNat % 2 ^ 31) with
  | .num _ m e d => ⟨(scaleBy m d e).1, (scaleBy m d e).2⟩
  | _ => ⟨0, 1⟩
def pow2 (e : Int) : Rat0 := ⟨(scaleBy 1 1 e).1, (scaleBy 1 1 e).2⟩

/-- Floor of log2 of a positive rational. -/
def Rat0.log (x : Rat0) : Int := floorLog x.n 0 x.d

/-- The power `p` of f(a), for the operand's magnitude: 1 for 1/x, with p = 1; 1/x and x for the roots, p = 2. -/
def algTarget (f : Nat) (a : Rat0) : Rat0 × Nat :=
  if f = 2 then (⟨a.d, a.n⟩, 1) else if f = 3 then (⟨a.d, a.n⟩, 2) else (a, 2)

/-- Exponent of one ulp of f(a): `t` is f(a) to the power `p`. -/
def ulpExp (t : Rat0) (p : Nat) : Int := max (t.log / p - 23) (-149)

def Rat0.pow (x : Rat0) (p : Nat) : Rat0 := ⟨x.n ^ p, x.d ^ p⟩

/-- The code `y` lies within the grade's bound of f(a) (R132). (DESIGN CHOICE, log 10) -/
def withinBound (f : Nat) (acc : Bool) (a y : Lane) : Bool :=
  let t := algTarget f (magOf a)
  let m := magOf y
  if acc then
    let u := pow2 (ulpExp t.1 t.2)
    ((m.sub u).pow t.2).le t.1 && t.1.le ((m.add u).pow t.2)
  else
    -- |y − f| ≤ 2⁻¹² f: y / (1 + 2⁻¹²) ≤ f ≤ y / (1 − 2⁻¹²)
    ((m.mul ⟨4096, 4097⟩).pow t.2).le t.1 && t.1.le ((m.mul ⟨4096, 4095⟩).pow t.2)

/-- A code within both bounds: f(a) cut to FP32's precision. -/
def cutTarget (f : Nat) (a : Lane) : Lane :=
  let t := algTarget f (magOf a)
  let e := ulpExp t.1 t.2
  let p := scaleBy t.1.n t.1.d (-(e * t.2))
  let q := p.1 / p.2
  let n := if t.2 = 1 then q else Nat.sqrt q
  BitVec.ofNat 32 (min (n + (e + 149).toNat * 2 ^ 23) 0x7F7FFFFF)

/-! ### The bounds of R132 for the other functions, in fixed point

A number is an integer of units 2^-320. The series below are cut where what they leave out is far below `slack`, so
that the limits drawn here contain every result that R132 allows. -/

def fixOne : Int := 2 ^ 320
def fixMul (x y : Int) : Int := x * y / fixOne
def fixDiv (x y : Int) : Int := x * fixOne / y

/-- e to the power `x`; an exponent beyond ±300 counts as ±300. -/
def fixExp (x : Int) : Int :=
  let r := max (min x (300 * fixOne)) (-300 * fixOne) / 1024
  let y := (List.range 64).foldr (fun (i : Nat) (acc : Int) => fixOne + fixMul r acc / ((i : Int) + 1)) fixOne
  (List.range 10).foldl (fun (acc : Int) (_ : Nat) => fixMul acc acc) y

/-- The sum of `t^(2i+1)/(2i+1)`: the area tangent, and with sign -1 the arc tangent, of `t` in units of 1/`u`. -/
def atanSum (sign t u : Int) (n : Nat) : Int :=
  ((List.range n).foldl (fun (p : Int × Int) (i : Nat) =>
    (p.1 + p.2 / (2 * (i : Int) + 1), sign * (p.2 * t / u * t / u))) (0, t)).1

/-- The natural logarithm of a positive number. -/
def fixLog (x : Int) : Int :=
  let k : Int := (Nat.log2 x.toNat : Int) - 320
  let m := if k ≥ 0 then x / 2 ^ k.toNat else x * 2 ^ (-k).toNat
  2 * atanSum 1 (fixDiv (m - fixOne) (m + fixOne)) fixOne 110 + k * (2 * atanSum 1 (fixOne / 3) fixOne 110)

/-- π in units of 2^-512 (Machin's formula). -/
def piWide : Int :=
  let u : Int := 2 ^ 512
  16 * atanSum (-1) (u / 5) u 120 - 4 * atanSum (-1) (u / 239) u 40

/-- Sine (`odd`) or cosine of `x`. -/
def fixTrig (odd : Bool) (x : Int) : Int :=
  let r := (x * 2 ^ 192 + piWide) % (2 * piWide) - piWide
  let r := r / 2 ^ 192
  let k : Int := if odd then 1 else 0
  ((List.range 64).foldl (fun (p : Int × Int) (i : Nat) =>
    (p.1 + p.2, -(fixMul (fixMul p.2 r) r) / ((2 * (i : Int) + 1 + k) * (2 * (i : Int) + 2 + k))))
    (0, if odd then r else fixOne)).1

/-- The hyperbolic tangent and the logistic function. -/
def fixTanh (x : Int) : Int := let e := fixExp (2 * max (min x (150 * fixOne)) (-150 * fixOne)); fixDiv (e - fixOne) (e + fixOne)
def fixSig (x : Int) : Int := fixDiv fixOne (fixOne + fixExp (-x))

def fixSqrt (x : Int) : Int := (Nat.sqrt (x.toNat * 2 ^ 320) : Int)

/-- The error function; beyond ±12 it counts as ±1. -/
def fixErf (x : Int) : Int :=
  if x ≥ 12 * fixOne then fixOne else if x ≤ -12 * fixOne then -fixOne
  else
    let s := ((List.range 640).foldl (fun (p : Int × Int) (i : Nat) =>
      (p.1 + p.2, fixMul (fixMul (2 * p.2) x) x / (2 * (i : Int) + 3))) (0, x)).1
    fixMul (fixDiv (2 * fixOne) (fixSqrt (piWide / 2 ^ 192))) (fixDiv s (fixExp (fixMul x x)))

/-- A finite FP32 code in units of 2^-320, exactly. -/
def fixOf (x : Lane) : Int :=
  match fp32.value x.toNat with
  | .num n m e _ => (if n then -1 else 1) * ((m : Int) * 2 ^ (e + 320).toNat)
  | _ => 0

/-- f(a) of R131 for the functions that the algebraic bounds do not serve.
(DESIGN CHOICE, log 10) -/
def fixTarget (f : Nat) (a : Lane) : Int :=
  let x := fixOf a
  match f with
  | 0 => fixExp x
  | 1 => fixLog x
  | 5 => fixTrig true x
  | 6 => fixTrig false x
  | 7 => fixTanh x
  | 8 => fixSig x
  | 9 => fixMul x (fixOne + fixErf (fixDiv x (fixSqrt (2 * fixOne)))) / 2
  | 10 => fixMul x (fixSig x)
  | _ => fixErf x

/-- What the series may have left out: 2^-200, and 2^-100 of the value. -/
def slack (y : Int) : Int := 2 ^ 120 + y.natAbs / 2 ^ 100

/-- Where f(a) lies nearer to a power of two than `slack` tells, its magnitude is the smaller of the two: f(a) is no power
of two itself, and nears 1, a/2 or a from the side that the function takes. -/
def belowPower (f : Nat) (a : Lane) : Bool :=
  match f with
  | 0 => a.getLsbD 31
  | 8 | 9 | 10 => a.getLsbD 31 || decide (one.toNat ≤ a.toNat % 2 ^ 31)
  | _ => true

/-- One ulp of FP32 at f(a), which is `y` within `slack`. (DESIGN CHOICE, log 10) -/
def fixUlp (below : Bool) (y : Int) : Int :=
  2 ^ (max (Nat.log2 (if below then y.natAbs - slack y else y.natAbs + slack y).toNat) 194 - 23)

/-- The grade's bound on the distance from `y` = f(a) (R132). -/
def fixBound (f : Nat) (acc : Bool) (a : Lane) (y : Int) : Int :=
  if acc then fixUlp (belowPower f a) y
  else if f = 1 ∨ f = 5 ∨ f = 6 ∨ f = 9 ∨ f = 10 then max (y.natAbs : Int) (2 ^ 308) / 2 ^ 12
  else y.natAbs / 2 ^ 12

/-- The range of f (R132), and +0 or more for `fexp` (R133). -/
def inRange (f : Nat) (y : Lane) : Bool :=
  let v := fixOf y
  match f with
  | 0 => !y.getLsbD 31
  | 5 | 6 | 7 | 11 => decide (-fixOne ≤ v ∧ v ≤ fixOne)
  | 8 => decide (0 ≤ v ∧ v ≤ fixOne)
  | _ => true

/-- The code `y` is a result that R132 allows for f(a). (DESIGN CHOICE, log 10) -/
def withinFix (f : Nat) (acc : Bool) (a y : Lane) : Bool :=
  let t := fixTarget f a
  decide (y.toNat % 2 ^ 31 ≤ 0x7F7FFFFF) && inRange f y
    && decide (((fixOf y - t).natAbs : Int) ≤ fixBound f acc a t + slack t)

/-- The greatest magnitude that f takes (R132). (DESIGN CHOICE, log 10) -/
def greatest (f : Nat) : Lane := if f = 5 ∨ f = 6 ∨ f = 7 ∨ f = 8 ∨ f = 11 then one else 0x7F7FFFFF
/-- f is nowhere negative. (DESIGN CHOICE, log 10) -/
def nowhereNeg (f : Nat) : Bool := f == 0 || f == 8

/-- f(a) cut to FP32's precision. (DESIGN CHOICE, log 10) -/
def cutFix (f : Nat) (a : Lane) : Lane :=
  let t := fixTarget f a
  let e := max (Nat.log2 t.natAbs) 194
  let m := t.natAbs / 2 ^ (e - 23) + (e - 194) * 2 ^ 23
  withSign (if t < 0 && !nowhereNeg f then negZero else 0) (BitVec.ofNat 32 (min m (greatest f).toNat))

/-- The value of an ordinary operand: free, within the limits (log 10). 1/a beyond FP32's greatest number is no
value that R132 states: it is free altogether. (DESIGN CHOICE, log 10) -/
def specialFree (f : Nat) (acc : Bool) (a : Lane) : Lane × Flags :=
  let y := Config.special f acc a
  match f with
  | 2 =>
    if a.toNat % 2 ^ 31 ≤ 0x00200000 then (y, 0)
    else (withSign a (if withinBound 2 acc a y && decide (y.toNat % 2 ^ 31 ≤ 0x7F7FFFFF) then y else cutTarget 2 a), 0)
  | 3 => (if withinBound 3 acc a y && decide (y.toNat ≤ 0x7F7FFFFF) then y else cutTarget 3 a, 0)
  | 4 => (if withinBound 4 acc a y && decide (y.toNat ≤ 0x7F7FFFFF) then y else cutTarget 4 a, 0)
  | _ =>
    (if withinFix f acc a y then y else cutFix f a,
      if acc && f == 0 && a.getLsbD 31 && decide (0x42AEAC50 ≤ a.toNat % 2 ^ 31) then fUF else 0)

/-- A special function on one lane (R131 to R133). -/
def specialOp (f : Nat) (acc : Bool) (a : Lane) : Lane × Flags :=
  let a := if acc then a else flushLane a
  let r := (specialRow f a).getD (specialFree f acc a)
  if acc then r else (flushLane r.1, r.2)

def specBody (f : Nat) (x : Spec) : State → Res State :=
  vecBody x.cq [x.a] x.d false (lanesOf x.gd) (fun _ _ vs _ l => specialOp f x.acc (srcLane vs 0 l))

def execFexp (x : Spec) (s : State) := runL 8 s (specBody 0 x)
def execFlog (x : Spec) (s : State) := runL 8 s (specBody 1 x)
def execFrcp (x : Spec) (s : State) := runL 8 s (specBody 2 x)
def execFrsq (x : Spec) (s : State) := runL 8 s (specBody 3 x)
def execFsqrt (x : Spec) (s : State) := runL 8 s (specBody 4 x)
def execFsin (x : Spec) (s : State) := runL 8 s (specBody 5 x)
def execFcos (x : Spec) (s : State) := runL 8 s (specBody 6 x)
def execFtanh (x : Spec) (s : State) := runL 8 s (specBody 7 x)
def execFsig (x : Spec) (s : State) := runL 8 s (specBody 8 x)
def execFgelu (x : Spec) (s : State) := runL 8 s (specBody 9 x)
def execFsilu (x : Spec) (s : State) := runL 8 s (specBody 10 x)
def execFerf (x : Spec) (s : State) := runL 8 s (specBody 11 x)

end Sys2Proof.Machine
end

