-- ==== Sys2Proof/Machine/Repeat.lean ====
section
/-! DEFINITION. The repeat prefix and REPEAT_ISSUE (R140 to R146). -/

namespace Sys2Proof.Machine

/-- The meaning of an instruction that a prefix may precede (R141); of another, nothing happens. -/
def repeatMeaning (i : Instr) (s : State) : Host.Outcome State Fault Refusal :=
  match i with
  | .add x => execAdd x s | .sub x => execSub x s | .mul x => execMul x s | .mulh x => execMulh x s
  | .div x => execDiv x s | .rem x => execRem x s | .and x => execAnd x s | .or x => execOr x s
  | .xor x => execXor x s | .andn x => execAndn x s | .shl x => execShl x s | .shr x => execShr x s
  | .sar x => execSar x s | .rol x => execRol x s | .clz x => execClz x s | .ctz x => execCtz x s
  | .popc x => execPopc x s | .min x => execMin x s | .max x => execMax x s
  | .sel gd d a b c => execSel gd d a b c s
  | .cmp gd cond ty d a b => execCmp gd cond ty d a b s
  | .bext gd d a pos w1 sg => execBext gd d a pos w1 sg s
  | .bins gd d a pos w1 => execBins gd d a pos w1 s
  | .lea gd d a b sc disp => execLea gd d a b sc disp s
  | .mov x => execMov x s
  | .li gd d i => execLi gd d i s
  | .nop n => execNop n s
  | .ld gd d m ty order scope => execLd gd d m ty order scope s
  | .st gd d m ty order scope => execSt gd d m ty order scope s
  | .vadd x => execVadd x s | .vsub x => execVsub x s | .vmul x => execVmul x s | .vfma x => execVfma x s
  | .vfms x => execVfms x s | .vmin x => execVmin x s | .vmax x => execVmax x s | .vabs x => execVabs x s
  | .vneg x => execVneg x s
  | .vcvt gd d a src dst round cq => execVcvt gd d a src dst round cq s
  | .vcmp gd d a b cond ty cq => execVcmp gd d a b cond ty cq s
  | .vsel gd d a b c cq => execVsel gd d a b c cq s
  | .vand x => execVand x s | .vor x => execVor x s | .vxor x => execVxor x s | .vshl x => execVshl x s
  | .vshr x => execVshr x s | .vsar x => execVsar x s
  | .vperm gd d a b cq => execVperm gd d a b cq s
  | .vbcast gd d src cq => execVbcast gd d src cq s
  | .vsum gd d a ty sat round cq => execVsum gd d a ty sat round cq s
  | .vdot gd d a b ty z cq => execVdot gd d a b ty z cq s
  | .vld x => execVld x s | .vst x => execVst x s | .vgath x => execVgath x s | .vscat x => execVscat x s
  | .vmov gd form cq => execVmov gd form cq s
  | .fexp x => execFexp x s | .flog x => execFlog x s | .frcp x => execFrcp x s | .frsq x => execFrsq x s
  | .fsqrt x => execFsqrt x s | .fsin x => execFsin x s | .fcos x => execFcos x s | .ftanh x => execFtanh x s
  | .fsig x => execFsig x s | .fgelu x => execFgelu x s | .fsilu x => execFsilu x s | .ferf x => execFerf x s
  | .lplan gd k rcd fmt cq => execLplan gd k rcd fmt cq s
  | .ldot x => execLdot x s | .ldot2 x => execLdot2 x s
  | .lsort gd dst src fmt ty round cq => execLsort gd dst src fmt ty round cq s
  | .lclr gd w anchor => execLclr gd w anchor s
  | .lrd gd d w ty round => execLrd gd d w ty round s
  | .lrdRaw gd d b w => execLrdRaw gd d b w s
  | .lrdSt gd d w => execLrdSt gd d w s
  | .lrdV gd d w ty round cq => execLrdV gd d w ty round cq s
  | .lwr gd w a b c => execLwr gd w a b c s
  | .lwrAdd gd w a b c => execLwrAdd gd w a b c s
  | _ => .next s

/-- Bytes of the repeated instruction. -/
def bodyLen (body : Instr) : Nat := Decode.lenBytes (Decode.toFields body).len

/-- The repeat at which a prefix begins (R143, R146). -/
def Strand.firstRepeat (t : Strand) (n : Nat) : Nat :=
  if t.repact && decide (1 ≤ t.repcnt.toNat) && decide (t.repcnt.toNat ≤ n) && t.repAt == t.pc then
    n - t.repcnt.toNat else 0

/-- The strand once its prefix has issued. -/
def Strand.beginRep (t : Strand) (n : Nat) (sd sa sb : BitVec 3) (body : Instr) (now : Nat) : Strand :=
  let i := t.firstRepeat n
  { t with
    repact := true
    repcnt := BitVec.ofNat 7 (n - i)
    repAt := t.pc
    rei := false
    blk := 0
    stamp := now
    rep := some ⟨body, n, sd, sa, sb, i, { pc := t.pc + BitVec.ofNat 57 (8 + bodyLen body) }⟩ }

/-- `rep` (R140, R143, R144): the prefix takes the issue slot, and stalls while the buffer is another's. -/
def execRep (n1 : Fin 64) (sd sa sb : BitVec 3) (body : Instr) (s : State) : Host.Outcome State Fault Refusal :=
  if s.myCore.repOwner.isSome then .next (s.waitOn 0)
  else
    let s := s.modMe (fun t => t.beginRep (n1.val + 1) sd sa sb body s.myCore.slot)
    .next { s.modMyCore (fun k => { k with repOwner := some s.cur.2 }) with retired := true }

/-- The last repeat is done: held results are committed (R143, R145). -/
def State.endRep (s : State) (r : RepSeq) : State :=
  let c := s.cur.1
  let s := s.modMe (fun t =>
    let f := t.fflags
    { t.overlaid r.ahead with
      fflags := f ||| r.ahead.flags
      rep := none
      repact := false
      repcnt := 0 })
  (s.modMyCore (fun k => { k with repOwner := none })).noteRetired c s.myCore r.ahead.n
    ⟨s.cur.2, s.nextId, s.nextId, [.bytes r.ahead.trace]⟩

/-- A repeat has completed, before which the state was `s0`: PC and stamp stay the prefix's, and the count falls (R143,
R144); a load of another module's memory blocks the strand (R21). -/
def State.afterRepeat (s : State) (r : RepSeq) (b : Instr) (s0 : State) : State :=
  let trace := s0.me.traceOf s.me b s0.nextId
  let s := s.modMe (fun t =>
    { t with
      pc := s0.me.pc
      stamp := s0.me.stamp
      blk := t.gateCode
      repcnt := BitVec.ofNat 7 (r.n - (r.i + 1))
      rep := some { r with i := r.i + 1 } })
  let s := s.noteRetired s.cur.1 s0.myCore 1 ⟨s.cur.2, s0.nextId, s.nextId, trace⟩
  if r.n ≤ r.i + 1 then s.endRep r else s

/-- The strand that owns the buffer, with its sequence, when its next repeat may issue. -/
def State.repeatReady (s : State) (core : Nat) : Option (Fin 11 × RepSeq × Instr) :=
  let k := s.core core
  match k.repOwner with
  | none => none
  | some h =>
    let t := k.strands[h]
    match t.rep with
    | none => none
    | some r => match Decode.repeatOf r.body r.sd r.sa r.sb r.i with
      | .error _ => none
      | .ok b =>
        if k.frozen || !t.gates.isEmpty || b.regs.any t.pending || k.pairOf.any (fun l => l != core)
            || (s.leads core).any PairRec.due then none
        else some (h, r, b)

/-- REPEAT_ISSUE: one repeat of the prefix in the buffer of core `core`. -/
def execRepeatIssue (core : Nat) (s : State) : Host.Outcome State Fault Refusal :=
  match s.repeatReady core with
  | none => .next s
  | some (h, r, b) =>
    let s := { s with cur := (core, h), retired := false }
    let t := s.me
    match repeatMeaning b s with
    | .next s' =>
      match t.changes with
      | ch :: _ => if s'.retired || (s'.core core).frozen then .next (s.takeChange ch) else .next s'
      | [] =>
        if s'.retired then .next (s'.afterRepeat r b s) else .next s'
    | o => o

end Sys2Proof.Machine
end

