-- ==== Sys2Proof/Machine/Streams.lean ====
section
/-! DEFINITION. Binding and release of stream ports, and STREAM_READ_AHEAD (R134, R137, R138). -/

namespace Sys2Proof.Machine

def sbindBody (q : Fin 4) (d : Fin 16) (a : Fin 32) (wr : Bool) (ty : Ty) (base : BitVec 20) (s0 : BitVec 12)
    (n0 : BitVec 8) (s1 : BitVec 16) (n1 : BitVec 8) (s : State) : Res State := do
  let k := s.myCore
  let h := s.cur.2
  trapIf (k.ports[q].any (fun p => p.strand != h)) (Trap.portBusy q.val)
  trapIf ((k.portOf h d).any (fun x => x.1 != q)) (Trap.streamMisuse ((k.portOf h d).map (fun x => x.1.val)).get!)
  .ok ((s.setPort s.cur.1 q (some
    { strand := h, d := d, ty := ty, wr := wr
      base := (s.me.rg a + base.setWidth 64).setWidth 20
      s0 := s0, n0 := n0.toNat + 1, s1 := s1, n1 := n1.toNat + 1, since := s.nextId, word := base })).fresh)

/-- `sbind` (R134). -/
def execSbind (gd : Guard) (q : Fin 4) (d : Fin 16) (a : Fin 32) (wr : Bool) (ty : Ty) (base : BitVec 20)
    (s0 : BitVec 12) (n0 : BitVec 8) (s1 : BitVec 16) (n1 : BitVec 8) (s : State) :=
  runW gd 16 s (sbindBody q d a wr ty base s0 n0 s1 n1)

/-- `sunbind` (R137): the port's writes are in the strand store buffer already. -/
def execSunbind (gd : Guard) (q : Fin 4) (s : State) :=
  runW gd 8 s (fun s => do
    trapIf (s.myCore.ports[q].any (fun p => p.strand != s.cur.2)) (Trap.portBusy q.val)
    .ok (s.setPort s.cur.1 q none))

/-- STREAM_READ_AHEAD: the next element of a bound read stream is satisfied (R138); not in an absent window,
where the read itself waits (R144). -/
def State.readAhead (s : State) (c : Nat) (q : Fin 4) : Option State :=
  match (s.core c).ports[q] with
  | none => none
  | some p =>
    let j := p.pos + p.ahead.length
    if p.wr || p.total ≤ j || ((s.core c).touched (p.locs (s.core c) j)).isSome then none
    else (s.streamElem c p j).map (fun x => x.2.setPort c q (some { p with ahead := p.ahead ++ [x.1] }))

def execStreamReadAhead (core : Nat) (q : Fin 4) (s : State) := runE s (s.readAhead core q)

end Sys2Proof.Machine
end

