-- ==== Sys2Proof/Machine/Dispatch.lean ====
section
/-! DEFINITION. The dispatch of an instruction or an event to its meaning. -/

namespace Sys2Proof.Machine

def exec (i : Instr) (s : State) : Host.Outcome State Fault Refusal :=
  match i with
  | .add x => Sys2Proof.Machine.execAdd x s
  | .sub x => Sys2Proof.Machine.execSub x s
  | .mul x => Sys2Proof.Machine.execMul x s
  | .mulh x => Sys2Proof.Machine.execMulh x s
  | .div x => Sys2Proof.Machine.execDiv x s
  | .rem x => Sys2Proof.Machine.execRem x s
  | .and x => Sys2Proof.Machine.execAnd x s
  | .or x => Sys2Proof.Machine.execOr x s
  | .xor x => Sys2Proof.Machine.execXor x s
  | .andn x => Sys2Proof.Machine.execAndn x s
  | .shl x => Sys2Proof.Machine.execShl x s
  | .shr x => Sys2Proof.Machine.execShr x s
  | .sar x => Sys2Proof.Machine.execSar x s
  | .rol x => Sys2Proof.Machine.execRol x s
  | .clz x => Sys2Proof.Machine.execClz x s
  | .ctz x => Sys2Proof.Machine.execCtz x s
  | .popc x => Sys2Proof.Machine.execPopc x s
  | .min x => Sys2Proof.Machine.execMin x s
  | .max x => Sys2Proof.Machine.execMax x s
  | .sel gd d a b c => Sys2Proof.Machine.execSel gd d a b c s
  | .cmp gd cond ty d a b => Sys2Proof.Machine.execCmp gd cond ty d a b s
  | .bext gd d a pos w1 sg => Sys2Proof.Machine.execBext gd d a pos w1 sg s
  | .bins gd d a pos w1 => Sys2Proof.Machine.execBins gd d a pos w1 s
  | .lea gd d a b sc disp => Sys2Proof.Machine.execLea gd d a b sc disp s
  | .mov x => Sys2Proof.Machine.execMov x s
  | .li gd d imm => Sys2Proof.Machine.execLi gd d imm s
  | .nop n => Sys2Proof.Machine.execNop n s
  | .br gd off => Sys2Proof.Machine.execBr gd off s
  | .jmp gd t => Sys2Proof.Machine.execJmp gd t s
  | .jal gd d off => Sys2Proof.Machine.execJal gd d off s
  | .jr gd d a disp => Sys2Proof.Machine.execJr gd d a disp s
  | .ret gd a => Sys2Proof.Machine.execRet gd a s
  | .loop gd d off => Sys2Proof.Machine.execLoop gd d off s
  | .trap gd code => Sys2Proof.Machine.execTrap gd code s
  | .sysrd gd d reg f => Sys2Proof.Machine.execSysrd gd d reg f s
  | .syswr gd a reg f => Sys2Proof.Machine.execSyswr gd a reg f s
  | .thaw gd d a => Sys2Proof.Machine.execThaw gd d a s
  | .ld gd d m ty order scope => Sys2Proof.Machine.execLd gd d m ty order scope s
  | .st gd d m ty order scope => Sys2Proof.Machine.execSt gd d m ty order scope s
  | .ldp gd d c m order scope => Sys2Proof.Machine.execLdp gd d c m order scope s
  | .stp gd d c m order scope => Sys2Proof.Machine.execStp gd d c m order scope s
  | .fence gd order scope => Sys2Proof.Machine.execFence gd order scope s
  | .qfence gd mask => Sys2Proof.Machine.execQfence gd mask s
  | .aadd x => Sys2Proof.Machine.execAadd x s
  | .amin x => Sys2Proof.Machine.execAmin x s
  | .amax x => Sys2Proof.Machine.execAmax x s
  | .aand x => Sys2Proof.Machine.execAand x s
  | .aor x => Sys2Proof.Machine.execAor x s
  | .axor x => Sys2Proof.Machine.execAxor x s
  | .aswap x => Sys2Proof.Machine.execAswap x s
  | .acas x c => Sys2Proof.Machine.execAcas x c s
  | .afadd x => Sys2Proof.Machine.execAfadd x s
  | .xstart gd h off a1 a2 a3 a4 => Sys2Proof.Machine.execXstart gd h off a1 a2 a3 a4 s
  | .xjoin gd m => Sys2Proof.Machine.execXjoin gd m s
  | .xend gd => Sys2Proof.Machine.execXend gd s
  | .tspawn gd d a => Sys2Proof.Machine.execTspawn gd d a s
  | .tjoin gd d a => Sys2Proof.Machine.execTjoin gd d a s
  | .tfin gd => Sys2Proof.Machine.execTfin gd s
  | .tself gd d n => Sys2Proof.Machine.execTself gd d n s
  | .wapp gd d a list => Sys2Proof.Machine.execWapp gd d a list s
  | .wtake gd d c list => Sys2Proof.Machine.execWtake gd d c list s
  | .dbar gd d m => Sys2Proof.Machine.execDbar gd d m s
  | .dphase gd d m comm => Sys2Proof.Machine.execDphase gd d m comm s
  | .dmem gd d lvl => Sys2Proof.Machine.execDmem gd d lvl s
  | .ttime gd d a b => Sys2Proof.Machine.execTtime gd d a b s
  | .cdef gd c a off slot1 n1 => Sys2Proof.Machine.execCdef gd c a off slot1 n1 s
  | .cadvProd gd c k => Sys2Proof.Machine.execCadvProd gd c k s
  | .cadvCons gd c k => Sys2Proof.Machine.execCadvCons gd c k s
  | .cwaitProd gd c k => Sys2Proof.Machine.execCwaitProd gd c k s
  | .cwaitCons gd c k => Sys2Proof.Machine.execCwaitCons gd c k s
  | .cstat gd d c => Sys2Proof.Machine.execCstat gd d c s
  | .sbind gd q d a wr ty base s0 n0 s1 n1 => Sys2Proof.Machine.execSbind gd q d a wr ty base s0 n0 s1 n1 s
  | .sunbind gd q => Sys2Proof.Machine.execSunbind gd q s
  | .send gd a b disp tag => Sys2Proof.Machine.execSend gd a b disp tag s
  | .recv gd d a disp => Sys2Proof.Machine.execRecv gd d a disp s
  | .rpoll gd d => Sys2Proof.Machine.execRpoll gd d s
  | .vadd x => Sys2Proof.Machine.execVadd x s
  | .vsub x => Sys2Proof.Machine.execVsub x s
  | .vmul x => Sys2Proof.Machine.execVmul x s
  | .vfma x => Sys2Proof.Machine.execVfma x s
  | .vfms x => Sys2Proof.Machine.execVfms x s
  | .vmin x => Sys2Proof.Machine.execVmin x s
  | .vmax x => Sys2Proof.Machine.execVmax x s
  | .vabs x => Sys2Proof.Machine.execVabs x s
  | .vneg x => Sys2Proof.Machine.execVneg x s
  | .vcvt gd d a src dst round cq => Sys2Proof.Machine.execVcvt gd d a src dst round cq s
  | .vcmp gd d a b cond ty cq => Sys2Proof.Machine.execVcmp gd d a b cond ty cq s
  | .vsel gd d a b c cq => Sys2Proof.Machine.execVsel gd d a b c cq s
  | .vand x => Sys2Proof.Machine.execVand x s
  | .vor x => Sys2Proof.Machine.execVor x s
  | .vxor x => Sys2Proof.Machine.execVxor x s
  | .vshl x => Sys2Proof.Machine.execVshl x s
  | .vshr x => Sys2Proof.Machine.execVshr x s
  | .vsar x => Sys2Proof.Machine.execVsar x s
  | .vperm gd d a b cq => Sys2Proof.Machine.execVperm gd d a b cq s
  | .vbcast gd d src cq => Sys2Proof.Machine.execVbcast gd d src cq s
  | .vsum gd d a ty sat round cq => Sys2Proof.Machine.execVsum gd d a ty sat round cq s
  | .vdot gd d a b ty z cq => Sys2Proof.Machine.execVdot gd d a b ty z cq s
  | .vld x => Sys2Proof.Machine.execVld x s
  | .vst x => Sys2Proof.Machine.execVst x s
  | .vgath x => Sys2Proof.Machine.execVgath x s
  | .vscat x => Sys2Proof.Machine.execVscat x s
  | .vmov gd form cq => Sys2Proof.Machine.execVmov gd form cq s
  | .fexp x => Sys2Proof.Machine.execFexp x s
  | .flog x => Sys2Proof.Machine.execFlog x s
  | .frcp x => Sys2Proof.Machine.execFrcp x s
  | .frsq x => Sys2Proof.Machine.execFrsq x s
  | .fsqrt x => Sys2Proof.Machine.execFsqrt x s
  | .fsin x => Sys2Proof.Machine.execFsin x s
  | .fcos x => Sys2Proof.Machine.execFcos x s
  | .ftanh x => Sys2Proof.Machine.execFtanh x s
  | .fsig x => Sys2Proof.Machine.execFsig x s
  | .fgelu x => Sys2Proof.Machine.execFgelu x s
  | .fsilu x => Sys2Proof.Machine.execFsilu x s
  | .ferf x => Sys2Proof.Machine.execFerf x s
  | .lplan gd k rcd fmt cq => Sys2Proof.Machine.execLplan gd k rcd fmt cq s
  | .ldot x => Sys2Proof.Machine.execLdot x s
  | .ldot2 x => Sys2Proof.Machine.execLdot2 x s
  | .lsort gd dst src fmt ty round cq => Sys2Proof.Machine.execLsort gd dst src fmt ty round cq s
  | .lclr gd w anchor => Sys2Proof.Machine.execLclr gd w anchor s
  | .lrd gd d w ty round => Sys2Proof.Machine.execLrd gd d w ty round s
  | .lrdRaw gd d b w => Sys2Proof.Machine.execLrdRaw gd d b w s
  | .lrdSt gd d w => Sys2Proof.Machine.execLrdSt gd d w s
  | .lrdV gd d w ty round cq => Sys2Proof.Machine.execLrdV gd d w ty round cq s
  | .lwr gd w a b c => Sys2Proof.Machine.execLwr gd w a b c s
  | .lwrAdd gd w a b c => Sys2Proof.Machine.execLwrAdd gd w a b c s
  | .lprog gd d => Sys2Proof.Machine.execLprog gd d s
  | .lprogSet gd a => Sys2Proof.Machine.execLprogSet gd a s
  | .lprogDrop gd => Sys2Proof.Machine.execLprogDrop gd s
  | .lpert gd a => Sys2Proof.Machine.execLpert gd a s
  | .lgang x => Sys2Proof.Machine.execLgang x s
  | .lrot x => Sys2Proof.Machine.execLrot x s
  | .hnew gd d a ops => Sys2Proof.Machine.execHnew gd d a ops s
  | .hfree gd d a => Sys2Proof.Machine.execHfree gd d a s
  | .hwiden gd d a ops => Sys2Proof.Machine.execHwiden gd d a ops s
  | .hnarrow gd d a ops => Sys2Proof.Machine.execHnarrow gd d a ops s
  | .hquery gd d a sel => Sys2Proof.Machine.execHquery gd d a sel s
  | .hbind gd d win a b c => Sys2Proof.Machine.execHbind gd d win a b c s
  | .hunbind gd win => Sys2Proof.Machine.execHunbind gd win s
  | .hunbindWb gd d win => Sys2Proof.Machine.execHunbindWb gd d win s
  | .hcopyLd x t => Sys2Proof.Machine.execHcopyLd x t s
  | .hcopySt x => Sys2Proof.Machine.execHcopySt x s
  | .hgath x => Sys2Proof.Machine.execHgath x s
  | .hscat x => Sys2Proof.Machine.execHscat x s
  | .hscatAdd x => Sys2Proof.Machine.execHscatAdd x s
  | .hexport gd d a b => Sys2Proof.Machine.execHexport gd d a b s
  | .himport gd d a => Sys2Proof.Machine.execHimport gd d a s
  | .kview gd d a b => Sys2Proof.Machine.execKview gd d a b s
  | .kviewDrop gd d b => Sys2Proof.Machine.execKviewDrop gd d b s
  | .kred x rw => Sys2Proof.Machine.execKred x rw s
  | .kbcast x => Sys2Proof.Machine.execKbcast x s
  | .kgath x => Sys2Proof.Machine.execKgath x s
  | .krsc x => Sys2Proof.Machine.execKrsc x s
  | .kbar gd d b => Sys2Proof.Machine.execKbar gd d b s
  | .kjoin gd d a b => Sys2Proof.Machine.execKjoin gd d a b s
  | .kstat gd d a b sel => Sys2Proof.Machine.execKstat gd d a b sel s
  | .pair gd d a => Sys2Proof.Machine.execPair gd d a s
  | .unpair gd d => Sys2Proof.Machine.execUnpair gd d s
  | .fprint gd d => Sys2Proof.Machine.execFprint gd d s
  | .fprintLast gd d => Sys2Proof.Machine.execFprintLast gd d s
  | .fprintSt gd d => Sys2Proof.Machine.execFprintSt gd d s
  | .rep n1 sd sa sb body => Sys2Proof.Machine.execRep n1 sd sa sb body s
  | .repeatIssue core => Sys2Proof.Machine.execRepeatIssue core s
  | .storeDrain core strand id => Sys2Proof.Machine.execStoreDrain core strand id s
  | .loadSatisfied core strand id src => Sys2Proof.Machine.execLoadSatisfied core strand id src s
  | .storePerformed core id => Sys2Proof.Machine.execStorePerformed core id s
  | .streamReadAhead core q => Sys2Proof.Machine.execStreamReadAhead core q s
  | .packetQueueAdmit core => Sys2Proof.Machine.execPacketQueueAdmit core s
  | .cisternRelease core id => Sys2Proof.Machine.execCisternRelease core id s
  | .eq0Accept core strand => Sys2Proof.Machine.execEq0Accept core strand s
  | .eq0OpStart core => Sys2Proof.Machine.execEq0OpStart core s
  | .veinUpdate core => Sys2Proof.Machine.execVeinUpdate core s
  | .lpertArm core => Sys2Proof.Machine.execLpertArm core s
  | .kStep core => Sys2Proof.Machine.execKStep core s
  | .multistepResume core => Sys2Proof.Machine.execMultistepResume core s
  | .atomicPerform core id => Sys2Proof.Machine.execAtomicPerform core id s
  | .messagePlace core id => Sys2Proof.Machine.execMessagePlace core id s
  | .sendStall core id => Sys2Proof.Machine.execSendStall core id s
  | .barrierRelease dom => Sys2Proof.Machine.execBarrierRelease dom s
  | .copyStart core q => Sys2Proof.Machine.execCopyStart core q s
  | .copyComplete core q => Sys2Proof.Machine.execCopyComplete core q s
  | .copyFault core q va after => Sys2Proof.Machine.execCopyFault core q va after s
  | .windowFill core win => Sys2Proof.Machine.execWindowFill core win s
  | .windowFillComplete core win => Sys2Proof.Machine.execWindowFillComplete core win s
  | .pageAnswer w => Sys2Proof.Machine.execPageAnswer w s
  | .dispatchDecision die => Sys2Proof.Machine.execDispatchDecision die s
  | .sliceExpiry task => Sys2Proof.Machine.execSliceExpiry task s
  | .gangEvict task => Sys2Proof.Machine.execGangEvict task s
  | .savedGangReady task => Sys2Proof.Machine.execSavedGangReady task s
  | .fcastUpdate die => Sys2Proof.Machine.execFcastUpdate die s
  | .recordOffer core id => Sys2Proof.Machine.execRecordOffer core id s
  | .hostQueuePortWrite q dwords => Sys2Proof.Machine.execHostQueuePortWrite q dwords s
  | .quiescenceDetect ctx => Sys2Proof.Machine.execQuiescenceDetect ctx s
  | .lapidaryRequest core id => Sys2Proof.Machine.execLapidaryRequest core id s
  | .lapidaryRerepresent handle classes => Sys2Proof.Machine.execLapidaryRerepresent handle classes s
  | .pairIntervalEnd core => Sys2Proof.Machine.execPairIntervalEnd core s
  | .pairLost core => Sys2Proof.Machine.execPairLost core s
  | .pqstatWrite core id => Sys2Proof.Machine.execPqstatWrite core id s
  | .containmentWrite core id => Sys2Proof.Machine.execContainmentWrite core id s
  | .injectWrite core id => Sys2Proof.Machine.execInjectWrite core id s
  | .debugWindowWrite core id => Sys2Proof.Machine.execDebugWindowWrite core id s
  | .veinCellVWrite core id => Sys2Proof.Machine.execVeinCellVWrite core id s
  | .veinCellAnchorWrite core id => Sys2Proof.Machine.execVeinCellAnchorWrite core id s
  | .pcapWrite w => Sys2Proof.Machine.execPcapWrite w s
  | .pstRequest w => Sys2Proof.Machine.execPstRequest w s
  | .parkRequest die => Sys2Proof.Machine.execParkRequest die s
  | .unparkRequest die => Sys2Proof.Machine.execUnparkRequest die s
  | .dieParkProceed die => Sys2Proof.Machine.execDieParkProceed die s
  | .governorTick a1 a10 choice => Sys2Proof.Machine.execGovernorTick a1 a10 choice s
  | .droopEvent die => Sys2Proof.Machine.execDroopEvent die s
  | .ctxEnable w => Sys2Proof.Machine.execCtxEnable w s
  | .ctxDisable w => Sys2Proof.Machine.execCtxDisable w s
  | .invWrite w => Sys2Proof.Machine.execInvWrite w s
  | .registerWrite w => Sys2Proof.Machine.execRegisterWrite w s
  | .attestNonceWrite nonce => Sys2Proof.Machine.execAttestNonceWrite nonce s
  | .moduleReset imageOk hash dieOk => Sys2Proof.Machine.execModuleReset imageOk hash dieOk s
  | .clusterReset clu => Sys2Proof.Machine.execClusterReset clu s
  | .flitReceive port vc seq phase crcOk tagOk load => Sys2Proof.Machine.execFlitReceive port vc seq phase crcOk tagOk load s
  | .linkRetrain port => Sys2Proof.Machine.execLinkRetrain port s
  | .linkDown port => Sys2Proof.Machine.execLinkDown port s
  | .portTrainingRetry port answers => Sys2Proof.Machine.execPortTrainingRetry port answers s
  | .keyRollover port => Sys2Proof.Machine.execKeyRollover port s
  | .keyDiscard port => Sys2Proof.Machine.execKeyDiscard port s
  | .remoteAck core id => Sys2Proof.Machine.execRemoteAck core id s
  | .remoteLoadReturn core strand id bytes => Sys2Proof.Machine.execRemoteLoadReturn core strand id bytes s
  | .moduleLossDetect chamber route => Sys2Proof.Machine.execModuleLossDetect chamber route s
  | .viewProposal chamber port view set => Sys2Proof.Machine.execViewProposal chamber port view set s
  | .viewConfirm chamber route view set => Sys2Proof.Machine.execViewConfirm chamber route view set s
  | .viewCommit chamber view lost dropped => Sys2Proof.Machine.execViewCommit chamber view lost dropped s
  | .joinCommit chamber view members joined lost dropped mode => Sys2Proof.Machine.execJoinCommit chamber view members joined lost dropped mode s
  | .kviewMatch chamber others => Sys2Proof.Machine.execKviewMatch chamber others s
  | .kviewTimeout chamber => Sys2Proof.Machine.execKviewTimeout chamber s
  | .kjoinTimeout chamber => Sys2Proof.Machine.execKjoinTimeout chamber s
  | .collectiveAccept core => Sys2Proof.Machine.execCollectiveAccept core s
  | .collectiveFlit f => Sys2Proof.Machine.execCollectiveFlit f s
  | .collectiveComplete core id disagree => Sys2Proof.Machine.execCollectiveComplete core id disagree s
  | .pStateStepComplete die => Sys2Proof.Machine.execPStateStepComplete die s
  | .unparkComplete die => Sys2Proof.Machine.execUnparkComplete die s
  | .droopRecovery die => Sys2Proof.Machine.execDroopRecovery die s
  | .linkTrainingComplete port => Sys2Proof.Machine.execLinkTrainingComplete port s
  | .lsortComplete core => Sys2Proof.Machine.execLsortComplete core s
  | .hostCxlMemWrite addr bytes => Sys2Proof.Machine.execHostCxlMemWrite addr bytes s
  | .nopBlk => Sys2Proof.Machine.execNopBlk s
  | .refusalCountWrite => Sys2Proof.Machine.execRefusalCountWrite s
  | .scWindowEnd => Sys2Proof.Machine.execScWindowEnd s
  | .scWindowDeliver => Sys2Proof.Machine.execScWindowDeliver s
  | .invComplete => Sys2Proof.Machine.execInvComplete s
  | .attestReportReady => Sys2Proof.Machine.execAttestReportReady s
  | .heartbeat => Sys2Proof.Machine.execHeartbeat s

end Sys2Proof.Machine
end

