-- ==== Sys2Proof/Machine/Plan.lean ====
section
/-! DEFINITION. The schedule (log 16): an empty agenda is filled with the moves that may be due. A move that is not
enabled when its turn comes has no effect. What comes from outside the module, what only time decides and what happens
of a unit's own accord is not among them: it stands in the agenda of a state that says so. -/

namespace Sys2Proof.Machine

/-! ### One core -/

/-- What a pending load can take its value from: its home, or a hub's copy of another module's line; one that is made byte
by byte, each byte that it has not taken. -/
def PendLoad.moves (l : PendLoad) (c : Nat) (h : Fin 11) : List Instr :=
  if l.split then l.left.map (fun x => .loadSatisfied c h l.id x.1)
  else .loadSatisfied c h l.id 0 :: (if l.locs.any Loc.isRemote then [.loadSatisfied c h l.id 3] else [])

/-- Draining and loads of strand `h`. -/
def Strand.moves (t : Strand) (c : Nat) (h : Fin 11) : List Instr :=
  t.buf.map (fun e => .storeDrain c h e.id) ++ t.loads.flatMap (fun l => l.moves c h)

/-- The events that take a store of the supervision page, a debug window or a cell. -/
def pageMoves (c id : Nat) : Place → List Instr
  | .sup => [.pqstatWrite c id, .containmentWrite c id, .injectWrite c id, .storePerformed c id]
  | .dbg _ => [.debugWindowWrite c id]
  | .cell => [.veinCellVWrite c id, .veinCellAnchorWrite c id]
  | _ => [.storePerformed c id]

/-- The event that an outward entry waits for. -/
def OutEntry.moves (o : OutEntry) (c : Nat) : List Instr :=
  match o.e.op with
  | .store => pageMoves c o.e.id ((o.first.map Loc.at').getD .stray)
  | .atom .. | .fadd .. => [.atomicPerform c o.e.id]
  | .send .. => [.messagePlace c o.e.id]
  | .offer .. => [.recordOffer c o.e.id]
  | .wapp .. => [.storePerformed c o.e.id]
  | .lap .. => [.lapidaryRequest c o.e.id]
  | .fence _ | .coll _ => []

/-- The Stalagmite engine. -/
def Core.engineMoves (k : Core) (c : Nat) : List Instr :=
  if k.eq0.isEmpty && !k.lprog.sus then []
  else [.eq0OpStart c, .veinUpdate c, .lpertArm c, .kStep c, .multistepResume c, .lsortComplete c]

/-- The head of a copy queue. -/
def CopyOp.moves (o : CopyOp) (c : Nat) : List Instr :=
  match o.kind with
  | .fill w => [.windowFill c w, .windowFillComplete c w]
  | _ => [.copyStart c o.queue, .copyComplete c o.queue]

def Core.copyMoves (k : Core) (c : Nat) : List Instr :=
  (k.eq1.take 1 ++ k.eq2.take 1).flatMap (fun o => o.moves c)

/-- The chamber operations. -/
def Core.chamberMoves (k : Core) (c : Nat) : List Instr :=
  if k.eq3.isEmpty then []
  else .collectiveAccept c :: (k.eq3.filter CollOp.started).map (fun o => .collectiveComplete c o.id false)

/-- The events of core `c` that may be due. -/
def Core.moves (k : Core) (c : Nat) : List Instr :=
  (List.finRange 11).flatMap (fun h => k.strands[h].moves c h)
    ++ k.outq.flatMap (fun o => o.moves c)
    ++ (if k.repOwner.isSome then [.repeatIssue c] else [])
    ++ (List.finRange 4).flatMap (fun q => if k.ports[q].any (fun p => !p.wr) then [.streamReadAhead c q] else [])
    ++ k.engineMoves c ++ k.copyMoves c ++ k.chamberMoves c
    ++ k.cist.toList.flatMap (fun x => x.held.map (fun y => .cisternRelease c y.id))
    ++ (if k.held.isEmpty then [] else [.packetQueueAdmit c])

/-- A core with a live strand takes its issue slot after its events. -/
def corePlan (c : Nat) (k : Core) : List Move :=
  (k.moves c).map Move.event ++ (if k.strands.toList.any Strand.live then [.issue c []] else [])

/-! ### Gangs, dies and the module -/

/-- The event that takes a write of a module register. -/
def State.writeMove (s : State) (w : RegWrite) : Instr :=
  match w.reg with
  | 0x81 => .pcapWrite w
  | 0x82 => .pstRequest w
  | 0x91 => if s.ctxOpOf w = 1 then .ctxEnable w else if s.ctxOpOf w = 2 then .ctxDisable w else .registerWrite w
  | 0x93 => .invWrite w
  | 0xA1 => .pageAnswer w
  | _ => .registerWrite w

/-- The events of a die. -/
def State.dieMoves (s : State) (d : Fin 8) : List Instr :=
  let x := s.dies[d]
  let steps (s : State) : List Instr := (s.dies[d].stepTo.map (fun _ => Instr.pStateStepComplete d)).toList
  (match x.power with
    | .online => if s.reqOf d.val = 7 then [.parkRequest d] else []
    | .parking => [.dieParkProceed d]
    | .parked => if s.reqOf d.val = 7 then [] else [.unparkRequest d]
    | .unparking => [.unparkComplete d]
    | .offline => [])
    ++ steps s ++ (if s.ctxen = 0 then [] else [.fcastUpdate d, .dispatchDecision d])

/-- A barrier that no other module takes part in. -/
def State.barrierMoves (s : State) (b : Barrier) : List Instr :=
  if b.arrived.isEmpty || (b.lvl == 4 && (s.chamber b.place).any (fun k => decide (1 < k.members.length))) then []
  else [.barrierRelease b.dom]

/-- A `kview` of this module alone, and a commit that this module has gathered. -/
def reqMoves (r : KReq) : List Instr :=
  if !r.join && r.list.length == 1 then [.kviewMatch (Fin.ofNat 256 r.chm) []] else []

def commitMoves (n : Nat) (k : Chamber) : List Instr :=
  match k.proposal with
  | none => []
  | some p =>
    if !(k.gathers p && k.ready p) then []
    else if p.set.joined.isEmpty then [.viewCommit (Fin.ofNat 256 n) p.view p.set.lost p.set.dropped]
    else [.joinCommit (Fin.ofNat 256 n) p.view [] p.set.joined p.set.lost p.set.dropped k.mode]

/-- The events of the module that may be due. -/
def State.moduleMoves (s : State) : List Instr :=
  s.hubWrites.map s.writeMove ++ s.pairs.map (fun p => .pairIntervalEnd p.leader) ++ s.barriers.flatMap s.barrierMoves
    ++ (if s.scWindow.isEmpty then [] else [.scWindowEnd]) ++ (if s.scFlight.isEmpty then [] else [.scWindowDeliver])
    ++ (List.finRange 8).flatMap s.dieMoves
    ++ s.tasks.flatMap (fun t => if t.saved.isEmpty then [.gangEvict t.id] else [.savedGangReady t.id])
    ++ s.tasks.flatMap (fun t => t.detached.map (fun x => .copyComplete (noCore + x.2.id) x.2.queue))
    ++ s.kreqs.flatMap reqMoves ++ s.chambers.flatMap (fun x => commitMoves x.1 x.2)
    ++ (if s.invBusy then [.invComplete] else []) ++ (if s.nonce.isSome then [.attestReportReady] else [])

/-! ### Blocked cycles of a communication phase (R208) -/

/-- Strand `h` of core `c` is blocked on a cistern or a message. -/
def State.counted (s : State) (c : Nat) (h : Fin 11) : Bool :=
  (s.strandAt c h).live && (s.blkOf c h == 2 || s.blkOf c h == 3)

/-- One more cycle for each strand blocked on a cistern or a message in a communication phase.
(DEDUCED, log 30) -/
def State.countCycle (s : State) (c : Nat) (k : Core) : Core :=
  let n := ((List.finRange 11).filter (s.counted c)).length
  if k.late.comm && !k.frozen && decide (0 < n) then
    { k with late := { k.late with cyc := BitVec.ofNat 32 (min (k.late.cyc.toNat + n) 0xFFFFFFFF) } }
  else k

/-- The planning step: the cycle counter advances and the agenda lists the moves that may be due.
(DESIGN CHOICE, log 5, 16) -/
def State.planned (s : State) : State :=
  { s with
    cycle := s.cycle + 1
    cores := s.cores.map (fun x => (x.1, s.countCycle x.1 x.2))
    agenda := s.moduleMoves.map Move.event ++ s.cores.flatMap (fun x => corePlan x.1 x.2) }

end Sys2Proof.Machine
end

