-- ==== Sys2Proof/Machine/Step.lean ====
section
/-! DEFINITION. One step of the module: the first move of the agenda, or a planning step when it is empty.
And the placing of one instruction where the next step fetches it (log 17). -/

namespace Sys2Proof.Machine

/-- One step (log 16). (DESIGN CHOICE, log 16) -/
def step (s : State) : Host.Outcome State Fault Refusal :=
  match s.agenda with
  | [] => .next s.planned
  | .issue c held :: rest => issueCore exec c held { s with agenda := rest }
  | .prefetch c h va :: rest => .next (State.prefetch { s with agenda := rest } c h va)
  | .install ctx code lsdata :: rest => .next (State.install { s with agenda := rest } ctx.val code.toNat lsdata)
  | .measure hash :: rest =>
    .next (if s.recovery then { s with agenda := rest } else State.measureImage { s with agenda := rest } hash)
  | .event i :: rest =>
    if i.isEvent then exec i { s with agenda := rest } else .next { s with agenda := rest }

/-- The core that runs it: a worker, since position 0 of a cluster is the supervisor's at reset. -/
def placeCore : Nat := 1

/-- The address at which `withFetchWord` places its instruction: the start of a fetch block. -/
def placeAddr : Nat := 0x1000

/-- The translation under which core 1 fetches it: valid, leaf, read and execute, hub-homed.
(DESIGN CHOICE, log 17) -/
def placeLeaf (ctx : Nat) : Leaf := ⟨ctx, placeAddr, 4096, 0x1017⟩

/-- The task that core 1 runs then. (DESIGN CHOICE, log 17) -/
def placeTask (ctx : Nat) : Task :=
  { id := 0, ctx := ctx, record := { dwords := [] }, w := 1, h := 1, cores := [placeCore], lnums := [0] }

/-- The core with its control strand live at the placed instruction, and next in turn.
(DESIGN CHOICE, log 17) -/
def Core.placed (k : Core) : Core :=
  let t := k.strands[(0 : Fin 11)]
  { k with
    task := some 0
    frozen := false
    pairOf := none
    icache := []
    utlb := placeLeaf k.ctx :: k.utlb
    strands := k.strands.set (0 : Fin 11)
      { t with live := true, pc := BitVec.ofNat 57 placeAddr, stamp := 0, rep := none, gates := [], pend := []
               changes := [], wait := .none } }

/-- `s` with the instruction of bits `w` placed where the next step fetches it: loaded in memory and run by
the control strand of core 1, as a load of a program from outside the module would leave it (log 17).
(DESIGN CHOICE, log 17) -/
def State.withFetchWord (s : State) (nbits w : Nat) : State :=
  let ctx := (s.core placeCore).ctx
  { s.modCore placeCore Core.placed with
    mem := memSetAll s.mem (placeAt placeAddr (leBytes 32 (w % 2 ^ nbits)))
    poisoned := s.poisoned.filter (fun x => x != placeAddr / 64)
    handles := s.handles.filter (fun h => !(h.ctx == ctx))
    tasks := placeTask ctx :: s.tasks.filter (fun t => t.id != 0)
    pairs := s.pairs.filter (fun p => p.leader != placeCore && p.shadow != placeCore)
    recovery := false
    dies := s.dies.set 0 { s.dies[(0 : Fin 8)] with power := .online }
    agenda := .issue placeCore [] :: s.agenda }

end Sys2Proof.Machine
end

