-- ==== Sys2Proof/Safety.lean ====
section
/-! DEFINITION. What the statements call a safe run: memory keeps its canonical form, and an instruction that
completes leaves its core unfrozen. -/

namespace Sys2Proof.Machine

/-- Memory is in its canonical form. -/
def State.MemOk (s : State) : Prop := Memory.wf s.mem = true

/-- The instruction has completed: its strand goes on. -/
def Completes (o : Host.Outcome State Fault Refusal) (t : State) : Prop := o = .next t ∧ t.retired = true

/-- The step neither stops the machine nor is left out of the model. -/
def Runs (o : Host.Outcome State Fault Refusal) : Prop := ∃ t, o = .next t

end Sys2Proof.Machine
end

