-- ==== Sys2Proof/Certificates/Slice0/Obligations.lean ====
section
/-! DEFINITION. The statements about the machine, in terms of what a reader of the manual sees: registers, memory read
byte by byte, packets, queues. The words they share stand first. -/

namespace Sys2Proof.Claims

open Sys2Proof.Machine

/-! ### What an instruction changes, and what it leaves -/

/-- Between `s` and `t` nothing differs but the issuing strand, the mark that its instruction has completed, and the
model's counter of identifiers: no other strand, no other core, no register of the core, no byte of local store or of
memory, nothing of the module. -/
def Alone (s t : State) : Prop :=
  t = { s with cores := t.cores, retired := true, nextId := t.nextId } ∧
  (∀ c, c ≠ s.cur.1 → t.core c = s.core c) ∧
  t.core s.cur.1 = { s.core s.cur.1 with strands := (t.core s.cur.1).strands } ∧
  (∀ h, h ≠ s.cur.2 → t.strandAt s.cur.1 h = s.strandAt s.cur.1 h) ∧
  (∀ a, memGet t.mem a = memGet s.mem a)

/-- Every g register, predicate and vector register, and `%fflags`, is as it was. -/
def SameRegs (u w : Strand) : Prop :=
  (∀ n, w.rg n = u.rg n) ∧ (∀ n, w.rp n = u.rp n) ∧ (∀ n, w.rv n = u.rv n) ∧ w.fflags = u.fflags

/-- The strand goes on at `pc`, and of its registers only those of `g`, `p` and `v` may differ, and `%fflags` only by
the flags `fl`, which it gains. -/
def GoesOn (u w : Strand) (pc : Pc) (g : List (Fin 32)) (p : List (Fin 8)) (v : List (Fin 16)) (fl : Flags) : Prop :=
  (∀ n, n ∉ g → w.rg n = u.rg n) ∧ (∀ n, n ∉ p → w.rp n = u.rp n) ∧ (∀ n, n ∉ v → w.rv n = u.rv n) ∧
  w = { u with
    g := w.g, p := w.p, v := w.v, fflags := u.fflags ||| fl
    pc := pc, blk := 0, rei := false, stamp := w.stamp, wait := if u.waitAt = u.pc then .none else u.wait }

/-- The instruction completes, changes nothing but its strand, and leaves it as `post` says. -/
def RunsTo (i : Instr) (s : State) (post : Strand → Prop) : Prop :=
  ∃ t, exec i s = .next t ∧ Alone s t ∧ post t.me

/-- The core leads no pair. -/
def unpaired (s : State) (c : Nat) : Prop := ∀ p ∈ s.pairs, p.leader ≠ c

/-- The PC after an instruction of `len` bytes (R37). -/
def after (s : State) (len : Nat) : Pc := s.me.pc + BitVec.ofNat 57 len

/-- The value a write of `x` leaves in a g register: `g0` reads 0 whatever is written to it (R11, R44). -/
def heldG (n : Fin 32) (x : Word) : Word := if n = 0 then 0 else x

/-- The value a write of `x` leaves in a predicate: `p0` reads all ones (R11, R44). -/
def heldP (n : Fin 8) (x : BitVec 16) : BitVec 16 := if n = 0 then 0xFFFF else x

/-- The instruction traps with `k`: the state is that of taking the trap, which waits for the strand's earlier loads and
atomics (R24). -/
def Traps (i : Instr) (s : State) (k : Trap) : Prop := exec i s = .next (s.takeTrap k)

/-! ### Integers by type (R88, R89) -/

/-- The low bits of a register, extended as the type says. -/
def readAs : Ty → Word → Word
  | .i8, x => (x.setWidth 8).signExtend 64
  | .i16, x => (x.setWidth 16).signExtend 64
  | .i32, x => (x.setWidth 32).signExtend 64
  | .n8, x => (x.setWidth 8).setWidth 64
  | .n16, x => (x.setWidth 16).setWidth 64
  | .n32, x => (x.setWidth 32).setWidth 64
  | _, x => x

/-- The integer that a register holds under a type. -/
def intAs (ty : Ty) (x : Word) : Int := if ty.signed then (readAs ty x).toInt else ((readAs ty x).toNat : Int)

/-- The low bits of a register as a number, and the same read as two's complement. -/
def natAs (ty : Ty) (x : Word) : Nat := x.toNat % 2 ^ ty.bits
def twosAs (ty : Ty) (x : Word) : Int :=
  if natAs ty x < 2 ^ (ty.bits - 1) then (natAs ty x : Int) else (natAs ty x : Int) - (2 ^ ty.bits : Nat)

/-- The shift amount a B operand gives (R89). -/
def amount (ty : Ty) (b : Word) : Nat := b.toNat % 64 % ty.bits

/-- The integer instructions whose results are those of 64-bit words cut to the type. -/
def wordOps : List ((Alu2 → Instr) × (Ty → Word → Word → Word)) :=
  [(.add, fun _ a b => a + b), (.sub, fun _ a b => a - b), (.mul, fun _ a b => a * b),
   (.and, fun _ a b => a &&& b), (.or, fun _ a b => a ||| b), (.xor, fun _ a b => a ^^^ b),
   (.andn, fun _ a b => a &&& ~~~b), (.shl, fun ty a b => a <<< amount ty b)]

/-- The integer instructions whose exact results R90 gives as integers. -/
def exactOps : List ((Alu2 → Instr) × (Ty → Word → Word → Int)) :=
  [(.mulh, fun ty a b => (intAs ty a * intAs ty b) / (2 ^ ty.bits : Nat)),
   (.div, fun ty a b => if intAs ty b = 0 then -1 else (intAs ty a).tdiv (intAs ty b)),
   (.rem, fun ty a b => if intAs ty b = 0 then intAs ty a else (intAs ty a).tmod (intAs ty b)),
   (.shr, fun ty a b => (natAs ty a / 2 ^ amount ty b : Nat)),
   (.sar, fun ty a b => twosAs ty a / (2 ^ amount ty b : Nat)),
   (.rol, fun ty a b =>
      (natAs ty a * 2 ^ amount ty b % 2 ^ ty.bits + natAs ty a / 2 ^ (ty.bits - amount ty b) : Nat)),
   (.min, fun ty a b => if intAs ty a ≤ intAs ty b then intAs ty a else intAs ty b),
   (.max, fun ty a b => if intAs ty a ≤ intAs ty b then intAs ty b else intAs ty a)]

/-- The instructions with a saturating form and their exact results (R90). -/
def satOps : List ((Alu2 → Instr) × (Int → Int → Int)) :=
  [(.add, fun a b => a + b), (.sub, fun a b => a - b), (.mul, fun a b => a * b)]

/-- The nearest value of the type's range (R63, R86). -/
def clampTo (ty : Ty) (x : Int) : Int := if x < ty.lo then ty.lo else if ty.hi < x then ty.hi else x

/-- The conditions of `cmp` (R93). -/
def holdsInt : Cond → Int → Int → Prop
  | .eq, a, b => a = b
  | .ne, a, b => a ≠ b
  | .lt, a, b => a < b
  | .le, a, b => a ≤ b
  | .gt, a, b => b < a
  | .ge, a, b => b ≤ a

end Sys2Proof.Claims

open Sys2Proof Sys2Proof.Machine Sys2Proof.Claims


/-! ### Encodings -/

/-- R36 to R62, R140 to R142 and the encoding of each family: whatever stands behind it in its fetch block, the word
of an instruction decodes to that instruction, with each operand as it was. Where the manual leaves the point open,
the clause states the model's choice (log 7, 8, 70). -/
def Obligations.DecodeEncode : Prop :=
  ∀ (i : Instr) (off : Nat) (rest : List Byte), Decode.encodable i = true →
    off + (Decode.encode i).length ≤ 32 → Decode.decode off (Decode.encode i ++ rest) = .ok i

namespace Sys2Proof.Claims

/-- The bytes of an instruction word, lowest first. -/
def wordBytes (n : Nat) (w : Nat) : List Byte := (List.range n).map (fun j => BitVec.ofNat 8 (w / 256 ^ j))

end Sys2Proof.Claims

/-- R36 to R62: words written out from the encodings decode as they stand there (the two worked in the manual among
them); and what a word that is none answers: length 0, a word that would cross its fetch block, a bit in a field that
`add` does not use, a type it does not list, a general register numbered 40. Where the manual leaves the point open,
the clause states the model's choice (log 7, 8, 70). -/
def Obligations.DecodeWords : Prop :=
  Decode.decode 0 (wordBytes 8 0x000000301440C005) = .ok (.add ⟨⟨0, false⟩, 3, 4, .reg 5, .i64, false⟩) ∧
  Decode.decode 8 (wordBytes 8 0x000049A090206E09) =
    .ok (.vmul ⟨⟨3, true⟩, .v 1, .v 2, .vec (.c 4), .f32, false, .rtz, some ⟨1, true⟩⟩) ∧
  Decode.decode 24 (wordBytes 8 0xFFFB00210081C005) = .ok (.add ⟨⟨0, false⟩, 7, 8, .imm16 (-5), .i32, false⟩) ∧
  Decode.decode 24 (wordBytes 8 0xFFFB00212081C005) = .error .illegalInstruction ∧
  (∀ (off : Nat) (bs : List Byte), Decode.decode off (0 :: bs) = .error .illegalLength) ∧
  (∀ bs : List Byte, Decode.decode 28 (wordBytes 8 0x000000301440C005 ++ bs) = .error .fetchBoundary) ∧
  Decode.decode 0 (wordBytes 8 0x000000A01440C005) = .error .illegalInstruction ∧
  Decode.decode 0 (wordBytes 8 0x00000030A040C005) = .error (.illegalOperand 2)

/-! ### The machine as a whole -/

/-- R147, R290: every step, whatever runs in it, keeps the list of memory's bytes in its one canonical form, so that
equal memories are equal data. Where the manual leaves the point open, the clause states the model's choice (log 3).
-/
def Obligations.StepKeepsMemoryForm : Prop := ∀ s t : State, s.MemOk → step s = .next t → t.MemOk

/-- R14, R16, R66, R147, R260, R292, R318, R322 to R327, R330: after reset no context is enabled and no task runs; the
registers hold their reset values; memory and local store list nothing. (What the manual gives no reset value, such as
the general registers, holds the values of log entry 1.) Where the manual leaves the point open, the clause states the
model's choice (log 1, 2, 3). -/
def Obligations.ResetState : Prop :=
  let s := State.reset
  s.MemOk ∧ s.tasks = [] ∧ s.ctxen = 0 ∧ (∀ a, memGet s.mem a = 0) ∧
  (∀ c, (s.core c).task = none ∧ (s.core c).frozen = false ∧ (s.core c).lnum = 0xFFFF ∧ ∀ a, memGet (s.core c).ls a = 0) ∧
  (∀ c (h : Fin 11), let t := s.strandAt c h
    (∀ n, t.rg n = 0) ∧ (∀ n : Fin 8, n ≠ 0 → t.rp n = 0) ∧ t.fflags = 0 ∧ t.live = false ∧ t.buf = [] ∧ t.loads = []) ∧
  (∀ u j, sget {} (s.cluster u).cells j = { w := {}, span := none }) ∧
  s.sysReg 0x02 = some 0 ∧ s.sysReg 0x60 = some (2 ^ 32 * 200 + 2 ^ 24 * 64) ∧
  (∀ x, s.sysReg 0x80 = some x → x / 2 ^ 48 = 0xFF ∧ x.testBit 47 = false ∧ x.testBit 46 = false) ∧
  s.sysReg 0x81 = some 1200 ∧ s.sysReg 0x82 = some 0x1111111111111111 ∧
  (∀ n ∈ [0x90, 0x91, 0x92, 0x93, 0xA0, 0xA1, 0xA8], s.sysReg n = some 0)

/-- R19, R22, R23, R37, R55, R56: when the strand whose turn it is waits on nothing, and the bytes from its PC to the
end of their 32-byte block, as the leaf of its page places them in memory, decode to `i`, the step is `exec` of `i`
with the word noted for a packet; to a completed instruction the step adds only what follows its retirement. An empty
agenda is filled without any other effect; an event of the agenda runs as `exec` says. Where the manual leaves the
point open, the clause states the model's choice (log 6, 16, 23). -/
def Obligations.StepRunsDecoded : Prop :=
  (∀ (s : State) (c : Nat) (h : Fin 11) (rest : List Move) (l : Leaf) (i : Instr),
    s.agenda = .issue c [] :: rest →
    let k := s.core c
    let w := k.strands[h]
    let a := l.phys w.pc.toNat
    let bs := (List.range (32 - a % 32)).map (fun j => memGet s.mem (a + j))
    k.frozen = false → k.pairOf = none → s.powered c = true → s.pairs = [] →
    w.live = true → (∀ j, j ≠ h → k.strands[j].live = false) → w.rep = none → w.gates = [] → w.pend = [] → w.changes = [] →
    w.pc.toNat < fixedBase → w.pc.toNat % 4 = 0 → s.rangeOf k.ctx w.pc.toNat = none →
    k.utlb = [l] → l.covers k.ctx w.pc.toNat = true → l.exec = true → l.home ≠ 2 → l.home ≠ 3 →
    (l.privOnly = true → w.priv = true) → a / 64 ∉ s.poisoned →
    Decode.decode (w.pc.toNat % 32) bs = .ok i →
    let s0 := { s with agenda := rest, cur := (c, h), retired := false }
    ∃ ic, let s1 := (s0.modCore c (fun k => { k with slot := k.slot + 1, icache := ic })).modMe (fun x =>
        { x with iw := BitVec.ofNat 64 (leNat (bs.take 8)) })
      ∀ t, exec i s1 = .next t → step s = .next (if t.retired then t.afterIssue i s1 else t)) ∧
  (∀ s : State, s.agenda = [] → ∃ ks m, step s = .next { s with cycle := s.cycle + 1, agenda := m, cores := ks } ∧
    (s.cores.all (fun x => !x.2.late.comm) = true → ks = s.cores)) ∧
  (∀ (s : State) (i : Instr) rest, s.agenda = .event i :: rest → i.isEvent = true →
    step s = exec i { s with agenda := rest })

namespace Sys2Proof.Claims

/-- The whole guard of an instruction (R49): without one are `nop`, the vector instructions, whose guard is of lanes, a
`rep` and the events. -/
def wholeGuard : Instr → Option Guard
  | .add x | .sub x | .mul x | .mulh x | .div x | .rem x | .and x | .or x | .xor x | .andn x
  | .shl x | .shr x | .sar x | .rol x | .min x | .max x => some x.gd
  | .clz x | .ctz x | .popc x | .mov x => some x.gd
  | .sel gd .. | .cmp gd .. | .bext gd .. | .bins gd .. | .lea gd .. | .li gd .. => some gd
  | .br gd _ | .jmp gd _ | .jal gd .. | .jr gd .. | .ret gd _ | .loop gd .. | .trap gd _ => some gd
  | .sysrd gd .. | .syswr gd .. | .thaw gd .. => some gd
  | .ld gd .. | .st gd .. | .ldp gd .. | .stp gd .. | .fence gd .. | .qfence gd _ => some gd
  | .aadd x | .amin x | .amax x | .aand x | .aor x | .axor x | .aswap x | .acas x _ | .afadd x => some x.gd
  | .xstart gd .. | .xjoin gd _ | .xend gd => some gd
  | .tspawn gd .. | .tjoin gd .. | .tfin gd | .tself gd .. | .wapp gd .. | .wtake gd .. => some gd
  | .dbar gd .. | .dphase gd .. | .dmem gd .. | .ttime gd .. => some gd
  | .cdef gd .. | .cadvProd gd .. | .cadvCons gd .. | .cwaitProd gd .. | .cwaitCons gd .. | .cstat gd .. => some gd
  | .sbind gd .. | .sunbind gd _ | .send gd .. | .recv gd .. | .rpoll gd _ => some gd
  | .lplan gd .. | .lsort gd .. | .lclr gd .. | .lrd gd .. | .lrdRaw gd .. | .lrdSt gd ..
  | .lrdV gd .. => some gd
  | .lwr gd .. | .lwrAdd gd .. | .lprog gd _ | .lprogSet gd _ | .lprogDrop gd | .lpert gd _ => some gd
  | .ldot x | .ldot2 x => some x.gd
  | .lgang x | .lrot x => some x.gd
  | .hnew gd .. | .hfree gd .. | .hwiden gd .. | .hnarrow gd .. | .hquery gd .. | .hbind gd .. | .hunbind gd _
  | .hunbindWb gd .. | .hexport gd .. | .himport gd .. => some gd
  | .hcopyLd x _ | .hcopySt x | .hgath x | .hscat x | .hscatAdd x => some x.gd
  | .kview gd .. | .kviewDrop gd .. | .kbar gd .. | .kjoin gd .. | .kstat gd .. => some gd
  | .kred x _ | .kbcast x | .kgath x | .krsc x => some x.gd
  | .pair gd .. | .unpair gd _ | .fprint gd _ | .fprintLast gd _ | .fprintSt gd _ => some gd
  | _ => none

end Sys2Proof.Claims

/-- R49: an instruction whose whole guard is false does nothing but go on at the next instruction: it writes nothing,
waits on nothing and takes no trap, whatever its operands. -/
def Obligations.GuardOff : Prop :=
  ∀ (i : Instr) (gd : Guard) (s : State), i.wf = true → wholeGuard i = some gd → s.me.guardOn gd = false →
    RunsTo i s (fun u => GoesOn s.me u (after s (Decode.instrLen i)) [] [] [] 0)

namespace Sys2Proof.Claims

/-- The eight dwords of a fault packet (R228); the time is whatever the clock shows. -/
def packetOf (s : State) (kind depth : Nat) (k : Trap) (time : Word) : List Word :=
  let c := s.cur.1
  let core := 2 ^ 13 * (c / 3456) + 2 ^ 6 * (c / 36 % 96) + c % 36
  [BitVec.ofNat 64 (2 ^ 48 * s.myCore.lnum.toNat + 2 ^ 32 * core + 2 ^ 28 * s.cur.2.val + 2 ^ 24 * kind + 2 ^ 16 * depth
      + 2 ^ 8 * k.sub + k.code),
    s.me.pc.setWidth 64, k.addr, s.me.iw, k.detail, time, { s.me with blk := 0, rei := false }.ssw s.cur.2.val,
    BitVec.ofNat 64 (s.cluster (c / 36)).seq]

/-- R24 to R26, R226 to R228: what taking trap `k` leaves. The core freezes with the strand named; the PC still names
the instruction, no register of any strand changes, nor memory. The packet takes the next slot of the cluster's queue
and its first half goes to the supervisor as a message. -/
def trapTakenRule : Prop :=
  ∀ (k : Trap) (s : State),
    let c := s.cur.1
    let u := c / 36
    let x := s.cluster u
    let t := s.takeTrap k
    s.pairs = [] → (∀ h : Fin 11, (s.strandAt c h).loads = []) → s.earlierDone = true → s.heldIn u = [] → c % 36 ≠ x.sup →
        x.chainIndex (c % 36) = none →
    x.pqHead < 64 → x.pqCount < 64 →
    (t.core c).frozen = true ∧ (t.core c).trapStrand.toNat = s.cur.2.val ∧ t.me.pc = s.me.pc ∧ t.retired = false ∧
    (∀ h, SameRegs (s.strandAt c h) (t.strandAt c h) ∧ (t.strandAt c h).pc = (s.strandAt c h).pc ∧
      (t.strandAt c h).buf = (s.strandAt c h).buf) ∧
    (t.core c).ls = (s.core c).ls ∧ t.mem = s.mem ∧
    (t.cluster u).pqCount = x.pqCount + 1 ∧ (t.cluster u).seq = x.seq + 1 ∧ (t.cluster u).pqHead = x.pqHead ∧
    (∃ time, (t.cluster u).slots.toList[(x.pqHead + x.pqCount) % 64]? = some (packetOf s 0 0 k time) ∧
      let sup := 36 * u + x.sup
      ((s.core sup).rq.length < 32 → (s.core sup).ovf = [] → (t.core sup).rq = (s.core sup).rq ++
        [⟨2, false, 0, 0xFFFF, ((packetOf s 0 0 k time).take 4).flatMap (fun w => leBytes 8 w.toNat)⟩])) ∧
    (∀ e, e ≠ c → e ≠ 36 * u + x.sup → t.core e = s.core e)

/-- The position that entry `i` of `%hchain` names, when the entry is valid (R234). -/
def chainPos (w : BitVec 28) (i : Nat) : Option Nat :=
  if i < 4 ∧ w.toNat / 2 ^ (7 * i + 6) % 2 = 1 then some (w.toNat / 2 ^ (7 * i) % 64) else none

/-- R234, R235: a trap of the supervisor is of depth 1 and goes to entry 0 of the chain, one of the core that entry i names
of depth i + 2 and goes to entry i + 1: its first half stands in that core's queue, its packet is of kind 2. Where that
entry is not valid, the cluster halts at that depth: each of its cores freezes. -/
def trapChainRule : Prop :=
  ∀ (k : Trap) (s : State) (d : Nat),
    let c := s.cur.1
    let u := c / 36
    let x := s.cluster u
    let t := s.takeTrap k
    s.pairs = [] → (∀ h : Fin 11, (s.strandAt c h).loads = []) → s.earlierDone = true → s.heldIn u = [] → x.pqHead < 64 →
    x.pqCount < 64 → x.sup < 36 →
    (c % 36 = x.sup ∧ d = 1) ∨ (c % 36 ≠ x.sup ∧ ∃ i, chainPos x.hchain i = some (c % 36) ∧
      (∀ j, j < i → chainPos x.hchain j ≠ some (c % 36)) ∧ d = i + 2) →
    (∀ p, chainPos x.hchain (d - 1) = some p → (s.core (36 * u + p)).rq = [] → (s.core (36 * u + p)).ovf = [] →
      (t.core c).frozen = true ∧ ∃ time,
        (t.cluster u).slots.toList[(x.pqHead + x.pqCount) % 64]? = some (packetOf s 2 d k time) ∧
        (t.core (36 * u + p)).rq = [⟨2, false, 0, 0xFFFF,
          ((packetOf s 2 d k time).take 4).flatMap (fun w => leBytes 8 w.toNat)⟩] ∧ (t.cluster u).halt = x.halt) ∧
    (chainPos x.hchain (d - 1) = none → (t.cluster u).halt = true ∧ (t.cluster u).haltDepth = BitVec.ofNat 4 d ∧
      (∀ p, p < 36 → (t.core (36 * u + p)).frozen = true) ∧ ∀ e, e / 36 ≠ u → s.tasks = [] → t.core e = s.core e)

/-- R100, R229: `trap` with its guard true is a software-trap at its own PC; the packet's detail is its code. Once the
strand's earlier instructions are complete it is taken: the next state has the core frozen, the strand named and its PC at
the `trap`. -/
def softwareTrapRule : Prop :=
  ∀ gd (code : BitVec 16) (s : State), s.me.guardOn gd = true →
    Traps (.trap gd code) s ⟨0x07, 0, 0, code.setWidth 64⟩ ∧
    (s.pairs = [] → (∀ h : Fin 11, (s.strandAt s.cur.1 h).loads = []) → s.earlierDone = true →
      s.cur.1 % 36 ≠ (s.cluster (s.cur.1 / 36)).sup → (s.cluster (s.cur.1 / 36)).chainIndex (s.cur.1 % 36) = none →
      ∃ t, exec (.trap gd code) s = .next t ∧ (t.core s.cur.1).frozen = true ∧
        (t.core s.cur.1).trapStrand.toNat = s.cur.2.val ∧ t.me.pc = s.me.pc)

end Sys2Proof.Claims

/-- Taking a trap freezes the core, keeps its registers and sends one packet: to the supervisor, or along the chain
from entry to entry; `trap` takes one: the statements above. Where the manual leaves the point open, the clause states
the model's choice (log 14, 15, 60). -/
def Obligations.TrapEntry : Prop := trapTakenRule ∧ trapChainRule ∧ softwareTrapRule
/-! ### Integer instructions -/

/-- R89, R90: with its guard true, each of these writes the 64-bit result cut to the type's width and extended as the
type says; no flag is set and nothing else changes. -/
def Obligations.IntegerWordResults : Prop :=
  ∀ o ∈ wordOps, ∀ (x : Alu2) (s : State), s.me.guardOn x.gd = true → x.ty.isInt = true → x.sat = false →
    RunsTo (o.1 x) s (fun u => GoesOn s.me u (after s x.b.len) [x.d] [] [] 0 ∧
      u.rg x.d = heldG x.d (readAs x.ty (o.2 x.ty (s.me.rg x.a) (braw s.me x.b))))

/-- R89 to R91: the instructions whose result R90 gives as an exact integer, a divisor of 0 among them; no flag is set and
nothing else changes. -/
def Sys2Proof.Claims.integerExactResultsRule : Prop :=
  ∀ o ∈ exactOps, ∀ (x : Alu2) (s : State), s.me.guardOn x.gd = true → x.ty.isInt = true → x.sat = false →
    RunsTo (o.1 x) s (fun u => GoesOn s.me u (after s x.b.len) [x.d] [] [] 0 ∧
      u.rg x.d = heldG x.d (readAs x.ty (BitVec.ofInt 64 (o.2 x.ty (s.me.rg x.a) (braw s.me x.b)))))

/-- R86, R89, R90: a saturating form writes the exact result held to the type's range, and sets `sa` exactly when the
exact result lies outside it. -/
def Sys2Proof.Claims.saturatingResultsRule : Prop :=
  ∀ o ∈ satOps, ∀ (x : Alu2) (s : State), s.me.guardOn x.gd = true → x.ty.isInt = true → x.sat = true →
    let v := o.2 (intAs x.ty (s.me.rg x.a)) (intAs x.ty (braw s.me x.b))
    RunsTo (o.1 x) s (fun u =>
      GoesOn s.me u (after s x.b.len) [x.d] [] [] (if clampTo x.ty v = v then 0 else fSA) ∧
      u.rg x.d = heldG x.d (BitVec.ofInt 64 (clampTo x.ty v)))

/-- R92: the counts of a register's low bits, each given by what it counts; and `mov`, which extends. -/
def Sys2Proof.Claims.countResultsRule : Prop :=
  ∀ (x : Alu1) (s : State), s.me.guardOn x.gd = true → x.ty.isInt = true →
    let f := natAs x.ty (s.me.rg x.a)
    (∀ k : Nat, (if f = 0 then k = x.ty.bits else k < x.ty.bits ∧ 2 ^ (x.ty.bits - 1 - k) ≤ f ∧ f < 2 ^ (x.ty.bits - k)) →
      RunsTo (.clz x) s (fun u => GoesOn s.me u (after s 8) [x.d] [] [] 0 ∧ u.rg x.d = heldG x.d (BitVec.ofNat 64 k))) ∧
    (∀ k : Nat, (if f = 0 then k = x.ty.bits else f % 2 ^ k = 0 ∧ f / 2 ^ k % 2 = 1) →
      RunsTo (.ctz x) s (fun u => GoesOn s.me u (after s 8) [x.d] [] [] 0 ∧ u.rg x.d = heldG x.d (BitVec.ofNat 64 k))) ∧
    RunsTo (.popc x) s (fun u => GoesOn s.me u (after s 8) [x.d] [] [] 0 ∧
      u.rg x.d = heldG x.d (BitVec.ofNat 64 ((List.range x.ty.bits).countP (fun j => f.testBit j)))) ∧
    RunsTo (.mov x) s (fun u => GoesOn s.me u (after s 8) [x.d] [] [] 0 ∧
      u.rg x.d = heldG x.d (readAs x.ty (s.me.rg x.a)))

/-- R93 to R97: `cmp` writes a whole predicate, `sel` chooses by bit 0 of a predicate, `bext` and `bins` act bit by bit,
`lea` adds, `li` extends its immediate. -/
def Sys2Proof.Claims.selectFieldResultsRule : Prop :=
  (∀ gd cond ty d a b (s : State), s.me.guardOn gd = true → Ty.isInt ty = true →
    RunsTo (.cmp gd cond ty d a b) s (fun u => GoesOn s.me u (after s b.len) [] [d] [] 0 ∧
      (holdsInt cond (intAs ty (s.me.rg a)) (intAs ty (braw s.me b)) → u.rp d = heldP d 0xFFFF) ∧
      (¬ holdsInt cond (intAs ty (s.me.rg a)) (intAs ty (braw s.me b)) → u.rp d = heldP d 0))) ∧
  (∀ gd d a b c (s : State), s.me.guardOn gd = true →
    RunsTo (.sel gd d a b c) s (fun u => GoesOn s.me u (after s 8) [d] [] [] 0 ∧
      u.rg d = heldG d (if (s.me.rp c)[0] then s.me.rg a else s.me.rg b))) ∧
  (∀ gd d a pos w1 sg (s : State), s.me.guardOn gd = true → pos.val + w1.val + 1 ≤ 64 → d ≠ 0 →
    RunsTo (.bext gd d a pos w1 sg) s (fun u => GoesOn s.me u (after s 8) [d] [] [] 0 ∧
      ∀ j, j < 64 → (u.rg d).getLsbD j =
        if j ≤ w1.val then (s.me.rg a).getLsbD (pos.val + j) else sg && (s.me.rg a).getLsbD (pos.val + w1.val))) ∧
  (∀ gd d a pos w1 (s : State), s.me.guardOn gd = true → pos.val + w1.val + 1 ≤ 64 → d ≠ 0 →
    RunsTo (.bins gd d a pos w1) s (fun u => GoesOn s.me u (after s 8) [d] [] [] 0 ∧
      ∀ j, j < 64 → (u.rg d).getLsbD j =
        if pos.val ≤ j ∧ j ≤ pos.val + w1.val then (s.me.rg a).getLsbD (j - pos.val) else (s.me.rg d).getLsbD j)) ∧
  (∀ gd a pos w1 sg (s : State), s.me.guardOn gd = true →
    RunsTo (.bext gd 0 a pos w1 sg) s (fun u => GoesOn s.me u (after s 8) [] [] [] 0) ∧
    RunsTo (.bins gd 0 a pos w1) s (fun u => GoesOn s.me u (after s 8) [] [] [] 0)) ∧
  (∀ gd d a b sc disp (s : State), s.me.guardOn gd = true →
    RunsTo (.lea gd d a b sc disp) s (fun u => GoesOn s.me u (after s disp.len) [d] [] [] 0 ∧
      u.rg d = heldG d (s.me.rg a + (s.me.rg b <<< sc.val) + disp.val))) ∧
  (∀ gd d i (s : State), s.me.guardOn gd = true →
    RunsTo (.li gd d i) s (fun u => GoesOn s.me u (after s i.len) [d] [] [] 0 ∧ u.rg d = heldG d i.val))

/-! ### Control -/

/-- R53, R98, R99: with its guard true and a legal target, each control transfer goes to its target, and writes the return
address or the counter where it has one; `loop` falls through when its counter reaches 0; `nop` and `nop.blk` only move
the PC, the second to the next fetch block. -/
def Sys2Proof.Claims.controlTransfersRule : Prop :=
  (∀ (n : NopLen) (s : State), RunsTo (.nop n) s (fun u => GoesOn s.me u (after s n.len) [] [] [] 0)) ∧
  (∀ s : State, RunsTo .nopBlk s (fun u =>
    GoesOn s.me u (BitVec.ofNat 57 (s.me.pc.toNat - s.me.pc.toNat % 32 + 32)) [] [] [] 0)) ∧
  (∀ gd (off : Disp) (s : State), s.me.guardOn gd = true → targetOk (pcWord s.me + off.val * 4) = true →
    RunsTo (.br gd off) s (fun u => GoesOn s.me u ((pcWord s.me + off.val * 4).setWidth 57) [] [] [] 0)) ∧
  (∀ gd (tg : JmpT) (s : State), s.me.guardOn gd = true → targetOk tg.val = true →
    RunsTo (.jmp gd tg) s (fun u => GoesOn s.me u (tg.val.setWidth 57) [] [] [] 0)) ∧
  (∀ gd d (off : Disp) (s : State), s.me.guardOn gd = true → targetOk (pcWord s.me + off.val * 4) = true →
    RunsTo (.jal gd d off) s (fun u => GoesOn s.me u ((pcWord s.me + off.val * 4).setWidth 57) [d] [] [] 0 ∧
      u.rg d = heldG d (pcWord s.me + BitVec.ofNat 64 off.len))) ∧
  (∀ gd d a (disp : BitVec 16) (s : State), s.me.guardOn gd = true →
    targetOk (s.me.rg a + disp.signExtend 64) = true →
    RunsTo (.jr gd d a disp) s (fun u => GoesOn s.me u ((s.me.rg a + disp.signExtend 64).setWidth 57) [d] [] [] 0 ∧
      u.rg d = heldG d (pcWord s.me + 8))) ∧
  (∀ gd a (s : State), s.me.guardOn gd = true → targetOk (s.me.rg a) = true →
    RunsTo (.ret gd a) s (fun u => GoesOn s.me u ((s.me.rg a).setWidth 57) [] [] [] 0)) ∧
  (∀ gd d (off : Disp) (s : State), s.me.guardOn gd = true → s.me.rg d - 1 ≠ 0 →
    targetOk (pcWord s.me + off.val * 4) = true →
    RunsTo (.loop gd d off) s (fun u => GoesOn s.me u ((pcWord s.me + off.val * 4).setWidth 57) [d] [] [] 0 ∧
      u.rg d = heldG d (s.me.rg d - 1))) ∧
  (∀ gd d (off : Disp) (s : State), s.me.guardOn gd = true → s.me.rg d = 1 →
    RunsTo (.loop gd d off) s (fun u => GoesOn s.me u (after s off.len) [d] [] [] 0 ∧ u.rg d = heldG d 0))

/-- R38, R99: a control transfer whose target has a low bit set or lies beyond the 57-bit space traps before anything is
written; the packet names the target. -/
def Sys2Proof.Claims.badTargetsRule : Prop :=
  ∀ gd d a (off : Disp) (disp : BitVec 16) (tg : JmpT) (s : State), s.me.guardOn gd = true →
    (targetOk (pcWord s.me + off.val * 4) = false →
      Traps (.br gd off) s ⟨0x06, 0, pcWord s.me + off.val * 4, 0⟩ ∧
      Traps (.jal gd d off) s ⟨0x06, 0, pcWord s.me + off.val * 4, 0⟩ ∧
      (s.me.rg d - 1 ≠ 0 → Traps (.loop gd d off) s ⟨0x06, 0, pcWord s.me + off.val * 4, 0⟩)) ∧
    (targetOk tg.val = false → Traps (.jmp gd tg) s ⟨0x06, 0, tg.val, 0⟩) ∧
    (targetOk (s.me.rg a + disp.signExtend 64) = false →
      Traps (.jr gd d a disp) s ⟨0x06, 0, s.me.rg a + disp.signExtend 64, 0⟩) ∧
    (targetOk (s.me.rg a) = false → Traps (.ret gd a) s ⟨0x06, 0, s.me.rg a, 0⟩)


/-- Each control transfer goes to its target, links or counts; a bad target traps before anything is written: the two
statements above. -/
def Obligations.ControlTransfers : Prop := controlTransfersRule ∧ badTargetsRule

/-- Counts, moves, comparisons, selections, fields, addresses and immediates give their results, with their frame: the
two statements above. -/
def Obligations.CountAndFieldResults : Prop := countResultsRule ∧ selectFieldResultsRule

/-- The exact integer results, division by 0 among them, and the saturating forms with the flag `sa`: the two
statements above. -/
def Obligations.IntegerExactResults : Prop := integerExactResultsRule ∧ saturatingResultsRule
/-! ### System registers and `thaw` -/

/-- The numbers of R103 and R317 that name a register. -/
def Sys2Proof.Claims.sysNumbers : List Nat :=
  [0, 1, 2, 3, 4, 0x10, 0x11, 0x12, 0x13, 0x14, 0x15, 0x20, 0x21, 0x22, 0x40, 0x41, 0x60, 0x80, 0x81, 0x82, 0x90, 0x91,
    0x92, 0x93, 0xA0, 0xA1, 0xA8, 0xB0]

/-- R101, R102, R103: `sysrd` writes the named bits of the register as it stands, and changes nothing else; a module
register is read once the core's own writes have reached the hubs. A number that names no register is an
illegal-instruction at the PC, for `sysrd` and `syswr` alike. -/
def Sys2Proof.Claims.systemReadsRule : Prop :=
  (∀ gd d (reg : BitVec 16) f (x : Nat) (s : State), s.me.guardOn gd = true → s.sysReg reg.toNat = some x →
    (reg.toNat < 0x81 ∨ ∀ w ∈ s.hubWrites, w.core ≠ some s.cur.1) →
    RunsTo (.sysrd gd d reg f) s (fun u => GoesOn s.me u (after s (fieldLen f)) [d] [] [] 0 ∧
      u.rg d = heldG d (match f with
        | none => BitVec.ofNat 64 x
        | some b => BitVec.ofNat 64 (x / 2 ^ b.lo.val % 2 ^ (b.w1.val + 1))))) ∧
  (∀ gd d (reg : BitVec 16) f (s : State), s.me.guardOn gd = true → reg.toNat ∉ sysNumbers →
    Traps (.sysrd gd d reg f) s ⟨0x02, 0, pcWord s.me, 0⟩ ∧ Traps (.syswr gd d reg f) s ⟨0x02, 0, pcWord s.me, 0⟩) ∧
  (∀ (s : State) n, n ∈ sysNumbers → (s.sysReg n).isSome = true)

/-- R14, R16, R66, R149, R150, R190, R199, R200, R208: the fields of the registers of a strand and a core as `sysrd` shows
them. -/
def Sys2Proof.Claims.strandRegisterMapsRule : Prop :=
  ∀ (s : State) (x : Nat),
    (s.sysReg 0 = some x →
      x.testBit 23 = s.me.priv ∧ x.testBit 22 = s.me.rei ∧ x.testBit 21 = s.me.slicefix ∧ x.testBit 20 = s.me.sx ∧
      x / 2 ^ 16 % 16 = s.me.blk.toNat ∧ x / 2 ^ 12 % 16 = s.cur.2.val ∧ x.testBit 11 = s.me.live ∧
      x / 2 ^ 8 % 8 = 0 ∧ x.testBit 7 = s.me.repact ∧ x % 128 = s.me.repcnt.toNat ∧ x / 2 ^ 24 = 0) ∧
    (s.sysReg 1 = some x → x = s.me.fflags.toNat) ∧
    (s.sysReg 2 = some x → x.testBit 0 = s.myCore.e4m3 ∧ x / 2 = 0) ∧
    (s.sysReg 4 = some x → x / 2 ^ 32 = s.myCore.late.cyc.toNat ∧ x / 2 ^ 16 % 2 ^ 16 = s.myCore.late.cnt.toNat ∧
      x.testBit 0 = s.myCore.late.comm) ∧
    (s.sysReg 0x21 = some x → s.cur.1 < 27648 → x / 2 ^ 48 = s.myCore.ecc.toNat ∧
      x / 2 ^ 45 % 8 = s.cur.1 / 3456 ∧ x / 2 ^ 38 % 128 = s.cur.1 / 36 % 96 ∧ x / 2 ^ 32 % 64 = s.cur.1 % 36 ∧
      x / 2 ^ 16 % 2 ^ 16 = s.myCore.lnum.toNat) ∧
    (let d := s.me.dom
     s.sysReg 3 = some x → x / 2 ^ 48 = d.key.toNat ∧ x / 2 ^ 40 % 2 ^ 8 = d.chm.toNat ∧ x.testBit 39 = d.chv ∧
      x / 2 ^ 30 % 2 ^ 9 = 0 ∧ x / 2 ^ 27 % 8 = d.gw.toNat ∧ x / 2 ^ 24 % 8 = d.gh.toNat ∧ x / 2 ^ 21 % 8 = d.gx.toNat ∧
      x / 2 ^ 18 % 8 = d.gy.toNat ∧ x / 2 ^ 3 % 2 ^ 15 = 0 ∧ x % 8 = d.lvl.toNat) ∧
    (∀ i : Fin 3, (s.sysReg (0x10 + i.val) = some x → x = s.myCore.org[i].toNat) ∧
      (s.sysReg (0x13 + i.val) = some x → x = s.myCore.ext[i].toNat)) ∧
    (s.sysReg 0x20 = some x → x.testBit 63 = s.myCore.stray ∧ x.testBit 62 = s.myCore.ue ∧ x / 2 ^ 56 % 2 ^ 6 = 0 ∧
      x / 2 ^ 36 % 2 ^ 20 = s.myCore.soff.toNat ∧ x / 2 ^ 32 % 16 = s.myCore.lspan.toNat ∧ x / 2 ^ 28 % 16 = 0 ∧
      x / 2 ^ 20 % 2 ^ 8 = s.myCore.size.toNat ∧ x % 2 ^ 20 = s.lsCap s.cur.1) ∧
    (let p := s.myCore.lprog
     s.sysReg 0x22 = some x → p.total ≤ 256 → p.done ≤ 256 → p.op < 256 → x.testBit 63 = p.act ∧ x.testBit 62 = p.sus ∧
      x / 2 ^ 59 % 8 = 0 ∧ x / 2 ^ 50 % 2 ^ 9 = p.total ∧ x / 2 ^ 41 % 2 ^ 9 = p.start.toNat ∧ x / 2 ^ 32 % 2 ^ 9 = p.done ∧
      x / 2 ^ 24 % 2 ^ 8 = p.op ∧ x % 2 ^ 24 = 0)

/-- R197, R234, R260, R292: the fields of the registers of the cluster, the die and the module. -/
def Sys2Proof.Claims.sharedRegisterMapsRule : Prop :=
  ∀ (s : State) (x : Nat), s.cur.1 < 27648 →
    let k := s.cluster (s.cur.1 / 36)
    (s.sysReg 0x40 = some x → k.sup < 36 → x / 2 ^ 52 = k.sup ∧
      x / 2 ^ 46 % 2 ^ 6 = ((List.range 36).filter (fun p => k.harvest.getLsbD p)).length ∧ x / 2 ^ 43 % 8 = s.cur.1 / 3456 ∧
      x / 2 ^ 36 % 2 ^ 7 = s.cur.1 / 36 % 96 ∧ ∀ p, p < 36 → x.testBit p = k.harvest.getLsbD p) ∧
    (s.sysReg 0x41 = some x → x = k.hchain.toNat) ∧
    (s.sysReg 0x60 = some x → ∀ d : Fin 8, d.val = s.cur.1 / 3456 → x / 2 ^ 48 = s.dies[d].fcast.toNat ∧
      x / 2 ^ 32 % 2 ^ 16 = s.dies[d].slice.toNat ∧ x / 2 ^ 24 % 2 ^ 8 = s.dies[d].age.toNat ∧
      x / 2 ^ 18 % 2 ^ 6 = s.myCore.ctx % 64 ∧ x % 2 ^ 18 = 0) ∧
    (s.sysReg 0x80 = some x → x / 2 ^ 16 % 2 ^ 8 = s.rev.toNat ∧ x % 2 ^ 16 = s.part.toNat ∧ x.testBit 47 = s.poison ∧
      (x.testBit 46 = true ↔ ∃ u c, (u, c) ∈ s.clusters ∧ c.halt = true) ∧ x / 2 ^ 24 % 2 ^ 22 = 0 ∧
      ∀ d : Fin 8, (s.dies[d].power = .online → x.testBit (48 + d.val) = true ∧ x.testBit (56 + d.val) = false) ∧
        (s.dies[d].power = .parking ∨ s.dies[d].power = .parked → x.testBit (56 + d.val) = true) ∧
        (s.dies[d].power = .offline → x.testBit (48 + d.val) = false))

/-- R15, R16, R66, R101, R317: `syswr` writes the named bits of a read-write field, clears a W1C bit where it writes a
one, leaves a read-only field and, in user mode, a privileged one, and sends the write of a module register to the
hubs. -/
def Obligations.SystemWrites : Prop :=
  ∀ gd a (f : Option RegField) (s : State), s.me.guardOn gd = true →
    let lo := (fieldBits f).1
    let w := (fieldBits f).2
    let named := fun j => decide (lo ≤ j) && decide (j < lo + w)
    let x := s.me.rg a
    (∃ y : Flags, exec (.syswr gd a 1 f) s = .next ((s.modMe (fun t => { t with fflags := y })).retire (fieldLen f)) ∧
      ∀ j, j < 6 → y.getLsbD j = if named j then x.getLsbD (j - lo) else s.me.fflags.getLsbD j) ∧
    exec (.syswr gd a 0 f) s = .next ((s.modMe (fun t => { t with
      sx := t.sx && !(named 20 && x.getLsbD (20 - lo))
      slicefix := t.slicefix && !(named 21 && x.getLsbD (21 - lo)) })).retire (fieldLen f)) ∧
    exec (.syswr gd a 2 f) s = .next ((s.modMyCore (fun k => { k with
      e4m3 := if named 0 then x.getLsbD 0 else k.e4m3 })).retire (fieldLen f)) ∧
    (s.me.priv = false → ∀ reg ∈ ([0x21, 0x41, 0x60] : List (BitVec 16)),
      exec (.syswr gd a reg f) s = .next (s.retire (fieldLen f))) ∧
    (∀ reg ∈ ([0x40] : List (BitVec 16)), exec (.syswr gd a reg f) s = .next (s.retire (fieldLen f))) ∧
    (∀ reg : BitVec 16, 0x81 ≤ reg.toNat → reg.toNat ∈ sysNumbers →
      exec (.syswr gd a reg f) s = .next (({ s with
        hubWrites := s.hubWrites ++ [⟨reg.toNat, lo, w, x, some s.cur.1, s.me.priv⟩] } : State).retire (fieldLen f)))

/-- R233: in user mode `thaw` is an illegal-instruction. In privileged mode, once the strand's stores are performed at
cluster scope, it replies 1 for a position that is none or is not frozen and 2 for a contained one, and leaves the
position frozen; else it lets the core go on: unfrozen, its instruction cache empty, its queues out of the error
state, every strand's PC as it was. -/
def Obligations.ThawResults : Prop :=
  ∀ gd d a (s : State), s.me.guardOn gd = true →
    let p := (s.me.rg a).toNat % 64
    let c := 36 * (s.cur.1 / 36) + p
    (s.me.priv = false → Traps (.thaw gd d a) s ⟨0x02, 0, pcWord s.me, 0⟩) ∧
    (s.me.priv = true → s.released .clu = true →
      (35 < p ∨ (s.core c).frozen = false →
        RunsTo (.thaw gd d a) s (fun u => GoesOn s.me u (after s 8) [d] [] [] 0 ∧ u.rg d = heldG d 1)) ∧
      (p ≤ 35 → (s.core c).frozen = true → s.contained c = true →
        RunsTo (.thaw gd d a) s (fun u => GoesOn s.me u (after s 8) [d] [] [] 0 ∧ u.rg d = heldG d 2)) ∧
      (p ≤ 35 → (s.core c).frozen = true → s.contained c = false → (s.core c).conflict = false → s.partner c = none →
        c ≠ s.cur.1 →
        ∃ t, exec (.thaw gd d a) s = .next t ∧ t.me.rg d = heldG d 0 ∧ t.me.pc = after s 8 ∧
          t.core c = { s.core c with
            frozen := false, packed := false, icache := [], drafts := Vector.replicate 4 none, err := Vector.replicate 4 none } ∧
          (∀ e, e ≠ c → e ≠ s.cur.1 → t.core e = s.core e) ∧
          t.core s.cur.1 = { s.core s.cur.1 with strands := (t.core s.cur.1).strands } ∧
          t = { s with cores := t.cores, retired := true }))


/-- `sysrd` answers the named bits of each register of a strand, a core, a cluster, a die and of `%mod` by its map,
and of a hub's register as it stands, and changes nothing else; a bad register number traps: the three statements
above. Where the manual leaves the point open, the clause states the model's choice (log 70). -/
def Obligations.SystemReads : Prop := systemReadsRule ∧ strandRegisterMapsRule ∧ sharedRegisterMapsRule
/-! ### Loads, stores and fences -/

namespace Sys2Proof.Claims

/-- A leaf of the context that lets the strand make the access: held by the core's own TLB, not privileged beyond the
strand, and homed at a hub (R106, R268, R269). -/
structure Grants (s : State) (l : Leaf) (ea : Word) (write : Bool) : Prop where
  low : ea.toNat < fixedBase
  plain : s.rangeOf s.myCore.ctx ea.toNat = none
  held : s.myCore.utlb.find? (fun x => x.covers s.myCore.ctx ea.toNat) = some l
  user : l.privOnly = false ∨ s.me.priv = true
  access : (if write then l.write else l.read) = true
  hub : l.home = 0

/-- The sector of memory address `a` is whole, and no injected error waits for a use of a line (R239, R315). -/
def Sound (s : State) (a : Nat) : Prop :=
  a / 64 ∉ s.poisoned ∧ (s.cluster (s.cur.1 / 36)).inject.getLsbD 63 = false

/-- The orders of a load that is not announced (R105). -/
def plainLoad (o : Order) : Prop := o = .plain ∨ o = .rlx ∨ o = .acq

/-- The load joins the strand's pending loads, to be made byte by byte where its offset in local store is no multiple of
its size (R108), its registers wait for it, and nothing else changes (R22, R28). -/
def Loads (i : Instr) (s : State) (locs : List Loc) (dst : LoadDst) (o : Order) (sc : Scope) (ea : Word) (len : Nat) :
    Prop :=
  ∃ t, exec i s = .next t ∧ Alone s t ∧ SameRegs s.me t.me ∧ t.me.pc = after s len ∧ t.me.buf = s.me.buf ∧
    t.me.loads = s.me.loads ++
      [{ id := s.nextId, locs := locs, dst := dst, acq := acquires o sc, scope := sc, sc := o == .sc, va := ea
         pc := s.me.pc, next := after s len, iw := s.me.iw, split := decide (ea.toNat % locs.length ≠ 0)
         slot := s.myCore.slot }] ∧
    t.me.pend = s.me.pend ++ dst.regs.map (fun r => (s.nextId, r)) ∧
    t.me.gates = if o = .acq ∧ sc ≠ .str then s.me.gates ++ [s.nextId] else s.me.gates

/-- The store joins the strand's store buffer with its bytes, byte by byte where its offset in local store is no multiple of
its size (R108), and nothing else changes: no byte of memory, none of local store (R29). -/
def Stores (i : Instr) (s : State) (bytes : List (Loc × Byte)) (o : Order) (sc : Scope) (ea : Word) (len : Nat) : Prop :=
  ∃ t, exec i s = .next t ∧ Alone s t ∧ SameRegs s.me t.me ∧ t.me.pc = after s len ∧ t.me.loads = s.me.loads ∧
    let one : BufEntry := { id := s.nextId, op := .store, bytes := bytes, rel := releases o sc, scope := sc, sc := o == .sc
                            va := ea, pc := s.me.pc, iw := s.me.iw, vas := [ea] }
    t.me.buf = s.me.buf ++ (if ea.toNat % bytes.length = 0 then [one] else
      ((List.range bytes.length).zip bytes).map (fun x =>
        { one with id := s.nextId + x.1, bytes := [x.2], grp := s.nextId, vas := if x.1 = 0 then [ea] else [] }))

/-- With room in the buffer the store joins it; with all 16 entries occupied it stalls at issue, and nothing has happened
(R22, R29). -/
def StoreEnters (i : Instr) (s : State) (bytes : List (Loc × Byte)) (o : Order) (sc : Scope) (ea : Word) (len : Nat) : Prop :=
  (s.me.bufCount < 16 → Stores i s bytes o sc ea len) ∧
  (16 ≤ s.me.bufCount → ∃ t, exec i s = .next t ∧ t.retired = false ∧ SameRegs s.me t.me ∧ t.me.pc = s.me.pc ∧
    t.me.blk = 0 ∧ t.me.buf = s.me.buf ∧ t.mem = s.mem ∧ ∀ e, e ≠ s.cur.1 → t.core e = s.core e)

end Sys2Proof.Claims

/-- R28, R104, R106, R148: a load from local store or from memory joins the strand's pending loads with the bytes that its
effective address names, wrapped in the allocation's span or translated; no register changes yet. -/
def Sys2Proof.Claims.loadsIssueRule : Prop :=
  ∀ gd d c (m : Mem) ty o sc (s : State), s.me.guardOn gd = true → Ty.isInt ty = true →
    let ea := s.me.rg m.a + (s.me.rg m.b <<< m.sc.val) + m.disp.val
    let off := fun n => (List.range n).map (fun j => s.myCore.lsLoc (ea.toNat + j))
    (m.sp = true → plainLoad o → s.myCore.touched (off (ty.bits / 8)) = none →
      Loads (.ld gd d m ty o sc) s (off (ty.bits / 8)) (.g d ty) o sc ea m.disp.len) ∧
    (m.sp = true → plainLoad o → s.myCore.touched (off 16) = none →
      Loads (.ldp gd d c m o sc) s (off 16) (.pair d c) o sc ea m.disp.len) ∧
    (∀ l : Leaf, m.sp = false → plainLoad o → Grants s l ea false → Sound s (l.phys ea.toNat) →
      (ea.toNat % (ty.bits / 8) = 0 →
        Loads (.ld gd d m ty o sc) s ((List.range (ty.bits / 8)).map (fun j => ⟨.mem .hub, l.phys ea.toNat + j⟩))
          (.g d ty) o sc ea m.disp.len) ∧
      (ea.toNat % 16 = 0 →
        Loads (.ldp gd d c m o sc) s ((List.range 16).map (fun j => ⟨.mem .hub, l.phys ea.toNat + j⟩))
          (.pair d c) o sc ea m.disp.len))

/-- R29, R104, R106: a store to local store or to memory joins the strand's store buffer with the low bytes of its register,
least significant first, at the bytes that its effective address names; no byte changes yet. With all 16 entries occupied
it stalls. -/
def Sys2Proof.Claims.storesIssueRule : Prop :=
  ∀ gd d c (m : Mem) ty o sc (s : State), s.me.guardOn gd = true → Ty.isInt ty = true → o ≠ .sc →
    let ea := s.me.rg m.a + (s.me.rg m.b <<< m.sc.val) + m.disp.val
    let off := fun n => (List.range n).map (fun j => s.myCore.lsLoc (ea.toNat + j))
    let one := leBytes (ty.bits / 8) (s.me.rg d).toNat
    let two := leBytes 8 (s.me.rg d).toNat ++ leBytes 8 (s.me.rg c).toNat
    (m.sp = true → s.myCore.touched (off (ty.bits / 8)) = none →
      StoreEnters (.st gd d m ty o sc) s ((off (ty.bits / 8)).zip one) o sc ea m.disp.len) ∧
    (m.sp = true → s.myCore.touched (off 16) = none →
      StoreEnters (.stp gd d c m o sc) s ((off 16).zip two) o sc ea m.disp.len) ∧
    (∀ l : Leaf, m.sp = false → Grants s l ea true → s.me.dropped = none →
      (ea.toNat % (ty.bits / 8) = 0 →
        StoreEnters (.st gd d m ty o sc) s
          (((List.range (ty.bits / 8)).map (fun j => ⟨.mem .hub, l.phys ea.toNat + j⟩)).zip one) o sc ea m.disp.len) ∧
      (ea.toNat % 16 = 0 →
        StoreEnters (.stp gd d c m o sc) s
          (((List.range 16).map (fun j => ⟨.mem .hub, l.phys ea.toNat + j⟩)).zip two) o sc ea m.disp.len))

/-- R106: the checks of a memory access, in their order: bit 63, the 57-bit space, alignment, the translation, what it
grants. A failing check traps with its code and the address, and nothing is loaded or stored. Where the manual leaves
the point open, the clause states the model's choice (log 28, 29). -/
def Obligations.AccessTraps : Prop :=
  ∀ gd d (m : Mem) ty sc (s : State), s.me.guardOn gd = true → Ty.isInt ty = true → m.sp = false →
    let ea := s.me.rg m.a + (s.me.rg m.b <<< m.sc.val) + m.disp.val
    let both := fun k => Traps (.ld gd d m ty .plain sc) s k ∧
      (s.me.dropped = none → Traps (.st gd d m ty .plain sc) s k)
    (2 ^ 63 ≤ ea.toNat → both ⟨0x10, 0, ea, 0⟩) ∧
    (2 ^ 57 ≤ ea.toNat → ea.toNat < 2 ^ 63 → both ⟨0x11, 0, ea, 0⟩) ∧
    (ea.toNat < 2 ^ 57 → ea.toNat % (ty.bits / 8) ≠ 0 → both ⟨0x12, 0, ea, 0⟩) ∧
    (ea.toNat < fixedBase → ea.toNat % (ty.bits / 8) = 0 → s.rangeOf s.myCore.ctx ea.toNat = none →
      (∀ e, s.leafFor s.cur.1 s.myCore.ctx ea.toNat = .error e →
        both ⟨match e with | .translation => 0x13 | .protection => 0x14, 0, ea, 0⟩) ∧
      (∀ l s', s.leafFor s.cur.1 s.myCore.ctx ea.toNat = .ok (l, s') →
        ((l.privOnly = true ∧ s.me.priv = false) ∨ l.read = false → Traps (.ld gd d m ty .plain sc) s ⟨0x14, 0, ea, 0⟩) ∧
        ((l.privOnly = true ∧ s.me.priv = false) ∨ l.write = false → s.me.dropped = none →
          Traps (.st gd d m ty .plain sc) s ⟨0x14, 0, ea, 0⟩)))

/-- R33, R109, R162: a fence of strand scope only moves the PC; one with an acquire half completes when no load or
atomic of the strand is pending; one with a release half stands in the store buffer; `qfence` completes when the
queues it names are empty and not in the error state, blocks with code 9 while one holds an operation, and traps for a
queue in the error state. Where the manual leaves the point open, the clause states the model's choice (log 72). -/
def Obligations.FencesAndQueues : Prop :=
  (∀ gd o (s : State), s.me.guardOn gd = true →
    RunsTo (.fence gd o .str) s (fun u => GoesOn s.me u (after s 8) [] [] [] 0)) ∧
  (∀ gd o sc (s : State), s.me.guardOn gd = true → s.me.dropped = none → sc ≠ .str → s.settled = true →
    o = .acq ∨ o = .rel ∨ o = .ar →
    ∃ t, exec (.fence gd o sc) s = .next t ∧ Alone s t ∧ SameRegs s.me t.me ∧ t.me.pc = after s 8 ∧
      (o = .acq → t.me.buf = s.me.buf) ∧
      (o ≠ .acq → ∃ id, t.me.buf = s.me.buf ++ [{ id := id, op := .fence (o == .ar), rel := true, scope := sc, pc := s.me.pc, iw := s.me.iw }]) ∧
      (o ≠ .rel → sc ≠ .core → t.me.voidP = s.nextId) ∧ (o = .rel → t.me.voidP = s.me.voidP)) ∧
  (∀ gd (mask : BitVec 4) (s : State), s.me.guardOn gd = true → (∀ qs n, s.me.wait ≠ .queue qs n) →
    (∀ q : Fin 4, mask.getLsbD q.val = true → s.myCore.opsIn q = [] ∧ s.myCore.err[q] = none) →
    RunsTo (.qfence gd mask) s (fun u => GoesOn s.me u (after s 8) [] [] [] 0)) ∧
  (∀ gd (mask : BitVec 4) (q : Fin 4) (i : Nat) (s : State), s.me.guardOn gd = true → (∀ qs n, s.me.wait ≠ .queue qs n) →
    mask.getLsbD q.val = true → i ∈ s.myCore.opsIn q → i < s.nextId →
    ∃ t, exec (.qfence gd mask) s = .next t ∧ t.retired = false ∧ t.me.blk = 9 ∧ t.me.pc = s.me.pc ∧ SameRegs s.me t.me) ∧
  (∀ gd (q : Fin 4) (e : QErr) (s : State), s.me.guardOn gd = true → (∀ qs n, s.me.wait ≠ .queue qs n) →
    s.myCore.opsIn q = [] → s.myCore.err[q] = some e →
    Traps (.qfence gd (BitVec.ofNat 4 (2 ^ q.val))) s
      ⟨0x1C, q.val, BitVec.ofNat 64 e.off, BitVec.ofNat 64 (2 ^ 32 * e.discarded + 2 ^ 8 * e.cause)⟩)


/-- What a load and a store that are not `.sc` do at issue in pages homed at a hub, byte by byte where made so; with
all 16 entries occupied a store stalls: the two statements above. Where the manual leaves the point open, the clause
states the model's choice (log 25). -/
def Obligations.AccessesIssue : Prop := loadsIssueRule ∧ storesIssueRule

/-! ### Traps that are instructions, atomics -/

namespace Sys2Proof.Claims

/-- The operation joins the strand's store buffer with the bytes it names; the register of its reply waits for it, and
with an acquire half so does every later instruction. Nothing else changes (R22, R29, R33). -/
def Asks (i : Instr) (s : State) (op : BufOp) (locs : List Loc) (d : Fin 32) (o : Order) (sc : Scope) (va : Word)
    (len : Nat) : Prop :=
  ∃ t, exec i s = .next t ∧ Alone s t ∧ SameRegs s.me t.me ∧ t.me.pc = after s len ∧ t.me.loads = s.me.loads ∧
    t.me.buf = s.me.buf ++
      [{ id := s.nextId, op := op, bytes := locs.map (fun l => (l, 0)), rel := releases o sc, scope := sc
         sc := o == .sc, va := va, pc := s.me.pc, iw := s.me.iw, vas := if locs.isEmpty then [] else [va] }] ∧
    t.me.pend = s.me.pend ++ (if d = 0 then [] else [(s.nextId, .g d)]) ∧
    t.me.gates = s.me.gates ++ (if acquires o sc then [s.nextId] else [])

/-- The integer atomics with the operation each performs. -/
def atomics : List ((Atom → Instr) × AtomOp) :=
  [(.aadd, .aadd), (.amin, .amin), (.amax, .amax), (.aand, .aand), (.aor, .aor), (.axor, .axor), (.aswap, .aswap)]

/-- What an atomic leaves in memory, as the low bits of its type: from the old value, B and C (R221). -/
def leaves (op : AtomOp) (ty : Ty) (old b c : Word) : Nat :=
  match op with
  | .aadd => (natAs ty old + natAs ty b) % 2 ^ ty.bits
  | .amin => if intAs ty old ≤ intAs ty b then natAs ty old else natAs ty b
  | .amax => if intAs ty old ≤ intAs ty b then natAs ty b else natAs ty old
  | .aand => natAs ty old &&& natAs ty b
  | .aor => natAs ty old ||| natAs ty b
  | .axor => natAs ty old ^^^ natAs ty b
  | .aswap => natAs ty b
  | .acas => if natAs ty old = natAs ty b then natAs ty c else natAs ty old

/-- The place of the cell range at offset `off` (R219, R379). -/
def cellRange (off : Nat) : Nat := fixedBase + 6 * 2 ^ 40 + off

end Sys2Proof.Claims

/-- R221, R222: with its guard true, an atomic on memory that the strand may write joins the strand's store buffer with
its operands, and the register of the old value waits for it; `afadd` does so in the cell range of the context. -/
def Sys2Proof.Claims.atomicsIssueRule : Prop :=
  ∀ (x : Atom) (s : State), s.me.guardOn x.gd = true → s.me.dropped = none → s.me.bufCount < 16 →
    let ea := s.me.rg x.a + x.disp.val
    (∀ l : Leaf, Grants s l ea true → Sound s (l.phys ea.toNat) →
      x.ty ∈ ([.i32, .i64, .n32, .n64] : List Ty) → ea.toNat % (x.ty.bits / 8) = 0 →
      let at' := (List.range (x.ty.bits / 8)).map (fun j => (⟨.mem .hub, l.phys ea.toNat + j⟩ : Loc))
      (∀ o ∈ atomics, Asks (o.1 x) s (.atom o.2 x.ty (s.me.rg x.b) 0 x.d) at' x.d x.order x.scope ea x.disp.len) ∧
      (∀ c, Asks (.acas x c) s (.atom .acas x.ty (s.me.rg x.b) (s.me.rg c) x.d) at' x.d x.order x.scope ea x.disp.len)) ∧
    (∀ n : Nat, n < 1024 → ea.toNat = cellRange (32 * n) →
      (s.ctx s.myCore.ctx).cbase ≤ n → n < (s.ctx s.myCore.ctx).cbase + (s.ctx s.myCore.ctx).ccount →
      (s.cluster (s.cur.1 / 36)).inject.getLsbD 63 = false → (sget {} (s.cluster (s.cur.1 / 36)).cells n).bad = false →
      Asks (.afadd x) s (.fadd x.ty (s.me.rg x.b) s.myCore.e4m3 x.d)
        ((List.range 32).map (fun j => ⟨.cell, 32 * n + j⟩)) x.d x.order x.scope ea x.disp.len)

/-- R220 to R222: an atomic that is the next of its core to leave is performed at its home in one event: the bytes it
names take the new value, no other byte of memory changes, and the register that waits for it takes the old value
extended as the type says. -/
def Sys2Proof.Claims.atomicPerformsRule : Prop :=
  ∀ (s : State) (c id a : Nat) (home : Home) (o : OutEntry) (op : AtomOp) (ty : Ty) (b x : Word) (d : Fin 32),
    s.outEntry c id = some o → o.e.op = .atom op ty b x d → ty ∈ ([.i32, .i64, .n32, .n64] : List Ty) →
    o.e.locs = (List.range (ty.bits / 8)).map (fun j => (⟨.mem home, a + j⟩ : Loc)) → o.e.id = id →
    (s.core c).firstOut id = true → s.olderSameHome c o = false →
    (∀ l ∈ o.e.locs, s.clusterAhead (c / 36) l = false) →
    s.MemOk → s.strandAt c o.strand = { s.strandAt c o.strand with pend := [(id, .g d)], gates := [] } → d ≠ 0 →
    let old : Word := BitVec.ofNat 64 (leNat ((List.range (ty.bits / 8)).map (fun j => memGet s.mem (a + j))))
    ∃ t, exec (.atomicPerform c id) s = .next t ∧
      (List.range (ty.bits / 8)).map (fun j => memGet t.mem (a + j)) = leBytes (ty.bits / 8) (leaves op ty old b x) ∧
      (∀ y, (y < a ∨ a + ty.bits / 8 ≤ y) → memGet t.mem y = memGet s.mem y) ∧
      (t.strandAt c o.strand).rg d = readAs ty old ∧ (t.strandAt c o.strand).pend = [] ∧
      (∀ n, n ≠ d → (t.strandAt c o.strand).rg n = (s.strandAt c o.strand).rg n) ∧
      (∀ h, h ≠ o.strand → (t.strandAt c h).g = (s.strandAt c h).g) ∧
      (t.core c).outq = (s.core c).outq.filter (fun y => y.e.id != id) ∧
      (∀ e, e ≠ c → t.core e = s.core e)

/-! ### Helper strands -/

/-- R12, R17, R18, R111 to R113: `xstart` makes an idle helper live with four arguments, the domain of the control strand
and the context's privilege, and every other field as at a task's start, with no line from before the task; `xjoin` completes when no helper of its mask is
live, and waits with code 6 else; `xend` makes its helper idle, adds its flags to those of strand 0 and releases its
stream ports. -/
def Sys2Proof.Claims.helperStrandsRule : Prop :=
  (∀ gd (h : Fin 16) off a1 a2 a3 a4 (s : State), s.me.guardOn gd = true → s.cur.2 = 0 → 1 ≤ h.val → h.val ≤ 10 →
    let k : Fin 11 := Fin.ofNat 11 h.val
    let target := pcWord s.me + off.signExtend 64 * 4
    target.toNat < 2 ^ 57 → (s.strandAt s.cur.1 k).live = false → s.me.buf = [] →
    ∃ t, exec (.xstart gd h off a1 a2 a3 a4) s = .next t ∧ SameRegs s.me t.me ∧ t.me.pc = after s 12 ∧
      (let u := t.strandAt s.cur.1 k
       u.rg 1 = s.me.rg a1 ∧ u.rg 2 = s.me.rg a2 ∧ u.rg 3 = s.me.rg a3 ∧ u.rg 4 = s.me.rg a4 ∧
       (∀ n : Fin 32, 4 < n.val → u.rg n = 0) ∧
       u = { ({} : Strand) with
         g := u.g, pc := target.setWidth 57, live := true, dom := s.me.dom, stamp := s.myCore.slot
         voidP := s.myCore.task.getD 0, voidC := s.myCore.task.getD 0
         priv := if s.myCore.task.isSome then (s.ctx s.myCore.ctx).priv else s.me.priv }) ∧
      (∀ j, j ≠ k → j ≠ 0 → t.strandAt s.cur.1 j = s.strandAt s.cur.1 j) ∧
      (∀ e, e ≠ s.cur.1 → t.core e = s.core e) ∧ t.mem = s.mem) ∧
  (∀ gd (m : MaskSrc) (s : State), s.me.guardOn gd = true → s.cur.2 = 0 →
    let bits : BitVec 16 := match m with | .imm x => x | .reg a => (s.me.rg a).setWidth 16
    ((∀ h : Fin 11, h ≠ 0 → bits.getLsbD h.val = true → (s.strandAt s.cur.1 h).live = false) →
      RunsTo (.xjoin gd m) s (fun u => GoesOn s.me u (after s 8) [] [] [] 0)) ∧
    (∀ h : Fin 11, h ≠ 0 → bits.getLsbD h.val = true → (s.strandAt s.cur.1 h).live = true →
      ∃ t, exec (.xjoin gd m) s = .next t ∧ t.retired = false ∧ t.me.blk = 6 ∧ t.me.pc = s.me.pc ∧ SameRegs s.me t.me)) ∧
  (∀ gd (s : State), s.me.guardOn gd = true → s.cur.2 ≠ 0 → s.me.buf = [] → s.settled = true → s.me.rep = none →
    ∃ t, exec (.xend gd) s = .next t ∧ t.retired = true ∧ t.me.live = false ∧
      (t.strandAt s.cur.1 0).fflags = (s.strandAt s.cur.1 0).fflags ||| s.me.fflags ∧
      (∀ q : Fin 4, (t.core s.cur.1).ports[q] =
        if (s.core s.cur.1).ports[q].any (fun p => p.strand == s.cur.2) then none else (s.core s.cur.1).ports[q]) ∧
      (∀ j, j ≠ s.cur.2 → j ≠ 0 → t.strandAt s.cur.1 j = s.strandAt s.cur.1 j) ∧
      (∀ e, e ≠ s.cur.1 → t.core e = s.core e) ∧ t.mem = s.mem)

/-- R18, R111, R112, R206, R254: what only the control strand may issue is an illegal-instruction on a helper, and
`xend` one on the control strand; `xstart` of a live helper is a strand-busy that names it. -/
def Sys2Proof.Claims.strandRolesRule : Prop :=
  (∀ gd h off a1 a2 a3 a4 m d (b b' : Bool) (s : State), s.me.guardOn gd = true → s.cur.2 ≠ 0 →
    ∀ i ∈ ([.xstart gd h off a1 a2 a3 a4, .xjoin gd m, .tfin gd, .dbar gd d b, .dphase gd d b b'] : List Instr),
      Traps i s ⟨0x02, 0, pcWord s.me, 0⟩) ∧
  (∀ gd (s : State), s.me.guardOn gd = true → s.cur.2 = 0 → Traps (.xend gd) s ⟨0x02, 0, pcWord s.me, 0⟩) ∧
  (∀ gd (h : Fin 16) off a1 a2 a3 a4 (s : State), s.me.guardOn gd = true → s.cur.2 = 0 → h.val ≤ 10 →
    (pcWord s.me + off.signExtend 64 * 4).toNat < 2 ^ 57 → (s.strandAt s.cur.1 (Fin.ofNat 11 h.val)).live = true →
    Traps (.xstart gd h off a1 a2 a3 a4) s ⟨0x08, 0, 0, BitVec.ofNat 64 h.val⟩)

/-- Starting, joining and ending helper strands, their flags and their ports; who may issue what: the two statements
above. Where the manual leaves the point open, the clause states the model's choice (log 6, 24, 64). -/
def Obligations.HelperStrands : Prop := helperStrandsRule ∧ strandRolesRule

/-- What an atomic does at issue, and that it is performed at its home in one event with the old value as its reply:
the two statements above. Where the manual leaves the point open, the clause states the model's choice (log 20, 27).
-/
def Obligations.Atomics : Prop := atomicsIssueRule ∧ atomicPerformsRule

/-! ### Tasks and work lists -/

namespace Sys2Proof.Claims

/-- The instruction completes and changes nothing of its strand but the register of its result and the PC; of the rest
of the module it changes what `rest` says. -/
def Answers (i : Instr) (s : State) (len : Nat) (d : Fin 32) (x : Word) (rest : State → Prop) : Prop :=
  ∃ t, exec i s = .next t ∧ t.retired = true ∧ t.me.rg d = heldG d x ∧ t.me.pc = after s len ∧
    (∀ n, n ≠ d → t.me.rg n = s.me.rg n) ∧ (∀ n, t.me.rp n = s.me.rp n) ∧ (∀ n, t.me.rv n = s.me.rv n) ∧
    (∀ j, j ≠ s.cur.2 → t.strandAt s.cur.1 j = s.strandAt s.cur.1 j) ∧ rest t

/-- No other core differs, and no memory. -/
def Inside (s t : State) : Prop := (∀ c, c ≠ s.cur.1 → t.core c = s.core c) ∧ t.mem = s.mem

end Sys2Proof.Claims

/-- R252: `tspawn` and `tjoin` send the record that g[a] names to the dispatcher, as a release of module scope, and the
register of the status waits; an address that is no multiple of 32 is misaligned. -/
def Sys2Proof.Claims.recordOffersRule : Prop :=
  ∀ gd d a (s : State), s.me.guardOn gd = true →
    let ea := s.me.rg a
    (∀ l : Leaf, ea.toNat % 32 = 0 → Sound s (l.phys ea.toNat) → s.me.bufCount < 16 →
      Grants s l ea false →
      Asks (.tspawn gd d a) s (.offer false ⟨.mem .hub, l.phys ea.toNat⟩ ea d) [] d .rel .mod ea 8 ∧
      (Grants s l ea true → Asks (.tjoin gd d a) s (.offer true ⟨.mem .hub, l.phys ea.toNat⟩ ea d)
        ((List.range 8).map (fun j => ⟨.mem .hub, l.phys ea.toNat + (16 + j)⟩)) d .rel .mod ea 8)) ∧
    (ea.toNat % 32 ≠ 0 → Traps (.tspawn gd d a) s ⟨0x12, 0, ea, 0⟩ ∧ Traps (.tjoin gd d a) s ⟨0x12, 0, ea, 0⟩)

/-- R252, R310: what an offer that reaches the record does. A `tjoin` on a count of 0 answers 2 and changes no record; on
a larger count it counts down and answers 0; on a count of 1 it writes the count 0 and offers the record, as `tspawn` does.
An offer with status 1 stands at the tail of the record's queue, one with another status changes no queue; where the core
table of a context at work cannot be read, its tasks end (R246). -/
def Sys2Proof.Claims.offersPerformRule : Prop :=
  ∀ (s : State) (c id a : Nat) (o : OutEntry) (va : Word) (d : Fin 32) (join : Bool),
    s.outEntry c id = some o → o.e.id = id → (s.core c).firstOut id = true → o.task = none → s.MemOk →
    o.e.op = .offer join ⟨.mem .hub, a⟩ va d → d ≠ 0 →
    s.strandAt c o.strand = { s.strandAt c o.strand with pend := [(id, .g d)], gates := [] } →
    (∀ j, j < 32 → s.clusterAhead (c / 36) ⟨.mem .hub, a + j⟩ = false) →
    let dw := fun i : Nat => leNat ((List.range 8).map (fun j => memGet s.mem (a + 8 * i + j)))
    let count := dw 2 % 2 ^ 32
    let q := bitsN (dw 2) 47 42
    let left := dw 2 / 2 ^ 32 * 2 ^ 32
    let next := fun (t : State) (x : Word) => exec (.recordOffer c id) s = .next t ∧
      (t.strandAt c o.strand).rg d = x ∧ (t.core c).outq = (s.core c).outq.filter (fun y => y.e.id != id)
    (join = true → count = 0 → ∃ t, next t 2 ∧ t.mem = s.mem ∧ t.queues = s.queues) ∧
    (join = true → 1 < count → ∃ t, next t 0 ∧ t.queues = s.queues ∧
      leNat ((List.range 8).map (fun j => memGet t.mem (a + 16 + j))) = dw 2 - 1 ∧
      (∀ y, (y < a + 16 ∨ a + 24 ≤ y) → memGet t.mem y = memGet s.mem y)) ∧
    let offers := fun (s1 : State) (ds : List Nat) =>
      let r : Rec := ⟨ds.map (BitVec.ofNat 64), va, 0, s.joiners o.ctx va⟩
      (s1.offerStatus o.ctx r = 1 → s1.queueFull q = false → ∃ t, next t 1 ∧ (∀ y, memGet t.mem y = memGet s1.mem y) ∧
        sget [] t.queues q = sget [] s.queues q ++ [r]) ∧
      (∀ x : Nat, s1.offerStatus o.ctx r = x → x ≠ 1 → (x = 6 → s.ctxBusy? o.ctx = false ∨ (s.ctx o.ctx).stopped = true) →
        ∃ t, next t (BitVec.ofNat 64 x) ∧ (∀ y, memGet t.mem y = memGet s1.mem y) ∧ t.queues = s.queues) ∧
      (s1.offerStatus o.ctx r = 6 → s.ctxBusy? o.ctx = true → (s.ctx o.ctx).stopped = false →
        ∃ t, exec (.recordOffer c id) s = .next t ∧ t.queues = s.queues ∧ (t.ctx o.ctx).stopped = true ∧
          ∀ y ∈ t.tasks, y.ctx ≠ o.ctx)
    (join = false → offers s ((List.range 4).map dw)) ∧
    (join = true → count = 1 → offers { s with mem := memSetAll s.mem (placeAt (a + 16) (leBytes 8 left)) }
      [dw 0, dw 1, left, dw 3])

/-- R253: `tself` answers the dwords of the task's record and, at 4, its address; beyond 4 it is an
illegal-instruction. -/
def Sys2Proof.Claims.ownRecordRule : Prop :=
  ∀ gd d (n : Fin 16) (s : State), s.me.guardOn gd = true →
    (∀ (id : Nat) (t : Task), s.myCore.task = some id → s.task? id = some t → n.val ≤ 4 →
      RunsTo (.tself gd d n) s (fun u => GoesOn s.me u (after s 8) [d] [] [] 0 ∧
        u.rg d = heldG d (if n.val = 4 then t.record.origin else t.record.dwords.getD n.val 0))) ∧
    (4 < n.val → Traps (.tself gd d n) s ⟨0x02, 0, pcWord s.me, 0⟩)

/-- R254, R316: `tfin` on the control strand, with no helper live, every queue empty and every store performed, returns
the core: it runs no task, no strand of it is live and it holds no logical core, and what the task has left in its registers and its
local store stands. With its gang's last core the task has ended. It waits with code 6 for a live helper. -/
def Sys2Proof.Claims.taskEndsRule : Prop :=
  ∀ gd (s : State) (id : Nat), s.me.guardOn gd = true → s.cur.2 = 0 → s.myCore.task = some id →
    let k := s.core s.cur.1
    ((∀ h : Fin 11, h ≠ 0 → k.strands[h].live = false) → (∀ h : Fin 11, k.strands[h].buf = []) → k.outq = [] →
      (∀ q : Fin 4, k.opsIn q = [] ∧ k.err[q] = none) → s.pairs = [] → (∀ qs n, s.me.wait ≠ .queue qs n) →
      ∃ t, exec (.tfin gd) s = .next t ∧ t.retired = true ∧
        (t.core s.cur.1) = { k with
          task := none, lnum := 0xFFFF, conflict := false, packed := false, strands := (t.core s.cur.1).strands
          frozen := s.contained s.cur.1 || (s.cluster (s.cur.1 / 36)).halt, ports := .replicate 4 none
          eq0 := [], eq1 := [], eq2 := [], eq3 := [], wins := .replicate 8 none, repOwner := none, pairOf := none
          undo := [], whole := [], returned := false, worker := false, idle := false } ∧
        (∀ h : Fin 11, SameRegs k.strands[h] (t.strandAt s.cur.1 h) ∧ (t.strandAt s.cur.1 h).live = false) ∧
        (∀ c, c ≠ s.cur.1 → t.core c = s.core c) ∧ t.mem = s.mem ∧
        (∀ x ∈ s.tasks, x.id ≠ id → x ∈ t.tasks) ∧
        (∀ x ∈ s.tasks, x.id = id → x.saved = [] → (∀ c ∈ x.cores, c ≠ s.cur.1 → (s.core c).task ≠ some id) →
          x ∉ t.tasks)) ∧
    (∀ h : Fin 11, h ≠ 0 → k.strands[h].live = true →
      ∃ t, exec (.tfin gd) s = .next t ∧ t.retired = false ∧ t.me.blk = 6 ∧ t.me.pc = s.me.pc)

/-- R255, R256: `wapp` to a list that is none answers 2, and else sends its item as a release of module scope. `wtake`
takes the head of the list with status 0; of an empty list it answers 1, or 2 once every list is quiescent, and of no
list 3. Either makes its core a worker. -/
def Obligations.WorkLists : Prop :=
  (∀ gd d a (list : BitVec 8) (s : State), s.me.guardOn gd = true →
    let x := s.ctx s.myCore.ctx
    (x.nlists ≤ list.toNat → ∃ t, exec (.wapp gd d a list) s = .next t ∧ Inside s t ∧ t.me.rg d = heldG d 2 ∧
      (∀ k, k ≠ d → t.me.rg k = s.me.rg k) ∧ t.me.pc = after s 8 ∧
      (t.core s.cur.1).worker = true ∧ (t.core s.cur.1).idle = false) ∧
    (list.toNat < x.nlists → s.me.bufCount < 16 → ∃ t, exec (.wapp gd d a list) s = .next t ∧ Inside s t ∧
      SameRegs s.me t.me ∧ t.me.pc = after s 8 ∧ t.me.buf = s.me.buf ++
        [{ id := s.nextId, op := .wapp list.toNat (s.me.rg a) d, rel := true, scope := .mod, pc := s.me.pc, iw := s.me.iw }] ∧
      t.me.pend = s.me.pend ++ (if d = 0 then [] else [(s.nextId, .g d)]) ∧
      (t.core s.cur.1).worker = true ∧ (t.core s.cur.1).idle = false)) ∧
  (∀ gd d c (list : BitVec 8) (s : State), s.me.guardOn gd = true → c ≠ 0 →
    let n := s.myCore.ctx
    let x := s.ctx n
    (x.nlists ≤ list.toNat → ∃ t, exec (.wtake gd d c list) s = .next t ∧ Inside s t ∧ t.me.rg c = 3 ∧
      (∀ k, k ≠ c → t.me.rg k = s.me.rg k) ∧ t.me.pc = after s 8 ∧
      (t.core s.cur.1).worker = true ∧ (t.core s.cur.1).idle = (s.core s.cur.1).idle) ∧
    (list.toNat < x.nlists →
      (∀ y ys, sget [] x.lists list.toNat = y :: ys → s.listFault n false list.toNat 0 = none →
          ∃ t, exec (.wtake gd d c list) s = .next t ∧ Inside s t ∧
        t.me.rg c = 0 ∧ (d ≠ c → t.me.rg d = heldG d y) ∧ t.me.pc = after s 8 ∧
        (∀ k, k ≠ d → k ≠ c → t.me.rg k = s.me.rg k) ∧
        sget [] (t.ctx n).lists list.toNat = ys ∧ (t.core s.cur.1).idle = false ∧
        (∀ m, m ≠ n → t.ctx m = s.ctx m)) ∧
      (sget [] x.lists list.toNat = [] → ∃ t, exec (.wtake gd d c list) s = .next t ∧ Inside s t ∧
        t.me.rg c = (if x.quiet then 2 else 1) ∧ (∀ k, k ≠ c → t.me.rg k = s.me.rg k) ∧ t.me.pc = after s 8 ∧
        (∀ m, t.ctx m = s.ctx m) ∧ (t.core s.cur.1).worker = true ∧ (t.core s.cur.1).idle = true)))

/-! ### Domains -/

/-- R199, R206: the first `dbar` or `dphase` of a core on its domain waits with code 1, its flags [4:0] added to those
of the domain; once the generation it waits on is released, it completes with the merged flags in g[d], which with
`merge` join `%fflags`. At level 4 without a chamber it is a bad-domain. -/
def Sys2Proof.Claims.domainBarriersRule : Prop :=
  ∀ gd d (m comm : Bool) (s : State), s.me.guardOn gd = true → s.cur.2 = 0 →
    ∀ x ∈ ([(.dbar gd d m, none), (.dphase gd d m comm, some comm)] : List (Instr × Option Bool)),
      let i := x.1
      (s.me.dom.lvl.toNat = 4 → s.me.dom.chv = false → Traps i s ⟨0x29, 0, 0, s.me.dom.lvl.setWidth 64⟩) ∧
      (∀ (id : Nat) (t : Task) (n gen : Nat) (b : Barrier), s.me.dom.lvl.toNat ≠ 4 → s.myCore.task = some id →
        s.task? id = some t → s.me.wait = .barrier n gen → s.me.waitAt = s.me.pc → s.barriers.find? (fun b => b.dom == n) = some b →
        (gen < b.gen → ∃ t', exec i s = .next t' ∧ t'.me.rg d = heldG d (b.done.setWidth 64) ∧ t'.me.pc = after s 8 ∧
          t'.me.fflags = s.me.fflags ||| (if m then b.done.setWidth 6 else 0) ∧ t'.me.wait = .none ∧
          (∀ k, k ≠ d → t'.me.rg k = s.me.rg k) ∧ Inside s t' ∧ t'.barriers = s.barriers) ∧
        (b.gen ≤ gen → ∃ t', exec i s = .next t' ∧ t'.retired = false ∧ t'.me.blk = 1 ∧ t'.me.pc = s.me.pc ∧
          SameRegs s.me t'.me ∧ t'.barriers = s.barriers)) ∧
      (∀ (id : Nat) (t : Task), s.me.dom.lvl.toNat ≠ 4 → s.myCore.task = some id → s.task? id = some t →
        s.me.wait = .none → s.me.loads = [] → s.me.buf = [] → s.myCore.outq = [] → s.barriers = [] →
        ∃ t', exec i s = .next t' ∧ t'.retired = false ∧ t'.me.blk = 1 ∧ t'.me.pc = s.me.pc ∧ SameRegs s.me t'.me ∧
          ∃ b, t'.barriers = [b] ∧ b.lvl = s.me.dom.lvl.toNat ∧
            b.arrived = [⟨s.myCore.lnum.toNat, s.me.fflags.setWidth 5, x.2⟩] ∧ b.gen = 0 ∧ t'.me.wait = .barrier b.dom 0)

/-- R203, R207, R209: `dmem` answers the number of members of the domain and the core's rank among them; `ttime` the time
between two logical cores, and all ones where one is none. -/
def Sys2Proof.Claims.domainQueriesRule : Prop :=
  (∀ gd d (sel : Fin 8) (s : State) (id : Nat) (t : Task), s.me.guardOn gd = true → s.myCore.task = some id →
    s.task? id = some t →
    let lvl := if sel = 7 then s.me.dom.lvl.toNat else sel.val
    lvl < 4 → RunsTo (.dmem gd d sel) s (fun u => GoesOn s.me u (after s 8) [d] [] [] 0 ∧
      u.rg d = heldG d (BitVec.ofNat 64 (65536 * (s.members t s.cur.1 lvl).length +
        (s.members t s.cur.1 lvl).countP (fun n => decide (n < s.myCore.lnum.toNat)))))) ∧
  (∀ gd d (sel : Fin 8) (s : State) (k : Chamber), s.me.guardOn gd = true →
    (if sel = 7 then s.me.dom.lvl.toNat else sel.val) = 4 →
    (s.me.dom.chv = true → s.chamber s.me.dom.chm.toNat = some k →
      RunsTo (.dmem gd d sel) s (fun u => GoesOn s.me u (after s 8) [d] [] [] 0 ∧
        u.rg d = heldG d (BitVec.ofNat 64 (65536 * k.members.length + k.rank)))) ∧
    (s.me.dom.chv = false → RunsTo (.dmem gd d sel) s (fun u => GoesOn s.me u (after s 8) [d] [] [] 0 ∧ u.rg d = 0))) ∧
  (∀ gd d a b (s : State), s.me.guardOn gd = true →
    let at' := fun (x : Word) => s.coreEntry s.myCore.ctx x.toNat
    (∀ x y, at' (s.me.rg a) = .ok (some x) → at' (s.me.rg b) = .ok (some y) →
      RunsTo (.ttime gd d a b) s (fun u => GoesOn s.me u (after s 8) [d] [] [] 0 ∧
        u.rg d = heldG d (BitVec.ofNat 64 (
          let row := fun (c : Nat) => 6 * (c / 36 % 96 / 12) + c % 36 / 6
          let col := fun (c : Nat) => 6 * (c / 36 % 96 % 12) + c % 36 % 6
          if x / 3456 = y / 3456 then 4 + ((row x : Int) - row y).natAbs + ((col x : Int) - col y).natAbs
          else 44 + row x + row y)))) ∧
    (∀ x y, at' (s.me.rg a) = .ok x → at' (s.me.rg b) = .ok y → x = none ∨ y = none →
      RunsTo (.ttime gd d a b) s (fun u => GoesOn s.me u (after s 8) [d] [] [] 0 ∧
        u.rg d = heldG d (BitVec.allOnes 64))))

/-- `tself` answers the task's record; `tfin` returns the core once everything of the task has ended: the two
statements above. Where the manual leaves the point open, the clause states the model's choice (log 65). -/
def Obligations.RecordAndEnd : Prop := ownRecordRule ∧ taskEndsRule

/-- Barriers wait, release and give the merged flags; membership and travel times: the two statements above. Where the
manual leaves the point open, the clause states the model's choice (log 30). -/
def Obligations.Domains : Prop := domainBarriersRule ∧ domainQueriesRule

/-- `tspawn` and `tjoin` at issue, and their replies when the offer reaches its record: a `tjoin` that takes a count
from 1 offers it: the two statements above. Where the manual leaves the point open, the clause states the model's
choice (log 37). -/
def Obligations.RecordOffers : Prop := recordOffersRule ∧ offersPerformRule

/-! ### Cisterns, streams, messages -/

namespace Sys2Proof.Claims

/-- The instruction completes; of its core only cistern `c` differs, besides the strand's PC. -/
def Moves (i : Instr) (s : State) (len : Nat) (c : Fin 16) (post : Cistern → Prop) : Prop :=
  ∃ t, exec i s = .next t ∧ t.retired = true ∧ SameRegs s.me t.me ∧ t.me.pc = after s len ∧ Inside s t ∧
    (∀ e, e ≠ c → (t.core s.cur.1).cist[e] = (s.core s.cur.1).cist[e]) ∧
    t.core s.cur.1 = { s.core s.cur.1 with cist := (t.core s.cur.1).cist, strands := (t.core s.cur.1).strands } ∧
    post (t.core s.cur.1).cist[c]

/-- The instruction does not complete: it waits with a code of R21, its PC still its own. -/
def Waits (i : Instr) (s : State) (blk : BitVec 4) : Prop :=
  ∃ t, exec i s = .next t ∧ t.retired = false ∧ t.me.blk = blk ∧ t.me.pc = s.me.pc ∧ SameRegs s.me t.me

end Sys2Proof.Claims

/-- R154 to R158: `cdef` leaves an empty cistern of its base, slot size and count, and traps on a base that is no multiple
of 16. `cadv` takes its count of slots, the consumer's off the filled ones, the producer's off the free ones; the slots
change hands only with CISTERN_RELEASE. `cwait` changes nothing. Both wait for the slots, with code 2 on the consumer's
side and 5 on the producer's; an undefined cistern and a count that is 0 or larger than the cistern trap. -/
def Sys2Proof.Claims.cisternInstructionsRule : Prop :=
  ∀ gd (c : Fin 16) (s : State), s.me.guardOn gd = true →
    let k := s.core s.cur.1
    let x := k.cist[c]
    (∀ a off slot1 n1,
      let b : BitVec 20 := (s.me.rg a).setWidth 20 + off
      (b.toNat % 16 = 0 → x.held = [] → k.opsNaming c = [] →
        Moves (.cdef gd c a off slot1 n1) s 12 c (fun y =>
          y = ⟨true, b, 16 * (slot1.toNat + 1), n1.toNat + 1, 0, 0, 0, n1.toNat + 1, []⟩)) ∧
      (b.toNat % 16 ≠ 0 → Traps (.cdef gd c a off slot1 n1) s ⟨0x18, 0, b.setWidth 64, BitVec.ofNat 64 c.val⟩)) ∧
    (∀ src : CntSrc,
      let m := match src with | .imm k => k.toNat | .reg a => (s.me.rg a).toNat
      (x.defined = true → 0 < m → m ≤ x.n →
        (m ≤ x.filled → Moves (.cadvCons gd c src) s 8 c (fun y => ∃ h : Held, h.prod = false ∧ h.k = m ∧
            y = { x with filled := x.filled - m, cp := (x.cp + m) % x.n, held := x.held ++ [h] }) ∧
          RunsTo (.cwaitCons gd c src) s (fun u => GoesOn s.me u (after s 8) [] [] [] 0)) ∧
        (x.filled < m → Waits (.cadvCons gd c src) s 2 ∧ Waits (.cwaitCons gd c src) s 2) ∧
        (m ≤ x.free → Moves (.cadvProd gd c src) s 8 c (fun y => ∃ h : Held, h.prod = true ∧ h.k = m ∧
            y = { x with free := x.free - m, pp := (x.pp + m) % x.n, held := x.held ++ [h] }) ∧
          RunsTo (.cwaitProd gd c src) s (fun u => GoesOn s.me u (after s 8) [] [] [] 0)) ∧
        (x.free < m → Waits (.cadvProd gd c src) s 5 ∧ Waits (.cwaitProd gd c src) s 5)) ∧
      (∀ i ∈ ([.cadvCons gd c src, .cadvProd gd c src, .cwaitCons gd c src, .cwaitProd gd c src] : List Instr),
        (x.defined = false → Traps i s ⟨0x19, 0, 0, BitVec.ofNat 64 c.val⟩) ∧
        (x.defined = true → (m = 0 ∨ x.n < m) → Traps i s ⟨0x18, 0, x.base.setWidth 64, BitVec.ofNat 64 c.val⟩)))

/-- R159: `cstat` answers the pointers and counts of a cistern, 0 for an undefined one, and orders nothing. -/
def Sys2Proof.Claims.cisternStatusRule : Prop :=
  ∀ gd d (c : Fin 16) (s : State), s.me.guardOn gd = true →
    let x := (s.core s.cur.1).cist[c]
    RunsTo (.cstat gd d c) s (fun u => GoesOn s.me u (after s 8) [d] [] [] 0 ∧
      u.rg d = heldG d (if x.defined then
        BitVec.ofNat 64 (2 ^ 63 + 2 ^ 48 * x.cp + 2 ^ 32 * x.pp + 2 ^ 16 * x.free + x.filled) else 0))

/-- R154, R155, R158: the oldest advance of a side whose conditions are met is released: a producer's slots become filled,
a consumer's free. One whose conditions are not met has no effect. -/
def Sys2Proof.Claims.cisternReleasesRule : Prop :=
  ∀ (s : State) (core : Nat) (c : Fin 16) (h : Held) (rest : List Held),
    let k := s.core core
    let x := k.cist[c]
    x.held = h :: rest → (∀ y ∈ rest, y.id ≠ h.id) → (∀ e : Fin 16, e ≠ c → ∀ y ∈ k.cist[e].held, y.id ≠ h.id) →
    (h.cond.all (s.condMet core) = true → ∃ t, exec (.cisternRelease core h.id) s = .next t ∧
      (t.core core).cist[c] = (if h.prod then { x with filled := x.filled + h.k, held := rest }
        else { x with free := x.free + h.k, held := rest }) ∧
      (∀ e : Fin 16, e ≠ c → (t.core core).cist[e] = k.cist[e]) ∧ (t.core core).strands = k.strands ∧
      (t.core core).ls = k.ls ∧ (∀ e, e ≠ core → t.core e = s.core e) ∧ t.mem = s.mem) ∧
    (h.cond.all (s.condMet core) = false → exec (.cisternRelease core h.id) s = .next s)

/-- R134, R137: `sbind` binds a port of the strand to a vector register with its nest of elements, at its first
element; a port of another strand is a port-busy, a register that another port of the strand binds a stream-misuse
that names that port. `sunbind` frees the port. -/
def Obligations.StreamPorts : Prop :=
  ∀ gd (q : Fin 4) d a wr ty base s0 n0 s1 n1 (s : State), s.me.guardOn gd = true →
    let k := s.core s.cur.1
    let mine := ∀ p, k.ports[q] = some p → p.strand = s.cur.2
    (mine → (∀ (r : Fin 4) p, r ≠ q → k.ports[r] = some p → ¬ (p.strand = s.cur.2 ∧ p.d = d)) →
      ∃ t, exec (.sbind gd q d a wr ty base s0 n0 s1 n1) s = .next t ∧ t.retired = true ∧ SameRegs s.me t.me ∧
        t.me.pc = after s 16 ∧ Inside s t ∧
        (t.core s.cur.1).ports[q] = some { strand := s.cur.2, d := d, ty := ty, wr := wr
                                           base := (s.me.rg a).setWidth 20 + base, s0 := s0, n0 := n0.toNat + 1
                                           s1 := s1, n1 := n1.toNat + 1, since := s.nextId, word := base } ∧
        (∀ r : Fin 4, r ≠ q → (t.core s.cur.1).ports[r] = k.ports[r])) ∧
    (mine → ∃ t, exec (.sunbind gd q) s = .next t ∧ t.retired = true ∧ SameRegs s.me t.me ∧ t.me.pc = after s 8 ∧
      Inside s t ∧ (t.core s.cur.1).ports[q] = none ∧
      (∀ r : Fin 4, r ≠ q → (t.core s.cur.1).ports[r] = k.ports[r])) ∧
    (∀ (r : Fin 4) p, mine → r ≠ q → k.ports[r] = some p → p.strand = s.cur.2 → p.d = d →
      (∀ (j : Fin 4) p', j ≠ r → k.ports[j] = some p' → ¬ (p'.strand = s.cur.2 ∧ p'.d = d)) →
      Traps (.sbind gd q d a wr ty base s0 n0 s1 n1) s ⟨0x1B, 0, 0, BitVec.ofNat 64 r.val⟩) ∧
    (∀ p, k.ports[q] = some p → p.strand ≠ s.cur.2 →
      Traps (.sbind gd q d a wr ty base s0 n0 s1 n1) s ⟨0x1A, 0, 0, BitVec.ofNat 64 q.val⟩ ∧
      Traps (.sunbind gd q) s ⟨0x1A, 0, 0, BitVec.ofNat 64 q.val⟩)

/-- R210: `send` to a logical core that is none is a bad-target that names it. To one that is, the message with the 32
bytes of local store at its address enters the strand's store buffer, and the strand waits; it completes once the
message has been placed. -/
def Sys2Proof.Claims.messagesSentRule : Prop :=
  ∀ gd a b (disp : BitVec 16) (tag : Fin 16) (s : State), s.me.guardOn gd = true →
    let off := (s.me.rg b + disp.signExtend 64).toNat
    let locs := (List.range 32).map (fun j => (s.core s.cur.1).lsLoc (off + j))
    (s.me.wait = .none → s.coreEntry s.myCore.ctx (s.me.rg a).toNat = .ok none →
      Traps (.send gd a b disp tag) s ⟨0x2A, 0, 0, s.me.rg a⟩) ∧
    (∀ c, s.me.wait = .none → s.coreEntry s.myCore.ctx (s.me.rg a).toNat = .ok (some c) → s.myCore.touched locs = none →
      unpaired s s.cur.1 → s.me.buf = [] → s.me.loads = [] → (∀ l ∈ locs, l.at' = .ls ∧ s.myCore.bad.contains (l.addr / 8) = false) →
      ∃ t m, exec (.send gd a b disp tag) s = .next t ∧ t.retired = false ∧ t.me.blk = 0 ∧ t.me.pc = s.me.pc ∧
        SameRegs s.me t.me ∧ t.me.wait = .send s.nextId ∧
        t.me.buf = [{ id := s.nextId, op := .send (s.me.rg a).toNat m, rel := true, scope := scopeOf s.cur.1 c
                      pc := s.me.pc, iw := s.me.iw }] ∧
        m = ⟨0, s.myCore.e4m3, tag, s.myCore.lnum, locs.map (fun l => memGet s.myCore.ls l.addr)⟩) ∧
    (∀ id, s.me.wait = .send id → s.me.waitAt = s.me.pc → s.me.buf = [] → s.myCore.outq = [] →
      RunsTo (.send gd a b disp tag) s (fun u => GoesOn s.me u (after s 8) [] [] [] 0))

/-- R210, R211: `recv` waits with code 3 while no message is there; it takes the head of the queue, writes its 32 bytes to
local store through the strand's store buffer and its word to g[d], and the oldest overflow entry takes the free place.
A message of a core of the other E4M3 mode is a mode-mismatch and stays. `rpoll` counts what is there. -/
def Sys2Proof.Claims.messagesReceivedRule : Prop :=
  ∀ gd d a (disp : BitVec 16) (s : State), s.me.guardOn gd = true →
    let k := s.core s.cur.1
    let off := (s.me.rg a + disp.signExtend 64).toNat
    let locs := (List.range 32).map (fun j => k.lsLoc (off + j))
    RunsTo (.rpoll gd d) s (fun u => GoesOn s.me u (after s 8) [d] [] [] 0 ∧
      u.rg d = heldG d (BitVec.ofNat 64 (k.rq.length + k.ovf.length))) ∧
    (k.rq = [] → k.ovf = [] → Waits (.recv gd d a disp) s 3) ∧
    (∀ m rest, k.rq = m :: rest →
      (m.kind = 0 → m.mode ≠ k.e4m3 → Traps (.recv gd d a disp) s ⟨0x28, 0, 0, if m.mode then 1 else 0⟩) ∧
      ((m.kind ≠ 0 ∨ m.mode = k.e4m3) → k.touched locs = none → s.me.bufCount < 16 →
        (k.ovf ≠ [] → s.overflowFault k.ctx false k.lnum.toNat 0 = none) →
        ∃ t, exec (.recv gd d a disp) s = .next t ∧ t.retired = true ∧ t.me.pc = after s 8 ∧ Inside s t ∧
          t.me.rg d = heldG d (BitVec.ofNat 64 (2 ^ 24 * m.kind.val + 2 ^ 20 * (if m.mode then 1 else 0)
            + 2 ^ 16 * m.tag.val + m.src.toNat)) ∧
          (∀ n, n ≠ d → t.me.rg n = s.me.rg n) ∧
          t.me.buf.map (fun e => (e.op, e.bytes)) = s.me.buf.map (fun e => (e.op, e.bytes)) ++
            [(.store, locs.zip m.data)] ∧
          (t.core s.cur.1).rq = rest ++ k.ovf.take 1 ∧ (t.core s.cur.1).ovf = k.ovf.drop 1))

/-- cisternInstructionsRule; cisternStatusRule: the two statements above. -/
def Sys2Proof.Claims.cisternInstructionsPart : Prop := cisternInstructionsRule ∧ cisternStatusRule

/-- `send`, `recv` and `rpoll`: what enters the buffer, what waits, what is taken: the two statements above. Where the
manual leaves the point open, the clause states the model's choice (log 32). -/
def Obligations.Messages : Prop := messagesSentRule ∧ messagesReceivedRule

/-- What the cistern instructions answer and set, and when advances are released: the two statements above. -/
def Obligations.CisternInstructions : Prop := cisternInstructionsPart ∧ cisternReleasesRule

/-! ### Vectors -/

namespace Sys2Proof.Claims

/-- Lane l is active under a lane guard (R49). -/
def active (s : State) (gd : Guard) (l : Fin 16) : Bool := (s.me.rp gd.p).getLsbD l.val != gd.neg

/-- No port of the strand binds the register. -/
def unbound (s : State) (n : Fin 16) : Prop := ∀ (q : Fin 4) p, s.myCore.ports[q] = some p → ¬ (p.strand = s.cur.2 ∧ p.d = n)

/-- The integer of a lane under `i32` or `n32`. -/
def laneVal (ty : Ty) (x : Lane) : Int := if ty = .i32 then x.toInt else (x.toNat : Int)

/-- An exact integer as a lane: held to the range with `sa`, or wrapped (R120). -/
def intoLane (ty : Ty) (sat : Bool) (x : Int) : Lane × Flags :=
  if sat then (BitVec.ofInt 32 (clampTo ty x), if clampTo ty x = x then 0 else fSA) else (BitVec.ofInt 32 x, 0)

/-- `nv` for a signalling NaN among the operands (R119). -/
def sigNan (xs : List Lane) : Flags := if xs.any (fun x => (fp32.value x.toNat).isSig) then fNV else 0

/-- An exact number as an FP32 lane, rounded once (R84, R119). -/
def intoF32 (md : Round) (x : XReal × Flags) (ops : List Lane) : Lane × Flags :=
  (BitVec.ofNat 32 (fp32.rnd md x.1).1, (fp32.rnd md x.1).2 ||| x.2 ||| sigNan ops)

/-- The lesser of two FP32 values, -0 below +0 (R120). -/
def lessF32 (a b : Lane) : Bool :=
  match (fp32.value a.toNat).cmp (fp32.value b.toNat) with
  | .lt => true
  | .gt => false
  | .eq => a.getLsbD 31 && !b.getLsbD 31

/-- `vmin.f32` and `vmax.f32`: a NaN gives way to a number, two give the canonical NaN (R120). -/
def choose32 (first : Bool) (a b : Lane) : Lane × Flags :=
  let na := (fp32.value a.toNat).isNan
  let nb := (fp32.value b.toNat).isNan
  (if na && nb then 0x7FC00000 else if na then b else if nb then a else if first then a else b, sigNan [a, b])

/-- What each instruction with two sources does to a lane (R119, R120). -/
def laneOps : List ((VBin → Instr) × (VBin → Lane → Lane → Lane × Flags)) :=
  let num (int : Int → Int → Int) (real : Round → XReal → XReal → XReal × Flags) (x : VBin) (a b : Lane) :=
    if x.ty = .f32 then intoF32 x.round (real x.round (fp32.value a.toNat) (fp32.value b.toNat)) [a, b]
    else intoLane x.ty x.sat (int (laneVal x.ty a) (laneVal x.ty b))
  [(.vadd, num (· + ·) (fun md a b => sumX md [a, b])),
   (.vsub, num (· - ·) (fun md a b => sumX md [a, b.negate])),
   (.vmul, num (· * ·) (fun _ a b => a.mul b)),
   (.vmin, fun x a b => if x.ty = .f32 then choose32 (!lessF32 b a) a b
      else (if laneVal x.ty a ≤ laneVal x.ty b then a else b, 0)),
   (.vmax, fun x a b => if x.ty = .f32 then choose32 (!lessF32 a b) a b
      else (if laneVal x.ty a ≤ laneVal x.ty b then b else a, 0)),
   (.vand, fun _ a b => (a &&& b, 0)), (.vor, fun _ a b => (a ||| b, 0)), (.vxor, fun _ a b => (a ^^^ b, 0)),
   (.vshl, fun _ a b => (BitVec.ofNat 32 (a.toNat * 2 ^ (b.toNat % 32)), 0)),
   (.vshr, fun _ a b => (BitVec.ofNat 32 (a.toNat / 2 ^ (b.toNat % 32)), 0)),
   (.vsar, fun _ a b => (BitVec.ofInt 32 (a.toInt / (2 ^ (b.toNat % 32) : Nat)), 0))]

/-- What `vabs` and `vneg` do to a lane: on FP32 to the sign bit alone, but for a NaN (R120). -/
def laneSigns : List ((VUn → Instr) × (VUn → Lane → Lane × Flags)) :=
  let sign (int : Int → Int) (bit : Bool → Bool) (x : VUn) (a : Lane) : Lane × Flags :=
    if x.ty = .f32 then
      if (fp32.value a.toNat).isNan then (0x7FC00000, sigNan [a])
      else (BitVec.ofNat 32 (a.toNat % 2 ^ 31 + (if bit (a.getLsbD 31) then 2 ^ 31 else 0)), 0)
    else intoLane x.ty x.sat (int (laneVal x.ty a))
  [(.vabs, sign (fun a => if a < 0 then -a else a) (fun _ => false)), (.vneg, sign (fun a => -a) (fun b => !b))]

/-- The types of the lane-wise arithmetic. -/
def isLaneTy (ty : Ty) : Prop := ty = .i32 ∨ ty = .n32 ∨ ty = .f32

/-- The vector instruction completes on registers: the active lanes of d take `f`'s results, the others stay, `%fflags`
gains the flags of the active lanes, and nothing else changes. -/
def LaneWise (i : Instr) (s : State) (gd : Guard) (d : Fin 16) (f : Fin 16 → Lane × Flags) : Prop :=
  ∃ fl : Flags, RunsTo i s (fun u => GoesOn s.me u (after s 8) [] [] [d] fl ∧
    ∀ l : Fin 16, (u.rv d)[l] = if active s gd l then (f l).1 else (s.me.rv d)[l]) ∧
    ∀ j, fl.getLsbD j = (List.finRange 16).any (fun l => active s gd l && (f l).2.getLsbD j)

/-- No window of the core is absent, and the strand's store buffer is empty. -/
def calm (s : State) : Prop := s.me.buf = [] ∧ ∀ (i : Fin 8) w, s.myCore.wins[i] = some w → w.present = true

end Sys2Proof.Claims

/-- R49, R116, R119 to R121: the lane-wise arithmetic on registers that no stream binds. The B position is a vector or one
g register's low 32 bits for every lane. -/
def Sys2Proof.Claims.laneArithmeticRule : Prop :=
  (∀ o ∈ laneOps, ∀ (x : VBin) (s : State) (d a : Fin 16), isLaneTy x.ty → calm s → x.d = .v d → x.a = .v a →
    unbound s d → unbound s a →
    (∀ b, x.b = .vec (.v b) → unbound s b →
      LaneWise (o.1 x) s x.gd d (fun l => o.2 x (s.me.rv a)[l] (s.me.rv b)[l])) ∧
    (∀ b, x.b = .scal b → LaneWise (o.1 x) s x.gd d (fun l => o.2 x (s.me.rv a)[l] ((s.me.rg b).setWidth 32)))) ∧
  (∀ o ∈ laneSigns, ∀ (x : VUn) (s : State) (d a : Fin 16), isLaneTy x.ty → calm s → x.d = .v d → x.a = .v a →
    unbound s d → unbound s a → LaneWise (o.1 x) s x.gd d (fun l => o.2 x (s.me.rv a)[l])) ∧
  (∀ (x : VTri) (s : State) (d a b c : Fin 16) (bl : Fin 16 → Lane), calm s → x.d = .v d → x.a = .v a → x.c = .v c →
    unbound s d → unbound s a → unbound s c →
    ((x.b = .vec (.v b) ∧ unbound s b ∧ ∀ l, bl l = (s.me.rv b)[l]) ∨
      (∃ g, x.b = .scal g ∧ ∀ l, bl l = (s.me.rg g).setWidth 32)) →
    let v := fun (y : Lane) => fp32.value y.toNat
    let p := fun l => (v (s.me.rv a)[l]).mul (v (bl l))
    let all := fun (l : Fin 16) => [(s.me.rv a)[l], bl l, (s.me.rv c)[l]]
    LaneWise (.vfma x) s x.gd d (fun l =>
      let r := sumX x.round [(p l).1, v (s.me.rv c)[l]]
      intoF32 x.round (r.1, (p l).2 ||| r.2) (all l)) ∧
    LaneWise (.vfms x) s x.gd d (fun l =>
      let r := sumX x.round [(p l).1, (v (s.me.rv c)[l]).negate]
      intoF32 x.round (r.1, (p l).2 ||| r.2) (all l)))

/-- R122 to R127: the other lane-wise instructions on registers that no stream binds. `vsum` writes lane 0 alone, whatever
the guard says of it; `vcmp` writes the bits of the active lanes; `vmov` to a g register writes it if its lane is
active. -/
def Sys2Proof.Claims.laneMovesRule : Prop :=
  ∀ gd (d a b : Fin 16) (cq : Option CQual) (s : State), calm s → unbound s d → unbound s a → unbound s b →
    let ra := s.me.rv a
    let rb := s.me.rv b
    (∀ c : Fin 8, LaneWise (.vsel gd (.v d) (.v a) (.v b) c cq) s gd d
      (fun l => (if (s.me.rp c).getLsbD l.val then ra[l] else rb[l], 0))) ∧
    LaneWise (.vperm gd (.v d) (.v a) (.v b) cq) s gd d (fun l => (ra[rb[l].toNat % 16]'(Nat.mod_lt _ (by decide)), 0)) ∧
    (∀ g, LaneWise (.vbcast gd (.v d) (.scal g) cq) s gd d (fun _ => ((s.me.rg g).setWidth 32, 0))) ∧
    (∀ n, LaneWise (.vbcast gd (.v d) (.lane (.v a) n) cq) s gd d (fun _ => (ra[n], 0))) ∧
    LaneWise (.vmov gd (.vec (.v d) (.v a)) cq) s gd d (fun l => (ra[l], 0)) ∧
    (∀ g n, RunsTo (.vmov gd (.fromG (.v d) g n) cq) s (fun u => GoesOn s.me u (after s 8) [] [] [d] 0 ∧
      ∀ l : Fin 16, (u.rv d)[l] = if l = n ∧ active s gd n = true then (s.me.rg g).setWidth 32 else (s.me.rv d)[l])) ∧
    (∀ g n, RunsTo (.vmov gd (.toG g (.v a) n) cq) s (fun u => GoesOn s.me u (after s 8) [g] [] [] 0 ∧
      u.rg g = if active s gd n then heldG g (ra[n].setWidth 64) else s.me.rg g)) ∧
    (∀ p cond ty, ty = .i32 ∨ ty = .n32 →
      RunsTo (.vcmp gd p (.v a) (.vec (.v b)) cond ty cq) s (fun u => GoesOn s.me u (after s 8) [] [p] [] 0 ∧
        ∀ l : Fin 16, p ≠ 0 → ((u.rp p).getLsbD l.val = true ↔
          if active s gd l then holdsInt cond (laneVal ty ra[l]) (laneVal ty rb[l])
          else (s.me.rp p).getLsbD l.val = true))) ∧
    (∀ ty sat md, ty = .i32 ∨ ty = .n32 →
      let total : Int := ((List.finRange 16).map (fun l => if active s gd l then laneVal ty ra[l] else 0)).sum
      RunsTo (.vsum gd (.v d) (.v a) ty sat md cq) s (fun u =>
        GoesOn s.me u (after s 8) [] [] [d] (intoLane ty sat total).2 ∧
        ∀ l : Fin 16, (u.rv d)[l] = if l = 0 then (intoLane ty sat total).1 else (s.me.rv d)[l])) ∧
    (∀ sat md,
      let on := ((List.finRange 16).filter (active s gd)).map (fun l => ra[l])
      let r := intoF32 md (sumX md (on.map (fun x => fp32.value x.toNat))) on
      RunsTo (.vsum gd (.v d) (.v a) .f32 sat md cq) s (fun u => GoesOn s.me u (after s 8) [] [] [d] r.2 ∧
        ∀ l : Fin 16, (u.rv d)[l] = if l = 0 then r.1 else (s.me.rv d)[l]))

/-- R63, R81, R86, R126: `vdot` adds the products of the elements that each lane packs, to the old lane or, with `.z`, to 0,
and holds the exact sum to the 32-bit range of its sign. -/
def Sys2Proof.Claims.dotProductsRule : Prop :=
  ∀ gd (d a b : Fin 16) (ty : Ty) (z : Bool) (cq : Option CQual) (s : State), calm s → unbound s d → unbound s a →
    unbound s b → ty ∈ ([.i4, .i8, .n4, .n8, .i16, .n16] : List Ty) →
    let elem := fun (x : Lane) (j : Nat) => (if ty.signed then
        ((x.toNat / 2 ^ (ty.bits * j) % 2 ^ (ty.bits - 1) : Nat) : Int)
          - (if x.getLsbD (ty.bits * j + ty.bits - 1) then (2 ^ (ty.bits - 1) : Nat) else 0)
      else ((x.toNat / 2 ^ (ty.bits * j) % 2 ^ ty.bits : Nat) : Int))
    let acc : Ty := if ty.signed then .i32 else .n32
    LaneWise (.vdot gd (.v d) (.v a) (.vec (.v b)) ty z cq) s gd d (fun l =>
      intoLane acc true ((if z then 0 else laneVal acc (s.me.rv d)[l]) +
        ((List.range (32 / ty.bits)).map (fun j => elem (s.me.rv a)[l] j * elem (s.me.rv b)[l] j)).sum))

/-- R81, R84, R86, R127: `vcvt` rounds the value of its source to a floating type or an integer; between integer types it
holds the value to the new range. -/
def Sys2Proof.Claims.conversionsRule : Prop :=
  ∀ gd (d a : Fin 16) (src dst : Ty) (md : Round) (cq : Option CQual) (s : State), calm s → unbound s d → unbound s a →
    let mode := s.myCore.e4m3
    (∀ f g, floatOf mode src = some f → floatOf mode dst = some g →
      LaneWise (.vcvt gd (.v d) (.v a) src dst md cq) s gd d (fun l =>
        let x := f.value (s.me.rv a)[l].toNat
        (BitVec.ofNat 32 (g.rnd md x).1, (g.rnd md x).2 ||| (if x.isSig then fNV else 0)))) ∧
    (∀ f, floatOf mode src = some f → dst ∈ ([.i8, .i16, .i32, .n8, .n16, .n32] : List Ty) →
      LaneWise (.vcvt gd (.v d) (.v a) src dst md cq) s gd d (fun l =>
        let y := rndInt md dst (f.value (s.me.rv a)[l].toNat)
        (BitVec.ofInt 32 y.1, y.2))) ∧
    (∀ g, src ∈ ([.i8, .i16, .i32, .n8, .n16, .n32] : List Ty) → floatOf mode dst = some g →
      LaneWise (.vcvt gd (.v d) (.v a) src dst md cq) s gd d (fun l =>
        let y := g.rnd md (.ofInt (intAs src ((s.me.rv a)[l].setWidth 64)))
        (BitVec.ofNat 32 y.1, y.2))) ∧
    (src ∈ ([.i8, .i16, .i32, .n8, .n16, .n32] : List Ty) → dst ∈ ([.i8, .i16, .i32, .n8, .n16, .n32] : List Ty) →
      LaneWise (.vcvt gd (.v d) (.v a) src dst md cq) s gd d (fun l =>
        intoLane dst true (intAs src ((s.me.rv a)[l].setWidth 64))))

/-- R64, R84: a nonzero value that does not overflow is rounded between two neighbouring codes: toward zero the code
below its magnitude, and in every mode that code or the next; `nx` tells exactly whether the code's value is another.
-/
def Obligations.RoundingBrackets : Prop :=
  ∀ (iee : Bool) (ty : Ty) (f : Flt) (md : Round) (neg : Bool) (m : Nat) (e : Int) (den : Nat),
    floatOf iee ty = some f → 0 < m → 0 < den →
    let mag := fun (c : Nat) => (match f.value c with | .num _ n x _ => (n : ℚ) * 2 ^ x | _ => 0)
    let v : ℚ := m * 2 ^ e / den
    v ≤ mag f.top →
    let r := f.rnd md (.num neg m e den)
    let c := r.1 % 2 ^ (f.eb + f.mb)
    r.1 / 2 ^ (f.eb + f.mb) = (if neg then 1 else 0) ∧ c ≤ f.top ∧
    (md = .rtz → mag c ≤ v ∧ (c < f.top → v < mag (c + 1))) ∧
    (c < f.top → v < mag (c + 1)) ∧ (0 < c → mag (c - 1) < v) ∧
    (md = .rne → (c < f.top → v - mag c ≤ mag (c + 1) - v ∧ (v - mag c = mag (c + 1) - v → c % 2 = 0)) ∧
      (0 < c → mag c - v ≤ v - mag (c - 1) ∧ (mag c - v = v - mag (c - 1) → c % 2 = 0))) ∧
    (r.2.getLsbD 0 = true ↔ mag c ≠ v)

namespace Sys2Proof.Claims

/-- The special functions, in the order of their majors. -/
def specials : List (Spec → Instr) :=
  [.fexp, .flog, .frcp, .frsq, .fsqrt, .fsin, .fcos, .ftanh, .fsig, .fgelu, .fsilu, .ferf]

/-- The real number of a finite FP32 code. -/
noncomputable def realOf (x : Lane) : ℝ :=
  match fp32.value x.toNat with
  | .num neg m e den => (if neg then -1 else 1) * m * 2 ^ e / den
  | _ => 0

/-- The algebraic functions of a real number, by their place among the special functions. -/
noncomputable def algebraic (f : Nat) (x : ℝ) : ℝ :=
  if f = 2 then 1 / x else if f = 3 then 1 / Real.sqrt x else Real.sqrt x

/-- R133: the rows of the table. `f`: the place of the function; in the fast grade a subnormal operand is a zero. -/
def specialTable (acc : Bool) (f : Nat → Lane → Lane × Flags) : Prop :=
  (∀ n a, n < 12 → (fp32.value a.toNat).isNan = true → f n a = (0x7FC00000, sigNan [a])) ∧
  f 0 0xFF800000 = (0, 0) ∧ f 0 0x7F800000 = (0x7F800000, 0) ∧ f 0 0 = (0x3F800000, 0) ∧ f 0 0x80000000 = (0x3F800000, 0) ∧
  (∀ a : Lane, 0x42B17218 ≤ a.toNat → a.toNat < 0x7F800000 → f 0 a = (0x7F800000, fOF)) ∧
  (∀ a : Lane, acc = true → 0xC2AEAC50 ≤ a.toNat → a.toNat < 0xFF800000 → (f 0 a).2 = fUF) ∧
  (∀ a : Lane, (if acc then 0x80000001 else 0x80800000) ≤ a.toNat → a.toNat ≤ 0xFF800000 →
    ∀ n ∈ [1, 3, 4], f n a = (0x7FC00000, fNV)) ∧
  f 1 0 = (0xFF800000, fDZ) ∧ f 1 0x80000000 = (0xFF800000, fDZ) ∧ f 1 0x7F800000 = (0x7F800000, 0) ∧
  f 1 0x3F800000 = (0, 0) ∧
  (∀ n ∈ [2, 3], f n 0 = (0x7F800000, fDZ) ∧ f n 0x80000000 = (0xFF800000, fDZ) ∧ f n 0x7F800000 = (0, 0)) ∧
  f 2 0xFF800000 = (0x80000000, 0) ∧
  f 4 0x80000000 = (0x80000000, 0) ∧ f 4 0x7F800000 = (0x7F800000, 0) ∧
  (∀ n ∈ [5, 6], f n 0x7F800000 = (0x7FC00000, fNV) ∧ f n 0xFF800000 = (0x7FC00000, fNV)) ∧
  f 6 0 = (0x3F800000, 0) ∧ f 6 0x80000000 = (0x3F800000, 0) ∧
  (∀ n ∈ [5, 7, 9, 10, 11], f n 0 = (0, 0) ∧ f n 0x80000000 = (0x80000000, 0)) ∧
  (∀ n ∈ [7, 11], f n 0x7F800000 = (0x3F800000, 0) ∧ f n 0xFF800000 = (0xBF800000, 0)) ∧
  f 8 0xFF800000 = (0, 0) ∧ f 8 0x7F800000 = (0x3F800000, 0) ∧ f 8 0 = (0x3F000000, 0) ∧ f 8 0x80000000 = (0x3F000000, 0) ∧
  (∀ n ∈ [9, 10], f n 0xFF800000 = (0x80000000, 0) ∧ f n 0x7F800000 = (0x7F800000, 0))

/-- R132: the limits of both grades. The result lies in the function's range and `nx` is never set; the fast grade reads
and writes no subnormal and sets no `uf`. `frcp`, `frsq` and `fsqrt` of a finite operand of their domain lie within the
grade's bound of the real value, where that has a finite result; a fast result below the normal range is a zero. -/
def specialLimits (acc : Bool) (f : Nat → Lane → Lane × Flags) : Prop :=
  (∀ n a, n < 12 → (f n a).2 &&& fNX = 0 ∧ (acc = false → (f n a).2 &&& fUF = 0)) ∧
  (∀ n a, n < 12 → acc = false →
    (a.toNat % 2 ^ 31 < 0x00800000 → f n a = f n (a &&& 0x80000000)) ∧
    ((f n a).1.toNat % 2 ^ 31 = 0 ∨ 0x00800000 ≤ (f n a).1.toNat % 2 ^ 31)) ∧
  (∀ a : Lane, a.toNat % 2 ^ 31 < 0x7F800000 →
    (∀ n ∈ [5, 6, 7, 8, 11], (f n a).1.toNat % 2 ^ 31 ≤ 0x3F800000) ∧
    ((f 8 a).1.toNat ≤ 0x3F800000 ∨ (f 8 a).1 = 0x80000000)) ∧
  (∀ n ∈ [2, 3, 4], ∀ a : Lane, a.toNat % 2 ^ 31 < 0x7F800000 → (n ≠ 2 → a.toNat < 2 ^ 31) →
    (if acc then (if n = 2 then 0x00200000 else 0) else 0x007FFFFF) < a.toNat % 2 ^ 31 →
    let y := realOf (f n a).1
    let x := algebraic n (realOf a)
    (f n a).2 = 0 ∧ (y = 0 → acc = false ∧ |x| < 2 ^ (-125 : Int)) ∧
    (y ≠ 0 → |y - x| ≤ if acc then 2 ^ max (Int.log 2 |x| - 23) (-149) else 2 ^ (-12 : Int) * |x|))

end Sys2Proof.Claims

/-- R131, R133: each special function acts lane by lane, and gives for the special operands what its table says, with
the flag. R132: what an ordinary operand gives keeps the limits above; within them it is free. Where the manual leaves
the point open, the clause states the model's choice (log 10). -/
def Obligations.SpecialFunctions : Prop :=
  (∀ (x : Spec) (s : State) (d a : Fin 16), calm s → x.d = .v d → x.a = .v a → unbound s d → unbound s a →
    ∀ o ∈ specials.zipIdx, LaneWise (o.1 x) s x.gd d (fun l => specialOp o.2 x.acc (s.me.rv a)[l])) ∧
  (∀ acc, specialTable acc (fun n a => specialOp n acc a) ∧ specialLimits acc (fun n a => specialOp n acc a))

/-- `vdot` holds the exact sum to its range; `vcvt` rounds or holds to the new format: the two statements above. -/
def Obligations.DotProductsAndConversions : Prop := dotProductsRule ∧ conversionsRule

/-- The lane-wise arithmetic and moves, lane by lane, with their flags and frame: the two statements above. -/
def Obligations.LaneResults : Prop := laneArithmeticRule ∧ laneMovesRule

/-! ### Streams and cisterns as vector operands -/

namespace Sys2Proof.Claims

/-- A byte of the core's local store, wrapped in the allocation's span; beyond the allocation it reads 0 (R148). -/
def lsByte (k : Core) (off : Nat) : Byte :=
  let o := off % 2 ^ 20 % 2 ^ (k.lspan.toNat + 12)
  if o < 4096 * k.size.toNat then memGet k.ls o else 0

/-- The address of byte `i` of the slots that a qualifier of `w` slots covers, from pointer `p` (R118, R155). -/
def slotPlace (x : Cistern) (p w i : Nat) : Option Nat :=
  if i / x.slot < w then some (x.base.toNat + (p + i / x.slot) % x.n * x.slot + i % x.slot) else none

/-- The slots of a qualifier: its count, 1 without one (R47). -/
def waitOf : Option CQual → Nat
  | some q => q.wait.val + 1
  | none => 1

/-- Element `j` of a stream, counted in elements from its base (R134). -/
def elemOf (p : Port) (j : Nat) : Int := (j / p.n0 : Nat) * p.s1.toInt + (j % p.n0 : Nat) * p.s0.toInt

/-- Address of the first byte of element `j`, and its bit in it (R81, R134). -/
def elemByte (p : Port) (j : Nat) : Nat := ((p.base.toNat + elemOf p j * p.ty.bits / 8) % 2 ^ 20).toNat
def elemBit (p : Port) (j : Nat) : Nat := (elemOf p j * p.ty.bits % 8).toNat

/-- The bits of an element in a lane: an integer extended, another type in the low bits (R116). -/
def inLane (ty : Ty) (x : Nat) : Lane :=
  if ty.signed then
    BitVec.ofInt 32 (if x % 2 ^ ty.bits < 2 ^ (ty.bits - 1) then (x % 2 ^ ty.bits : Nat)
      else ((x % 2 ^ ty.bits : Nat) : Int) - (2 ^ ty.bits : Nat))
  else BitVec.ofNat 32 (x % 2 ^ ty.bits)

/-- Lane `l` of a source operand: a register, the next elements of the stream that binds it, those read ahead first, or
the bytes of a cistern's slots (R118, R135, R138, R155). -/
def operandLane (s : State) (cq : Option CQual) (o : VOp) (l : Fin 16) : Lane :=
  let k := s.core s.cur.1
  match o with
  | .v n => match k.portOf s.cur.2 n with
    | none => (s.me.rv n)[l]
    | some (_, p) =>
      if l.val < p.ahead.length then BitVec.ofNat 32 (p.ahead.getD l.val 0)
      else if p.pos + l.val < p.n0 * p.n1 then
        let j := p.pos + l.val
        inLane p.ty (leNat ((List.range (max (p.ty.bits / 8) 1)).map (fun i => lsByte k (elemByte p j + i))) / 2 ^ elemBit p j)
      else 0
  | .c c =>
    let x := k.cist[c]
    BitVec.ofNat 32 (leNat ((List.range 4).map (fun i =>
      match slotPlace x x.cp (waitOf cq) (4 * l.val + i) with
      | some a => lsByte k a
      | none => 0)))

/-- The operand can be read: a stream is a read stream, a cistern is defined and has its slots filled. -/
def canRead (s : State) (cq : Option CQual) : VOp → Prop
  | .v n => ∀ q p, s.myCore.portOf s.cur.2 n = some (q, p) → p.wr = false
  | .c c => s.myCore.cist[c].defined = true ∧ waitOf cq ≤ s.myCore.cist[c].filled

/-- What the core holds of an operand that has been read: a stream has moved on, a cistern whose slots are taken too. -/
def movedOn (s t : State) (cq : Option CQual) (adv : Bool) : VOp → Prop
  | .v n => ∀ q p, s.myCore.portOf s.cur.2 n = some (q, p) →
      ∃ y, (t.core s.cur.1).ports[q] = some y ∧ y = { p with pos := min (p.pos + 16) (p.n0 * p.n1), ahead := y.ahead }
  | .c c =>
    let x := s.myCore.cist[c]
    let y := (t.core s.cur.1).cist[c]
    if adv then y.filled = x.filled - waitOf cq ∧ y.cp = (x.cp + waitOf cq) % x.n ∧ y.free = x.free ∧ y.pp = x.pp
    else y = x

end Sys2Proof.Claims

/-- R47, R118, R135, R155: a lane-wise instruction takes its sources from registers, streams and cisterns alike; a
stream moves on by 16 elements, and a cistern's slots are taken with the qualifier's advance mark. -/
def Obligations.SourceForms : Prop :=
  ∀ o ∈ laneOps, ∀ (x : VBin) (s : State) (d : Fin 16) (b : VOp), isLaneTy x.ty → calm s → s.myCore.bad = [] → unpaired s s.cur.1 →
    x.d = .v d → unbound s d → x.b = .vec b → canRead s x.cq x.a → canRead s x.cq b →
    ∃ t, exec (o.1 x) s = .next t ∧ t.retired = true ∧ t.me.pc = after s 8 ∧ Inside s t ∧
      (∀ l : Fin 16, (t.me.rv d)[l] =
        if active s x.gd l then (o.2 x (operandLane s x.cq x.a l) (operandLane s x.cq b l)).1 else (s.me.rv d)[l]) ∧
      (∀ n, t.me.rg n = s.me.rg n) ∧ (∀ n, t.me.rp n = s.me.rp n) ∧
      (∀ n, n ≠ d → unbound s n → t.me.rv n = s.me.rv n) ∧ t.me.buf = [] ∧ (t.core s.cur.1).ls = (s.core s.cur.1).ls ∧
      movedOn s t x.cq (x.cq.any CQual.adv) x.a ∧ movedOn s t x.cq (x.cq.any CQual.adv) b

/-- R49, R118, R155: a lane-wise instruction whose destination is a cistern writes the bytes of the active lanes into the
slots at the producer's pointer, and no other byte of local store; the slots are taken with the advance mark. -/
def Sys2Proof.Claims.cisternDestinationsRule : Prop :=
  ∀ o ∈ laneOps, ∀ (x : VBin) (s : State) (c a b : Fin 16), isLaneTy x.ty → calm s → x.d = .c c → x.a = .v a →
    x.b = .vec (.v b) → unbound s a → unbound s b →
    let k := s.core s.cur.1
    let z := k.cist[c]
    z.defined = true → waitOf x.cq ≤ z.free → z.free ≤ z.n → 0 < z.slot →
    z.base.toNat + z.n * z.slot ≤ 4096 * k.size.toNat → 4096 * k.size.toNat ≤ 2 ^ (k.lspan.toNat + 12) →
    ∃ t, exec (o.1 x) s = .next t ∧ t.retired = true ∧ t.me.pc = after s 8 ∧ Inside s t ∧
      (∀ n, t.me.rg n = s.me.rg n) ∧ (∀ n, t.me.rp n = s.me.rp n) ∧ (∀ n, t.me.rv n = s.me.rv n) ∧
      (∀ (l : Fin 16) (i y : Nat), i < 4 → slotPlace z z.pp (waitOf x.cq) (4 * l.val + i) = some y →
        memGet (t.core s.cur.1).ls y = if active s x.gd l
          then BitVec.ofNat 8 ((o.2 x (s.me.rv a)[l] (s.me.rv b)[l]).1.toNat / 2 ^ (8 * i)) else memGet k.ls y) ∧
      (∀ y, (∀ i, i < 64 → slotPlace z z.pp (waitOf x.cq) i ≠ some y) → memGet (t.core s.cur.1).ls y = memGet k.ls y) ∧
      (let w := (t.core s.cur.1).cist[c]
       if x.cq.any CQual.adv then w.free = z.free - waitOf x.cq ∧ w.pp = (z.pp + waitOf x.cq) % z.n ∧ w.filled = z.filled
       else w = z)

/-- R135, R136, R138: a lane-wise instruction whose destination a write stream binds puts the active lanes' elements that
the stream still holds into one entry of the strand's store buffer, and moves on by 16 elements; a register that a read
stream binds is no destination, one that a write stream binds no source, and after the last element there is no write: each
is a stream-misuse that names the port. -/
def Sys2Proof.Claims.streamDestinationsRule : Prop :=
  (∀ o ∈ laneOps, ∀ (x : VBin) (s : State) (a b : Fin 16) (q : Fin 4) (p : Port), isLaneTy x.ty → x.a = .v a →
    x.b = .vec (.v b) → p.wr = true → s.myCore.portOf s.cur.2 a = some (q, p) ∨
      ((∀ r y, s.myCore.portOf s.cur.2 a = some (r, y) → y.wr = false) ∧ s.myCore.portOf s.cur.2 b = some (q, p)) →
    Traps (o.1 x) s ⟨0x1B, 0, 0, BitVec.ofNat 64 q.val⟩) ∧
  ∀ o ∈ laneOps, ∀ (x : VBin) (s : State) (d a b : Fin 16) (q : Fin 4) (p : Port), isLaneTy x.ty → calm s →
    x.d = .v d → x.a = .v a → x.b = .vec (.v b) → s.myCore.portOf s.cur.2 d = some (q, p) →
    (p.wr = true → p.ty.bits ≤ 32 → p.pos < p.n0 * p.n1 → unbound s a → unbound s b →
      let k := s.core s.cur.1
      let there := fun (l : Fin 16) => active s x.gd l && decide (p.pos + l.val < p.n0 * p.n1)
      let places := fun (l : Fin 16) =>
        (List.range (max (p.ty.bits / 8) 1)).map (fun i => k.lsLoc (elemByte p (p.pos + l.val) + i))
      ∃ t, exec (o.1 x) s = .next t ∧ t.retired = true ∧ t.me.pc = after s 8 ∧ Inside s t ∧
        (t.core s.cur.1).ls = k.ls ∧
        (t.core s.cur.1).ports[q] = some { p with pos := min (p.pos + 16) (p.n0 * p.n1) } ∧
        ((∀ l, there l = false) → t.me.buf = []) ∧
        ((∃ l, there l = true) → ∃ e, t.me.buf = [e] ∧ e.op = .store ∧ e.rel = false ∧
          (∀ y ∈ e.locs, ∃ l, there l = true ∧ y ∈ places l) ∧
          ∀ l, there l = true → (∀ m, m ≠ l → there m = true → ∀ y ∈ places m, y ∉ places l) → ∀ old : Loc → Byte,
            leNat ((places l).map (fun y => e.over y (old y))) / 2 ^ elemBit p (p.pos + l.val) % 2 ^ p.ty.bits =
              (o.2 x (s.me.rv a)[l] (s.me.rv b)[l]).1.toNat % 2 ^ p.ty.bits)) ∧
    (p.wr = false ∨ p.pos = p.n0 * p.n1 → (∀ r y, s.myCore.portOf s.cur.2 a = some (r, y) → y.wr = false) →
      (∀ r y, s.myCore.portOf s.cur.2 b = some (r, y) → y.wr = false) →
      Traps (o.1 x) s ⟨0x1B, 0, 0, BitVec.ofNat 64 q.val⟩)

/-- Results into a cistern's slots or a write stream's elements, none after its last, and nowhere else; a written
stream is no source: the two statements above. -/
def Obligations.VectorDestinations : Prop := cisternDestinationsRule ∧ streamDestinationsRule

/-! ### Vector loads and stores -/

namespace Sys2Proof.Claims

/-- Bytes of an element's access (R129). -/
def elSize (ty : Ty) : Nat := max (ty.bits / 8) 1

/-- The active lanes in their order. -/
def lanesOn (s : State) (gd : Guard) : List (Fin 16) := (List.finRange 16).filter (active s gd)

/-- Where the elements of the active lanes lie: in local store, wrapped; or in memory, each in the page of a leaf that
lets the strand make the access. `ea`: the address of each lane; `at'`: its bytes. -/
def lanePlaces (s : State) (sp : Bool) (write : Bool) (ty : Ty) (on : List (Fin 16)) (ea : Fin 16 → Word)
    (at' : Fin 16 → List Loc) : Prop :=
  if sp then ∀ l, at' l = (List.range (elSize ty)).map (fun j => s.myCore.lsLoc ((ea l).toNat + j))
  else ∃ lf : Fin 16 → Leaf, ∀ l ∈ on, Grants s (lf l) (ea l) write ∧ (ea l).toNat % elSize ty = 0 ∧
    (write = false → Sound s ((lf l).phys (ea l).toNat)) ∧
    at' l = (List.range (elSize ty)).map (fun j => ⟨.mem .hub, (lf l).phys (ea l).toNat + j⟩)

/-- Each active lane is one load of the strand, in lane order (R130), made byte by byte where its offset in local store is
no multiple of its size (R108); `us`: what the instruction has moved (R25). No register and no byte changes yet. -/
def LaneLoads (i : Instr) (s : State) (on : List (Fin 16)) (ea : Fin 16 → Word) (at' : Fin 16 → List Loc)
    (dst : Fin 16 → LoadDst) (o : Order) (sc : Scope) (us : List Undo) (len : Nat) : Prop :=
  ∃ t, exec i s = .next t ∧ t.retired = true ∧ Inside s t ∧ SameRegs s.me t.me ∧ t.me.pc = after s len ∧ t.me.buf = [] ∧
    (t.core s.cur.1).ls = (s.core s.cur.1).ls ∧
    t.me.loads = s.me.loads ++ on.zipIdx.map (fun x =>
      { id := s.nextId + x.2, locs := at' x.1, dst := dst x.1, acq := acquires o sc, scope := sc, va := ea x.1
        lane := x.1.val, pc := s.me.pc, next := after s len, iw := s.me.iw
        split := decide ((ea x.1).toNat % (at' x.1).length ≠ 0), undo := us, slot := (s.core s.cur.1).slot }) ∧
    t.me.pend = s.me.pend ++ on.zipIdx.flatMap (fun x => (dst x.1).regs.map (fun r => (s.nextId + x.2, r))) ∧
    t.me.gates = s.me.gates ++ (if acquires o sc then on.zipIdx.map (fun x => s.nextId + x.2) else [])

/-- The slots of a destination cistern that the instruction has taken, under the advance after its loads (R25, R155). -/
def takenBack (s : State) (c : Fin 16) (cq : Option CQual) (on : List (Fin 16)) : List Undo :=
  if cq.any CQual.adv then [.cis c true (waitOf cq) (s.nextId + on.length)] else []

/-- Bit of the first bit of lane `l`'s element (R129). -/
def laneBit (ty : Ty) (l : Fin 16) : Nat := l.val * ty.bits % 8

end Sys2Proof.Claims

/-- R128 to R130: a vector load makes one load of each active lane's element, in lane order, for a register or the slots of
a cistern. -/
def Sys2Proof.Claims.vectorLoadsRule : Prop :=
  (∀ (x : VMem) (s : State) (at' : Fin 16 → List Loc), calm s → plainLoad x.order → x.ty.bits ≤ 32 →
    let ea := fun l : Fin 16 => s.me.rg x.a + x.disp.val + BitVec.ofNat 64 (l.val * x.ty.bits / 8)
    let on := lanesOn s x.gd
    lanePlaces s x.sp false x.ty on ea at' →
    (∀ d, x.d = .v d → unbound s d →
      LaneLoads (.vld x) s on ea at' (fun l => .lane d l x.ty (laneBit x.ty l)) x.order x.scope []
        x.disp.len) ∧
    (∀ c, x.d = .c c → s.myCore.cist[c].defined = true → waitOf x.cq ≤ s.myCore.cist[c].free →
      LaneLoads (.vld x) s on ea at' (fun l => .cis ((List.range 4).filterMap (fun j =>
        slotPlace s.myCore.cist[c] s.myCore.cist[c].pp (waitOf x.cq) (4 * l.val + j))) x.ty (laneBit x.ty l))
        x.order x.scope (takenBack s c x.cq on) x.disp.len)) ∧
  (∀ (x : VIdx) (s : State) (at' : Fin 16 → List Loc) (b : Fin 16), calm s → plainLoad x.order → 8 ≤ x.ty.bits →
    x.ty.bits ≤ 32 → x.b = .v b → unbound s b →
    let ea := fun l : Fin 16 => s.me.rg x.a + ((s.me.rv b)[l].setWidth 64 <<< x.sc.val) + x.disp.val
    let on := lanesOn s x.gd
    lanePlaces s x.sp false x.ty on ea at' →
    (∀ d, x.d = .v d → unbound s d →
      LaneLoads (.vgath x) s on ea at' (fun l => .lane d l x.ty 0) x.order x.scope [] x.disp.len) ∧
    (∀ c, x.d = .c c → s.myCore.cist[c].defined = true → waitOf x.cq ≤ s.myCore.cist[c].free →
      LaneLoads (.vgath x) s on ea at' (fun l => .cis ((List.range 4).filterMap (fun j =>
        slotPlace s.myCore.cist[c] s.myCore.cist[c].pp (waitOf x.cq) (4 * l.val + j))) x.ty 0)
        x.order x.scope (takenBack s c x.cq on) x.disp.len))

/-- R128 to R130: `vst` puts the elements of the active lanes into one entry of the strand's store buffer, `vscat` one
entry per active lane, in lane order. No byte changes yet. -/
def Sys2Proof.Claims.vectorStoresRule : Prop :=
  (∀ (x : VMem) (s : State) (at' : Fin 16 → List Loc) (d : Fin 16), calm s → x.order ≠ .sc → x.ty.bits ≤ 32 →
    s.me.dropped = none → x.d = .v d → unbound s d →
    let ea := fun l : Fin 16 => s.me.rg x.a + x.disp.val + BitVec.ofNat 64 (l.val * x.ty.bits / 8)
    let on := lanesOn s x.gd
    lanePlaces s x.sp true x.ty on ea at' →
    ∃ t, exec (.vst x) s = .next t ∧ t.retired = true ∧ Inside s t ∧ SameRegs s.me t.me ∧
      t.me.pc = after s x.disp.len ∧ t.me.loads = s.me.loads ∧ (t.core s.cur.1).ls = (s.core s.cur.1).ls ∧
      (on = [] → t.me.buf = []) ∧
      (on ≠ [] → ∃ e, t.me.buf = [e] ∧ e.op = .store ∧ e.rel = releases x.order x.scope ∧ e.scope = x.scope ∧
        (∀ y ∈ e.locs, ∃ l ∈ on, y ∈ at' l) ∧
        (8 ≤ x.ty.bits → (on.flatMap at').Nodup → e.mask = [] ∧
          e.bytes = on.flatMap (fun l => (at' l).zip (leBytes (x.ty.bits / 8) (s.me.rv d)[l].toNat))) ∧
        (x.ty.bits < 8 → (∀ l ∈ on, ∀ m ∈ on, l.val / 2 ≠ m.val / 2 → at' l ≠ at' m) →
          ∀ l ∈ on, ∀ old : Loc → Byte,
            leNat ((at' l).map (fun y => e.over y (old y))) / 2 ^ laneBit x.ty l % 2 ^ x.ty.bits =
              (s.me.rv d)[l].toNat % 2 ^ x.ty.bits))) ∧
  (∀ (x : VIdx) (s : State) (at' : Fin 16 → List Loc) (d b : Fin 16), calm s → x.order ≠ .sc → 8 ≤ x.ty.bits →
    x.ty.bits ≤ 32 → s.me.dropped = none → x.d = .v d → x.b = .v b → unbound s d → unbound s b →
    let ea := fun l : Fin 16 => s.me.rg x.a + ((s.me.rv b)[l].setWidth 64 <<< x.sc.val) + x.disp.val
    let on := lanesOn s x.gd
    lanePlaces s x.sp true x.ty on ea at' →
    ∃ t, exec (.vscat x) s = .next t ∧ t.retired = true ∧ Inside s t ∧ SameRegs s.me t.me ∧
      t.me.pc = after s x.disp.len ∧ t.me.loads = s.me.loads ∧ (t.core s.cur.1).ls = (s.core s.cur.1).ls ∧
      t.me.buf = on.zipIdx.map (fun y =>
        { id := s.nextId + y.2, op := .store
          bytes := (at' y.1).zip (leBytes (x.ty.bits / 8) (s.me.rv d)[y.1].toNat)
          rel := releases x.order x.scope, scope := x.scope, va := ea y.1, pc := s.me.pc, iw := s.me.iw
          vas := [ea y.1] }))

/-- Vector loads, stores, gathers and scatters at issue, lane by lane: the two statements above. Where the manual
leaves the point open, the clause states the model's choice (log 22). -/
def Obligations.VectorAccesses : Prop := vectorLoadsRule ∧ vectorStoresRule

/-! ### The Stalagmite engine -/

namespace Sys2Proof.Claims

/-- Byte `i` of an operand of the engine: in local store from a g register's address on, or in the slots of a cistern, 0
beyond the slots waited for (R174). -/
def engineByte (s : State) (cq : Option CQual) (o : EOp) (i : Nat) : Byte :=
  let k := s.core s.cur.1
  match o with
  | .ls r => lsByte k ((s.me.rg r).toNat % 2 ^ 20 + i)
  | .c c =>
    let x := k.cist[c]
    match slotPlace x x.cp (waitOf cq) i with
    | some a => lsByte k a
    | none => 0

def engineBytes (s : State) (cq : Option CQual) (o : EOp) (i n : Nat) : List Byte :=
  (List.range n).map (fun j => engineByte s cq o (i + j))

/-- The offset at which an operand begins; of a cistern, that of the slot at its pointer (R174). -/
def engineBase (s : State) (prod : Bool) : EOp → Nat
  | .ls r => (s.me.rg r).toNat % 2 ^ 20
  | .c c =>
    let x := (s.core s.cur.1).cist[c]
    x.base.toNat + (if prod then x.pp else x.cp) % x.n * x.slot

/-- An operand is ready: a cistern is defined and has its slots, filled for a source and free for a destination. -/
def engineReady (s : State) (cq : Option CQual) (prod : Bool) : EOp → Prop
  | .ls _ => True
  | .c c =>
    let x := (s.core s.cur.1).cist[c]
    x.defined = true ∧ waitOf cq ≤ (if prod then x.free else x.filled)

/-- Where byte `i` of a record that the engine writes goes: from a g register's address on, or in the slots at the
producer's pointer, none beyond those waited for (R174). -/
def outPlace (s : State) (cq : Option CQual) (o : EOp) (i : Nat) : Option Loc :=
  let k := s.core s.cur.1
  match o with
  | .ls r => some (k.lsLoc ((s.me.rg r).toNat % 2 ^ 20 + i))
  | .c c => (slotPlace k.cist[c] k.cist[c].pp (waitOf cq) i).map k.lsLoc

/-- EQ0 takes an operation: there is room, none there writes local store, it is not in the error state, the strand has no
store on the way (R173), no injected error waits for a use (R239), and the core leads no pair. -/
def engineFree (s : State) : Prop :=
  let k := s.core s.cur.1
  calm s ∧ unpaired s s.cur.1 ∧ k.bad = [] ∧ (s.cluster (s.cur.1 / 36)).inject.getLsbD 63 = false ∧ k.eq0.length < 32 ∧
      k.eq0.all (fun o => !o.kind.writesLs) = true ∧ k.err[(0 : Fin 4)] = none

/-- The instruction completes with its operation at the tail of EQ0; no vein, no byte and no register changes yet. -/
def Queued (i : Instr) (s : State) (kind : Eq0Kind) (names : List (Fin 16)) (dst : Option (Fin 16)) (rest : Core → Prop) :
    Prop :=
  ∃ t, exec i s = .next t ∧ t.retired = true ∧ SameRegs s.me t.me ∧ t.me.pc = after s 8 ∧ Inside s t ∧
    (let k := s.core s.cur.1
     let k' := t.core s.cur.1
     k'.eq0 = k.eq0 ++ [⟨s.nextId, s.cur.2, kind, names, dst, false, none⟩] ∧ k'.veins = k.veins ∧ k'.ls = k.ls ∧ k'.err = k.err ∧
     k'.armed = k.armed ∧ rest k')

/-- The cisterns an operand names. -/
def namesOf : EOp → List (Fin 16)
  | .ls _ => []
  | .c c => [c]

/-- Level of a code (R73): of L2 to L4 and L8 the base and the deltas up to it, of T3 0, m and -m. -/
def rung (f : Fmt) (bs : List Byte) (c : Nat) : Int :=
  let at' := fun (j : Nat) => bs.getD j 0
  match f with
  | .t3 => if c = 1 then ((at' 33).toNat : Int) else if c = 3 then -((at' 33).toNat : Int) else 0
  | .l8 => (at' 113).toInt + 2 ^ ((at' 241).toNat % 8) * ((List.range c).map (fun j => ((at' (114 + j)).toNat : Int))).sum
  | f => (at' (f.codeBytes + 1)).toInt +
      ((List.range c).map (fun j => (((at' (f.codeBytes + 2 + j / 2)).toNat / 16 ^ (j % 2) % 16 : Nat) : Int))).sum

/-- The code of lane `i` of a record (R71, R81). -/
def codeAt (f : Fmt) (bs : List Byte) (i : Nat) : Nat :=
  leNat (bs.take f.codeBytes) / 2 ^ (f.codeBits * i) % 2 ^ f.codeBits

/-- The scale byte of a record (R72). -/
def scaleByte (f : Fmt) (bs : List Byte) : Nat := (bs.getD f.codeBytes 0).toNat

end Sys2Proof.Claims

/-- R73, R75, R76, R169: what a well-formed record adds is the exact sum of each activation times the level of its
weight's code, scaled by the record and the group: summation by parts changes the order of the additions and nothing
else. A group with a NaN scale, a NaN or an infinity adds a NaN. -/
def Obligations.SummationByParts : Prop :=
  ∀ (f : Fmt) (mode : Bool) (act rcd : List Byte), rcd.length = f.bytes → (ladderOf f rcd).malformed = false →
    let total := fun (α : Nat → Int) => ((List.range 128).map (fun i => α i * rung f rcd (codeAt f rcd i))).sum
    let e : Int := (scaleByte f rcd : Int) - 127
    (act.length = 129 → (act.getD 128 0).toNat ≠ 255 →
      contribution f .i8 mode act rcd =
        (XReal.ofInt (total (fun i => (act.getD i 0).toInt))).shift (e + ((act.getD 128 0).toNat - 127))) ∧
    (act.length = 129 → (act.getD 128 0).toNat = 255 → contribution f .i8 mode act rcd = .nan false) ∧
    (∀ fl, floatOf mode .e4m3 = some fl → act.length = 128 →
      let v := fun (i : Nat) => fl.value (act.getD i 0).toNat
      ((∀ i, i < 128 → (v i).isNan = false ∧ (v i).isInf = false) →
        contribution f .e4m3 mode act rcd = (XReal.ofInt (total (fun i => ((v i).shift 9).floor.1))).shift (e - 9)) ∧
      ((∃ i, i < 128 ∧ ((v i).isNan = true ∨ (v i).isInf = true)) → contribution f .e4m3 mode act rcd = .nan false))

namespace Sys2Proof.Claims

/-- The codes of a record, read through a table, run in non-decreasing order (R181). -/
def runsUp (f : Fmt) (rcd : List Byte) (pi : List (BitVec 7)) : Prop :=
  (pi.map (fun j => codeAt f rcd j.toNat)).Pairwise (· ≤ ·)

/-- The table holds the 128 lanes ordered by code, lanes of one code in increasing order (R179). -/
def inCodeOrder (f : Fmt) (rcd : List Byte) (pi : List (BitVec 7)) : Prop :=
  pi.length = 128 ∧ pi.Pairwise (fun i j => codeAt f rcd i.toNat < codeAt f rcd j.toNat ∨
    (codeAt f rcd i.toNat = codeAt f rcd j.toNat ∧ i.toNat < j.toNat))

/-- The number 0. -/
def zeroX : XReal := .num false 0 0 1

/-- The place of lane `i` among 128 values: how many lie before it, equal ones in lane order (R182). -/
def rank (xs : List XReal) (i : Nat) : Nat :=
  (List.range 128).countP (fun m => match (xs.getD m zeroX).cmp (xs.getD i zeroX) with
    | .lt => true
    | .eq => decide (m < i)
    | .gt => false)

end Sys2Proof.Claims

/-- R182 to R184: a NaN or an infinity among the values gives the record whose scale byte alone is not zero. Else an L8
record gives each lane its place in the sorted order as its code; with the least pair of scale and shift that fits, it
holds the scale, the base, the differences of the rounded values and the shift. An L3 or L4 record holds the least pair of
scale and step that fits, the base, the step as each delta, the top level, and each value's rung as its code. -/
def Sys2Proof.Claims.sortedRecordsRule : Prop :=
  ∀ (md : Round) (xs : List XReal), xs.length = 128 → (∀ x ∈ xs, match x with | .num _ _ _ den => 0 < den | _ => True) →
    ((∃ x ∈ xs, x.isNan = true ∨ x.isInf = true) → ∀ f : Fmt, (sortRecord f md xs).length = f.bytes ∧
      ∀ j, j < f.bytes → (sortRecord f md xs).getD j 0 = if j = f.codeBytes then 0xFF else 0) ∧
    ((∀ x ∈ xs, x.isNan = false ∧ x.isInf = false) →
      let y := fun (k : Nat) => ((List.range 128).find? (fun i => rank xs i == k)).elim zeroX (fun i => xs.getD i zeroX)
      let base := fun (e : Nat) => ((y 0).shift (127 - (e : Int))).round md
      let rise := fun (e sh k : Nat) => if k = 0 then 0
        else ((((y k).shift (127 - (e : Int))).minus (base e)).shift (-(sh : Int))).round md
      let fits := fun (e sh : Nat) => e ≤ 254 ∧ sh ≤ 7 ∧ -128 ≤ base e ∧ base e ≤ 127 ∧
        ∀ k, k < 127 → 0 ≤ rise e sh (k + 1) - rise e sh k ∧ rise e sh (k + 1) - rise e sh k ≤ 255
      ∀ e sh, fits e sh → (∀ e' sh', fits e' sh' → e + sh < e' + sh' ∨ (e + sh = e' + sh' ∧ e ≤ e')) →
        let out := sortRecord .l8 md xs
        out.length = 256 ∧ (∀ i, i < 128 → codeAt .l8 out i = rank xs i) ∧
        out.getD 112 0 = BitVec.ofNat 8 e ∧ out.getD 113 0 = BitVec.ofInt 8 (base e) ∧
        (∀ k, k < 127 → out.getD (114 + k) 0 = BitVec.ofInt 8 (rise e sh (k + 1) - rise e sh k)) ∧
        out.getD 241 0 = BitVec.ofNat 8 sh ∧ (∀ j, 242 ≤ j → j < 256 → out.getD j 0 = 0)) ∧
    ((∀ x ∈ xs, x.isNan = false ∧ x.isInf = false) → ∀ f ∈ ([.l3, .l4] : List Fmt),
      let y := fun (k : Nat) => ((List.range 128).find? (fun i => rank xs i == k)).elim zeroX (fun i => xs.getD i zeroX)
      let base := fun (e : Nat) => ((y 0).shift (127 - (e : Int))).round md
      let step := fun (e d : Nat) (x : XReal) => (((x.shift (127 - (e : Int))).minus (base e)).divNat d).round md
      let fits := fun (e d : Nat) => e ≤ 254 ∧ 1 ≤ d ∧ d ≤ 15 ∧ -128 ≤ base e ∧ base e ≤ 127 ∧
        step e d (y 127) < 2 ^ f.codeBits
      ∀ e d, fits e d → (∀ e' d', fits e' d' → 2 ^ e * d < 2 ^ e' * d' ∨ (2 ^ e * d = 2 ^ e' * d' ∧ e ≤ e')) →
        let out := sortRecord f md xs
        out.length = f.bytes ∧
        (∀ i, i < 128 → codeAt f out i = min (2 ^ f.codeBits - 1) (step e d (xs.getD i zeroX)).toNat) ∧
        out.getD f.codeBytes 0 = BitVec.ofNat 8 e ∧ out.getD (f.codeBytes + 1) 0 = BitVec.ofInt 8 (base e) ∧
        (∀ k, k < 28 → (out.getD (f.codeBytes + 2 + k / 2) 0).toNat / 16 ^ (k % 2) % 16 =
          if k < 2 ^ f.codeBits - 1 then d else if k = 2 ^ f.codeBits - 1 then 2 ^ f.codeBits - 1 else 0))

/-- R173 to R182: `lplan`, `ldot`, `ldot2` and `lsort` on ready operands read their bytes, make their checks and stand in
EQ0: `lplan` leaves the lanes in code order in its table, `ldot` carries what it adds, `lsort` the record it writes. -/
def Sys2Proof.Claims.engineReadsRule : Prop :=
  (∀ gd (k : Fin 8) (r : EOp) (f : Fmt) cq (s : State), s.me.guardOn gd = true → engineFree s → engineReady s cq false r →
    engineBase s false r % 16 = 0 → (ladderOf f (engineBytes s cq r 0 f.bytes)).malformed = false →
    Queued (.lplan gd k r f cq) s .plan (namesOf r) none (fun c => c.tabs[k].valid = true ∧
        inCodeOrder f (engineBytes s cq r 0 f.bytes) c.tabs[k].pi ∧
      ∀ j : Fin 8, j ≠ k → c.tabs[j] = (s.core s.cur.1).tabs[j])) ∧
  (∀ (x : Dot) (s : State), s.me.guardOn x.gd = true → engineFree s → engineReady s x.cq false x.act →
    engineReady s x.cq false x.rcd → engineBase s false x.act % 16 = 0 → engineBase s false x.rcd % 16 = 0 →
    let n := x.fmt.bytes
    let act := engineBytes s x.cq x.act 0 (actBytes x.ty)
    let rcd := fun i => engineBytes s x.cq x.rcd (i * n) n
    let fits := fun (i : Nat) (k : Fin 8) =>
      let t := (s.core s.cur.1).tabs[k]
      t.valid = true ∧ (ladderOf x.fmt (rcd i)).malformed = false ∧ runsUp x.fmt (rcd i) t.pi
    let adds := fun i => contribution x.fmt x.ty (s.core s.cur.1).e4m3 act (rcd i)
    fits 0 x.k →
      Queued (.ldot x) s (.rows false [⟨x.w, adds 0⟩]) (namesOf x.act ++ namesOf x.rcd) none
        (fun c => c.tabs = (s.core s.cur.1).tabs) ∧
      (fits 1 (x.k + 1) → Queued (.ldot2 x) s (.rows true [⟨x.w, adds 0⟩, ⟨x.w + 1, adds 1⟩])
        (namesOf x.act ++ namesOf x.rcd) none (fun c => c.tabs = (s.core s.cur.1).tabs))) ∧
  (∀ gd (r m : EOp) (f : Fmt) (ty : Ty) md cq (s : State), s.me.guardOn gd = true → engineFree s →
    engineReady s cq true r → engineReady s cq false m → engineBase s true r % 16 = 0 → engineBase s false m % 16 = 0 →
    let src := engineBytes s cq m 0 (128 * (ty.bits / 8))
    let out := sortRecord f md (sortValues ty (s.core s.cur.1).e4m3 src)
    Queued (.lsort gd r m f ty md cq) s
      (.sort (((List.range f.bytes).zip out).filterMap (fun y => (outPlace s cq r y.1).map (fun l => (l, y.2)))))
      (namesOf m ++ namesOf r) (namesOf r).head? (fun c => c.tabs = (s.core s.cur.1).tabs))

/-- R181, R229: a row's checks in their order: no plan, a malformed record, a record that the plan does not fit; the packet
names the record's offset and the table. -/
def Sys2Proof.Claims.engineTrapsRule : Prop :=
  ∀ (x : Dot) (r : Fin 32) (a : Fin 32) (s : State), s.me.guardOn x.gd = true → engineFree s → x.act = .ls a →
    x.rcd = .ls r → engineBase s false x.act % 16 = 0 →
    let off := engineBase s false x.rcd
    let t := (s.core s.cur.1).tabs[x.k]
    let rcd := engineBytes s x.cq x.rcd 0 x.fmt.bytes
    (off % 16 ≠ 0 → Traps (.ldot x) s ⟨0x12, 0, BitVec.ofNat 64 off, 0⟩) ∧
    (off % 16 = 0 →
      (t.valid = false → Traps (.ldot x) s ⟨0x20, 0, BitVec.ofNat 64 off, BitVec.ofNat 64 x.k.val⟩) ∧
      (t.valid = true → (ladderOf x.fmt rcd).malformed = true → Traps (.ldot x) s ⟨0x21, 0, BitVec.ofNat 64 off, 2⟩) ∧
      (t.valid = true → (ladderOf x.fmt rcd).malformed = false → ¬ runsUp x.fmt rcd t.pi →
        Traps (.ldot x) s ⟨0x22, 0, BitVec.ofNat 64 off, BitVec.ofNat 64 x.k.val⟩))

/-- R171, R173, R185, R188 to R190, R213: the operations of EQ0 that read no local store at acceptance; `lpert` is
privileged. A joint operation takes `%lprog.start`, which is 0 again. Where the manual leaves the point open, the
clause states the model's choice (log 33, 34). -/
def Obligations.EngineWrites : Prop :=
  ∀ gd (w : Fin 64) (anchor : BitVec 8) (a b c : Fin 32) (x : Joint) (s : State), s.me.guardOn gd = true → engineFree s →
    let k := s.core s.cur.1
    let v := BitVec.ofNat 128 ((s.me.rg a).toNat + 2 ^ 64 * (s.me.rg b).toNat)
    let quiet := fun (c : Core) => c.tabs = k.tabs ∧ c.lprog = k.lprog
    Queued (.lclr gd w anchor) s (.clr w anchor) [] none quiet ∧
    Queued (.lwr gd w a b c) s (.wr w v (s.me.rg c) false) [] none quiet ∧
    Queued (.lwrAdd gd w a b c) s (.wr w v (s.me.rg c) true) [] none quiet ∧
    (s.me.priv = true → Queued (.lpert gd a) s (.pert (s.me.rg a)) [] none quiet) ∧
    (s.me.priv = false → Traps (.lpert gd a) s ⟨0x02, 0, pcWord s.me, 0⟩) ∧
    (s.me.guardOn x.gd = true → (s.me.rg x.a).toNat % 16 = 0 → (s.me.rg x.b).toNat % 16 = 0 →
      let j := fun rot => (⟨rot, x.w, (s.me.rg x.a).toNat % 2 ^ 20, (s.me.rg x.b).toNat % 2 ^ 20, x.n1.toNat + 1, x.fmt,
        x.ty, k.e4m3, k.lprog.start.toNat⟩ : JointOp)
      let taken := fun (c : Core) => c.tabs = k.tabs ∧ c.lprog = { k.lprog with start := 0 }
      Queued (.lgang x) s (.joint (j false)) [] none taken ∧ Queued (.lrot x) s (.joint (j true)) [] none taken)

/-- R77 to R80, R187: `lrd` reads a vein whatever EQ0 holds: its value rounded to the type, its 128 bits, its status, or 16
veins into the lanes of a vector register, whatever stream binds it (R136); nothing else changes. -/
def Sys2Proof.Claims.veinReadsRule : Prop :=
  ∀ gd (d b : Fin 32) (e : Fin 16) (w : Fin 64) (ty : Ty) (f : Flt) md cq (s : State), s.me.guardOn gd = true →
    ty = .f32 ∨ ty = .bf16 → floatOf false ty = some f →
    let vein := fun (i : Fin 64) => (s.core s.cur.1).veins[i]
    let out := fun (i : Fin 64) => (if (vein i).vo then (f.nan.getD 0, fNV)
      else f.rnd md ((XReal.ofInt ((vein i).s.setWidth 128).toInt).shift ((vein i).anchor.toInt - 64)))
    RunsTo (.lrd gd d w ty md) s (fun u => GoesOn s.me u (after s 8) [d] [] [] (out w).2 ∧
      u.rg d = heldG d (BitVec.ofNat 64 (out w).1)) ∧
    RunsTo (.lrdRaw gd d b w) s (fun u => GoesOn s.me u (after s 8) [d, b] [] [] 0 ∧
      (d ≠ b → u.rg d = heldG d ((vein w).s.extractLsb' 0 64)) ∧ u.rg b = heldG b ((vein w).s.extractLsb' 64 64)) ∧
    RunsTo (.lrdSt gd d w) s (fun u => GoesOn s.me u (after s 8) [d] [] [] 0 ∧
      u.rg d = heldG d (BitVec.ofNat 64 ((vein w).anchor.toNat + (if (vein w).vx then 256 else 0)
        + (if (vein w).vo then 512 else 0)))) ∧
    (∃ fl : Flags, RunsTo (.lrdV gd (.v e) w ty md cq) s (fun u =>
        GoesOn s.me u (after s 8) [] [] [e] fl ∧
        ∀ l : Fin 16, (u.rv e)[l] = BitVec.ofNat 32 (out (Fin.ofNat 64 (w.val + l.val))).1) ∧
      ∀ j, fl.getLsbD j = (List.finRange 16).any (fun l => (out (Fin.ofNat 64 (w.val + l.val))).2.getLsbD j))

/-- R190, R191, R218: `lprog` reads the progress register of the core, `lprog.set` sets the start of the next joint
operation and traps on 512 and more, `lprog.drop` ends the started operation at the head on every participant when one of
them is suspended, and else does nothing. -/
def Sys2Proof.Claims.progressRule : Prop :=
  ∀ gd (d a : Fin 32) (s : State), s.me.guardOn gd = true →
    let k := s.core s.cur.1
    let p := k.lprog
    RunsTo (.lprog gd d) s (fun u => GoesOn s.me u (after s 8) [d] [] [] 0 ∧
      u.rg d = heldG d (BitVec.ofNat 64 ((if p.act then 2 ^ 63 else 0) + (if p.sus then 2 ^ 62 else 0) + 2 ^ 50 * p.total
        + 2 ^ 41 * p.start.toNat + 2 ^ 32 * p.done + 2 ^ 24 * p.op))) ∧
    ((s.me.rg a).toNat < 512 → ∃ t, exec (.lprogSet gd a) s = .next t ∧ t.retired = true ∧ SameRegs s.me t.me ∧
      t.me.pc = after s 8 ∧ Inside s t ∧ (t.core s.cur.1).lprog = { p with start := (s.me.rg a).setWidth 9 } ∧
      t.core s.cur.1 = { k with lprog := (t.core s.cur.1).lprog, strands := (t.core s.cur.1).strands }) ∧
    (512 ≤ (s.me.rg a).toNat → Traps (.lprogSet gd a) s ⟨0x23, 0, s.me.rg a, 1⟩) ∧
    (k.headJoint = none → RunsTo (.lprogDrop gd) s (fun u => GoesOn s.me u (after s 8) [] [] [] 0)) ∧
    (∀ o j rest, k.eq0 = o :: rest → o.kind = .joint j →
      let cs := s.jointCores s.cur.1 j.rot
      (o.started = false ∨ (∀ c ∈ cs, (s.core c).lprog.sus = false) →
        RunsTo (.lprogDrop gd) s (fun u => GoesOn s.me u (after s 8) [] [] [] 0)) ∧
      (o.started = true → (∃ c ∈ cs, (s.core c).lprog.sus = true) → cs.Nodup →
        ∃ t, exec (.lprogDrop gd) s = .next t ∧ t.retired = true ∧ SameRegs s.me t.me ∧ t.me.pc = after s 8 ∧
          t.mem = s.mem ∧ (∀ c ∈ cs, (t.core c).eq0 = (s.core c).eq0.drop 1 ∧ (t.core c).veins = (s.core c).veins ∧
            (t.core c).lprog = { (s.core c).lprog with act := false, sus := false }) ∧
          (∀ c, c ∉ cs → c ≠ s.cur.1 → t.core c = s.core c)))

/-- Engine operations that read local store make their checks at acceptance and stand in EQ0; their traps in order:
the statements above. Where the manual leaves the point open, the clause states the model's choice (log 33). -/
def Obligations.EngineReads : Prop := engineReadsRule ∧ sortedRecordsRule ∧ engineTrapsRule

/-- Reading veins, and the progress register: the two statements above. Where the manual leaves the point open, the
clause states the model's choice (log 34). -/
def Obligations.VeinsAndProgress : Prop := veinReadsRule ∧ progressRule

/-! ### Handles, copies and windows -/

namespace Sys2Proof.Claims

/-- The strand may name handle `h` by the value `v`: it is live, its module is not lost, and it is of the strand's context
or the strand is privileged (R276, R297, R303, R351). -/
def Names (s : State) (v : Word) (h : Handle) : Prop :=
  v.getLsbD 63 = true ∧ s.handle? v = some h ∧ h.freed = false ∧ (∀ r, h.imported = some r → r ∉ s.lost) ∧
    (h.ctx = s.myCore.ctx ∨ s.me.priv = true)

/-- The checks of a copy: the operations are declared, the E4M3 mode is the core's, and an entry of the task covers the
access or the strand is privileged (R68, R276, R303, R309). -/
def MayCopy (s : State) (v : Word) (ops : List Nat) (need : Nat) : Prop :=
  ∃ h, Names s v h ∧ h.v = v ∧ (∀ b ∈ ops, h.ops.getLsbD b = true) ∧
    (h.rfmt = 0 → h.ty = .e4m3 → h.mode = s.myCore.e4m3) ∧ (s.me.priv = true ∨ s.entriesOn s.myCore.task v need ≠ [])

/-- The copy enters queue `q` with its identifier; the register of its status waits for it; nothing moves yet. -/
def Enters (i : Instr) (s : State) (q : Fin 4) (op : CopyOp) : Prop :=
  ∃ t, exec i s = .next t ∧ t.retired = true ∧ SameRegs s.me t.me ∧ t.me.pc = after s 8 ∧ Inside s t ∧ t.handles = s.handles ∧
    (let k := s.core s.cur.1
     let k' := t.core s.cur.1
     let o := { op with id := s.nextId, after := s.nextId, strand := s.cur.2, priv := s.me.priv }
     k'.eq1 = (if q = 1 then k.eq1 ++ [o] else k.eq1) ∧ k'.eq2 = (if q = 2 then k.eq2 ++ [o] else k.eq2) ∧
     k' = { k with eq1 := k'.eq1, eq2 := k'.eq2, strands := k'.strands } ∧
     t.me.pend = s.me.pend ++ (match op.dst with
       | none => []
       | some d => if d = 0 then [] else [(s.nextId, .g d)]))

/-- There is room in queue `q`, and it is not in the error state. -/
def queueFree (s : State) (q : Fin 4) : Prop :=
  (s.core s.cur.1).err[q] = none ∧ (s.core s.cur.1).eq1.length < 16 ∧ (s.core s.cur.1).eq2.length < 16

end Sys2Proof.Claims

/-- R297 to R302: each handle instruction on a handle that the strand may name sends its request to the Lapidary as a
release of module scope, and the register of the reply waits for it. `hnew` sends the 32 bytes of its descriptor. -/
def Sys2Proof.Claims.handleRequestsRule : Prop :=
  ∀ gd (d a b : Fin 32) (sel : Fin 16) (ops : OpsSrc) (s : State), s.me.guardOn gd = true → s.me.bufCount < 16 →
    let v := s.me.rg a
    let set : BitVec 16 := match ops with | .imm m => m | .reg b => (s.me.rg b).setWidth 16
    let sent := fun (i : Instr) (r : LapReq) => Asks i s (.lap r d) [] d .rel .mod 0 8
    (∀ h, Names s v h → h.v = v →
      sent (.hfree gd d a) (.hfree v) ∧ sent (.hwiden gd d a ops) (.hwiden v set) ∧
      ((sel.val < 3 ∨ (sel.val ≤ 4 ∧ s.me.priv = true)) → sent (.hquery gd d a sel) (.hquery v sel.val)) ∧
      (h.ops.getLsbD 15 = true → sent (.hexport gd d a b) (.hexport v (s.me.rg b)))) ∧
    sent (.himport gd d a) (.himport v) ∧
    (calm s → unpaired s s.cur.1 → s.me.loads = [] → s.myCore.bad = [] → s.myCore.weak = [] → v.toNat % 16 = 0 →
      (∀ j, j < 32 → (s.myCore.lsLoc (v.toNat + j)).at' = .ls) →
      sent (.hnew gd d a ops)
        (.hnew v.toNat set s.myCore.e4m3 ((List.range 32).map (fun j => lsByte s.myCore (v.toNat + j)))))

/-- R298, R300: `hnarrow` takes the operations off the declared set at its issue, and sends its request; where a record
handle would lose LW, or the set would break the rules of ladder words, the set stays and the request is refused. -/
def Sys2Proof.Claims.narrowingRule : Prop :=
  ∀ gd (d a : Fin 32) (ops : OpsSrc) (s : State) (h : Handle), s.me.guardOn gd = true → s.me.bufCount < 16 →
    Names s (s.me.rg a) h → h.v = s.me.rg a →
    let set : BitVec 16 := match ops with | .imm m => m | .reg b => (s.me.rg b).setWidth 16
    let left := h.ops &&& ~~~set
    let broken := if left.getLsbD 7 then h.rfmt = 0 ∨ left.getLsbD 2 = true ∨ left.getLsbD 6 = true ∨
      left.getLsbD 8 = true ∨ left.getLsbD 9 = true else h.rfmt ≠ 0
    ∃ t refused, exec (.hnarrow gd d a ops) s = .next t ∧ t.retired = true ∧ SameRegs s.me t.me ∧ t.me.pc = after s 8 ∧
      (refused = true ↔ broken) ∧
      t.me.buf = s.me.buf ++ [{ id := s.nextId, op := .lap (.hnarrow h.v refused (set == 0)) d, rel := true, scope := .mod
                                pc := s.me.pc, iw := s.me.iw }] ∧
      t.handles = s.handles.map (fun x => if x.v = h.v ∧ refused = false then { x with ops := left } else x)

/-- R276, R297, R303: a value without bit 63 is no handle, one that names no live handle is stale, one of another context
is foreign; the packet names the value. An export needs its operation declared. -/
def Sys2Proof.Claims.handleTrapsRule : Prop :=
  ∀ gd (d a b : Fin 32) (sel : Fin 16) (ops : OpsSrc) (s : State), s.me.guardOn gd = true →
    let v := s.me.rg a
    let all : List Instr := [.hfree gd d a, .hwiden gd d a ops, .hnarrow gd d a ops, .hexport gd d a b, .hquery gd d a 0]
    (∀ i ∈ all,
      (v.getLsbD 63 = false → Traps i s ⟨0x30, 0, v, 0⟩) ∧
      (v.getLsbD 63 = true → s.handle? v = none → Traps i s ⟨0x30, 1, v, 0⟩) ∧
      (∀ h, v.getLsbD 63 = true → s.handle? v = some h → h.freed = true → Traps i s ⟨0x30, 1, v, 0⟩) ∧
      (∀ h, v.getLsbD 63 = true → s.handle? v = some h → h.freed = false → h.imported = none →
        h.ctx ≠ s.myCore.ctx → s.me.priv = false → Traps i s ⟨0x30, 2, v, 0⟩)) ∧
    (∀ h, Names s v h → h.v = v → h.ops.getLsbD 15 = false → Traps (.hexport gd d a b) s ⟨0x31, 15, v, 0⟩) ∧
    ((4 < sel.val ∨ (3 ≤ sel.val ∧ s.me.priv = false)) → Traps (.hquery gd d a sel) s ⟨0x02, 0, pcWord s.me, 0⟩)

/-- R274, R276, R282: the copies and bindings, with a descriptor on a 16-byte boundary and their checks met, enter EQ1, or
EQ2 for the forms with a row list; a misaligned descriptor traps. -/
def Sys2Proof.Claims.copiesIssueRule : Prop :=
  (∀ (x : Copy) (s : State), s.me.guardOn x.gd = true →
    let v := s.me.rg x.a
    let side := match x.b with | .ls n => LocalSide.at' (s.me.rg n).toNat | .c n => .cis n
    let op := fun (kind : CopyKind) (major : Nat) =>
      ({ id := 0, strand := 0, kind := kind, h := v, dst := some x.d, side := side
         desc := (s.me.rg x.c).toNat % 2 ^ 20, dfield := x.d.val, major := major } : CopyOp)
    ((s.me.rg x.c).toNat % 16 = 0 →
      (queueFree s 1 →
        (MayCopy s v [0] 1 → Enters (.hcopyLd x false) s 1 (op (.ld false) 0xD7)) ∧
        (MayCopy s v [0, 3] 1 → Enters (.hcopyLd x true) s 1 (op (.ld true) 0xD7)) ∧
        (MayCopy s v [1] 2 → Enters (.hcopySt x) s 1 (op .st 0xD7))) ∧
      (queueFree s 2 →
        (MayCopy s v [4] 1 → Enters (.hgath x) s 2 (op .gath 0xD8)) ∧
        (MayCopy s v [5] 2 → Enters (.hscat x) s 2 (op (.scat false) 0xD9)) ∧
        (MayCopy s v [6] 2 → Enters (.hscatAdd x) s 2 (op (.scat true) 0xD9)))) ∧
    ((s.me.rg x.c).toNat % 16 ≠ 0 →
      ∀ i ∈ ([.hcopyLd x false, .hcopyLd x true, .hcopySt x, .hgath x, .hscat x, .hscatAdd x] : List Instr),
        Traps i s ⟨0x12, 0, s.me.rg x.c, 0⟩)) ∧
  (∀ gd (d : Fin 32) (win : Fin 8) (a b c : Fin 32) (s : State), s.me.guardOn gd = true → queueFree s 1 →
    ((s.me.rg c).toNat % 16 = 0 → MayCopy s (s.me.rg a) [0] 1 →
      Enters (.hbind gd d win a b c) s 1 { id := 0, strand := 0, kind := .bind win, h := s.me.rg a, dst := some d
                                           side := .at' (s.me.rg b).toNat, desc := (s.me.rg c).toNat % 2 ^ 20
                                           dfield := d.val, major := 0xD5 }) ∧
    Enters (.hunbind gd win) s 1 { id := 0, strand := 0, kind := .unbind win false } ∧
    (s.myCore.eq1 = [] → (∀ w, s.myCore.wins[win] = some w → MayCopy s w.h [1] 2) →
      Enters (.hunbindWb gd d win) s 1 { id := 0, strand := 0, kind := .unbind win true, dst := some d
                                         dfield := d.val, major := 0xD6 }))

/-- Handle instructions send their request; `hnarrow` narrows at issue: the two statements above. Where the manual
leaves the point open, the clause states the model's choice (log 11, 44). -/
def Obligations.HandleRequests : Prop := handleRequestsRule ∧ narrowingRule

/-- Traps of a bad handle, and what a copy or binding enters in its queue: the two statements above. -/
def Obligations.CopyRequests : Prop := handleTrapsRule ∧ copiesIssueRule

/-! ### Pairs and the repeat prefix -/

/-- R236: `pair` on the control strand, with no helper live and its queues empty, answers 3 for an interval outside
512 to 65,536 (0 stands for 4,096), 2 on a core that is in a pair, 1 when no neighbour of its row is a free worker,
and else 0: the east neighbour, or else the west one, is its shadow. `unpair` answers 1 outside a pair, and 0 ends it.
`fprint` answers the running fingerprint, once every retired instruction is in it, the last agreed one, and the pair's
state. Where the manual leaves the point open, the clause states the model's choice (log 45). -/
def Obligations.PairInstructions : Prop :=
  ∀ gd (d a : Fin 32) (s : State), s.me.guardOn gd = true → s.cur.2 = 0 →
    let c := s.cur.1
    let k := s.core c
    let asked := (s.me.rg a).toNat % 2 ^ 17
    let n := if asked = 0 then 4096 else asked
    ((∀ h : Fin 11, h ≠ 0 → k.strands[h].live = false) → (∀ q : Fin 4, k.opsIn q = [] ∧ k.err[q] = none) →
      (∀ qs i, s.me.wait ≠ .queue qs i) →
      ((n < 512 ∨ 65536 < n) → RunsTo (.pair gd d a) s (fun u => GoesOn s.me u (after s 8) [d] [] [] 0 ∧ u.rg d = heldG d 3)) ∧
      (512 ≤ n → n ≤ 65536 →
        (k.pairOf ≠ none → RunsTo (.pair gd d a) s (fun u => GoesOn s.me u (after s 8) [d] [] [] 0 ∧ u.rg d = heldG d 2)) ∧
        (k.pairOf = none →
          let free := fun (x : Nat) => s.freeWorker x
          let east := c % 6 < 5 ∧ free (c + 1) = true
          let west := 0 < c % 6 ∧ free (c - 1) = true
          (¬ east → ¬ west → RunsTo (.pair gd d a) s (fun u => GoesOn s.me u (after s 8) [d] [] [] 0 ∧ u.rg d = heldG d 1)) ∧
          ((east ∨ west) → ∃ t p, exec (.pair gd d a) s = .next t ∧ t.retired = true ∧ t.me.rg d = heldG d 0 ∧
            t.me.pc = after s 8 ∧ (∀ x, x ≠ d → t.me.rg x = s.me.rg x) ∧ t.mem = s.mem ∧ t.pairs = s.pairs ++ [p] ∧
            p.leader = c ∧ (east → p.shadow = c + 1) ∧ (¬ east → p.shadow = c - 1) ∧ p.interval = n ∧ p.retired = 0 ∧
            (t.core c).pairOf = some c ∧ (t.core p.shadow).pairOf = some c)))) ∧
    (s.leads c = none → RunsTo (.unpair gd d) s (fun u => GoesOn s.me u (after s 8) [d] [] [] 0 ∧ u.rg d = heldG d 1)) ∧
    (∀ p, s.leads c = some p → ∃ t, exec (.unpair gd d) s = .next t ∧ t.retired = true ∧ t.me.rg d = heldG d 0 ∧
      t.me.pc = after s 8 ∧ (t.core c).pairOf = none ∧ t.mem = s.mem ∧ (∀ q ∈ t.pairs, q.leader ≠ c) ∧
      (∀ q ∈ s.pairs, q.leader ≠ c → q ∈ t.pairs)) ∧
    (k.printed.trail = [] → RunsTo (.fprint gd d) s (fun u => GoesOn s.me u (after s 8) [d] [] [] 0 ∧
      u.rg d = heldG d (k.printed.fp.setWidth 64))) ∧
    RunsTo (.fprintLast gd d) s (fun u => GoesOn s.me u (after s 8) [d] [] [] 0 ∧ u.rg d = heldG d (k.fpLast.setWidth 64)) ∧
    RunsTo (.fprintSt gd d) s (fun u => GoesOn s.me u (after s 8) [d] [] [] 0 ∧
      (s.leads c = none → u.rg d = 0) ∧
      (∀ p, s.leads c = some p → u.rg d = heldG d (BitVec.ofNat 64
        (2 ^ 63 + 2 ^ 62 + 2 ^ 40 * p.rollbacks + 2 ^ 32 * (p.shadow % 36) + p.interval))))

namespace Sys2Proof.Claims

/-- Operand `F + j·step` of the class and the side of F (R142, R143). -/
def stepsG (j : Nat) (st : BitVec 3) (f f' : Fin 32) : Prop := (f'.val : Int) = f.val + j * st.toInt
def stepsW (j : Nat) (st : BitVec 3) (f f' : Fin 64) : Prop := (f'.val : Int) = f.val + j * st.toInt
def stepsV (j : Nat) (st : BitVec 3) : VOp → VOp → Prop
  | .v f, .v f' | .c f, .c f' => (f'.val : Int) = f.val + j * st.toInt
  | _, _ => False
def stepsE (j : Nat) (st : BitVec 3) : EOp → EOp → Prop
  | .ls f, .ls f' => stepsG j st f f'
  | .c f, .c f' => (f'.val : Int) = f.val + j * st.toInt
  | _, _ => False
def stepsB (j : Nat) (st : BitVec 3) : BSrc → BSrc → Prop
  | .reg f, .reg f' => stepsG j st f f'
  | f, f' => f = f' ∧ st = 0
def stepsVB (j : Nat) (st : BitVec 3) : VB → VB → Prop
  | .vec f, .vec f' => stepsV j st f f'
  | .scal f, .scal f' => stepsG j st f f'
  | _, _ => False

end Sys2Proof.Claims

/-- R142, R143: repeat `j` is the body with D, A and B moved by `j` steps, for the integer, the vector, the load and store
and the engine bodies, with registers, cisterns and veins. -/
def Sys2Proof.Claims.steppedBodiesRule : Prop :=
  ∀ (j : Nat) (sd sa sb : BitVec 3),
    let is := fun (i i' : Instr) => i.wf = true → i'.wf = true → Decode.repeatOf i sd sa sb j = .ok i'
    (∀ c ∈ (wordOps.map Prod.fst ++ exactOps.map Prod.fst : List (Alu2 → Instr)), ∀ x y : Alu2,
      y = { x with d := y.d, a := y.a, b := y.b } → stepsG j sd x.d y.d → stepsG j sa x.a y.a → stepsB j sb x.b y.b →
      is (c x) (c y)) ∧
    (∀ c ∈ laneOps.map Prod.fst, ∀ x y : VBin, y = { x with d := y.d, a := y.a, b := y.b } → stepsV j sd x.d y.d →
      stepsV j sa x.a y.a → stepsVB j sb x.b y.b → is (c x) (c y)) ∧
    (∀ gd d d' (m m' : Mem) ty o sc, m' = { m with a := m'.a, b := m'.b } → stepsG j sd d d' → stepsG j sa m.a m'.a →
      stepsG j sb m.b m'.b → is (.ld gd d m ty o sc) (.ld gd d' m' ty o sc) ∧ is (.st gd d m ty o sc) (.st gd d' m' ty o sc)) ∧
    (∀ c ∈ ([.ldot, .ldot2] : List (Dot → Instr)), ∀ x y : Dot, y = { x with w := y.w, act := y.act, rcd := y.rcd } →
      stepsW j sd x.w y.w → stepsE j sa x.act y.act → stepsE j sb x.rcd y.rcd → is (c x) (c y))

/-- R143, R146: one repeat of any body is its instruction `b` at the prefix's PC. When it completes, so does the repeat: what
it leaves stands, and the count falls; after the last the strand goes on behind the body. A repeat that does not complete
leaves what its instruction leaves. -/
def Sys2Proof.Claims.repeatsRunRule : Prop :=
  ∀ (s t' : State) (core : Nat) (h : Fin 11) (r : RepSeq) (b : Instr),
    let k := s.core core
    let u := k.strands[h]
    k.repOwner = some h → u.rep = some r → Decode.repeatOf r.body r.sd r.sa r.sb r.i = .ok b → b.repeatable = true →
    r.i < r.n → r.n ≤ 64 → k.frozen = false → u.gates = [] → u.changes = [] → (∀ x ∈ b.regs, u.pending x = false) →
    k.pairOf = none → s.pairs = [] → r.ahead.g = [] → r.ahead.p = [] →
    exec b { s with cur := (core, h), retired := false } = .next t' →
    (t'.retired = false → exec (.repeatIssue core) s = .next t') ∧
    (t'.retired = true → t'.pairs = [] → ∃ t, exec (.repeatIssue core) s = .next t ∧
      (let w := t.strandAt core h
       let w' := t'.strandAt core h
       (∀ n, w.rg n = w'.rg n) ∧ (∀ n, w.rp n = w'.rp n) ∧ (∀ n, w.rv n = w'.rv n) ∧ w.loads = w'.loads ∧
       w.buf = w'.buf ∧ w.pend = w'.pend ∧
       (r.i + 1 < r.n → w.fflags = w'.fflags ∧ w.pc = u.pc ∧ w.rep = some { r with i := r.i + 1 } ∧
         w.repcnt.toNat = r.n - (r.i + 1)) ∧
       (r.i + 1 = r.n → w.fflags = w'.fflags ||| r.ahead.flags ∧ w.pc = r.ahead.pc ∧ w.rep = none ∧ w.repact = false ∧
         w.repcnt = 0 ∧ (t.core core).repOwner = none)) ∧
      (let x := t.core core
       x = { t'.core core with strands := x.strands, repOwner := x.repOwner, trail := x.trail, fp := x.fp }) ∧
      (∀ j, j ≠ h → t.strandAt core j = t'.strandAt core j) ∧ (∀ e, e ≠ core → t.core e = t'.core e) ∧ t.mem = t'.mem)

/-- R140 to R146: the prefix takes the core's repetition buffer, its PC still its own, and waits while the buffer is
another's; it begins at the first repeat, or at the first not yet complete of a sequence that was interrupted at this
PC; each repeat runs the instruction with its registers stepped, and the last one lets the strand go on after both. -/
def Obligations.RepeatPrefix : Prop := steppedBodiesRule ∧ repeatsRunRule ∧
  (∀ (n1 : Fin 64) sd sa sb body (s : State),
    (s.myCore.repOwner ≠ none → Waits (.rep n1 sd sa sb body) s 0) ∧
    (s.myCore.repOwner = none → s.me.repact = false → ∃ t, exec (.rep n1 sd sa sb body) s = .next t ∧ t.retired = true ∧
      SameRegs s.me t.me ∧ t.me.pc = s.me.pc ∧ t.me.repact = true ∧ t.me.repcnt.toNat = n1.val + 1 ∧
      (t.core s.cur.1).repOwner = some s.cur.2 ∧ Inside s t ∧
      ∃ r, t.me.rep = some r ∧ r.body = body ∧ r.n = n1.val + 1 ∧ r.i = 0 ∧ r.sd = sd ∧ r.sa = sa ∧ r.sb = sb) ∧
    (s.myCore.repOwner = none → s.me.repact = true → ∃ t, exec (.rep n1 sd sa sb body) s = .next t ∧ t.retired = true ∧
      SameRegs s.me t.me ∧ t.me.pc = s.me.pc ∧ t.me.repact = true ∧ (t.core s.cur.1).repOwner = some s.cur.2 ∧ Inside s t ∧
      ∃ r, t.me.rep = some r ∧ r.body = body ∧ r.n = n1.val + 1 ∧ r.sd = sd ∧ r.sa = sa ∧ r.sb = sb ∧
        t.me.repcnt.toNat = n1.val + 1 - r.i ∧
        r.i = (if 1 ≤ s.me.repcnt.toNat ∧ s.me.repcnt.toNat ≤ n1.val + 1 ∧ s.me.repAt = s.me.pc
          then n1.val + 1 - s.me.repcnt.toNat else 0))) ∧
  (∀ (s : State) (core : Nat) (h : Fin 11) (r : RepSeq) (x : Alu2) (b b' : Fin 32) (y : Alu2),
    let k := s.core core
    let u := k.strands[h]
    let step := fun (f f' : Fin 32) (st : BitVec 3) => (f'.val : Int) = f.val + r.i * st.toInt
    k.repOwner = some h → u.rep = some r → r.body = .add x → x.b = .reg b → x.sat = false → x.ty.isInt = true →
    r.i < r.n → r.n ≤ 64 → k.frozen = false → u.gates = [] → u.pend = [] → u.changes = [] → k.pairOf = none → s.pairs = [] →
    y = { x with d := y.d, a := y.a, b := .reg b' } → step x.d y.d r.sd → step x.a y.a r.sa → step b b' r.sb →
    u.guardOn x.gd = true → r.ahead.g = [] → r.ahead.p = [] →
    ∃ t, exec (.repeatIssue core) s = .next t ∧
      (let w := t.strandAt core h
       w.rg y.d = heldG y.d (readAs x.ty (u.rg y.a + u.rg b')) ∧ (∀ n, n ≠ y.d → w.rg n = u.rg n) ∧
       (∀ n, w.rv n = u.rv n) ∧ (∀ n, w.rp n = u.rp n) ∧
       (r.i + 1 < r.n → w.pc = u.pc ∧ w.rep = some { r with i := r.i + 1 } ∧ w.repcnt.toNat = r.n - (r.i + 1)) ∧
       (r.i + 1 = r.n → w.pc = r.ahead.pc ∧ w.rep = none ∧ w.repact = false ∧ w.repcnt = 0 ∧
         (t.core core).repOwner = none)) ∧
      (∀ j, j ≠ h → t.strandAt core j = s.strandAt core j) ∧ (∀ e, e ≠ core → t.core e = s.core e) ∧ t.mem = s.mem)

/-! ### Chambers -/

/-- R353, R355: a collective of a chamber that is active in the context, with its descriptor on a 16-byte boundary, takes an
entry of EQ3 and enters the strand's store buffer as a release of chamber scope; the register of its status waits. One whose
descriptor names a handle of the other E4M3 mode is a mode mismatch. -/
def Sys2Proof.Claims.collectivesIssueRule : Prop :=
  ∀ (x : Coll) (rw : Bool) (s : State) (c : Chamber), s.me.guardOn x.gd = true →
    let n := (s.me.rg x.b).toNat % 256
    let k := s.core s.cur.1
    let a := s.me.rg x.a
    let hnd : Word := BitVec.ofNat 64 (leNat (s.peek (k.lsRange (a.toNat + 16) 8)))
    let all : List (Instr × CollMajor × Bool) :=
      [(.kred x rw, .kred, rw), (.kbcast x, .kbcast, false), (.kgath x, .kgath, false), (.krsc x, .krsc, false)]
    (a.toNat % 16 ≠ 0 → ∀ o ∈ all, Traps o.1 s ⟨0x12, 0, a, 0⟩) ∧
    (a.toNat % 16 = 0 → s.chamberFor n k.ctx = none → ∀ o ∈ all, Traps o.1 s ⟨0x29, 0, 0, s.me.dom.lvl.setWidth 64⟩) ∧
    (a.toNat % 16 = 0 → s.chamberFor n k.ctx = some c →
      (x.ty = .e4m3 → k.e4m3 ≠ c.mode → ∀ o ∈ all, Traps o.1 s ⟨0x28, 0, 0, if c.mode then 1 else 0⟩) ∧
      (∀ h, (x.ty = .e4m3 → k.e4m3 = c.mode) → s.handle? hnd = some h → h.rfmt = 0 → h.ty = .e4m3 → h.mode ≠ k.e4m3 →
        ∀ o ∈ all, Traps o.1 s ⟨0x28, 0, h.v, if h.mode then 1 else 0⟩) ∧
      ((x.ty = .e4m3 → k.e4m3 = c.mode) → (∀ h, s.handle? hnd = some h → h.rfmt = 0 → h.ty = .e4m3 → h.mode = k.e4m3) →
        s.me.dropped = none → k.err[(3 : Fin 4)] = none → k.eq3.length < 8 →
        s.me.bufCount < 16 → ∀ o ∈ all, ∃ t, exec o.1 s = .next t ∧ t.retired = true ∧ SameRegs s.me t.me ∧
          t.me.pc = after s 8 ∧ Inside s t ∧
          (t.core s.cur.1).eq3 = k.eq3 ++ [{ id := s.nextId, strand := s.cur.2, chm := n, major := o.2.1, rw := o.2.2
                                             ty := x.ty, md := x.round, mode := k.e4m3, desc := a.toNat % 2 ^ 20
                                             d := x.d, priv := s.me.priv }] ∧
          t.me.buf = s.me.buf ++ [{ id := s.nextId, op := .coll s.nextId, rel := true, scope := .chm, pc := s.me.pc, iw := s.me.iw }] ∧
          t.me.pend = s.me.pend ++ (if x.d = 0 then [] else [(s.nextId, .g x.d)])))

/-- R359: `kview` and `kjoin` act after the strand's stores have drained, wait with code 1 for their chamber, and complete
with the reply, which when 0 makes the chamber the strand's. A malformed list answers 1, a chamber that is active or
asked for already 3; `kjoin` to a route that is none answers 1. -/
def Sys2Proof.Claims.viewRequestsRule : Prop :=
  ∀ gd (d a b : Fin 32) (s : State), s.me.guardOn gd = true → s.me.buf = [] →
    let n := (s.me.rg b).toNat % 256
    let off := (s.me.rg a).toNat
    let done := fun (i : Instr) (c x : Nat) => ∃ t, exec i s = .next t ∧ t.retired = true ∧
        t.me.rg d = heldG d (BitVec.ofNat 64 x) ∧
      t.me.pc = after s 8 ∧ (∀ k, k ≠ d → t.me.rg k = s.me.rg k) ∧ Inside s t ∧ t.me.wait = .none ∧
      (x = 0 → t.me.dom.chv = true ∧ t.me.dom.chm = BitVec.ofNat 8 c) ∧ (x ≠ 0 → t.me.dom = s.me.dom)
    (∀ c x, s.me.wait = .kview c (some x) → s.me.waitAt = s.me.pc → x < 8 → done (.kview gd d a b) c x) ∧
    (∀ c x, s.me.wait = .kjoin c (some x) → s.me.waitAt = s.me.pc → x < 8 → done (.kjoin gd d a b) c x) ∧
    (∀ c, s.me.wait = .kview c none → s.me.waitAt = s.me.pc → Waits (.kview gd d a b) s 1) ∧
    (∀ c, s.me.wait = .kjoin c none → s.me.waitAt = s.me.pc → Waits (.kjoin gd d a b) s 1) ∧
    (s.me.wait = .none → off % 16 ≠ 0 → Traps (.kview gd d a b) s ⟨0x12, 0, s.me.rg a, 0⟩) ∧
    (s.me.wait = .none → off % 16 = 0 → calm s → unpaired s s.cur.1 → s.me.loads = [] → s.myCore.bad = [] → off + 9232 ≤ 4096 * s.myCore.size.toNat →
      4096 * s.myCore.size.toNat ≤ 2 ^ (s.myCore.lspan.toNat + 12) →
      let half := fun (i : Nat) => leNat ((List.range 2).map (fun j => lsByte s.myCore (off + 2 * i + j)))
      let m := half 0
      let list := (List.range m).map (fun i => half (8 + i))
      let good := 1 ≤ m ∧ m ≤ 4608 ∧ (∀ i, 1 ≤ i → i < 8 → half i = 0) ∧ list.Pairwise (· < ·) ∧
        ∃ r ∈ list, s.routeOf s.myCore.ctx r = some s.self.toNat
      (¬ good → done (.kview gd d a b) n 1) ∧
      (good → ((s.chamber n).isSome = true ∨ ∃ r ∈ s.kreqs, r.chm = n ∧ r.join = false) → done (.kview gd d a b) n 3) ∧
      (good → s.chamber n = none → (∀ r ∈ s.kreqs, r.chm = n → r.join = true) →
        ∃ t, exec (.kview gd d a b) s = .next t ∧ t.retired = false ∧ t.me.blk = 1 ∧ t.me.pc = s.me.pc ∧
          SameRegs s.me t.me ∧ t.me.wait = .kview n none ∧ t.kreqs = s.kreqs ++
            [⟨n, s.myCore.ctx, s.cur.1, s.myCore.lnum.toNat, s.cur.2, list, s.myCore.e4m3, false, 0⟩])) ∧
    (s.me.wait = .none → (4608 ≤ off ∨ s.routeOf s.myCore.ctx off = none) → done (.kjoin gd d a b) n 1) ∧
    (∀ m, s.me.wait = .none → off < 4608 → s.routeOf s.myCore.ctx off = some m →
      ∃ t, exec (.kjoin gd d a b) s = .next t ∧ t.retired = false ∧ t.me.blk = 1 ∧ t.me.pc = s.me.pc ∧ SameRegs s.me t.me ∧
        t.me.wait = .kjoin n none ∧ t.kreqs = s.kreqs ++
          [⟨n, s.myCore.ctx, s.cur.1, s.myCore.lnum.toNat, s.cur.2, [], false, true, off⟩])

/-- R206, R359, R360: `kbar` is the barrier of a chamber, and a bad-domain for one that is not active; `kview.drop`
answers 1 for a chamber that is not active and leaves one that is; `kstat` answers the fields of a view, and for a
selector above 4 is an illegal-instruction. Where the manual leaves the point open, the clause states the model's
choice (log 31, 51). -/
def Obligations.ChamberInstructions : Prop :=
  ∀ gd (d a b : Fin 32) (sel : Fin 16) (s : State), s.me.guardOn gd = true →
    let n := (s.me.rg b).toNat % 256
    let view := s.chamberFor n s.myCore.ctx
    (s.cur.2 = 0 → (∀ i g, s.me.wait ≠ .barrier i g) → view = none →
      Traps (.kbar gd d b) s ⟨0x29, 0, 0, s.me.dom.lvl.setWidth 64⟩) ∧
    (∀ i g x, s.cur.2 = 0 → s.me.wait = .barrier i g → s.me.waitAt = s.me.pc → s.barriers.find? (fun x => x.dom == i) = some x →
      (g < x.gen → ∃ t, exec (.kbar gd d b) s = .next t ∧ t.retired = true ∧ t.me.rg d = heldG d (x.done.setWidth 64) ∧
        t.me.pc = after s 8 ∧ t.me.wait = .none ∧ (∀ k, k ≠ d → t.me.rg k = s.me.rg k) ∧ Inside s t) ∧
      (x.gen ≤ g → Waits (.kbar gd d b) s 1)) ∧
    (s.me.buf = [] →
      (view = none → ∃ t, exec (.kviewDrop gd d b) s = .next t ∧ t.retired = true ∧ t.me.rg d = heldG d 1 ∧
        t.me.pc = after s 8 ∧ t.chambers = s.chambers ∧ Inside s t) ∧
      (∀ k, view = some k → ∃ t, exec (.kviewDrop gd d b) s = .next t ∧ t.retired = true ∧ t.me.rg d = heldG d 0 ∧
        t.me.pc = after s 8 ∧ t.chamber n = none ∧ (∀ m, m ≠ n → t.chamber m = s.chamber m) ∧ t.mem = s.mem ∧
        (s.me.dom.chm.toNat = n → t.me.dom.chv = false))) ∧
    (4 < sel.val → Traps (.kstat gd d a b sel) s ⟨0x02, 0, pcWord s.me, 0⟩) ∧
    (sel.val ≤ 4 → s.me.buf = [] → Answers (.kstat gd d a b sel) s 8 d (match view, sel.val with
      | none, 4 => BitVec.allOnes 64
      | none, _ => 0
      | some k, 0 => BitVec.ofNat 64 (k.view % 2 ^ 32)
      | some k, 1 => BitVec.ofNat 64 (2 ^ 63 + 2 ^ 16 * (k.rank % 2 ^ 13) + k.members.length % 2 ^ 13)
      | some k, 2 => BitVec.ofNat 64 (2 ^ 32 * (k.kept % 2 ^ 16) + 2 ^ 16 * (k.joined % 2 ^ 13) + k.departed % 2 ^ 13)
      | some k, 3 => BitVec.ofNat 64 (2 ^ 32 * (k.badMode % 2 ^ 32) + k.badTag % 2 ^ 32)
      | some k, _ => if h : (s.me.rg a).toNat < k.members.length then BitVec.ofNat 64 k.members[(s.me.rg a).toNat]
          else BitVec.allOnes 64) (fun t => Inside s t ∧ t.chambers = s.chambers))

/-- Collectives enter EQ3; `kview` and `kjoin` wait for their chamber and reply: the two statements above. Where the
manual leaves the point open, the clause states the model's choice (log 48, 50, 51). -/
def Obligations.ChamberRequests : Prop := collectivesIssueRule ∧ viewRequestsRule

/-! ### The machine's own moves: the order point and the memory points -/

namespace Sys2Proof.Claims

/-- The event takes place, and leaves what `post` says. -/
def Happens (i : Instr) (s : State) (post : State → Prop) : Prop := ∃ t, exec i s = .next t ∧ post t

/-- The event is not enabled: it has no effect. -/
def Sleeps (i : Instr) (s : State) : Prop := exec i s = .next s

/-- Between `s` and `t` nothing of the core but strand `h` differs, and of that strand no register. -/
def OneStrand (s t : State) (c : Nat) (h : Fin 11) : Prop :=
  SameRegs (s.strandAt c h) (t.strandAt c h) ∧ (t.strandAt c h).pc = (s.strandAt c h).pc ∧
  (∀ j, j ≠ h → t.strandAt c j = s.strandAt c j) ∧ (∀ e, e ≠ c → t.core e = s.core e)

/-- The bytes listed are those of `m`, and no other byte of it differs from `m'`. -/
def Written (bs : List (Nat × Byte)) (m' m : Sparse Byte) : Prop :=
  (∀ y ∈ bs, memGet m y.1 = y.2) ∧ ∀ a, a ∉ bs.map Prod.fst → memGet m a = memGet m' a

def placed (bs : List (Loc × Byte)) : List (Nat × Byte) := bs.map (fun y => (y.1.addr, y.2))

/-- An outward store of a strand is not performed yet at a scope wider than the core: at the cluster's memory point for
`.clu`, at its home in the module for `.die` and `.mod`, and at its home in another module for `.chm` (R225, R270, R291,
R350). -/
def notYetAt (o : OutEntry) : Scope → Prop
  | .str | .core => False
  | .clu => o.stage = 0
  | .die | .mod => o.stage = 0 ∨ ∀ x ∈ o.e.locs, ∀ m, x.at' ≠ .remote m
  | .chm => True

/-- Address `a` of memory lies outside the `n` bytes of the save area of a context from `va` on. -/
def outsideArea (s : State) (ctx va n a : Nat) : Prop :=
  ∀ b v len, (HubPlace.mem b, v, len) ∈ s.areaParts ctx (n / 4096 + 2) va n → a < b ∨ b + len ≤ a

end Sys2Proof.Claims

/-- R29, R31, R32, R148, R165: the oldest entry of a strand store buffer drains. A store to local store is then the value of
its bytes; any other entry leaves the core outward, in order. A release waits for the loads before it and for what its
strand has sent outward, and no entry overtakes a release. -/
def Sys2Proof.Claims.storesDrainRule : Prop :=
  ∀ (s : State) (c : Nat) (h : Fin 11) (e : BufEntry) (rest : List BufEntry),
    let k := s.core c
    let u := s.strandAt c h
    u.buf = e :: rest → (∀ x ∈ rest, e.id < x.id) → (∀ l ∈ u.loads, l.dst.entry ≠ some e.id) → s.pairs = [] →
    k.pairOf = none →
    let left := fun t : State => OneStrand s t c h ∧ (t.strandAt c h).buf = rest ∧ t.mem = s.mem
    ((e.rel = true → u.loads = [] ∧ k.outq = []) →
      (e.op = .store → e.mask = [] → e.bytes.Nodup → (e.bytes.map Prod.fst).Nodup → (∀ y ∈ e.bytes, y.1.at' = .ls) →
        Happens (.storeDrain c h e.id) s (fun t => left t ∧ Written (placed e.bytes) k.ls (t.core c).ls ∧
          (t.core c).outq = k.outq)) ∧
      (e.op = .store → e.el = 0 → e.sc = false → e.bytes ≠ [] → (∀ y ∈ e.bytes, ∃ p, y.1.at' = .mem p) →
        Happens (.storeDrain c h e.id) s (fun t => left t ∧ (t.core c).ls = k.ls ∧
          (t.core c).outq = k.outq ++ [{ strand := h, e := e, task := k.task, ctx := k.ctx }])) ∧
      ((∀ n, e.op ≠ .coll n) → (∀ b, e.op ≠ .fence b) → e.op ≠ .store → e.sc = false →
        Happens (.storeDrain c h e.id) s (fun t => left t ∧ (t.core c).ls = k.ls ∧
          (t.core c).outq = k.outq ++ [{ strand := h, e := e, task := k.task, ctx := k.ctx }])) ∧
      (∀ b, e.op = .fence b → Happens (.storeDrain c h e.id) s (fun t => left t ∧ (t.core c).ls = k.ls ∧
        (t.core c).outq = k.outq))) ∧
    (e.rel = true → (∃ l ∈ u.loads, l.id < e.id) → Sleeps (.storeDrain c h e.id) s) ∧
    (e.rel = true → (∃ o ∈ k.outq, o.strand = h ∧ notYetAt o e.scope) → Sleeps (.storeDrain c h e.id) s) ∧
    (∀ x ∈ rest, e.rel = true → (∀ y ∈ rest, y.id = x.id → y = x) → Sleeps (.storeDrain c h x.id) s)

/-- R22, R30, R107, R108: the oldest load of a strand is satisfied from local store, from memory, or from the strand's
own older store when that covers it; its register takes the value its type gives, and no longer waits. An acquire of
module scope leaves no line that was filled before it to a later load. A load behind a fence that stands in the buffer
with a store before it is not satisfied. One that is made byte by byte takes one byte at a time, in any order. Where
the manual leaves the point open, the clause states the model's choice (log 9, 25, 75). -/
def Obligations.LoadsSatisfied : Prop :=
  ∀ (s : State) (c : Nat) (h : Fin 11) (l : PendLoad) (rest : List PendLoad) (d : Fin 32) (ty : Ty) (src : Nat),
    let k := s.core c
    let u := s.strandAt c h
    u.loads = l :: rest → (∀ x ∈ rest, l.id < x.id) → l.sc = false → l.dst = .g d ty → ty.isInt = true →
    8 * l.locs.length = ty.bits → (∀ x ∈ l.locs, s.freedRange x = false) →
    (∀ o ∈ k.outq, ∀ x ∈ l.locs, x ∉ o.e.locs) → (∀ x ∈ rest, ∀ i, x.dst.entry ≠ some i) → unpaired s c →
    let takes := fun (bs : List Byte) => Happens (.loadSatisfied c h l.id src) s (fun t =>
      let w := t.strandAt c h
      w.rg d = heldG d (readAs ty (BitVec.ofNat 64 (leNat bs))) ∧ (∀ n, n ≠ d → w.rg n = u.rg n) ∧
      (∀ n, w.rv n = u.rv n) ∧ (∀ n, w.rp n = u.rp n) ∧ w.pc = u.pc ∧
      w.loads = rest.map (fun x => if x.slot = l.slot then { x with part := true } else x) ∧ w.buf = u.buf ∧
      w.pend = u.pend.filter (fun x => x.1 != l.id) ∧ w.gates = u.gates.filter (fun x => x != l.id) ∧ t.mem = s.mem ∧
      (l.acq = true → l.scope = .mod → s.nextId ≤ w.voidP ∧ s.nextId ≤ w.voidC))
    (l.split = false → u.buf = [] → (∀ x ∈ l.locs, x.at' = .ls ∧ k.bad.contains (x.addr / 8) = false) →
      takes (l.locs.map (fun x => memGet k.ls x.addr))) ∧
    (l.split = true → u.buf = [] → ∀ x, l.locs[src]? = some x → x.at' = .ls → k.bad.contains (x.addr / 8) = false →
      (∀ y ∈ l.got, y.1 ≠ src) → l.got.length + 1 < l.locs.length →
      Happens (.loadSatisfied c h l.id src) s (fun t => OneStrand s t c h ∧ t.mem = s.mem ∧
        (t.strandAt c h).loads = { l with got := l.got ++ [(src, memGet k.ls x.addr)] } :: rest)) ∧
    (l.split = false → u.buf = [] → src = 0 → (∀ x ∈ l.locs, ∃ p, x.at' = .mem p) → (∀ e, (s.core e).outq = []) →
      takes (l.locs.map (fun x => memGet s.mem x.addr))) ∧
    (∀ (e : BufEntry) (bs : List Byte), l.split = false → u.buf = [e] → e.id < l.id → e.op = .store → e.mask = [] → l.locs ≠ [] →
      (e.bytes.map Prod.fst).Nodup → bs.length = l.locs.length → (∀ y ∈ l.locs.zip bs, y ∈ e.bytes) →
      (∀ x ∈ l.locs, x.at' ≠ .stray ∧ ∀ i j, x.at' = .peer i j → x.addr < 2 ^ 20) → takes bs) ∧
    (∀ e f : BufEntry, u.buf = [e, f] → f.op = .fence true → e.op = .store → e.id < f.id → f.id < l.id →
      Sleeps (.loadSatisfied c h l.id src) s)

/-- R202, R224, R255, R291: a store to memory whose home is the core's own cluster is performed in one step; one whose home
is a hub first reaches the cluster's point, where its bytes stand in the cluster's line, then its home. An append to a
work list joins its tail and answers 0, and of memory only the list's own area may change; to a full list it answers 1. -/
def Sys2Proof.Claims.storesPerformedRule : Prop :=
  ∀ (s : State) (c : Nat) (o : OutEntry),
    let k := s.core c
    let id := o.e.id
    k.outq = [o] → o.held = false → o.go = true → (s.cluster (c / 36)).inject.getLsbD 63 = false →
    let alone := fun t : State => (∀ h, SameRegs (s.strandAt c h) (t.strandAt c h) ∧
      (t.strandAt c h).pc = (s.strandAt c h).pc) ∧ (t.core c).ls = k.ls ∧ ∀ e, e ≠ c → t.core e = s.core e
    (o.e.op = .store → o.e.mask = [] → o.e.bytes ≠ [] → o.e.bytes.length ≤ 64 → (o.e.bytes.map Prod.fst).Nodup →
      ((∀ y ∈ o.e.bytes, y.1.at' = .mem (.cluster (c / 36))) → o.stage = 0 →
        Happens (.storePerformed c id) s (fun t => alone t ∧ (t.core c).outq = [] ∧ Written (placed o.e.bytes) s.mem t.mem)) ∧
      ((∀ y ∈ o.e.bytes, y.1.at' = .mem .hub) → o.stage = 0 →
        Happens (.storePerformed c id) s (fun t => alone t ∧
            (t.core c).outq = [{ o with stage := 1, turn := s.nextId }] ∧ t.mem = s.mem ∧
          ((s.cluster (c / 36)).cache = [] → ∀ y ∈ o.e.bytes, ∃ x, sfind (t.cluster (c / 36)).cache (y.1.addr / 64) = some x ∧
            x.data[y.1.addr % 64]? = some y.2))) ∧
      ((∀ y ∈ o.e.bytes, y.1.at' = .mem .hub) → o.stage = 1 → s.behind c o = false →
        Happens (.storePerformed c id) s (fun t => alone t ∧ (t.core c).outq = [] ∧ Written (placed o.e.bytes) s.mem t.mem))) ∧
    (∀ (list : Nat) (item : Word) (d : Fin 32), o.e.op = .wapp list item d → o.stage = 0 → d ≠ 0 →
      (id, RegName.g d) ∈ (s.strandAt c o.strand).pend →
      let x := s.ctx o.ctx
      let n := (sget [] x.lists list).length
      let full := decide (2 ^ x.lcap ≤ n)
      (full = false → s.listFault o.ctx true list n = none) →
      Happens (.storePerformed c id) s (fun t => (t.strandAt c o.strand).rg d = (if full then 1 else 0) ∧
        (t.core c).outq = [] ∧ (full = true → t.mem = s.mem) ∧
        (∀ a, outsideArea s o.ctx (x.dword 7 + x.ncores * 2 ^ 20 + 8 * (list * 2 ^ x.lcap)) (8 * 2 ^ x.lcap) a →
          memGet t.mem a = memGet s.mem a) ∧ (∀ n, n ≠ list → sget [] (t.ctx o.ctx).lists n = sget [] x.lists n) ∧
        sget [] (t.ctx o.ctx).lists list = sget [] x.lists list ++ (if full then [] else [item])))

/-- R138, R226: a bound read stream takes its next element from local store, at its own pace and in order. A packet
that a core holds takes the next slot once the cluster's queue has room and no core holds one sent before it, and its
first half goes to the supervisor. -/
def Obligations.ReadsAheadAndAdmits : Prop :=
  (∀ (s : State) (c : Nat) (q : Fin 4) (p : Port),
    let k := s.core c
    let j := p.pos + p.ahead.length
    k.ports[q] = some p → unpaired s c → p.ty.bits ≤ 32 → (k.strands[p.strand]).buf = [] → k.bad = [] →
    (p.wr = false → j < p.n0 * p.n1 → (∀ i : Fin 8, k.wins[i] = none) →
      Happens (.streamReadAhead c q) s (fun t =>
        (t.core c).ports[q] = some { p with ahead := p.ahead ++ [(inLane p.ty
          (leNat ((List.range (max (p.ty.bits / 8) 1)).map (fun i => lsByte k (elemByte p j + i))) / 2 ^ elemBit p j)).toNat] } ∧
        (∀ r : Fin 4, r ≠ q → (t.core c).ports[r] = k.ports[r]) ∧ (t.core c).strands = k.strands ∧ (t.core c).ls = k.ls ∧
        (∀ e, e ≠ c → t.core e = s.core e) ∧ t.mem = s.mem)) ∧
    (p.wr = true ∨ p.n0 * p.n1 ≤ j → Sleeps (.streamReadAhead c q) s)) ∧
  (∀ (s : State) (c : Nat) (p : Packet) (ps : List Packet),
    let u := c / 36
    let x := s.cluster u
    let sup := 36 * u + x.sup
    (s.core c).held = p :: ps → (p.headD 0).toNat / 2 ^ 16 % 256 = 0 → x.pqHead < 64 →
    ((∀ q ∈ s.heldIn u, packetSeq p ≤ packetSeq q) → x.pqCount < 64 → sup ≠ c → (s.core sup).rq.length < 32 →
        (s.core sup).ovf = [] →
      Happens (.packetQueueAdmit c) s (fun t => (t.core c) = { s.core c with held := ps } ∧
        (t.cluster u).slots.toList[(x.pqHead + x.pqCount) % 64]? = some p ∧ (t.cluster u).pqCount = x.pqCount + 1 ∧
        (t.core sup).rq = (s.core sup).rq ++ [⟨2, false, 0, 0xFFFF, (p.take 4).flatMap (fun w => leBytes 8 w.toNat)⟩] ∧
        t.mem = s.mem)) ∧
    ((64 ≤ x.pqCount ∨ ∃ q ∈ s.heldIn u, packetSeq q < packetSeq p) → Sleeps (.packetQueueAdmit c) s))

/-- Buffer entries drain in their order, a release after what its strand has sent outward, and stores are performed at
their home: the two statements above. Where the manual leaves the point open, the clause states the model's choice
(log 25, 26, 55). -/
def Obligations.StoresTravel : Prop := storesDrainRule ∧ storesPerformedRule

/-! ### The machine's own moves: supervision, messages, barriers -/

namespace Sys2Proof.Claims

/-- The one entry that core `c` has sent outward is a store of the bytes of `n` at byte `off` of a place. -/
def SendsDword (s : State) (c : Nat) (o : OutEntry) (p : Place) (off len n : Nat) : Prop :=
  (s.core c).outq = [o] ∧ o.held = false ∧ o.go = true ∧ o.stage = 0 ∧ o.e.op = .store ∧ o.e.mask = [] ∧
  o.e.bytes = (List.range len).map (fun j => (⟨p, off + j⟩, BitVec.ofNat 8 (n / 256 ^ j)))

/-- The position lies in a containment rectangle (R238): columns [2:0] to [8:6], rows [5:3] to [11:9]. -/
def heldBy (r : Word) (p : Nat) : Prop :=
  r.toNat % 8 ≤ p % 6 ∧ p % 6 ≤ r.toNat / 64 % 8 ∧ r.toNat / 8 % 8 ≤ p / 6 ∧ p / 6 ≤ r.toNat / 512 % 8

end Sys2Proof.Claims

/-- R226, R230, R238, R239: what a write of the supervision page does once it reaches it. A write of `pqstat` takes
the oldest packet off; a containment register takes a rectangle that holds neither the supervisor nor a handler, and
with `on` each of its cores freezes and each gang with a core there ends; `inject` is ignored unless injection is
enabled, and its kind 2 makes the named word uncorrectable. Where the manual leaves the point open, the clause states
the model's choice (log 39, 40). -/
def Obligations.SupervisionWrites : Prop :=
  ∀ (s : State) (c : Nat) (o : OutEntry) (x : Word),
    let u := c / 36
    let k := s.cluster u
    let sent := fun t : State => (t.core c).outq = [] ∧ t.mem = s.mem
    (SendsDword s c o .sup 0 8 x.toNat → k.pqHead < 64 → Happens (.pqstatWrite c o.e.id) s (fun t => sent t ∧
      t.cluster u = { k with
        pqHead := (if k.pqCount = 0 then k.pqHead else (k.pqHead + 1) % 64)
        pqCount := k.pqCount - 1
        mdrop := k.mdrop && !x.getLsbD 14 })) ∧
    (∀ i : Fin 4, SendsDword s c o .sup (0x40 + 8 * i.val) 8 x.toNat →
      let bits := x &&& 0x8000000000000FFF
      let legal := x.toNat % 8 ≤ x.toNat / 64 % 8 ∧ x.toNat / 64 % 8 ≤ 5 ∧ x.toNat / 8 % 8 ≤ x.toNat / 512 % 8 ∧
        x.toNat / 512 % 8 ≤ 5 ∧ ¬ heldBy x k.sup ∧ ∀ j p, k.entry j = some p → ¬ heldBy x p
      (¬ legal → Happens (.containmentWrite c o.e.id) s (fun t => sent t ∧ t.cluster u = k)) ∧
      (legal → x.getLsbD 63 = false → Happens (.containmentWrite c o.e.id) s (fun t => sent t ∧
        t.cluster u = { k with cont := k.cont.set i bits } ∧ ∀ e, e ≠ c → t.core e = s.core e)) ∧
      (legal → x.getLsbD 63 = true → ¬ heldBy x (c % 36) → Happens (.containmentWrite c o.e.id) s (fun t => sent t ∧
        (t.cluster u).cont = k.cont.set i bits ∧
        (∀ p, p < 36 → heldBy x p → (t.core (36 * u + p)).frozen = true ∧ (t.core (36 * u + p)).task = none ∧
          ∀ h : Fin 11, (t.core (36 * u + p)).strands[h].buf = []) ∧
        (∀ y ∈ t.tasks, y.saved = [] → ∀ p, p < 36 → heldBy x p → 36 * u + p ∈ y.cores →
          (s.core (36 * u + p)).task ≠ some y.id) ∧
        (∀ y p, s.tasks = [y] → y.saved = [] → p < 36 → heldBy x p → 36 * u + p ∈ y.cores →
          (s.core (36 * u + p)).task = some y.id →
          (t.ctx y.ctx).fails = (s.ctx y.ctx).fails ++ [⟨y.record.origin, 1, 0, y.lnums⟩])))) ∧
    (SendsDword s c o .sup 0x60 8 x.toNat →
      (s.injectOk = false → Happens (.injectWrite c o.e.id) s (fun t => sent t ∧ t.cluster u = k ∧
        ∀ e, e ≠ c → t.core e = s.core e)) ∧
      (∀ p w, s.injectOk = true → x.getLsbD 63 = true → x.toNat / 2 ^ 59 % 16 = 2 → x.toNat / 2 ^ 53 % 64 = p → p < 36 →
        x.toNat % 2 ^ 17 = w → 8 * w < s.lsCap (36 * u + p) → Happens (.injectWrite c o.e.id) s (fun t => sent t ∧
          w ∈ (t.core (36 * u + p)).bad ∧ (t.cluster u).inject.getLsbD 63 = false ∧
          ∀ e, e ≠ c → e ≠ 36 * u + p → t.core e = s.core e)))

/-- R219, R231, R232, R235: what a write of a debug window or a vein cell does. Through the window of a frozen core
its local store and the g registers of a live strand take the value; a core that is not frozen takes none. A cell's V
is written whole, its extension the sign; a write of the anchor dword clears it. A halted cluster that is reset starts
again with every core free and every cell at 0. Where the manual leaves the point open, the clause states the model's
choice (log 38, 41). -/
def Obligations.WindowAndCellWrites : Prop :=
  ∀ (s : State) (c : Nat) (o : OutEntry),
    let u := c / 36
    let k := s.cluster u
    (∀ (p off : Nat) (x : Word), p < 36 → 36 * u + p ≠ c → SendsDword s c o (.dbg p) off 8 x.toNat →
      let y := s.core (36 * u + p)
      let writes := fun post : State → Prop => Happens (.debugWindowWrite c o.e.id) s (fun t => (t.core c).outq = [] ∧
        t.mem = s.mem ∧ (∀ e, e ≠ c → e ≠ 36 * u + p → t.core e = s.core e) ∧ post t)
      (y.frozen = false → writes (fun t => t.core (36 * u + p) = y)) ∧
      (y.frozen = true → off % 8 = 0 → off < s.lsCap (36 * u + p) → writes (fun t =>
        Written ((List.range 8).map (fun j => (off + j, BitVec.ofNat 8 (x.toNat / 256 ^ j)))) y.ls (t.core (36 * u + p)).ls ∧
        (t.core (36 * u + p)).strands = y.strands)) ∧
      (∀ (h : Fin 11) (n : Fin 32), y.frozen = true → y.strands[h].live = true → off = 0x80000 + 0x800 * h.val + 8 * n.val →
        writes (fun t => let w := (t.core (36 * u + p)).strands[h]
          w.rg n = heldG n x ∧ (∀ m, m ≠ n → w.rg m = y.strands[h].rg m) ∧ w.pc = y.strands[h].pc ∧
          (∀ j : Fin 11, j ≠ h → (t.core (36 * u + p)).strands[j] = y.strands[j]) ∧
          (t.core (36 * u + p)).ls = y.ls))) ∧
    (∀ (n : Nat) (v : BitVec 128), SendsDword s c o .cell (32 * n) 16 v.toNat →
      Happens (.veinCellVWrite c o.e.id) s (fun t => (t.core c).outq = [] ∧ t.mem = s.mem ∧
        sget {} (t.cluster u).cells n = { sget {} k.cells n with
          w := { (sget {} k.cells n).w with s := v.signExtend 160 } } ∧
        ∀ m, m ≠ n → sget {} (t.cluster u).cells m = sget {} k.cells m)) ∧
    (∀ (n : Nat) (x : Word), SendsDword s c o .cell (32 * n + 16) 8 x.toNat →
      Happens (.veinCellAnchorWrite c o.e.id) s (fun t => (t.core c).outq = [] ∧ t.mem = s.mem ∧
        (sget {} (t.cluster u).cells n).w = ⟨0, x.setWidth 8, x.getLsbD 8, x.getLsbD 9⟩ ∧
        ∀ m, m ≠ n → sget {} (t.cluster u).cells m = sget {} k.cells m)) ∧
    ((k.halt = true → (∀ p, p < 36 → (s.core (36 * u + p)).outq = []) → Happens (.clusterReset u) s (fun t =>
        (t.cluster u).halt = false ∧ (∀ p, p < 36 → t.core (36 * u + p) = {}) ∧
        (∀ n, sget {} (t.cluster u).cells n = {}) ∧ (t.cluster u).harvest = k.harvest ∧ (t.cluster u).hchain = 0 ∧
        (∀ e, e / 36 ≠ u → t.core e = s.core e) ∧ t.mem = s.mem)) ∧
     (k.halt = false → Sleeps (.clusterReset u) s))

/-- R210, R211: a message that reaches its receiver joins the end of its queue; it waits before a full receiver, and one for
a logical core that no task holds is discarded. After its time before a full receiver its sender traps with send-timeout
and the message is withdrawn. -/
def Sys2Proof.Claims.messagesArriveRule : Prop :=
  ∀ (s : State) (c n : Nat) (m : Msg) (o : OutEntry),
    (s.core c).outq = [o] → o.held = false → o.go = true → o.e.op = .send n m →
    (∀ r, o.stage = 0 → s.coreByLnum o.ctx n = some r → r ≠ c →
      ((s.core r).rq.length < 32 → (s.core r).ovf = [] → Happens (.messagePlace c o.e.id) s (fun t =>
        t.core r = { s.core r with rq := (s.core r).rq ++ [m] } ∧ (t.core c).outq = [] ∧ t.mem = s.mem ∧
        ∀ e, e ≠ r → e ≠ c → t.core e = s.core e)) ∧
      (32 ≤ (s.core r).rq.length → (s.core r).ovf.length < 2048 →
        s.overflowFault (s.core r).ctx true (s.core r).lnum.toNat (s.core r).ovf.length = none →
            Happens (.messagePlace c o.e.id) s (fun t =>
        t.core r = { s.core r with ovf := (s.core r).ovf ++ [m] } ∧ (t.core c).outq = [] ∧
        ∀ a, outsideArea s (s.core r).ctx ((s.ctx (s.core r).ctx).dword 7 + (s.core r).lnum.toNat * 2 ^ 20 + 0xF0000) 0x10000 a →
          memGet t.mem a = memGet s.mem a)) ∧
      (32 ≤ (s.core r).rq.length → 2048 ≤ (s.core r).ovf.length → Happens (.messagePlace c o.e.id) s (fun t =>
        t.core r = s.core r ∧ (t.core c).outq = [{ o with stage := 1, turn := s.nextId }]))) ∧
    (o.stage = 0 → s.coreByLnum o.ctx n = none → s.savedByLnum o.ctx n = none → Happens (.messagePlace c o.e.id) s (fun t =>
      (t.core c).outq = [] ∧ ∀ e, e ≠ c → t.core e = s.core e)) ∧
    (o.stage = 1 → o.task = (s.core c).task → (s.core c).frozen = false → s.pairs = [] → c % 36 ≠ (s.cluster (c / 36)).sup →
      (s.cluster (c / 36)).chainIndex (c % 36) = none → Happens (.sendStall c o.e.id) s (fun t => (t.core c).outq = [] ∧
          (t.core c).frozen = true ∧
        (t.core c).trapStrand.toNat = o.strand.val ∧ t.mem = s.mem ∧
        (t.strandAt c o.strand).pc = (s.strandAt c o.strand).pc ∧ (t.strandAt c o.strand).wait = .none)) ∧
    (o.stage = 0 → Sleeps (.sendStall c o.e.id) s)

/-- R203, R204, R206: the open generation of a domain's barrier is released once every member has arrived: a new generation
opens, the flags of all that arrived stand merged for those that waited, and the last `dphase` among the arrivals sets the
phase of every core that arrived. While a member is missing nothing is released. -/
def Sys2Proof.Claims.barriersReleaseRule : Prop :=
  ∀ (s : State) (b : Barrier) (a : Arrival) (as : List Arrival),
    s.barriers = [b] → b.lvl < 4 → b.arrived = a :: as →
    let there := fun n => ∃ z ∈ b.arrived, z.lnum = n
    let members := s.domainMembers b.ctx b.lvl (b.key.toNat, b.place)
    ((∀ n ∈ members, there n) → Happens (.barrierRelease b.dom) s (fun t =>
      (∃ done, t.barriers = [{ b with gen := b.gen + 1, arrived := [], done := done }] ∧
        ∀ i, done.getLsbD i = b.arrived.any (fun z => z.flags.getLsbD i)) ∧
      t.mem = s.mem ∧ ((∀ z ∈ b.arrived, z.phase = none) → ∀ e, t.core e = s.core e) ∧
      (∀ pre z post p, b.arrived = pre ++ z :: post → z.phase = some p → (∀ w ∈ post, w.phase = none) →
        ∀ w ∈ b.arrived, ∀ c, s.coreByLnum b.ctx w.lnum = some c →
          t.core c = { s.core c with late := { (s.core c).late with comm := p } }))) ∧
    ((∃ n ∈ members, ¬ there n) → Sleeps (.barrierRelease b.dom) s)

/-- A message reaches its receiver, waits or is discarded; a barrier is released by its last member: the statements
above. Where the manual leaves the point open, the clause states the model's choice (log 30, 32). -/
def Obligations.MessagesAndBarriers : Prop := messagesArriveRule ∧ barriersReleaseRule

/-! ### The engine's own moves -/

namespace Sys2Proof.Claims

/-- A vein after the addition of `n * 2^e` (R77, R78): the sum takes the floor of the value in the vein's unit
2^(anchor-64); a remainder sets `vx`; a quotient of 2^127 or more sets `ho` and adds nothing. -/
def addedTo (w : Vein) (n e : Int) : Vein :=
  let up := e + 64 - w.anchor.toInt
  let q : Int := if 0 ≤ up then n * (2 ^ up.toNat : Nat) else n / (2 ^ (-up).toNat : Nat)
  let exact : Bool := decide (0 ≤ up) || decide (n % (2 ^ (-up).toNat : Nat) = 0)
  let w := { w with vx := w.vx || !exact }
  if 2 ^ 127 ≤ q.natAbs then { w with ho := true } else { w with s := w.s + BitVec.ofInt 160 q }

/-- The exact value `n * 2^e`. -/
def dyadic (n e : Int) : XReal := (XReal.ofInt n).shift e

/-- The event leaves EQ0 without its head and the vein of `w` as `v`; it changes nothing else of the core but what
`rest` says, and nothing beyond the core. -/
def Settles (i : Instr) (s : State) (c : Nat) (os : List Eq0Op) (post : Core → Prop) : Prop :=
  Happens i s (fun t =>
    let k := s.core c
    let k' := t.core c
    k'.eq0 = os ∧ k'.strands = k.strands ∧ k'.tabs = k.tabs ∧ k'.cist = k.cist ∧ k'.err = k.err ∧
    (∀ e, e ≠ c → t.core e = s.core e) ∧ t.mem = s.mem ∧ post k')

end Sys2Proof.Claims

/-- R77, R78, R171, R175, R185, R188, R189: the vein updates of EQ0, each at one moment. A row adds its exact value;
`lclr` clears and sets the anchor; `lwr` writes the sum, its extension the sign, and the status; `lwr.add` adds a raw
value at its own anchor. An armed `lpert` acts on the next of them, once. Where the manual leaves the point open, the
clause states the model's choice (log 33). -/
def Obligations.VeinUpdates : Prop :=
  ∀ (s : State) (c : Nat) (o : Eq0Op) (os : List Eq0Op) (w : Fin 64),
    let k := s.core c
    k.eq0 = o :: os → (∀ x ∈ os, x.id ≠ o.id) → o.started = true →
    let sets := fun (v : Vein) => Settles (.veinUpdate c) s c os (fun k' => k'.veins = k.veins.set w v ∧ k'.armed = none ∧
      k'.ls = k.ls)
    (k.armed = none →
      (∀ n e, o.kind = .rows false [⟨w, dyadic n e⟩] → sets (addedTo k.veins[w] n e)) ∧
      (∀ b, o.kind = .rows false [⟨w, .nan b⟩] ∨ o.kind = .rows false [⟨w, .inf b⟩] → sets { k.veins[w] with ho := true }) ∧
      (∀ n e m f (w' : Fin 64), w' = w + 1 → o.kind = .rows true [⟨w, dyadic n e⟩, ⟨w', dyadic m f⟩] →
        Settles (.veinUpdate c) s c os (fun k' =>
          k'.veins = (k.veins.set w (addedTo k.veins[w] n e)).set w' (addedTo k.veins[w'] m f) ∧ k'.ls = k.ls)) ∧
      (∀ a, o.kind = .clr w a → sets ⟨0, a, false, false⟩) ∧
      (∀ v st, o.kind = .wr w v st false → sets ⟨v.signExtend 160, st.setWidth 8, st.getLsbD 8, st.getLsbD 9⟩) ∧
      (∀ v st, o.kind = .wr w v st true →
        let y := addedTo k.veins[w] v.toInt ((st.setWidth 8 : BitVec 8).toInt - 64)
        sets { y with vx := y.vx || st.getLsbD 8, ho := y.ho || st.getLsbD 9 })) ∧
    (∀ (cmd : Word) n e, k.armed = some cmd → o.kind = .rows false [⟨w, dyadic n e⟩] →
      let y := addedTo k.veins[w] n e
      sets (if cmd.getLsbD 0 then y
        else { y with s := y.s + (cmd.extractLsb' 32 32).signExtend 160, ho := y.ho || cmd.getLsbD 1 })) ∧
    (∀ cmd, o.kind = .pert cmd → Settles (.lpertArm c) s c os (fun k' => k'.armed = some cmd ∧ k'.veins = k.veins ∧
      k'.ls = k.ls))

/-- R171, R173, R182: a strand that waits for a place in EQ0 makes its next attempt; the oldest operation starts when the
planes it needs are free; a started `lsort` writes its record at one moment. -/
def Sys2Proof.Claims.engineOperationsRule : Prop :=
  (∀ (s : State) (c : Nat) (h : Fin 11), let k := s.core c
    (k.frozen = false → k.strands[h].live = true → k.eq0.length < 32 → k.eq0.all (fun o => !o.kind.writesLs) = true →
      k.strands[h].blk = 0 → k.slot < k.strands[h].stamp →
      let w : Strand := { k.strands[h] with stamp := k.slot + 1 }
      Happens (.eq0Accept c h) s (fun t => t.core c = { k with strands := k.strands.set h w } ∧
        ∀ e, e ≠ c → t.core e = s.core e)) ∧
    (32 ≤ k.eq0.length ∨ k.frozen = true ∨ k.strands[h].stamp ≤ k.slot → Sleeps (.eq0Accept c h) s)) ∧
  (∀ (s : State) (c : Nat) (o : Eq0Op) (os : List Eq0Op), let k := s.core c
    k.eq0 = o :: os → (∀ x ∈ os, x.id ≠ o.id) → k.lprog.sus = false →
    (o.started = false → (∀ x ∈ os, x.started = false) →
      (o.kind = .plan → Settles (.eq0OpStart c) s c os (fun k' => k'.veins = k.veins ∧ k'.ls = k.ls)) ∧
      ((∀ j, o.kind ≠ .joint j) → o.kind ≠ .plan →
        Settles (.eq0OpStart c) s c ({ o with started := true } :: os) (fun k' => k'.veins = k.veins ∧ k'.ls = k.ls)) ∧
      (∀ j, o.kind = .joint j → s.jointCores c j.rot = [c] → k.returned = false → j.start < j.n →
        Settles (.eq0OpStart c) s c ({ o with started := true } :: os) (fun k' => k'.veins = k.veins ∧ k'.ls = k.ls ∧
          k'.lprog = { k.lprog with act := true, sus := false, total := j.n, done := j.start
                                    op := if j.rot then 0xCA else 0xC9 })) ∧
      (∀ j, o.kind = .joint j → s.jointCores c j.rot = [c] → k.returned = false → j.n ≤ j.start →
        Settles (.eq0OpStart c) s c os (fun k' => k'.veins = k.veins ∧ k'.ls = k.ls ∧ k'.lprog.act = false))) ∧
    (∀ out, o.started = true → o.kind = .sort out →
      (∀ x y, os = [x] → x.started = false → x.kind = .rows false y → Sleeps (.eq0OpStart c) s) ∧
      ((out.map Prod.fst).Nodup → (∀ y ∈ out, y.1.at' = .ls) → k.pairOf = none →
        Settles (.lsortComplete c) s c os (fun k' => k'.veins = k.veins ∧ Written (placed out) k.ls k'.ls))) ∧
    (o.started = false → (∀ x ∈ os, x.started = false) → Sleeps (.lsortComplete c) s ∧ Sleeps (.veinUpdate c) s))

/-- R190, R192, R213 to R216, R218: a step of a joint operation of one core adds the contribution of the step's record and
group, and moves the progress on; `lrot` also moves the slots on. The last step ends the operation. A malformed record
stops it: EQ0 is in the error state with cause 0x21 and the record's offset, and no vein changes. A suspended operation
whose fill has been serviced resumes. -/
def Sys2Proof.Claims.jointStepsRule : Prop :=
  ∀ (s : State) (c : Nat) (o : Eq0Op) (j : JointOp) (os : List Eq0Op),
    let k := s.core c
    let i := k.lprog.done
    let m := if j.rot then i % 2 else i
    let act := (List.range (actBytes j.ty)).map (fun b => lsByte k (j.act + m * actPitch j.ty + b))
    let rcd := (List.range j.fmt.bytes).map (fun b => lsByte k (j.rcd + m * j.fmt.bytes + b))
    k.eq0 = o :: os → o.kind = .joint j → o.started = true → s.gangOf c = (1, [c]) → k.bad = [] →
    (∀ n : Fin 8, k.wins[n] = none) → i < j.n → (s.cluster (c / 36)).inject.getLsbD 63 = false →
    (k.lprog.sus = false → k.armed = none → (ladderOf j.fmt rcd).malformed = false →
      Happens (.kStep c) s (fun t =>
        let k' := t.core c
        k'.veins = k.veins.set j.w (k.veins[j.w].add (contribution j.fmt j.ty j.mode act rcd)) ∧ k'.lprog.done = i + 1 ∧
        k'.strands = k.strands ∧ k'.err = k.err ∧ t.mem = s.mem ∧ (∀ e, e ≠ c → t.core e = s.core e) ∧
        (i + 1 < k.lprog.total → k'.eq0 = k.eq0 ∧ k'.lprog.act = k.lprog.act) ∧
        (k.lprog.total ≤ i + 1 → k'.eq0 = os ∧ k'.lprog.act = false) ∧
        (j.rot = false → k'.ls = k.ls) ∧
        (j.rot = true → j.act + 2 * actPitch j.ty ≤ j.rcd → j.rcd + 2 * j.fmt.bytes ≤ 4096 * k.size.toNat →
          4096 * k.size.toNat ≤ 2 ^ (k.lspan.toNat + 12) → k.size.toNat ≤ 128 →
          (∀ b, b < actPitch j.ty → lsByte k' (j.act + (i + 1) % 2 * actPitch j.ty + b) = lsByte k (j.act + m * actPitch j.ty + b)) ∧
          (∀ b, b < j.fmt.bytes → lsByte k' (j.rcd + (i + 1) % 2 * j.fmt.bytes + b) = lsByte k (j.rcd + m * j.fmt.bytes + b))))) ∧
    (k.lprog.sus = false → (ladderOf j.fmt rcd).malformed = true → k.err[(0 : Fin 4)] = none → os = [] →
      Happens (.kStep c) s (fun t => (t.core c).veins = k.veins ∧ (t.core c).ls = k.ls ∧ (t.core c).eq0 = [] ∧
        (t.core c).err[(0 : Fin 4)] = some ⟨0x21, j.rcd + m * j.fmt.bytes, 0⟩ ∧ (t.core c).lprog.act = false)) ∧
    (k.lprog.sus = true → Happens (.multistepResume c) s (fun t =>
      t.core c = { k with lprog := { k.lprog with sus := false } } ∧ ∀ e, e ≠ c → t.core e = s.core e)) ∧
    (k.lprog.sus = false → Sleeps (.multistepResume c) s)

/-- How EQ0 starts its operations and a joint operation takes its steps: the two statements above. Where the manual
leaves the point open, the clause states the model's choice (log 33, 34). -/
def Obligations.EngineOperations : Prop := engineOperationsRule ∧ jointStepsRule

/-! ### The copy engines' and the Lapidary's own moves -/

namespace Sys2Proof.Claims

/-- An element of a copy: `i0` and row in the handle, and its local position (R271, R275). -/
structure Elem where
  i0 : Nat
  row : Nat
  pos : Nat
  deriving DecidableEq, Repr

/-- Bit `n` of a byte store, and the number that `b` bits from there on hold. -/
def storeBit (m : Sparse Byte) (n : Nat) : Bool := (memGet m (n / 8)).getLsbD (n % 8)
def bitsNat (m : Sparse Byte) (n b : Nat) : Nat := (List.range b).foldr (fun r a => (storeBit m (n + r)).toNat + 2 * a) 0

/-- The first bit of an element in its handle, whose rows begin on sectors (R82), and in local store from `base` on (R81). -/
def handleBit (h : Handle) (x : Elem) : Nat := 512 * ((h.e[0] * h.bits + 511) / 512) * x.row + x.i0 * h.bits
def localBit (h : Handle) (base : Nat) (x : Elem) : Nat := 8 * base + h.bits * x.pos

/-- The bits of each of the elements are those of the handle, and every other bit is as it was. -/
def MovesIn (h : Handle) (base : Nat) (xs : List Elem) (m m' : Sparse Byte) : Prop :=
  (∀ x ∈ xs, ∀ r, r < h.bits → storeBit m' (localBit h base x + r) = storeBit h.data (handleBit h x + r)) ∧
  ∀ n, (∀ x ∈ xs, n < localBit h base x ∨ localBit h base x + h.bits ≤ n) → storeBit m' n = storeBit m n

/-- In the handle no bit but those of the elements differs. -/
def OnlyThese (h : Handle) (xs : List Elem) (data : Sparse Byte) : Prop :=
  ∀ n, (∀ x ∈ xs, n < handleBit h x ∨ handleBit h x + h.bits ≤ n) → storeBit data n = storeBit h.data n

/-- The elements take the local bits; or, of an integer type, each takes the sum, saturated (R277). -/
def MovesOut (h : Handle) (base : Nat) (xs : List Elem) (m data : Sparse Byte) : Prop :=
  OnlyThese h xs data ∧
  ∀ x ∈ xs, ∀ r, r < h.bits → storeBit data (handleBit h x + r) = storeBit m (localBit h base x + r)
def AddsOut (h : Handle) (base : Nat) (xs : List Elem) (m data : Sparse Byte) : Prop :=
  OnlyThese h xs data ∧
  ∀ x ∈ xs, let at' := fun (m : Sparse Byte) n => intAs h.ty (BitVec.ofNat 64 (bitsNat m n h.bits))
    at' data (handleBit h x) = clampTo h.ty (at' h.data (handleBit h x) + at' m (localBit h base x))

/-- The elements of a box: where each lies in the handle, and its local position (R271); `t`: i0 and i1 swapped. -/
structure Spot where
  i0 : Nat
  i1 : Nat
  i2 : Nat
  i3 : Nat
  pos : Nat
  deriving DecidableEq, Repr

def spots (o e : Vector Nat 4) (p : Vector Nat 3) (lsel : Nat) (t : Bool) : List Spot :=
  (List.range (e[0] * e[1] * e[2] * e[3])).map (fun n =>
    let x0 := n % e[0]
    let x1 := n / e[0] % e[1]
    let x2 := n / e[0] / e[1] % e[2]
    let x3 := n / e[0] / e[1] / e[2]
    ⟨o[0] + x0, o[1] + x1, o[2] + x2, o[3] + x3, lsel + (if t then x1 + p[0] * x0 else x0 + p[0] * x1) + p[1] * x2 + p[2] * x3⟩)

/-- The spot lies in the handle, and the element there. -/
def insideOf (h : Handle) (x : Spot) : Bool :=
  decide (x.i0 < h.e[0]) && decide (x.i1 < h.e[1]) && decide (x.i2 < h.e[2]) && decide (x.i3 < h.e[3])
def spotElem (h : Handle) (x : Spot) : Elem := ⟨x.i0, x.i1 + h.e[1] * (x.i2 + h.e[2] * x.i3), x.pos⟩

/-- The elements of a box and of a list of rows with local pitch `q`, in copy order, each with whether it lies inside. -/
def boxList (h : Handle) (o e : Vector Nat 4) (p : Vector Nat 3) (lsel : Nat) (t : Bool) : List (Elem × Bool) :=
  (spots o e p lsel t).map (fun x => (spotElem h x, insideOf h x))
def rowList (h : Handle) (q : Nat) (idx : List Nat) : List (Elem × Bool) :=
  (List.range idx.length).flatMap (fun j => (List.range h.e[0]).map (fun i =>
    (⟨i, idx.getD j 0, j * q + i⟩, decide (idx.getD j 0 < h.e[1] * h.e[2] * h.e[3]))))
def insides (xs : List (Elem × Bool)) : List Elem := (xs.filter Prod.snd).map Prod.fst

/-- The elements lie in the core's part of local store, which its window spans. -/
def FitsIn (k : Core) (h : Handle) (base : Nat) (xs : List Elem) : Prop :=
  (∀ x ∈ xs, localBit h base x + h.bits ≤ 8 * 4096 * k.size.toNat) ∧ k.size.toNat ≤ 128 ∧
  4096 * k.size.toNat ≤ 2 ^ (k.lspan.toNat + 12)

/-- A copy of core `c` at the head of its queue, with a status register that waits for it, on a live handle of this
module with nothing poisoned and no window absent. -/
def CopyReady (s : State) (c : Nat) (o : CopyOp) (rest : List CopyOp) (d : Fin 32) (h : Handle) : Prop :=
  let k := s.core c
  (if o.queue = 2 then k.eq2 else k.eq1) = o :: rest ∧ (∀ x ∈ k.eq1 ++ k.eq2, x.id = o.id → x = o) ∧ o ∉ rest ∧
  k.bad = [] ∧ k.weak = [] ∧ (∀ i : Fin 8, k.wins[i] = none) ∧ s.pairs = [] ∧ o.dst = some d ∧ d ≠ 0 ∧
  (o.id, RegName.g d) ∈ (s.strandAt c o.strand).pend ∧
  s.handles = [h] ∧ h.v = o.h ∧ h.freed = false ∧ h.imported = none ∧ h.outside = none ∧ h.bad = [] ∧
  (s.cluster (c / 36)).inject.getLsbD 63 = false

/-- The copy has ended with status `x`: its register holds it and no longer waits, the queue goes on, and the order of
the handle is free. -/
def CopyDone (s t : State) (c : Nat) (o : CopyOp) (rest : List CopyOp) (d : Fin 32) (x : Nat) : Prop :=
  (if o.queue = 2 then (t.core c).eq2 else (t.core c).eq1) = rest ∧
  (t.strandAt c o.strand).rg d = BitVec.ofNat 64 x ∧ (∀ n, n ≠ d → (t.strandAt c o.strand).rg n = (s.strandAt c o.strand).rg n) ∧
  (∀ y ∈ (t.strandAt c o.strand).pend, y.1 ≠ o.id) ∧ (t.strandAt c o.strand).pc = (s.strandAt c o.strand).pc ∧
  (∀ y ∈ t.handles, y.holder ≠ some (c, o.id)) ∧ (∀ e, e ≠ c → t.core e = s.core e) ∧ t.mem = s.mem

/-- The `n32` at byte `i` of local store from `off` on. -/
def word32 (k : Core) (off i : Nat) : Nat := leNat ((List.range 4).map (fun j => lsByte k (off + i + j)))

end Sys2Proof.Claims

/-- R271, R273, R275, R277: a copy at the head of its queue reads its descriptor, or its list of rows, and starts, and holds
the order of its handle. A descriptor with a byte beyond 48 set, or that names a dimension beyond the rank, is refused with
status 2 and moves nothing; so is a list with no row, more than 65,536, or a byte 8 to 15 set, and an add to elements of a
type that it does not take. -/
def Sys2Proof.Claims.copiesStartRule : Prop :=
  ∀ (s : State) (c : Nat) (o : CopyOp) (rest : List CopyOp) (d : Fin 32) (h : Handle), CopyReady s c o rest d h →
    (s.strandAt c o.strand).buf = [] → o.started = false → o.stall = none → o.priv = true → h.holder = none →
    (∀ x ∈ s.cores, ∀ y ∈ x.2.eq1 ++ x.2.eq2, y.started = false) →
    let k := s.core c
    let w := word32 k o.desc
    let starts := fun (sh : Shape) => Happens (.copyStart c o.queue) s (fun t =>
      (if o.queue = 2 then (t.core c).eq2 else (t.core c).eq1) = { o with started := true, shape := some sh } :: rest ∧
      t.handles = [{ h with holder := some (c, o.id) }] ∧ (t.core c).ls = k.ls ∧ t.mem = s.mem ∧
      (t.core c).strands = k.strands)
    let refused := Happens (.copyStart c o.queue) s (fun t => CopyDone s t c o rest d (2 * 2 ^ 60) ∧ t.handles = [h] ∧
      (t.core c).ls = k.ls)
    (o.queue = 1 → (o.kind = .ld false ∨ o.kind = .ld true ∨ o.kind = .st) →
      let eo : Vector Nat 4 := #v[w 0, w 4, w 8, w 12]
      let ee : Vector Nat 4 := #v[w 16, w 20, w 24, w 28]
      let odd := ∃ i, h.rank ≤ i ∧ i < 4 ∧ (w (4 * i) ≠ 0 ∨ 1 < w (16 + 4 * i))
      let tail := ∃ i, 48 ≤ i ∧ i < 64 ∧ lsByte k (o.desc + i) ≠ 0
      (¬ odd → ¬ tail → w 16 * w 20 * w 24 * w 28 ≤ 2 ^ 47 → starts (.box eo ee #v[w 32, w 36, w 40] (w 44))) ∧
      (odd ∨ tail → refused)) ∧
    (o.queue = 2 → (o.kind = .gath ∨ o.kind = .scat false ∨ o.kind = .scat true) →
      let odd := w 0 = 0 ∨ 65536 < w 0 ∨ w 8 ≠ 0 ∨ w 12 ≠ 0
      let adds := h.rfmt = 0 ∧ h.ty ∈ ([.i8, .i16, .i32, .n8, .n16, .n32, .f32, .bf16] : List Ty)
      (¬ odd → (o.kind = .scat true → adds) → starts (.rows (w 4) ((List.range (w 0)).map (fun i => w (16 + 4 * i))))) ∧
      (odd ∨ (o.kind = .scat true ∧ ¬ adds) → refused))

/-- R81, R82, R271, R272, R275, R277, R278: a started copy makes its moves and ends. Each element of the box, or of the rows
listed, that lies in the handle moves whole, down to its bits: `hcopy.ld` and `hgath` into local store, `hcopy.st` and
`hscat` into the handle, and `hscat.add` adds there; one beyond the handle does not move. The status holds how many moved,
and 1 in its top field when some did not. -/
def Sys2Proof.Claims.copiesMoveRule : Prop :=
  ∀ (s : State) (c : Nat) (o : CopyOp) (rest : List CopyOp) (d : Fin 32) (h : Handle) (base : Nat) (sh : Shape),
    CopyReady s c o rest d h → o.started = true → o.stall = none → o.src = none → o.side = .at' base → o.shape = some sh →
    (s.core c).rq.length < 32 → (s.core c).ovf = [] →
    let k := s.core c
    let ends := fun (all : List (Elem × Bool)) (post : State → Prop) => FitsIn k h base (insides all) →
      Happens (.copyComplete c o.queue) s (fun t =>
        CopyDone s t c o rest d ((if (insides all).length = all.length then 0 else 2 ^ 60) + (insides all).length) ∧
        (t.core c).rq.length = k.rq.length + (if (insides all).length = all.length then 0 else 1) ∧ post t)
    let loads := fun (all : List (Elem × Bool)) => ((insides all).map Elem.pos).Nodup →
      ends all (fun t => MovesIn h base (insides all) k.ls (t.core c).ls ∧ t.handles.map Handle.data = [h.data])
    let stores := fun (all : List (Elem × Bool)) (how : Handle → Nat → List Elem → Sparse Byte → Sparse Byte → Prop) =>
      ends all (fun t => (t.core c).ls = k.ls ∧ ∃ data, t.handles.map Handle.data = [data] ∧ how h base (insides all) k.ls data)
    (∀ bo be bp lsel, o.queue = 1 → sh = .box bo be bp lsel →
      (∀ tr, o.kind = .ld tr → loads (boxList h bo be bp lsel tr)) ∧
      (o.kind = .st → stores (boxList h bo be bp lsel false) MovesOut)) ∧
    (∀ q idx, o.queue = 2 → sh = .rows q idx →
      (o.kind = .gath → loads (rowList h q idx)) ∧
      (o.kind = .scat false → idx.Nodup → stores (rowList h q idx) MovesOut) ∧
      (o.kind = .scat true → idx.Nodup → h.rfmt = 0 → h.ty ∈ ([.i8, .i16, .i32, .n8, .n16, .n32] : List Ty) →
        stores (rowList h q idx) AddsOut))

/-- Copies start (R271, R275, R277), and move (R272, R277, R278). Where the manual leaves the point open, the clause
states the model's choice (log 42). -/
def Obligations.CopiesRun : Prop := copiesStartRule ∧ copiesMoveRule

/-- R282 to R284: the fill of an absent window takes its place, and then its box stands in local store and the window is
present. -/
def Sys2Proof.Claims.windowsFillRule : Prop :=
  ∀ (s : State) (c : Nat) (o : CopyOp) (rest : List CopyOp) (i : Fin 8) (w : Window) (h : Handle) (lsel : Nat)
    (bo be : Vector Nat 4) (bp : Vector Nat 3),
    let k := s.core c
    let all := boxList h bo be bp lsel false
    k.eq1 = o :: rest → o.kind = .fill i → o.dst = none → (∀ x ∈ rest, x.id ≠ o.id) → k.eq2 = [] → k.wins[i] = some w →
    w.shape = .box bo be bp lsel → w.present = false → s.handles = [h] → h.v = w.h → h.freed = false →
    h.imported = none → h.outside = none → h.bad = [] →
    (o.started = false → h.holder = none → (∀ x ∈ s.cores, ∀ y ∈ x.2.eq1 ++ x.2.eq2, y.started = false) →
      Happens (.windowFill c i) s (fun t => (t.core c).eq1 = { o with h := w.h, started := true } :: rest ∧
        t.handles = [{ h with holder := some (c, o.id) }] ∧ (t.core c).ls = k.ls ∧ (t.core c).wins = k.wins)) ∧
    (o.started = true → o.stall = none → all.all Prod.snd = true → ((insides all).map Elem.pos).Nodup → FitsIn k h w.base (insides all) →
      Happens (.windowFillComplete c i) s (fun t => (t.core c).eq1 = rest ∧
        (t.core c).wins[i] = some { w with present := true, filled := true } ∧ t.mem = s.mem ∧
        MovesIn h w.base (insides all) k.ls (t.core c).ls)) ∧
    (o.started = false → Sleeps (.windowFillComplete c i) s) ∧ (o.started = true → Sleeps (.windowFill c i) s)

/-- R280, R281, R326: a started copy into local store that meets a page that is not resident suspends, and its request
joins the ring while it has room: the address, then the context, whether it was a write, and the id. An answer 1 to the
posted request lets the copy go on; 2 ends it with status 3, code 0x13 and the elements before the fault, which stand. An
answer 0 or 3, one to an id that is none, and one from user mode do nothing. -/
def Sys2Proof.Claims.copyFaultsRule : Prop :=
  (∀ (s : State) (c : Nat) (o : CopyOp) (rest : List CopyOp) (d : Fin 32) (h : Handle) (base lsel n : Nat)
    (bo be : Vector Nat 4) (bp : Vector Nat 3) (va : Word), CopyReady s c o rest d h → o.queue = 1 → o.kind = .ld false →
    o.started = true → o.stall = none → o.waits = none → o.src = none → o.side = .at' base → o.shape = some (.box bo be bp lsel) →
    n ≤ ((spots bo be bp lsel false).filter (insideOf h)).length → o.moved ≤ n →
    (s.preqs = [] → s.preqHead + 1 ≠ s.preqTail → Happens (.copyFault c 1 va n) s (fun t =>
      (t.core c).eq1 = { o with stall := some ⟨va, false, n⟩, moved := n } :: rest ∧ (t.core c).strands = (s.core c).strands ∧
      (t.core c).ls = (s.core c).ls ∧ t.preqHead = s.preqHead + 1 ∧
      ∃ id : BitVec 32, t.preqs = [⟨id, o.id, (s.core c).ctx, va, false, true⟩] ∧
        let a := s.preqBase.toNat + 16 * s.preqHead.toNat
        leNat ((List.range 8).map (fun j => memGet t.mem (a + j))) = va.toNat ∧
        leNat ((List.range 8).map (fun j => memGet t.mem (a + 8 + j))) = 2 ^ 32 * id.toNat + (s.core c).ctx % 64 ∧
        ∀ y, (y < a ∨ a + 16 ≤ y) → memGet t.mem y = memGet s.mem y)) ∧
    (s.preqs = [] → s.preqHead + 1 = s.preqTail → Happens (.copyFault c 1 va n) s (fun t => t.mem = s.mem ∧
      t.preqHead = s.preqHead ∧ ∃ id, t.preqs = [⟨id, o.id, (s.core c).ctx, va, false, false⟩]))) ∧
  (∀ (s : State) (w : RegWrite) (x : Word) (c : Nat) (o : CopyOp) (rest : List CopyOp) (d : Fin 32) (h : Handle)
    (r : PageReq) (st : CopyStall) (base : Nat), w = ⟨0xA1, 0, 64, x, some c, true⟩ → s.hubWrites = [w] → s.preqs = [r] →
    r.posted = true → r.op = o.id → s.cores = [(c, s.core c)] → CopyReady s c o rest d h → o.queue = 1 →
    o.kind = .ld false → o.started = true → o.stall = some st → o.waits = none → st.after = 0 → o.side = .at' base → o.shape ≠ none →
    let mine := x.toNat / 2 ^ 32 = r.id.toNat
    (mine → x.toNat % 4 = 1 → Happens (.pageAnswer w) s (fun t => t.hubWrites = [] ∧ t.preqs = [] ∧ t.mem = s.mem ∧
      (t.core c).eq1 = { o with stall := none, waits := none } :: rest ∧ (t.core c).ls = (s.core c).ls)) ∧
    (mine → x.toNat % 4 = 2 → Happens (.pageAnswer w) s (fun t => t.hubWrites = [] ∧ t.preqs = [] ∧
      CopyDone s t c o rest d (3 * 2 ^ 60 + 2 ^ 48 * 0x13) ∧ (t.core c).ls = (s.core c).ls)) ∧
    (¬ mine ∨ x.toNat % 4 = 0 ∨ x.toNat % 4 = 3 → Happens (.pageAnswer w) s (fun t => t = { s with hubWrites := [] }))) ∧
  (∀ (s : State) (x : Word) (c : Nat), let w : RegWrite := ⟨0xA1, 0, 64, x, some c, false⟩
    s.hubWrites = [w] → Happens (.pageAnswer w) s (fun t => t = { s with hubWrites := [] }))

/-- Windows are filled (R283), and copies meet faults and are answered (R280, R326). Where the manual leaves the point
open, the clause states the model's choice (log 18, 42, 43). -/
def Obligations.FillsAndFaults : Prop := windowsFillRule ∧ copyFaultsRule

/-- R295, R297 to R302, R305: requests as the Lapidary carries them out, each at one moment, with the reply in the register
that waits. `hfree` frees a handle once, unless another task holds an entry on it; `hwiden` adds to the set, in the representation that stands or in a new one, unless the
rules of ladder words forbid it or the tiers have no room; `hnarrow` answers the set that its issue has left; `hquery` 0 and 1 answer the shape and the number of elements; `hexport` gives a token to a
destination that is one, and of this module's handles only such a token imports one; `hnew` refuses a descriptor that breaks R296. A move of the Lapidary's
own accord keeps the elements and the set, and leaves a small handle of plain accesses where R339 places it. -/
def Sys2Proof.Claims.lapidaryRequestsRule : Prop :=
  (∀ (s : State) (c : Nat) (o : OutEntry) (r : LapReq) (d : Fin 32), (s.core c).outq = [o] → o.held = false → o.go = true →
    o.stage = 0 → o.e.op = .lap r d → d ≠ 0 → (o.e.id, RegName.g d) ∈ (s.strandAt c o.strand).pend → s.pairs = [] →
    let answers := fun (x : Word) (post : State → Prop) => Happens (.lapidaryRequest c o.e.id) s (fun t =>
      (t.strandAt c o.strand).rg d = x ∧ (t.core c).outq = [] ∧ t.mem = s.mem ∧ (∀ e, e ≠ c → t.core e = s.core e) ∧
      (∀ n, n ≠ d → (t.strandAt c o.strand).rg n = (s.strandAt c o.strand).rg n) ∧ post t)
    (∀ (h : Handle), s.handles = [h] → h.imported = none → h.holder = none →
      (r = .hfree h.v →
        (h.freed = false → s.tasks = [] → answers 0 (fun t => t.handles = [{ h with freed := true, data := [], bad := [] }])) ∧
        (h.freed = true → answers 3 (fun t => t.handles = [h])) ∧
        (h.freed = false → (∃ x ∈ s.tasks, o.task ≠ some x.id ∧ x.live = true ∧ ∃ e ∈ x.entries, e.h = h.v ∧ e.retired = false) →
          answers 3 (fun t => t.handles = [h]))) ∧
      (∀ ops : BitVec 16, r = .hwiden h.v ops →
        (h.freed = true → answers (4 * 2 ^ 32) (fun t => t.handles = [h])) ∧
        (h.freed = false → h.rfmt = 0 → (h.ops ||| ops).getLsbD 7 = true →
          answers (3 * 2 ^ 32 + h.ops.setWidth 64) (fun t => t.handles = [h])) ∧
        (h.freed = false → (h.ops ||| ops) = h.ops → (h.ops.getLsbD 7 = true ↔ h.rfmt ≠ 0) →
          (h.ops &&& 0x0344 = 0 ∨ h.rfmt = 0) → answers (h.ops.setWidth 64) (fun t => t.handles = [h])) ∧
        (let n := h.ops ||| ops
         h.freed = false → (n.getLsbD 7 = true ↔ h.rfmt ≠ 0) → (n &&& 0x0344 = 0 ∨ h.rfmt = 0) →
          let wider := fun (t : State) (m : BitVec 8) (moves : Nat) => ∃ base, (h.ops.getLsbD 10 = n.getLsbD 10 → base = h.base) ∧
            t.handles = [{ h with ops := n, base := base, classes := m, rerep := moves }]
          let moved := fun (t : State) (x : Word) => x = 2 ^ 32 + n.setWidth 64 ∧
            ∃ m : BitVec 8, (n.getLsbD 10 = true → m.getLsbD 7 = true) ∧ (n.getLsbD 13 = true → m.getLsbD 1 = true) ∧
              (n.getLsbD 7 = true → m.getLsbD 2 = true) ∧ (n.getLsbD 14 = true → m.getLsbD 5 = true) ∧
              wider t m (min 0xFFFF (h.rerep + 1))
          ∃ t, exec (.lapidaryRequest c o.e.id) s = .next t ∧ (t.core c).outq = [] ∧ t.mem = s.mem ∧
            (let x := (t.strandAt c o.strand).rg d
             (x = n.setWidth 64 ∧ wider t h.classes h.rerep) ∨ moved t x ∨
               (x = 2 * 2 ^ 32 + h.ops.setWidth 64 ∧ t.handles = [h])) ∧
            (h.classes = 1 → n &&& ~~~h.ops &&& 0x70 ≠ 0 → n.getLsbD 13 = false → moved t ((t.strandAt c o.strand).rg d)))) ∧
      (∀ refused none', r = .hnarrow h.v refused none' →
        (h.freed = true → answers (4 * 2 ^ 32) (fun t => t.handles = [h])) ∧
        (h.freed = false → refused = true → answers (3 * 2 ^ 32 + h.ops.setWidth 64) (fun t => t.handles = [h])) ∧
        (h.freed = false → refused = false → none' = true → answers (h.ops.setWidth 64) (fun t => t.handles = [h])) ∧
        (h.freed = false → refused = false → none' = false →
          ∃ t, exec (.lapidaryRequest c o.e.id) s = .next t ∧ (t.core c).outq = [] ∧ t.mem = s.mem ∧
            let x := (t.strandAt c o.strand).rg d
            (x = h.ops.setWidth 64 ∧ t.handles = [h]) ∨
            (x = 2 ^ 32 + h.ops.setWidth 64 ∧ ∃ m, t.handles = [{ h with classes := m, rerep := min 0xFFFF (h.rerep + 1) }]))) ∧
      (h.freed = false → r = .hquery h.v 0 → answers (BitVec.ofNat 64 (h.ops.toNat + 2 ^ 16 * h.ty.code + 2 ^ 20 * h.rfmt
        + 2 ^ 24 * (h.rank - 1) + (if h.rfmt = 0 ∧ h.ty = .e4m3 ∧ h.mode = true then 2 ^ 26 else 0)))
          (fun t => t.handles = [h])) ∧
      (h.freed = false → r = .hquery h.v 1 → answers (BitVec.ofNat 64 (h.e[0] * h.e[1] * h.e[2] * h.e[3] % 2 ^ 48))
        (fun t => t.handles = [h])) ∧
      (∀ dest : Word, h.freed = false → r = .hexport h.v dest →
        (2 ^ 30 ≤ dest.toNat → answers 1 (fun t => t.handles = [h] ∧ t.tokens = s.tokens)) ∧
        (dest.toNat < 2 ^ 30 → ∃ (v : Word) (m : Option Nat), v.getLsbD 63 = false ∧ v.getLsbD 62 = true ∧
          (let x := dest.toNat % 256
           let y := dest.toNat / 2 ^ 8 % 256
           let z := dest.toNat / 2 ^ 16 % 256
           m = if x < 16 ∧ y < 16 ∧ z < 18 then s.routeOf o.ctx (x + 16 * y + 256 * z) else none) ∧
          answers v (fun t => t.handles = [h] ∧ t.tokens = s.tokens ++ [⟨v, h.v, m, dest.toNat / 2 ^ 24⟩]))) ∧
      (∀ k : Token, h.freed = false → r = .himport k.v → s.tokens = [k] → k.h = h.v → k.dest = some s.self.toNat → k.ctx = o.ctx →
        ∃ t, exec (.lapidaryRequest c o.e.id) s = .next t ∧ (t.core c).outq = [] ∧
          ((t.handles = [h] ∧ (t.strandAt c o.strand).rg d = 2) ∨
            ∃ y, t.handles = [h, y] ∧ (t.strandAt c o.strand).rg d = y.v ∧ y.v.getLsbD 63 = true ∧ y.v ≠ h.v ∧
              y.imported = some s.self.toNat ∧ y.source = h.v ∧ y.ctx = o.ctx ∧ y.e = h.e ∧ y.ty = h.ty))) ∧
    (∀ token, r = .himport token → (∀ k ∈ s.tokens, k.v ≠ token) →
      ∃ t, exec (.lapidaryRequest c o.e.id) s = .next t ∧ (t.core c).outq = [] ∧ t.mem = s.mem ∧
        let x := (t.strandAt c o.strand).rg d
        ((t.handles = s.handles ∧ (x = 1 ∨ x = 2)) ∨
          ∃ y m, t.handles = s.handles ++ [y] ∧ x = y.v ∧ y.v.getLsbD 63 = true ∧ y.imported = some m ∧
            m ≠ s.self.toNat ∧ y.ctx = o.ctx ∧ y.ops &&& 0xFD66 = 0)) ∧
    (∀ off ops mode bs, r = .hnew off ops mode bs → bs.length = 32 →
      let e := fun (i : Nat) => leNat ((bs.drop (4 * i)).take 4)
      let rank := (bs.getD 16 0).toNat
      ((∃ i, i < 4 ∧ (e i = 0 ∨ (rank ≤ i ∧ e i ≠ 1))) ∨ rank = 0 ∨ 4 < rank ∨ 4 < (bs.getD 18 0).toNat ∨
        (bs.drop 19).any (fun b => b != 0) = true → answers 1 (fun t => t.handles = s.handles)) ∧
      ((∀ i, i < 4 → 0 < e i ∧ (rank ≤ i → e i = 1)) → 0 < rank → rank ≤ 4 → (bs.getD 17 0).toNat < 16 →
        (bs.drop 18).all (fun b => b == 0) = true → ops.getLsbD 7 = false → s.handles = [] →
        ∃ t, exec (.lapidaryRequest c o.e.id) s = .next t ∧ (t.core c).outq = [] ∧
          ((t.handles = [] ∧ (t.strandAt c o.strand).rg d = 2) ∨
            ∃ y, t.handles = [y] ∧ (t.strandAt c o.strand).rg d = y.v ∧ y.v.getLsbD 63 = true ∧ y.ops = ops ∧
              y.ty.code = (bs.getD 17 0).toNat ∧ y.e = #v[e 0, e 1, e 2, e 3] ∧ y.rank = rank ∧ y.mode = mode ∧
              y.freed = false ∧ y.data = [] ∧ y.ctx = o.ctx)))) ∧
  (∀ (s : State) (h : Handle) (m : BitVec 8), s.handles = [h] → h.freed = false → h.holder = none →
    let small := h.classes = 1 ∧ h.count * h.bits ≤ 8 * 4096 ∧ h.ops &&& 0xFFF8 = 0
    (small → m ≠ 1 → Sleeps (.lapidaryRerepresent h.v m) s) ∧
    ((small → m = 1) → (h.ops.getLsbD 10 = true → m.getLsbD 7 = true) → (h.ops.getLsbD 13 = true → m.getLsbD 1 = true) →
      (h.ops.getLsbD 7 = true → m.getLsbD 2 = true) → (h.ops.getLsbD 14 = true → m.getLsbD 5 = true) →
      Happens (.lapidaryRerepresent h.v m) s (fun t =>
        t = { s with handles := [{ h with classes := m, rerep := min 0xFFFF (h.rerep + 1) }] })) ∧
    (h.ops.getLsbD 14 = true → m.getLsbD 5 = false → Sleeps (.lapidaryRerepresent h.v m) s))

/-- R312: the window of announcements closes, and the accesses of the oldest closed window join the single order, by logical
core and then by their numbers. -/
def Sys2Proof.Claims.sequencerRule : Prop :=
  (∀ s : State, Happens (.scWindowEnd) s (fun t =>
    t = { s with scFlight := s.scFlight ++ [s.scWindow], scWindow := [] })) ∧
  (∀ (s : State) (w : List Announce) ws, s.scFlight = w :: ws → Happens (.scWindowDeliver) s (fun t =>
    t = { s with scFlight := ws, scOrder := t.scOrder } ∧ ∃ new, t.scOrder = s.scOrder.filter (fun a => !s.scDone a) ++ new ∧
      new.Perm w ∧ new.Pairwise (fun a b => a.lnum < b.lnum ∨ (a.lnum = b.lnum ∧ a.seq ≤ b.seq)))) ∧
  (∀ s : State, s.scFlight = [] → Sleeps (.scWindowDeliver) s)

/-- The sequencer's windows of `.sc` accesses (R312). -/
def Sys2Proof.Claims.sequencerWindowsRule : Prop := sequencerRule

/-- The Lapidary's replies, a widening that grows the set among them, and the windows of the sequencer: the two
statements above. Where the manual leaves the point open, the clause states the model's choice (log 11, 12, 44, 76).
-/
def Obligations.LapidaryRequests : Prop := lapidaryRequestsRule ∧ sequencerWindowsRule

/-! ### The machine's own moves: the dispatcher, the host's records, pairs -/

namespace Sys2Proof.Claims

/-- A core can take a task at all: good, no supervisor, no handler, not contained, its cluster not halted (R248). -/
def SoundCore (s : State) (e : Nat) : Prop :=
  let k := s.cluster (e / 36)
  k.harvest.getLsbD (e % 36) = true ∧ k.sup ≠ e % 36 ∧ (∀ i, k.entry i ≠ some (e % 36)) ∧ k.halt = false ∧
  ∀ i : Fin 4, k.cont[i].getLsbD 63 = true → ¬ heldBy k.cont[i] (e % 36)

/-- Placeable for context `c`: sound, and named in its core table (R245, R248). -/
def Placeable (s : State) (c e : Nat) : Prop := (∃ n, s.coreOf c n = some e) ∧ SoundCore s e

/-- Eligible on die `d`, no core of which is reserved or parking (R257). -/
def Eligible (s : State) (c : Nat) (d : Fin 8) (e : Nat) : Prop :=
  Placeable s c e ∧ e / 3456 = d.val ∧ (s.core e).task = none ∧ (s.core e).pairOf = none

/-- One record waits in the module: `r` at the head of queue `q` of context `c`, whose core table can be read; no task is
queued to resume. -/
def OneHead (s : State) (d : Fin 8) (c q : Nat) (r : Rec) (rs : List Rec) : Prop :=
  q < 64 ∧ s.queueOwner q = some c ∧ sget [] s.queues q = r :: rs ∧ (∀ j, j ≠ q → sget [] s.queues j = []) ∧
  s.tasks = [] ∧ (s.ctx c).stopped = false ∧ (∃ bs, s.ctxBytes c (s.ctx c).ctab (2 * (s.ctx c).ncores) = .ok bs) ∧
  (∀ n e, s.coreOf c n = some e → e < 27648) ∧ s.dies[d].reserve = [] ∧ s.dies[d].power = .online

/-- A packet of this kind, code and detail takes the next slot of the cluster of core `c`. -/
def Reported (s t : State) (c kind code : Nat) (detail : Word) : Prop :=
  let k := s.cluster (c / 36)
  (t.cluster (c / 36)).pqCount = k.pqCount + 1 ∧
  ∃ p, (t.cluster (c / 36)).slots.toList[(k.pqHead + k.pqCount) % 64]? = some p ∧
    (p.headD 0).toNat / 2 ^ 24 % 16 = kind ∧ (p.headD 0).toNat % 256 = code ∧ p.getD 4 0 = detail

/-- Core `c` is an ordinary worker whose cluster's packet queue has room. -/
def Worker (s : State) (c : Nat) : Prop :=
  c % 36 ≠ (s.cluster (c / 36)).sup ∧ (s.cluster (c / 36)).chainIndex (c % 36) = none ∧ (s.cluster (c / 36)).pqCount < 64 ∧
  s.heldIn (c / 36) = []

end Sys2Proof.Claims

/-- R248, R250, R257, R258: a decision of a die's dispatcher with one record, for a single core, waiting. The record goes to
the first eligible core of its region: its control strand starts at the record's code, with the frame in `g1`, the
record's address in `g2` and every other register 0; no other core and no memory changes. With every core of the die busy
nothing happens while the head's age is not above the threshold; above it the head reserves the first placeable core of the
die. With no placeable core anywhere the record is withdrawn with status 4. With nothing waiting nothing happens. -/
def Sys2Proof.Claims.dispatchRule : Prop :=
  ∀ (s : State) (d : Fin 8) (c q : Nat) (r : Rec) (rs : List Rec),
    ((∀ j, sget [] s.queues j = []) → s.tasks = [] → Sleeps (.dispatchDecision d) s) ∧
    (OneHead s d c q r rs → r.w = 1 → r.h = 1 → (∀ x ∈ rs, x.w = 1 ∧ x.h = 1) →
      (∀ e n, Eligible s c d e → (∀ x, x < e → ¬ Eligible s c d x) → s.coreOf c n = some e →
        (∀ m, m < n → s.coreOf c m ≠ some e) → r.bx = false → r.sets = 0 →
        Happens (.dispatchDecision d) s (fun t =>
          let k := t.core e
          sget [] t.queues q = rs ∧ t.mem = s.mem ∧ (∀ x, x ≠ e → t.core x = s.core x) ∧
          t.tasks = [{ id := s.nextId, ctx := c, record := r, w := 1, h := 1, cores := [e], lnums := [n] }] ∧
          k.task = some s.nextId ∧ k.ctx = c ∧ k.lnum = BitVec.ofNat 16 n ∧ k.frozen = false ∧
          k.strands[0].live = true ∧ k.strands[0].blk = 0 ∧ k.strands[0].pc = BitVec.ofNat 57 r.code ∧
          k.strands[0].rg 1 = BitVec.ofNat 64 r.frame ∧ k.strands[0].rg 2 = r.origin ∧
          (∀ g : Fin 32, g ≠ 1 → g ≠ 2 → k.strands[0].rg g = 0) ∧
          ∀ h : Fin 11, h ≠ 0 → k.strands[h].live = false)) ∧
      ((∃ e, Placeable s c e) → (∀ e, ¬ Eligible s c d e) → r.age ≤ s.dies[d].age.toNat →
        Sleeps (.dispatchDecision d) s) ∧
      (∀ e, (∀ x, ¬ Eligible s c d x) → s.dies[d].age.toNat < r.age → r.sets = 0 → Placeable s c e → e / 3456 = d.val →
        (∀ x, x < e → ¬ (Placeable s c x ∧ x / 3456 = d.val)) → Happens (.dispatchDecision d) s (fun t =>
          t = { s with dies := t.dies } ∧ t.dies = s.dies.set d { s.dies[d] with reserve := [⟨c, q, none, [e]⟩] })) ∧
      ((∀ e, ¬ Placeable s c e) → rs = [] → Happens (.dispatchDecision d) s (fun t => sget [] t.queues q = [] ∧ t.tasks = [] ∧
        (t.ctx c).fails = (s.ctx c).fails ++ [⟨r.origin, 4, 0, []⟩] ∧ t.cores = s.cores ∧ t.mem = s.mem)))

/-- R264, R265: a decision of a die's dispatcher with one saved gang of a single core, ready, waiting. The gang goes to the first
eligible core of its region: the core table's entry of its logical core is rewritten, and that of the logical core whose
core it takes; the core's state stands as it was saved, its strands ready together; what belongs to the core itself
stays. -/
def Sys2Proof.Claims.resumeRule : Prop :=
  ∀ (s s1 s2 : State) (d : Fin 8) (c q n m old e : Nat) (x : Task) (k : Core),
    s.tasks = [x] → x.saved = [k] → x.ready = true → x.ctx = c → x.record.queue = q → x.record.w = 1 → x.record.h = 1 →
    x.record.cl = false → x.cores.length = 1 → x.lnums = [n] → x.entries = [] → x.detached = [] → k.returned = false →
    q < 64 → s.queueOwner q = some c → (∀ j, sget [] s.queues j = []) → (s.ctx c).stopped = false →
    (∃ bs, s.ctxBytes c (s.ctx c).ctab (2 * (s.ctx c).ncores) = .ok bs) → (∀ n e, s.coreOf c n = some e → e < 27648) →
    s.dies[d].reserve = [] → s.dies[d].power = .online → Eligible s c d e → (∀ y, y < e → ¬ Eligible s c d y) →
    s.coreOf c n = some old → s.coreOf c m = some e → (∀ y, s.coreOf c y = some e → y = m) →
    4096 * k.size.toNat ≤ s.lsCap e →
    let entry := fun (s : State) (n e : Nat) => s.ctxWrite c ((s.ctx c).ctab + 2 * n) (leBytes 2 (physOf e))
    entry s n e = .ok s1 → (if m = n then s2 = s1 else entry s1 m old = .ok s2) → s2.slotFault c false n = none →
    Happens (.dispatchDecision d) s (fun t =>
      let y := s.core e
      t.tasks = [{ x with cores := [e], saved := [], ready := false }] ∧ t.mem = s2.mem ∧
      t.core e = { k with
        ls := (t.core e).ls, outq := y.outq, held := y.held, utlb := [], icache := y.icache, pdc := [], frozen := false
        slot := y.slot, strands := k.strands.map (fun u => { u with stamp := y.slot }) } ∧
      (∀ a, a < 4096 * k.size.toNat → memGet (t.core e).ls a = memGet k.ls a) ∧ ∀ f, f ≠ e → t.core f = s.core f)

namespace Sys2Proof.Claims

/-- Strand `h` of core `c` waits now for a barrier or a view, for a consumer's slots, for a message, or for another module's
memory: `blk` 1 to 4 (R21). -/
def WaitsNow (s : State) (c : Nat) (h : Fin 11) : Prop :=
  let k := s.core c
  let u := s.strandAt c h
  (u.waitAt = u.pc ∧ ((∃ d g, u.wait = .barrier d g ∧ ∀ b ∈ s.barriers, b.dom = d → b.gen ≤ g) ∨
    (∃ m, u.wait = .kview m none ∨ u.wait = .kjoin m none) ∨
    (∃ need, u.wait = .slots need ∧ ∃ x ∈ need, x.2.1 = false ∧ k.cist[x.1].filled < x.2.2) ∨
    (u.wait = .recv ∧ k.rq = [] ∧ k.ovf = []))) ∨
  ∃ l ∈ u.loads, l.id ∈ u.gates ∧ ∃ x ∈ l.locs, ∃ m, x.at' = .remote m

/-- The only task of the module runs on core `c`, and each of its live strands waits with an eligible code (R262). -/
def Blocked (s : State) (x : Task) (c n : Nat) : Prop :=
  s.tasks = [x] ∧ x.saved = [] ∧ x.cores = [c] ∧ x.lnums = [n] ∧ (s.core c).task = some x.id ∧
  s.coreOf x.ctx n = some c ∧ c < 27648 ∧ (s.core c).frozen = false ∧ (s.core c).lprog.sus = false ∧
  ∀ h : Fin 11, (s.strandAt c h).live = true → WaitsNow s c h

/-- A record for a single core waits, of the task's context and of equal or higher priority, and the region has a placeable
core on the task's die. -/
def AnotherWaits (s : State) (x : Task) (q : Nat) : Prop :=
  q < 64 ∧ s.queueOwner q = some x.ctx ∧ (∃ r rs, sget [] s.queues q = r :: rs ∧ r.w = 1 ∧ r.h = 1) ∧
  (∃ e, Placeable s x.ctx e ∧ e / 3456 = x.cores.headD 0 / 3456) ∧ (s.ctx x.ctx).stopped = false ∧
  (s.ctx x.ctx).qpri x.record.queue ≤ (s.ctx x.ctx).qpri q ∧
  (s.dies[(Fin.ofNat 8 (x.cores.headD 0 / 3456))]).power = .online

end Sys2Proof.Claims

/-- R262 to R264: while a record waits for its cores, a blocked gang's live strands take `slicefix` when its slice ends below
the switch cost, and once everything it has sent has drained it is evicted: its core's state stands saved, of memory only
its save slot may change, and the core is free. A gang with a strand that is not blocked is neither. A saved gang is ready once a message has come for a strand
that waits for one, or the barrier generation it waits on has been released; and not before. -/
def Sys2Proof.Claims.evictionRule : Prop :=
  (∀ (s : State) (x : Task) (c n q : Nat),
    let k := s.core c
    (Blocked s x c n → AnotherWaits s x q →
      Happens (.sliceExpiry x.id) s (fun t => t.mem = s.mem ∧ (∀ e, e ≠ c → t.core e = s.core e) ∧ ∀ h : Fin 11,
        t.strandAt c h = if k.strands[h].live then { k.strands[h] with slicefix := true } else k.strands[h]) ∧
      ((∀ w : Fin 4, k.opsIn w = []) → k.outq = [] → (∀ i : Fin 16, k.cist[i].held = []) →
        k.pairOf = none → (∀ h : Fin 11, k.strands[h].buf = [] ∧ k.strands[h].loads = []) → s.pairs = [] →
        s.slotFault x.ctx true n = none → Happens (.gangEvict x.id) s (fun t =>
          t.tasks = [{ x with saved := [{ k with conflict := false, repOwner := none, strands := k.strands.map (fun y => { y with rep := none }) }],
                              ready := false, detached := [] }] ∧
          (t.core c).task = none ∧ (∀ h : Fin 11, (t.strandAt c h).live = false) ∧
          (∀ a, outsideArea s x.ctx ((s.ctx x.ctx).dword 7 + n * 2 ^ 20) 0xF0000 a → memGet t.mem a = memGet s.mem a) ∧
          ∀ e, e ≠ c → t.core e = s.core e))) ∧
    (s.tasks = [x] → x.saved = [] → x.cores = [c] → x.lnums = [n] → k.task = some x.id →
      (k.frozen = true ∨ ∃ h : Fin 11, k.strands[h].live = true ∧ ¬ WaitsNow s c h) →
      Sleeps (.sliceExpiry x.id) s ∧ Sleeps (.gangEvict x.id) s)) ∧
  (∀ (s : State) (x : Task) (k : Core) (h : Fin 11), s.tasks = [x] → x.saved = [k] → x.ready = false → k.returned = false →
    k.strands[h].live = true →
    let readies := Happens (.savedGangReady x.id) s (fun t => t.tasks = [{ x with ready := true }] ∧ t.cores = s.cores ∧
      t.mem = s.mem)
    (k.strands[h].blk = 3 → k.rq ≠ [] → readies) ∧
    (∀ d g b, k.strands[h].blk = 1 → k.strands[h].wait = .barrier d g → k.strands[h].waitAt = k.strands[h].pc →
        b ∈ s.barriers → b.dom = d → g < b.gen → readies) ∧
    ((∀ j : Fin 11, k.strands[j].live = true → k.strands[j].blk = 3 ∧ k.strands[j].changes = []) → k.rq = [] → k.ovf = [] →
      Sleeps (.savedGangReady x.id) s))

/-- R261: the forecast of a die is the smaller of its good worker cores and the cores running tasks on it plus w·h for each
ready record it may place (here those of one queue). -/
def Sys2Proof.Claims.forecastRule : Prop :=
  ∀ (s : State) (d : Fin 8) (c q : Nat), s.cores.Pairwise (fun x y => x.1 < y.1) → q < 64 → s.queueOwner q = some c →
    (∀ j, j ≠ q → sget [] s.queues j = []) →
    Happens (.fcastUpdate d) s (fun t => t.cores = s.cores ∧ t.queues = s.queues ∧ t.mem = s.mem ∧
      (∀ x, x ≠ d → t.dies[x] = s.dies[x]) ∧ t.dies[d] = { s.dies[d] with
        fcast := BitVec.ofNat 16 (min
          ((List.range 96).map (fun u =>
            let k := s.cluster (96 * d.val + u)
            (List.range 36).countP k.harvest.getLsbD - 1 - (List.range 4).countP (fun i => (k.entry i).isSome))).sum
          ((List.range 3456).countP (fun p => (s.core (3456 * d.val + p)).task.isSome) +
            (((sget [] s.queues q).filter (s.mayPlace d c)).map (fun r => r.w * r.h)).sum)) })

/-- R249, R329: the port of queue `q` takes four dwords at a time. A record for another queue, with a bit set that must be 0,
or for a queue that no context holds is refused and counted; one that is accepted joins the tail of the queue with age 0.
A full queue makes it wait, and in recovery nothing answers. A host write of the count clears it. -/
def Sys2Proof.Claims.portRule : Prop :=
  (∀ (s : State) (q : Fin 64) (ds : List Word),
    let r : Rec := { dwords := ds }
    let refused := exec (.hostQueuePortWrite q ds) s = .next { s with refusals := s.refusals + 1 }
    (ds.length ≠ 4 ∨ s.recovery = true → Sleeps (.hostQueuePortWrite q ds) s) ∧
    (ds.length = 4 → s.recovery = false →
      (s.queueOwner q.val = none → refused) ∧
      (∀ c, s.queueOwner q.val = some c →
        ((r.dword 2 / 2 ^ 32 % 512 ≠ 0 ∨ r.code % 4 ≠ 0 → refused) ∧
        (r.queue ≠ q.val → refused) ∧
        (6 < r.w ∨ 6 < r.h → refused) ∧
        (r.dword 2 / 2 ^ 32 % 512 = 0 → r.code % 4 = 0 → r.queue = q.val → (s.ctx c).qmask / 2 ^ q.val % 2 = 1 →
          (∃ x ∈ s.tasks, x.ctx = c) → r.w = 1 → r.h = 1 → (∃ e, e < 27648 ∧ Placeable s c e) →
          ((sget [] s.queues q.val).length < 65536 → Happens (.hostQueuePortWrite q ds) s (fun t =>
            sget [] t.queues q.val = sget [] s.queues q.val ++ [r] ∧ t.refusals = s.refusals ∧
            (∀ j, j ≠ q.val → sget [] t.queues j = sget [] s.queues j) ∧ t.cores = s.cores ∧ t.mem = s.mem)) ∧
          (65536 ≤ (sget [] s.queues q.val).length → Sleeps (.hostQueuePortWrite q ds) s)))))) ∧
  ∀ s : State, s.recovery = false → exec .refusalCountWrite s = .next { s with refusals := 0 }

/-- R256: the list domain of a context is quiescent once every list is empty, no append is on its way and every worker is
idle; while a list holds an item, or an append of a task of the context is on its way, of one that has ended too, it is not. -/
def Sys2Proof.Claims.quiescenceRule : Prop :=
  ∀ (s : State) (c : Fin 64) (x : Task) (e : Nat), s.tasks = [x] → x.ctx = c.val → x.saved = [] → x.cores = [e] →
    x.lnums.length = 1 → (s.core e).task = some x.id →
    ((∀ l ∈ (s.ctx c.val).lists, l.2 = []) → (∀ y, (s.core y).outq = []) → (∀ h : Fin 11, (s.strandAt e h).buf = []) →
      ((s.core e).worker = true → (s.core e).idle = true) → Happens (.quiescenceDetect c) s (fun t =>
        t.ctx c.val = { s.ctx c.val with quiet := true } ∧ (∀ y, y ≠ c.val → t.ctx y = s.ctx y) ∧ t.cores = s.cores ∧
        t.mem = s.mem)) ∧
    ((∃ l ∈ (s.ctx c.val).lists, l.2 ≠ []) ∨ ((s.core e).worker = true ∧ (s.core e).idle = false) ∨
      (∃ y, ∃ o ∈ (s.core y).outq, o.ctx = c.val ∧ ∃ l i d, o.e.op = .wapp l i d) → Sleeps (.quiescenceDetect c) s)

/-- R237: a pair whose interval is due and whose engine work is complete exchanges fingerprints. On agreement the fingerprint
starts anew, the waiting stores are released and the point reached is the new agreed one; the pair ends if `unpair`'s like
asked for it. When an armed error makes them differ, the leader's strands stand again as at the agreed point and its
waiting stores are gone; a second time running both cores freeze with pair-mismatch. -/
def Sys2Proof.Claims.intervalsRule : Prop :=
  ∀ (s : State) (c : Nat) (p : PairRec), s.pairs = [p] → p.leader = c → p.shadow ≠ c → p.shadow / 36 = c / 36 →
      (s.core p.shadow).pairOf = some c →
    (s.core c).frozen = false → p.settle = false → p.split = false → (s.core c).eq0 = [] → (s.core c).trail = [] →
    let k := s.core c
    let j := (s.cluster (c / 36)).inject.toNat
    (p.due = false → Sleeps (.pairIntervalEnd c) s) ∧
    (p.due = true → j / 2 ^ 63 % 2 = 0 → Happens (.pairIntervalEnd c) s (fun t =>
      (t.core c).fpLast = k.fp ∧ (t.core c).fp = 0xFFFFFFFF ∧ (t.core c).strands = k.strands ∧ (t.core c).ls = k.ls ∧
      (t.core c).outq = k.outq.map (fun o => { o with held := false }) ∧ (t.core c).undo = [] ∧ t.mem = s.mem ∧
      (p.ending = false → t.pairs = [{ p with snap := t.core c, retired := 0, again := false, due := false, pass := true }] ∧
        (t.core c).pairOf = k.pairOf) ∧
      (p.ending = true → t.pairs = [] ∧ (t.core c).pairOf = none ∧ (t.core p.shadow).pairOf = none ∧
        ∀ h : Fin 11, (t.strandAt p.shadow h).live = false))) ∧
    (p.due = true → j / 2 ^ 63 % 2 = 1 → j / 2 ^ 59 % 16 = 3 → j / 2 ^ 53 % 64 = c % 36 →
      Happens (.pairIntervalEnd c) s (fun t =>
        t.mem = s.mem ∧ (t.core c).outq = k.outq.filter (fun o => !o.held) ∧ (t.core c).undo = [] ∧
        (∀ h : Fin 11, SameRegs p.snap.strands[h] (t.strandAt c h)) ∧
        (p.again = false → (t.core c).frozen = false ∧ (t.core c).strands = p.snap.strands ∧
          t.pairs = [{ p with retired := 0, rollbacks := min 255 (p.rollbacks + 1), again := true, due := p.ending,
                              pass := false }]) ∧
        (p.again = true → Worker s c → (t.core c).frozen = true ∧ (t.core p.shadow).frozen = true ∧
          Reported s t c 3 0x39 (BitVec.ofNat 64 (2 ^ 32 * (k.fp ^^^ BitVec.ofNat 32 (2 ^ (j % 32))).toNat + k.fp.toNat)))))

/-- R237: a core whose partner has fallen silent freezes with pair-lost, whose detail is the partner's position; a frozen
one does nothing. -/
def Sys2Proof.Claims.partnersRule : Prop :=
  ∀ (s : State) (c : Nat) (p : PairRec), s.pairs = [p] → p.leader = c → p.shadow ≠ c →
    ((s.core c).frozen = false → Worker s c → Happens (.pairLost c) s (fun t => (t.core c).frozen = true ∧
      (∀ h : Fin 11, SameRegs (s.strandAt c h) (t.strandAt c h)) ∧ t.mem = s.mem ∧
      Reported s t c 3 0x3A (BitVec.ofNat 64 (p.shadow % 36)))) ∧
    ((s.core c).frozen = true → Sleeps (.pairLost c) s)

/-- Placement (R248, R250, R258), resumption (R265), eviction (R262 to R264) and the forecast (R261). Where the manual
leaves the point open, the clause states the model's choice (log 35, 37, 59, 68). -/
def Obligations.TasksPlaced : Prop := dispatchRule ∧ resumeRule ∧ evictionRule ∧ forecastRule

/-- The host's records (R249, R329), quiescence (R256) and the ends of pairs' intervals (R237). Where the manual
leaves the point open, the clause states the model's choice (log 45). -/
def Obligations.PortsAndPairs : Prop := portRule ∧ quiescenceRule ∧ intervalsRule ∧ partnersRule

/-! ### The machine's own moves: the module's registers, power, contexts, boot -/

namespace Sys2Proof.Claims

/-- The one write that stands at the hubs is of all of register `reg`, by a privileged strand of core `c`. -/
def AtHubs (s : State) (w : RegWrite) (reg : Nat) (x : Word) (c : Nat) : Prop :=
  w = ⟨reg, 0, 64, x, some c, true⟩ ∧ s.hubWrites = [w]

/-- Nothing but a hub's registers and what the statement names has changed. -/
def HubOnly (s t : State) : Prop :=
  t.cores = s.cores ∧ t.clusters = s.clusters ∧ t.mem = s.mem ∧ t.tasks = s.tasks ∧ t.hubWrites = []

/-- Nibble `d` of a word (R322). -/
def nibble (x : Nat) (d : Fin 8) : Nat := x / 2 ^ (4 * d.val) % 16

/-- Dword `i` of a context descriptor in memory (R243, R323), and the root that belongs to it. -/
def descDword (s : State) (n i : Nat) : Nat := leNat (memRead s.mem (s.ctxbase.toNat + 64 * n + 8 * i) 8)
def rootDword (s : State) (n : Nat) : Nat := leNat (memRead s.mem (s.ctxbase.toNat + 0x1000 + 8 * n) 8)

/-- The descriptor in memory keeps the limits of R243. -/
def GoodDescriptor (s : State) (n : Nat) : Prop :=
  let d := descDword s n
  d 0 / 2 ^ 63 = 1 ∧ d 0 / 2 ^ 56 % 32 = 0 ∧ d 0 % 2 ^ 32 = 0 ∧
  1 ≤ d 0 / 2 ^ 48 % 256 ∧ 4096 * (d 0 / 2 ^ 48 % 256) ≤ s.largestCap ∧ 1 ≤ d 0 / 2 ^ 32 % 2 ^ 16 ∧ d 0 / 2 ^ 32 % 2 ^ 16 ≤ 27648 ∧
  d 1 % 64 = 0 ∧ d 2 % 64 = 0 ∧ d 6 / 2 ^ 10 % 2 ^ 11 ≤ 1024 ∧ d 6 % 1024 + d 6 / 2 ^ 10 % 2 ^ 11 ≤ 1024 ∧
  d 6 / 2 ^ 26 % 512 ≤ 256 ∧ (d 6 / 2 ^ 26 % 512 ≠ 0 → 4 ≤ d 6 / 2 ^ 21 % 32 ∧ d 6 / 2 ^ 21 % 32 ≤ 20) ∧ d 6 / 2 ^ 35 = 0

/-- A state of die `d` no faster than its request whose predicted draw keeps the ceiling (R319, R322). -/
def Kept (s : State) (a1 a10 : BitVec 11) (d : Fin 8) (p : Nat) : Prop :=
  nibble s.req.toNat d ≤ p ∧ Config.drawKept (s.dies.toList.map Die.fcast) a1 a10 s.ceil.toNat d.val p = true

/-- The governor's choice for die `d` (R322): 7 when that is asked for, else the fastest state that keeps the ceiling, and 6
when none does. -/
def Picked (s : State) (a1 a10 : BitVec 11) (d : Fin 8) (n : Nat) : Prop :=
  (7 ≤ nibble s.req.toNat d → n = 7) ∧
  (nibble s.req.toNat d < 7 → (∃ p, p < 6 ∧ Kept s a1 a10 d p) → n < 6 ∧ Kept s a1 a10 d n ∧ ∀ p, p < n → ¬ Kept s a1 a10 d p) ∧
  (nibble s.req.toNat d < 7 → (∀ p, p < 6 → ¬ Kept s a1 a10 d p) → n = 6)

end Sys2Proof.Claims

/-- R317, R318, R322, R323, R325 to R327: a write of a module register takes effect at the hubs. `ceil` takes a value from 300
to 1,750, from a device only while `lock` is 0, which a 1 sets for good; a nibble of `req` from 0 to 7 is taken; `inv`
begins to be busy, and once it ends no translation buffer, of a core or of a cluster, holds a leaf of its request, and every other leaf stands; the bases keep bits [56:12]. The
read-only registers ignore a write, and every register one by an unprivileged strand. -/
def Sys2Proof.Claims.hubRegistersRule : Prop :=
  (∀ (s : State) (w : RegWrite) (x : Word) (c : Nat),
    let n := x.toNat % 2048
    let legal := 300 ≤ n ∧ n ≤ 1750
    (AtHubs s w 0x81 x c → Happens (.pcapWrite w) s (fun t => HubOnly s t ∧ t.lock = (s.lock || x.getLsbD 63) ∧
      t.ceil.toNat % 2048 = (if s.lock = false ∧ legal then n else s.ceil.toNat) ∧ t.str = s.str ∧ t.a1 = s.a1 ∧
      t.a10 = s.a10)) ∧
    (w = ⟨0x81, 0, 64, x, none, true⟩ → s.recovery = false → legal → Happens (.pcapWrite w) s (fun t =>
      t.ceil.toNat = n ∧ t.cores = s.cores ∧ t.mem = s.mem)) ∧
    (AtHubs s w 0x82 x c → Happens (.pstRequest w) s (fun t => HubOnly s t ∧ t.dies = s.dies ∧ ∀ d : Fin 8,
      nibble t.req.toNat d = if nibble x.toNat d < 8 then nibble x.toNat d else nibble s.req.toNat d)) ∧
    (AtHubs s w 0x93 x c → Happens (.invWrite w) s (fun t => HubOnly s t ∧ t.invBusy = true ∧
      t.inv = if s.invBusy then s.inv else x &&& 0x71FFFFFFFFFFFFC0)) ∧
    (AtHubs s w 0x90 x c → Happens (.registerWrite w) s (fun t => HubOnly s t ∧ t.ctxbase = x &&& 0x01FFFFFFFFFFF000)) ∧
    (AtHubs s w 0xA8 x c → Happens (.registerWrite w) s (fun t => HubOnly s t ∧ t.elogBase = x &&& 0x01FFFFFFFFFFF000 ∧
      t.elogNext = s.elogNext)) ∧
    (AtHubs s w 0xA0 x c → s.preqs = [] → Happens (.registerWrite w) s (fun t => HubOnly s t ∧
      t.preqBase = x &&& 0x01FFFFFFFFFFF000 ∧ t.preqTail.toNat = x.toNat / 32 % 128 ∧ t.preqHead = s.preqHead)) ∧
    (AtHubs s w 0x92 x c ∨ AtHubs s w 0xB0 x c → exec (.registerWrite w) s = .next { s with hubWrites := [] })) ∧
  (∀ (s : State) (w : RegWrite) (reg : Nat) (x : Word) (c : Nat), w = ⟨reg, 0, 64, x, some c, false⟩ → s.hubWrites = [w] →
    ∀ y ∈ ([(0x81, .pcapWrite w), (0x82, .pstRequest w), (0x93, .invWrite w), (0x90, .registerWrite w),
      (0xA8, .registerWrite w)] : List (Nat × Instr)), reg = y.1 → exec y.2 s = .next { s with hubWrites := [] }) ∧
  (∀ s : State,
    (s.invBusy = false → Sleeps .invComplete s) ∧
    (s.invBusy = true → Happens .invComplete s (fun t => t.invBusy = false ∧ t.inv = s.inv ∧ t.mem = s.mem ∧
      (∀ c, (t.core c).strands = (s.core c).strands ∧ (t.core c).ls = (s.core c).ls) ∧
      let named := fun (l : Leaf) => l.ctx = s.inv.toNat / 64 % 64 ∧
        (s.inv.getLsbD 62 = true ∨
          let size := 2 ^ ([12, 16, 21, 30].getD (s.inv.toNat / 2 ^ 60 % 4) 0)
          let va := s.inv.toNat / 4096 % 2 ^ 45 * 4096 / size * size
          l.va < va + size ∧ va < l.va + l.size)
      (∀ (c : Nat) (l : Leaf), l ∈ (t.core c).utlb ↔ l ∈ (s.core c).utlb ∧ ¬ named l) ∧
      ∀ (u : Nat) (l : Leaf), l ∈ (t.cluster u).tlb ↔ l ∈ (s.cluster u).tlb ∧ ¬ named l)))

/-- R319, R320, R322: a tick of the governor takes averages within the ceiling, and steps a running die to the fastest state,
no faster than its request, that keeps the ceiling; averages beyond the ceiling and another choice cannot occur. A step completes. A droop stretches the clock of a running die
once, and is counted up to 0x7FFF. -/
def Sys2Proof.Claims.governorRule : Prop :=
  (∀ (s : State) (a1 a10 : BitVec 11) (choice : List (Fin 8)), s.ceilPast = [] →
    let picked := choice.length = 8 ∧ ∀ (d n : Fin 8), choice[d.val]? = some n → Picked s a1 a10 d n.val
    (¬ picked → Sleeps (.governorTick a1 a10 choice) s) ∧
    (picked → a10.toNat ≤ s.ceil.toNat → 20 * a1.toNat ≤ 21 * s.ceil.toNat → Happens (.governorTick a1 a10 choice) s (fun t =>
      t.a1 = a1 ∧ t.a10 = a10 ∧ t.ceil = s.ceil ∧ t.req = s.req ∧ t.cores = s.cores ∧ t.mem = s.mem ∧
      ∀ (d : Fin 8) (n : Fin 8), choice[d.val]? = some n →
        let takes := s.dies[d].power = .online ∧ s.dies[d].stepTo = none ∧ n.val < 7 ∧
          s.dies[d].cur.toNat ≠ n.val
        (takes → t.dies[d] = { s.dies[d] with stepTo := some (BitVec.ofNat 4 n.val) }) ∧ (¬ takes → t.dies[d] = s.dies[d]))) ∧
    (s.ceil.toNat < a10.toNat ∨ 21 * s.ceil.toNat < 20 * a1.toNat → Sleeps (.governorTick a1 a10 choice) s)) ∧
  (∀ (s : State) (d : Fin 8),
    let only := fun (t : State) (x : Die) => t.dies[d] = x ∧ (∀ e, e ≠ d → t.dies[e] = s.dies[e]) ∧ t.cores = s.cores ∧
      t.mem = s.mem
    (∀ n, s.dies[d].stepTo = some n →
      Happens (.pStateStepComplete d) s (fun t => only t { s.dies[d] with cur := n, stepTo := none })) ∧
    (s.dies[d].stepTo = none → Sleeps (.pStateStepComplete d) s) ∧
    (s.dies[d].power = .online → s.dies[d].stretched = false → Happens (.droopEvent d) s (fun t =>
      only t { s.dies[d] with stretched := true } ∧ t.str.toNat = min 0x7FFF (s.str.toNat + 1))) ∧
    (s.dies[d].stretched = true → Sleeps (.droopEvent d) s ∧
      Happens (.droopRecovery d) s (fun t => only t { s.dies[d] with stretched := false } ∧ t.str = s.str)) ∧
    (s.dies[d].stretched = false → Sleeps (.droopRecovery d) s))

/-- R285, R322: a request of 7 begins to park a running die; once no task holds it, its stores are at their homes and its
copies are done it is parked, its caches and cells gone, and the fabric is told. A request of 0 to 6 begins to bring a parked die back, which
then runs in a state no faster than its request. Until then nothing happens. -/
def Sys2Proof.Claims.parkingRule : Prop :=
  ∀ (s : State) (d : Fin 8),
    let x := s.dies[d]
    let only := fun (t : State) => (∀ e, e ≠ d → t.dies[e] = s.dies[e]) ∧ t.cores = s.cores ∧ t.mem = s.mem
    let cleared := fun (t : State) => ∀ u, (t.cluster u) = if u / 96 = d.val then
      { s.cluster u with cache := [], cells := [], tlb := [] } else s.cluster u
    (x.power = .online → nibble s.req.toNat d = 7 → Happens (.parkRequest d) s (fun t => only t ∧
      t.dies[d] = { x with power := .parking, reserve := [] } ∧ t.clusters = s.clusters)) ∧
    (nibble s.req.toNat d ≠ 7 → Sleeps (.parkRequest d) s) ∧
    (x.power = .parking → s.tasks = [] → (∀ y ∈ s.cores, y.1 / 3456 = d.val → y.2.outq = [] ∧ y.2.eq1 = [] ∧ y.2.eq2 = [] ∧
        ∀ h : Fin 11, y.2.strands[h].buf = []) → Happens (.dieParkProceed d) s (fun t => only t ∧ cleared t ∧
      t.dies[d].power = .parked ∧ t.dies[d].cur = 7 ∧ t.sent = s.sent ++ [.dieOffline d])) ∧
    ((∃ c, c / 3456 = d.val ∧ ((s.core c).outq ≠ [] ∨ (s.core c).eq1 ≠ [] ∨ (s.core c).eq2 ≠ [])) →
      Sleeps (.dieParkProceed d) s) ∧
    (x.power = .parked → nibble s.req.toNat d ≠ 7 → Happens (.unparkRequest d) s (fun t => only t ∧
      t.dies[d] = { x with power := .unparking })) ∧
    (nibble s.req.toNat d = 7 → Sleeps (.unparkRequest d) s) ∧
    (x.power = .unparking → nibble s.req.toNat d < 7 → Happens (.unparkComplete d) s (fun t => only t ∧ cleared t ∧
      t.dies[d].power = .online ∧ nibble s.req.toNat d ≤ t.dies[d].cur.toNat ∧ t.dies[d].cur.toNat < 7 ∧
      t.sent = s.sent ++ [.dieOnline d])) ∧
    (x.power ≠ .unparking → Sleeps (.unparkComplete d) s)

/-- R243, R246, R324: `ctxcmd` with 1 enables a context whose descriptor keeps the limits and whose root is aligned, and
copies both; it answers 1 for another descriptor, 3 for another root. With 2 it disables a context that has no task, and
its queued records go; it answers 2 for one that has. -/
def Sys2Proof.Claims.contextsRule : Prop :=
  ∀ (s : State) (w : RegWrite) (x : Word) (c : Nat), AtHubs s w 0x91 x c →
    let n := x.toNat % 64
    let answers := fun (t : State) (r : Nat) => HubOnly s t ∧ t.ctxRes.toNat = r ∧ t.ctxNum.toNat = n
    (x.toNat / 256 % 4 = 1 → s.ctxen.getLsbD n = false →
      (GoodDescriptor s n → rootDword s n % 4096 = 0 → Happens (.ctxEnable w) s (fun t => answers t 0 ∧
        t.ctxen = s.ctxen ||| BitVec.ofNat 64 (2 ^ n) ∧ (∀ i, i < 8 → ((t.ctx n).desc.getD i 0).toNat = descDword s n i) ∧
        (t.ctx n).root.toNat = rootDword s n ∧ (∀ m, m ≠ n → t.ctx m = s.ctx m))) ∧
      (¬ GoodDescriptor s n → Happens (.ctxEnable w) s (fun t => answers t 1 ∧ t.ctxen = s.ctxen ∧ t.ctxs = s.ctxs)) ∧
      (GoodDescriptor s n → rootDword s n % 4096 ≠ 0 →
        Happens (.ctxEnable w) s (fun t => answers t 3 ∧ t.ctxen = s.ctxen ∧ t.ctxs = s.ctxs))) ∧
    (x.toNat / 256 % 4 = 2 →
      ((∃ y ∈ s.tasks, y.ctx = n) → Happens (.ctxDisable w) s (fun t => answers t 2 ∧ t.ctxen = s.ctxen ∧
        t.queues = s.queues)) ∧
      ((∀ y ∈ s.tasks, y.ctx ≠ n) → s.ctxen.getLsbD n = true → Happens (.ctxDisable w) s (fun t => answers t 0 ∧
        t.ctxen = s.ctxen &&& ~~~(BitVec.ofNat 64 (2 ^ n)) ∧
        ∀ q, sget [] t.queues q = if (s.ctx n).qmask / 2 ^ q % 2 = 1 then [] else sget [] s.queues q)))

/-- R315, R328, R331: the host writes the bytes of module memory, and a sector written whole loses its poison. The mailbox
answers the newest nonce with 192 bytes, the first 128 as R331 lays them out. -/
def Sys2Proof.Claims.hostRule : Prop :=
  (∀ (s : State) (a : Nat) (bs : List Byte),
    (s.recovery = false → a + bs.length ≤ 2 ^ 52 → Happens (.hostCxlMemWrite a bs) s (fun t => t.cores = s.cores ∧
      Written (placeAt a bs) s.mem t.mem ∧
      ∀ n, n ∈ t.poisoned ↔ n ∈ s.poisoned ∧ ¬ (a ≤ 64 * n ∧ 64 * n + 64 ≤ a + bs.length))) ∧
    (s.recovery = true → Sleeps (.hostCxlMemWrite a bs) s)) ∧
  (∀ (s : State) (n : BitVec 256),
    (s.recovery = false → exec (.attestNonceWrite n) s = .next { s with nonce := some n }) ∧
    (s.nonce = some n → Happens .attestReportReady s (fun t => t.nonce = none ∧ t.cores = s.cores ∧ t.mem = s.mem ∧
      let part := fun (i k : Nat) => leNat ((t.report.drop i).take k)
      t.report.length = 192 ∧ part 0 2 = s.part.toNat ∧ part 2 1 = s.rev.toNat ∧ part 4 4 = 1 ∧ part 8 24 = 0 ∧
      part 32 32 = s.measure[0].toNat ∧ part 64 32 = s.measure[1].toNat ∧ part 96 32 = n.toNat ∧
      (∀ d : Fin 8, part 3 1 / 2 ^ d.val % 2 = 1 ↔ s.dies[d].power = .online ∨ s.dies[d].power = .parking)))) ∧
  (∀ s : State, s.nonce = none → Sleeps .attestReportReady s)

/-- R330: a reset with an image that fails its check leaves the module in recovery; else each measurement register is extended
with the image, a die that passes is on line and one that fails is not. No context is enabled and no task runs; what is
fused stays. Memory changes by the entries of the error log alone. -/
def Sys2Proof.Claims.moduleResetRule : Prop :=
  ∀ (s : State) (hash : BitVec 256) (dieOk : BitVec 8),
    let bare := fun (t : State) => t.tasks = [] ∧ t.ctxen = 0 ∧ t.ctxbase = 0 ∧ t.cores = [] ∧ t.lock = false ∧ t.ceil = 1200 ∧
      (∀ d, (t.cluster d).harvest = (s.cluster d).harvest ∧ (t.cluster d).sup = (s.cluster d).sup ∧ (t.cluster d).halt = false)
    Happens (.moduleReset false hash dieOk) s (fun t => bare t ∧ t.recovery = true ∧ t.mem = s.mem) ∧
    Happens (.moduleReset true hash dieOk) s (fun t => bare t ∧ t.recovery = false ∧
      t.measure = #v[extendMeasure 0 hash, extendMeasure 0 hash] ∧
      (∀ d : Fin 8, t.dies[d].power = if dieOk.getLsbD d.val then .online else .offline) ∧
      ∀ a, (a < s.elogBase.toNat ∨ s.elogBase.toNat + 4096 ≤ a) → memGet t.mem a = memGet s.mem a)

/-- The registers at the hubs (R317 to R327), power (R319 to R322) and parking (R285). Where the manual leaves the
point open, the clause states the model's choice (log 5, 19, 46). -/
def Obligations.HubsAndPower : Prop := hubRegistersRule ∧ governorRule ∧ parkingRule

/-- Contexts (R324), the host (R328, R331) and module reset (R330). Where the manual leaves the point open, the clause
states the model's choice (log 13, 15, 46, 47, 68). -/
def Obligations.ContextsAndReset : Prop := contextsRule ∧ hostRule ∧ moduleResetRule

/-! ### The machine's own moves: links, replies of other modules, views, collectives -/

namespace Sys2Proof.Claims

/-- Port `p` alone has changed, to `f`; the cores and memory stand as they were. -/
def PortOnly (s t : State) (p : Fin 24) (f : FPort) : Prop :=
  t.fports[p] = f ∧ (∀ q, q ≠ p → t.fports[q] = s.fports[q]) ∧ t.cores = s.cores ∧ t.mem = s.mem

/-- Among the flits that have left since `s`, or those that wait at port `q`, there is one of channel `v` with these
contents (R345). -/
def LeavesBy (s t : State) (q : Fin 24) (v : Fin 8) (x : OutLoad) : Prop :=
  (∃ new n ph, t.sent = s.sent ++ new ∧ Sent.flit q v n ph x ∈ new) ∨ (v, x) ∈ t.fports[q].wait

/-- A flit with these contents has left by some port, or waits for one. -/
def SentOrWaits (s t : State) (x : OutLoad) : Prop := ∃ (q : Fin 24) (v : Fin 8), LeavesBy s t q v x

/-- A flit of channel `vc` has left port `p` as `f`: on every channel but VC6, which carries the credits, the partner has
been given its room back (R343, R344). -/
def HasDelivered (s t : State) (p : Fin 24) (vc : Fin 8) (f : FPort) : Prop :=
  (vc = 6 → PortOnly s t p f ∧ t.sent = s.sent) ∧
  (vc ≠ 6 → (f.kept.filter (fun k => k.vc == 6)).length < 256 →
    PortOnly s t p { f with
      kept := f.kept ++ [⟨6, f.txSeq[(6 : Fin 8)], f.phase, .credit vc 1⟩]
      txSeq := f.txSeq.set (6 : Fin 8) (f.txSeq[(6 : Fin 8)] + 1) } ∧
    t.sent = s.sent ++ [.flit p 6 f.txSeq[(6 : Fin 8)] f.phase (.credit vc 1)])

/-- A location in another module's memory. -/
def Away (l : Loc) : Prop := ∃ r, l.at' = .remote r

end Sys2Proof.Claims

/-- R343, R345 to R347, R349: a port that is up takes the flits of a channel in the order of their numbers. The next one is
delivered; one that comes early waits, one that has come before goes, and one that fails its check is dropped and counted,
and a replay is asked for. A delivered flit's room is given back, and room that the partner gives lets what waits for it
leave. A store of another module is performed, each byte under its mask, and acknowledged; a
load answers memory's bytes; a request on an exported handle takes its place in the handle's order and is answered; an atomic adds to them; a line stays in the hub; a flit for another module goes on; notice of a
key changes the phase; an acknowledgement empties the replay buffer. -/
def Sys2Proof.Claims.flitsArriveRule : Prop :=
  ∀ (s : State) (p : Fin 24) (vc : Fin 8) (n : Nat) (ph : Bool) (x : FlitLoad),
    let f := s.fports[p]
    let takes := fun post : State → Prop => Happens (.flitReceive p vc n ph true true x) s post
    let moved : FPort := { f with badRun := 0, next := f.next.set vc (n + 1) }
    (f.state ≠ .up → ∀ a b, Sleeps (.flitReceive p vc n ph a b x) s) ∧
    (f.state = .up → ph = f.rxPhase → f.early = [] →
      (n < f.next[vc] → takes (fun t => PortOnly s t p { f with badRun := 0 } ∧ t.sent = s.sent)) ∧
      (f.next[vc] < n → takes (fun t => PortOnly s t p { f with badRun := 0, early := [(vc, n, x)] } ∧ t.sent = s.sent)) ∧
      (n = f.next[vc] →
        (x = .none → takes (fun t => HasDelivered s t p vc moved)) ∧
        (∀ src a bs, x = .store src a bs [] → takes (fun t => Written (placeAt a bs) s.mem t.mem ∧ t.cores = s.cores ∧
          SentOrWaits s t (.ack a))) ∧
        (∀ src a bs ms, x = .store src a bs ms → bs.length = ms.length → takes (fun t => t.cores = s.cores ∧
          SentOrWaits s t (.ack a) ∧ Written (placeAt a ((bs.zip ms).zipIdx.map (fun y =>
            (y.1.1 &&& y.1.2) ||| (memGet s.mem (a + y.2) &&& ~~~y.1.2)))) s.mem t.mem)) ∧
        (∀ dest a y, x = .transit dest a y → takes (fun t => t.mem = s.mem ∧ t.cores = s.cores ∧
          SentOrWaits s t (.transit dest a y))) ∧
        (∀ src a k, x = .load src a k → takes (fun t => t.mem = s.mem ∧ t.cores = s.cores ∧
          SentOrWaits s t (.response a (memRead s.mem a k)))) ∧
        (∀ src a b c, x = .atomic src a .aadd .i64 b c → a / 64 ∉ s.poisoned →
          let old := leNat (memRead s.mem a 8)
          takes (fun t => Written (placeAt a (leBytes 8 (BitVec.ofNat 64 old + b).toNat)) s.mem t.mem ∧
            t.cores = s.cores ∧ SentOrWaits s t (.response a (leBytes 8 old)))) ∧
        (∀ r a bs, x = .line r a bs → bs.length = 64 → takes (fun t => HasDelivered s t p vc moved ∧
          ∃ l, sfind t.rcopies (r * 2 ^ 52 + a / 64) = some l ∧ l.data = bs)) ∧
        (∀ ns, x = .keyNotice ns → takes (fun t =>
          HasDelivered s t p vc { moved with rxPhase := !f.rxPhase, rxRoll := true, rxFirst := ns })) ∧
        (∀ v m, x = .ack v m → f.wait = [] → takes (fun t => HasDelivered s t p vc
          { moved with kept := f.kept.filter (fun k => k.vc != v || decide (m ≤ k.seq)) })) ∧
        (∀ v m, x = .credit v m →
          (f.wait = [] → takes (fun t => HasDelivered s t p vc { moved with credits := f.credits.set v (f.credits[v] + m) })) ∧
          (∀ y, f.wait = [(v, y)] → 0 < m → (f.kept.filter (fun k => k.vc == v)).length < 256 → takes (fun t =>
            t.cores = s.cores ∧ t.mem = s.mem ∧ ∃ post, t.sent = s.sent ++ .flit p v f.txSeq[v] f.phase y :: post))) ∧
        (∀ src (h : Handle), x = .lap src h.v (.query 1) → s.handles = [h] → h.freed = false → h.imported = none →
          (h.holder = none → takes (fun t => t.cores = s.cores ∧ t.mem = s.mem ∧ t.handles = [h] ∧
            SentOrWaits s t (.response 0 (leBytes 8 (h.e[0] * h.e[1] * h.e[2] * h.e[3] % 2 ^ 48))))) ∧
          (h.holder ≠ none → takes (fun t => PortOnly s t p { f with badRun := 0, early := [(vc, n, x)] } ∧ t.sent = s.sent))) ∧
        (∀ src (chm : Fin 256) r, x = .joinRequest src chm r → s.chamber chm.val = none →
          takes (fun t => t.cores = s.cores ∧ t.mem = s.mem ∧ SentOrWaits s t (.noMember chm.val))))) ∧
    (f.state = .up → (f.kept.filter (fun k => k.vc == 6)).length < 256 → ∀ crcOk tagOk, crcOk = false ∨ tagOk = false →
      Happens (.flitReceive p vc n ph crcOk tagOk x) s (fun t => t.cores = s.cores ∧ t.mem = s.mem ∧
        t.fports[p].next = f.next ∧ t.fports[p].badRun = f.badRun + 1 ∧
        t.fports[p].crc.toNat = (if crcOk then f.crc.toNat else min 0xFFFF (f.crc.toNat + 1)) ∧
        t.fports[p].tag.toNat = (if crcOk then min 0xFFFF (f.tag.toNat + 1) else f.tag.toNat) ∧
        t.sent = s.sent ++ [.flit p 6 f.txSeq[(6 : Fin 8)] f.phase (.askReplay vc n)]))

/-- R344 to R346, R361: sixteen failed flits in a row make a port train again; one that goes down leaves what it has not had
acknowledged to another port of its direction; a port that is not up trains while its partner answers, and comes up with its
room told to the partner, once until the link is down, and what waits for it sent; the credits of a link that goes down are
void. A new key begins with a notice of the first number of each channel under it; the sender's old key goes
when no replay buffer holds a flit of it, the receiver's when every channel has come that far. A heartbeat leaves by every port that is up. -/
def Sys2Proof.Claims.linksRule : Prop :=
  (∀ (s : State) (p : Fin 24),
    let f := s.fports[p]
    let come := ∀ v : Fin 8, f.rxFirst.getD v.val 0 ≤ f.next[v]
    let room := (f.kept.filter (fun k => k.vc == 6)).length < 256
    let gone : FPort := { f with state := .down, early := [], badRun := 0, credits := .replicate 8 0, granted := false }
    (f.state = .up → 16 ≤ f.badRun →
        Happens (.linkRetrain p) s (fun t => PortOnly s t p { f with state := .training, badRun := 0 })) ∧
    (f.state ≠ .up ∨ f.badRun < 16 → Sleeps (.linkRetrain p) s) ∧
    (f.state ≠ .down → f.kept = [] → f.wait = [] → Happens (.linkDown p) s (fun t =>
      PortOnly s t p gone ∧ t.sent = s.sent)) ∧
    (∀ (vc v : Fin 8) (n m : Nat) (ph : Bool), f.state ≠ .down → f.kept = [⟨vc, n, ph, .credit v m⟩] → f.wait = [] →
      Happens (.linkDown p) s (fun t => PortOnly s t p { gone with kept := [] } ∧ t.sent = s.sent)) ∧
    (∀ (vc : Fin 8) (n : Nat) (ph : Bool) (x : OutLoad), f.state ≠ .down → f.kept = [⟨vc, n, ph, x⟩] → f.wait = [] →
      (∀ v m, x ≠ .credit v m) → (∀ q : Fin 24, q ≠ p → s.fports[q].kept = [] ∧ (vc = 6 ∨ 0 < s.fports[q].credits[vc])) → (∃ q, q ≠ p ∧ q.val / 4 = p.val / 4 ∧ s.fports[q].state = .up) →
      Happens (.linkDown p) s (fun t => t.cores = s.cores ∧ t.mem = s.mem ∧ t.fports[p].state = .down ∧ ∃ q : Fin 24, q ≠ p ∧
        q.val / 4 = p.val / 4 ∧ t.sent = s.sent ++ [.flit q vc s.fports[q].txSeq[vc] s.fports[q].phase x])) ∧
    (f.state = .down → Sleeps (.linkDown p) s) ∧
    (f.state ≠ .up → Happens (.portTrainingRetry p true) s (fun t => PortOnly s t p { f with state := .training })) ∧
    (f.state ≠ .up → f.kept = [] → f.wait = [] → Happens (.portTrainingRetry p false) s (fun t => PortOnly s t p gone)) ∧
    (∀ yes, f.state = .up → Sleeps (.portTrainingRetry p yes) s) ∧
    (f.state = .training → f.granted = true → f.wait = [] → Happens (.linkTrainingComplete p) s (fun t =>
      PortOnly s t p { f with state := .up } ∧ t.sent = s.sent)) ∧
    (f.state = .training → f.granted = false → f.wait = [] → f.kept = [] → Happens (.linkTrainingComplete p) s (fun t =>
      t.cores = s.cores ∧ t.mem = s.mem ∧ t.fports[p].state = .up ∧ t.fports[p].granted = true ∧
      t.sent = s.sent ++ (([0, 1, 2, 3, 4, 5, 7] : List (Fin 8)).zipIdx.map (fun y =>
        .flit p 6 (f.txSeq[(6 : Fin 8)] + y.2) f.phase (.credit y.1 (Config.creditsGiven y.1)))))) ∧
    (∀ vc x, f.state = .training → f.granted = true → f.wait = [(vc, x)] → f.kept = [] → vc = 6 ∨ 0 < f.credits[vc] → Happens (.linkTrainingComplete p) s (fun t =>
      t.cores = s.cores ∧ t.mem = s.mem ∧ t.fports[p].wait = [] ∧
      t.sent = s.sent ++ [.flit p vc f.txSeq[vc] f.phase x])) ∧
    (f.state ≠ .training → Sleeps (.linkTrainingComplete p) s) ∧
    (f.state = .up → f.roll = false → room → Happens (.keyRollover p) s (fun t => t.cores = s.cores ∧ t.mem = s.mem ∧
      t.fports[p].phase = !f.phase ∧ t.fports[p].roll = true ∧
      t.sent = s.sent ++ [.flit p 6 f.txSeq[(6 : Fin 8)] f.phase (.keyNotice ((List.finRange 8).map (fun v => f.txSeq[v] + (if v = 6 then 1 else 0))))])) ∧
    (f.roll = true → Sleeps (.keyRollover p) s) ∧
    (f.roll = true → (∀ k ∈ f.kept, k.phase = f.phase) →
      (come → Happens (.keyDiscard p) s (fun t => PortOnly s t p { f with roll := false, rxRoll := false })) ∧
      (¬ come → Happens (.keyDiscard p) s (fun t => PortOnly s t p { f with roll := false }))) ∧
    (f.roll = false ∨ (∃ k ∈ f.kept, k.phase ≠ f.phase) →
      (f.rxRoll = true → come → Happens (.keyDiscard p) s (fun t => PortOnly s t p { f with rxRoll := false })) ∧
      (f.rxRoll = false ∨ ¬ come → Sleeps (.keyDiscard p) s)) ∧
    (f.state = .up → (∀ q, q ≠ p → s.fports[q].state ≠ .up) → room → Happens .heartbeat s (fun t => t.cores = s.cores ∧
      t.mem = s.mem ∧ t.sent = s.sent ++ [.flit p 6 f.txSeq[(6 : Fin 8)] f.phase .heartbeat]))) ∧
  ∀ s : State, (∀ p : Fin 24, s.fports[p].state ≠ .up) → Sleeps .heartbeat s

/-- R349, R350: the acknowledgement of a store that has left for another module's memory takes it from the core's outward
stores. The reply to a load, or to an atomic, gives its register the value, and nothing waits for it any longer. -/
def Sys2Proof.Claims.repliesRule : Prop :=
  (∀ (s : State) (c : Nat) (o : OutEntry), (s.core c).outq = [o] → o.stage = 1 → (∃ y ∈ o.e.bytes, Away y.1) →
    (o.e.op = .store → Happens (.remoteAck c o.e.id) s (fun t => (t.core c).outq = [] ∧ t.mem = s.mem ∧
      (∀ h : Fin 11, SameRegs (s.strandAt c h) (t.strandAt c h) ∧ (t.strandAt c h).pc = (s.strandAt c h).pc) ∧
      ∀ e, e ≠ c → t.core e = s.core e)) ∧
    (o.e.op ≠ .store → Sleeps (.remoteAck c o.e.id) s) ∧
    (∀ (op : AtomOp) (ty : Ty) (b x : Word) (d : Fin 32) (bs : List Byte), o.e.op = .atom op ty b x d → ty.isInt = true →
      d ≠ 0 → (o.e.id, .g d) ∈ (s.strandAt c o.strand).pend → (s.strandAt c o.strand).loads = [] → 8 * bs.length = ty.bits →
      Happens (.remoteLoadReturn c o.strand o.e.id bs) s (fun t =>
        let w := t.strandAt c o.strand
        w.rg d = readAs ty (BitVec.ofNat 64 (leNat bs)) ∧ (∀ n, n ≠ d → w.rg n = (s.strandAt c o.strand).rg n) ∧
        w.pend = (s.strandAt c o.strand).pend.filter (fun y => y.1 != o.e.id) ∧ (t.core c).outq = [] ∧ t.mem = s.mem))) ∧
  (∀ (s : State) (c : Nat) (h : Fin 11) (l : PendLoad) (d : Fin 32) (ty : Ty) (bs : List Byte),
    let u := s.strandAt c h
    u.loads = [l] → l.locs ≠ [] → (∀ x ∈ l.locs, Away x) → u.buf = [] → l.dst = .g d ty → ty.isInt = true →
    8 * l.locs.length = ty.bits → bs.length = l.locs.length →
    Happens (.remoteLoadReturn c h l.id bs) s (fun t =>
      let w := t.strandAt c h
      w.rg d = heldG d (readAs ty (BitVec.ofNat 64 (leNat bs))) ∧ (∀ n, n ≠ d → w.rg n = u.rg n) ∧
      (∀ n, w.rv n = u.rv n) ∧ (∀ n, w.rp n = u.rp n) ∧ w.pc = u.pc ∧ w.loads = [] ∧
      w.pend = u.pend.filter (fun x => x.1 != l.id) ∧ t.mem = s.mem)) ∧
  (∀ (s : State) (c : Nat) (h : Fin 11) (id : Nat) (bs : List Byte), (s.strandAt c h).loads = [] → (s.core c).outq = [] →
    s.tasks = [] → Sleeps (.remoteLoadReturn c h id bs) s ∧ Sleeps (.remoteAck c id) s)

namespace Sys2Proof.Claims

/-- The chamber with number `n` is `k`, and no other chamber differs; the cores and memory stand as they were. -/
def ChamberOnly (s t : State) (n : Nat) (k : Chamber) : Prop :=
  t.chamber n = some k ∧ (∀ m, m ≠ n → t.chamber m = s.chamber m) ∧ t.cores = s.cores ∧ t.mem = s.mem

/-- The members that a set leaves, in the order of route indices, and the number of members that it names. -/
def staying (k : Chamber) (x : ViewSet) : List Nat := k.members.filter (fun r => !x.lost.contains r && !x.dropped.contains r)
def named (x : ViewSet) : Nat := x.lost.length + x.dropped.length + x.joined.length

/-- A set goes out by every port that is up but `via`, with each member that it names in one of the flits (R343, R361). -/
def Floods (s t : State) (via : Option (Fin 24)) (mk : ViewPart → OutLoad) (n view : Nat) (x : ViewSet) : Prop :=
  ∀ q : Fin 24, s.fports[q].state = .up → some q ≠ via →
    (named x ≤ 24 → LeavesBy s t q 7 (mk ⟨n, view, 0, 1, x⟩)) ∧
    ∀ r, r ∈ x.lost ++ x.dropped ++ x.joined → ∃ y : ViewPart, LeavesBy s t q 7 (mk y) ∧ y.chm = n ∧ y.view = view ∧
      r ∈ y.set.lost ++ y.set.dropped ++ y.set.joined ∧ named y.set ≤ 24

end Sys2Proof.Claims

/-- R361, R364: a member that falls silent, a proposal for the next view, or a request to join, makes the chamber's proposal.
It goes on by every other port; this module confirms it along the path by which it came, and sends on the confirmations of
others; the survivor with the lowest route index gathers them and commits when all have confirmed the same, or proposes the
sets merged when they have not. What adds nothing, names another view, no member, or this module itself, does nothing. -/
def Sys2Proof.Claims.proposalsRule : Prop :=
  ∀ (s : State) (chm : Fin 256) (k : Chamber) (r : Nat), s.chamber chm.val = some k →
    let own := k.members.getD k.rank 0
    let lost1 : ViewSet := { lost := [r] }
    let proposes := fun (i : Instr) (via : Option (Fin 24)) => Happens i s (fun t => t.lost = s.lost ∧
      ChamberOnly s t chm.val { k with proposal := some ⟨k.view + 1, lost1⟩, via := via } ∧
      Floods s t via .proposal chm.val (k.view + 1) lost1 ∧
      (∀ port, via = some port → (staying k lost1).head? ≠ some own →
        LeavesBy s t port 7 (.confirm own ⟨chm.val, k.view + 1, 0, 1, lost1⟩)) ∧
      (staying k lost1 = [own] → k.confirms = [] → Floods s t none .commit chm.val (k.view + 1) lost1))
    (k.proposal = none → k.owed = false → r ∈ k.members → r ≠ own → proposes (.moduleLossDetect chm r) none ∧
      ∀ port, proposes (.viewProposal chm port (k.view + 1) lost1) (some port)) ∧
    (∀ port, k.proposal = some ⟨k.view + 1, lost1⟩ → r ∈ k.members →
      Sleeps (.moduleLossDetect chm r) s ∧ Sleeps (.viewProposal chm port (k.view + 1) lost1) s) ∧
    (r ∉ k.members ∨ r = own → Sleeps (.moduleLossDetect chm r) s) ∧
    (∀ port v x, v ≠ k.view + 1 ∨ own ∈ x.lost ∨ own ∈ x.dropped → Sleeps (.viewProposal chm port v x) s) ∧
    (k.proposal = none → ∀ v x, Sleeps (.viewConfirm chm r v x) s) ∧
    (∀ (p : Proposal) (x : ViewSet), k.proposal = some p → k.owed = false → r ∈ staying k p.set → r ≠ own → own ∉ x.lost →
      own ∉ x.dropped → k.members.Nodup →
      let others := (staying k p.set).filter (fun y => y != own)
      ((staying k p.set).head? = some own → k.confirms = [] → others = [r] → x = p.set → p.set.joined = [] →
        Happens (.viewConfirm chm r p.view x) s (fun t =>
          ChamberOnly s t chm.val { k with confirms := [(r, p)] } ∧ Floods s t none .commit chm.val p.view p.set)) ∧
      ((staying k p.set).head? = some own → k.confirms = [] → others ≠ [r] →
        Happens (.viewConfirm chm r p.view x) s (fun t =>
          ChamberOnly s t chm.val { k with confirms := [(r, ⟨p.view, x⟩)] } ∧ t.sent = s.sent)) ∧
      ((staying k p.set).head? = some own → k.confirms = [] → others = [r] → (∃ y, ¬ (y ∈ x.lost ↔ y ∈ p.set.lost)) →
        Happens (.viewConfirm chm r p.view x) s (fun t => t.cores = s.cores ∧ t.mem = s.mem ∧
          ∃ j q, t.chamber chm.val = some j ∧ j.proposal = some q ∧ q.view = p.view ∧
            (∀ y, y ∈ q.set.lost ↔ y ∈ p.set.lost ∨ y ∈ x.lost) ∧
            (∀ y, y ∈ q.set.dropped ↔ (y ∈ p.set.dropped ∨ y ∈ x.dropped) ∧ y ∉ q.set.lost) ∧
            Floods s t none .proposal chm.val q.view q.set)) ∧
      (∀ port, (staying k p.set).head? ≠ some own → k.via = some port → named x ≤ 24 →
        Happens (.viewConfirm chm r p.view x) s (fun t => ChamberOnly s t chm.val k ∧
          LeavesBy s t port 7 (.confirm r ⟨chm.val, p.view, 0, 1, x⟩)))) ∧
    (∀ (p : Fin 24) (vc : Fin 8) (src : Nat), let f := s.fports[p]
      f.state = .up → f.early = [] → k.proposal = none → r ∉ k.members →
      Happens (.flitReceive p vc f.next[vc] f.rxPhase true true (.joinRequest src chm r)) s (fun t =>
        t.cores = s.cores ∧ t.mem = s.mem ∧
        Floods s t none .proposal chm.val (k.view + 1) { joined := [r] } ∧
        ∃ j, t.chamber chm.val = some j ∧ j.proposal = some ⟨k.view + 1, { joined := [r] }⟩ ∧ r ∈ j.joining ∧
          j.members = k.members ∧ j.view = k.view))

/-- R361 to R364: a commit of the next view takes the departed from the members, and a lost one's module is marked; every
strand that uses the chamber has the membership-change trap to take; the gatherer of the confirmations takes it only once all
have come. At a collective boundary a joiner is admitted; the
joiner's own module takes the members as the commit gives them. Another view number, or no request to join, changes
nothing. -/
def Sys2Proof.Claims.viewsRule : Prop :=
  (∀ (s : State) (chm : Fin 256) (k : Chamber) (r : Nat), s.chamber chm.val = some k →
    let own := k.members.getD k.rank 0
    let left := k.members.filter (fun x => x != r)
    let next : Chamber := { k with
      view := k.view + 1
      members := left
      rank := left.idxOf own
      kept := 0
      joined := 0
      departed := k.members.countP (fun x => x == r)
      proposal := none
      via := none
      owed := false
      confirms := [] }
    (r ∈ k.members → r ≠ own → k.proposal = none → k.joining = [] → (∀ y ∈ s.cores, y.2.eq3 = []) →
      Happens (.viewCommit chm (k.view + 1) [] [r]) s (fun t => t.mem = s.mem ∧ t.lost = s.lost ∧
        t.chamber chm.val = some next ∧ ∀ (c : Nat) (h : Fin 11), (s.core c).ctx = k.ctx → (s.strandAt c h).live = true →
          SameRegs (s.strandAt c h) (t.strandAt c h) ∧
          (chm.val ∈ (s.strandAt c h).uses → ∃ ch ∈ (t.strandAt c h).changes, ch.chm = chm.val ∧ ch.view = k.view + 1 ∧
            ch.sub = 0 ∧ ch.count = next.departed)) ∧
      (∀ m, s.cores = [] → s.routeOf k.ctx r = some m → m ∉ s.lost → Happens (.viewCommit chm (k.view + 1) [r] []) s (fun t =>
        t.mem = s.mem ∧ t.chamber chm.val = some next ∧ m ∈ t.lost ∧ s.lostCount < t.lostCount))) ∧
    (∀ v l d, own ∈ k.members → v ≠ k.view + 1 ∨ own ∈ l ∨ own ∈ d → Sleeps (.viewCommit chm v l d) s) ∧
    (∀ (p : Proposal) y v l d, k.proposal = some p → (staying k p.set).head? = some own → y ∈ staying k p.set → y ≠ own →
      (∀ z ∈ k.confirms, z.1 ≠ y) → Sleeps (.viewCommit chm v l d) s) ∧
    (∀ (ms : List Nat) (mode : Bool), k.joining ≠ [] → r ∉ k.members → k.proposal = none → (∀ y ∈ s.cores, y.2.eq3 = []) →
      Happens (.joinCommit chm (k.view + 1) ms [r] [] [] mode) s (fun t => t.mem = s.mem ∧
        (∀ m, s.routeOf k.ctx r = some m → m ∉ t.lost) ∧
        ∃ j, t.chamber chm.val = some j ∧ j.view = k.view + 1 ∧ j.joined = 1 ∧ j.departed = 0 ∧ j.joining = k.joining.filter (fun x => x != r) ∧
          ∀ x, x ∈ j.members ↔ x = r ∨ x ∈ k.members)) ∧
    (∀ ms js ls ds mode, k.joining = [] → Sleeps (.joinCommit chm (k.view + 1) ms js ls ds mode) s)) ∧
  (∀ (s : State) (chm : Fin 256) (q : KReq) (v own : Nat) (ms : List Nat) (mode : Bool), s.chamber chm.val = none →
    s.kreqs = [q] → q.chm = chm.val → q.join = true → own ∈ ms →
    (∀ x ∈ ms, s.routeOf q.ctx x = some s.self.toNat ↔ x = own) →
    Happens (.joinCommit chm v ms [own] [] [] mode) s (fun t => t.kreqs = [] ∧ t.mem = s.mem ∧
      t.chamber chm.val = some { ctx := q.ctx, view := v, members := ms, rank := ms.idxOf own, mode := mode }))

/-- R359: a waiting `kview` is matched once every other module of its list asks: with equal lists and modes the chamber is
formed and the strand is answered 0, else it is answered 2. Alone for its time it is answered 4, as a `kjoin` is. While
another module is missing, or nothing waits, nothing happens. -/
def Sys2Proof.Claims.matchesRule : Prop :=
  (∀ (s : State) (chm : Fin 256) (q : KReq) (c : Nat), s.kreqs = [q] → q.chm = chm.val →
    s.coreByLnum q.ctx q.lnum = some c →
    let u := s.strandAt c q.strand
    let answers := fun (i : Instr) (w : WaitObj) (x : Option Chamber) => Happens i s (fun t => t.kreqs = [] ∧ t.mem = s.mem ∧
      t.strandAt c q.strand = { u with wait := w } ∧ (∀ h, h ≠ q.strand → t.strandAt c h = s.strandAt c h) ∧
      (∀ e, e ≠ c → t.core e = s.core e) ∧ t.chamber chm.val = x)
    (q.join = false → u.wait = .kview chm.val none →
      answers (.kviewTimeout chm) (.kview chm.val (some 4)) (s.chamber chm.val) ∧
      (∀ (own : Nat) (os : List ViewReq), own ∈ q.list → (∀ x ∈ q.list, s.routeOf q.ctx x = some s.self.toNat ↔ x = own) →
        ((∀ x ∈ q.list, x ≠ own → ∃ o ∈ os, o.route = x) → (∀ o ∈ os, o.route ∈ q.list ∧ o.route ≠ own) →
          ((∀ o ∈ os, o.list = q.list ∧ o.mode = q.mode) → answers (.kviewMatch chm os) (.kview chm.val (some 0))
            (some { ctx := q.ctx, view := 1, members := q.list, rank := q.list.idxOf own, mode := q.mode })) ∧
          ((∃ o ∈ os, o.list ≠ q.list ∨ o.mode ≠ q.mode) →
            answers (.kviewMatch chm os) (.kview chm.val (some 2)) (s.chamber chm.val))) ∧
        ((∃ x ∈ q.list, x ≠ own ∧ ∀ o ∈ os, o.route ≠ x) → Sleeps (.kviewMatch chm os) s))) ∧
    (q.join = true → u.wait = .kjoin chm.val none →
      answers (.kjoinTimeout chm) (.kjoin chm.val (some 4)) (s.chamber chm.val))) ∧
  ∀ (s : State) (chm : Fin 256) (os : List ViewReq), s.kreqs = [] →
    Sleeps (.kviewMatch chm os) s ∧ Sleeps (.kviewTimeout chm) s ∧ Sleeps (.kjoinTimeout chm) s

/-- R352 to R358, R362: an operation of EQ3 that has its place is accepted; without a chamber it answers 6, and a gather of a
chamber of one takes in its own elements and starts. A flit with another view's number is discarded and counted; the block
of a broadcast is written to the destination. An operation whose steps are complete answers 0 with the view's number;
one that the members disagree on answers 7, and nothing moves. -/
def Sys2Proof.Claims.collectivesRule : Prop :=
  (∀ (s : State) (c : Nat) (o : CollOp), (s.core c).eq3 = [o] → o.d ≠ 0 → (o.id, .g o.d) ∈ (s.strandAt c o.strand).pend →
    s.cores.Pairwise (fun x y => x.1 < y.1) → (∀ e, e ≠ c → (s.core e).eq3 = []) → s.handles = [] → o.res = [] →
    let k := s.core c
    let ends := fun (i : Instr) (x : Word) => Happens i s (fun t => (t.core c).eq3 = [] ∧ (t.core c).ls = k.ls ∧ t.mem = s.mem ∧
      (t.strandAt c o.strand).rg o.d = x ∧ (∀ n, n ≠ o.d → (t.strandAt c o.strand).rg n = (s.strandAt c o.strand).rg n) ∧
      ∀ e, e ≠ c → t.core e = s.core e)
    (o.drained = true → o.accepted = none → (∀ j, s.chamber o.chm = some j → j.ctx ≠ k.ctx) →
      ends (.collectiveAccept c) (BitVec.ofNat 64 (6 * 2 ^ 60))) ∧
    (o.drained = false → o.accepted = none → Sleeps (.collectiveAccept c) s) ∧
    (∀ (j : Chamber) (n src dst : Nat), o.drained = true → o.accepted = none → o.started = false → o.major = .kgath →
      s.chamber o.chm = some j → j.ctx = k.ctx → j.members.length = 1 → j.rank = 0 → j.joining = [] → k.bad = [] →
      k.weak = [] →
      1 ≤ n → n ≤ 1024 → src % 16 = 0 → dst % 16 = 0 → src < 2 ^ 32 → dst < 2 ^ 32 →
      (k.readBytes (k.lsRange o.desc 32)).1 =
        leBytes 4 n ++ leBytes 4 0 ++ leBytes 4 src ++ leBytes 4 dst ++ leBytes 8 0 ++ leBytes 8 0 →
      Happens (.collectiveAccept c) s (fun t => t.mem = s.mem ∧ (t.core c).ls = k.ls ∧ ∃ p, (t.core c).eq3 = [p] ∧
        p.started = true ∧ p.entered = true ∧
        p.own = (List.range n).map (fun i => k.getElem src o.ty.bits i))) ∧
    (∀ (j : Chamber) (d : CollDesc), o.accepted = some d → o.started = true → s.chamber o.chm = some j →
      (∀ f : CollFlit, f.chamber = o.chm →
        (f.view ≠ j.view → Happens (.collectiveFlit f) s (fun t => t.cores = s.cores ∧ t.mem = s.mem ∧
          t.chamber o.chm = some { j with badTag := j.badTag + 1 })) ∧
        (f.view = j.view → o.ty ≠ .e4m3 → o.major = .kbcast → d.hnd = 0 → j.members.length = 2 → d.root < 2 → j.rank < 2 →
          j.rank ≠ d.root → f.srcRank = d.root → o.steps = 0 → o.got = 0 → o.part = [] → f.cells = [] →
          f.elems.length = d.n → Happens (.collectiveFlit f) s (fun t => t.mem = s.mem ∧
            (t.core c).ls = (k.putElems d.dst o.ty.bits (f.elems.zipIdx.map (fun x => (x.2, x.1)))).ls ∧
            (t.core c).eq3 = [{ o with steps := 1 }] ∧ ∀ e, e ≠ c → t.core e = s.core e))) ∧
      (o.major = .kbcast → j.rank = d.root → o.own = [] → ends (.collectiveComplete c o.id false)
        (BitVec.ofNat 64 (2 ^ 16 * (j.view % 2 ^ 32) + o.out.toNat))) ∧
      (1 < j.members.length → o.steps = 0 → o.got = 0 → ends (.collectiveComplete c o.id true)
        (BitVec.ofNat 64 (7 * 2 ^ 60 + 2 ^ 16 * (j.view % 2 ^ 32))))) ∧
    (o.started = false → ∀ b, Sleeps (.collectiveComplete c o.id b) s)) ∧
  ∀ (s : State) (f : CollFlit), s.chamber f.chamber = none → Sleeps (.collectiveFlit f) s

/-- Links and flits (R343 to R349). Where the manual leaves the point open, the clause states the model's choice (log
52, 54, 56, 58, 78). -/
def Obligations.Fabric : Prop := flitsArriveRule ∧ linksRule ∧ repliesRule

/-- Views (R359 to R364) and collectives (R352 to R358). Where the manual leaves the point open, the clause states the
model's choice (log 48, 50, 51, 53, 78). -/
def Obligations.ViewsAndCollectives : Prop := proposalsRule ∧ viewsRule ∧ matchesRule ∧ collectivesRule
end

