-- ==== Sys2Proof/Laws/Links.lean ====
section
/-! SUPPORT. Laws of the links: sending over the fabric touches the ports, the flits sent and, where it draws one, the counter
of free values, and nothing else. -/

namespace Sys2Proof.Machine

/-- Besides the fabric's ports and the flits sent, at most the counter of free values differs. -/
def State.OnlyLinks (s t : State) : Prop := t = { s with fports := t.fports, sent := t.sent, draws := t.draws }

namespace State.OnlyLinks

theorem rfl' (s : State) : s.OnlyLinks s := rfl

theorem trans {s t u : State} (h : s.OnlyLinks t) (k : t.OnlyLinks u) : s.OnlyLinks u := by
  unfold OnlyLinks at h k ⊢
  rw [k, h]

theorem modPort (s : State) (p : Fin 24) (f : FPort → FPort) : s.OnlyLinks (s.modPort p f) := rfl

theorem draw (s : State) : s.OnlyLinks s.draw := rfl

/-- A flit leaves, or waits. -/
theorem tx (s : State) (p : Fin 24) (vc : Fin 8) (x : OutLoad) : s.OnlyLinks (s.tx p vc x) := by
  dsimp only [State.tx]
  split <;> rfl

/-- Moves of the links one after another. -/
theorem foldl {α : Type} {f : State → α → State} (h : ∀ (s : State) (x : α), s.OnlyLinks (f s x)) :
    ∀ (xs : List α) (s : State), s.OnlyLinks (xs.foldl f s)
  | [], s => rfl' s
  | x :: xs, s => (h s x).trans (foldl h xs (f s x))

theorem flush (s : State) (p : Fin 24) : s.OnlyLinks (s.flush p) := by
  refine (modPort s p fun f => { f with wait := [] }).trans ?_
  exact foldl (f := fun s (y : Fin 8 × OutLoad) => s.tx p y.1 y.2) (fun s y => tx s p y.1 y.2) s.fports[p].wait _

theorem credited (s : State) (p : Fin 24) (vc : Fin 8) (n : Nat) : s.OnlyLinks (s.credited p vc n) :=
  (modPort s p _).trans (flush _ p)

theorem giveBack (s : State) (p : Fin 24) (vc : Fin 8) : s.OnlyLinks (s.giveBack p vc) := by
  unfold State.giveBack
  split
  · exact rfl' s
  · exact tx ..

theorem grant (s : State) (p : Fin 24) : s.OnlyLinks (s.grant p) := by
  unfold State.grant
  split
  · exact rfl' s
  · exact (modPort s p _).trans (foldl (fun s vc => tx s p 6 _) _ _)

theorem portDown (s : State) (p : Fin 24) : s.OnlyLinks (s.portDown p) := by
  dsimp only [State.portDown]
  refine trans ?_ (foldl (f := fun s (x : Fin 8 × OutLoad) => s.tx (s.linkFor (p.val / 4) (p.val % 4)) x.1 x.2)
    (fun s x => tx s _ x.1 x.2) _ _)
  exact modPort s p _

theorem txTo (s : State) (m base addr : Nat) (x : OutLoad) : s.OnlyLinks (s.txTo m base addr x) := tx ..

theorem txPlain (s : State) (m : Nat) (vc : Fin 8) (x : OutLoad) : s.OnlyLinks (s.txPlain m vc x) :=
  (tx ..).trans (draw _)

theorem txOthers (s : State) (via : Option (Fin 24)) (vc : Fin 8) (x : OutLoad) : s.OnlyLinks (s.txOthers via vc x) :=
  foldl (fun s p => tx s p vc x) _ _

/-- Neither the cores nor memory, nor the chambers, differ. -/
theorem frame {s t : State} (h : s.OnlyLinks t) : t.cores = s.cores ∧ t.mem = s.mem ∧ t.handles = s.handles ∧
    t.chambers = s.chambers := by
  rw [h]
  exact ⟨rfl, rfl, rfl, rfl⟩

end State.OnlyLinks

/-- A flit leaves by a port that is up and has room and a credit (R344, R345). -/
theorem State.tx_leaves {s : State} {p : Fin 24} {vc : Fin 8} (x : OutLoad)
    (h : (s.fports[p].state == .up && s.fports[p].room vc && s.fports[p].credit vc) = true) :
    (s.tx p vc x).sent = s.sent ++ [.flit p vc s.fports[p].txSeq[vc] s.fports[p].phase x] := by
  dsimp only [State.tx]
  rw [if_pos h]

/-- Otherwise it waits at the port. -/
theorem State.tx_waits {s : State} {p : Fin 24} {vc : Fin 8} (x : OutLoad)
    (h : ¬ (s.fports[p].state == .up && s.fports[p].room vc && s.fports[p].credit vc) = true) :
    s.tx p vc x = s.modPort p (fun f => { f with wait := f.wait ++ [(vc, x)] }) := by
  dsimp only [State.tx]
  rw [if_neg h]

end Sys2Proof.Machine
end

