-- ==== Sys2Proof/Laws/Sparse.lean ====
section
/-! SUPPORT. Laws of sparse data and of memory: read after write, the canonical form and that every memory operation
keeps it. -/

namespace Sys2Proof.Machine

/-! ### Lists of a key and a value -/

@[simp] theorem sfind_sput_same {α : Type} (m : Sparse α) (k : Nat) (v : α) : sfind (sput m k v) k = some v := by
  induction m with
  | nil => simp [sput, sfind]
  | cons x xs ih =>
    unfold sput
    split
    · simp [sfind]
    · split
      · simp [sfind]
      · simp [sfind, *]

theorem sfind_sput_ne {α : Type} (m : Sparse α) {k j : Nat} (h : j ≠ k) (v : α) :
    sfind (sput m k v) j = sfind m j := by
  induction m with
  | nil => simp [sput, sfind, h.symm]
  | cons x xs ih =>
    unfold sput
    split
    · simp [sfind, h.symm]
    · split
      · next hx => simp [sfind, hx, h.symm]
      · simp only [sfind, ih]

@[simp] theorem sget_sput_same {α : Type} (d : α) (m : Sparse α) (k : Nat) (v : α) : sget d (sput m k v) k = v := by
  simp [sget]

theorem sget_sput_ne {α : Type} (d : α) (m : Sparse α) {k j : Nat} (h : j ≠ k) (v : α) :
    sget d (sput m k v) j = sget d m j := by
  simp [sget, sfind_sput_ne m h]

@[simp] theorem sput_sput {α : Type} (m : Sparse α) (k : Nat) (v w : α) : sput (sput m k v) k w = sput m k w := by
  induction m with
  | nil => simp [sput]
  | cons x xs ih =>
    by_cases h1 : k < x.1
    · simp [sput, h1]
    · by_cases h2 : x.1 = k
      · simp [sput, h2]
      · simp [sput, h1, h2, ih]

@[simp] theorem sfind_serase_same {α : Type} (m : Sparse α) (k : Nat) : sfind (serase m k) k = none := by
  induction m with
  | nil => rfl
  | cons x xs ih =>
    by_cases h : x.1 = k
    · simpa [serase, h] using ih
    · simpa [serase, h, sfind] using ih

theorem sfind_serase_ne {α : Type} (m : Sparse α) {k j : Nat} (h : j ≠ k) : sfind (serase m k) j = sfind m j := by
  induction m with
  | nil => rfl
  | cons x xs ih =>
    by_cases hx : x.1 = k
    · simpa [serase, hx, sfind, h.symm] using ih
    · by_cases hj : x.1 = j
      · simp [serase, sfind, hj, h]
      · simpa [serase, hx, sfind, hj] using ih

/-! ### Reads after writes -/

@[simp] theorem memGet_memSet_same (m : Sparse Byte) (a : Nat) (b : Byte) : memGet (memSet m a b) a = b := by
  unfold memGet memSet sset
  split
  · next h => simp [sget, h]
  · simp

theorem memGet_memSet_ne (m : Sparse Byte) {a c : Nat} (h : c ≠ a) (b : Byte) :
    memGet (memSet m a b) c = memGet m c := by
  unfold memGet memSet sset
  split
  · simp [sget, sfind_serase_ne m h]
  · exact sget_sput_ne _ m h b

@[simp] theorem memGet_nil (a : Nat) : memGet [] a = 0 := rfl

/-- A byte outside those written reads as before. -/
theorem memGet_memSetAll_of_not_mem (bs : List (Nat × Byte)) (m : Sparse Byte) {a : Nat}
    (h : ∀ x ∈ bs, x.1 ≠ a) : memGet (memSetAll m bs) a = memGet m a := by
  induction bs generalizing m with
  | nil => rfl
  | cons x xs ih =>
    rw [memSetAll, ih _ (fun y hy => h y (List.mem_cons_of_mem _ hy))]
    exact memGet_memSet_ne m (h x List.mem_cons_self).symm x.2

theorem mem_placeAt {a : Nat} {bs : List Byte} {x : Nat × Byte} (h : x ∈ placeAt a bs) :
    a ≤ x.1 ∧ x.1 < a + bs.length := by
  induction bs generalizing a with
  | nil => simp [placeAt] at h
  | cons b bs ih =>
    simp only [placeAt, List.mem_cons] at h
    obtain rfl | h := h
    · simp
    · have := ih h
      simp only [List.length_cons]
      omega

/-- A byte outside the range written reads as before. -/
theorem memGet_placeAt_of_outside (m : Sparse Byte) {a c : Nat} (bs : List Byte) (h : c < a ∨ a + bs.length ≤ c) :
    memGet (memSetAll m (placeAt a bs)) c = memGet m c := by
  refine memGet_memSetAll_of_not_mem _ m (fun x hx => ?_)
  have := mem_placeAt hx
  omega

/-- The bytes written are read back. -/
theorem memRead_placeAt (m : Sparse Byte) (a : Nat) (bs : List Byte) :
    memRead (memSetAll m (placeAt a bs)) a bs.length = bs := by
  induction bs generalizing m a with
  | nil => rfl
  | cons b bs ih =>
    simp only [placeAt, memSetAll, List.length_cons, memRead]
    rw [ih, memGet_placeAt_of_outside _ _ (by omega), memGet_memSet_same]

@[simp] theorem memRead_length (m : Sparse Byte) (a n : Nat) : (memRead m a n).length = n := by
  induction n generalizing a with
  | zero => rfl
  | succ n ih => simp [memRead, ih]

/-! ### The canonical form -/

/-- The canonical form as a property: keys rise, and no listed value is the default. -/
theorem Memory.wf_iff (m : Sparse Byte) :
    Memory.wf m = true ↔ m.Pairwise (fun x y => x.1 < y.1) ∧ ∀ x ∈ m, x.2 ≠ unlisted := by
  induction m with
  | nil => simp [Memory.wf]
  | cons x m ih =>
    cases m with
    | nil => simp [Memory.wf]
    | cons y m =>
      simp only [Memory.wf, Bool.and_eq_true, bne_iff_ne, decide_eq_true_eq, ih]
      constructor
      · rintro ⟨⟨hx, hxy⟩, hp, hd⟩
        refine ⟨List.pairwise_cons.2 ⟨fun z hz => ?_, hp⟩, ?_⟩
        · obtain rfl | hz := List.mem_cons.1 hz
          · exact hxy
          · exact hxy.trans ((List.pairwise_cons.1 hp).1 z hz)
        · intro z hz
          obtain rfl | hz := List.mem_cons.1 hz
          · exact hx
          · exact hd z hz
      · rintro ⟨hp, hd⟩
        have hp' := List.pairwise_cons.1 hp
        exact ⟨⟨hd x List.mem_cons_self, hp'.1 y List.mem_cons_self⟩, hp'.2,
          fun z hz => hd z (List.mem_cons_of_mem _ hz)⟩

theorem mem_sput {α : Type} {m : Sparse α} {k : Nat} {v : α} {x : Nat × α} (h : x ∈ sput m k v) :
    x = (k, v) ∨ x ∈ m := by
  induction m with
  | nil => simpa [sput] using h
  | cons y m ih =>
    unfold sput at h
    split at h
    · simpa using h
    · split at h
      · obtain rfl | h := List.mem_cons.1 h
        · exact .inl rfl
        · exact .inr (List.mem_cons_of_mem _ h)
      · obtain rfl | h := List.mem_cons.1 h
        · exact .inr List.mem_cons_self
        · exact (ih h).imp_right (List.mem_cons_of_mem _)

/-- Setting a key keeps the keys rising. -/
theorem sput_pairwise {α : Type} {m : Sparse α} (h : m.Pairwise (fun x y => x.1 < y.1)) (k : Nat) (v : α) :
    (sput m k v).Pairwise (fun x y => x.1 < y.1) := by
  induction m with
  | nil => simp [sput]
  | cons x m ih =>
    obtain ⟨hx, hm⟩ := List.pairwise_cons.1 h
    unfold sput
    split
    · next hk =>
      refine List.pairwise_cons.2 ⟨fun y hy => ?_, h⟩
      obtain rfl | hy := List.mem_cons.1 hy
      · exact hk
      · exact hk.trans (hx y hy)
    · split
      · next hk => exact List.pairwise_cons.2 ⟨fun y hy => hk ▸ hx y hy, hm⟩
      · next hk hne =>
        refine List.pairwise_cons.2 ⟨fun y hy => ?_, ih hm⟩
        obtain rfl | hy := mem_sput hy
        · show x.1 < k
          omega
        · exact hx y hy

/-- Writing one byte keeps the canonical form. -/
theorem Memory.wf_memSet {m : Sparse Byte} (h : Memory.wf m = true) (a : Nat) (b : Byte) :
    Memory.wf (memSet m a b) = true := by
  rw [Memory.wf_iff] at h ⊢
  unfold memSet sset
  split
  · exact ⟨h.1.filter _, fun x hx => h.2 x (List.mem_of_mem_filter hx)⟩
  · next hb =>
    refine ⟨sput_pairwise h.1 a b, fun x hx => ?_⟩
    obtain rfl | hx := mem_sput hx
    · exact hb
    · exact h.2 x hx

/-- Writing several bytes keeps the canonical form. -/
theorem Memory.wf_memSetAll {m : Sparse Byte} (h : Memory.wf m = true) (bs : List (Nat × Byte)) :
    Memory.wf (memSetAll m bs) = true := by
  induction bs generalizing m with
  | nil => exact h
  | cons x xs ih => exact ih (Memory.wf_memSet h x.1 x.2)

/-- Memory with nothing listed is in the canonical form. -/
@[simp] theorem Memory.wf_nil : Memory.wf [] = true := rfl

theorem sfind_of_lt {α : Type} {m : Sparse α} {k : Nat} (h : ∀ x ∈ m, k < x.1) : sfind m k = none := by
  induction m with
  | nil => rfl
  | cons x m ih =>
    have := h x List.mem_cons_self
    simp only [sfind, if_neg (show ¬ x.1 = k by omega)]
    exact ih (fun y hy => h y (List.mem_cons_of_mem _ hy))

/-- Memories in the canonical form that read alike are equal. -/
theorem Memory.ext_of_wf {m n : Sparse Byte} (hm : Memory.wf m = true) (hn : Memory.wf n = true)
    (h : ∀ a, memGet m a = memGet n a) : m = n := by
  rw [Memory.wf_iff] at hm hn
  induction m generalizing n with
  | nil =>
    cases n with
    | nil => rfl
    | cons y n =>
      have := h y.1
      simp only [memGet, sget, sfind, if_pos, Option.getD_none, Option.getD_some] at this
      exact absurd this.symm (hn.2 y List.mem_cons_self)
  | cons x m ih =>
    have hx := List.pairwise_cons.1 hm.1
    cases n with
    | nil =>
      have := h x.1
      simp only [memGet, sget, sfind, if_pos, Option.getD_none, Option.getD_some] at this
      exact absurd this (hm.2 x List.mem_cons_self)
    | cons y n =>
      have hy := List.pairwise_cons.1 hn.1
      have hxy : x.1 = y.1 := by
        rcases Nat.lt_trichotomy x.1 y.1 with hlt | heq | hgt
        · have := h x.1
          rw [memGet, memGet, sget, sget, sfind_of_lt (m := y :: n) (k := x.1) (fun z hz => by
            obtain rfl | hz := List.mem_cons.1 hz
            · exact hlt
            · exact hlt.trans (hy.1 z hz))] at this
          simp only [sfind, if_pos, Option.getD_none, Option.getD_some] at this
          exact absurd this (hm.2 x List.mem_cons_self)
        · exact heq
        · have := h y.1
          rw [memGet, memGet, sget, sget, sfind_of_lt (m := x :: m) (k := y.1) (fun z hz => by
            obtain rfl | hz := List.mem_cons.1 hz
            · exact hgt
            · exact hgt.trans (hx.1 z hz))] at this
          simp only [sfind, if_pos, Option.getD_none, Option.getD_some] at this
          exact absurd this.symm (hn.2 y List.mem_cons_self)
      have hv : x.2 = y.2 := by
        have := h x.1
        simpa [memGet, sget, sfind, hxy] using this
      have hrest : m = n := by
        refine ih ⟨hx.2, fun z hz => hm.2 z (List.mem_cons_of_mem _ hz)⟩
          ⟨hy.2, fun z hz => hn.2 z (List.mem_cons_of_mem _ hz)⟩ (fun a => ?_)
        by_cases ha : a = x.1
        · subst ha
          simp only [memGet, sget]
          rw [sfind_of_lt hx.1, sfind_of_lt (m := n) (hxy ▸ hy.1)]
        · have := h a
          simpa [memGet, sget, sfind, Ne.symm ha, show ¬ y.1 = a from fun e => ha (e ▸ hxy.symm)] using this
      rw [hrest, Prod.ext hxy hv]

end Sys2Proof.Machine
end

