-- ==== Sys2Proof/Laws/State.lean ====
section
/-! SUPPORT. Laws of the state: what each update of it leaves unchanged, field by field, and what a read after it
gives. -/

namespace Sys2Proof.Machine

/-! ### Cores and strands: reads after updates -/

namespace State

@[simp] theorem core_setCore_same (s : State) (c : Nat) (k : Core) : (s.setCore c k).core c = k := by
  simp [core, setCore]

theorem core_setCore_ne (s : State) {c d : Nat} (h : d ≠ c) (k : Core) : (s.setCore c k).core d = s.core d :=
  sget_sput_ne _ _ h _

@[simp] theorem core_modCore_same (s : State) (c : Nat) (f : Core → Core) : (s.modCore c f).core c = f (s.core c) :=
  core_setCore_same ..

theorem core_modCore_ne (s : State) {c d : Nat} (h : d ≠ c) (f : Core → Core) : (s.modCore c f).core d = s.core d :=
  core_setCore_ne s h _

@[simp] theorem modCore_modCore (s : State) (c : Nat) (f g : Core → Core) :
    (s.modCore c f).modCore c g = s.modCore c (fun k => g (f k)) := by
  simp [modCore, setCore, core]

@[simp] theorem core_modStrandAt_same (s : State) (c : Nat) (h : Fin 11) (f : Strand → Strand) :
    (s.modStrandAt c h f).core c = { s.core c with strands := (s.core c).strands.set h (f (s.core c).strands[h]) } :=
  core_modCore_same ..

theorem core_modStrandAt_ne (s : State) {c d : Nat} (hd : d ≠ c) (h : Fin 11) (f : Strand → Strand) :
    (s.modStrandAt c h f).core d = s.core d :=
  core_modCore_ne s hd _

@[simp] theorem strandAt_modStrandAt_same (s : State) (c : Nat) (h : Fin 11) (f : Strand → Strand) :
    (s.modStrandAt c h f).strandAt c h = f (s.strandAt c h) := by
  simp [strandAt]

theorem strandAt_modStrandAt_ne (s : State) (c : Nat) {h j : Fin 11} (hj : j ≠ h) (f : Strand → Strand) :
    (s.modStrandAt c h f).strandAt c j = s.strandAt c j := by
  have : h.val ≠ j.val := fun e => hj (Fin.ext e.symm)
  simp [strandAt, this]

/-- Two changes of one strand are one change. -/
@[simp] theorem modStrandAt_modStrandAt (s : State) (c : Nat) (h : Fin 11) (f g : Strand → Strand) :
    (s.modStrandAt c h f).modStrandAt c h g = s.modStrandAt c h (fun t => g (f t)) := by
  simp [modStrandAt, Vector.set_set]

theorem myCore_eq (s : State) : s.myCore = s.core s.cur.1 := rfl

theorem me_eq (s : State) : s.me = s.strandAt s.cur.1 s.cur.2 := rfl

@[simp] theorem me_modMe (s : State) (f : Strand → Strand) : (s.modMe f).me = f s.me :=
  strandAt_modStrandAt_same ..

@[simp] theorem myCore_modMyCore (s : State) (f : Core → Core) : (s.modMyCore f).myCore = f s.myCore :=
  core_modCore_same ..

@[simp] theorem modMe_modMe (s : State) (f g : Strand → Strand) :
    (s.modMe f).modMe g = s.modMe (fun t => g (f t)) := modStrandAt_modStrandAt ..

@[simp] theorem cluster_setCluster_same (s : State) (i : Nat) (k : Cluster) : (s.setCluster i k).cluster i = k := by
  simp [cluster, setCluster]

theorem cluster_setCluster_ne (s : State) {i j : Nat} (h : j ≠ i) (k : Cluster) :
    (s.setCluster i k).cluster j = s.cluster j := sget_sput_ne _ _ h _

@[simp] theorem cluster_modCluster_same (s : State) (i : Nat) (f : Cluster → Cluster) :
    (s.modCluster i f).cluster i = f (s.cluster i) := cluster_setCluster_same ..

theorem cluster_modCluster_ne (s : State) {i j : Nat} (h : j ≠ i) (f : Cluster → Cluster) :
    (s.modCluster i f).cluster j = s.cluster j := cluster_setCluster_ne s h _

@[simp] theorem ctx_setCtx_same (s : State) (n : Nat) (x : Ctx) : (s.setCtx n x).ctx n = x := by
  simp [ctx, setCtx]

theorem ctx_setCtx_ne (s : State) {n m : Nat} (h : m ≠ n) (x : Ctx) : (s.setCtx n x).ctx m = s.ctx m :=
  sget_sput_ne _ _ h _

@[simp] theorem ctx_modCtx_same (s : State) (n : Nat) (f : Ctx → Ctx) : (s.modCtx n f).ctx n = f (s.ctx n) :=
  ctx_setCtx_same ..

theorem ctx_modCtx_ne (s : State) {n m : Nat} (h : m ≠ n) (f : Ctx → Ctx) : (s.modCtx n f).ctx m = s.ctx m :=
  ctx_setCtx_ne s h _

/-! ### Fields that an update of cores, clusters, contexts, dies or counters leaves as they are -/

@[simp] theorem setCore_clusters (s : State) (c : Nat) (k : Core) : (s.setCore c k).clusters = s.clusters := rfl
@[simp] theorem setCore_dies (s : State) (c : Nat) (k : Core) : (s.setCore c k).dies = s.dies := rfl
@[simp] theorem setCore_mem (s : State) (c : Nat) (k : Core) : (s.setCore c k).mem = s.mem := rfl
@[simp] theorem setCore_poisoned (s : State) (c : Nat) (k : Core) : (s.setCore c k).poisoned = s.poisoned := rfl
@[simp] theorem setCore_poison (s : State) (c : Nat) (k : Core) : (s.setCore c k).poison = s.poison := rfl
@[simp] theorem setCore_rev (s : State) (c : Nat) (k : Core) : (s.setCore c k).rev = s.rev := rfl
@[simp] theorem setCore_part (s : State) (c : Nat) (k : Core) : (s.setCore c k).part = s.part := rfl
@[simp] theorem setCore_lock (s : State) (c : Nat) (k : Core) : (s.setCore c k).lock = s.lock := rfl
@[simp] theorem setCore_str (s : State) (c : Nat) (k : Core) : (s.setCore c k).str = s.str := rfl
@[simp] theorem setCore_a10 (s : State) (c : Nat) (k : Core) : (s.setCore c k).a10 = s.a10 := rfl
@[simp] theorem setCore_a1 (s : State) (c : Nat) (k : Core) : (s.setCore c k).a1 = s.a1 := rfl
@[simp] theorem setCore_ceil (s : State) (c : Nat) (k : Core) : (s.setCore c k).ceil = s.ceil := rfl
@[simp] theorem setCore_ceilPast (s : State) (c : Nat) (k : Core) : (s.setCore c k).ceilPast = s.ceilPast := rfl
@[simp] theorem setCore_req (s : State) (c : Nat) (k : Core) : (s.setCore c k).req = s.req := rfl
@[simp] theorem setCore_ctxbase (s : State) (c : Nat) (k : Core) : (s.setCore c k).ctxbase = s.ctxbase := rfl
@[simp] theorem setCore_ctxRes (s : State) (c : Nat) (k : Core) : (s.setCore c k).ctxRes = s.ctxRes := rfl
@[simp] theorem setCore_ctxOp (s : State) (c : Nat) (k : Core) : (s.setCore c k).ctxOp = s.ctxOp := rfl
@[simp] theorem setCore_ctxNum (s : State) (c : Nat) (k : Core) : (s.setCore c k).ctxNum = s.ctxNum := rfl
@[simp] theorem setCore_ctxen (s : State) (c : Nat) (k : Core) : (s.setCore c k).ctxen = s.ctxen := rfl
@[simp] theorem setCore_inv (s : State) (c : Nat) (k : Core) : (s.setCore c k).inv = s.inv := rfl
@[simp] theorem setCore_invBusy (s : State) (c : Nat) (k : Core) : (s.setCore c k).invBusy = s.invBusy := rfl
@[simp] theorem setCore_preqHead (s : State) (c : Nat) (k : Core) : (s.setCore c k).preqHead = s.preqHead := rfl
@[simp] theorem setCore_preqBase (s : State) (c : Nat) (k : Core) : (s.setCore c k).preqBase = s.preqBase := rfl
@[simp] theorem setCore_preqTail (s : State) (c : Nat) (k : Core) : (s.setCore c k).preqTail = s.preqTail := rfl
@[simp] theorem setCore_elogBase (s : State) (c : Nat) (k : Core) : (s.setCore c k).elogBase = s.elogBase := rfl
@[simp] theorem setCore_elogNext (s : State) (c : Nat) (k : Core) : (s.setCore c k).elogNext = s.elogNext := rfl
@[simp] theorem setCore_preqs (s : State) (c : Nat) (k : Core) : (s.setCore c k).preqs = s.preqs := rfl
@[simp] theorem setCore_hubWrites (s : State) (c : Nat) (k : Core) : (s.setCore c k).hubWrites = s.hubWrites := rfl
@[simp] theorem setCore_ctxs (s : State) (c : Nat) (k : Core) : (s.setCore c k).ctxs = s.ctxs := rfl
@[simp] theorem setCore_queues (s : State) (c : Nat) (k : Core) : (s.setCore c k).queues = s.queues := rfl
@[simp] theorem setCore_joins (s : State) (c : Nat) (k : Core) : (s.setCore c k).joins = s.joins := rfl
@[simp] theorem setCore_tasks (s : State) (c : Nat) (k : Core) : (s.setCore c k).tasks = s.tasks := rfl
@[simp] theorem setCore_pairs (s : State) (c : Nat) (k : Core) : (s.setCore c k).pairs = s.pairs := rfl
@[simp] theorem setCore_barriers (s : State) (c : Nat) (k : Core) : (s.setCore c k).barriers = s.barriers := rfl
@[simp] theorem setCore_handles (s : State) (c : Nat) (k : Core) : (s.setCore c k).handles = s.handles := rfl
@[simp] theorem setCore_tokens (s : State) (c : Nat) (k : Core) : (s.setCore c k).tokens = s.tokens := rfl
@[simp] theorem setCore_scWindow (s : State) (c : Nat) (k : Core) : (s.setCore c k).scWindow = s.scWindow := rfl
@[simp] theorem setCore_scFlight (s : State) (c : Nat) (k : Core) : (s.setCore c k).scFlight = s.scFlight := rfl
@[simp] theorem setCore_scOrder (s : State) (c : Nat) (k : Core) : (s.setCore c k).scOrder = s.scOrder := rfl
@[simp] theorem setCore_refusals (s : State) (c : Nat) (k : Core) : (s.setCore c k).refusals = s.refusals := rfl
@[simp] theorem setCore_measure (s : State) (c : Nat) (k : Core) : (s.setCore c k).measure = s.measure := rfl
@[simp] theorem setCore_nonce (s : State) (c : Nat) (k : Core) : (s.setCore c k).nonce = s.nonce := rfl
@[simp] theorem setCore_report (s : State) (c : Nat) (k : Core) : (s.setCore c k).report = s.report := rfl
@[simp] theorem setCore_recovery (s : State) (c : Nat) (k : Core) : (s.setCore c k).recovery = s.recovery := rfl
@[simp] theorem setCore_fports (s : State) (c : Nat) (k : Core) : (s.setCore c k).fports = s.fports := rfl
@[simp] theorem setCore_self (s : State) (c : Nat) (k : Core) : (s.setCore c k).self = s.self := rfl
@[simp] theorem setCore_lostCount (s : State) (c : Nat) (k : Core) : (s.setCore c k).lostCount = s.lostCount := rfl
@[simp] theorem setCore_lost (s : State) (c : Nat) (k : Core) : (s.setCore c k).lost = s.lost := rfl
@[simp] theorem setCore_chambers (s : State) (c : Nat) (k : Core) : (s.setCore c k).chambers = s.chambers := rfl
@[simp] theorem setCore_kreqs (s : State) (c : Nat) (k : Core) : (s.setCore c k).kreqs = s.kreqs := rfl
@[simp] theorem setCore_rcopies (s : State) (c : Nat) (k : Core) : (s.setCore c k).rcopies = s.rcopies := rfl
@[simp] theorem setCore_sent (s : State) (c : Nat) (k : Core) : (s.setCore c k).sent = s.sent := rfl
@[simp] theorem setCore_injectOk (s : State) (c : Nat) (k : Core) : (s.setCore c k).injectOk = s.injectOk := rfl
@[simp] theorem setCore_agenda (s : State) (c : Nat) (k : Core) : (s.setCore c k).agenda = s.agenda := rfl
@[simp] theorem setCore_cur (s : State) (c : Nat) (k : Core) : (s.setCore c k).cur = s.cur := rfl
@[simp] theorem setCore_retired (s : State) (c : Nat) (k : Core) : (s.setCore c k).retired = s.retired := rfl
@[simp] theorem setCore_cycle (s : State) (c : Nat) (k : Core) : (s.setCore c k).cycle = s.cycle := rfl
@[simp] theorem setCore_nextId (s : State) (c : Nat) (k : Core) : (s.setCore c k).nextId = s.nextId := rfl
@[simp] theorem setCore_draws (s : State) (c : Nat) (k : Core) : (s.setCore c k).draws = s.draws := rfl
@[simp] theorem modCore_clusters (s : State) (c : Nat) (f : Core → Core) : (s.modCore c f).clusters = s.clusters := rfl
@[simp] theorem modCore_dies (s : State) (c : Nat) (f : Core → Core) : (s.modCore c f).dies = s.dies := rfl
@[simp] theorem modCore_mem (s : State) (c : Nat) (f : Core → Core) : (s.modCore c f).mem = s.mem := rfl
@[simp] theorem modCore_poisoned (s : State) (c : Nat) (f : Core → Core) : (s.modCore c f).poisoned = s.poisoned := rfl
@[simp] theorem modCore_poison (s : State) (c : Nat) (f : Core → Core) : (s.modCore c f).poison = s.poison := rfl
@[simp] theorem modCore_rev (s : State) (c : Nat) (f : Core → Core) : (s.modCore c f).rev = s.rev := rfl
@[simp] theorem modCore_part (s : State) (c : Nat) (f : Core → Core) : (s.modCore c f).part = s.part := rfl
@[simp] theorem modCore_lock (s : State) (c : Nat) (f : Core → Core) : (s.modCore c f).lock = s.lock := rfl
@[simp] theorem modCore_str (s : State) (c : Nat) (f : Core → Core) : (s.modCore c f).str = s.str := rfl
@[simp] theorem modCore_a10 (s : State) (c : Nat) (f : Core → Core) : (s.modCore c f).a10 = s.a10 := rfl
@[simp] theorem modCore_a1 (s : State) (c : Nat) (f : Core → Core) : (s.modCore c f).a1 = s.a1 := rfl
@[simp] theorem modCore_ceil (s : State) (c : Nat) (f : Core → Core) : (s.modCore c f).ceil = s.ceil := rfl
@[simp] theorem modCore_ceilPast (s : State) (c : Nat) (f : Core → Core) : (s.modCore c f).ceilPast = s.ceilPast := rfl
@[simp] theorem modCore_req (s : State) (c : Nat) (f : Core → Core) : (s.modCore c f).req = s.req := rfl
@[simp] theorem modCore_ctxbase (s : State) (c : Nat) (f : Core → Core) : (s.modCore c f).ctxbase = s.ctxbase := rfl
@[simp] theorem modCore_ctxRes (s : State) (c : Nat) (f : Core → Core) : (s.modCore c f).ctxRes = s.ctxRes := rfl
@[simp] theorem modCore_ctxOp (s : State) (c : Nat) (f : Core → Core) : (s.modCore c f).ctxOp = s.ctxOp := rfl
@[simp] theorem modCore_ctxNum (s : State) (c : Nat) (f : Core → Core) : (s.modCore c f).ctxNum = s.ctxNum := rfl
@[simp] theorem modCore_ctxen (s : State) (c : Nat) (f : Core → Core) : (s.modCore c f).ctxen = s.ctxen := rfl
@[simp] theorem modCore_inv (s : State) (c : Nat) (f : Core → Core) : (s.modCore c f).inv = s.inv := rfl
@[simp] theorem modCore_invBusy (s : State) (c : Nat) (f : Core → Core) : (s.modCore c f).invBusy = s.invBusy := rfl
@[simp] theorem modCore_preqHead (s : State) (c : Nat) (f : Core → Core) : (s.modCore c f).preqHead = s.preqHead := rfl
@[simp] theorem modCore_preqBase (s : State) (c : Nat) (f : Core → Core) : (s.modCore c f).preqBase = s.preqBase := rfl
@[simp] theorem modCore_preqTail (s : State) (c : Nat) (f : Core → Core) : (s.modCore c f).preqTail = s.preqTail := rfl
@[simp] theorem modCore_elogBase (s : State) (c : Nat) (f : Core → Core) : (s.modCore c f).elogBase = s.elogBase := rfl
@[simp] theorem modCore_elogNext (s : State) (c : Nat) (f : Core → Core) : (s.modCore c f).elogNext = s.elogNext := rfl
@[simp] theorem modCore_preqs (s : State) (c : Nat) (f : Core → Core) : (s.modCore c f).preqs = s.preqs := rfl
@[simp] theorem modCore_hubWrites (s : State) (c : Nat) (f : Core → Core) : (s.modCore c f).hubWrites = s.hubWrites := rfl
@[simp] theorem modCore_ctxs (s : State) (c : Nat) (f : Core → Core) : (s.modCore c f).ctxs = s.ctxs := rfl
@[simp] theorem modCore_queues (s : State) (c : Nat) (f : Core → Core) : (s.modCore c f).queues = s.queues := rfl
@[simp] theorem modCore_joins (s : State) (c : Nat) (f : Core → Core) : (s.modCore c f).joins = s.joins := rfl
@[simp] theorem modCore_tasks (s : State) (c : Nat) (f : Core → Core) : (s.modCore c f).tasks = s.tasks := rfl
@[simp] theorem modCore_pairs (s : State) (c : Nat) (f : Core → Core) : (s.modCore c f).pairs = s.pairs := rfl
@[simp] theorem modCore_barriers (s : State) (c : Nat) (f : Core → Core) : (s.modCore c f).barriers = s.barriers := rfl
@[simp] theorem modCore_handles (s : State) (c : Nat) (f : Core → Core) : (s.modCore c f).handles = s.handles := rfl
@[simp] theorem modCore_tokens (s : State) (c : Nat) (f : Core → Core) : (s.modCore c f).tokens = s.tokens := rfl
@[simp] theorem modCore_scWindow (s : State) (c : Nat) (f : Core → Core) : (s.modCore c f).scWindow = s.scWindow := rfl
@[simp] theorem modCore_scFlight (s : State) (c : Nat) (f : Core → Core) : (s.modCore c f).scFlight = s.scFlight := rfl
@[simp] theorem modCore_scOrder (s : State) (c : Nat) (f : Core → Core) : (s.modCore c f).scOrder = s.scOrder := rfl
@[simp] theorem modCore_refusals (s : State) (c : Nat) (f : Core → Core) : (s.modCore c f).refusals = s.refusals := rfl
@[simp] theorem modCore_measure (s : State) (c : Nat) (f : Core → Core) : (s.modCore c f).measure = s.measure := rfl
@[simp] theorem modCore_nonce (s : State) (c : Nat) (f : Core → Core) : (s.modCore c f).nonce = s.nonce := rfl
@[simp] theorem modCore_report (s : State) (c : Nat) (f : Core → Core) : (s.modCore c f).report = s.report := rfl
@[simp] theorem modCore_recovery (s : State) (c : Nat) (f : Core → Core) : (s.modCore c f).recovery = s.recovery := rfl
@[simp] theorem modCore_fports (s : State) (c : Nat) (f : Core → Core) : (s.modCore c f).fports = s.fports := rfl
@[simp] theorem modCore_self (s : State) (c : Nat) (f : Core → Core) : (s.modCore c f).self = s.self := rfl
@[simp] theorem modCore_lostCount (s : State) (c : Nat) (f : Core → Core) : (s.modCore c f).lostCount = s.lostCount := rfl
@[simp] theorem modCore_lost (s : State) (c : Nat) (f : Core → Core) : (s.modCore c f).lost = s.lost := rfl
@[simp] theorem modCore_chambers (s : State) (c : Nat) (f : Core → Core) : (s.modCore c f).chambers = s.chambers := rfl
@[simp] theorem modCore_kreqs (s : State) (c : Nat) (f : Core → Core) : (s.modCore c f).kreqs = s.kreqs := rfl
@[simp] theorem modCore_rcopies (s : State) (c : Nat) (f : Core → Core) : (s.modCore c f).rcopies = s.rcopies := rfl
@[simp] theorem modCore_sent (s : State) (c : Nat) (f : Core → Core) : (s.modCore c f).sent = s.sent := rfl
@[simp] theorem modCore_injectOk (s : State) (c : Nat) (f : Core → Core) : (s.modCore c f).injectOk = s.injectOk := rfl
@[simp] theorem modCore_agenda (s : State) (c : Nat) (f : Core → Core) : (s.modCore c f).agenda = s.agenda := rfl
@[simp] theorem modCore_cur (s : State) (c : Nat) (f : Core → Core) : (s.modCore c f).cur = s.cur := rfl
@[simp] theorem modCore_retired (s : State) (c : Nat) (f : Core → Core) : (s.modCore c f).retired = s.retired := rfl
@[simp] theorem modCore_cycle (s : State) (c : Nat) (f : Core → Core) : (s.modCore c f).cycle = s.cycle := rfl
@[simp] theorem modCore_nextId (s : State) (c : Nat) (f : Core → Core) : (s.modCore c f).nextId = s.nextId := rfl
@[simp] theorem modCore_draws (s : State) (c : Nat) (f : Core → Core) : (s.modCore c f).draws = s.draws := rfl
@[simp] theorem modStrandAt_clusters (s : State) (c : Nat) (h : Fin 11) (f : Strand → Strand) : (s.modStrandAt c h f).clusters = s.clusters := rfl
@[simp] theorem modStrandAt_dies (s : State) (c : Nat) (h : Fin 11) (f : Strand → Strand) : (s.modStrandAt c h f).dies = s.dies := rfl
@[simp] theorem modStrandAt_mem (s : State) (c : Nat) (h : Fin 11) (f : Strand → Strand) : (s.modStrandAt c h f).mem = s.mem := rfl
@[simp] theorem modStrandAt_poisoned (s : State) (c : Nat) (h : Fin 11) (f : Strand → Strand) : (s.modStrandAt c h f).poisoned = s.poisoned := rfl
@[simp] theorem modStrandAt_poison (s : State) (c : Nat) (h : Fin 11) (f : Strand → Strand) : (s.modStrandAt c h f).poison = s.poison := rfl
@[simp] theorem modStrandAt_rev (s : State) (c : Nat) (h : Fin 11) (f : Strand → Strand) : (s.modStrandAt c h f).rev = s.rev := rfl
@[simp] theorem modStrandAt_part (s : State) (c : Nat) (h : Fin 11) (f : Strand → Strand) : (s.modStrandAt c h f).part = s.part := rfl
@[simp] theorem modStrandAt_lock (s : State) (c : Nat) (h : Fin 11) (f : Strand → Strand) : (s.modStrandAt c h f).lock = s.lock := rfl
@[simp] theorem modStrandAt_str (s : State) (c : Nat) (h : Fin 11) (f : Strand → Strand) : (s.modStrandAt c h f).str = s.str := rfl
@[simp] theorem modStrandAt_a10 (s : State) (c : Nat) (h : Fin 11) (f : Strand → Strand) : (s.modStrandAt c h f).a10 = s.a10 := rfl
@[simp] theorem modStrandAt_a1 (s : State) (c : Nat) (h : Fin 11) (f : Strand → Strand) : (s.modStrandAt c h f).a1 = s.a1 := rfl
@[simp] theorem modStrandAt_ceil (s : State) (c : Nat) (h : Fin 11) (f : Strand → Strand) : (s.modStrandAt c h f).ceil = s.ceil := rfl
@[simp] theorem modStrandAt_ceilPast (s : State) (c : Nat) (h : Fin 11) (f : Strand → Strand) : (s.modStrandAt c h f).ceilPast = s.ceilPast := rfl
@[simp] theorem modStrandAt_req (s : State) (c : Nat) (h : Fin 11) (f : Strand → Strand) : (s.modStrandAt c h f).req = s.req := rfl
@[simp] theorem modStrandAt_ctxbase (s : State) (c : Nat) (h : Fin 11) (f : Strand → Strand) : (s.modStrandAt c h f).ctxbase = s.ctxbase := rfl
@[simp] theorem modStrandAt_ctxRes (s : State) (c : Nat) (h : Fin 11) (f : Strand → Strand) : (s.modStrandAt c h f).ctxRes = s.ctxRes := rfl
@[simp] theorem modStrandAt_ctxOp (s : State) (c : Nat) (h : Fin 11) (f : Strand → Strand) : (s.modStrandAt c h f).ctxOp = s.ctxOp := rfl
@[simp] theorem modStrandAt_ctxNum (s : State) (c : Nat) (h : Fin 11) (f : Strand → Strand) : (s.modStrandAt c h f).ctxNum = s.ctxNum := rfl
@[simp] theorem modStrandAt_ctxen (s : State) (c : Nat) (h : Fin 11) (f : Strand → Strand) : (s.modStrandAt c h f).ctxen = s.ctxen := rfl
@[simp] theorem modStrandAt_inv (s : State) (c : Nat) (h : Fin 11) (f : Strand → Strand) : (s.modStrandAt c h f).inv = s.inv := rfl
@[simp] theorem modStrandAt_invBusy (s : State) (c : Nat) (h : Fin 11) (f : Strand → Strand) : (s.modStrandAt c h f).invBusy = s.invBusy := rfl
@[simp] theorem modStrandAt_preqHead (s : State) (c : Nat) (h : Fin 11) (f : Strand → Strand) : (s.modStrandAt c h f).preqHead = s.preqHead := rfl
@[simp] theorem modStrandAt_preqBase (s : State) (c : Nat) (h : Fin 11) (f : Strand → Strand) : (s.modStrandAt c h f).preqBase = s.preqBase := rfl
@[simp] theorem modStrandAt_preqTail (s : State) (c : Nat) (h : Fin 11) (f : Strand → Strand) : (s.modStrandAt c h f).preqTail = s.preqTail := rfl
@[simp] theorem modStrandAt_elogBase (s : State) (c : Nat) (h : Fin 11) (f : Strand → Strand) : (s.modStrandAt c h f).elogBase = s.elogBase := rfl
@[simp] theorem modStrandAt_elogNext (s : State) (c : Nat) (h : Fin 11) (f : Strand → Strand) : (s.modStrandAt c h f).elogNext = s.elogNext := rfl
@[simp] theorem modStrandAt_preqs (s : State) (c : Nat) (h : Fin 11) (f : Strand → Strand) : (s.modStrandAt c h f).preqs = s.preqs := rfl
@[simp] theorem modStrandAt_hubWrites (s : State) (c : Nat) (h : Fin 11) (f : Strand → Strand) : (s.modStrandAt c h f).hubWrites = s.hubWrites := rfl
@[simp] theorem modStrandAt_ctxs (s : State) (c : Nat) (h : Fin 11) (f : Strand → Strand) : (s.modStrandAt c h f).ctxs = s.ctxs := rfl
@[simp] theorem modStrandAt_queues (s : State) (c : Nat) (h : Fin 11) (f : Strand → Strand) : (s.modStrandAt c h f).queues = s.queues := rfl
@[simp] theorem modStrandAt_joins (s : State) (c : Nat) (h : Fin 11) (f : Strand → Strand) : (s.modStrandAt c h f).joins = s.joins := rfl
@[simp] theorem modStrandAt_tasks (s : State) (c : Nat) (h : Fin 11) (f : Strand → Strand) : (s.modStrandAt c h f).tasks = s.tasks := rfl
@[simp] theorem modStrandAt_pairs (s : State) (c : Nat) (h : Fin 11) (f : Strand → Strand) : (s.modStrandAt c h f).pairs = s.pairs := rfl
@[simp] theorem modStrandAt_barriers (s : State) (c : Nat) (h : Fin 11) (f : Strand → Strand) : (s.modStrandAt c h f).barriers = s.barriers := rfl
@[simp] theorem modStrandAt_handles (s : State) (c : Nat) (h : Fin 11) (f : Strand → Strand) : (s.modStrandAt c h f).handles = s.handles := rfl
@[simp] theorem modStrandAt_tokens (s : State) (c : Nat) (h : Fin 11) (f : Strand → Strand) : (s.modStrandAt c h f).tokens = s.tokens := rfl
@[simp] theorem modStrandAt_scWindow (s : State) (c : Nat) (h : Fin 11) (f : Strand → Strand) : (s.modStrandAt c h f).scWindow = s.scWindow := rfl
@[simp] theorem modStrandAt_scFlight (s : State) (c : Nat) (h : Fin 11) (f : Strand → Strand) : (s.modStrandAt c h f).scFlight = s.scFlight := rfl
@[simp] theorem modStrandAt_scOrder (s : State) (c : Nat) (h : Fin 11) (f : Strand → Strand) : (s.modStrandAt c h f).scOrder = s.scOrder := rfl
@[simp] theorem modStrandAt_refusals (s : State) (c : Nat) (h : Fin 11) (f : Strand → Strand) : (s.modStrandAt c h f).refusals = s.refusals := rfl
@[simp] theorem modStrandAt_measure (s : State) (c : Nat) (h : Fin 11) (f : Strand → Strand) : (s.modStrandAt c h f).measure = s.measure := rfl
@[simp] theorem modStrandAt_nonce (s : State) (c : Nat) (h : Fin 11) (f : Strand → Strand) : (s.modStrandAt c h f).nonce = s.nonce := rfl
@[simp] theorem modStrandAt_report (s : State) (c : Nat) (h : Fin 11) (f : Strand → Strand) : (s.modStrandAt c h f).report = s.report := rfl
@[simp] theorem modStrandAt_recovery (s : State) (c : Nat) (h : Fin 11) (f : Strand → Strand) : (s.modStrandAt c h f).recovery = s.recovery := rfl
@[simp] theorem modStrandAt_fports (s : State) (c : Nat) (h : Fin 11) (f : Strand → Strand) : (s.modStrandAt c h f).fports = s.fports := rfl
@[simp] theorem modStrandAt_self (s : State) (c : Nat) (h : Fin 11) (f : Strand → Strand) : (s.modStrandAt c h f).self = s.self := rfl
@[simp] theorem modStrandAt_lostCount (s : State) (c : Nat) (h : Fin 11) (f : Strand → Strand) : (s.modStrandAt c h f).lostCount = s.lostCount := rfl
@[simp] theorem modStrandAt_lost (s : State) (c : Nat) (h : Fin 11) (f : Strand → Strand) : (s.modStrandAt c h f).lost = s.lost := rfl
@[simp] theorem modStrandAt_chambers (s : State) (c : Nat) (h : Fin 11) (f : Strand → Strand) : (s.modStrandAt c h f).chambers = s.chambers := rfl
@[simp] theorem modStrandAt_kreqs (s : State) (c : Nat) (h : Fin 11) (f : Strand → Strand) : (s.modStrandAt c h f).kreqs = s.kreqs := rfl
@[simp] theorem modStrandAt_rcopies (s : State) (c : Nat) (h : Fin 11) (f : Strand → Strand) : (s.modStrandAt c h f).rcopies = s.rcopies := rfl
@[simp] theorem modStrandAt_sent (s : State) (c : Nat) (h : Fin 11) (f : Strand → Strand) : (s.modStrandAt c h f).sent = s.sent := rfl
@[simp] theorem modStrandAt_injectOk (s : State) (c : Nat) (h : Fin 11) (f : Strand → Strand) : (s.modStrandAt c h f).injectOk = s.injectOk := rfl
@[simp] theorem modStrandAt_agenda (s : State) (c : Nat) (h : Fin 11) (f : Strand → Strand) : (s.modStrandAt c h f).agenda = s.agenda := rfl
@[simp] theorem modStrandAt_cur (s : State) (c : Nat) (h : Fin 11) (f : Strand → Strand) : (s.modStrandAt c h f).cur = s.cur := rfl
@[simp] theorem modStrandAt_retired (s : State) (c : Nat) (h : Fin 11) (f : Strand → Strand) : (s.modStrandAt c h f).retired = s.retired := rfl
@[simp] theorem modStrandAt_cycle (s : State) (c : Nat) (h : Fin 11) (f : Strand → Strand) : (s.modStrandAt c h f).cycle = s.cycle := rfl
@[simp] theorem modStrandAt_nextId (s : State) (c : Nat) (h : Fin 11) (f : Strand → Strand) : (s.modStrandAt c h f).nextId = s.nextId := rfl
@[simp] theorem modStrandAt_draws (s : State) (c : Nat) (h : Fin 11) (f : Strand → Strand) : (s.modStrandAt c h f).draws = s.draws := rfl
@[simp] theorem modMyCore_clusters (s : State) (f : Core → Core) : (s.modMyCore f).clusters = s.clusters := rfl
@[simp] theorem modMyCore_dies (s : State) (f : Core → Core) : (s.modMyCore f).dies = s.dies := rfl
@[simp] theorem modMyCore_mem (s : State) (f : Core → Core) : (s.modMyCore f).mem = s.mem := rfl
@[simp] theorem modMyCore_poisoned (s : State) (f : Core → Core) : (s.modMyCore f).poisoned = s.poisoned := rfl
@[simp] theorem modMyCore_poison (s : State) (f : Core → Core) : (s.modMyCore f).poison = s.poison := rfl
@[simp] theorem modMyCore_rev (s : State) (f : Core → Core) : (s.modMyCore f).rev = s.rev := rfl
@[simp] theorem modMyCore_part (s : State) (f : Core → Core) : (s.modMyCore f).part = s.part := rfl
@[simp] theorem modMyCore_lock (s : State) (f : Core → Core) : (s.modMyCore f).lock = s.lock := rfl
@[simp] theorem modMyCore_str (s : State) (f : Core → Core) : (s.modMyCore f).str = s.str := rfl
@[simp] theorem modMyCore_a10 (s : State) (f : Core → Core) : (s.modMyCore f).a10 = s.a10 := rfl
@[simp] theorem modMyCore_a1 (s : State) (f : Core → Core) : (s.modMyCore f).a1 = s.a1 := rfl
@[simp] theorem modMyCore_ceil (s : State) (f : Core → Core) : (s.modMyCore f).ceil = s.ceil := rfl
@[simp] theorem modMyCore_ceilPast (s : State) (f : Core → Core) : (s.modMyCore f).ceilPast = s.ceilPast := rfl
@[simp] theorem modMyCore_req (s : State) (f : Core → Core) : (s.modMyCore f).req = s.req := rfl
@[simp] theorem modMyCore_ctxbase (s : State) (f : Core → Core) : (s.modMyCore f).ctxbase = s.ctxbase := rfl
@[simp] theorem modMyCore_ctxRes (s : State) (f : Core → Core) : (s.modMyCore f).ctxRes = s.ctxRes := rfl
@[simp] theorem modMyCore_ctxOp (s : State) (f : Core → Core) : (s.modMyCore f).ctxOp = s.ctxOp := rfl
@[simp] theorem modMyCore_ctxNum (s : State) (f : Core → Core) : (s.modMyCore f).ctxNum = s.ctxNum := rfl
@[simp] theorem modMyCore_ctxen (s : State) (f : Core → Core) : (s.modMyCore f).ctxen = s.ctxen := rfl
@[simp] theorem modMyCore_inv (s : State) (f : Core → Core) : (s.modMyCore f).inv = s.inv := rfl
@[simp] theorem modMyCore_invBusy (s : State) (f : Core → Core) : (s.modMyCore f).invBusy = s.invBusy := rfl
@[simp] theorem modMyCore_preqHead (s : State) (f : Core → Core) : (s.modMyCore f).preqHead = s.preqHead := rfl
@[simp] theorem modMyCore_preqBase (s : State) (f : Core → Core) : (s.modMyCore f).preqBase = s.preqBase := rfl
@[simp] theorem modMyCore_preqTail (s : State) (f : Core → Core) : (s.modMyCore f).preqTail = s.preqTail := rfl
@[simp] theorem modMyCore_elogBase (s : State) (f : Core → Core) : (s.modMyCore f).elogBase = s.elogBase := rfl
@[simp] theorem modMyCore_elogNext (s : State) (f : Core → Core) : (s.modMyCore f).elogNext = s.elogNext := rfl
@[simp] theorem modMyCore_preqs (s : State) (f : Core → Core) : (s.modMyCore f).preqs = s.preqs := rfl
@[simp] theorem modMyCore_hubWrites (s : State) (f : Core → Core) : (s.modMyCore f).hubWrites = s.hubWrites := rfl
@[simp] theorem modMyCore_ctxs (s : State) (f : Core → Core) : (s.modMyCore f).ctxs = s.ctxs := rfl
@[simp] theorem modMyCore_queues (s : State) (f : Core → Core) : (s.modMyCore f).queues = s.queues := rfl
@[simp] theorem modMyCore_joins (s : State) (f : Core → Core) : (s.modMyCore f).joins = s.joins := rfl
@[simp] theorem modMyCore_tasks (s : State) (f : Core → Core) : (s.modMyCore f).tasks = s.tasks := rfl
@[simp] theorem modMyCore_pairs (s : State) (f : Core → Core) : (s.modMyCore f).pairs = s.pairs := rfl
@[simp] theorem modMyCore_barriers (s : State) (f : Core → Core) : (s.modMyCore f).barriers = s.barriers := rfl
@[simp] theorem modMyCore_handles (s : State) (f : Core → Core) : (s.modMyCore f).handles = s.handles := rfl
@[simp] theorem modMyCore_tokens (s : State) (f : Core → Core) : (s.modMyCore f).tokens = s.tokens := rfl
@[simp] theorem modMyCore_scWindow (s : State) (f : Core → Core) : (s.modMyCore f).scWindow = s.scWindow := rfl
@[simp] theorem modMyCore_scFlight (s : State) (f : Core → Core) : (s.modMyCore f).scFlight = s.scFlight := rfl
@[simp] theorem modMyCore_scOrder (s : State) (f : Core → Core) : (s.modMyCore f).scOrder = s.scOrder := rfl
@[simp] theorem modMyCore_refusals (s : State) (f : Core → Core) : (s.modMyCore f).refusals = s.refusals := rfl
@[simp] theorem modMyCore_measure (s : State) (f : Core → Core) : (s.modMyCore f).measure = s.measure := rfl
@[simp] theorem modMyCore_nonce (s : State) (f : Core → Core) : (s.modMyCore f).nonce = s.nonce := rfl
@[simp] theorem modMyCore_report (s : State) (f : Core → Core) : (s.modMyCore f).report = s.report := rfl
@[simp] theorem modMyCore_recovery (s : State) (f : Core → Core) : (s.modMyCore f).recovery = s.recovery := rfl
@[simp] theorem modMyCore_fports (s : State) (f : Core → Core) : (s.modMyCore f).fports = s.fports := rfl
@[simp] theorem modMyCore_self (s : State) (f : Core → Core) : (s.modMyCore f).self = s.self := rfl
@[simp] theorem modMyCore_lostCount (s : State) (f : Core → Core) : (s.modMyCore f).lostCount = s.lostCount := rfl
@[simp] theorem modMyCore_lost (s : State) (f : Core → Core) : (s.modMyCore f).lost = s.lost := rfl
@[simp] theorem modMyCore_chambers (s : State) (f : Core → Core) : (s.modMyCore f).chambers = s.chambers := rfl
@[simp] theorem modMyCore_kreqs (s : State) (f : Core → Core) : (s.modMyCore f).kreqs = s.kreqs := rfl
@[simp] theorem modMyCore_rcopies (s : State) (f : Core → Core) : (s.modMyCore f).rcopies = s.rcopies := rfl
@[simp] theorem modMyCore_sent (s : State) (f : Core → Core) : (s.modMyCore f).sent = s.sent := rfl
@[simp] theorem modMyCore_injectOk (s : State) (f : Core → Core) : (s.modMyCore f).injectOk = s.injectOk := rfl
@[simp] theorem modMyCore_agenda (s : State) (f : Core → Core) : (s.modMyCore f).agenda = s.agenda := rfl
@[simp] theorem modMyCore_cur (s : State) (f : Core → Core) : (s.modMyCore f).cur = s.cur := rfl
@[simp] theorem modMyCore_retired (s : State) (f : Core → Core) : (s.modMyCore f).retired = s.retired := rfl
@[simp] theorem modMyCore_cycle (s : State) (f : Core → Core) : (s.modMyCore f).cycle = s.cycle := rfl
@[simp] theorem modMyCore_nextId (s : State) (f : Core → Core) : (s.modMyCore f).nextId = s.nextId := rfl
@[simp] theorem modMyCore_draws (s : State) (f : Core → Core) : (s.modMyCore f).draws = s.draws := rfl
@[simp] theorem modMe_clusters (s : State) (f : Strand → Strand) : (s.modMe f).clusters = s.clusters := rfl
@[simp] theorem modMe_dies (s : State) (f : Strand → Strand) : (s.modMe f).dies = s.dies := rfl
@[simp] theorem modMe_mem (s : State) (f : Strand → Strand) : (s.modMe f).mem = s.mem := rfl
@[simp] theorem modMe_poisoned (s : State) (f : Strand → Strand) : (s.modMe f).poisoned = s.poisoned := rfl
@[simp] theorem modMe_poison (s : State) (f : Strand → Strand) : (s.modMe f).poison = s.poison := rfl
@[simp] theorem modMe_rev (s : State) (f : Strand → Strand) : (s.modMe f).rev = s.rev := rfl
@[simp] theorem modMe_part (s : State) (f : Strand → Strand) : (s.modMe f).part = s.part := rfl
@[simp] theorem modMe_lock (s : State) (f : Strand → Strand) : (s.modMe f).lock = s.lock := rfl
@[simp] theorem modMe_str (s : State) (f : Strand → Strand) : (s.modMe f).str = s.str := rfl
@[simp] theorem modMe_a10 (s : State) (f : Strand → Strand) : (s.modMe f).a10 = s.a10 := rfl
@[simp] theorem modMe_a1 (s : State) (f : Strand → Strand) : (s.modMe f).a1 = s.a1 := rfl
@[simp] theorem modMe_ceil (s : State) (f : Strand → Strand) : (s.modMe f).ceil = s.ceil := rfl
@[simp] theorem modMe_ceilPast (s : State) (f : Strand → Strand) : (s.modMe f).ceilPast = s.ceilPast := rfl
@[simp] theorem modMe_req (s : State) (f : Strand → Strand) : (s.modMe f).req = s.req := rfl
@[simp] theorem modMe_ctxbase (s : State) (f : Strand → Strand) : (s.modMe f).ctxbase = s.ctxbase := rfl
@[simp] theorem modMe_ctxRes (s : State) (f : Strand → Strand) : (s.modMe f).ctxRes = s.ctxRes := rfl
@[simp] theorem modMe_ctxOp (s : State) (f : Strand → Strand) : (s.modMe f).ctxOp = s.ctxOp := rfl
@[simp] theorem modMe_ctxNum (s : State) (f : Strand → Strand) : (s.modMe f).ctxNum = s.ctxNum := rfl
@[simp] theorem modMe_ctxen (s : State) (f : Strand → Strand) : (s.modMe f).ctxen = s.ctxen := rfl
@[simp] theorem modMe_inv (s : State) (f : Strand → Strand) : (s.modMe f).inv = s.inv := rfl
@[simp] theorem modMe_invBusy (s : State) (f : Strand → Strand) : (s.modMe f).invBusy = s.invBusy := rfl
@[simp] theorem modMe_preqHead (s : State) (f : Strand → Strand) : (s.modMe f).preqHead = s.preqHead := rfl
@[simp] theorem modMe_preqBase (s : State) (f : Strand → Strand) : (s.modMe f).preqBase = s.preqBase := rfl
@[simp] theorem modMe_preqTail (s : State) (f : Strand → Strand) : (s.modMe f).preqTail = s.preqTail := rfl
@[simp] theorem modMe_elogBase (s : State) (f : Strand → Strand) : (s.modMe f).elogBase = s.elogBase := rfl
@[simp] theorem modMe_elogNext (s : State) (f : Strand → Strand) : (s.modMe f).elogNext = s.elogNext := rfl
@[simp] theorem modMe_preqs (s : State) (f : Strand → Strand) : (s.modMe f).preqs = s.preqs := rfl
@[simp] theorem modMe_hubWrites (s : State) (f : Strand → Strand) : (s.modMe f).hubWrites = s.hubWrites := rfl
@[simp] theorem modMe_ctxs (s : State) (f : Strand → Strand) : (s.modMe f).ctxs = s.ctxs := rfl
@[simp] theorem modMe_queues (s : State) (f : Strand → Strand) : (s.modMe f).queues = s.queues := rfl
@[simp] theorem modMe_joins (s : State) (f : Strand → Strand) : (s.modMe f).joins = s.joins := rfl
@[simp] theorem modMe_tasks (s : State) (f : Strand → Strand) : (s.modMe f).tasks = s.tasks := rfl
@[simp] theorem modMe_pairs (s : State) (f : Strand → Strand) : (s.modMe f).pairs = s.pairs := rfl
@[simp] theorem modMe_barriers (s : State) (f : Strand → Strand) : (s.modMe f).barriers = s.barriers := rfl
@[simp] theorem modMe_handles (s : State) (f : Strand → Strand) : (s.modMe f).handles = s.handles := rfl
@[simp] theorem modMe_tokens (s : State) (f : Strand → Strand) : (s.modMe f).tokens = s.tokens := rfl
@[simp] theorem modMe_scWindow (s : State) (f : Strand → Strand) : (s.modMe f).scWindow = s.scWindow := rfl
@[simp] theorem modMe_scFlight (s : State) (f : Strand → Strand) : (s.modMe f).scFlight = s.scFlight := rfl
@[simp] theorem modMe_scOrder (s : State) (f : Strand → Strand) : (s.modMe f).scOrder = s.scOrder := rfl
@[simp] theorem modMe_refusals (s : State) (f : Strand → Strand) : (s.modMe f).refusals = s.refusals := rfl
@[simp] theorem modMe_measure (s : State) (f : Strand → Strand) : (s.modMe f).measure = s.measure := rfl
@[simp] theorem modMe_nonce (s : State) (f : Strand → Strand) : (s.modMe f).nonce = s.nonce := rfl
@[simp] theorem modMe_report (s : State) (f : Strand → Strand) : (s.modMe f).report = s.report := rfl
@[simp] theorem modMe_recovery (s : State) (f : Strand → Strand) : (s.modMe f).recovery = s.recovery := rfl
@[simp] theorem modMe_fports (s : State) (f : Strand → Strand) : (s.modMe f).fports = s.fports := rfl
@[simp] theorem modMe_self (s : State) (f : Strand → Strand) : (s.modMe f).self = s.self := rfl
@[simp] theorem modMe_lostCount (s : State) (f : Strand → Strand) : (s.modMe f).lostCount = s.lostCount := rfl
@[simp] theorem modMe_lost (s : State) (f : Strand → Strand) : (s.modMe f).lost = s.lost := rfl
@[simp] theorem modMe_chambers (s : State) (f : Strand → Strand) : (s.modMe f).chambers = s.chambers := rfl
@[simp] theorem modMe_kreqs (s : State) (f : Strand → Strand) : (s.modMe f).kreqs = s.kreqs := rfl
@[simp] theorem modMe_rcopies (s : State) (f : Strand → Strand) : (s.modMe f).rcopies = s.rcopies := rfl
@[simp] theorem modMe_sent (s : State) (f : Strand → Strand) : (s.modMe f).sent = s.sent := rfl
@[simp] theorem modMe_injectOk (s : State) (f : Strand → Strand) : (s.modMe f).injectOk = s.injectOk := rfl
@[simp] theorem modMe_agenda (s : State) (f : Strand → Strand) : (s.modMe f).agenda = s.agenda := rfl
@[simp] theorem modMe_cur (s : State) (f : Strand → Strand) : (s.modMe f).cur = s.cur := rfl
@[simp] theorem modMe_retired (s : State) (f : Strand → Strand) : (s.modMe f).retired = s.retired := rfl
@[simp] theorem modMe_cycle (s : State) (f : Strand → Strand) : (s.modMe f).cycle = s.cycle := rfl
@[simp] theorem modMe_nextId (s : State) (f : Strand → Strand) : (s.modMe f).nextId = s.nextId := rfl
@[simp] theorem modMe_draws (s : State) (f : Strand → Strand) : (s.modMe f).draws = s.draws := rfl
@[simp] theorem setCluster_cores (s : State) (i : Nat) (k : Cluster) : (s.setCluster i k).cores = s.cores := rfl
@[simp] theorem setCluster_dies (s : State) (i : Nat) (k : Cluster) : (s.setCluster i k).dies = s.dies := rfl
@[simp] theorem setCluster_mem (s : State) (i : Nat) (k : Cluster) : (s.setCluster i k).mem = s.mem := rfl
@[simp] theorem setCluster_poisoned (s : State) (i : Nat) (k : Cluster) : (s.setCluster i k).poisoned = s.poisoned := rfl
@[simp] theorem setCluster_poison (s : State) (i : Nat) (k : Cluster) : (s.setCluster i k).poison = s.poison := rfl
@[simp] theorem setCluster_rev (s : State) (i : Nat) (k : Cluster) : (s.setCluster i k).rev = s.rev := rfl
@[simp] theorem setCluster_part (s : State) (i : Nat) (k : Cluster) : (s.setCluster i k).part = s.part := rfl
@[simp] theorem setCluster_lock (s : State) (i : Nat) (k : Cluster) : (s.setCluster i k).lock = s.lock := rfl
@[simp] theorem setCluster_str (s : State) (i : Nat) (k : Cluster) : (s.setCluster i k).str = s.str := rfl
@[simp] theorem setCluster_a10 (s : State) (i : Nat) (k : Cluster) : (s.setCluster i k).a10 = s.a10 := rfl
@[simp] theorem setCluster_a1 (s : State) (i : Nat) (k : Cluster) : (s.setCluster i k).a1 = s.a1 := rfl
@[simp] theorem setCluster_ceil (s : State) (i : Nat) (k : Cluster) : (s.setCluster i k).ceil = s.ceil := rfl
@[simp] theorem setCluster_ceilPast (s : State) (i : Nat) (k : Cluster) : (s.setCluster i k).ceilPast = s.ceilPast := rfl
@[simp] theorem setCluster_req (s : State) (i : Nat) (k : Cluster) : (s.setCluster i k).req = s.req := rfl
@[simp] theorem setCluster_ctxbase (s : State) (i : Nat) (k : Cluster) : (s.setCluster i k).ctxbase = s.ctxbase := rfl
@[simp] theorem setCluster_ctxRes (s : State) (i : Nat) (k : Cluster) : (s.setCluster i k).ctxRes = s.ctxRes := rfl
@[simp] theorem setCluster_ctxOp (s : State) (i : Nat) (k : Cluster) : (s.setCluster i k).ctxOp = s.ctxOp := rfl
@[simp] theorem setCluster_ctxNum (s : State) (i : Nat) (k : Cluster) : (s.setCluster i k).ctxNum = s.ctxNum := rfl
@[simp] theorem setCluster_ctxen (s : State) (i : Nat) (k : Cluster) : (s.setCluster i k).ctxen = s.ctxen := rfl
@[simp] theorem setCluster_inv (s : State) (i : Nat) (k : Cluster) : (s.setCluster i k).inv = s.inv := rfl
@[simp] theorem setCluster_invBusy (s : State) (i : Nat) (k : Cluster) : (s.setCluster i k).invBusy = s.invBusy := rfl
@[simp] theorem setCluster_preqHead (s : State) (i : Nat) (k : Cluster) : (s.setCluster i k).preqHead = s.preqHead := rfl
@[simp] theorem setCluster_preqBase (s : State) (i : Nat) (k : Cluster) : (s.setCluster i k).preqBase = s.preqBase := rfl
@[simp] theorem setCluster_preqTail (s : State) (i : Nat) (k : Cluster) : (s.setCluster i k).preqTail = s.preqTail := rfl
@[simp] theorem setCluster_elogBase (s : State) (i : Nat) (k : Cluster) : (s.setCluster i k).elogBase = s.elogBase := rfl
@[simp] theorem setCluster_elogNext (s : State) (i : Nat) (k : Cluster) : (s.setCluster i k).elogNext = s.elogNext := rfl
@[simp] theorem setCluster_preqs (s : State) (i : Nat) (k : Cluster) : (s.setCluster i k).preqs = s.preqs := rfl
@[simp] theorem setCluster_hubWrites (s : State) (i : Nat) (k : Cluster) : (s.setCluster i k).hubWrites = s.hubWrites := rfl
@[simp] theorem setCluster_ctxs (s : State) (i : Nat) (k : Cluster) : (s.setCluster i k).ctxs = s.ctxs := rfl
@[simp] theorem setCluster_queues (s : State) (i : Nat) (k : Cluster) : (s.setCluster i k).queues = s.queues := rfl
@[simp] theorem setCluster_joins (s : State) (i : Nat) (k : Cluster) : (s.setCluster i k).joins = s.joins := rfl
@[simp] theorem setCluster_tasks (s : State) (i : Nat) (k : Cluster) : (s.setCluster i k).tasks = s.tasks := rfl
@[simp] theorem setCluster_pairs (s : State) (i : Nat) (k : Cluster) : (s.setCluster i k).pairs = s.pairs := rfl
@[simp] theorem setCluster_barriers (s : State) (i : Nat) (k : Cluster) : (s.setCluster i k).barriers = s.barriers := rfl
@[simp] theorem setCluster_handles (s : State) (i : Nat) (k : Cluster) : (s.setCluster i k).handles = s.handles := rfl
@[simp] theorem setCluster_tokens (s : State) (i : Nat) (k : Cluster) : (s.setCluster i k).tokens = s.tokens := rfl
@[simp] theorem setCluster_scWindow (s : State) (i : Nat) (k : Cluster) : (s.setCluster i k).scWindow = s.scWindow := rfl
@[simp] theorem setCluster_scFlight (s : State) (i : Nat) (k : Cluster) : (s.setCluster i k).scFlight = s.scFlight := rfl
@[simp] theorem setCluster_scOrder (s : State) (i : Nat) (k : Cluster) : (s.setCluster i k).scOrder = s.scOrder := rfl
@[simp] theorem setCluster_refusals (s : State) (i : Nat) (k : Cluster) : (s.setCluster i k).refusals = s.refusals := rfl
@[simp] theorem setCluster_measure (s : State) (i : Nat) (k : Cluster) : (s.setCluster i k).measure = s.measure := rfl
@[simp] theorem setCluster_nonce (s : State) (i : Nat) (k : Cluster) : (s.setCluster i k).nonce = s.nonce := rfl
@[simp] theorem setCluster_report (s : State) (i : Nat) (k : Cluster) : (s.setCluster i k).report = s.report := rfl
@[simp] theorem setCluster_recovery (s : State) (i : Nat) (k : Cluster) : (s.setCluster i k).recovery = s.recovery := rfl
@[simp] theorem setCluster_fports (s : State) (i : Nat) (k : Cluster) : (s.setCluster i k).fports = s.fports := rfl
@[simp] theorem setCluster_self (s : State) (i : Nat) (k : Cluster) : (s.setCluster i k).self = s.self := rfl
@[simp] theorem setCluster_lostCount (s : State) (i : Nat) (k : Cluster) : (s.setCluster i k).lostCount = s.lostCount := rfl
@[simp] theorem setCluster_lost (s : State) (i : Nat) (k : Cluster) : (s.setCluster i k).lost = s.lost := rfl
@[simp] theorem setCluster_chambers (s : State) (i : Nat) (k : Cluster) : (s.setCluster i k).chambers = s.chambers := rfl
@[simp] theorem setCluster_kreqs (s : State) (i : Nat) (k : Cluster) : (s.setCluster i k).kreqs = s.kreqs := rfl
@[simp] theorem setCluster_rcopies (s : State) (i : Nat) (k : Cluster) : (s.setCluster i k).rcopies = s.rcopies := rfl
@[simp] theorem setCluster_sent (s : State) (i : Nat) (k : Cluster) : (s.setCluster i k).sent = s.sent := rfl
@[simp] theorem setCluster_injectOk (s : State) (i : Nat) (k : Cluster) : (s.setCluster i k).injectOk = s.injectOk := rfl
@[simp] theorem setCluster_agenda (s : State) (i : Nat) (k : Cluster) : (s.setCluster i k).agenda = s.agenda := rfl
@[simp] theorem setCluster_cur (s : State) (i : Nat) (k : Cluster) : (s.setCluster i k).cur = s.cur := rfl
@[simp] theorem setCluster_retired (s : State) (i : Nat) (k : Cluster) : (s.setCluster i k).retired = s.retired := rfl
@[simp] theorem setCluster_cycle (s : State) (i : Nat) (k : Cluster) : (s.setCluster i k).cycle = s.cycle := rfl
@[simp] theorem setCluster_nextId (s : State) (i : Nat) (k : Cluster) : (s.setCluster i k).nextId = s.nextId := rfl
@[simp] theorem setCluster_draws (s : State) (i : Nat) (k : Cluster) : (s.setCluster i k).draws = s.draws := rfl
@[simp] theorem modCluster_cores (s : State) (i : Nat) (f : Cluster → Cluster) : (s.modCluster i f).cores = s.cores := rfl
@[simp] theorem modCluster_dies (s : State) (i : Nat) (f : Cluster → Cluster) : (s.modCluster i f).dies = s.dies := rfl
@[simp] theorem modCluster_mem (s : State) (i : Nat) (f : Cluster → Cluster) : (s.modCluster i f).mem = s.mem := rfl
@[simp] theorem modCluster_poisoned (s : State) (i : Nat) (f : Cluster → Cluster) : (s.modCluster i f).poisoned = s.poisoned := rfl
@[simp] theorem modCluster_poison (s : State) (i : Nat) (f : Cluster → Cluster) : (s.modCluster i f).poison = s.poison := rfl
@[simp] theorem modCluster_rev (s : State) (i : Nat) (f : Cluster → Cluster) : (s.modCluster i f).rev = s.rev := rfl
@[simp] theorem modCluster_part (s : State) (i : Nat) (f : Cluster → Cluster) : (s.modCluster i f).part = s.part := rfl
@[simp] theorem modCluster_lock (s : State) (i : Nat) (f : Cluster → Cluster) : (s.modCluster i f).lock = s.lock := rfl
@[simp] theorem modCluster_str (s : State) (i : Nat) (f : Cluster → Cluster) : (s.modCluster i f).str = s.str := rfl
@[simp] theorem modCluster_a10 (s : State) (i : Nat) (f : Cluster → Cluster) : (s.modCluster i f).a10 = s.a10 := rfl
@[simp] theorem modCluster_a1 (s : State) (i : Nat) (f : Cluster → Cluster) : (s.modCluster i f).a1 = s.a1 := rfl
@[simp] theorem modCluster_ceil (s : State) (i : Nat) (f : Cluster → Cluster) : (s.modCluster i f).ceil = s.ceil := rfl
@[simp] theorem modCluster_ceilPast (s : State) (i : Nat) (f : Cluster → Cluster) : (s.modCluster i f).ceilPast = s.ceilPast := rfl
@[simp] theorem modCluster_req (s : State) (i : Nat) (f : Cluster → Cluster) : (s.modCluster i f).req = s.req := rfl
@[simp] theorem modCluster_ctxbase (s : State) (i : Nat) (f : Cluster → Cluster) : (s.modCluster i f).ctxbase = s.ctxbase := rfl
@[simp] theorem modCluster_ctxRes (s : State) (i : Nat) (f : Cluster → Cluster) : (s.modCluster i f).ctxRes = s.ctxRes := rfl
@[simp] theorem modCluster_ctxOp (s : State) (i : Nat) (f : Cluster → Cluster) : (s.modCluster i f).ctxOp = s.ctxOp := rfl
@[simp] theorem modCluster_ctxNum (s : State) (i : Nat) (f : Cluster → Cluster) : (s.modCluster i f).ctxNum = s.ctxNum := rfl
@[simp] theorem modCluster_ctxen (s : State) (i : Nat) (f : Cluster → Cluster) : (s.modCluster i f).ctxen = s.ctxen := rfl
@[simp] theorem modCluster_inv (s : State) (i : Nat) (f : Cluster → Cluster) : (s.modCluster i f).inv = s.inv := rfl
@[simp] theorem modCluster_invBusy (s : State) (i : Nat) (f : Cluster → Cluster) : (s.modCluster i f).invBusy = s.invBusy := rfl
@[simp] theorem modCluster_preqHead (s : State) (i : Nat) (f : Cluster → Cluster) : (s.modCluster i f).preqHead = s.preqHead := rfl
@[simp] theorem modCluster_preqBase (s : State) (i : Nat) (f : Cluster → Cluster) : (s.modCluster i f).preqBase = s.preqBase := rfl
@[simp] theorem modCluster_preqTail (s : State) (i : Nat) (f : Cluster → Cluster) : (s.modCluster i f).preqTail = s.preqTail := rfl
@[simp] theorem modCluster_elogBase (s : State) (i : Nat) (f : Cluster → Cluster) : (s.modCluster i f).elogBase = s.elogBase := rfl
@[simp] theorem modCluster_elogNext (s : State) (i : Nat) (f : Cluster → Cluster) : (s.modCluster i f).elogNext = s.elogNext := rfl
@[simp] theorem modCluster_preqs (s : State) (i : Nat) (f : Cluster → Cluster) : (s.modCluster i f).preqs = s.preqs := rfl
@[simp] theorem modCluster_hubWrites (s : State) (i : Nat) (f : Cluster → Cluster) : (s.modCluster i f).hubWrites = s.hubWrites := rfl
@[simp] theorem modCluster_ctxs (s : State) (i : Nat) (f : Cluster → Cluster) : (s.modCluster i f).ctxs = s.ctxs := rfl
@[simp] theorem modCluster_queues (s : State) (i : Nat) (f : Cluster → Cluster) : (s.modCluster i f).queues = s.queues := rfl
@[simp] theorem modCluster_joins (s : State) (i : Nat) (f : Cluster → Cluster) : (s.modCluster i f).joins = s.joins := rfl
@[simp] theorem modCluster_tasks (s : State) (i : Nat) (f : Cluster → Cluster) : (s.modCluster i f).tasks = s.tasks := rfl
@[simp] theorem modCluster_pairs (s : State) (i : Nat) (f : Cluster → Cluster) : (s.modCluster i f).pairs = s.pairs := rfl
@[simp] theorem modCluster_barriers (s : State) (i : Nat) (f : Cluster → Cluster) : (s.modCluster i f).barriers = s.barriers := rfl
@[simp] theorem modCluster_handles (s : State) (i : Nat) (f : Cluster → Cluster) : (s.modCluster i f).handles = s.handles := rfl
@[simp] theorem modCluster_tokens (s : State) (i : Nat) (f : Cluster → Cluster) : (s.modCluster i f).tokens = s.tokens := rfl
@[simp] theorem modCluster_scWindow (s : State) (i : Nat) (f : Cluster → Cluster) : (s.modCluster i f).scWindow = s.scWindow := rfl
@[simp] theorem modCluster_scFlight (s : State) (i : Nat) (f : Cluster → Cluster) : (s.modCluster i f).scFlight = s.scFlight := rfl
@[simp] theorem modCluster_scOrder (s : State) (i : Nat) (f : Cluster → Cluster) : (s.modCluster i f).scOrder = s.scOrder := rfl
@[simp] theorem modCluster_refusals (s : State) (i : Nat) (f : Cluster → Cluster) : (s.modCluster i f).refusals = s.refusals := rfl
@[simp] theorem modCluster_measure (s : State) (i : Nat) (f : Cluster → Cluster) : (s.modCluster i f).measure = s.measure := rfl
@[simp] theorem modCluster_nonce (s : State) (i : Nat) (f : Cluster → Cluster) : (s.modCluster i f).nonce = s.nonce := rfl
@[simp] theorem modCluster_report (s : State) (i : Nat) (f : Cluster → Cluster) : (s.modCluster i f).report = s.report := rfl
@[simp] theorem modCluster_recovery (s : State) (i : Nat) (f : Cluster → Cluster) : (s.modCluster i f).recovery = s.recovery := rfl
@[simp] theorem modCluster_fports (s : State) (i : Nat) (f : Cluster → Cluster) : (s.modCluster i f).fports = s.fports := rfl
@[simp] theorem modCluster_self (s : State) (i : Nat) (f : Cluster → Cluster) : (s.modCluster i f).self = s.self := rfl
@[simp] theorem modCluster_lostCount (s : State) (i : Nat) (f : Cluster → Cluster) : (s.modCluster i f).lostCount = s.lostCount := rfl
@[simp] theorem modCluster_lost (s : State) (i : Nat) (f : Cluster → Cluster) : (s.modCluster i f).lost = s.lost := rfl
@[simp] theorem modCluster_chambers (s : State) (i : Nat) (f : Cluster → Cluster) : (s.modCluster i f).chambers = s.chambers := rfl
@[simp] theorem modCluster_kreqs (s : State) (i : Nat) (f : Cluster → Cluster) : (s.modCluster i f).kreqs = s.kreqs := rfl
@[simp] theorem modCluster_rcopies (s : State) (i : Nat) (f : Cluster → Cluster) : (s.modCluster i f).rcopies = s.rcopies := rfl
@[simp] theorem modCluster_sent (s : State) (i : Nat) (f : Cluster → Cluster) : (s.modCluster i f).sent = s.sent := rfl
@[simp] theorem modCluster_injectOk (s : State) (i : Nat) (f : Cluster → Cluster) : (s.modCluster i f).injectOk = s.injectOk := rfl
@[simp] theorem modCluster_agenda (s : State) (i : Nat) (f : Cluster → Cluster) : (s.modCluster i f).agenda = s.agenda := rfl
@[simp] theorem modCluster_cur (s : State) (i : Nat) (f : Cluster → Cluster) : (s.modCluster i f).cur = s.cur := rfl
@[simp] theorem modCluster_retired (s : State) (i : Nat) (f : Cluster → Cluster) : (s.modCluster i f).retired = s.retired := rfl
@[simp] theorem modCluster_cycle (s : State) (i : Nat) (f : Cluster → Cluster) : (s.modCluster i f).cycle = s.cycle := rfl
@[simp] theorem modCluster_nextId (s : State) (i : Nat) (f : Cluster → Cluster) : (s.modCluster i f).nextId = s.nextId := rfl
@[simp] theorem modCluster_draws (s : State) (i : Nat) (f : Cluster → Cluster) : (s.modCluster i f).draws = s.draws := rfl
@[simp] theorem setCtx_cores (s : State) (n : Nat) (x : Ctx) : (s.setCtx n x).cores = s.cores := rfl
@[simp] theorem setCtx_clusters (s : State) (n : Nat) (x : Ctx) : (s.setCtx n x).clusters = s.clusters := rfl
@[simp] theorem setCtx_dies (s : State) (n : Nat) (x : Ctx) : (s.setCtx n x).dies = s.dies := rfl
@[simp] theorem setCtx_mem (s : State) (n : Nat) (x : Ctx) : (s.setCtx n x).mem = s.mem := rfl
@[simp] theorem setCtx_poisoned (s : State) (n : Nat) (x : Ctx) : (s.setCtx n x).poisoned = s.poisoned := rfl
@[simp] theorem setCtx_poison (s : State) (n : Nat) (x : Ctx) : (s.setCtx n x).poison = s.poison := rfl
@[simp] theorem setCtx_rev (s : State) (n : Nat) (x : Ctx) : (s.setCtx n x).rev = s.rev := rfl
@[simp] theorem setCtx_part (s : State) (n : Nat) (x : Ctx) : (s.setCtx n x).part = s.part := rfl
@[simp] theorem setCtx_lock (s : State) (n : Nat) (x : Ctx) : (s.setCtx n x).lock = s.lock := rfl
@[simp] theorem setCtx_str (s : State) (n : Nat) (x : Ctx) : (s.setCtx n x).str = s.str := rfl
@[simp] theorem setCtx_a10 (s : State) (n : Nat) (x : Ctx) : (s.setCtx n x).a10 = s.a10 := rfl
@[simp] theorem setCtx_a1 (s : State) (n : Nat) (x : Ctx) : (s.setCtx n x).a1 = s.a1 := rfl
@[simp] theorem setCtx_ceil (s : State) (n : Nat) (x : Ctx) : (s.setCtx n x).ceil = s.ceil := rfl
@[simp] theorem setCtx_ceilPast (s : State) (n : Nat) (x : Ctx) : (s.setCtx n x).ceilPast = s.ceilPast := rfl
@[simp] theorem setCtx_req (s : State) (n : Nat) (x : Ctx) : (s.setCtx n x).req = s.req := rfl
@[simp] theorem setCtx_ctxbase (s : State) (n : Nat) (x : Ctx) : (s.setCtx n x).ctxbase = s.ctxbase := rfl
@[simp] theorem setCtx_ctxRes (s : State) (n : Nat) (x : Ctx) : (s.setCtx n x).ctxRes = s.ctxRes := rfl
@[simp] theorem setCtx_ctxOp (s : State) (n : Nat) (x : Ctx) : (s.setCtx n x).ctxOp = s.ctxOp := rfl
@[simp] theorem setCtx_ctxNum (s : State) (n : Nat) (x : Ctx) : (s.setCtx n x).ctxNum = s.ctxNum := rfl
@[simp] theorem setCtx_ctxen (s : State) (n : Nat) (x : Ctx) : (s.setCtx n x).ctxen = s.ctxen := rfl
@[simp] theorem setCtx_inv (s : State) (n : Nat) (x : Ctx) : (s.setCtx n x).inv = s.inv := rfl
@[simp] theorem setCtx_invBusy (s : State) (n : Nat) (x : Ctx) : (s.setCtx n x).invBusy = s.invBusy := rfl
@[simp] theorem setCtx_preqHead (s : State) (n : Nat) (x : Ctx) : (s.setCtx n x).preqHead = s.preqHead := rfl
@[simp] theorem setCtx_preqBase (s : State) (n : Nat) (x : Ctx) : (s.setCtx n x).preqBase = s.preqBase := rfl
@[simp] theorem setCtx_preqTail (s : State) (n : Nat) (x : Ctx) : (s.setCtx n x).preqTail = s.preqTail := rfl
@[simp] theorem setCtx_elogBase (s : State) (n : Nat) (x : Ctx) : (s.setCtx n x).elogBase = s.elogBase := rfl
@[simp] theorem setCtx_elogNext (s : State) (n : Nat) (x : Ctx) : (s.setCtx n x).elogNext = s.elogNext := rfl
@[simp] theorem setCtx_preqs (s : State) (n : Nat) (x : Ctx) : (s.setCtx n x).preqs = s.preqs := rfl
@[simp] theorem setCtx_hubWrites (s : State) (n : Nat) (x : Ctx) : (s.setCtx n x).hubWrites = s.hubWrites := rfl
@[simp] theorem setCtx_queues (s : State) (n : Nat) (x : Ctx) : (s.setCtx n x).queues = s.queues := rfl
@[simp] theorem setCtx_joins (s : State) (n : Nat) (x : Ctx) : (s.setCtx n x).joins = s.joins := rfl
@[simp] theorem setCtx_tasks (s : State) (n : Nat) (x : Ctx) : (s.setCtx n x).tasks = s.tasks := rfl
@[simp] theorem setCtx_pairs (s : State) (n : Nat) (x : Ctx) : (s.setCtx n x).pairs = s.pairs := rfl
@[simp] theorem setCtx_barriers (s : State) (n : Nat) (x : Ctx) : (s.setCtx n x).barriers = s.barriers := rfl
@[simp] theorem setCtx_handles (s : State) (n : Nat) (x : Ctx) : (s.setCtx n x).handles = s.handles := rfl
@[simp] theorem setCtx_tokens (s : State) (n : Nat) (x : Ctx) : (s.setCtx n x).tokens = s.tokens := rfl
@[simp] theorem setCtx_scWindow (s : State) (n : Nat) (x : Ctx) : (s.setCtx n x).scWindow = s.scWindow := rfl
@[simp] theorem setCtx_scFlight (s : State) (n : Nat) (x : Ctx) : (s.setCtx n x).scFlight = s.scFlight := rfl
@[simp] theorem setCtx_scOrder (s : State) (n : Nat) (x : Ctx) : (s.setCtx n x).scOrder = s.scOrder := rfl
@[simp] theorem setCtx_refusals (s : State) (n : Nat) (x : Ctx) : (s.setCtx n x).refusals = s.refusals := rfl
@[simp] theorem setCtx_measure (s : State) (n : Nat) (x : Ctx) : (s.setCtx n x).measure = s.measure := rfl
@[simp] theorem setCtx_nonce (s : State) (n : Nat) (x : Ctx) : (s.setCtx n x).nonce = s.nonce := rfl
@[simp] theorem setCtx_report (s : State) (n : Nat) (x : Ctx) : (s.setCtx n x).report = s.report := rfl
@[simp] theorem setCtx_recovery (s : State) (n : Nat) (x : Ctx) : (s.setCtx n x).recovery = s.recovery := rfl
@[simp] theorem setCtx_fports (s : State) (n : Nat) (x : Ctx) : (s.setCtx n x).fports = s.fports := rfl
@[simp] theorem setCtx_self (s : State) (n : Nat) (x : Ctx) : (s.setCtx n x).self = s.self := rfl
@[simp] theorem setCtx_lostCount (s : State) (n : Nat) (x : Ctx) : (s.setCtx n x).lostCount = s.lostCount := rfl
@[simp] theorem setCtx_lost (s : State) (n : Nat) (x : Ctx) : (s.setCtx n x).lost = s.lost := rfl
@[simp] theorem setCtx_chambers (s : State) (n : Nat) (x : Ctx) : (s.setCtx n x).chambers = s.chambers := rfl
@[simp] theorem setCtx_kreqs (s : State) (n : Nat) (x : Ctx) : (s.setCtx n x).kreqs = s.kreqs := rfl
@[simp] theorem setCtx_rcopies (s : State) (n : Nat) (x : Ctx) : (s.setCtx n x).rcopies = s.rcopies := rfl
@[simp] theorem setCtx_sent (s : State) (n : Nat) (x : Ctx) : (s.setCtx n x).sent = s.sent := rfl
@[simp] theorem setCtx_injectOk (s : State) (n : Nat) (x : Ctx) : (s.setCtx n x).injectOk = s.injectOk := rfl
@[simp] theorem setCtx_agenda (s : State) (n : Nat) (x : Ctx) : (s.setCtx n x).agenda = s.agenda := rfl
@[simp] theorem setCtx_cur (s : State) (n : Nat) (x : Ctx) : (s.setCtx n x).cur = s.cur := rfl
@[simp] theorem setCtx_retired (s : State) (n : Nat) (x : Ctx) : (s.setCtx n x).retired = s.retired := rfl
@[simp] theorem setCtx_cycle (s : State) (n : Nat) (x : Ctx) : (s.setCtx n x).cycle = s.cycle := rfl
@[simp] theorem setCtx_nextId (s : State) (n : Nat) (x : Ctx) : (s.setCtx n x).nextId = s.nextId := rfl
@[simp] theorem setCtx_draws (s : State) (n : Nat) (x : Ctx) : (s.setCtx n x).draws = s.draws := rfl
@[simp] theorem modCtx_cores (s : State) (n : Nat) (f : Ctx → Ctx) : (s.modCtx n f).cores = s.cores := rfl
@[simp] theorem modCtx_clusters (s : State) (n : Nat) (f : Ctx → Ctx) : (s.modCtx n f).clusters = s.clusters := rfl
@[simp] theorem modCtx_dies (s : State) (n : Nat) (f : Ctx → Ctx) : (s.modCtx n f).dies = s.dies := rfl
@[simp] theorem modCtx_mem (s : State) (n : Nat) (f : Ctx → Ctx) : (s.modCtx n f).mem = s.mem := rfl
@[simp] theorem modCtx_poisoned (s : State) (n : Nat) (f : Ctx → Ctx) : (s.modCtx n f).poisoned = s.poisoned := rfl
@[simp] theorem modCtx_poison (s : State) (n : Nat) (f : Ctx → Ctx) : (s.modCtx n f).poison = s.poison := rfl
@[simp] theorem modCtx_rev (s : State) (n : Nat) (f : Ctx → Ctx) : (s.modCtx n f).rev = s.rev := rfl
@[simp] theorem modCtx_part (s : State) (n : Nat) (f : Ctx → Ctx) : (s.modCtx n f).part = s.part := rfl
@[simp] theorem modCtx_lock (s : State) (n : Nat) (f : Ctx → Ctx) : (s.modCtx n f).lock = s.lock := rfl
@[simp] theorem modCtx_str (s : State) (n : Nat) (f : Ctx → Ctx) : (s.modCtx n f).str = s.str := rfl
@[simp] theorem modCtx_a10 (s : State) (n : Nat) (f : Ctx → Ctx) : (s.modCtx n f).a10 = s.a10 := rfl
@[simp] theorem modCtx_a1 (s : State) (n : Nat) (f : Ctx → Ctx) : (s.modCtx n f).a1 = s.a1 := rfl
@[simp] theorem modCtx_ceil (s : State) (n : Nat) (f : Ctx → Ctx) : (s.modCtx n f).ceil = s.ceil := rfl
@[simp] theorem modCtx_ceilPast (s : State) (n : Nat) (f : Ctx → Ctx) : (s.modCtx n f).ceilPast = s.ceilPast := rfl
@[simp] theorem modCtx_req (s : State) (n : Nat) (f : Ctx → Ctx) : (s.modCtx n f).req = s.req := rfl
@[simp] theorem modCtx_ctxbase (s : State) (n : Nat) (f : Ctx → Ctx) : (s.modCtx n f).ctxbase = s.ctxbase := rfl
@[simp] theorem modCtx_ctxRes (s : State) (n : Nat) (f : Ctx → Ctx) : (s.modCtx n f).ctxRes = s.ctxRes := rfl
@[simp] theorem modCtx_ctxOp (s : State) (n : Nat) (f : Ctx → Ctx) : (s.modCtx n f).ctxOp = s.ctxOp := rfl
@[simp] theorem modCtx_ctxNum (s : State) (n : Nat) (f : Ctx → Ctx) : (s.modCtx n f).ctxNum = s.ctxNum := rfl
@[simp] theorem modCtx_ctxen (s : State) (n : Nat) (f : Ctx → Ctx) : (s.modCtx n f).ctxen = s.ctxen := rfl
@[simp] theorem modCtx_inv (s : State) (n : Nat) (f : Ctx → Ctx) : (s.modCtx n f).inv = s.inv := rfl
@[simp] theorem modCtx_invBusy (s : State) (n : Nat) (f : Ctx → Ctx) : (s.modCtx n f).invBusy = s.invBusy := rfl
@[simp] theorem modCtx_preqHead (s : State) (n : Nat) (f : Ctx → Ctx) : (s.modCtx n f).preqHead = s.preqHead := rfl
@[simp] theorem modCtx_preqBase (s : State) (n : Nat) (f : Ctx → Ctx) : (s.modCtx n f).preqBase = s.preqBase := rfl
@[simp] theorem modCtx_preqTail (s : State) (n : Nat) (f : Ctx → Ctx) : (s.modCtx n f).preqTail = s.preqTail := rfl
@[simp] theorem modCtx_elogBase (s : State) (n : Nat) (f : Ctx → Ctx) : (s.modCtx n f).elogBase = s.elogBase := rfl
@[simp] theorem modCtx_elogNext (s : State) (n : Nat) (f : Ctx → Ctx) : (s.modCtx n f).elogNext = s.elogNext := rfl
@[simp] theorem modCtx_preqs (s : State) (n : Nat) (f : Ctx → Ctx) : (s.modCtx n f).preqs = s.preqs := rfl
@[simp] theorem modCtx_hubWrites (s : State) (n : Nat) (f : Ctx → Ctx) : (s.modCtx n f).hubWrites = s.hubWrites := rfl
@[simp] theorem modCtx_queues (s : State) (n : Nat) (f : Ctx → Ctx) : (s.modCtx n f).queues = s.queues := rfl
@[simp] theorem modCtx_joins (s : State) (n : Nat) (f : Ctx → Ctx) : (s.modCtx n f).joins = s.joins := rfl
@[simp] theorem modCtx_tasks (s : State) (n : Nat) (f : Ctx → Ctx) : (s.modCtx n f).tasks = s.tasks := rfl
@[simp] theorem modCtx_pairs (s : State) (n : Nat) (f : Ctx → Ctx) : (s.modCtx n f).pairs = s.pairs := rfl
@[simp] theorem modCtx_barriers (s : State) (n : Nat) (f : Ctx → Ctx) : (s.modCtx n f).barriers = s.barriers := rfl
@[simp] theorem modCtx_handles (s : State) (n : Nat) (f : Ctx → Ctx) : (s.modCtx n f).handles = s.handles := rfl
@[simp] theorem modCtx_tokens (s : State) (n : Nat) (f : Ctx → Ctx) : (s.modCtx n f).tokens = s.tokens := rfl
@[simp] theorem modCtx_scWindow (s : State) (n : Nat) (f : Ctx → Ctx) : (s.modCtx n f).scWindow = s.scWindow := rfl
@[simp] theorem modCtx_scFlight (s : State) (n : Nat) (f : Ctx → Ctx) : (s.modCtx n f).scFlight = s.scFlight := rfl
@[simp] theorem modCtx_scOrder (s : State) (n : Nat) (f : Ctx → Ctx) : (s.modCtx n f).scOrder = s.scOrder := rfl
@[simp] theorem modCtx_refusals (s : State) (n : Nat) (f : Ctx → Ctx) : (s.modCtx n f).refusals = s.refusals := rfl
@[simp] theorem modCtx_measure (s : State) (n : Nat) (f : Ctx → Ctx) : (s.modCtx n f).measure = s.measure := rfl
@[simp] theorem modCtx_nonce (s : State) (n : Nat) (f : Ctx → Ctx) : (s.modCtx n f).nonce = s.nonce := rfl
@[simp] theorem modCtx_report (s : State) (n : Nat) (f : Ctx → Ctx) : (s.modCtx n f).report = s.report := rfl
@[simp] theorem modCtx_recovery (s : State) (n : Nat) (f : Ctx → Ctx) : (s.modCtx n f).recovery = s.recovery := rfl
@[simp] theorem modCtx_fports (s : State) (n : Nat) (f : Ctx → Ctx) : (s.modCtx n f).fports = s.fports := rfl
@[simp] theorem modCtx_self (s : State) (n : Nat) (f : Ctx → Ctx) : (s.modCtx n f).self = s.self := rfl
@[simp] theorem modCtx_lostCount (s : State) (n : Nat) (f : Ctx → Ctx) : (s.modCtx n f).lostCount = s.lostCount := rfl
@[simp] theorem modCtx_lost (s : State) (n : Nat) (f : Ctx → Ctx) : (s.modCtx n f).lost = s.lost := rfl
@[simp] theorem modCtx_chambers (s : State) (n : Nat) (f : Ctx → Ctx) : (s.modCtx n f).chambers = s.chambers := rfl
@[simp] theorem modCtx_kreqs (s : State) (n : Nat) (f : Ctx → Ctx) : (s.modCtx n f).kreqs = s.kreqs := rfl
@[simp] theorem modCtx_rcopies (s : State) (n : Nat) (f : Ctx → Ctx) : (s.modCtx n f).rcopies = s.rcopies := rfl
@[simp] theorem modCtx_sent (s : State) (n : Nat) (f : Ctx → Ctx) : (s.modCtx n f).sent = s.sent := rfl
@[simp] theorem modCtx_injectOk (s : State) (n : Nat) (f : Ctx → Ctx) : (s.modCtx n f).injectOk = s.injectOk := rfl
@[simp] theorem modCtx_agenda (s : State) (n : Nat) (f : Ctx → Ctx) : (s.modCtx n f).agenda = s.agenda := rfl
@[simp] theorem modCtx_cur (s : State) (n : Nat) (f : Ctx → Ctx) : (s.modCtx n f).cur = s.cur := rfl
@[simp] theorem modCtx_retired (s : State) (n : Nat) (f : Ctx → Ctx) : (s.modCtx n f).retired = s.retired := rfl
@[simp] theorem modCtx_cycle (s : State) (n : Nat) (f : Ctx → Ctx) : (s.modCtx n f).cycle = s.cycle := rfl
@[simp] theorem modCtx_nextId (s : State) (n : Nat) (f : Ctx → Ctx) : (s.modCtx n f).nextId = s.nextId := rfl
@[simp] theorem modCtx_draws (s : State) (n : Nat) (f : Ctx → Ctx) : (s.modCtx n f).draws = s.draws := rfl
@[simp] theorem modDie_cores (s : State) (d : Fin 8) (f : Die → Die) : (s.modDie d f).cores = s.cores := rfl
@[simp] theorem modDie_clusters (s : State) (d : Fin 8) (f : Die → Die) : (s.modDie d f).clusters = s.clusters := rfl
@[simp] theorem modDie_mem (s : State) (d : Fin 8) (f : Die → Die) : (s.modDie d f).mem = s.mem := rfl
@[simp] theorem modDie_poisoned (s : State) (d : Fin 8) (f : Die → Die) : (s.modDie d f).poisoned = s.poisoned := rfl
@[simp] theorem modDie_poison (s : State) (d : Fin 8) (f : Die → Die) : (s.modDie d f).poison = s.poison := rfl
@[simp] theorem modDie_rev (s : State) (d : Fin 8) (f : Die → Die) : (s.modDie d f).rev = s.rev := rfl
@[simp] theorem modDie_part (s : State) (d : Fin 8) (f : Die → Die) : (s.modDie d f).part = s.part := rfl
@[simp] theorem modDie_lock (s : State) (d : Fin 8) (f : Die → Die) : (s.modDie d f).lock = s.lock := rfl
@[simp] theorem modDie_str (s : State) (d : Fin 8) (f : Die → Die) : (s.modDie d f).str = s.str := rfl
@[simp] theorem modDie_a10 (s : State) (d : Fin 8) (f : Die → Die) : (s.modDie d f).a10 = s.a10 := rfl
@[simp] theorem modDie_a1 (s : State) (d : Fin 8) (f : Die → Die) : (s.modDie d f).a1 = s.a1 := rfl
@[simp] theorem modDie_ceil (s : State) (d : Fin 8) (f : Die → Die) : (s.modDie d f).ceil = s.ceil := rfl
@[simp] theorem modDie_ceilPast (s : State) (d : Fin 8) (f : Die → Die) : (s.modDie d f).ceilPast = s.ceilPast := rfl
@[simp] theorem modDie_req (s : State) (d : Fin 8) (f : Die → Die) : (s.modDie d f).req = s.req := rfl
@[simp] theorem modDie_ctxbase (s : State) (d : Fin 8) (f : Die → Die) : (s.modDie d f).ctxbase = s.ctxbase := rfl
@[simp] theorem modDie_ctxRes (s : State) (d : Fin 8) (f : Die → Die) : (s.modDie d f).ctxRes = s.ctxRes := rfl
@[simp] theorem modDie_ctxOp (s : State) (d : Fin 8) (f : Die → Die) : (s.modDie d f).ctxOp = s.ctxOp := rfl
@[simp] theorem modDie_ctxNum (s : State) (d : Fin 8) (f : Die → Die) : (s.modDie d f).ctxNum = s.ctxNum := rfl
@[simp] theorem modDie_ctxen (s : State) (d : Fin 8) (f : Die → Die) : (s.modDie d f).ctxen = s.ctxen := rfl
@[simp] theorem modDie_inv (s : State) (d : Fin 8) (f : Die → Die) : (s.modDie d f).inv = s.inv := rfl
@[simp] theorem modDie_invBusy (s : State) (d : Fin 8) (f : Die → Die) : (s.modDie d f).invBusy = s.invBusy := rfl
@[simp] theorem modDie_preqHead (s : State) (d : Fin 8) (f : Die → Die) : (s.modDie d f).preqHead = s.preqHead := rfl
@[simp] theorem modDie_preqBase (s : State) (d : Fin 8) (f : Die → Die) : (s.modDie d f).preqBase = s.preqBase := rfl
@[simp] theorem modDie_preqTail (s : State) (d : Fin 8) (f : Die → Die) : (s.modDie d f).preqTail = s.preqTail := rfl
@[simp] theorem modDie_elogBase (s : State) (d : Fin 8) (f : Die → Die) : (s.modDie d f).elogBase = s.elogBase := rfl
@[simp] theorem modDie_elogNext (s : State) (d : Fin 8) (f : Die → Die) : (s.modDie d f).elogNext = s.elogNext := rfl
@[simp] theorem modDie_preqs (s : State) (d : Fin 8) (f : Die → Die) : (s.modDie d f).preqs = s.preqs := rfl
@[simp] theorem modDie_hubWrites (s : State) (d : Fin 8) (f : Die → Die) : (s.modDie d f).hubWrites = s.hubWrites := rfl
@[simp] theorem modDie_ctxs (s : State) (d : Fin 8) (f : Die → Die) : (s.modDie d f).ctxs = s.ctxs := rfl
@[simp] theorem modDie_queues (s : State) (d : Fin 8) (f : Die → Die) : (s.modDie d f).queues = s.queues := rfl
@[simp] theorem modDie_joins (s : State) (d : Fin 8) (f : Die → Die) : (s.modDie d f).joins = s.joins := rfl
@[simp] theorem modDie_tasks (s : State) (d : Fin 8) (f : Die → Die) : (s.modDie d f).tasks = s.tasks := rfl
@[simp] theorem modDie_pairs (s : State) (d : Fin 8) (f : Die → Die) : (s.modDie d f).pairs = s.pairs := rfl
@[simp] theorem modDie_barriers (s : State) (d : Fin 8) (f : Die → Die) : (s.modDie d f).barriers = s.barriers := rfl
@[simp] theorem modDie_handles (s : State) (d : Fin 8) (f : Die → Die) : (s.modDie d f).handles = s.handles := rfl
@[simp] theorem modDie_tokens (s : State) (d : Fin 8) (f : Die → Die) : (s.modDie d f).tokens = s.tokens := rfl
@[simp] theorem modDie_scWindow (s : State) (d : Fin 8) (f : Die → Die) : (s.modDie d f).scWindow = s.scWindow := rfl
@[simp] theorem modDie_scFlight (s : State) (d : Fin 8) (f : Die → Die) : (s.modDie d f).scFlight = s.scFlight := rfl
@[simp] theorem modDie_scOrder (s : State) (d : Fin 8) (f : Die → Die) : (s.modDie d f).scOrder = s.scOrder := rfl
@[simp] theorem modDie_refusals (s : State) (d : Fin 8) (f : Die → Die) : (s.modDie d f).refusals = s.refusals := rfl
@[simp] theorem modDie_measure (s : State) (d : Fin 8) (f : Die → Die) : (s.modDie d f).measure = s.measure := rfl
@[simp] theorem modDie_nonce (s : State) (d : Fin 8) (f : Die → Die) : (s.modDie d f).nonce = s.nonce := rfl
@[simp] theorem modDie_report (s : State) (d : Fin 8) (f : Die → Die) : (s.modDie d f).report = s.report := rfl
@[simp] theorem modDie_recovery (s : State) (d : Fin 8) (f : Die → Die) : (s.modDie d f).recovery = s.recovery := rfl
@[simp] theorem modDie_fports (s : State) (d : Fin 8) (f : Die → Die) : (s.modDie d f).fports = s.fports := rfl
@[simp] theorem modDie_self (s : State) (d : Fin 8) (f : Die → Die) : (s.modDie d f).self = s.self := rfl
@[simp] theorem modDie_lostCount (s : State) (d : Fin 8) (f : Die → Die) : (s.modDie d f).lostCount = s.lostCount := rfl
@[simp] theorem modDie_lost (s : State) (d : Fin 8) (f : Die → Die) : (s.modDie d f).lost = s.lost := rfl
@[simp] theorem modDie_chambers (s : State) (d : Fin 8) (f : Die → Die) : (s.modDie d f).chambers = s.chambers := rfl
@[simp] theorem modDie_kreqs (s : State) (d : Fin 8) (f : Die → Die) : (s.modDie d f).kreqs = s.kreqs := rfl
@[simp] theorem modDie_rcopies (s : State) (d : Fin 8) (f : Die → Die) : (s.modDie d f).rcopies = s.rcopies := rfl
@[simp] theorem modDie_sent (s : State) (d : Fin 8) (f : Die → Die) : (s.modDie d f).sent = s.sent := rfl
@[simp] theorem modDie_injectOk (s : State) (d : Fin 8) (f : Die → Die) : (s.modDie d f).injectOk = s.injectOk := rfl
@[simp] theorem modDie_agenda (s : State) (d : Fin 8) (f : Die → Die) : (s.modDie d f).agenda = s.agenda := rfl
@[simp] theorem modDie_cur (s : State) (d : Fin 8) (f : Die → Die) : (s.modDie d f).cur = s.cur := rfl
@[simp] theorem modDie_retired (s : State) (d : Fin 8) (f : Die → Die) : (s.modDie d f).retired = s.retired := rfl
@[simp] theorem modDie_cycle (s : State) (d : Fin 8) (f : Die → Die) : (s.modDie d f).cycle = s.cycle := rfl
@[simp] theorem modDie_nextId (s : State) (d : Fin 8) (f : Die → Die) : (s.modDie d f).nextId = s.nextId := rfl
@[simp] theorem modDie_draws (s : State) (d : Fin 8) (f : Die → Die) : (s.modDie d f).draws = s.draws := rfl
@[simp] theorem fresh_cores (s : State) : (s.fresh).cores = s.cores := rfl
@[simp] theorem fresh_clusters (s : State) : (s.fresh).clusters = s.clusters := rfl
@[simp] theorem fresh_dies (s : State) : (s.fresh).dies = s.dies := rfl
@[simp] theorem fresh_mem (s : State) : (s.fresh).mem = s.mem := rfl
@[simp] theorem fresh_poisoned (s : State) : (s.fresh).poisoned = s.poisoned := rfl
@[simp] theorem fresh_poison (s : State) : (s.fresh).poison = s.poison := rfl
@[simp] theorem fresh_rev (s : State) : (s.fresh).rev = s.rev := rfl
@[simp] theorem fresh_part (s : State) : (s.fresh).part = s.part := rfl
@[simp] theorem fresh_lock (s : State) : (s.fresh).lock = s.lock := rfl
@[simp] theorem fresh_str (s : State) : (s.fresh).str = s.str := rfl
@[simp] theorem fresh_a10 (s : State) : (s.fresh).a10 = s.a10 := rfl
@[simp] theorem fresh_a1 (s : State) : (s.fresh).a1 = s.a1 := rfl
@[simp] theorem fresh_ceil (s : State) : (s.fresh).ceil = s.ceil := rfl
@[simp] theorem fresh_ceilPast (s : State) : (s.fresh).ceilPast = s.ceilPast := rfl
@[simp] theorem fresh_req (s : State) : (s.fresh).req = s.req := rfl
@[simp] theorem fresh_ctxbase (s : State) : (s.fresh).ctxbase = s.ctxbase := rfl
@[simp] theorem fresh_ctxRes (s : State) : (s.fresh).ctxRes = s.ctxRes := rfl
@[simp] theorem fresh_ctxOp (s : State) : (s.fresh).ctxOp = s.ctxOp := rfl
@[simp] theorem fresh_ctxNum (s : State) : (s.fresh).ctxNum = s.ctxNum := rfl
@[simp] theorem fresh_ctxen (s : State) : (s.fresh).ctxen = s.ctxen := rfl
@[simp] theorem fresh_inv (s : State) : (s.fresh).inv = s.inv := rfl
@[simp] theorem fresh_invBusy (s : State) : (s.fresh).invBusy = s.invBusy := rfl
@[simp] theorem fresh_preqHead (s : State) : (s.fresh).preqHead = s.preqHead := rfl
@[simp] theorem fresh_preqBase (s : State) : (s.fresh).preqBase = s.preqBase := rfl
@[simp] theorem fresh_preqTail (s : State) : (s.fresh).preqTail = s.preqTail := rfl
@[simp] theorem fresh_elogBase (s : State) : (s.fresh).elogBase = s.elogBase := rfl
@[simp] theorem fresh_elogNext (s : State) : (s.fresh).elogNext = s.elogNext := rfl
@[simp] theorem fresh_preqs (s : State) : (s.fresh).preqs = s.preqs := rfl
@[simp] theorem fresh_hubWrites (s : State) : (s.fresh).hubWrites = s.hubWrites := rfl
@[simp] theorem fresh_ctxs (s : State) : (s.fresh).ctxs = s.ctxs := rfl
@[simp] theorem fresh_queues (s : State) : (s.fresh).queues = s.queues := rfl
@[simp] theorem fresh_joins (s : State) : (s.fresh).joins = s.joins := rfl
@[simp] theorem fresh_tasks (s : State) : (s.fresh).tasks = s.tasks := rfl
@[simp] theorem fresh_pairs (s : State) : (s.fresh).pairs = s.pairs := rfl
@[simp] theorem fresh_barriers (s : State) : (s.fresh).barriers = s.barriers := rfl
@[simp] theorem fresh_handles (s : State) : (s.fresh).handles = s.handles := rfl
@[simp] theorem fresh_tokens (s : State) : (s.fresh).tokens = s.tokens := rfl
@[simp] theorem fresh_scWindow (s : State) : (s.fresh).scWindow = s.scWindow := rfl
@[simp] theorem fresh_scFlight (s : State) : (s.fresh).scFlight = s.scFlight := rfl
@[simp] theorem fresh_scOrder (s : State) : (s.fresh).scOrder = s.scOrder := rfl
@[simp] theorem fresh_refusals (s : State) : (s.fresh).refusals = s.refusals := rfl
@[simp] theorem fresh_measure (s : State) : (s.fresh).measure = s.measure := rfl
@[simp] theorem fresh_nonce (s : State) : (s.fresh).nonce = s.nonce := rfl
@[simp] theorem fresh_report (s : State) : (s.fresh).report = s.report := rfl
@[simp] theorem fresh_recovery (s : State) : (s.fresh).recovery = s.recovery := rfl
@[simp] theorem fresh_fports (s : State) : (s.fresh).fports = s.fports := rfl
@[simp] theorem fresh_self (s : State) : (s.fresh).self = s.self := rfl
@[simp] theorem fresh_lostCount (s : State) : (s.fresh).lostCount = s.lostCount := rfl
@[simp] theorem fresh_lost (s : State) : (s.fresh).lost = s.lost := rfl
@[simp] theorem fresh_chambers (s : State) : (s.fresh).chambers = s.chambers := rfl
@[simp] theorem fresh_kreqs (s : State) : (s.fresh).kreqs = s.kreqs := rfl
@[simp] theorem fresh_rcopies (s : State) : (s.fresh).rcopies = s.rcopies := rfl
@[simp] theorem fresh_sent (s : State) : (s.fresh).sent = s.sent := rfl
@[simp] theorem fresh_injectOk (s : State) : (s.fresh).injectOk = s.injectOk := rfl
@[simp] theorem fresh_agenda (s : State) : (s.fresh).agenda = s.agenda := rfl
@[simp] theorem fresh_cur (s : State) : (s.fresh).cur = s.cur := rfl
@[simp] theorem fresh_retired (s : State) : (s.fresh).retired = s.retired := rfl
@[simp] theorem fresh_cycle (s : State) : (s.fresh).cycle = s.cycle := rfl
@[simp] theorem fresh_draws (s : State) : (s.fresh).draws = s.draws := rfl
@[simp] theorem draw_cores (s : State) : (s.draw).cores = s.cores := rfl
@[simp] theorem draw_clusters (s : State) : (s.draw).clusters = s.clusters := rfl
@[simp] theorem draw_dies (s : State) : (s.draw).dies = s.dies := rfl
@[simp] theorem draw_mem (s : State) : (s.draw).mem = s.mem := rfl
@[simp] theorem draw_poisoned (s : State) : (s.draw).poisoned = s.poisoned := rfl
@[simp] theorem draw_poison (s : State) : (s.draw).poison = s.poison := rfl
@[simp] theorem draw_rev (s : State) : (s.draw).rev = s.rev := rfl
@[simp] theorem draw_part (s : State) : (s.draw).part = s.part := rfl
@[simp] theorem draw_lock (s : State) : (s.draw).lock = s.lock := rfl
@[simp] theorem draw_str (s : State) : (s.draw).str = s.str := rfl
@[simp] theorem draw_a10 (s : State) : (s.draw).a10 = s.a10 := rfl
@[simp] theorem draw_a1 (s : State) : (s.draw).a1 = s.a1 := rfl
@[simp] theorem draw_ceil (s : State) : (s.draw).ceil = s.ceil := rfl
@[simp] theorem draw_ceilPast (s : State) : (s.draw).ceilPast = s.ceilPast := rfl
@[simp] theorem draw_req (s : State) : (s.draw).req = s.req := rfl
@[simp] theorem draw_ctxbase (s : State) : (s.draw).ctxbase = s.ctxbase := rfl
@[simp] theorem draw_ctxRes (s : State) : (s.draw).ctxRes = s.ctxRes := rfl
@[simp] theorem draw_ctxOp (s : State) : (s.draw).ctxOp = s.ctxOp := rfl
@[simp] theorem draw_ctxNum (s : State) : (s.draw).ctxNum = s.ctxNum := rfl
@[simp] theorem draw_ctxen (s : State) : (s.draw).ctxen = s.ctxen := rfl
@[simp] theorem draw_inv (s : State) : (s.draw).inv = s.inv := rfl
@[simp] theorem draw_invBusy (s : State) : (s.draw).invBusy = s.invBusy := rfl
@[simp] theorem draw_preqHead (s : State) : (s.draw).preqHead = s.preqHead := rfl
@[simp] theorem draw_preqBase (s : State) : (s.draw).preqBase = s.preqBase := rfl
@[simp] theorem draw_preqTail (s : State) : (s.draw).preqTail = s.preqTail := rfl
@[simp] theorem draw_elogBase (s : State) : (s.draw).elogBase = s.elogBase := rfl
@[simp] theorem draw_elogNext (s : State) : (s.draw).elogNext = s.elogNext := rfl
@[simp] theorem draw_preqs (s : State) : (s.draw).preqs = s.preqs := rfl
@[simp] theorem draw_hubWrites (s : State) : (s.draw).hubWrites = s.hubWrites := rfl
@[simp] theorem draw_ctxs (s : State) : (s.draw).ctxs = s.ctxs := rfl
@[simp] theorem draw_queues (s : State) : (s.draw).queues = s.queues := rfl
@[simp] theorem draw_joins (s : State) : (s.draw).joins = s.joins := rfl
@[simp] theorem draw_tasks (s : State) : (s.draw).tasks = s.tasks := rfl
@[simp] theorem draw_pairs (s : State) : (s.draw).pairs = s.pairs := rfl
@[simp] theorem draw_barriers (s : State) : (s.draw).barriers = s.barriers := rfl
@[simp] theorem draw_handles (s : State) : (s.draw).handles = s.handles := rfl
@[simp] theorem draw_tokens (s : State) : (s.draw).tokens = s.tokens := rfl
@[simp] theorem draw_scWindow (s : State) : (s.draw).scWindow = s.scWindow := rfl
@[simp] theorem draw_scFlight (s : State) : (s.draw).scFlight = s.scFlight := rfl
@[simp] theorem draw_scOrder (s : State) : (s.draw).scOrder = s.scOrder := rfl
@[simp] theorem draw_refusals (s : State) : (s.draw).refusals = s.refusals := rfl
@[simp] theorem draw_measure (s : State) : (s.draw).measure = s.measure := rfl
@[simp] theorem draw_nonce (s : State) : (s.draw).nonce = s.nonce := rfl
@[simp] theorem draw_report (s : State) : (s.draw).report = s.report := rfl
@[simp] theorem draw_recovery (s : State) : (s.draw).recovery = s.recovery := rfl
@[simp] theorem draw_fports (s : State) : (s.draw).fports = s.fports := rfl
@[simp] theorem draw_self (s : State) : (s.draw).self = s.self := rfl
@[simp] theorem draw_lostCount (s : State) : (s.draw).lostCount = s.lostCount := rfl
@[simp] theorem draw_lost (s : State) : (s.draw).lost = s.lost := rfl
@[simp] theorem draw_chambers (s : State) : (s.draw).chambers = s.chambers := rfl
@[simp] theorem draw_kreqs (s : State) : (s.draw).kreqs = s.kreqs := rfl
@[simp] theorem draw_rcopies (s : State) : (s.draw).rcopies = s.rcopies := rfl
@[simp] theorem draw_sent (s : State) : (s.draw).sent = s.sent := rfl
@[simp] theorem draw_injectOk (s : State) : (s.draw).injectOk = s.injectOk := rfl
@[simp] theorem draw_agenda (s : State) : (s.draw).agenda = s.agenda := rfl
@[simp] theorem draw_cur (s : State) : (s.draw).cur = s.cur := rfl
@[simp] theorem draw_retired (s : State) : (s.draw).retired = s.retired := rfl
@[simp] theorem draw_cycle (s : State) : (s.draw).cycle = s.cycle := rfl
@[simp] theorem draw_nextId (s : State) : (s.draw).nextId = s.nextId := rfl
@[simp] theorem goTo_clusters (s : State) (pc : Pc) : (s.goTo pc).clusters = s.clusters := rfl
@[simp] theorem goTo_dies (s : State) (pc : Pc) : (s.goTo pc).dies = s.dies := rfl
@[simp] theorem goTo_mem (s : State) (pc : Pc) : (s.goTo pc).mem = s.mem := rfl
@[simp] theorem goTo_poisoned (s : State) (pc : Pc) : (s.goTo pc).poisoned = s.poisoned := rfl
@[simp] theorem goTo_poison (s : State) (pc : Pc) : (s.goTo pc).poison = s.poison := rfl
@[simp] theorem goTo_rev (s : State) (pc : Pc) : (s.goTo pc).rev = s.rev := rfl
@[simp] theorem goTo_part (s : State) (pc : Pc) : (s.goTo pc).part = s.part := rfl
@[simp] theorem goTo_lock (s : State) (pc : Pc) : (s.goTo pc).lock = s.lock := rfl
@[simp] theorem goTo_str (s : State) (pc : Pc) : (s.goTo pc).str = s.str := rfl
@[simp] theorem goTo_a10 (s : State) (pc : Pc) : (s.goTo pc).a10 = s.a10 := rfl
@[simp] theorem goTo_a1 (s : State) (pc : Pc) : (s.goTo pc).a1 = s.a1 := rfl
@[simp] theorem goTo_ceil (s : State) (pc : Pc) : (s.goTo pc).ceil = s.ceil := rfl
@[simp] theorem goTo_ceilPast (s : State) (pc : Pc) : (s.goTo pc).ceilPast = s.ceilPast := rfl
@[simp] theorem goTo_req (s : State) (pc : Pc) : (s.goTo pc).req = s.req := rfl
@[simp] theorem goTo_ctxbase (s : State) (pc : Pc) : (s.goTo pc).ctxbase = s.ctxbase := rfl
@[simp] theorem goTo_ctxRes (s : State) (pc : Pc) : (s.goTo pc).ctxRes = s.ctxRes := rfl
@[simp] theorem goTo_ctxOp (s : State) (pc : Pc) : (s.goTo pc).ctxOp = s.ctxOp := rfl
@[simp] theorem goTo_ctxNum (s : State) (pc : Pc) : (s.goTo pc).ctxNum = s.ctxNum := rfl
@[simp] theorem goTo_ctxen (s : State) (pc : Pc) : (s.goTo pc).ctxen = s.ctxen := rfl
@[simp] theorem goTo_inv (s : State) (pc : Pc) : (s.goTo pc).inv = s.inv := rfl
@[simp] theorem goTo_invBusy (s : State) (pc : Pc) : (s.goTo pc).invBusy = s.invBusy := rfl
@[simp] theorem goTo_preqHead (s : State) (pc : Pc) : (s.goTo pc).preqHead = s.preqHead := rfl
@[simp] theorem goTo_preqBase (s : State) (pc : Pc) : (s.goTo pc).preqBase = s.preqBase := rfl
@[simp] theorem goTo_preqTail (s : State) (pc : Pc) : (s.goTo pc).preqTail = s.preqTail := rfl
@[simp] theorem goTo_elogBase (s : State) (pc : Pc) : (s.goTo pc).elogBase = s.elogBase := rfl
@[simp] theorem goTo_elogNext (s : State) (pc : Pc) : (s.goTo pc).elogNext = s.elogNext := rfl
@[simp] theorem goTo_preqs (s : State) (pc : Pc) : (s.goTo pc).preqs = s.preqs := rfl
@[simp] theorem goTo_hubWrites (s : State) (pc : Pc) : (s.goTo pc).hubWrites = s.hubWrites := rfl
@[simp] theorem goTo_ctxs (s : State) (pc : Pc) : (s.goTo pc).ctxs = s.ctxs := rfl
@[simp] theorem goTo_queues (s : State) (pc : Pc) : (s.goTo pc).queues = s.queues := rfl
@[simp] theorem goTo_joins (s : State) (pc : Pc) : (s.goTo pc).joins = s.joins := rfl
@[simp] theorem goTo_tasks (s : State) (pc : Pc) : (s.goTo pc).tasks = s.tasks := rfl
@[simp] theorem goTo_pairs (s : State) (pc : Pc) : (s.goTo pc).pairs = s.pairs := rfl
@[simp] theorem goTo_barriers (s : State) (pc : Pc) : (s.goTo pc).barriers = s.barriers := rfl
@[simp] theorem goTo_handles (s : State) (pc : Pc) : (s.goTo pc).handles = s.handles := rfl
@[simp] theorem goTo_tokens (s : State) (pc : Pc) : (s.goTo pc).tokens = s.tokens := rfl
@[simp] theorem goTo_scWindow (s : State) (pc : Pc) : (s.goTo pc).scWindow = s.scWindow := rfl
@[simp] theorem goTo_scFlight (s : State) (pc : Pc) : (s.goTo pc).scFlight = s.scFlight := rfl
@[simp] theorem goTo_scOrder (s : State) (pc : Pc) : (s.goTo pc).scOrder = s.scOrder := rfl
@[simp] theorem goTo_refusals (s : State) (pc : Pc) : (s.goTo pc).refusals = s.refusals := rfl
@[simp] theorem goTo_measure (s : State) (pc : Pc) : (s.goTo pc).measure = s.measure := rfl
@[simp] theorem goTo_nonce (s : State) (pc : Pc) : (s.goTo pc).nonce = s.nonce := rfl
@[simp] theorem goTo_report (s : State) (pc : Pc) : (s.goTo pc).report = s.report := rfl
@[simp] theorem goTo_recovery (s : State) (pc : Pc) : (s.goTo pc).recovery = s.recovery := rfl
@[simp] theorem goTo_fports (s : State) (pc : Pc) : (s.goTo pc).fports = s.fports := rfl
@[simp] theorem goTo_self (s : State) (pc : Pc) : (s.goTo pc).self = s.self := rfl
@[simp] theorem goTo_lostCount (s : State) (pc : Pc) : (s.goTo pc).lostCount = s.lostCount := rfl
@[simp] theorem goTo_lost (s : State) (pc : Pc) : (s.goTo pc).lost = s.lost := rfl
@[simp] theorem goTo_chambers (s : State) (pc : Pc) : (s.goTo pc).chambers = s.chambers := rfl
@[simp] theorem goTo_kreqs (s : State) (pc : Pc) : (s.goTo pc).kreqs = s.kreqs := rfl
@[simp] theorem goTo_rcopies (s : State) (pc : Pc) : (s.goTo pc).rcopies = s.rcopies := rfl
@[simp] theorem goTo_sent (s : State) (pc : Pc) : (s.goTo pc).sent = s.sent := rfl
@[simp] theorem goTo_injectOk (s : State) (pc : Pc) : (s.goTo pc).injectOk = s.injectOk := rfl
@[simp] theorem goTo_agenda (s : State) (pc : Pc) : (s.goTo pc).agenda = s.agenda := rfl
@[simp] theorem goTo_cur (s : State) (pc : Pc) : (s.goTo pc).cur = s.cur := rfl
@[simp] theorem goTo_cycle (s : State) (pc : Pc) : (s.goTo pc).cycle = s.cycle := rfl
@[simp] theorem goTo_nextId (s : State) (pc : Pc) : (s.goTo pc).nextId = s.nextId := rfl
@[simp] theorem goTo_draws (s : State) (pc : Pc) : (s.goTo pc).draws = s.draws := rfl
@[simp] theorem retire_clusters (s : State) (len : Nat) : (s.retire len).clusters = s.clusters := rfl
@[simp] theorem retire_dies (s : State) (len : Nat) : (s.retire len).dies = s.dies := rfl
@[simp] theorem retire_mem (s : State) (len : Nat) : (s.retire len).mem = s.mem := rfl
@[simp] theorem retire_poisoned (s : State) (len : Nat) : (s.retire len).poisoned = s.poisoned := rfl
@[simp] theorem retire_poison (s : State) (len : Nat) : (s.retire len).poison = s.poison := rfl
@[simp] theorem retire_rev (s : State) (len : Nat) : (s.retire len).rev = s.rev := rfl
@[simp] theorem retire_part (s : State) (len : Nat) : (s.retire len).part = s.part := rfl
@[simp] theorem retire_lock (s : State) (len : Nat) : (s.retire len).lock = s.lock := rfl
@[simp] theorem retire_str (s : State) (len : Nat) : (s.retire len).str = s.str := rfl
@[simp] theorem retire_a10 (s : State) (len : Nat) : (s.retire len).a10 = s.a10 := rfl
@[simp] theorem retire_a1 (s : State) (len : Nat) : (s.retire len).a1 = s.a1 := rfl
@[simp] theorem retire_ceil (s : State) (len : Nat) : (s.retire len).ceil = s.ceil := rfl
@[simp] theorem retire_ceilPast (s : State) (len : Nat) : (s.retire len).ceilPast = s.ceilPast := rfl
@[simp] theorem retire_req (s : State) (len : Nat) : (s.retire len).req = s.req := rfl
@[simp] theorem retire_ctxbase (s : State) (len : Nat) : (s.retire len).ctxbase = s.ctxbase := rfl
@[simp] theorem retire_ctxRes (s : State) (len : Nat) : (s.retire len).ctxRes = s.ctxRes := rfl
@[simp] theorem retire_ctxOp (s : State) (len : Nat) : (s.retire len).ctxOp = s.ctxOp := rfl
@[simp] theorem retire_ctxNum (s : State) (len : Nat) : (s.retire len).ctxNum = s.ctxNum := rfl
@[simp] theorem retire_ctxen (s : State) (len : Nat) : (s.retire len).ctxen = s.ctxen := rfl
@[simp] theorem retire_inv (s : State) (len : Nat) : (s.retire len).inv = s.inv := rfl
@[simp] theorem retire_invBusy (s : State) (len : Nat) : (s.retire len).invBusy = s.invBusy := rfl
@[simp] theorem retire_preqHead (s : State) (len : Nat) : (s.retire len).preqHead = s.preqHead := rfl
@[simp] theorem retire_preqBase (s : State) (len : Nat) : (s.retire len).preqBase = s.preqBase := rfl
@[simp] theorem retire_preqTail (s : State) (len : Nat) : (s.retire len).preqTail = s.preqTail := rfl
@[simp] theorem retire_elogBase (s : State) (len : Nat) : (s.retire len).elogBase = s.elogBase := rfl
@[simp] theorem retire_elogNext (s : State) (len : Nat) : (s.retire len).elogNext = s.elogNext := rfl
@[simp] theorem retire_preqs (s : State) (len : Nat) : (s.retire len).preqs = s.preqs := rfl
@[simp] theorem retire_hubWrites (s : State) (len : Nat) : (s.retire len).hubWrites = s.hubWrites := rfl
@[simp] theorem retire_ctxs (s : State) (len : Nat) : (s.retire len).ctxs = s.ctxs := rfl
@[simp] theorem retire_queues (s : State) (len : Nat) : (s.retire len).queues = s.queues := rfl
@[simp] theorem retire_joins (s : State) (len : Nat) : (s.retire len).joins = s.joins := rfl
@[simp] theorem retire_tasks (s : State) (len : Nat) : (s.retire len).tasks = s.tasks := rfl
@[simp] theorem retire_pairs (s : State) (len : Nat) : (s.retire len).pairs = s.pairs := rfl
@[simp] theorem retire_barriers (s : State) (len : Nat) : (s.retire len).barriers = s.barriers := rfl
@[simp] theorem retire_handles (s : State) (len : Nat) : (s.retire len).handles = s.handles := rfl
@[simp] theorem retire_tokens (s : State) (len : Nat) : (s.retire len).tokens = s.tokens := rfl
@[simp] theorem retire_scWindow (s : State) (len : Nat) : (s.retire len).scWindow = s.scWindow := rfl
@[simp] theorem retire_scFlight (s : State) (len : Nat) : (s.retire len).scFlight = s.scFlight := rfl
@[simp] theorem retire_scOrder (s : State) (len : Nat) : (s.retire len).scOrder = s.scOrder := rfl
@[simp] theorem retire_refusals (s : State) (len : Nat) : (s.retire len).refusals = s.refusals := rfl
@[simp] theorem retire_measure (s : State) (len : Nat) : (s.retire len).measure = s.measure := rfl
@[simp] theorem retire_nonce (s : State) (len : Nat) : (s.retire len).nonce = s.nonce := rfl
@[simp] theorem retire_report (s : State) (len : Nat) : (s.retire len).report = s.report := rfl
@[simp] theorem retire_recovery (s : State) (len : Nat) : (s.retire len).recovery = s.recovery := rfl
@[simp] theorem retire_fports (s : State) (len : Nat) : (s.retire len).fports = s.fports := rfl
@[simp] theorem retire_self (s : State) (len : Nat) : (s.retire len).self = s.self := rfl
@[simp] theorem retire_lostCount (s : State) (len : Nat) : (s.retire len).lostCount = s.lostCount := rfl
@[simp] theorem retire_lost (s : State) (len : Nat) : (s.retire len).lost = s.lost := rfl
@[simp] theorem retire_chambers (s : State) (len : Nat) : (s.retire len).chambers = s.chambers := rfl
@[simp] theorem retire_kreqs (s : State) (len : Nat) : (s.retire len).kreqs = s.kreqs := rfl
@[simp] theorem retire_rcopies (s : State) (len : Nat) : (s.retire len).rcopies = s.rcopies := rfl
@[simp] theorem retire_sent (s : State) (len : Nat) : (s.retire len).sent = s.sent := rfl
@[simp] theorem retire_injectOk (s : State) (len : Nat) : (s.retire len).injectOk = s.injectOk := rfl
@[simp] theorem retire_agenda (s : State) (len : Nat) : (s.retire len).agenda = s.agenda := rfl
@[simp] theorem retire_cur (s : State) (len : Nat) : (s.retire len).cur = s.cur := rfl
@[simp] theorem retire_cycle (s : State) (len : Nat) : (s.retire len).cycle = s.cycle := rfl
@[simp] theorem retire_nextId (s : State) (len : Nat) : (s.retire len).nextId = s.nextId := rfl
@[simp] theorem retire_draws (s : State) (len : Nat) : (s.retire len).draws = s.draws := rfl
@[simp] theorem waitOn_clusters (s : State) (b : BitVec 4) : (s.waitOn b).clusters = s.clusters := rfl
@[simp] theorem waitOn_dies (s : State) (b : BitVec 4) : (s.waitOn b).dies = s.dies := rfl
@[simp] theorem waitOn_mem (s : State) (b : BitVec 4) : (s.waitOn b).mem = s.mem := rfl
@[simp] theorem waitOn_poisoned (s : State) (b : BitVec 4) : (s.waitOn b).poisoned = s.poisoned := rfl
@[simp] theorem waitOn_poison (s : State) (b : BitVec 4) : (s.waitOn b).poison = s.poison := rfl
@[simp] theorem waitOn_rev (s : State) (b : BitVec 4) : (s.waitOn b).rev = s.rev := rfl
@[simp] theorem waitOn_part (s : State) (b : BitVec 4) : (s.waitOn b).part = s.part := rfl
@[simp] theorem waitOn_lock (s : State) (b : BitVec 4) : (s.waitOn b).lock = s.lock := rfl
@[simp] theorem waitOn_str (s : State) (b : BitVec 4) : (s.waitOn b).str = s.str := rfl
@[simp] theorem waitOn_a10 (s : State) (b : BitVec 4) : (s.waitOn b).a10 = s.a10 := rfl
@[simp] theorem waitOn_a1 (s : State) (b : BitVec 4) : (s.waitOn b).a1 = s.a1 := rfl
@[simp] theorem waitOn_ceil (s : State) (b : BitVec 4) : (s.waitOn b).ceil = s.ceil := rfl
@[simp] theorem waitOn_ceilPast (s : State) (b : BitVec 4) : (s.waitOn b).ceilPast = s.ceilPast := rfl
@[simp] theorem waitOn_req (s : State) (b : BitVec 4) : (s.waitOn b).req = s.req := rfl
@[simp] theorem waitOn_ctxbase (s : State) (b : BitVec 4) : (s.waitOn b).ctxbase = s.ctxbase := rfl
@[simp] theorem waitOn_ctxRes (s : State) (b : BitVec 4) : (s.waitOn b).ctxRes = s.ctxRes := rfl
@[simp] theorem waitOn_ctxOp (s : State) (b : BitVec 4) : (s.waitOn b).ctxOp = s.ctxOp := rfl
@[simp] theorem waitOn_ctxNum (s : State) (b : BitVec 4) : (s.waitOn b).ctxNum = s.ctxNum := rfl
@[simp] theorem waitOn_ctxen (s : State) (b : BitVec 4) : (s.waitOn b).ctxen = s.ctxen := rfl
@[simp] theorem waitOn_inv (s : State) (b : BitVec 4) : (s.waitOn b).inv = s.inv := rfl
@[simp] theorem waitOn_invBusy (s : State) (b : BitVec 4) : (s.waitOn b).invBusy = s.invBusy := rfl
@[simp] theorem waitOn_preqHead (s : State) (b : BitVec 4) : (s.waitOn b).preqHead = s.preqHead := rfl
@[simp] theorem waitOn_preqBase (s : State) (b : BitVec 4) : (s.waitOn b).preqBase = s.preqBase := rfl
@[simp] theorem waitOn_preqTail (s : State) (b : BitVec 4) : (s.waitOn b).preqTail = s.preqTail := rfl
@[simp] theorem waitOn_elogBase (s : State) (b : BitVec 4) : (s.waitOn b).elogBase = s.elogBase := rfl
@[simp] theorem waitOn_elogNext (s : State) (b : BitVec 4) : (s.waitOn b).elogNext = s.elogNext := rfl
@[simp] theorem waitOn_preqs (s : State) (b : BitVec 4) : (s.waitOn b).preqs = s.preqs := rfl
@[simp] theorem waitOn_hubWrites (s : State) (b : BitVec 4) : (s.waitOn b).hubWrites = s.hubWrites := rfl
@[simp] theorem waitOn_ctxs (s : State) (b : BitVec 4) : (s.waitOn b).ctxs = s.ctxs := rfl
@[simp] theorem waitOn_queues (s : State) (b : BitVec 4) : (s.waitOn b).queues = s.queues := rfl
@[simp] theorem waitOn_joins (s : State) (b : BitVec 4) : (s.waitOn b).joins = s.joins := rfl
@[simp] theorem waitOn_tasks (s : State) (b : BitVec 4) : (s.waitOn b).tasks = s.tasks := rfl
@[simp] theorem waitOn_pairs (s : State) (b : BitVec 4) : (s.waitOn b).pairs = s.pairs := rfl
@[simp] theorem waitOn_barriers (s : State) (b : BitVec 4) : (s.waitOn b).barriers = s.barriers := rfl
@[simp] theorem waitOn_handles (s : State) (b : BitVec 4) : (s.waitOn b).handles = s.handles := rfl
@[simp] theorem waitOn_tokens (s : State) (b : BitVec 4) : (s.waitOn b).tokens = s.tokens := rfl
@[simp] theorem waitOn_scWindow (s : State) (b : BitVec 4) : (s.waitOn b).scWindow = s.scWindow := rfl
@[simp] theorem waitOn_scFlight (s : State) (b : BitVec 4) : (s.waitOn b).scFlight = s.scFlight := rfl
@[simp] theorem waitOn_scOrder (s : State) (b : BitVec 4) : (s.waitOn b).scOrder = s.scOrder := rfl
@[simp] theorem waitOn_refusals (s : State) (b : BitVec 4) : (s.waitOn b).refusals = s.refusals := rfl
@[simp] theorem waitOn_measure (s : State) (b : BitVec 4) : (s.waitOn b).measure = s.measure := rfl
@[simp] theorem waitOn_nonce (s : State) (b : BitVec 4) : (s.waitOn b).nonce = s.nonce := rfl
@[simp] theorem waitOn_report (s : State) (b : BitVec 4) : (s.waitOn b).report = s.report := rfl
@[simp] theorem waitOn_recovery (s : State) (b : BitVec 4) : (s.waitOn b).recovery = s.recovery := rfl
@[simp] theorem waitOn_fports (s : State) (b : BitVec 4) : (s.waitOn b).fports = s.fports := rfl
@[simp] theorem waitOn_self (s : State) (b : BitVec 4) : (s.waitOn b).self = s.self := rfl
@[simp] theorem waitOn_lostCount (s : State) (b : BitVec 4) : (s.waitOn b).lostCount = s.lostCount := rfl
@[simp] theorem waitOn_lost (s : State) (b : BitVec 4) : (s.waitOn b).lost = s.lost := rfl
@[simp] theorem waitOn_chambers (s : State) (b : BitVec 4) : (s.waitOn b).chambers = s.chambers := rfl
@[simp] theorem waitOn_kreqs (s : State) (b : BitVec 4) : (s.waitOn b).kreqs = s.kreqs := rfl
@[simp] theorem waitOn_rcopies (s : State) (b : BitVec 4) : (s.waitOn b).rcopies = s.rcopies := rfl
@[simp] theorem waitOn_sent (s : State) (b : BitVec 4) : (s.waitOn b).sent = s.sent := rfl
@[simp] theorem waitOn_injectOk (s : State) (b : BitVec 4) : (s.waitOn b).injectOk = s.injectOk := rfl
@[simp] theorem waitOn_agenda (s : State) (b : BitVec 4) : (s.waitOn b).agenda = s.agenda := rfl
@[simp] theorem waitOn_cur (s : State) (b : BitVec 4) : (s.waitOn b).cur = s.cur := rfl
@[simp] theorem waitOn_cycle (s : State) (b : BitVec 4) : (s.waitOn b).cycle = s.cycle := rfl
@[simp] theorem waitOn_nextId (s : State) (b : BitVec 4) : (s.waitOn b).nextId = s.nextId := rfl
@[simp] theorem waitOn_draws (s : State) (b : BitVec 4) : (s.waitOn b).draws = s.draws := rfl

@[simp] theorem goTo_retired (s : State) (pc : Pc) : (s.goTo pc).retired = true := rfl
@[simp] theorem retire_retired (s : State) (len : Nat) : (s.retire len).retired = true := rfl
@[simp] theorem waitOn_retired (s : State) (b : BitVec 4) : (s.waitOn b).retired = false := rfl
@[simp] theorem fresh_nextId (s : State) : s.fresh.nextId = s.nextId + 1 := rfl
@[simp] theorem draw_draws (s : State) : s.draw.draws = s.draws + 1 := rfl

end State

/-! ### A strand's registers (R11) -/

namespace Strand

@[simp] theorem rg_zero (t : Strand) : t.rg 0 = 0 := rfl
@[simp] theorem rp_zero (t : Strand) : t.rp 0 = 0xFFFF := rfl
@[simp] theorem wg_zero (t : Strand) (x : Word) : t.wg 0 x = t := rfl
@[simp] theorem wp_zero (t : Strand) (x : BitVec 16) : t.wp 0 x = t := rfl

theorem rg_wg_same (t : Strand) {n : Fin 32} (h : n ≠ 0) (x : Word) : (t.wg n x).rg n = x := by
  simp [rg, wg, h]

theorem rg_wg_ne (t : Strand) {n m : Fin 32} (h : m ≠ n) (x : Word) : (t.wg n x).rg m = t.rg m := by
  have : n.val ≠ m.val := fun e => h (Fin.ext e.symm)
  by_cases hm : m = 0
  · subst hm
    rfl
  by_cases hn : n = 0
  · subst hn
    rfl
  simp [rg, wg, hm, hn, this]

/-- What g[m] reads after a write of g[n]: `g0` is 0 whatever is written to it. -/
theorem rg_wg (t : Strand) (n m : Fin 32) (x : Word) :
    (t.wg n x).rg m = if m = n then (if n = 0 then 0 else x) else t.rg m := by
  by_cases h : m = n
  · subst h
    by_cases h0 : m = 0
    · subst h0
      rfl
    · simp [rg_wg_same t h0, h0]
  · simp [rg_wg_ne t h, h]

theorem rp_wp_same (t : Strand) {n : Fin 8} (h : n ≠ 0) (x : BitVec 16) : (t.wp n x).rp n = x := by
  simp [rp, wp, h]

theorem rp_wp_ne (t : Strand) {n m : Fin 8} (h : m ≠ n) (x : BitVec 16) : (t.wp n x).rp m = t.rp m := by
  have : n.val ≠ m.val := fun e => h (Fin.ext e.symm)
  by_cases hm : m = 0
  · subst hm
    rfl
  by_cases hn : n = 0
  · subst hn
    rfl
  simp [rp, wp, hm, hn, this]

/-- What p[m] reads after a write of p[n]: `p0` is all ones whatever is written to it. -/
theorem rp_wp (t : Strand) (n m : Fin 8) (x : BitVec 16) :
    (t.wp n x).rp m = if m = n then (if n = 0 then 0xFFFF else x) else t.rp m := by
  by_cases h : m = n
  · subst h
    by_cases h0 : m = 0
    · subst h0
      rfl
    · simp [rp_wp_same t h0, h0]
  · simp [rp_wp_ne t h, h]

theorem rv_wv (t : Strand) (n m : Fin 16) (x : Vec) : (t.wv n x).rv m = if m = n then x else t.rv m := by
  by_cases h : m = n
  · subst h
    simp [rv, wv]
  · have : n.val ≠ m.val := fun e => h (Fin.ext e.symm)
    simp [rv, wv, this, h]

@[simp] theorem wg_rp (t : Strand) (n : Fin 32) (x : Word) (m : Fin 8) : (t.wg n x).rp m = t.rp m := by
  unfold wg; split <;> rfl
@[simp] theorem wg_rv (t : Strand) (n : Fin 32) (x : Word) (m : Fin 16) : (t.wg n x).rv m = t.rv m := by
  unfold wg; split <;> rfl
@[simp] theorem wp_rg (t : Strand) (n : Fin 8) (x : BitVec 16) (m : Fin 32) : (t.wp n x).rg m = t.rg m := by
  unfold wp; split <;> rfl
@[simp] theorem wp_rv (t : Strand) (n : Fin 8) (x : BitVec 16) (m : Fin 16) : (t.wp n x).rv m = t.rv m := by
  unfold wp; split <;> rfl
@[simp] theorem wv_rg (t : Strand) (n : Fin 16) (x : Vec) (m : Fin 32) : (t.wv n x).rg m = t.rg m := rfl
@[simp] theorem wv_rp (t : Strand) (n : Fin 16) (x : Vec) (m : Fin 8) : (t.wv n x).rp m = t.rp m := rfl
@[simp] theorem raise_rg (t : Strand) (f : Flags) (m : Fin 32) : (t.raise f).rg m = t.rg m := rfl
@[simp] theorem raise_rp (t : Strand) (f : Flags) (m : Fin 8) : (t.raise f).rp m = t.rp m := rfl
@[simp] theorem raise_rv (t : Strand) (f : Flags) (m : Fin 16) : (t.raise f).rv m = t.rv m := rfl
@[simp] theorem raise_fflags (t : Strand) (f : Flags) : (t.raise f).fflags = t.fflags ||| f := rfl

@[simp] theorem wg_pc (t : Strand) (n : Fin 32) (x : Word) : (t.wg n x).pc = t.pc := by unfold wg; split <;> rfl
@[simp] theorem wp_pc (t : Strand) (n : Fin 8) (x : BitVec 16) : (t.wp n x).pc = t.pc := by unfold wp; split <;> rfl
@[simp] theorem wv_pc (t : Strand) (n : Fin 16) (x : Vec) : (t.wv n x).pc = t.pc := rfl
@[simp] theorem raise_pc (t : Strand) (x : Flags) : (t.raise x).pc = t.pc := rfl
@[simp] theorem wp_g (t : Strand) (n : Fin 8) (x : BitVec 16) : (t.wp n x).g = t.g := by unfold wp; split <;> rfl
@[simp] theorem wv_g (t : Strand) (n : Fin 16) (x : Vec) : (t.wv n x).g = t.g := rfl
@[simp] theorem raise_g (t : Strand) (x : Flags) : (t.raise x).g = t.g := rfl
@[simp] theorem wg_v (t : Strand) (n : Fin 32) (x : Word) : (t.wg n x).v = t.v := by unfold wg; split <;> rfl
@[simp] theorem wp_v (t : Strand) (n : Fin 8) (x : BitVec 16) : (t.wp n x).v = t.v := by unfold wp; split <;> rfl
@[simp] theorem raise_v (t : Strand) (x : Flags) : (t.raise x).v = t.v := rfl
@[simp] theorem wg_p (t : Strand) (n : Fin 32) (x : Word) : (t.wg n x).p = t.p := by unfold wg; split <;> rfl
@[simp] theorem wv_p (t : Strand) (n : Fin 16) (x : Vec) : (t.wv n x).p = t.p := rfl
@[simp] theorem raise_p (t : Strand) (x : Flags) : (t.raise x).p = t.p := rfl
@[simp] theorem wg_priv (t : Strand) (n : Fin 32) (x : Word) : (t.wg n x).priv = t.priv := by unfold wg; split <;> rfl
@[simp] theorem wp_priv (t : Strand) (n : Fin 8) (x : BitVec 16) : (t.wp n x).priv = t.priv := by unfold wp; split <;> rfl
@[simp] theorem wv_priv (t : Strand) (n : Fin 16) (x : Vec) : (t.wv n x).priv = t.priv := rfl
@[simp] theorem raise_priv (t : Strand) (x : Flags) : (t.raise x).priv = t.priv := rfl
@[simp] theorem wg_rei (t : Strand) (n : Fin 32) (x : Word) : (t.wg n x).rei = t.rei := by unfold wg; split <;> rfl
@[simp] theorem wp_rei (t : Strand) (n : Fin 8) (x : BitVec 16) : (t.wp n x).rei = t.rei := by unfold wp; split <;> rfl
@[simp] theorem wv_rei (t : Strand) (n : Fin 16) (x : Vec) : (t.wv n x).rei = t.rei := rfl
@[simp] theorem raise_rei (t : Strand) (x : Flags) : (t.raise x).rei = t.rei := rfl
@[simp] theorem wg_slicefix (t : Strand) (n : Fin 32) (x : Word) : (t.wg n x).slicefix = t.slicefix := by unfold wg; split <;> rfl
@[simp] theorem wp_slicefix (t : Strand) (n : Fin 8) (x : BitVec 16) : (t.wp n x).slicefix = t.slicefix := by unfold wp; split <;> rfl
@[simp] theorem wv_slicefix (t : Strand) (n : Fin 16) (x : Vec) : (t.wv n x).slicefix = t.slicefix := rfl
@[simp] theorem raise_slicefix (t : Strand) (x : Flags) : (t.raise x).slicefix = t.slicefix := rfl
@[simp] theorem wg_sx (t : Strand) (n : Fin 32) (x : Word) : (t.wg n x).sx = t.sx := by unfold wg; split <;> rfl
@[simp] theorem wp_sx (t : Strand) (n : Fin 8) (x : BitVec 16) : (t.wp n x).sx = t.sx := by unfold wp; split <;> rfl
@[simp] theorem wv_sx (t : Strand) (n : Fin 16) (x : Vec) : (t.wv n x).sx = t.sx := rfl
@[simp] theorem raise_sx (t : Strand) (x : Flags) : (t.raise x).sx = t.sx := rfl
@[simp] theorem wg_blk (t : Strand) (n : Fin 32) (x : Word) : (t.wg n x).blk = t.blk := by unfold wg; split <;> rfl
@[simp] theorem wp_blk (t : Strand) (n : Fin 8) (x : BitVec 16) : (t.wp n x).blk = t.blk := by unfold wp; split <;> rfl
@[simp] theorem wv_blk (t : Strand) (n : Fin 16) (x : Vec) : (t.wv n x).blk = t.blk := rfl
@[simp] theorem raise_blk (t : Strand) (x : Flags) : (t.raise x).blk = t.blk := rfl
@[simp] theorem wg_live (t : Strand) (n : Fin 32) (x : Word) : (t.wg n x).live = t.live := by unfold wg; split <;> rfl
@[simp] theorem wp_live (t : Strand) (n : Fin 8) (x : BitVec 16) : (t.wp n x).live = t.live := by unfold wp; split <;> rfl
@[simp] theorem wv_live (t : Strand) (n : Fin 16) (x : Vec) : (t.wv n x).live = t.live := rfl
@[simp] theorem raise_live (t : Strand) (x : Flags) : (t.raise x).live = t.live := rfl
@[simp] theorem wg_repact (t : Strand) (n : Fin 32) (x : Word) : (t.wg n x).repact = t.repact := by unfold wg; split <;> rfl
@[simp] theorem wp_repact (t : Strand) (n : Fin 8) (x : BitVec 16) : (t.wp n x).repact = t.repact := by unfold wp; split <;> rfl
@[simp] theorem wv_repact (t : Strand) (n : Fin 16) (x : Vec) : (t.wv n x).repact = t.repact := rfl
@[simp] theorem raise_repact (t : Strand) (x : Flags) : (t.raise x).repact = t.repact := rfl
@[simp] theorem wg_repcnt (t : Strand) (n : Fin 32) (x : Word) : (t.wg n x).repcnt = t.repcnt := by unfold wg; split <;> rfl
@[simp] theorem wp_repcnt (t : Strand) (n : Fin 8) (x : BitVec 16) : (t.wp n x).repcnt = t.repcnt := by unfold wp; split <;> rfl
@[simp] theorem wv_repcnt (t : Strand) (n : Fin 16) (x : Vec) : (t.wv n x).repcnt = t.repcnt := rfl
@[simp] theorem raise_repcnt (t : Strand) (x : Flags) : (t.raise x).repcnt = t.repcnt := rfl
@[simp] theorem wg_fflags (t : Strand) (n : Fin 32) (x : Word) : (t.wg n x).fflags = t.fflags := by unfold wg; split <;> rfl
@[simp] theorem wp_fflags (t : Strand) (n : Fin 8) (x : BitVec 16) : (t.wp n x).fflags = t.fflags := by unfold wp; split <;> rfl
@[simp] theorem wv_fflags (t : Strand) (n : Fin 16) (x : Vec) : (t.wv n x).fflags = t.fflags := rfl
@[simp] theorem wg_dom (t : Strand) (n : Fin 32) (x : Word) : (t.wg n x).dom = t.dom := by unfold wg; split <;> rfl
@[simp] theorem wp_dom (t : Strand) (n : Fin 8) (x : BitVec 16) : (t.wp n x).dom = t.dom := by unfold wp; split <;> rfl
@[simp] theorem wv_dom (t : Strand) (n : Fin 16) (x : Vec) : (t.wv n x).dom = t.dom := rfl
@[simp] theorem raise_dom (t : Strand) (x : Flags) : (t.raise x).dom = t.dom := rfl
@[simp] theorem wg_stamp (t : Strand) (n : Fin 32) (x : Word) : (t.wg n x).stamp = t.stamp := by unfold wg; split <;> rfl
@[simp] theorem wp_stamp (t : Strand) (n : Fin 8) (x : BitVec 16) : (t.wp n x).stamp = t.stamp := by unfold wp; split <;> rfl
@[simp] theorem wv_stamp (t : Strand) (n : Fin 16) (x : Vec) : (t.wv n x).stamp = t.stamp := rfl
@[simp] theorem raise_stamp (t : Strand) (x : Flags) : (t.raise x).stamp = t.stamp := rfl
@[simp] theorem wg_buf (t : Strand) (n : Fin 32) (x : Word) : (t.wg n x).buf = t.buf := by unfold wg; split <;> rfl
@[simp] theorem wp_buf (t : Strand) (n : Fin 8) (x : BitVec 16) : (t.wp n x).buf = t.buf := by unfold wp; split <;> rfl
@[simp] theorem wv_buf (t : Strand) (n : Fin 16) (x : Vec) : (t.wv n x).buf = t.buf := rfl
@[simp] theorem raise_buf (t : Strand) (x : Flags) : (t.raise x).buf = t.buf := rfl
@[simp] theorem wg_loads (t : Strand) (n : Fin 32) (x : Word) : (t.wg n x).loads = t.loads := by unfold wg; split <;> rfl
@[simp] theorem wp_loads (t : Strand) (n : Fin 8) (x : BitVec 16) : (t.wp n x).loads = t.loads := by unfold wp; split <;> rfl
@[simp] theorem wv_loads (t : Strand) (n : Fin 16) (x : Vec) : (t.wv n x).loads = t.loads := rfl
@[simp] theorem raise_loads (t : Strand) (x : Flags) : (t.raise x).loads = t.loads := rfl
@[simp] theorem wg_pend (t : Strand) (n : Fin 32) (x : Word) : (t.wg n x).pend = t.pend := by unfold wg; split <;> rfl
@[simp] theorem wp_pend (t : Strand) (n : Fin 8) (x : BitVec 16) : (t.wp n x).pend = t.pend := by unfold wp; split <;> rfl
@[simp] theorem wv_pend (t : Strand) (n : Fin 16) (x : Vec) : (t.wv n x).pend = t.pend := rfl
@[simp] theorem raise_pend (t : Strand) (x : Flags) : (t.raise x).pend = t.pend := rfl
@[simp] theorem wg_gates (t : Strand) (n : Fin 32) (x : Word) : (t.wg n x).gates = t.gates := by unfold wg; split <;> rfl
@[simp] theorem wp_gates (t : Strand) (n : Fin 8) (x : BitVec 16) : (t.wp n x).gates = t.gates := by unfold wp; split <;> rfl
@[simp] theorem wv_gates (t : Strand) (n : Fin 16) (x : Vec) : (t.wv n x).gates = t.gates := rfl
@[simp] theorem raise_gates (t : Strand) (x : Flags) : (t.raise x).gates = t.gates := rfl
@[simp] theorem wg_wait (t : Strand) (n : Fin 32) (x : Word) : (t.wg n x).wait = t.wait := by unfold wg; split <;> rfl
@[simp] theorem wp_wait (t : Strand) (n : Fin 8) (x : BitVec 16) : (t.wp n x).wait = t.wait := by unfold wp; split <;> rfl
@[simp] theorem wv_wait (t : Strand) (n : Fin 16) (x : Vec) : (t.wv n x).wait = t.wait := rfl
@[simp] theorem raise_wait (t : Strand) (x : Flags) : (t.raise x).wait = t.wait := rfl
@[simp] theorem wg_waitAt (t : Strand) (n : Fin 32) (x : Word) : (t.wg n x).waitAt = t.waitAt := by unfold wg; split <;> rfl
@[simp] theorem wp_waitAt (t : Strand) (n : Fin 8) (x : BitVec 16) : (t.wp n x).waitAt = t.waitAt := by unfold wp; split <;> rfl
@[simp] theorem wv_waitAt (t : Strand) (n : Fin 16) (x : Vec) : (t.wv n x).waitAt = t.waitAt := rfl
@[simp] theorem raise_waitAt (t : Strand) (x : Flags) : (t.raise x).waitAt = t.waitAt := rfl
@[simp] theorem wg_rep (t : Strand) (n : Fin 32) (x : Word) : (t.wg n x).rep = t.rep := by unfold wg; split <;> rfl
@[simp] theorem wp_rep (t : Strand) (n : Fin 8) (x : BitVec 16) : (t.wp n x).rep = t.rep := by unfold wp; split <;> rfl
@[simp] theorem wv_rep (t : Strand) (n : Fin 16) (x : Vec) : (t.wv n x).rep = t.rep := rfl
@[simp] theorem raise_rep (t : Strand) (x : Flags) : (t.raise x).rep = t.rep := rfl
@[simp] theorem wg_repAt (t : Strand) (n : Fin 32) (x : Word) : (t.wg n x).repAt = t.repAt := by unfold wg; split <;> rfl
@[simp] theorem wp_repAt (t : Strand) (n : Fin 8) (x : BitVec 16) : (t.wp n x).repAt = t.repAt := by unfold wp; split <;> rfl
@[simp] theorem wv_repAt (t : Strand) (n : Fin 16) (x : Vec) : (t.wv n x).repAt = t.repAt := rfl
@[simp] theorem raise_repAt (t : Strand) (x : Flags) : (t.raise x).repAt = t.repAt := rfl
@[simp] theorem wg_voidP (t : Strand) (n : Fin 32) (x : Word) : (t.wg n x).voidP = t.voidP := by unfold wg; split <;> rfl
@[simp] theorem wp_voidP (t : Strand) (n : Fin 8) (x : BitVec 16) : (t.wp n x).voidP = t.voidP := by unfold wp; split <;> rfl
@[simp] theorem wv_voidP (t : Strand) (n : Fin 16) (x : Vec) : (t.wv n x).voidP = t.voidP := rfl
@[simp] theorem raise_voidP (t : Strand) (x : Flags) : (t.raise x).voidP = t.voidP := rfl
@[simp] theorem wg_voidC (t : Strand) (n : Fin 32) (x : Word) : (t.wg n x).voidC = t.voidC := by unfold wg; split <;> rfl
@[simp] theorem wp_voidC (t : Strand) (n : Fin 8) (x : BitVec 16) : (t.wp n x).voidC = t.voidC := by unfold wp; split <;> rfl
@[simp] theorem wv_voidC (t : Strand) (n : Fin 16) (x : Vec) : (t.wv n x).voidC = t.voidC := rfl
@[simp] theorem raise_voidC (t : Strand) (x : Flags) : (t.raise x).voidC = t.voidC := rfl
@[simp] theorem wg_voidR (t : Strand) (n : Fin 32) (x : Word) : (t.wg n x).voidR = t.voidR := by unfold wg; split <;> rfl
@[simp] theorem wp_voidR (t : Strand) (n : Fin 8) (x : BitVec 16) : (t.wp n x).voidR = t.voidR := by unfold wp; split <;> rfl
@[simp] theorem wv_voidR (t : Strand) (n : Fin 16) (x : Vec) : (t.wv n x).voidR = t.voidR := rfl
@[simp] theorem raise_voidR (t : Strand) (x : Flags) : (t.raise x).voidR = t.voidR := rfl
@[simp] theorem wg_uses (t : Strand) (n : Fin 32) (x : Word) : (t.wg n x).uses = t.uses := by unfold wg; split <;> rfl
@[simp] theorem wp_uses (t : Strand) (n : Fin 8) (x : BitVec 16) : (t.wp n x).uses = t.uses := by unfold wp; split <;> rfl
@[simp] theorem wv_uses (t : Strand) (n : Fin 16) (x : Vec) : (t.wv n x).uses = t.uses := rfl
@[simp] theorem raise_uses (t : Strand) (x : Flags) : (t.raise x).uses = t.uses := rfl
@[simp] theorem wg_changes (t : Strand) (n : Fin 32) (x : Word) : (t.wg n x).changes = t.changes := by unfold wg; split <;> rfl
@[simp] theorem wp_changes (t : Strand) (n : Fin 8) (x : BitVec 16) : (t.wp n x).changes = t.changes := by unfold wp; split <;> rfl
@[simp] theorem wv_changes (t : Strand) (n : Fin 16) (x : Vec) : (t.wv n x).changes = t.changes := rfl
@[simp] theorem raise_changes (t : Strand) (x : Flags) : (t.raise x).changes = t.changes := rfl
@[simp] theorem wg_dropped (t : Strand) (n : Fin 32) (x : Word) : (t.wg n x).dropped = t.dropped := by unfold wg; split <;> rfl
@[simp] theorem wp_dropped (t : Strand) (n : Fin 8) (x : BitVec 16) : (t.wp n x).dropped = t.dropped := by unfold wp; split <;> rfl
@[simp] theorem wv_dropped (t : Strand) (n : Fin 16) (x : Vec) : (t.wv n x).dropped = t.dropped := rfl
@[simp] theorem raise_dropped (t : Strand) (x : Flags) : (t.raise x).dropped = t.dropped := rfl
@[simp] theorem wg_iw (t : Strand) (n : Fin 32) (x : Word) : (t.wg n x).iw = t.iw := by unfold wg; split <;> rfl
@[simp] theorem wp_iw (t : Strand) (n : Fin 8) (x : BitVec 16) : (t.wp n x).iw = t.iw := by unfold wp; split <;> rfl
@[simp] theorem wv_iw (t : Strand) (n : Fin 16) (x : Vec) : (t.wv n x).iw = t.iw := rfl
@[simp] theorem raise_iw (t : Strand) (x : Flags) : (t.raise x).iw = t.iw := rfl

end Strand

end Sys2Proof.Machine
end

