-- ==== Sys2Proof/Laws/Run.lean ====
section
/-! SUPPORT. Laws of the runner that every meaning goes through: what an instruction under a whole guard does, and
what an instruction that completes, waits or traps leaves as it is. -/

namespace Sys2Proof.Machine

/-- Everything outside the issuing strand is as it was, but for the mark that an instruction has completed. -/
def OnlyMe (s t : State) : Prop :=
  (∃ f : Strand → Strand, t = { s.modMe f with retired := t.retired })

namespace OnlyMe

variable {s t : State}

theorem refl_modMe (f : Strand → Strand) : OnlyMe s (s.modMe f) := ⟨f, rfl⟩

theorem mem (h : OnlyMe s t) : t.mem = s.mem := by
  obtain ⟨f, h⟩ := h
  rw [h]
  rfl

theorem cur (h : OnlyMe s t) : t.cur = s.cur := by
  obtain ⟨f, h⟩ := h
  rw [h]
  rfl

theorem core_ne (h : OnlyMe s t) {c : Nat} (hc : c ≠ s.cur.1) : t.core c = s.core c := by
  obtain ⟨f, h⟩ := h
  rw [h]
  exact State.core_modStrandAt_ne s hc s.cur.2 f

theorem strandAt_ne (h : OnlyMe s t) {j : Fin 11} (hj : j ≠ s.cur.2) : t.strandAt s.cur.1 j = s.strandAt s.cur.1 j := by
  obtain ⟨f, h⟩ := h
  rw [h]
  exact State.strandAt_modStrandAt_ne s s.cur.1 hj f

/-- Of the strand's own core, only its strands may differ. -/
theorem myCore (h : OnlyMe s t) : t.core s.cur.1 = { s.core s.cur.1 with strands := (t.core s.cur.1).strands } := by
  obtain ⟨f, h⟩ := h
  rw [h]
  show (s.modStrandAt s.cur.1 s.cur.2 f).core s.cur.1 = _
  simp only [State.core_modStrandAt_same]
  have := State.core_modStrandAt_same s s.cur.1 s.cur.2 f
  show _ = { s.core s.cur.1 with strands := ((s.modStrandAt s.cur.1 s.cur.2 f).core s.cur.1).strands }
  rw [this]

end OnlyMe

/-- What going on at `pc`, with `n` issue slots past, makes of a strand. -/
def Strand.onward (t : Strand) (pc : Pc) (n : Nat) : Strand :=
  { t with pc := pc, blk := 0, rei := false, stamp := n, wait := if t.waitAt = t.pc then .none else t.wait }

/-- The strand after it goes on at `pc`. -/
@[simp] theorem State.me_goTo (s : State) (pc : Pc) : (s.goTo pc).me = s.me.onward pc s.myCore.slot :=
  s.me_modMe (fun t => t.onward pc s.myCore.slot)

@[simp] theorem State.me_retire (s : State) (len : Nat) :
    (s.retire len).me = s.me.onward (s.me.pc + BitVec.ofNat 57 len) s.myCore.slot :=
  s.me_goTo _

/-- A strand that goes on changes nothing but itself. -/
theorem OnlyMe.goTo (s : State) (f : Strand → Strand) (pc : Pc) : OnlyMe s ((s.modMe f).goTo pc) :=
  ⟨fun t => (f t).onward pc (s.modMe f).myCore.slot, by
    exact congrArg (fun x : State => { x with retired := true })
      (s.modMe_modMe f (fun t => t.onward pc (s.modMe f).myCore.slot))⟩

theorem OnlyMe.retire (s : State) (f : Strand → Strand) (len : Nat) : OnlyMe s ((s.modMe f).retire len) :=
  OnlyMe.goTo s f _

/-! ### Outcomes of a body -/

section

variable {α : Type} (s : State) (done : α → State)

@[simp] theorem conclude_ok (x : α) : conclude s (.ok x) done = .next (done x) := rfl

@[simp] theorem conclude_raise (t : Trap) : conclude s (raise t) done = .next (s.takeTrap t) := rfl

@[simp] theorem conclude_stall (s' : State) : conclude s (stall s') done = .next (s'.waitOn 0) := rfl

@[simp] theorem conclude_block (b : BitVec 4) (s' : State) : conclude s (block b s') done = .next (s'.waitOn b) := rfl

/-- All that a body can end in: it completes, traps, waits, or is refused. -/
theorem conclude_cases (r : Res α) :
    (∃ x, r = .ok x ∧ conclude s r done = .next (done x)) ∨
    (∃ t, conclude s r done = .next (s.takeTrap t)) ∨
    (∃ t, conclude s r done =
      .next ((if s.earlierDone then s.modMe (fun x => { x with dropped := none }) else s).takeTrap t)) ∨
    (∃ (b : BitVec 4) (s' : State), conclude s r done = .next (s'.waitOn b)) ∨
    (∃ s' : State, conclude s r done = .next { s' with retired := false }) ∨
    (∃ x, conclude s r done = .refused x) := by
  match r with
  | .ok x => exact .inl ⟨x, rfl, rfl⟩
  | .error (.trap t) => exact .inr (.inl ⟨t, rfl⟩)
  | .error (.drop t) => exact .inr (.inr (.inl ⟨t, rfl⟩))
  | .error (.wait b s') => exact .inr (.inr (.inr (.inl ⟨b, s', rfl⟩)))
  | .error (.ended s') => exact .inr (.inr (.inr (.inr (.inl ⟨s', rfl⟩))))
  | .error (.refuse x) => exact .inr (.inr (.inr (.inr (.inr ⟨x, rfl⟩))))

end

/-- A whole guard that is true: the body runs (R49). -/
theorem runW_on {g : Guard} {s : State} (h : s.me.guardOn g = true) (len : Nat) (body : State → Res State) :
    runW g len s body = conclude s (body s) (fun s' => s'.retire len) := by
  simp [runW, h]

/-- A whole guard that is false: only the PC advances (R49). -/
theorem runW_off {g : Guard} {s : State} (h : s.me.guardOn g = false) (len : Nat) (body : State → Res State) :
    runW g len s body = .next (s.retire len) := by
  simp [runW, h]

theorem runJ_on {g : Guard} {s : State} (h : s.me.guardOn g = true) (len : Nat) (body : State → Res (State × Pc)) :
    runJ g len s body = conclude s (body s) (fun x => x.1.goTo x.2) := by
  simp [runJ, h]

theorem runJ_off {g : Guard} {s : State} (h : s.me.guardOn g = false) (len : Nat) (body : State → Res (State × Pc)) :
    runJ g len s body = .next (s.retire len) := by
  simp [runJ, h]

/-- An instruction on registers only, with its guard true. -/
theorem runR_on {g : Guard} {s : State} (h : s.me.guardOn g = true) (len : Nat) (f : Strand → Strand) :
    runR g len s f = .next ((s.modMe f).retire len) := by
  simp [runR, runW, h]

/-- All that an instruction on registers only can do. -/
theorem runR_next (g : Guard) (len : Nat) (s : State) (f : Strand → Strand) :
    ∃ t, runR g len s f = .next t ∧ t.retired = true ∧ OnlyMe s t := by
  by_cases h : s.me.guardOn g = true
  · exact ⟨_, runR_on h len f, rfl, OnlyMe.retire s f len⟩
  · refine ⟨s.retire len, runW_off (by simpa using h) len _, rfl, ?_⟩
    exact ⟨_, rfl⟩

/-- An event answers a next state, enabled or not. -/
@[simp] theorem runE_some (s t : State) : runE s (some t) = .next t := rfl

@[simp] theorem runE_none (s : State) : runE s none = .next s := rfl

theorem runE_next (s : State) (r : Option State) : ∃ t, runE s r = .next t := ⟨_, rfl⟩

end Sys2Proof.Machine
end

