-- ==== Sys2Proof/Tests/Slice0.lean ====
section
/-! SUPPORT. The model's own tests. Each expected result is taken from the manual: from its worked examples (named
beside a word), or put together by hand from its encoding tables and rules. -/

namespace Sys2Proof.Tests

open Sys2Proof.Machine Sys2Proof.Claims

set_option Elab.async false

/-! ### Decoding: words put together field by field from the encoding tables of spec/02 and of each family -/

def g0 : Guard := ⟨0, false⟩

def integerWords1 : List (Nat × Nat × Instr) := [
  (8, 0x000000301440C005, .add ⟨g0, 3, 4, .reg 5, .i64, false⟩),  -- worked in spec/02
  (8, 0xFFFB00210081C005, .add ⟨g0, 7, 8, .imm16 0xFFFB, .i32, false⟩),  -- worked in spec/04
  (12, 0x12345678000000530040C00A, .sub ⟨g0, 3, 4, .imm32 0x12345678, .n16, true⟩),
  (8, 0x000000401440C00D, .mul ⟨g0, 3, 4, .reg 5, .n8, false⟩),
  (8, 0x000000301440C011, .mulh ⟨g0, 3, 4, .reg 5, .i64, false⟩),
  (8, 0x000000201440C015, .div ⟨g0, 3, 4, .reg 5, .i32, false⟩),
  (8, 0x000000601440C019, .rem ⟨g0, 3, 4, .reg 5, .n32, false⟩),
  (8, 0x000000101440C01D, .and ⟨g0, 3, 4, .reg 5, .i16, false⟩),
  (8, 0x000000701440C021, .or ⟨g0, 3, 4, .reg 5, .n64, false⟩),
  (8, 0x000000001440C025, .xor ⟨g0, 3, 4, .reg 5, .i8, false⟩),
  (8, 0x000000501440C029, .andn ⟨g0, 3, 4, .reg 5, .n16, false⟩),
  (8, 0x000000301440C02D, .shl ⟨g0, 3, 4, .reg 5, .i64, false⟩),
  (8, 0x000000101440C035, .sar ⟨g0, 3, 4, .reg 5, .i16, false⟩),
  (8, 0x000000601440C039, .rol ⟨g0, 3, 4, .reg 5, .n32, false⟩),
  (8, 0x000000201440C049, .min ⟨g0, 3, 4, .reg 5, .i32, false⟩),
  (8, 0x000000401440C04D, .max ⟨g0, 3, 4, .reg 5, .n8, false⟩),
  (8, 0x003C007100328031, .shr ⟨g0, 10, 3, .imm16 60, .n64, false⟩),  -- worked in spec/19
  (8, 0x000000200040C03D, .clz ⟨g0, 3, 4, .i32⟩),
  (8, 0x000000400040C041, .ctz ⟨g0, 3, 4, .n8⟩),
  (8, 0x000000300040C045, .popc ⟨g0, 3, 4, .i64⟩),
  (8, 0x000000000040C065, .mov ⟨g0, 3, 4, .i8⟩),
  (8, 0x000600001440C051, .sel g0 3 4 5 6),
  (8, 0x0009002A00408055, .cmp g0 .lt .i32 2 4 (.imm16 9)),
  (8, 0x0174000000414059, .bext g0 5 4 52 5 false),  -- worked in spec/14
  (8, 0x01C3000100414059, .bext g0 5 4 3 7 true)]

def integerWords2 : List (Nat × Nat × Instr) := [
  (8, 0x03C800000041405D, .bins g0 5 4 8 15),
  (8, 0x001000021440C061, .lea g0 3 4 5 2 (.d16 0x10)),
  (12, 0x80000000000000011440C062, .lea g0 3 4 5 1 (.d32 0x80000000)),
  (8, 0x0500000000014069, .li g0 5 (.i16 0x500)),  -- worked in spec/08
  (16, 0x0000000100000002000000000001C06B, .li g0 7 (.i64 0x100000002))]

theorem test_decode_integer_1 : integerWords1.all (fun y =>
    Decode.decode 0 (wordBytes y.1 y.2.1) == .ok y.2.2 && y.2.2.wf && Decode.encodable y.2.2) = true := by
  decide +kernel

theorem test_decode_integer_2 : integerWords2.all (fun y =>
    Decode.decode 0 (wordBytes y.1 y.2.1) == .ok y.2.2 && y.2.2.wf && Decode.encodable y.2.2) = true := by
  decide +kernel

def controlWords : List (Nat × Nat × Instr) := [
  (8, 0x00000000000000C1, .nop .b8),
  (12, 0x0000000000000000000000C2, .nop .b12),
  (16, 0x000000000000000000000000000000C3, .nop .b16),
  (8, 0x00000001000000C1, .nopBlk),
  (8, 0xFFFE000000002CC5, .br ⟨3, true⟩ (.d16 0xFFFE)),
  (12, 0x0000001000000000000000C6, .br g0 (.d32 0x10)),
  (12, 0x0000100000000000000000CA, .jmp g0 (.i32 0x1000)),
  (16, 0x01FF00000000100000000000000000CB, .jmp g0 (.i64 0x1FF000000001000)),
  (8, 0x000800000007C0CD, .jal g0 31 (.d16 8)),
  (8, 0x00180000006140D1, .jr g0 5 6 0x18),
  (8, 0x0000000001F000D5, .ret g0 31),
  (8, 0xFFE40000000500D9, .loop g0 20 (.d16 0xFFE4)),  -- worked in spec/08
  (8, 0x12340000000000DD, .trap g0 0x1234),
  (12, 0x0000009B00030000000080E2, .sysrd g0 2 3 (some ⟨27, 2⟩)),  -- worked in spec/11
  (8, 0x00800000000200E1, .sysrd g0 8 0x80 none),
  (8, 0x00810000008000E5, .syswr g0 8 0x81 none),
  (12, 0x0000004200010000008000E6, .syswr g0 8 1 (some ⟨2, 1⟩)),
  (8, 0x000000000040C0E9, .thaw g0 3 4)]  -- worked in spec/10

theorem test_decode_control : controlWords.all (fun y =>
    Decode.decode 0 (wordBytes y.1 y.2.1) == .ok y.2.2 && y.2.2.wf && Decode.encodable y.2.2) = true := by
  decide +kernel

def memoryWords : List (Nat × Nat × Instr) := [
  (8, 0x001012241440C101, .ld g0 3 ⟨4, 5, 2, false, .d16 0x10⟩ .i32 .acq .clu),  -- worked in spec/04
  (12, 0x00000040000000411440C102, .ld g0 3 ⟨4, 5, 0, true, .d32 0x40⟩ .n8 .plain .str),
  (8, 0x04C0133001044105, .st g0 17 ⟨16, 0, 0, false, .d16 0x4C0⟩ .i64 .rel .clu),  -- worked in spec/11
  (8, 0x0004000014A0C109, .ldp g0 3 4 ⟨10, 5, 0, false, .d16 0⟩ .plain .str),
  (12, 0x00000440000C000000F2C10E, .stp g0 11 12 ⟨15, 0, 0, false, .d32 0x440⟩ .plain .str),  -- worked in spec/11
  (8, 0x00002C0000000111, .fence g0 .ar .chm),
  (8, 0x000A000000000115, .qfence g0 10)]

theorem test_decode_memory : memoryWords.all (fun y =>
    Decode.decode 0 (wordBytes y.1 y.2.1) == .ok y.2.2 && y.2.2.wf && Decode.encodable y.2.2) = true := by
  decide +kernel

def atomicsWords : List (Nat × Nat × Instr) := [
  (8, 0x0008143014A0C141, .aadd ⟨g0, 3, 10, 5, .d16 8, .i64, .ar, .clu⟩),  -- worked in spec/10
  (8, 0x0020196014A0C145, .amin ⟨g0, 3, 10, 5, .d16 32, .n32, .rlx, .die⟩),
  (8, 0x0021196014A0C149, .amax ⟨g0, 3, 10, 5, .d16 33, .n32, .rlx, .die⟩),
  (8, 0x0022196014A0C14D, .aand ⟨g0, 3, 10, 5, .d16 34, .n32, .rlx, .die⟩),
  (8, 0x0023196014A0C151, .aor ⟨g0, 3, 10, 5, .d16 35, .n32, .rlx, .die⟩),
  (8, 0x0024196014A0C155, .axor ⟨g0, 3, 10, 5, .d16 36, .n32, .rlx, .die⟩),
  (8, 0x0025196014A0C159, .aswap ⟨g0, 3, 10, 5, .d16 37, .n32, .rlx, .die⟩),
  (12, 0x000001000006253014A0C15E, .acas ⟨g0, 3, 10, 5, .d32 0x100, .i64, .sc, .mod⟩ 6),
  (8, 0x004011A014A0C161, .afadd ⟨g0, 3, 10, 5, .d16 0x40, .f32, .rlx, .clu⟩)]  -- worked in spec/10

theorem test_decode_atomics : atomicsWords.all (fun y =>
    Decode.decode 0 (wordBytes y.1 y.2.1) == .ok y.2.2 && y.2.2.wf && Decode.encodable y.2.2) = true := by
  decide +kernel

def strandsWords : List (Nat × Nat × Instr) := [
  (12, 0x00000020034C00042CA00182, .xstart g0 4 0x20 10 11 12 13),
  (8, 0x0006000000000185, .xjoin g0 (.imm 6)),
  (8, 0x0000000100900185, .xjoin g0 (.reg 9)),
  (8, 0x0000000000000189, .xend g0)]

theorem test_decode_strands : strandsWords.all (fun y =>
    Decode.decode 0 (wordBytes y.1 y.2.1) == .ok y.2.2 && y.2.2.wf && Decode.encodable y.2.2) = true := by
  decide +kernel

def tasksWords : List (Nat × Nat × Instr) := [
  (8, 0x0000000000B0C18D, .tspawn g0 3 11),  -- worked in spec/12
  (8, 0x0000000000C0C191, .tjoin g0 3 12),  -- worked in spec/12
  (8, 0x0000000000000195, .tfin g0),  -- worked in spec/12
  (8, 0x0000000100014199, .tself g0 5 1),  -- worked in spec/12
  (8, 0x000700000040C19D, .wapp g0 3 4 7),  -- worked in spec/12
  (8, 0x01C60000000141A1, .wtake g0 5 6 7),  -- worked in spec/12
  (8, 0x000000010000C1A5, .dbar g0 3 true),  -- worked in spec/09
  (8, 0x000000020000C1A9, .dphase g0 3 false true),
  (8, 0x000000040000C1AD, .dmem g0 3 4),
  (8, 0x000000001440C1B1, .ttime g0 3 4 5)]  -- worked in spec/09

theorem test_decode_tasks : tasksWords.all (fun y =>
    Decode.decode 0 (wordBytes y.1 y.2.1) == .ok y.2.2 && y.2.2.wf && Decode.encodable y.2.2) = true := by
  decide +kernel

def cisternsWords : List (Nat × Nat × Instr) := [
  (12, 0x000010000F0300000058C1C2, .cdef g0 3 5 0x1000 3 15),  -- worked in spec/06
  (8, 0x000400010008C1C5, .cadvProd g0 3 (.imm 4)),
  (8, 0x000000020078C1C5, .cadvCons g0 3 (.reg 7)),
  (8, 0x00000003007901C9, .cwaitProd g0 4 (.reg 7)),
  (8, 0x01000000000901C9, .cwaitCons g0 4 (.imm 256)),
  (8, 0x0000000002F181CD, .cstat g0 6 15),
  (16, 0x000000270010010000000041000181D3, .sbind g0 1 6 0 false .n8 0x100 1 39 0 0),  -- fields of the example of R139
  (8, 0x00000002000001D5, .sunbind g0 2),
  (8, 0x00400003144001D9, .send g0 4 5 0x40 3),  -- worked in spec/09
  (8, 0x000000000060C1DD, .recv g0 3 6 0),  -- worked in spec/09
  (8, 0x000000000001C1E1, .rpoll g0 7)]

theorem test_decode_cisterns : cisternsWords.all (fun y =>
    Decode.decode 0 (wordBytes y.1 y.2.1) == .ok y.2.2 && y.2.2.wf && Decode.encodable y.2.2) = true := by
  decide +kernel

def vectorsWords1 : List (Nat × Nat × Instr) := [
  (8, 0x000000A020400201, .vadd ⟨g0, .v 0, .v 4, .vec (.v 8), .f32, false, .rne, none⟩),  -- worked in spec/05
  (8, 0x000000231C204205, .vsub ⟨g0, .v 1, .v 2, .scal 7, .i32, true, .rne, none⟩),
  (8, 0x000049A090206E09, .vmul ⟨⟨3, true⟩, .v 1, .v 2, .vec (.c 4), .f32, false, .rtz, some ⟨1, true⟩⟩),  -- worked in spec/02
  (8, 0x00238AA01851020D, .vfma ⟨g0, .v 4, .v 5, .vec (.v 6), .c 3, .rdn, some ⟨2, true⟩⟩),
  (8, 0x000600A124510211, .vfms ⟨g0, .v 4, .v 5, .scal 9, .v 6, .rne, none⟩),
  (8, 0x000000600C204215, .vmin ⟨g0, .v 1, .v 2, .vec (.v 3), .n32, false, .rne, none⟩),
  (8, 0x000000A00C204219, .vmax ⟨g0, .v 1, .v 2, .vec (.v 3), .f32, false, .rne, none⟩),
  (8, 0x000000220020421D, .vabs ⟨g0, .v 1, .v 2, .i32, true, none⟩),
  (8, 0x000000A000204221, .vneg ⟨g0, .v 1, .v 2, .f32, false, none⟩),
  (8, 0x0000C0DA0041C225, .vcvt g0 (.v 7) (.v 4) .f32 .e4m3 .rup none),
  (8, 0x0000006918414229, .vcmp g0 5 (.v 4) (.scal 6) .ne .n32 none),
  (8, 0x000400000C20422D, .vsel g0 (.v 1) (.v 2) (.v 3) 4 none),
  (8, 0x000000000C204231, .vand ⟨g0, .v 1, .v 2, .vec (.v 3), .i8, false, .rne, none⟩),
  (8, 0x000000000C204235, .vor ⟨g0, .v 1, .v 2, .vec (.v 3), .i8, false, .rne, none⟩),
  (8, 0x000000000C204239, .vxor ⟨g0, .v 1, .v 2, .vec (.v 3), .i8, false, .rne, none⟩),
  (8, 0x000000000C20423D, .vshl ⟨g0, .v 1, .v 2, .vec (.v 3), .i8, false, .rne, none⟩),
  (8, 0x000000000C204241, .vshr ⟨g0, .v 1, .v 2, .vec (.v 3), .i8, false, .rne, none⟩),
  (8, 0x000000000C204245, .vsar ⟨g0, .v 1, .v 2, .vec (.v 3), .i8, false, .rne, none⟩),
  (8, 0x000000000C204249, .vperm g0 (.v 1) (.v 2) (.v 3) none),
  (8, 0x000000000110424D, .vbcast g0 (.v 1) (.scal 17) none),
  (8, 0x000F00010020424D, .vbcast g0 (.v 1) (.lane (.v 2) 15) none),
  (8, 0x0000006200204251, .vsum g0 (.v 1) (.v 2) .n32 true .rne none),
  (8, 0x0000000410308255, .vdot g0 (.v 2) (.v 3) (.vec (.v 4)) .i8 true none),
  (8, 0x008000B100520259, .vld ⟨g0, .v 8, 5, .d16 0x80, true, .bf16, .plain, .str, none⟩),
  (12, 0x000002000000132000A0425E, .vst ⟨g0, .v 1, 10, .d32 0x200, false, .i32, .rel, .clu, none⟩)]

def vectorsWords2 : List (Nat × Nat × Instr) := [
  (8, 0x0000002428424261, .vgath ⟨g0, .v 9, 4, .v 10, 2, .d16 0, false, .i32, .plain, .str, none⟩),
  (8, 0x0004004328424265, .vscat ⟨g0, .v 9, 4, .v 10, 1, .d16 4, true, .n8, .plain, .str, none⟩),
  (8, 0x0000000000204269, .vmov g0 (.vec (.v 1) (.v 2)) none),
  (8, 0x0007000100250269, .vmov g0 (.toG 20 (.v 2) 7) none),
  (8, 0x0007000201508269, .vmov g0 (.fromG (.v 2) 21 7) none),
  (8, 0x000000A0001082C1, .fexp ⟨g0, .v 2, .v 1, false, none⟩),
  (8, 0x000000A1001082C5, .flog ⟨g0, .v 2, .v 1, true, none⟩),
  (8, 0x000000A0001082C9, .frcp ⟨g0, .v 2, .v 1, false, none⟩),
  (8, 0x000000A1001082CD, .frsq ⟨g0, .v 2, .v 1, true, none⟩),
  (8, 0x000000A0001082D1, .fsqrt ⟨g0, .v 2, .v 1, false, none⟩),
  (8, 0x000000A1001082D5, .fsin ⟨g0, .v 2, .v 1, true, none⟩),
  (8, 0x000000A0001082D9, .fcos ⟨g0, .v 2, .v 1, false, none⟩),
  (8, 0x000000A1001082DD, .ftanh ⟨g0, .v 2, .v 1, true, none⟩),
  (8, 0x000000A0001082E1, .fsig ⟨g0, .v 2, .v 1, false, none⟩),
  (8, 0x000000A1001082E5, .fgelu ⟨g0, .v 2, .v 1, true, none⟩),
  (8, 0x000000A0001082E9, .fsilu ⟨g0, .v 2, .v 1, false, none⟩),
  (8, 0x000000A1001082ED, .ferf ⟨g0, .v 2, .v 1, true, none⟩)]

theorem test_decode_vectors_1 : vectorsWords1.all (fun y =>
    Decode.decode 0 (wordBytes y.1 y.2.1) == .ok y.2.2 && y.2.2.wf && Decode.encodable y.2.2) = true := by
  decide +kernel

theorem test_decode_vectors_2 : vectorsWords2.all (fun y =>
    Decode.decode 0 (wordBytes y.1 y.2.1) == .ok y.2.2 && y.2.2.wf && Decode.encodable y.2.2) = true := by
  decide +kernel

def engineWords : List (Nat × Nat × Instr) := [
  (8, 0x0000000200700301, .lplan g0 0 (.ls 7) .l4 none),  -- worked in spec/07
  (8, 0x00030803885A0305, .ldot ⟨g0, 40, .ls 5, .c 2, 3, .t3, .i8, some ⟨0, true⟩⟩),
  (8, 0x000200D230510309, .ldot2 ⟨g0, 4, .ls 5, .ls 12, 2, .l4, .e4m3, none⟩),  -- worked in spec/08
  (8, 0x000040B40040C30D, .lsort g0 (.ls 3) (.ls 4) .l8 .bf16 .rtz none),
  (8, 0x0038000000010311, .lclr g0 4 56),  -- worked in spec/07
  (8, 0x000000A00050C315, .lrd g0 3 5 .f32 .rne),  -- worked in spec/07
  (8, 0x000000013002C315, .lrdRaw g0 11 12 0),  -- worked in spec/11
  (8, 0x0000000200034315, .lrdSt g0 13 0),  -- worked in spec/11
  (8, 0x000000A300000315, .lrdV g0 (.v 0) 0 .f32 .rne none),  -- worked in spec/08
  (8, 0x00060000144FC319, .lwr g0 63 4 5 6),
  (8, 0x000D000130B00319, .lwrAdd g0 0 11 12 13),  -- worked in spec/11
  (8, 0x000000000001031D, .lprog g0 4),
  (8, 0x000000010040031D, .lprogSet g0 4),
  (8, 0x000000020000031D, .lprogDrop g0),
  (8, 0x0000000000900321, .lpert g0 9),
  (8, 0x000200D21C508325, .lgang ⟨g0, 2, 5, 7, 2, .l4, .e4m3⟩),  -- worked in spec/09
  (8, 0x000300D21C500329, .lrot ⟨g0, 0, 5, 7, 3, .l4, .e4m3⟩)]  -- worked in spec/09

theorem test_decode_engine : engineWords.all (fun y =>
    Decode.decode 0 (wordBytes y.1 y.2.1) == .ok y.2.2 && y.2.2.wf && Decode.encodable y.2.2) = true := by
  decide +kernel

def handlesWords : List (Nat × Nat × Instr) := [
  (8, 0x000700000040C341, .hnew g0 3 4 (.imm 7)),  -- worked in spec/15
  (8, 0x000000000040C345, .hfree g0 3 4),  -- worked in spec/15
  (8, 0x0000000124B28349, .hwiden g0 10 11 (.reg 9)),  -- worked in spec/17
  (8, 0x001000000040C34D, .hnarrow g0 3 4 (.imm 0x10)),
  (8, 0x0000000000414351, .hquery g0 5 4 0),  -- worked in spec/15
  (8, 0x000600021440C355, .hbind g0 3 2 4 5 6),  -- worked in spec/13
  (8, 0x0000000500000359, .hunbind g0 5),
  (8, 0x0000000A0000C359, .hunbindWb g0 3 2),  -- worked in spec/13
  (8, 0x000600001440C35D, .hcopyLd ⟨g0, 3, 4, .ls 5, 6⟩ false),  -- worked in spec/13
  (8, 0x000600041440C35D, .hcopyLd ⟨g0, 3, 4, .ls 5, 6⟩ true),
  (8, 0x000600038840C35D, .hcopySt ⟨g0, 3, 4, .c 2, 6⟩),  -- worked in spec/13
  (8, 0x000600001440C361, .hgath ⟨g0, 3, 4, .ls 5, 6⟩),  -- worked in spec/13
  (8, 0x000600028840C365, .hscat ⟨g0, 3, 4, .c 2, 6⟩),
  (8, 0x000600011440C365, .hscatAdd ⟨g0, 3, 4, .ls 5, 6⟩),
  (8, 0x000000001440C369, .hexport g0 3 4 5),
  (8, 0x000000000040C36D, .himport g0 3 4)]

theorem test_decode_handles : handlesWords.all (fun y =>
    Decode.decode 0 (wordBytes y.1 y.2.1) == .ok y.2.2 && y.2.2.wf && Decode.encodable y.2.2) = true := by
  decide +kernel

def chambersWords : List (Nat × Nat × Instr) := [
  (8, 0x000000001440C381, .kview g0 3 4 5),  -- worked in spec/18
  (8, 0x000000011400C381, .kviewDrop g0 3 5),
  (8, 0x000000A11440C385, .kred ⟨g0, 3, 4, 5, .f32, .rne⟩ true),  -- worked in spec/18
  (8, 0x000000B01440C389, .kbcast ⟨g0, 3, 4, 5, .bf16, .rne⟩),
  (8, 0x000000D01440C38D, .kgath ⟨g0, 3, 4, 5, .e4m3, .rne⟩),
  (8, 0x000000A01440C391, .krsc ⟨g0, 3, 4, 5, .f32, .rne⟩),  -- worked in spec/18
  (8, 0x000000001400C395, .kbar g0 3 5),  -- worked in spec/18
  (8, 0x000000001440C399, .kjoin g0 3 4 5),
  (8, 0x000000011400C39D, .kstat g0 3 0 5 1),  -- worked in spec/18
  (8, 0x000000041440C39D, .kstat g0 3 4 5 4),
  (8, 0x000000000040C3A1, .pair g0 3 4),  -- worked in spec/10
  (8, 0x000000000000C3A5, .unpair g0 3),  -- worked in spec/10
  (8, 0x000000000000C3A9, .fprint g0 3),
  (8, 0x000000010000C3A9, .fprintLast g0 3),  -- worked in spec/10
  (8, 0x000000020000C3A9, .fprintSt g0 3),
  (16, 0x000000A02040020102430000000003FD, .rep 3 1 1 0 (.vadd ⟨g0, .v 0, .v 4, .vec (.v 8), .f32, false, .rne, none⟩))]  -- worked in spec/05

theorem test_decode_chambers : chambersWords.all (fun y =>
    Decode.decode 0 (wordBytes y.1 y.2.1) == .ok y.2.2 && y.2.2.wf && Decode.encodable y.2.2) = true := by
  decide +kernel
/-! ### Well-formedness: a term that breaks each limit -/

/-- One term for each way that an integer, memory, atomic or strand instruction can be ill-formed. -/
def illFormedScalar : List Instr := [
  .add ⟨g0, 3, 4, .reg 5, .f32, false⟩,  -- R88: a floating type
  .div ⟨g0, 3, 4, .reg 5, .i32, true⟩,  -- R90: no saturating form
  .add ⟨g0, 3, 4, .reg 5, .i4, true⟩,
  .clz ⟨g0, 3, 4, .n4⟩,
  .cmp g0 .lt .bf16 2 4 (.reg 5),
  .bext g0 3 4 60 4 false,  -- R94: 60 + 5 bits
  .bins g0 3 4 63 1,
  .sysrd g0 3 0x05 none,  -- R103: no register 05
  .sysrd g0 3 3 (some ⟨32, 32⟩),  -- bits 32 to 64
  .syswr g0 3 0xB1 none,
  .syswr g0 3 1 (some ⟨63, 1⟩),
  .ld g0 3 ⟨4, 5, 0, false, .d16 0⟩ .f32 .plain .str,
  .ld g0 3 ⟨4, 5, 0, false, .d16 0⟩ .i32 .rel .clu,  -- R105
  .ld g0 3 ⟨4, 5, 0, true, .d16 0⟩ .i32 .acq .clu,
  .ld g0 3 ⟨4, 5, 0, false, .d16 0⟩ .i32 .sc .clu,
  .st g0 3 ⟨4, 5, 0, false, .d16 0⟩ .i4 .plain .str,
  .st g0 3 ⟨4, 5, 0, false, .d16 0⟩ .i32 .acq .clu,
  .st g0 3 ⟨4, 5, 0, false, .d16 0⟩ .i32 .plain .core,
  .ldp g0 3 3 ⟨4, 5, 0, false, .d16 0⟩ .plain .str,  -- R104: two equal registers
  .ldp g0 3 6 ⟨4, 5, 0, false, .d16 8⟩ .plain .str,  -- R104: the 64-bit form has no displacement
  .ldp g0 3 6 ⟨4, 5, 0, false, .d16 0⟩ .ar .clu,
  .stp g0 3 6 ⟨4, 5, 0, false, .d16 8⟩ .plain .str,
  .stp g0 3 6 ⟨4, 5, 0, false, .d16 0⟩ .acq .clu,
  .fence g0 .rlx .clu,  -- R109
  .aadd ⟨g0, 3, 4, 5, .d16 0, .i16, .rlx, .clu⟩,  -- R221
  .amin ⟨g0, 3, 4, 5, .d16 0, .i32, .sc, .die⟩,
  .acas ⟨g0, 3, 4, 5, .d16 8, .i32, .rlx, .clu⟩ 6,
  .afadd ⟨g0, 3, 4, 5, .d16 0, .f16, .rlx, .clu⟩,
  .xstart g0 0 0 4 5 6 7,  -- R16: helpers are strands 1 to 10
  .xstart g0 11 0 4 5 6 7,
  .xjoin g0 (.imm 1),
  .xjoin g0 (.imm 0x800),
  .tself g0 3 5,
  .wtake g0 3 3 0,
  .dmem g0 3 5,
  .dmem g0 3 6,
  .sbind g0 0 3 0 false .i64 0 0 0 0 0]

theorem test_wf_scalar : illFormedScalar.all (fun i => !i.wf) = true := by decide +kernel

/-- The same for the vector instructions and the rest. -/
def illFormedOther : List Instr := [
  .vadd ⟨g0, .v 1, .v 2, .vec (.v 3), .f32, true, .rne, none⟩,  -- R120: f32 does not saturate
  .vadd ⟨g0, .v 1, .v 2, .vec (.v 3), .i16, false, .rne, none⟩,
  .vadd ⟨g0, .v 1, .v 2, .vec (.v 3), .i32, false, .rtz, none⟩,
  .vadd ⟨g0, .v 1, .c 2, .vec (.v 3), .i32, false, .rne, none⟩,  -- R47: a cistern with no qualifier
  .vadd ⟨g0, .v 1, .v 2, .vec (.v 3), .i32, false, .rne, some ⟨0, true⟩⟩,
  .vadd ⟨g0, .c 2, .c 2, .vec (.v 3), .i32, false, .rne, some ⟨0, true⟩⟩,  -- R48
  .vadd ⟨g0, .c 2, .v 2, .vec (.c 2), .i32, false, .rne, some ⟨0, true⟩⟩,
  .vmin ⟨g0, .v 1, .v 2, .vec (.v 3), .i32, true, .rne, none⟩,
  .vmax ⟨g0, .v 1, .v 2, .vec (.v 3), .f32, false, .rup, none⟩,
  .vand ⟨g0, .v 1, .v 2, .vec (.v 3), .i32, false, .rne, none⟩,
  .vabs ⟨g0, .v 1, .v 2, .f32, true, none⟩,
  .vneg ⟨g0, .c 1, .c 1, .i32, false, some ⟨0, false⟩⟩,
  .vfma ⟨g0, .v 4, .v 5, .vec (.v 6), .c 3, .rne, none⟩,
  .vfms ⟨g0, .c 3, .v 5, .vec (.v 6), .c 3, .rne, some ⟨0, false⟩⟩,
  .vcvt g0 (.v 1) (.v 2) .i64 .f32 .rne none,  -- R116: no lane container
  .vcvt g0 (.v 1) (.v 2) .f32 .n64 .rne none,
  .vcmp g0 1 (.v 2) (.vec (.v 3)) .eq .bf16 none,
  .vsel g0 (.c 1) (.v 2) (.c 1) 1 (some ⟨0, true⟩),
  .vperm g0 (.c 1) (.c 1) (.v 1) (some ⟨0, true⟩),
  .vbcast g0 (.c 1) (.scal 1) none,
  .vbcast g0 (.c 1) (.lane (.c 1) 0) (some ⟨0, true⟩),
  .vsum g0 (.v 1) (.v 2) .f32 true .rne none,
  .vsum g0 (.v 1) (.v 2) .i32 false .rdn none,
  .vdot g0 (.v 1) (.v 2) (.vec (.v 3)) .i32 false none,
  .vld ⟨g0, .v 1, 2, .d16 0, false, .i64, .plain, .str, none⟩,
  .vld ⟨g0, .v 1, 2, .d16 0, false, .f32, .sc, .mod, none⟩,  -- R128
  .vld ⟨g0, .c 1, 2, .d16 0, false, .f32, .acq, .clu, some ⟨0, true⟩⟩,
  .vst ⟨g0, .c 1, 2, .d16 0, false, .f32, .plain, .str, some ⟨0, true⟩⟩,
  .vst ⟨g0, .v 1, 2, .d16 0, true, .f32, .rel, .clu, none⟩,
  .vgath ⟨g0, .v 1, 2, .v 3, 0, .d16 0, false, .e2m1, .plain, .str, none⟩,
  .vgath ⟨g0, .v 1, 2, .c 3, 0, .d16 0, false, .f32, .acq, .clu, some ⟨0, true⟩⟩,
  .vscat ⟨g0, .c 1, 2, .v 3, 0, .d16 0, false, .f32, .plain, .str, some ⟨0, true⟩⟩,
  .vmov g0 (.toG 3 (.c 1) 0) none,
  .vmov g0 (.vec (.c 1) (.c 1)) (some ⟨0, true⟩),
  .vmov g0 (.fromG (.v 1) 2 0) (some ⟨0, true⟩),
  .fexp ⟨g0, .c 1, .v 2, true, none⟩,
  .ferf ⟨g0, .c 1, .c 1, true, some ⟨0, true⟩⟩,
  .lplan g0 0 (.c 1) .l4 none,
  .ldot ⟨g0, 4, .ls 5, .ls 6, 2, .l4, .f32, none⟩,  -- R180
  .ldot2 ⟨g0, 63, .ls 5, .ls 6, 2, .l4, .i8, none⟩,
  .ldot2 ⟨g0, 4, .ls 5, .ls 6, 7, .l4, .i8, none⟩,
  .lsort g0 (.ls 3) (.ls 4) .l2 .f32 .rne none,  -- R185
  .lsort g0 (.ls 3) (.ls 4) .l4 .f16 .rne none,
  .lsort g0 (.c 3) (.c 3) .l4 .f32 .rne (some ⟨0, true⟩),
  .lrd g0 3 4 .e4m3 .rne,
  .lrdRaw g0 3 3 0,
  .lrdV g0 (.v 1) 49 .f32 .rne none,
  .lrdV g0 (.v 1) 0 .i8 .rne none,
  .lgang ⟨g0, 2, 5, 7, 2, .l8, .i8⟩,
  .lrot ⟨g0, 2, 5, 7, 2, .l4, .bf16⟩,
  .hquery g0 3 4 5,
  .kred ⟨g0, 3, 4, 5, .f16, .rne⟩ true,  -- R355
  .kbcast ⟨g0, 3, 4, 5, .f32, .rtz⟩,
  .kstat g0 3 0 5 5,
  .kstat g0 3 1 5 0,
  .rep 0 0 0 0 (.br g0 (.d16 8)),  -- R141: no repeatable instruction
  .rep 0 0 0 0 (.add ⟨g0, 3, 4, .reg 5, .f32, false⟩)]

theorem test_wf_other : illFormedOther.all (fun i => !i.wf) = true := by decide +kernel

/-! ### The states of the tests -/

/-- Core 1 in task 0, its control strand at 0x1000 with a `nop` there, nothing else to run; the page at 0x1000 may also be
written. -/
def demo : State := { (State.reset.withFetchWord 64 0xC1).modCore 1 (fun k => { k with
  utlb := [⟨0, 0x1000, 4096, 0x101F⟩]
  lnum := 0
  size := 4
  lspan := 4 }) with
    cur := (1, 0)
    agenda := [] }

/-- The strand with these registers. -/
def holding (s : State) (l : List (Fin 32 × Word)) : State :=
  s.modMe (fun t => { t with g := l.foldl (fun g x => g.set x.1 x.2) t.g })

/-- The same core with its strand on another index. -/
def onHelper : State := { (demo.modStrandAt 1 4 (fun t => { t with live := true, pc := 0x2000 })) with cur := (1, 4) }

/-- A guard that is false: `p1` holds 0. -/
def gOff : Guard := ⟨1, false⟩

theorem sget_of_all {α : Type} {P : α → Prop} {d : α} (m : Sparse α) (hd : P d) (hm : ∀ x ∈ m, P x.2) (k : Nat) :
    P (sget d m k) := by
  induction m with
  | nil => simpa [sget, sfind] using hd
  | cons x xs ih =>
    by_cases h : x.1 = k
    · simpa [sget, sfind, h] using hm x (by simp)
    · have := ih (fun y hy => hm y (by simp [hy]))
      simpa [sget, sfind, h] using this

/-- Of every core, what holds of a core at reset and of each core listed. -/
theorem core_all {s : State} {P : Core → Prop} (hd : P {}) (h : ∀ x ∈ s.cores, P x.2) (c : Nat) : P (s.core c) :=
  sget_of_all s.cores hd h c

theorem noWait {s : State} (h : s.me.wait = .none) (qs : List (Fin 4)) (n : Nat) : s.me.wait ≠ .queue qs n := by simp [h]

theorem test_reset_memory : State.reset.MemOk := by unfold State.MemOk; decide +kernel

/-- `withFetchWord` places what the next step runs: here a `nop`, which moves the PC. -/
theorem test_step_runs_placed : (match step (State.reset.withFetchWord 64 0xC1) with
    | .next t => t.retired && ((t.strandAt 1 0).pc == 0x1008)
    | _ => false) = true := by decide +kernel

/-! ### What the statements assume, met: the machine and the scalar instructions -/

theorem witness_DecodeEncode : Decode.encodable (.add ⟨g0, 31, 31, .imm32 (-1), .n8, true⟩) = true ∧
    20 + (Decode.encode (.add ⟨g0, 31, 31, .imm32 (-1), .n8, true⟩)).length ≤ 32 := by decide +kernel

theorem witness_StepKeepsMemoryForm : demo.MemOk ∧ ∃ t, step demo = .next t :=
  ⟨by unfold State.MemOk; decide +kernel, _, rfl⟩

/-- The instruction issues: its bytes lie in the page that the leaf of the core covers. -/
def issuing : State := { demo with agenda := [.issue 1 []] }

theorem witness_StepRunsDecoded : let s := issuing
    let k := s.core 1
    let w := k.strands[(0 : Fin 11)]
    let l : Leaf := ⟨0, 0x1000, 4096, 0x101F⟩
    let a := l.phys w.pc.toNat
    s.agenda = [.issue 1 []] ∧ k.frozen = false ∧ k.pairOf = none ∧ s.powered 1 = true ∧ s.pairs = [] ∧
    w.live = true ∧ (∀ j : Fin 11, j ≠ 0 → k.strands[j].live = false) ∧ w.rep = none ∧ w.gates = [] ∧ w.pend = [] ∧
    w.changes = [] ∧ w.pc.toNat < fixedBase ∧ w.pc.toNat % 4 = 0 ∧ s.rangeOf k.ctx w.pc.toNat = none ∧
    k.utlb = [l] ∧ l.covers k.ctx w.pc.toNat = true ∧ l.exec = true ∧ l.home ≠ 2 ∧ l.home ≠ 3 ∧
    (l.privOnly = true → w.priv = true) ∧ a / 64 ∉ s.poisoned ∧
    Decode.decode (w.pc.toNat % 32) ((List.range (32 - a % 32)).map (fun j => memGet s.mem (a + j))) = .ok (.nop .b8) := by
  decide +kernel

theorem witness_StepRunsDecoded_event : ({ demo with agenda := [.event .heartbeat] } : State).agenda = [.event .heartbeat] ∧
    Instr.isEvent .heartbeat = true ∧ demo.agenda = [] ∧ demo.cores.all (fun x => !x.2.late.comm) = true := by
  decide +kernel

theorem witness_GuardOff : (Instr.ld gOff 3 ⟨4, 5, 0, false, .d16 1⟩ .i64 .plain .str).wf = true ∧
    wholeGuard (.ld gOff 3 ⟨4, 5, 0, false, .d16 1⟩ .i64 .plain .str) = some gOff ∧ demo.me.guardOn gOff = false := by
  decide +kernel

/-- One slot is left of the packet queue, and one place in the supervisor's. -/
def packetsNearFull : State := (demo.modCluster 0 (fun x => { x with pqCount := 63, pqHead := 63 })).modCore 0
  (fun k => { k with rq := List.replicate 31 {} })

theorem witness_TrapEntry_taken : ∀ s ∈ [demo, packetsNearFull], s.pairs = [] ∧ s.earlierDone = true ∧ s.heldIn 0 = [] ∧
    (∀ h : Fin 11, (s.strandAt 1 h).loads = []) ∧ 1 % 36 ≠ (s.cluster 0).sup ∧ (s.cluster 0).chainIndex (1 % 36) = none ∧
    (s.cluster 0).pqHead < 64 ∧ (s.cluster 0).pqCount < 64 ∧ s.me.guardOn g0 = true ∧
    (s.core 0).rq.length < 32 ∧ (s.core 0).ovf = [] := by
  decide +kernel

/-- The supervisor of cluster 0 issues, first with no handler, then with core 5 as its first one. -/
def onSupervisor : State := { demo.modStrandAt 0 0 (fun t => { t with live := true, pc := 0x3000 }) with cur := (0, 0) }
def handled : State := onSupervisor.modCluster 0 (fun x => { x with hchain := 0x45 })

/-- A handler issues: core 5 of entry 0, behind which stands core 6 of entry 1, then nothing. -/
def onHandler (chain : BitVec 28) : State :=
  { (demo.modStrandAt 5 0 (fun t => { t with live := true, pc := 0x3000 })).modCluster 0 (fun x => { x with hchain := chain }) with
    cur := (5, 0), tasks := [] }

theorem witness_TrapEntry_chain : (∀ s ∈ [onSupervisor, handled, onHandler 0x2345, onHandler 0x45], s.pairs = [] ∧
      s.earlierDone = true ∧ s.heldIn 0 = [] ∧ (∀ h : Fin 11, (s.strandAt s.cur.1 h).loads = []) ∧ (s.cluster 0).pqHead < 64 ∧
      (s.cluster 0).pqCount < 64 ∧ (s.cluster 0).sup < 36) ∧
    (∀ s ∈ [onSupervisor, handled], s.cur.1 % 36 = (s.cluster 0).sup) ∧
    (∀ s ∈ [onHandler 0x2345, onHandler 0x45], s.cur.1 % 36 ≠ (s.cluster 0).sup ∧ s.tasks = [] ∧
      chainPos (s.cluster 0).hchain 0 = some (s.cur.1 % 36)) ∧
    chainPos (onSupervisor.cluster 0).hchain 0 = none ∧ chainPos (handled.cluster 0).hchain 0 = some 5 ∧
    (handled.core 5).rq = [] ∧ (handled.core 5).ovf = [] ∧ chainPos ((onHandler 0x2345).cluster 0).hchain 1 = some 6 ∧
    ((onHandler 0x2345).core 6).rq = [] ∧ ((onHandler 0x2345).core 6).ovf = [] ∧
    chainPos ((onHandler 0x45).cluster 0).hchain 1 = none := by
  decide +kernel

/-- R235: the trap of the supervisor has depth 1 and goes to entry 0, that of entry 0 depth 2 and goes to entry 1; without
an entry the cluster halts. -/
theorem test_trap_chain : ([(handled, 5, 1), (onHandler 0x2345, 6, 2)] : List (State × Nat × Nat)).all (fun x =>
      match exec (.trap g0 7) x.1 with
      | .next t => (t.core x.1.cur.1).frozen && (t.core x.2.1).rq.length == 1 && !(t.cluster 0).halt &&
          ((t.cluster 0).slots.toList.headD []).head?.map (fun w => w.toNat / 2 ^ 16 % 2 ^ 12) == some (0x200 + x.2.2)
      | _ => false) = true ∧
    ([(onSupervisor, 1), (onHandler 0x45, 2)] : List (State × Nat)).all (fun x =>
      match exec (.trap g0 7) x.1 with
      | .next t => (t.cluster 0).halt && (t.cluster 0).haltDepth == BitVec.ofNat 4 x.2 && (t.core 35).frozen
      | _ => false) = true := by
  decide +kernel

theorem witness_IntegerResults : demo.me.guardOn g0 = true ∧ Ty.isInt .n8 = true ∧
    (Instr.add ⟨g0, 0, 4, .reg 5, .n8, true⟩).wf = true := by decide +kernel

/-- A register with only its top bit set, one of zeros, one of ones. -/
def counted : State := holding demo [(4, 0x80), (5, 0), (6, -1)]

theorem witness_CountAndFieldResults :
    (∀ p ∈ ([(4, 0, 7), (5, 8, 8), (6, 0, 0)] : List (Fin 32 × Nat × Nat)),
      let f := natAs .n8 (counted.me.rg p.1)
      (if f = 0 then p.2.1 = 8 else p.2.1 < 8 ∧ 2 ^ (7 - p.2.1) ≤ f ∧ f < 2 ^ (8 - p.2.1)) ∧
      (if f = 0 then p.2.2 = 8 else f % 2 ^ p.2.2 = 0 ∧ f / 2 ^ p.2.2 % 2 = 1)) ∧
    (∀ p ∈ ([(63, 0), (0, 63), (10, 53)] : List (Fin 64 × Fin 64)), p.1.val + p.2.val + 1 ≤ 64) ∧
    holdsInt .lt (intAs .i8 (counted.me.rg 4)) (intAs .i8 (counted.me.rg 5)) ∧
    ¬ holdsInt .lt (intAs .n8 (counted.me.rg 4)) (intAs .n8 (counted.me.rg 5)) := by
  refine ⟨by decide +kernel, by simp, ?_, ?_⟩ <;> simp only [holdsInt] <;> decide +kernel

/-- Registers for the targets: the last legal address, the first that is none, a misaligned one, 1 and 2. -/
def jumping : State := holding demo [(4, 0x01FFFFFFFFFFFFFC), (5, 0x0200000000000000), (6, 0x1002), (7, 1), (8, 2)]

theorem witness_ControlTransfers : jumping.me.guardOn g0 = true ∧
    targetOk (pcWord jumping.me + (Disp.d16 0xFFFE).val * 4) = true ∧ targetOk (JmpT.i32 0x1000).val = true ∧
    targetOk (jumping.me.rg 4 + (0 : BitVec 16).signExtend 64) = true ∧
    targetOk (jumping.me.rg 5 + (0xFFFC : BitVec 16).signExtend 64) = true ∧ targetOk (jumping.me.rg 4) = true ∧
    jumping.me.rg 8 - 1 ≠ 0 ∧ jumping.me.rg 7 = 1 ∧
    targetOk (pcWord jumping.me + (Disp.d32 0x80000000).val * 4) = false ∧ targetOk (JmpT.i64 0x200000000000000).val = false ∧
    targetOk (JmpT.i32 2).val = false ∧
    targetOk (jumping.me.rg 5 + (0 : BitVec 16).signExtend 64) = false ∧ targetOk (jumping.me.rg 6) = false := by
  decide +kernel

/-! ### One step of the scalar instructions -/

/-- What the instruction leaves in a g register when it completes. -/
def leaves' (i : Instr) (s : State) (n : Fin 32) : Option Word :=
  match exec i s with
  | .next t => if t.retired then some (t.me.rg n) else none
  | _ => none

def sums : State := holding demo [(4, 0x80), (5, 0), (6, -1), (7, 0x7F), (8, 0x1234567890ABCDEF), (9, 0xFFFFFFFFFFFFFFF9), (10, 2)]

/-- Worked by hand from R88 to R97: wraps, signs, a divisor of 0, the most negative number by -1, amounts beyond the
width. -/
def sumCases : List (Instr × Fin 32 × Word) := [
  (.add ⟨g0, 3, 6, .reg 4, .n8, false⟩, 3, 0x7F),
  (.add ⟨g0, 3, 7, .reg 7, .i8, false⟩, 3, 0xFFFFFFFFFFFFFFFE),
  (.add ⟨g0, 3, 7, .reg 7, .i8, true⟩, 3, 0x7F),
  (.sub ⟨g0, 3, 5, .imm16 1, .n32, false⟩, 3, 0xFFFFFFFF),
  (.sub ⟨g0, 3, 5, .imm16 1, .n32, true⟩, 3, 0),
  (.mul ⟨g0, 3, 8, .reg 8, .i16, false⟩, 3, 0xFFFFFFFFFFFFA521),
  (.mulh ⟨g0, 3, 8, .reg 8, .i64, false⟩, 3, 0x014B66DC328828BC),
  (.mulh ⟨g0, 3, 6, .reg 6, .n64, false⟩, 3, 0xFFFFFFFFFFFFFFFE),
  (.div ⟨g0, 3, 9, .reg 10, .i64, false⟩, 3, 0xFFFFFFFFFFFFFFFD),
  (.div ⟨g0, 3, 9, .reg 5, .n8, false⟩, 3, 0xFF),
  (.div ⟨g0, 3, 4, .reg 6, .i8, false⟩, 3, 0xFFFFFFFFFFFFFF80),
  (.rem ⟨g0, 3, 9, .reg 10, .i64, false⟩, 3, 0xFFFFFFFFFFFFFFFF),
  (.rem ⟨g0, 3, 8, .reg 5, .n16, false⟩, 3, 0xCDEF),
  (.and ⟨g0, 3, 8, .imm16 0x8000, .i64, false⟩, 3, 0x1234567890AB8000),
  (.or ⟨g0, 3, 4, .reg 7, .i8, false⟩, 3, 0xFFFFFFFFFFFFFFFF),
  (.xor ⟨g0, 3, 6, .reg 6, .i64, false⟩, 3, 0),
  (.andn ⟨g0, 3, 6, .reg 8, .n8, false⟩, 3, 0x10),
  (.shl ⟨g0, 3, 7, .imm16 9, .i8, false⟩, 3, 0xFFFFFFFFFFFFFFFE),
  (.shr ⟨g0, 3, 8, .imm16 4, .n64, false⟩, 3, 0x01234567890ABCDE),
  (.sar ⟨g0, 3, 8, .imm16 8, .i32, false⟩, 3, 0xFFFFFFFFFF90ABCD),
  (.rol ⟨g0, 3, 8, .imm16 60, .n64, false⟩, 3, 0xF1234567890ABCDE),
  (.min ⟨g0, 3, 6, .reg 7, .n8, false⟩, 3, 0x7F),
  (.max ⟨g0, 3, 6, .reg 7, .i8, false⟩, 3, 0x7F),
  (.clz ⟨g0, 3, 7, .i8⟩, 3, 1), (.clz ⟨g0, 3, 5, .n16⟩, 3, 16), (.ctz ⟨g0, 3, 4, .n8⟩, 3, 7),
  (.ctz ⟨g0, 3, 5, .n64⟩, 3, 64), (.popc ⟨g0, 3, 8, .i64⟩, 3, 32), (.mov ⟨g0, 3, 4, .i8⟩, 3, 0xFFFFFFFFFFFFFF80),
  (.sel g0 3 4 6 0, 3, 0x80), (.sel g0 3 4 6 1, 3, 0xFFFFFFFFFFFFFFFF),
  (.bext g0 3 8 60 3 false, 3, 1), (.bext g0 3 8 0 3 true, 3, 0xFFFFFFFFFFFFFFFF),
  (.bins g0 8 4 8 7, 8, 0x1234567890AB80EF),
  (.lea g0 3 4 10 3 (.d16 0xFFF0), 3, 0x80), (.lea g0 0 4 10 3 (.d16 8), 0, 0),
  (.li g0 3 (.i16 0x8000), 3, 0xFFFFFFFFFFFF8000), (.li g0 3 (.i64 0x8000000000000000), 3, 0x8000000000000000)]

theorem test_scalar_results : sumCases.all (fun x => leaves' x.1 sums x.2.1 == some x.2.2) = true := by decide +kernel

/-- R86, R93: the saturation flag, and the predicate of a compare. -/
theorem test_scalar_flags :
    (match exec (.add ⟨g0, 3, 7, .reg 7, .i8, true⟩) sums with | .next t => t.me.fflags == fSA | _ => false) = true ∧
    (match exec (.cmp g0 .lt .i8 2 4 (.reg 5)) sums with | .next t => t.me.rp 2 == 0xFFFF | _ => false) = true ∧
    (match exec (.cmp g0 .lt .n8 2 4 (.reg 5)) sums with | .next t => t.me.rp 2 == 0 | _ => false) = true := by
  decide +kernel

/-- Where the strand goes on; a trap leaves its core frozen. -/
def goesTo (i : Instr) (s : State) : Option Nat :=
  match exec i s with
  | .next t => if t.retired && !t.myCore.frozen then some t.me.pc.toNat else none
  | _ => none

/-- R53, R98, R99, R111: targets, counted in words of 4 bytes for the relative ones; the fall-through of `loop`. -/
theorem test_control_targets : ([
    (.nop .b12, some 0x100C), (.nopBlk, some 0x1020), (.br g0 (.d16 0xFFFE), some 0xFF8), (.br gOff (.d16 0xFFFE), some 0x1008),
    (.br g0 (.d32 0x80000000), none), (.jmp g0 (.i32 0x2000), some 0x2000), (.jmp g0 (.i64 0x2002), none),
    (.jal g0 31 (.d32 2), some 0x1008), (.jr g0 5 6 0xFFFE, some 0x1000), (.ret g0 6, none), (.ret g0 7, some 0x2000),
    (.loop g0 8 (.d16 0xFFFF), some 0xFFC), (.loop g0 9 (.d16 0xFFFF), some 0x1008), (.trap g0 7, none)]
      : List (Instr × Option Nat)).all (fun x => goesTo x.1 (holding demo [(6, 0x1002), (7, 0x2000), (8, 2), (9, 1)]) == x.2)
    = true ∧
    leaves' (.jal g0 31 (.d32 2)) demo 31 = some 0x100C ∧ leaves' (.loop g0 8 (.d16 8)) (holding demo [(8, 2)]) 8 = some 1 := by
  decide +kernel

/-- R24, R228: the packet of `trap`: kind 0, code 7 and the code in its detail; the queue of cluster 0 holds it. -/
theorem test_trap_packet : (match exec (.trap g0 0x1234) demo with
    | .next t => (t.core 1).frozen && (t.cluster 0).pqCount == 1 && (t.core 0).rq.length == 1 &&
        ((t.cluster 0).slots.toList.headD []).take 5 == [0x0000000100000007, 0x1000, 0, 0, 0x1234]
    | _ => false) = true := by decide +kernel

/-! ### System registers -/

theorem witness_SystemReads : demo.me.guardOn g0 = true ∧ demo.sysReg 0x81 = some 1200 ∧ demo.sysReg 0x21 = some (2 ^ 32) ∧
    demo.hubWrites = [] ∧ (5 : BitVec 16).toNat ∉ sysNumbers ∧ (0xB1 : BitVec 16).toNat ∉ sysNumbers ∧
    demo.cur.1 < 27648 ∧ (demo.sysReg 0).isSome = true ∧ (demo.sysReg 1).isSome = true ∧ (demo.sysReg 2).isSome = true ∧
    (demo.sysReg 4).isSome = true ∧ (demo.cluster 0).sup < 36 ∧ demo.myCore.lprog.total ≤ 256 ∧ demo.myCore.lprog.done ≤ 256 ∧
    demo.myCore.lprog.op < 256 := by decide +kernel

theorem witness_SystemWrites : demo.me.guardOn g0 = true ∧ demo.me.priv = false ∧ 0x81 ≤ (0xB0 : BitVec 16).toNat ∧
    (0xB0 : BitVec 16).toNat ∈ sysNumbers ∧ (0x81 : BitVec 16).toNat ∈ sysNumbers := by decide +kernel

/-- The privileged supervisor thaws: position 1 is frozen, position 2 is not, position 3 is frozen and contained. -/
def thawing : State :=
  holding ((((((onSupervisor.modMe (fun t => { t with priv := true })).modCore 1 (fun k => { k with frozen := true })).modCore 3
    (fun k => { k with frozen := true })).modCluster 0 (fun x => { x with cont := x.cont.set 0 0x80000000000000C3 }))))
    [(4, 1), (5, 2), (6, 3), (7, 36)]

theorem witness_ThawResults : thawing.me.guardOn g0 = true ∧ demo.me.priv = false ∧ thawing.me.priv = true ∧
    thawing.released .clu = true ∧
    ((thawing.me.rg 7).toNat % 64 = 36 ∧ (thawing.core 2).frozen = false) ∧
    ((thawing.core 3).frozen = true ∧ thawing.contained 3 = true) ∧
    ((thawing.core 1).frozen = true ∧ thawing.contained 1 = false ∧ (thawing.core 1).conflict = false ∧
      thawing.partner 1 = none ∧ 1 ≠ thawing.cur.1) := by decide +kernel

theorem test_thaw : leaves' (.thaw g0 3 4) thawing 3 = some 0 ∧ leaves' (.thaw g0 3 5) thawing 3 = some 1 ∧
    leaves' (.thaw g0 3 6) thawing 3 = some 2 ∧ leaves' (.thaw g0 3 7) thawing 3 = some 1 ∧
    (match exec (.thaw g0 3 4) thawing with | .next t => !(t.core 1).frozen && (t.core 3).frozen | _ => false) = true := by
  decide +kernel

/-- R101 to R103: a field of `%ls`; the ceiling; the write of `%fflags` through a field, and of a module register. -/
theorem test_system : leaves' (.sysrd g0 3 0x81 none) demo 3 = some 1200 ∧
    leaves' (.sysrd g0 3 0x21 (some ⟨32, 15⟩)) demo 3 = some 1 ∧
    (match exec (.syswr g0 4 1 (some ⟨1, 1⟩)) (holding demo [(4, 7)]) with | .next t => t.me.fflags == 6 | _ => false) = true ∧
    (match exec (.syswr g0 4 0x81 none) (holding demo [(4, 500)]) with
      | .next t => t.ceil == 1200 && t.hubWrites == [⟨0x81, 0, 64, 500, some 1, false⟩] | _ => false) = true := by
  decide +kernel

/-! ### Loads, stores, fences -/

def page : Leaf := ⟨0, 0x1000, 4096, 0x101F⟩

/-- Addresses: the last dword of the page, one of 16 bytes at its start, a page that is not mapped, beyond the space, with
bit 63, misaligned, and the last word of local store. -/
def addressed : State := holding demo [(3, 0x1122334455667788), (4, 0x1FF8), (5, 0x1100), (6, 0x5000), (7, 0x0200000000000000),
  (8, 0x8000000000000000), (9, 0x1101), (10, 0x3FFC)]

theorem grants_demo : ∀ w : Bool, Grants addressed page (addressed.me.rg 4) w ∧ Grants addressed page (addressed.me.rg 5) w
  | true => ⟨by constructor <;> decide +kernel, by constructor <;> decide +kernel⟩
  | false => ⟨by constructor <;> decide +kernel, by constructor <;> decide +kernel⟩

theorem witness_AccessesIssue : addressed.me.guardOn g0 = true ∧ Ty.isInt .i64 = true ∧ plainLoad .acq ∧
    addressed.myCore.touched ((List.range 16).map (fun j => addressed.myCore.lsLoc (0x3FFC + j))) = none ∧
    Grants addressed page (addressed.me.rg 4) false ∧ Grants addressed page (addressed.me.rg 5) true ∧
    Sound addressed (page.phys 0x1FF8) ∧ 0x1FF8 % 8 = 0 ∧ 0x1100 % 16 = 0 ∧ addressed.me.bufCount < 16 ∧
    addressed.me.dropped = none ∧ Order.rel ≠ .sc := by
  refine ⟨?_, ?_, .inr (.inr rfl), ?_, (grants_demo false).1, (grants_demo true).2, ⟨?_, ?_⟩, ?_, ?_, ?_, ?_, ?_⟩ <;>
    decide +kernel

/-- The same page, read-only, then for privileged strands alone. -/
def readOnly : State := addressed.modMyCore (fun k => { k with utlb := [⟨0, 0x1000, 4096, 0x1017⟩] })
def privileged : State := addressed.modMyCore (fun k => { k with utlb := [⟨0, 0x1000, 4096, 0x103F⟩] })

theorem witness_AccessTraps : addressed.me.guardOn g0 = true ∧ Ty.isInt .n64 = true ∧ addressed.me.dropped = none ∧
    2 ^ 63 ≤ (addressed.me.rg 8).toNat ∧ (2 ^ 57 ≤ (addressed.me.rg 7).toNat ∧ (addressed.me.rg 7).toNat < 2 ^ 63) ∧
    ((addressed.me.rg 9).toNat < 2 ^ 57 ∧ (addressed.me.rg 9).toNat % 8 ≠ 0) ∧
    ((addressed.me.rg 6).toNat < fixedBase ∧ (addressed.me.rg 6).toNat % 8 = 0 ∧
      addressed.rangeOf addressed.myCore.ctx (addressed.me.rg 6).toNat = none ∧
      (match addressed.leafFor 1 0 0x5000 with | .error e => e == .translation | _ => false) = true) ∧
    (match readOnly.leafFor 1 0 0x1100 with | .ok (l, _) => !l.write && l.read && !l.privOnly | _ => false) = true ∧
    (match privileged.leafFor 1 0 0x1100 with | .ok (l, _) => l.privOnly && !privileged.me.priv | _ => false) = true := by
  decide +kernel

/-- The code of the trap an instruction takes, and the address in its packet. -/
def trapsWith (i : Instr) (s : State) : Option (Nat × Word) :=
  match exec i s with
  | .next t =>
    if t.myCore.frozen && !t.retired then
      let k := s.cluster (s.cur.1 / 36)
      let p := ((t.cluster (s.cur.1 / 36)).slots.toList.getD ((k.pqHead + k.pqCount) % 64) []).take 5
      some ((p.headD 0).toNat % 2 ^ 16, p.getD 2 0)
    else none
  | _ => none

def at' (n : Fin 32) : Mem := ⟨n, 0, 0, false, .d16 0⟩

/-- R106: the codes of the checks in their order. -/
theorem test_access_traps :
    ([(8, .i64, addressed, 0x10, 0x8000000000000000), (7, .i64, addressed, 0x11, 0x0200000000000000),
      (9, .i64, addressed, 0x12, 0x1101), (6, .i8, addressed, 0x13, 0x5000), (5, .i8, privileged, 0x14, 0x1100)]
      : List (Fin 32 × Ty × State × Nat × Word)).all (fun x =>
        trapsWith (.ld g0 3 (at' x.1) x.2.1 .plain .str) x.2.2.1 == some (x.2.2.2.1, x.2.2.2.2)) = true ∧
    trapsWith (.st g0 3 (at' 5) .i8 .plain .str) readOnly = some (0x14, 0x1100) ∧
    trapsWith (.ld g0 3 (at' 5) .i8 .plain .str) readOnly = none := by decide +kernel

/-- R29, R108, R148: the bytes a store puts in the buffer, of memory and, byte by byte, at the end of the allocation of
local store. -/
theorem test_store_bytes :
    (match exec (.st g0 3 (at' 4) .i16 .plain .str) addressed with
      | .next t => t.me.buf.map BufEntry.bytes == [[(⟨.mem .hub, 0x1FF8⟩, 0x88), (⟨.mem .hub, 0x1FF9⟩, 0x77)]]
      | _ => false) = true ∧
    (match exec (.st g0 3 ⟨10, 0, 0, true, .d16 3⟩ .i16 .plain .str) addressed with
      | .next t => t.me.buf.map BufEntry.bytes == [[(⟨.ls, 0x3FFF⟩, 0x88)], [(⟨.stray, 0x4000⟩, 0x77)]]
      | _ => false) = true ∧
    (match exec (.stp g0 3 4 (at' 5) .rel .clu) addressed with
      | .next t => t.me.buf.map (fun e => (e.bytes.length, e.rel, e.scope)) == [(16, true, .clu)]
      | _ => false) = true := by decide +kernel

/-- R29: the buffer is full. -/
def bufferFull : State := addressed.modMe (fun t => { t with buf := (List.range 16).map (fun n => { id := n, op := .store }) })

theorem test_store_stalls : bufferFull.me.bufCount = 16 ∧ Grants bufferFull page (bufferFull.me.rg 5) true ∧
    (match exec (.st g0 3 (at' 5) .i8 .plain .str) bufferFull with
      | .next t => !t.retired && t.me.pc == 0x1000 && t.me.buf.length == 16 && t.me.blk == 0 && t.me.g == bufferFull.me.g
      | _ => false) = true :=
  ⟨by decide +kernel, by constructor <;> decide +kernel, by decide +kernel⟩

/-- R28, R107: a load issues, is satisfied by the event, and its register takes the sign; the line holds a byte 0xC1. -/
def loaded (i : Instr) (s : State) : State :=
  match exec i s with
  | .next t => (match t.me.loads with
    | l :: _ => (match exec (.loadSatisfied 1 0 l.id 0) t with | .next u => u | _ => s)
    | [] => s)
  | _ => s

theorem test_load_value :
    (loaded (.ld g0 3 ⟨6, 0, 0, false, .d16 0⟩ .i8 .plain .str) (holding demo [(6, 0x1000)])).me.rg 3 = 0xFFFFFFFFFFFFFFC1 ∧
    (loaded (.ld g0 3 ⟨6, 0, 0, false, .d16 0⟩ .n8 .plain .str) (holding demo [(6, 0x1000)])).me.rg 3 = 0xC1 ∧
    (loaded (.ldp g0 3 5 ⟨6, 0, 0, false, .d32 0⟩ .plain .str) (holding demo [(6, 0x1000), (5, 9)])).me.rg 5 = 0 := by
  decide +kernel

/-- EQ1 holds an operation; then it is in the error state. -/
def queueBusy : State := demo.modMyCore (fun k => { k with eq1 := [{ id := 0, strand := 0, kind := .st }] })
def queueErr : State := demo.modMyCore (fun k => { k with err := k.err.set 1 (some ⟨0x12, 0x40, 3⟩) })

theorem witness_FencesAndQueues : demo.me.guardOn g0 = true ∧ demo.me.dropped = none ∧ Scope.core ≠ .str ∧
    demo.settled = true ∧ (∀ qs n, demo.me.wait ≠ .queue qs n) ∧
    (∀ q : Fin 4, demo.myCore.opsIn q = [] ∧ demo.myCore.err[q] = none) ∧
    ((∀ qs n, queueBusy.me.wait ≠ .queue qs n) ∧ (2 : BitVec 4).getLsbD 1 = true ∧ 0 ∈ queueBusy.myCore.opsIn 1 ∧
      0 < queueBusy.nextId) ∧
    ((∀ qs n, queueErr.me.wait ≠ .queue qs n) ∧ queueErr.myCore.opsIn 1 = [] ∧
      queueErr.myCore.err[(1 : Fin 4)] = some ⟨0x12, 0x40, 3⟩) := by
  refine ⟨?_, ?_, ?_, ?_, noWait (by decide +kernel), ?_, ⟨noWait (by decide +kernel), ?_, ?_, ?_⟩, noWait
    (by decide +kernel), ?_, ?_⟩ <;> decide +kernel

theorem test_qfence : goesTo (.qfence g0 15) demo = some 0x1008 ∧ goesTo (.qfence g0 13) queueBusy = some 0x1008 ∧
    (match exec (.qfence g0 2) queueBusy with | .next t => t.me.blk == 9 && t.me.pc == 0x1000 | _ => false) = true ∧
    trapsWith (.qfence g0 2) queueErr = some (0x11C, 0x40) := by decide +kernel

/-! ### A context with tables in memory -/

/-- Dwords in memory. -/
def dwords (m : Sparse Byte) (l : List (Nat × Nat)) : Sparse Byte :=
  l.foldl (fun m x => memSetAll m (placeAt x.1 (leBytes 8 x.2))) m

/-- Context 0 maps the first gigabyte onto itself by one leaf of level 2; its logical cores 0 and 1 are cores 1 and 2 of
cluster 0, its route indices 0 and 1 this module and module 7; it holds queues 0 and 1, four vein cells and two work
lists of at most 16 items. -/
def inContext : State := { demo with
  ctxen := 1
  ctxs := [(0, { desc := [0x8004000200000000, 0x20000, 0x21000, 3, 0, 0, 0x08801000, 0x100000], root := 0x10000 })]
  mem := dwords demo.mem [(0x10000, 0x11001), (0x11000, 0x12001), (0x12000, 0x1F), (0x20000, 0x00020001),
    (0x21000, 0x8000000780000000)] }

/-- R245, R268: the tables as the model reads them. -/
theorem test_tables : inContext.coreOf 0 0 = some 1 ∧ inContext.coreOf 0 1 = some 2 ∧ inContext.coreOf 0 2 = none ∧
    inContext.routeOf 0 0 = some 0 ∧ inContext.routeOf 0 1 = some 7 ∧ inContext.routeOf 0 2 = none := by decide +kernel

/-! ### Atomics and helper strands -/

def atomGo : State := holding inContext [(4, 0x1100), (5, 7), (6, 0x01FFFE0000000000), (7, 0x01FFFE0000000060)]

theorem witness_Atomics_issue : atomGo.me.guardOn g0 = true ∧ atomGo.me.dropped = none ∧ atomGo.me.bufCount < 16 ∧
    Grants atomGo page (atomGo.me.rg 4) true ∧ Sound atomGo (page.phys 0x1100) ∧
    Ty.n64 ∈ ([.i32, .i64, .n32, .n64] : List Ty) ∧ 0x1100 % 8 = 0 ∧
    (∀ x ∈ ([(6, 0), (7, 3)] : List (Fin 32 × Nat)), x.2 < 1024 ∧ (atomGo.me.rg x.1).toNat = cellRange (32 * x.2) ∧
      (atomGo.ctx 0).cbase ≤ x.2 ∧ x.2 < (atomGo.ctx 0).cbase + (atomGo.ctx 0).ccount) := by
  refine ⟨?_, ?_, ?_, by constructor <;> decide +kernel, ⟨?_, ?_⟩, ?_, ?_, ?_⟩ <;> decide +kernel

/-- One atomic has left core 1: `amin.i32` at 0x1004, whose four bytes hold -2. -/
def atomOut (op : AtomOp) : State := ({ demo with mem := dwords demo.mem [(0x1000, 0xFFFFFFFE000000C1)] } : State).modMyCore
  (fun k => { k with
    outq := [{ strand := 0, e := { id := 9, op := .atom op .i32 5 7 3, bytes := (List.range 4).map (fun j => (⟨.mem .hub, 0x1004 + j⟩, 0)) } }]
    strands := k.strands.set 0 { k.strands[(0 : Fin 11)] with pend := [(9, .g 3)] } })

theorem witness_Atomics_perform : ∀ op ∈ ([.aadd, .amin, .acas] : List AtomOp), ∃ o, (atomOut op).outEntry 1 9 = some o ∧
    o.e.op = .atom op .i32 5 7 3 ∧ o.e.locs = (List.range 4).map (fun j => (⟨.mem .hub, 0x1004 + j⟩ : Loc)) ∧ o.e.id = 9 ∧
    ((atomOut op).core 1).firstOut 9 = true ∧ (atomOut op).olderSameHome 1 o = false ∧ (atomOut op).MemOk ∧
    (∀ l ∈ o.e.locs, (atomOut op).clusterAhead 0 l = false) ∧
    (atomOut op).strandAt 1 o.strand = { (atomOut op).strandAt 1 o.strand with pend := [(9, .g 3)], gates := [] } ∧
    (3 : Fin 32) ≠ 0 := by
  intro op h
  refine ⟨((atomOut op).core 1).outq.headD { strand := 0, e := { id := 0, op := .store } }, ?_⟩
  simp only [List.mem_cons, List.not_mem_nil, or_false] at h
  unfold State.MemOk
  rcases h with rfl | rfl | rfl <;> decide +kernel

/-- R221: what each leaves, and the old value with its sign. -/
theorem test_atomics : ([(.aadd, 3), (.amin, 0xFFFFFFFE), (.amax, 5), (.aand, 4), (.aor, 0xFFFFFFFF), (.axor, 0xFFFFFFFB),
    (.aswap, 5), (.acas, 0xFFFFFFFE)] : List (AtomOp × Nat)).all (fun x =>
      match exec (.atomicPerform 1 9) (atomOut x.1) with
      | .next t => leNat (memRead t.mem 0x1004 4) == x.2 && t.me.rg 3 == 0xFFFFFFFFFFFFFFFE && t.me.pend.isEmpty
      | _ => false) = true := by decide +kernel

theorem witness_HelperStrands : demo.me.guardOn g0 = true ∧ demo.cur.2 = 0 ∧
    (∀ h ∈ ([1, 10] : List (Fin 16)), 1 ≤ h.val ∧ h.val ≤ 10 ∧ (demo.strandAt 1 (Fin.ofNat 11 h.val)).live = false) ∧
    (pcWord demo.me + (0xFFFFFC00 : BitVec 32).signExtend 64 * 4).toNat < 2 ^ 57 ∧ demo.me.buf = [] ∧
    (∀ h : Fin 11, h ≠ 0 → (0x7FE : BitVec 16).getLsbD h.val = true → (demo.strandAt 1 h).live = false) ∧
    (onHelper.me.guardOn g0 = true ∧ onHelper.cur.2 ≠ 0 ∧ onHelper.me.buf = [] ∧ onHelper.settled = true ∧
        (onHelper.strandAt 1 4).live = true) ∧
    (let s : State := { onHelper with cur := (1, 0) }
     s.me.guardOn g0 = true ∧ s.cur.2 = 0 ∧ (0x10 : BitVec 16).getLsbD 4 = true ∧ (s.strandAt 1 4).live = true ∧
      (s.strandAt s.cur.1 (Fin.ofNat 11 (4 : Fin 16).val)).live = true) := by decide +kernel

/-- R111 to R113: a helper starts with its arguments; `xend` leaves it idle and hands on its flags. -/
theorem test_helpers :
    (match exec (.xstart g0 10 0x10 4 5 6 7) sums with
      | .next t => let u := t.strandAt 1 10; u.live && u.pc == 0x1040 && u.rg 1 == 0x80 && u.rg 4 == 0x7F && u.rg 5 == 0
      | _ => false) = true ∧
    (match exec (.xend g0) (onHelper.modMe (fun t => { t with fflags := 5 })) with
      | .next t => (t.strandAt 1 4 == {}) && (t.strandAt 1 0).fflags == 5
      | _ => false) = true ∧
    (match exec (.xjoin g0 (.imm 0x10)) { onHelper with cur := (1, 0) } with
      | .next t => t.me.blk == 6 && t.me.pc == 0x1000
      | _ => false) = true ∧
    trapsWith (.xstart g0 4 0 4 5 6 7) { onHelper with cur := (1, 0) } = some (8, 0) ∧
    trapsWith (.xend g0) demo = some (2, 0x1000) ∧ trapsWith (.xjoin g0 (.imm 2)) onHelper = some (2, 0x2000) := by
  decide +kernel

/-! ### Tasks and work lists -/

/-- Records at 0x1F80, 0x1FA0 and 0x1FC0: code 0x3000, one core, queue 1; the join counts are 0, 2 and 1. -/
def offering : State := holding { inContext with
  mem := dwords inContext.mem [(0x1F80, 0x3000), (0x1F88, 0x4000), (0x1F90, 2 ^ 42), (0x1FA0, 0x3000), (0x1FB0, 2 ^ 42 + 2),
    (0x1FC0, 0x3000), (0x1FD0, 2 ^ 42 + 1)] }
  [(4, 0x1F80), (5, 0x1FA0), (6, 0x1F90), (7, 9)]

theorem witness_RecordOffers : offering.me.guardOn g0 = true ∧ (offering.me.rg 4).toNat % 32 = 0 ∧
    Sound offering (page.phys 0x1F80) ∧ offering.me.bufCount < 16 ∧ Grants offering page (offering.me.rg 4) false ∧
    Grants offering page (offering.me.rg 4) true ∧ (offering.me.rg 6).toNat % 32 ≠ 0 := by
  refine ⟨?_, ?_, ?_, ?_, ?_, ?_, ?_⟩
  iterate 2 decide +kernel
  · constructor <;> decide +kernel
  · decide +kernel
  iterate 2 constructor <;> decide +kernel
  decide +kernel

/-- The offer of a record has left the core. -/
def offerOut (join : Bool) (a : Nat) : State := offering.modMyCore (fun k => { k with
  outq := [{ strand := 0, e := { id := 9, op := .offer join ⟨.mem .hub, a⟩ (BitVec.ofNat 64 a) 3 } }]
  strands := k.strands.set 0 { k.strands[(0 : Fin 11)] with pend := [(9, .g 3)] } })

/-- A record of the queue 5, which the context does not hold; and the core table cannot be read. -/
def offerBad : State := { offerOut false 0x1F80 with mem := dwords offering.mem [(0x1F90, 5 * 2 ^ 42)] }
def offerBlind : State := { offerOut false 0x1F80 with poisoned := [0x20000 / 64] }

theorem witness_RecordOffers_perform : (∀ x ∈ ([(true, 0x1F80), (true, 0x1FA0), (true, 0x1FC0), (false, 0x1F80)] : List (Bool × Nat)),
      let s := offerOut x.1 x.2
      ∃ o, s.outEntry 1 9 = some o ∧ o.e.id = 9 ∧ (s.core 1).firstOut 9 = true ∧ o.task = none ∧ Memory.wf s.mem = true ∧
        (∀ j, j < 32 → s.clusterAhead 0 ⟨.mem .hub, x.2 + j⟩ = false) ∧
        o.e.op = .offer x.1 ⟨.mem .hub, x.2⟩ (BitVec.ofNat 64 x.2) 3 ∧
        s.strandAt 1 o.strand = { s.strandAt 1 o.strand with pend := [(9, .g 3)], gates := [] }) ∧
    leNat (memRead offering.mem 0x1F90 8) % 2 ^ 32 = 0 ∧ leNat (memRead offering.mem 0x1FB0 8) % 2 ^ 32 = 2 ∧
    leNat (memRead offering.mem 0x1FD0 8) % 2 ^ 32 = 1 ∧
    offering.offerStatus 0 ⟨[0x3000, 0x4000, 2 ^ 42, 0], 0x1F80, 0, []⟩ = 1 ∧ offering.queueFull 1 = false ∧
    offerBad.offerStatus 0 ⟨[0x3000, 0x4000, 5 * 2 ^ 42, 0], 0x1F80, 0, []⟩ = 3 ∧
    offerBlind.offerStatus 0 ⟨[0x3000, 0x4000, 2 ^ 42, 0], 0x1F80, 0, []⟩ = 6 ∧ offerBlind.ctxBusy? 0 = true ∧
    (offerBlind.ctx 0).stopped = false := by
  refine ⟨fun x h => ⟨((offerOut x.1 x.2).core 1).outq.headD { strand := 0, e := { id := 0, op := .store } }, ?_⟩,
    by decide +kernel⟩
  simp only [List.mem_cons, List.not_mem_nil, or_false] at h
  rcases h with rfl | rfl | rfl | rfl <;> decide +kernel

/-- R252: a join that is not the last counts down, the last one offers; the offered record stands in its queue. R246: a core
table that cannot be read ends the tasks of its context. -/
theorem test_offers :
    (match exec (.recordOffer 1 9) (offerOut true 0x1FA0) with
      | .next t => t.me.rg 3 == 0 && leNat (memRead t.mem 0x1FB0 8) == 2 ^ 42 + 1 && t.queues.isEmpty
      | _ => false) = true ∧
    (match exec (.recordOffer 1 9) (offerOut true 0x1F80) with | .next t => t.me.rg 3 == 2 | _ => false) = true ∧
    (match exec (.recordOffer 1 9) (offerOut false 0x1F80) with
      | .next t => t.me.rg 3 == 1 && (sget [] t.queues 1).map (fun r => (r.code, r.frame, r.origin)) == [(0x3000, 0x4000, 0x1F80)]
      | _ => false) = true ∧
    (match exec (.recordOffer 1 9) (offerOut true 0x1FC0) with
      | .next t => t.me.rg 3 == 1 && leNat (memRead t.mem 0x1FD0 8) == 2 ^ 42 &&
          (sget [] t.queues 1).map (fun r => (r.code, r.dword 2)) == [(0x3000, 2 ^ 42)]
      | _ => false) = true ∧
    (match exec (.recordOffer 1 9) offerBlind with | .next t => (t.ctx 0).stopped && t.tasks.isEmpty | _ => false) = true ∧
    (match exec (.recordOffer 1 9) offerBad with | .next t => t.me.rg 3 == 3 && t.queues.isEmpty | _ => false) = true := by
  decide +kernel

theorem witness_RecordAndEnd : demo.me.guardOn g0 = true ∧ demo.cur.2 = 0 ∧ demo.myCore.task = some 0 ∧
    demo.task? 0 = some (placeTask 0) ∧ (4 : Fin 16).val ≤ 4 ∧ 4 < (5 : Fin 16).val ∧
    (∀ h : Fin 11, h ≠ 0 → (demo.core 1).strands[h].live = false) ∧ (∀ h : Fin 11, (demo.core 1).strands[h].buf = []) ∧
    (demo.core 1).outq = [] ∧ (∀ q : Fin 4, (demo.core 1).opsIn q = [] ∧ (demo.core 1).err[q] = none) ∧ demo.pairs = [] ∧
    (∀ qs n, demo.me.wait ≠ .queue qs n) ∧ (onHelper.core 1).strands[(4 : Fin 11)].live = true := by
  refine ⟨?_, ?_, ?_, ?_, ?_, ?_, ?_, ?_, ?_, ?_, ?_, noWait (by decide +kernel), ?_⟩ <;> decide +kernel

theorem test_tfin : (match exec (.tfin g0) demo with
    | .next t => t.retired && t.tasks.isEmpty && (t.core 1).task.isNone && (t.core 1).lnum == 0xFFFF
    | _ => false) = true ∧ leaves' (.tself g0 3 0) demo 3 = some 0 ∧ trapsWith (.tself g0 3 5) demo = some (2, 0x1000) := by
  decide +kernel

/-- List 0 holds two items, list 1 none; the domain is quiescent in the second state. -/
def listing : State := offering.modCtx 0 (fun x => { x with lists := [(0, [5, 6])] })
def listingQuiet : State := listing.modCtx 0 (fun x => { x with quiet := true })

theorem witness_WorkLists : listing.me.guardOn g0 = true ∧ (listing.ctx 0).nlists ≤ (2 : BitVec 8).toNat ∧
    (1 : BitVec 8).toNat < (listing.ctx 0).nlists ∧ listing.me.bufCount < 16 ∧ (7 : Fin 32) ≠ 0 ∧
    sget [] (listing.ctx 0).lists 0 = 5 :: [6] ∧ listing.listFault listing.myCore.ctx false 0 0 = none ∧
        sget [] (listing.ctx 0).lists 1 = [] := by decide +kernel

theorem test_wtake : leaves' (.wtake g0 3 7 0) listing 3 = some 5 ∧ leaves' (.wtake g0 3 7 0) listing 7 = some 0 ∧
    leaves' (.wtake g0 3 7 1) listing 7 = some 1 ∧ leaves' (.wtake g0 3 7 1) listingQuiet 7 = some 2 ∧
    leaves' (.wtake g0 3 7 2) listing 7 = some 3 ∧ leaves' (.wapp g0 3 7 2) listing 3 = some 2 ∧
    (match exec (.wapp g0 3 7 1) listing with | .next t => t.me.buf.map BufEntry.op == [.wapp 1 9 3] | _ => false) = true := by
  decide +kernel

/-! ### Domains -/

/-- The strand's domain is that of its task, or a chamber's, or of the chamber level without one. -/
def inGang : State := inContext.modMe (fun t => { t with fflags := 0x13 })
def atLevel (n : BitVec 3) (chv : Bool) : State :=
  { inContext.modMe (fun t => { t with dom := { t.dom with lvl := n, chm := 9, chv := chv } }) with
    chambers := [(9, { ctx := 0, view := 3, members := [0, 1], rank := 0, mode := false })] }
/-- It has arrived at generation 0, which is open, or released. -/
def arrived (gen : Nat) : State := { inGang.modMe (fun t => { t with wait := .barrier 4 0, waitAt := t.pc }) with
  barriers := [{ dom := 4, ctx := 0, key := 0, lvl := 0, place := 0, gen := gen, done := 8 }] }

theorem witness_Domains : inGang.me.guardOn g0 = true ∧ inGang.cur.2 = 0 ∧
    ((atLevel 4 false).me.dom.lvl.toNat = 4 ∧ (atLevel 4 false).me.dom.chv = false) ∧
    (∀ g ∈ [0, 1], (arrived g).me.dom.lvl.toNat ≠ 4 ∧ (arrived g).myCore.task = some 0 ∧
      (arrived g).task? 0 = some (placeTask 0) ∧ (arrived g).me.wait = .barrier 4 0 ∧ (arrived g).me.waitAt = (arrived g).me.pc ∧
      ((arrived g).barriers.find? (fun b => b.dom == 4)).map Barrier.gen = some g) ∧
    (inGang.me.dom.lvl.toNat ≠ 4 ∧ inGang.me.wait = .none ∧ inGang.me.loads = [] ∧ inGang.me.buf = [] ∧
      inGang.myCore.outq = [] ∧ inGang.barriers = []) ∧
    (∀ n ∈ ([0, 3, 7] : List (Fin 8)), (if n = 7 then inGang.me.dom.lvl.toNat else n.val) < 4) ∧
    ((atLevel 4 true).me.dom.chv = true ∧ ((atLevel 4 true).chamber 9).isSome = true) ∧
    (∀ x ∈ ([(0, some 1), (1, some 2), (2, none)] : List (Nat × Option Nat)),
      (match inGang.coreEntry inGang.myCore.ctx x.1 with | .ok y => y == x.2 | .error _ => false) = true) := by decide +kernel

/-- R203, R206, R207, R209. -/
theorem test_domains :
    (match exec (.dbar g0 3 true) inGang with
      | .next t => t.me.blk == 1 && !t.retired && t.barriers.map Barrier.arrived == [[⟨0, 0x13, none⟩]]
      | _ => false) = true ∧
    leaves' (.dbar g0 3 true) (arrived 1) 3 = some 8 ∧ leaves' (.dbar g0 3 true) (arrived 0) 3 = none ∧
    trapsWith (.dphase g0 3 true true) (atLevel 4 false) = some (0x29, 0) ∧
    leaves' (.dmem g0 3 0) inGang 3 = some 0x10000 ∧ leaves' (.dmem g0 3 4) (atLevel 4 true) 3 = some 0x20000 ∧
    leaves' (.ttime g0 3 4 5) (holding inGang [(4, 0), (5, 1)]) 3 = some 5 ∧
    leaves' (.ttime g0 3 4 5) (holding inGang [(4, 0), (5, 2)]) 3 = some 0xFFFFFFFFFFFFFFFF := by decide +kernel

/-! ### Cisterns, streams, messages -/


/-- Cistern 2: 8 slots of 32 bytes from 0x100, 3 filled and 4 free, the pointers near the end; cistern 3 is undefined. -/
def filling : State := holding (inContext.modMyCore (fun k => { k with
  cist := k.cist.set 2 ⟨true, 0x100, 32, 8, 6, 7, 3, 4, []⟩ })) [(4, 0x230), (5, 0x238), (6, 3), (7, 9)]

theorem witness_CisternInstructions : filling.me.guardOn g0 = true ∧
    (((filling.me.rg 4).setWidth 20 + (0xFFFF0 : BitVec 20)).toNat % 16 = 0 ∧ (filling.core 1).cist[(3 : Fin 16)].held = [] ∧
      (filling.core 1).opsNaming 3 = []) ∧ ((filling.me.rg 5).setWidth 20 + (0 : BitVec 20)).toNat % 16 ≠ 0 ∧
    (let x := (filling.core 1).cist[(2 : Fin 16)]
     x.defined = true ∧ 0 < 3 ∧ 3 ≤ x.n ∧ 3 ≤ x.filled ∧ x.filled < 4 ∧ 4 ≤ x.free ∧ x.free < 5 ∧ 5 ≤ x.n ∧ x.n < 9) ∧
    (filling.core 1).cist[(3 : Fin 16)].defined = false := by decide +kernel

/-- An advance of each side that is due, and one that waits for an entry of the store buffer. -/
def held (prod : Bool) (cond : List RelCond) : State := filling.modMyCore (fun k => { k with
  strands := k.strands.set 0 { k.strands[(0 : Fin 11)] with buf := [{ id := 5, op := .store }] }
  cist := k.cist.set 2 { k.cist[(2 : Fin 16)] with held := [⟨7, prod, 1, cond, none⟩, ⟨8, prod, 2, [.now], none⟩] } })

theorem witness_CisternReleases : (∀ b : Bool, (((held b [.now]).core 1).cist[(2 : Fin 16)].held = ⟨7, b, 1, [.now],
    none⟩ :: [⟨8, b, 2, [.now], none⟩]) ∧
      (∀ y ∈ [(⟨8, b, 2, [.now], none⟩ : Held)], y.id ≠ 7) ∧
      (∀ e : Fin 16, e ≠ 2 → ∀ y ∈ ((held b [.now]).core 1).cist[e].held, y.id ≠ 7) ∧
      [RelCond.now].all ((held b [.now]).condMet 1) = true) ∧
    ([RelCond.stores 0 [5]].all ((held true [.stores 0 [5]]).condMet 1) = false) ∧
    ((held true [.stores 0 [5]]).core 1).cist[(2 : Fin 16)].held.head? = some ⟨7, true, 1, [.stores 0 [5]], none⟩ := by
  decide +kernel

def cistOf (o : Host.Outcome State Fault Refusal) (c : Fin 16) : Option Cistern :=
  match o with
  | .next t => some (t.core 1).cist[c]
  | _ => none

/-- R154 to R159: the pointers wrap; the slots change hands at the release; `cstat` shows them. -/
theorem test_cisterns :
    cistOf (exec (.cdef g0 3 4 0xFFFF0 3 15) filling) 3 = some ⟨true, 0x220, 64, 16, 0, 0, 0, 16, []⟩ ∧
    ((cistOf (exec (.cadvCons g0 2 (.reg 6)) filling) 2).map (fun x => (x.cp, x.filled, x.free)) = some (2, 0, 4)) ∧
    ((cistOf (exec (.cadvProd g0 2 (.imm 4)) filling) 2).map (fun x => (x.pp, x.filled, x.free)) = some (2, 3, 0)) ∧
    ((cistOf (exec (.cisternRelease 1 7) (held true [.now])) 2).map (fun x => (x.filled, x.free)) = some (4, 4)) ∧
    ((cistOf (exec (.cisternRelease 1 7) (held false [.now])) 2).map (fun x => (x.filled, x.free)) = some (3, 5)) ∧
    leaves' (.cstat g0 3 2) filling 3 = some 0x8007000600040003 ∧ leaves' (.cstat g0 3 3) filling 3 = some 0 ∧
    trapsWith (.cadvCons g0 2 (.imm 9)) filling = some (0x18, 0x100) ∧
        trapsWith (.cwaitProd g0 3 (.imm 1)) filling = some (0x19, 0) ∧
    (match exec (.cadvCons g0 2 (.imm 4)) filling with | .next t => t.me.blk == 2 | _ => false) = true ∧
    (match exec (.cwaitProd g0 2 (.imm 5)) filling with | .next t => t.me.blk == 5 | _ => false) = true := by decide +kernel

/-- Port 1 is bound by this strand to `v6`, port 2 by another one. -/
def bound : State := demo.modMyCore (fun k => { k with
  ports := (k.ports.set 1 (some ⟨0, 6, .i16, false, 0x100, 2, 8, 16, 2, 0, [], 0, 0⟩)).set 2
    (some ⟨3, 6, .i16, false, 0x100, 2, 8, 16, 2, 0, [], 0, 0⟩) })

theorem witness_StreamPorts : bound.me.guardOn g0 = true ∧
    (∀ p, (bound.core 1).ports[(1 : Fin 4)] = some p → p.strand = bound.cur.2) ∧
    (∀ (r : Fin 4) p, r ≠ 1 → (bound.core 1).ports[r] = some p → ¬ (p.strand = bound.cur.2 ∧ p.d = 6)) ∧
    (((bound.core 1).ports[(2 : Fin 4)]).isSome = true ∧ ∀ p, (bound.core 1).ports[(2 : Fin 4)] = some p →
        p.strand ≠ bound.cur.2) ∧
    ((∀ p, (bound.core 1).ports[(0 : Fin 4)] = some p → p.strand = bound.cur.2) ∧
      ∀ (j : Fin 4) p', j ≠ 1 → (bound.core 1).ports[j] = some p' → ¬ (p'.strand = bound.cur.2 ∧ p'.d = 6)) := by
  have h : (bound.core 1).ports.toList = [none, some ⟨0, 6, .i16, false, 0x100, 2, 8, 16, 2, 0, [], 0, 0⟩,
    some ⟨3, 6, .i16, false, 0x100, 2, 8, 16, 2, 0, [], 0, 0⟩, none] := by decide +kernel
  have h1 : (bound.core 1).ports[(1 : Fin 4)] = some ⟨0, 6, .i16, false, 0x100, 2, 8, 16, 2, 0, [], 0, 0⟩ := by decide +kernel
  have h2 : (bound.core 1).ports[(2 : Fin 4)] = some ⟨3, 6, .i16, false, 0x100, 2, 8, 16, 2, 0, [], 0, 0⟩ := by decide +kernel
  have h0 : (bound.core 1).ports[(0 : Fin 4)] = none := by decide +kernel
  have h3 : (bound.core 1).ports[(3 : Fin 4)] = none := by decide +kernel
  have hc : bound.cur.2 = 0 := rfl
  have others : ∀ (r : Fin 4) p, r ≠ 1 → (bound.core 1).ports[r] = some p → ¬ (p.strand = bound.cur.2 ∧ p.d = 6) := by
    intro r p hr hp
    rcases r with ⟨_ | _ | _ | _ | n, hn⟩
    · exact absurd (h0.symm.trans hp) (by simp)
    · exact absurd rfl hr
    · cases h2.symm.trans hp
      simp [hc]
    · exact absurd (h3.symm.trans hp) (by simp)
    · omega
  refine ⟨by decide +kernel, ?_, others, ⟨by rw [h2]; rfl, ?_⟩, fun p hp => by simp [h0] at hp, others⟩
  · intro p hp
    rw [h1] at hp
    cases hp
    rfl
  · intro p hp
    rw [h2] at hp
    cases hp
    simp [hc]

theorem test_streams :
    (match exec (.sbind g0 0 7 4 true .f32 0x10 1 63 0xFFFF 3) sums with
      | .next t => (t.core 1).ports[(0 : Fin 4)] == some ⟨0, 7, .f32, true, 0x90, 1, 64, 0xFFFF, 4, 0, [], sums.nextId, 0x10⟩
      | _ => false) = true ∧
    (match exec (.sunbind g0 1) bound with | .next t => (t.core 1).ports[(1 : Fin 4)] == none | _ => false) = true ∧
    trapsWith (.sunbind g0 2) bound = some (0x1A, 0) ∧
    trapsWith (.sbind g0 0 6 4 true .f32 0x10 1 63 0xFFFF 3) bound = some (0x1B, 0) := by decide +kernel

/-- The strand asks to send to logical core 1, which is core 2, or to 2, which is none. -/
def mailing : State := holding inContext [(4, 1), (5, 2), (6, 0x40)]
def mailed : State := mailing.modMe (fun t => { t with wait := .send 5, waitAt := t.pc })

theorem witness_MessagesSent : mailing.me.guardOn g0 = true ∧ mailing.me.wait = .none ∧
    (match mailing.coreEntry mailing.myCore.ctx (mailing.me.rg 5).toNat with | .ok none => true | _ => false) = true ∧
    (match mailing.coreEntry mailing.myCore.ctx (mailing.me.rg 4).toNat with | .ok (some 2) => true | _ => false) = true ∧
    unpaired mailing mailing.cur.1 ∧
    (let locs := (List.range 32).map (fun j => (mailing.core 1).lsLoc (0x40 + j))
     mailing.myCore.touched locs = none ∧ ∀ l ∈ locs, l.at' = .ls ∧ mailing.myCore.bad.contains (l.addr / 8) = false) ∧
    mailing.me.buf = [] ∧ mailing.me.loads = [] ∧ mailed.me.wait = .send 5 ∧ mailed.me.waitAt = mailed.me.pc ∧
        mailed.me.buf = [] ∧ mailed.myCore.outq = [] := by
  unfold unpaired
  decide +kernel

/-- A message of tag 9 from logical core 1 heads the queue; one of a core of the other mode; a packet's. -/
def receiving (m : Msg) : State := mailing.modMyCore (fun k => { k with rq := m :: List.replicate 31 {}, ovf := [{ tag := 4 }] })
def note : Msg := { tag := 9, src := 1, data := List.replicate 32 7 }

theorem witness_MessagesReceived : (demo.core 1).rq = [] ∧ (demo.core 1).ovf = [] ∧
    ((receiving note).core 1).rq = note :: List.replicate 31 {} ∧
    ({ note with mode := true }.kind = 0 ∧ { note with mode := true }.mode ≠ ((receiving { note with mode := true }).core 1).e4m3) ∧
    (note.kind ≠ 0 ∨ note.mode = ((receiving note).core 1).e4m3) ∧
    ((receiving note).core 1).touched ((List.range 32).map (fun j => ((receiving note).core 1).lsLoc (0x40 + j))) = none ∧
    (receiving note).me.bufCount < 16 ∧
    (let s := receiving note; (s.core 1).ovf ≠ [] ∧
        s.overflowFault (s.core 1).ctx false (s.core 1).lnum.toNat 0 = none) := by decide +kernel

theorem test_messages :
    trapsWith (.send g0 5 6 0 9) mailing = some (0x2A, 0) ∧
    (match exec (.send g0 4 6 0 9) mailing with
      | .next t => !t.retired && t.me.buf.length == 1 && t.me.pc == 0x1000
      | _ => false) = true ∧
    goesTo (.send g0 4 6 0 9) mailed = some 0x1008 ∧
    leaves' (.recv g0 3 6 0) (receiving note) 3 = some 0x90001 ∧
    (match exec (.recv g0 3 6 0) (receiving note) with
      | .next t => (t.core 1).rq.getLast? == some { tag := 4 } && (t.core 1).ovf.isEmpty && t.me.buf.length == 1
      | _ => false) = true ∧
    trapsWith (.recv g0 3 6 0) (receiving { note with mode := true }) = some (0x28, 0) ∧
    (match exec (.recv g0 3 6 0) demo with | .next t => t.me.blk == 3 | _ => false) = true ∧
    leaves' (.rpoll g0 3) (receiving note) 3 = some 33 := by decide +kernel

/-! ### Vectors -/

theorem unbound_of {s : State} (h : ∀ q : Fin 4, s.myCore.ports[q] = none) (n : Fin 16) : unbound s n := by
  intro q p hp
  rw [h q] at hp
  cases hp

theorem calm_of {s : State} (h : s.me.buf = []) (w : ∀ i : Fin 8, s.myCore.wins[i] = none) : calm s := by
  refine ⟨h, fun i x hx => ?_⟩
  rw [w i] at hx
  cases hx

/-- Every lane of `v1`, `v2` and `v3` holds another value; `p3` selects the even lanes. -/
def lanes : State := (holding demo [(4, 0x40), (5, 0x1100), (6, 0xFFFFFFFF80000000)]).modMe (fun t => { t with
  p := t.p.set 3 0x5555
  v := ((t.v.set 1 (Vector.ofFn (fun i : Fin 16 => BitVec.ofNat 32 (0x7FFFFFFF + i.val)))).set 2
    (Vector.ofFn (fun i : Fin 16 => BitVec.ofNat 32 (i.val + 1)))).set 3
    (Vector.ofFn (fun i : Fin 16 => [0x3F800000, 0x40000000, 0xBF800000, 0x7F800000, 0xFF800000, 0x7FC00000, 0x7F800001, 0,
      0x80000000, 0x00000001, 0x7F7FFFFF, 0x3E800000, 0x42FE0000, 0x4B000001, 0xC2FF0000, 0x33800000][i])) })

def evens : Guard := ⟨3, false⟩

theorem lanes_calm : calm lanes := calm_of (by decide +kernel) (by decide +kernel)
theorem lanes_unbound (n : Fin 16) : unbound lanes n := unbound_of (by decide +kernel) n

theorem witness_LaneResults : isLaneTy .f32 ∧ calm lanes ∧ (∀ n, unbound lanes n) ∧
    (VBin.mk evens (.v 15) (.v 0) (.vec (.v 3)) .f32 false .rup none).d = .v 15 ∧
    (active lanes evens 0 = true ∧ active lanes evens 15 = false) :=
  ⟨.inr (.inr rfl), lanes_calm, lanes_unbound, rfl, by decide +kernel⟩

theorem witness_DotProductsAndConversions : calm lanes ∧ (∀ n, unbound lanes n) ∧
    (Ty.n16 ∈ ([.i4, .i8, .n4, .n8, .i16, .n16] : List Ty)) ∧ (Ty.n32 ∈ ([.i8, .i16, .i32, .n8, .n16, .n32] : List Ty)) ∧
    (floatOf false .e2m1).isSome = true ∧ (floatOf true .e4m3).isSome = true := by
  refine ⟨lanes_calm, lanes_unbound, ?_, ?_, ?_, ?_⟩ <;> decide +kernel

theorem witness_SpecialFunctions : calm lanes ∧ unbound lanes 15 ∧ unbound lanes 0 ∧ (Instr.ferf, 11) ∈ specials.zipIdx ∧
    (fp32.value 0x7F800001).isNan = true ∧ (0x42B17218 ≤ (0x7F7FFFFF : Lane).toNat ∧ (0x7F7FFFFF : Lane).toNat < 0x7F800000) ∧
    (0xC2AEAC50 ≤ (0xFF7FFFFF : Lane).toNat ∧ (0xFF7FFFFF : Lane).toNat < 0xFF800000) ∧
    (0x80800000 ≤ (0xFF800000 : Lane).toNat ∧ (0xFF800000 : Lane).toNat ≤ 0xFF800000) ∧
    ((0x80000001 : Lane).toNat % 2 ^ 31 < 0x00800000) ∧
    ((0x00200001 : Lane).toNat % 2 ^ 31 < 0x7F800000 ∧ (0x00200001 : Lane).toNat < 2 ^ 31 ∧
      0x00200000 < (0x00200001 : Lane).toNat % 2 ^ 31) :=
  ⟨lanes_calm, lanes_unbound 15, lanes_unbound 0, by simp [specials], by decide +kernel⟩

/-- R133: rows of the table, both grades: the place of the function, the operand, the result, the flag. -/
theorem test_special_rows : ([(0, 0x80000000, 0x3F800000, 0), (0, 0x42B17218, 0x7F800000, fOF), (1, 0x80000000, 0xFF800000, fDZ),
    (1, 0xBF800000, 0x7FC00000, fNV), (2, 0xFF800000, 0x80000000, 0), (3, 0x80000000, 0xFF800000, fDZ), (3, 0x7F800000, 0, 0),
    (4, 0x80000000, 0x80000000, 0), (5, 0xFF800000, 0x7FC00000, fNV), (6, 0x80000000, 0x3F800000, 0), (7, 0xFF800000, 0xBF800000, 0),
    (8, 0x80000000, 0x3F000000, 0), (9, 0xFF800000, 0x80000000, 0), (10, 0x80000000, 0x80000000, 0), (11, 0x7F800001, 0x7FC00000, fNV)]
      : List (Nat × Lane × Lane × Flags)).all (fun x =>
        [true, false].all (fun g => specialOp x.1 g x.2.1 == (x.2.2.1, x.2.2.2))) = true ∧
    (specialOp 0 true 0xC2AEAC50).2 = fUF ∧ (specialOp 0 false 0xC2AEAC50).2 = 0 ∧
    specialOp 2 false 1 = (0x7F800000, fDZ) := by decide +kernel

/-- R64: 1 and 1.5 units of the last place between two FP32 codes. -/
theorem witness_RoundingBrackets : ∃ f, floatOf false .f32 = some f ∧ 0 < 3 ∧ 0 < 2 ∧
    (match f.value f.top with | .num _ n x _ => decide (3 ≤ n * 2 ^ x.toNat) | _ => false) = true := by
  refine ⟨_, rfl, by decide, by decide, by decide +kernel⟩

/-- R132: e, sin 1, ln 2, tanh 1 and erf 1 rounded to FP32 lie within the accurate grade; three units off do not. -/
theorem test_special_bounds : withinFix 0 true 0x3F800000 0x402DF854 = true ∧ withinFix 0 true 0x3F800000 0x402DF857 = false ∧
    withinFix 5 true 0x3F800000 0x3F576AA4 = true ∧ withinFix 1 true 0x40000000 0x3F317218 = true ∧
    withinFix 7 true 0x3F800000 0x3F42F7D6 = true ∧ withinFix 11 true 0x3F800000 0x3F57BB3D = true ∧
    withinFix 11 true 0x3F800000 0x3F57BB40 = false := by decide +kernel

/-- What the lanes of a register hold after one step. -/
def vecAfter (i : Instr) (s : State) (d : Fin 16) : Option (List Nat) :=
  match exec i s with
  | .next t => if t.retired then some ((t.me.rv d).toList.map BitVec.toNat) else none
  | _ => none

/-- R49, R119 to R127, on the first six lanes: a wrap, a saturation, the inactive lanes, NaNs, an infinity, a
permutation, a sum in lane 0. -/
theorem test_vector_results : ([
    (.vadd ⟨g0, .v 5, .v 1, .vec (.v 2), .i32, false, .rne, none⟩, [0x80000000, 0x80000002, 0x80000004, 0x80000006,
        0x80000008, 0x8000000A]),
    (.vadd ⟨evens, .v 5, .v 1, .vec (.v 2), .i32, true, .rne, none⟩, [0x7FFFFFFF, 0, 0x80000004, 0, 0x80000008, 0]),
    (.vsub ⟨g0, .v 5, .v 2, .scal 4, .n32, true, .rne, none⟩, [0, 0, 0, 0, 0, 0]),
    (.vmul ⟨g0, .v 5, .v 2, .vec (.v 1), .n32, false, .rne, none⟩, [0x7FFFFFFF, 0, 0x80000003, 8, 0x8000000F, 24]),
    (.vadd ⟨g0, .v 5, .v 3, .vec (.v 3), .f32, false, .rne, none⟩, [0x40000000, 0x40800000, 0xC0000000, 0x7F800000,
        0xFF800000, 0x7FC00000]),
    (.vmin ⟨g0, .v 5, .v 2, .scal 6, .i32, false, .rne, none⟩, [0x80000000, 0x80000000, 0x80000000, 0x80000000,
        0x80000000, 0x80000000]),
    (.vmax ⟨g0, .v 5, .v 3, .vec (.v 9), .f32, false, .rne, none⟩, [0x3F800000, 0x40000000, 0, 0x7F800000, 0, 0]),
    (.vabs ⟨g0, .v 5, .v 3, .f32, false, none⟩, [0x3F800000, 0x40000000, 0x3F800000, 0x7F800000, 0x7F800000, 0x7FC00000]),
    (.vneg ⟨g0, .v 5, .v 1, .i32, true, none⟩, [0x80000001, 0x7FFFFFFF, 0x7FFFFFFF, 0x7FFFFFFE, 0x7FFFFFFD, 0x7FFFFFFC]),
    (.vfma ⟨g0, .v 5, .v 3, .vec (.v 3), .v 3, .rne, none⟩, [0x40000000, 0x40C00000, 0, 0x7F800000, 0x7FC00000, 0x7FC00000]),
    (.vshl ⟨g0, .v 5, .v 2, .scal 4, .i8, false, .rne, none⟩, [1, 2, 3, 4, 5, 6]),
    (.vsar ⟨g0, .v 5, .v 1, .vec (.v 2), .i8, false, .rne, none⟩, [0x3FFFFFFF, 0xE0000000, 0xF0000000, 0xF8000000,
        0xFC000000, 0xFE000000]),
    (.vsel g0 (.v 5) (.v 2) (.v 1) 3 none, [1, 0x80000000, 3, 0x80000002, 5, 0x80000004]),
    (.vperm g0 (.v 5) (.v 1) (.v 2) none, [0x80000000, 0x80000001, 0x80000002, 0x80000003, 0x80000004, 0x80000005]),
    (.vbcast g0 (.v 5) (.lane (.v 2) 15) none, [16, 16, 16, 16, 16, 16]),
    (.vsum evens (.v 5) (.v 2) .i32 false .rne none, [64, 0, 0, 0, 0, 0]),
    (.vdot g0 (.v 5) (.v 2) (.vec (.v 1)) .i8 true none, [0xFFFFFFFF, 0, 3, 8, 15, 24]),
    (.vcvt evens (.v 5) (.v 3) .f32 .i32 .rne none, [1, 0, 0xFFFFFFFF, 0, 0x80000000, 0]),
    (.vmov evens (.fromG (.v 5) 4 1) none, [0, 0, 0, 0, 0, 0])]
      : List (Instr × List Nat)).all (fun x => (vecAfter x.1 lanes 5).map (fun y => y.take 6) == some x.2) = true := by
  decide +kernel

/-- R122, R125: a predicate takes the bits of the active lanes; a g register takes one lane. -/
theorem test_vector_others :
    (match exec (.vcmp evens 2 (.v 2) (.scal 6) .gt .i32 none) lanes with | .next t => t.me.rp 2 == 0x5555 | _ => false) = true ∧
    leaves' (.vmov g0 (.toG 7 (.v 1) 15) none) lanes 7 = some 0x8000000E ∧
    (vecAfter (.fexp ⟨g0, .v 5, .v 3, true, none⟩) (lanes.modMe (fun t => { t with v := t.v.set 3 (.replicate 16 0xFF800000) })) 5)
      = some (List.replicate 16 0) ∧
    (match exec (.frcp ⟨g0, .v 5, .v 9, false, none⟩) lanes with | .next t => t.me.fflags == fDZ | _ => false) = true := by
  decide +kernel

/-- R86: conversions between the floating types; the largest and smallest codes. -/
theorem test_vcvt : ([(.f32, .bf16, 10, 0x7F80), (.f32, .e4m3, 10, 0x7E), (.f32, .f16, 13, 0x7C00), (.f32, .e2m1, 0, 2),
    (.f32, .n8, 12, 127),
    (.f32, .n8, 14, 0), (.f32, .i8, 14, 0x80 + 0xFFFFFF00)] : List (Ty × Ty × Nat × Nat)).all (fun x =>
      ((vecAfter (.vcvt g0 (.v 5) (.v 3) x.1 x.2.1 .rne none) lanes 5).map (fun y => y.getD x.2.2.1 0)) == some x.2.2.2) = true := by
  decide +kernel

/-! ### Streams and cisterns as vector operands; vector loads and stores -/

theorem unbound_of_all {s : State} {n : Fin 16}
    (h : ∀ q : Fin 4, (s.myCore.ports[q]).all (fun p => !(p.strand == s.cur.2 && p.d == n)) = true) : unbound s n := by
  intro q p hp hc
  have := h q
  rw [hp] at this
  simp [hc.1, hc.2] at this

theorem canRead_of {s : State} {cq : Option CQual} {n : Fin 16}
    (h : (s.myCore.portOf s.cur.2 n).all (fun x => !x.2.wr) = true) : canRead s cq (.v n) := by
  intro q p hp
  rw [hp] at h
  simpa using h

/-- `v6` is bound to a read stream of 15 elements with one read ahead, `v7` to a write stream of 5 nibbles per row;
cistern 2 has 3 slots of 32 bytes filled and 4 free, its pointers at the last slot. -/
def formed : State := (lanes.modMyCore (fun k => { k with
  ls := placeAt 0x100 ((List.range 96).map (fun i => BitVec.ofNat 8 (i / 8 + 0x21))) ++
    placeAt 0x1E0 ((List.range 32).map (fun i => BitVec.ofNat 8 (i / 8 + 0x3D)))
  ports := (k.ports.set 1 (some ⟨0, 6, .i16, false, 0x100, 2, 5, 16, 3, 0, [0xFFFF8000], 0, 0⟩)).set 2
    (some ⟨0, 7, .n4, true, 0x3F0, 1, 5, 8, 3, 2, [], 0, 0⟩)
  cist := k.cist.set 2 ⟨true, 0x100, 32, 8, 7, 7, 3, 4, []⟩ }))

theorem formed_calm : calm formed := calm_of (by decide +kernel) (by decide +kernel)

theorem witness_SourceForms : isLaneTy .i32 ∧ calm formed ∧ formed.myCore.bad = [] ∧ unpaired formed formed.cur.1 ∧ unbound formed 15 ∧
    canRead formed (some ⟨1, true⟩) (.v 6) ∧ canRead formed (some ⟨1, true⟩) (.v 1) ∧
    canRead formed (some ⟨1, true⟩) (.c 2) :=
  ⟨.inl rfl, formed_calm, by decide +kernel, by unfold unpaired; decide +kernel, unbound_of_all (by decide +kernel), canRead_of (by decide +kernel),
    canRead_of (by decide +kernel), by decide +kernel, by decide +kernel⟩

theorem witness_VectorDestinations_cistern : calm formed ∧ unbound formed 1 ∧ unbound formed 2 ∧
    (let z := (formed.core 1).cist[(2 : Fin 16)]
     z.defined = true ∧ waitOf (some ⟨3, true⟩) ≤ z.free ∧ z.free ≤ z.n ∧ 0 < z.slot ∧
      z.base.toNat + z.n * z.slot ≤ 4096 * (formed.core 1).size.toNat ∧
      4096 * (formed.core 1).size.toNat ≤ 2 ^ ((formed.core 1).lspan.toNat + 12)) :=
  ⟨formed_calm, unbound_of_all (by decide +kernel), unbound_of_all (by decide +kernel), by decide +kernel⟩

/-- The write stream stands behind its last element. -/
def written : State := formed.modMyCore (fun k => { k with
  ports := k.ports.set 2 (some ⟨0, 7, .n4, true, 0x3F0, 1, 5, 8, 3, 15, [], 0, 0⟩) })

theorem witness_VectorDestinations_misuse : calm written ∧
    (formed.myCore.portOf formed.cur.2 7).map (fun x => (x.1, x.2.wr)) = some (2, true) ∧
    (written.myCore.portOf written.cur.2 7).map (fun x => (x.1, x.2.wr, x.2.pos)) = some (2, true, 5 * 3) ∧
    (formed.myCore.portOf formed.cur.2 1).isNone = true :=
  ⟨calm_of (by decide +kernel) (by decide +kernel), by decide +kernel⟩

/-- R136: a write stream as a source, and a write after its last element. -/
theorem test_stream_misuse : trapsWith (.vadd ⟨g0, .v 5, .v 1, .vec (.v 7), .i32, false, .rne, none⟩) formed = some (0x1B, 0) ∧
    trapsWith (.vadd ⟨g0, .v 5, .v 7, .vec (.v 1), .i32, false, .rne, none⟩) formed = some (0x1B, 0) ∧
    trapsWith (.vadd ⟨g0, .v 7, .v 1, .vec (.v 1), .i32, false, .rne, none⟩) written = some (0x1B, 0) := by decide +kernel

theorem witness_VectorDestinations_stream : calm formed ∧
    formed.myCore.portOf formed.cur.2 7 = some (2, ⟨0, 7, .n4, true, 0x3F0, 1, 5, 8, 3, 2, [], 0, 0⟩) ∧ Ty.n4.bits ≤ 32 ∧
    2 < 5 * 3 ∧ unbound formed 1 ∧ unbound formed 2 ∧
    (∃ l, (active formed g0 l && decide (2 + l.val < 5 * 3)) = true) ∧
        (∃ l, (active formed g0 l && decide (2 + l.val < 5 * 3)) = false) ∧
    (formed.myCore.portOf formed.cur.2 6).map (fun x => (x.1, x.2.wr)) = some (1, false) := by
  refine ⟨formed_calm, ?_, ?_, ?_, unbound_of_all (by decide +kernel), unbound_of_all (by decide +kernel), ⟨12, ?_⟩,
    ⟨13, ?_⟩, ?_⟩ <;> decide +kernel

/-- R118, R135, R155: lanes 0 to 3 and 15 of a stream read ahead by one, and of two slots of a cistern that wrap. -/
theorem test_source_forms :
    ((vecAfter (.vmov g0 (.vec (.v 5) (.v 6)) none) formed 5).map (fun y => [y.getD 0 0, y.getD 1 0, y.getD 5 0, y.getD 15 0]))
      = some [0xFFFF8000, 0x2121, 0x2525, 0] ∧
    ((vecAfter (.vmov g0 (.vec (.v 5) (.c 2)) (some ⟨1, true⟩)) formed 5).map (fun y => [y.getD 0 0, y.getD 7 0,
        y.getD 8 0, y.getD 15 0]))
      = some [0x3D3D3D3D, 0x40404040, 0x21212121, 0x24242424] ∧
    trapsWith (.vmov g0 (.vec (.v 6) (.v 1)) none) formed = some (0x1B, 0) := by decide +kernel

/-- R81, R118, R136: a write stream of nibbles, two to a byte; the slots of a cistern under a guard. -/
theorem test_destination_forms :
    (match exec (.vmov g0 (.vec (.v 7) (.v 2)) none) formed with
      | .next t => t.me.buf.map (fun e => (e.bytes.map (fun x => (x.1.addr, x.2))).take 3) == [[(0x3F1, 0x21), (0x3F2,
          0x03), (0x3F4, 0x54)]]
      | _ => false) = true ∧
    (match exec (.vmov evens (.vec (.c 2) (.v 2)) (some ⟨1, true⟩)) formed with
      | .next t => memRead (t.core 1).ls 0x1E0 8 == [1, 0, 0, 0, 0x3D, 0x3D, 0x3D,
          0x3D] && memRead (t.core 1).ls 0x100 4 == [9, 0, 0, 0] &&
          (t.core 1).cist[(2 : Fin 16)].pp == 1 && (t.core 1).cist[(2 : Fin 16)].free == 2
      | _ => false) = true := by decide +kernel

theorem lanePlaces_page (s : State) (w : Bool) (ty : Ty) (on : List (Fin 16)) (ea : Fin 16 → Word)
    (h : ∀ l ∈ on, Grants s page (ea l) w ∧ (ea l).toNat % elSize ty = 0 ∧ Sound s (page.phys (ea l).toNat)) :
    lanePlaces s false w ty on ea (fun l => (List.range (elSize ty)).map (fun j => ⟨.mem .hub, page.phys (ea l).toNat + j⟩)) :=
  ⟨fun _ => page, fun l hl => ⟨(h l hl).1, (h l hl).2.1, fun _ => (h l hl).2.2, rfl⟩⟩

theorem grants_page {s : State} {ea : Word} {w : Bool} (h : (decide (ea.toNat < fixedBase) && (s.rangeOf s.myCore.ctx ea.toNat).isNone &&
    (s.myCore.utlb.find? (fun x => x.covers s.myCore.ctx ea.toNat) == some page)) = true) : Grants s page ea w := by
  simp only [Bool.and_eq_true, decide_eq_true_eq, Option.isNone_iff_eq_none, beq_iff_eq] at h
  exact ⟨h.1.1, h.1.2, h.2, .inl (by decide +kernel), by cases w <;> decide +kernel, by decide +kernel⟩

/-- A load of 16 words from the end of the page: the last lane lies at its last word. -/
def vmemAt : State := lanes.modMe (fun t => { t with g := t.g.set 5 0x1FC0 })

theorem witness_VectorAccesses : calm vmemAt ∧ plainLoad .rlx ∧ Order.rel ≠ .sc ∧ Ty.f32.bits ≤ 32 ∧ vmemAt.me.dropped = none ∧
    (∀ n, unbound vmemAt n) ∧
    (let ea := fun l : Fin 16 => vmemAt.me.rg 5 + (Disp.d16 0).val + BitVec.ofNat 64 (l.val * Ty.f32.bits / 8)
     (∃ p, lanePlaces vmemAt false false .f32 (lanesOn vmemAt g0) ea p) ∧
         ∃ p, lanePlaces vmemAt false true .f32 (lanesOn vmemAt g0) ea p) ∧
    (let ea := fun l : Fin 16 => vmemAt.me.rg 4 + ((vmemAt.me.rv 2)[l].setWidth 64 <<< (2 : Fin 4).val) + (Disp.d16 0x1000).val
     (∃ p, lanePlaces vmemAt false false .f32 (lanesOn vmemAt evens) ea p) ∧
         ∃ p, lanePlaces vmemAt false true .f32 (lanesOn vmemAt evens) ea p) ∧
    lanesOn vmemAt evens ≠ [] ∧
    (∀ ea, ∃ p, lanePlaces vmemAt true true .n4 (lanesOn vmemAt g0) ea p) ∧
    ((formed.myCore.cist[(2 : Fin 16)]).defined = true ∧ waitOf (some ⟨3, true⟩) ≤ (formed.myCore.cist[(2 : Fin 16)]).free) := by
  have hg : ∀ (w : Bool) (ea : Word), (decide (ea.toNat < fixedBase) && (vmemAt.rangeOf vmemAt.myCore.ctx ea.toNat).isNone &&
      (vmemAt.myCore.utlb.find? (fun x => x.covers vmemAt.myCore.ctx ea.toNat) == some page)) = true → Grants vmemAt page ea w :=
    fun w ea h => grants_page h
  have hs : (vmemAt.cluster (vmemAt.cur.1 / 36)).inject.getLsbD 63 = false := by decide +kernel
  have hc : calm vmemAt := calm_of (by decide +kernel) (by decide +kernel)
  refine ⟨hc, .inr (.inl rfl), ?_, ?_, ?_, unbound_of (by decide +kernel), ?shifted, ?scaled, ?_, fun ea => ⟨_,
      fun _ => rfl⟩, ?_, ?_⟩
  case shifted | scaled =>
    refine ⟨⟨_, lanePlaces_page _ _ _ _ _ fun l _ => ?_⟩, ⟨_, lanePlaces_page _ _ _ _ _ fun l _ => ?_⟩⟩ <;>
      exact ⟨hg _ _ (by revert l; decide +kernel), by revert l; decide +kernel, by revert l; decide +kernel, hs⟩
  all_goals decide +kernel

/-- R128 to R130: one load per active lane in lane order; one entry of the buffer with the active lanes' bytes. -/
theorem test_vector_memory :
    (match exec (.vld ⟨evens, .v 5, 5, .d16 0, false, .f32, .plain, .str, none⟩) vmemAt with
      | .next t => t.me.loads.map (fun l => l.va.toNat) == [0x1FC0, 0x1FC8, 0x1FD0, 0x1FD8, 0x1FE0, 0x1FE8, 0x1FF0, 0x1FF8]
      | _ => false) = true ∧
    (match exec (.vst ⟨g0, .v 2, 4, .d16 0, true, .n4, .plain, .str, none⟩) vmemAt with
      | .next t => t.me.buf.map (fun e => e.bytes.map (fun x => (x.1.addr, x.2))) ==
          [[(0x40, 0x21), (0x41, 0x43), (0x42, 0x65), (0x43, 0x87), (0x44, 0xA9), (0x45, 0xCB), (0x46, 0xED), (0x47, 0x0F)]]
      | _ => false) = true ∧
    (match exec (.vscat ⟨evens, .v 1, 4, .v 2, 2, .d16 0x1000, false, .i16, .plain, .str, none⟩) vmemAt with
      | .next t => (t.me.buf.map (fun e => (e.va.toNat, e.bytes.map Prod.snd))).take 2 == [(0x1044, [0xFF, 0xFF]),
          (0x104C, [0x01, 0])]
      | _ => false) = true ∧
    (match exec (.vgath ⟨evens, .v 1, 4, .v 2, 2, .d16 0x1000, false, .i16, .plain, .str, none⟩) vmemAt with
      | .next t => t.me.loads.length == 8 && t.me.buf.isEmpty
      | _ => false) = true := by decide +kernel

/-! ### The Stalagmite engine -/

/-- An L2 record: codes 0, 1, 2, 3 over and over, scale 2^0, levels -2, -1, 0 and 1 (R71, R72). -/
def record2 : List Byte := List.replicate 32 0xE4 ++ [127, 0xFE, 0x11, 0x31] ++ List.replicate 12 0

/-- An activation group of `i8`: 0, 1, 2, 3 over and over, scale 2^0 (R75). -/
def group8 : List Byte := (List.range 128).map (fun i => BitVec.ofNat 8 (i % 4)) ++ [127]

theorem witness_SummationByParts : record2.length = Fmt.l2.bytes ∧ (ladderOf .l2 record2).malformed = false ∧
    group8.length = 129 ∧ (group8.getD 128 0).toNat ≠ 255 ∧ ((group8.take 128 ++ [255]).length = 129 ∧
      ((group8.take 128 ++ [255]).getD 128 0).toNat = 255) ∧
    ∃ fl, floatOf false .e4m3 = some fl ∧ (group8.take 128).length = 128 ∧
      (∀ i, i < 128 → (fl.value (group8.getD i 0).toNat).isNan = false ∧ (fl.value (group8.getD i 0).toNat).isInf = false) ∧
      (fl.value (0x7F : Byte).toNat).isNan = true := by
  refine ⟨?_, ?_, ?_, ?_, ?_, _, rfl, ?_, ?_, ?_⟩ <;> decide +kernel

/-- R169: 32 times 0·-2 + 1·-1 + 2·0 + 3·1. -/
theorem test_contribution : contribution .l2 .i8 false group8 record2 = (XReal.ofInt 64).shift 0 ∧
    (ladderOf .l2 (record2.set 33 0x80)).malformed = false ∧ (ladderOf .l2 (record2.set 35 0x21)).malformed = true ∧
    (ladderOf .l2 (record2.set 40 1)).malformed = true := by decide +kernel

/-- The group stands at 0x100, the record at 0x200 and 0x230, 128 bytes of `i8` at 0x100 too; table 2 and 3 hold its plan;
vein 5 holds 7 at anchor 0, with `vx`. -/
def engined : State := (holding demo [(4, 0x100), (5, 0x200), (6, 0x201), (7, 0x400), (8, 512), (9,
    511)]).modMyCore (fun k => { k with
  ls := (placeAt 0x100 group8 ++ placeAt 0x200 (record2 ++ record2)).filter (fun x => x.2 != 0)
  tabs := (k.tabs.set 2 ⟨true, planOf .l2 ((List.range 128).map (fun i => i % 4))⟩).set 3
    ⟨true, planOf .l2 ((List.range 128).map (fun i => i % 4))⟩
  veins := k.veins.set 5 ⟨7 * 2 ^ 64, 0, true, false⟩ })

theorem engineFree_of {s : State} (h : calm s) (h' : (∀ p ∈ s.pairs, p.leader ≠ s.cur.1) ∧ (s.core s.cur.1).bad = [] ∧
    (s.cluster (s.cur.1 / 36)).inject.getLsbD 63 = false ∧ (s.core s.cur.1).eq0.length < 32 ∧
    (s.core s.cur.1).eq0.all (fun o => !o.kind.writesLs) = true ∧ (s.core s.cur.1).err[(0 : Fin 4)] = none) : engineFree s :=
  ⟨h, h'⟩

theorem engined_free : engineFree engined := engineFree_of (calm_of (by decide +kernel) (by decide +kernel)) (by decide +kernel)

theorem witness_EngineReads : engined.me.guardOn g0 = true ∧ engineFree engined ∧ engineReady engined none false (.ls 5) ∧
    engineBase engined false (.ls 4) % 16 = 0 ∧ engineBase engined false (.ls 5) % 16 = 0 ∧
    (ladderOf .l2 (engineBytes engined none (.ls 5) 0 48)).malformed = false ∧
    (let t := (engined.core 1).tabs[(2 : Fin 8)]
     t.valid = true ∧ runsUp .l2 (engineBytes engined none (.ls 5) 0 48) t.pi) ∧
    (let t := (engined.core 1).tabs[(3 : Fin 8)]
     t.valid = true ∧ runsUp .l2 (engineBytes engined none (.ls 5) 48 48) t.pi) ∧
    engineBase engined true (.ls 7) % 16 = 0 ∧ engineBase engined false (.ls 6) % 16 ≠ 0 ∧
    (engined.core 1).tabs[(0 : Fin 8)].valid = false ∧
    (ladderOf .l2 (engineBytes engined none (.ls 4) 0 48)).malformed = true ∧
    ¬ runsUp .l2 record2 (planOf .l2 (List.replicate 128 0)) := by
  unfold runsUp
  refine ⟨?_, engined_free, trivial, ?_, ?_, ?_, ?_, ?_, ?_, ?_, ?_, ?_, ?_⟩ <;> decide +kernel

/-- Four values of 2^-127 over and over; the same with an infinity; the worked case of R184, scaled by 2^-120. -/
def sorting : List XReal := (List.range 128).map (fun i => .num false (i % 4) (-127) 1)
def sortingInf : List XReal := sorting.set 3 (.inf true)
def sortingCase : List XReal := (List.range 128).map (fun i => if i = 5 then .num false 3 (-120) 1
  else if i = 9 then .num true 1 (-120) 1 else zeroX)

theorem witness_EngineReads_sort : sorting.length = 128 ∧ (∀ x ∈ sorting, x.isNan = false ∧ x.isInf = false) ∧
    sortingInf.length = 128 ∧ (∃ x ∈ sortingInf, x.isNan = true ∨ x.isInf = true) ∧
    (let y := fun (k : Nat) => ((List.range 128).find? (fun i => rank sorting i == k)).elim zeroX (fun i => sorting.getD i zeroX)
     (y 0).round .rne = 0 ∧ (y 127).shift 127 = .num false 3 0 1 ∧
      ∀ k, k < 127 → ((y (k + 1)).shift 127).round .rne - ((y k).shift 127).round .rne ≤ 1) ∧
    (∀ e' sh' : Nat, 0 + 0 < e' + sh' ∨ (0 + 0 = e' + sh' ∧ 0 ≤ e')) ∧
    (∀ e' d' : Nat, 1 ≤ d' → 2 ^ 0 * 1 < 2 ^ e' * d' ∨ (2 ^ 0 * 1 = 2 ^ e' * d' ∧ 0 ≤ e')) := by
  refine ⟨by decide +kernel, by decide +kernel, by decide +kernel, by decide +kernel, by decide +kernel, by omega, ?_⟩
  intro e' d' hd
  have := Nat.mul_le_mul (Nat.one_le_two_pow (n := e')) hd
  omega

/-- R182, R183: the record of an infinity, and of the manual's worked case, whose scale is 0 here. -/
theorem test_sort : (sortRecord .l4 .rne sortingInf).zipIdx.all (fun x => x.1 == if x.2 == 64 then 0xFF else 0) = true ∧
    (let r := sortRecord .l8 .rne sortingCase
     r.take 2 == [0x01, 0xC1] && (r.drop 112).take 4 == [0, 0x80, 0x40, 0] && (r.drop 239).take 4 == [0, 0xC0, 0x01, 0]) = true := by decide +kernel

/-- The cisterns as operands: two slots of 48 bytes filled, the pointer at the last. -/
def engineCist : State := engined.modMyCore (fun k => { k with cist := k.cist.set 1 ⟨true, 0x200, 48, 2, 1, 0, 2, 0, []⟩ })

theorem witness_EngineReads_cistern : engineReady engineCist (some ⟨1, true⟩) false (.c 1) ∧
    engineBase engineCist false (.c 1) % 16 = 0 ∧ (engineBytes engineCist (some ⟨1, true⟩) (.c 1) 0 48 = record2) := by
  refine ⟨?_, by decide +kernel, by decide +kernel⟩
  unfold engineReady
  decide +kernel

def eq0Of (o : Host.Outcome State Fault Refusal) : List (Eq0Kind × List (Fin 16)) :=
  match o with
  | .next t => if t.retired then (t.core 1).eq0.map (fun o => (o.kind, o.names)) else []
  | _ => []

theorem test_engine_queue :
    eq0Of (exec (.ldot ⟨g0, 5, .ls 4, .ls 5, 2, .l2, .i8, none⟩) engined) = [(.rows false [⟨5, (XReal.ofInt 64).shift 0⟩], [])] ∧
    (eq0Of (exec (.ldot2 ⟨g0, 5, .ls 4, .c 1, 2, .l2, .i8, some ⟨1, true⟩⟩) engineCist)).map Prod.snd = [[1]] ∧
    eq0Of (exec (.lclr g0 7 0xC0) engined) = [(.clr 7 0xC0, [])] ∧
    eq0Of (exec (.lwrAdd g0 7 8 9 4) engined) = [(.wr 7 (511 * 2 ^ 64 + 512) 0x100 true, [])] ∧
    eq0Of (exec (.lgang ⟨g0, 5, 4, 5, 2, .l2, .i8⟩) engined) = [(.joint ⟨false, 5, 0x100, 0x200, 3, .l2, .i8, false, 0⟩, [])] := by
  decide +kernel

theorem test_engine_traps :
    trapsWith (.ldot ⟨g0, 5, .ls 4, .ls 6, 2, .l2, .i8, none⟩) engined = some (0x12, 0x201) ∧
    trapsWith (.ldot ⟨g0, 5, .ls 4, .ls 5, 0, .l2, .i8, none⟩) engined = some (0x20, 0x200) ∧
    trapsWith (.ldot ⟨g0, 5, .ls 5, .ls 4, 2, .l2, .i8, none⟩) engined = some (0x21, 0x100) ∧
    trapsWith (.lpert g0 4) engined = some (2, 0x1000) ∧ trapsWith (.lprogSet g0 8) engined = some (0x23, 512) := by
  decide +kernel

/-- R179: the plan of a record: the lanes of code 0, then of code 1, and so on. -/
theorem test_plan :
    (match exec (.lplan g0 0 (.ls 5) .l2 none) engined with
      | .next t => let k := (t.core 1).tabs[(0 : Fin 8)]; k.valid && [k.pi.getD 0 0, k.pi.getD 1 0, k.pi.getD 32 0,
          k.pi.getD 127 0] == [0, 4, 1, 127]
      | _ => false) = true := by decide +kernel

theorem witness_EngineWrites : engined.me.guardOn g0 = true ∧ engineFree engined ∧
    (engined.modMe (fun t => { t with priv := true })).me.priv = true ∧
        engineFree (engined.modMe (fun t => { t with priv := true })) ∧
    engined.me.priv = false ∧ (engined.me.rg 4).toNat % 16 = 0 ∧ (engined.me.rg 5).toNat % 16 = 0 := by
  have hc : calm (engined.modMe (fun t => { t with priv := true })) := calm_of (by decide +kernel) (by decide +kernel)
  refine ⟨?_, engined_free, ?_, engineFree_of hc ?_, ?_, ?_, ?_⟩ <;> decide +kernel

/-- A suspended operation of one core heads EQ0. -/
def suspended : State := (engined.modMyCore (fun k => { k with
  eq0 := [⟨3, 0, .joint ⟨false, 5, 0x100, 0x200, 2, .l2, .i8, false, 0⟩, [], none, true, none⟩]
  lprog := { act := true, sus := true, total := 2, done := 1, op := 0xC9 } }))

theorem witness_VeinsAndProgress : engined.me.guardOn g0 = true ∧ (floatOf false .bf16).isSome = true ∧ calm engined ∧
    unbound engined 3 ∧
    (engined.me.rg 9).toNat < 512 ∧ 512 ≤ (engined.me.rg 8).toNat ∧ (engined.core 1).lprog.sus = false ∧
    ((suspended.core 1).lprog.sus = true ∧ (suspended.core 1).eq0.map Eq0Op.id = [3] ∧ suspended.jointCores 1 false = [1] ∧
      (suspended.core 1).eq0.map Eq0Op.started = [true]) := by
  refine ⟨?_, ?_, engined_free.1, unbound_of (by decide +kernel) 3, ?_, ?_, ?_, ?_⟩ <;> decide +kernel

theorem test_vein_reads : leaves' (.lrd g0 3 5 .f32 .rne) engined 3 = some 0x40E00000 ∧
    leaves' (.lrdRaw g0 3 12 5) engined 12 = some 7 ∧ leaves' (.lrdSt g0 3 5) engined 3 = some 0x100 ∧
    ((vecAfter (.lrdV g0 (.v 3) 4 .bf16 .rne none) engined 3).map (fun y => y.take 3)) = some [0, 0x40E0, 0] ∧
    leaves' (.lprog g0 3) suspended 3 = some 0xC0080001C9000000 ∧
    (match exec (.lprogDrop g0) suspended with | .next t => (t.core 1).eq0.isEmpty && !(t.core 1).lprog.sus | _ => false) = true := by
  decide +kernel

/-! ### The machine's own moves: the order point and the memory points -/

/-- Core 1's strand holds these entries and loads; nothing else is on the way. -/
def moving (buf : List BufEntry) (loads : List PendLoad) : State := inContext.modMyCore (fun k => { k with
  ls := [(0x40, 7)]
  strands := k.strands.set 0 { k.strands[(0 : Fin 11)] with
    buf := buf, loads := loads, pend := loads.map (fun l => (l.id, .g 3)) } })

def lsAt (a n : Nat) : List Loc := (List.range n).map (fun j => ⟨.ls, a + j⟩)
def memAt (h : Home) (a n : Nat) : List Loc := (List.range n).map (fun j => ⟨.mem h, a + j⟩)
def putting (id : Nat) (l : List Loc) (rel : Bool) : BufEntry :=
  { id := id, op := .store, bytes := l.map (fun x => (x, 9)), rel := rel, scope := if rel then .clu else .str }
def taking (id : Nat) (l : List Loc) (ty : Ty) : PendLoad := { id := id, locs := l, dst := .g 3 ty }

/-- The event has no effect. -/
def sleeps (i : Instr) (s : State) : Bool :=
  match exec i s with
  | .next t => t == s
  | _ => false

theorem entry_none {k : Cluster} (h : k.hchain = 0) (j : Nat) : k.entry j = none := by
  simp [Cluster.entry, h, bitAt]

theorem witness_StoresTravel_drain :
    (∀ e ∈ [putting 4 (lsAt 0x40 4) false, putting 4 (memAt .hub 0x1100 8) true, { putting 4 [] true with op := .fence true },
        { putting 4 [] true with op := .wapp 0 5 3 }],
      let s := moving [e, putting 6 (lsAt 0x80 1) false] []
      (s.strandAt 1 0).buf = e :: [putting 6 (lsAt 0x80 1) false] ∧ 4 < 6 ∧ s.pairs = [] ∧ (s.core 1).pairOf = none ∧
      (s.strandAt 1 0).loads = [] ∧ (∀ l ∈ (s.strandAt 1 0).loads, l.dst.entry ≠ some 4) ∧ (s.core 1).outq = [] ∧
          e.mask = [] ∧ e.el = 0 ∧ e.sc = false ∧ e.bytes.Nodup ∧
      (e.bytes.map Prod.fst).Nodup) ∧
    (let s := moving [putting 4 (memAt .hub 0x1100 8) true] [taking 3 (lsAt 0x40 4) .i32]
     (s.strandAt 1 0).loads.map PendLoad.id = [3] ∧ ∀ l ∈ (s.strandAt 1 0).loads, l.dst.entry ≠ some 4) := by
  decide +kernel

/-- A release behind a store of its strand that is still on its way outward. -/
def trailing (scope : Scope) (l : List Loc) (stage : Nat) : State :=
  (moving [{ putting 4 (memAt .hub 0x1100 8) true with scope := scope }] []).modMyCore (fun k => { k with
    outq := [{ strand := 0, e := putting 2 l false, stage := stage }] })

theorem witness_StoresTravel_release : ∀ x ∈ ([(.clu, .hub, 0), (.die, .hub, 1), (.mod, .cluster 0, 0)] : List (Scope × Home × Nat)),
    let s := trailing x.1 (memAt x.2.1 0x1200 8) x.2.2
    (s.strandAt 1 0).buf.map (fun e => (e.id, e.rel, e.scope)) = [(4, true, x.1)] ∧ (s.strandAt 1 0).loads = [] ∧ s.pairs = [] ∧
    (s.core 1).pairOf = none ∧ ∃ o ∈ (s.core 1).outq, o.strand = 0 ∧ notYetAt o x.1 := by
  intro x hx
  simp only [List.mem_cons, List.not_mem_nil, or_false] at hx
  rcases hx with rfl | rfl | rfl <;>
    exact ⟨by decide +kernel, by decide +kernel, by decide +kernel, by decide +kernel, _, List.mem_singleton.mpr rfl, rfl,
      by first | rfl | exact .inl rfl | exact .inr (fun y hy m hm => by
           have : ∀ z ∈ (putting 2 (memAt .hub 0x1200 8) false).locs, z.at' = .mem .hub := by decide +kernel
           rw [this y hy] at hm
           cases hm)⟩

/-- R31: it drains once that store is performed where its scope asks. -/
theorem test_release_waits : sleeps (.storeDrain 1 0 4) (trailing .clu (memAt .hub 0x1200 8) 0) = true ∧
    sleeps (.storeDrain 1 0 4) (trailing .die (memAt .hub 0x1200 8) 1) = true ∧
    (match exec (.storeDrain 1 0 4) (trailing .clu (memAt .hub 0x1200 8) 1) with
      | .next t => t.me.buf.isEmpty && (t.core 1).outq.length == 2
      | _ => false) = true := by decide +kernel

theorem test_drain :
    (match exec (.storeDrain 1 0 4) (moving [putting 4 (lsAt 0x40 2) false] []) with
      | .next t => memRead (t.core 1).ls 0x40 3 == [9, 9, 0] && t.me.buf.isEmpty && (t.core 1).outq.isEmpty
      | _ => false) = true ∧
    (match exec (.storeDrain 1 0 4) (moving [putting 4 (memAt .hub 0x1100 8) true] []) with
      | .next t => (t.core 1).outq.map (fun o => (o.e.id, o.stage)) == [(4, 0)] && memGet t.mem 0x1100 == 0
      | _ => false) = true ∧
    sleeps (.storeDrain 1 0 4) (moving [putting 4 (memAt .hub 0x1100 8) true] [taking 3 (lsAt 0x40 4) .i32]) = true := by decide +kernel

theorem witness_LoadsSatisfied :
    (let s := moving [] [taking 3 (lsAt 0x40 4) .i32, taking 5 (lsAt 0x44 1) .n8]
     (s.strandAt 1 0).loads = taking 3 (lsAt 0x40 4) .i32 :: [taking 5 (lsAt 0x44 1) .n8] ∧ 3 < 5 ∧
      Ty.isInt .i32 = true ∧ 8 * (lsAt 0x40 4).length = Ty.i32.bits ∧ (s.strandAt 1 0).buf = [] ∧
      (∀ x ∈ lsAt 0x40 4, s.freedRange x = false) ∧ (∀ o ∈ (s.core 1).outq, ∀ x ∈ lsAt 0x40 4, x ∉ o.e.locs) ∧
      s.pairs = [] ∧ (taking 5 (lsAt 0x44 1) .n8).dst.entry = none ∧ (taking 3 (lsAt 0x40 4) .i32).split = false ∧
      (∀ x ∈ lsAt 0x40 4, x.at' = .ls ∧ (s.core 1).bad.contains (x.addr / 8) = false)) ∧
    (let s := moving [] [taking 3 (memAt .hub 0x1000 8) .i64]
     (∀ x ∈ memAt .hub 0x1000 8, x.at' = .mem .hub ∧ s.freedRange x = false) ∧ s.cores.all (fun x => x.2.outq == []) = true) ∧
    (let l := { taking 3 (lsAt 0x41 4) .i32 with split := true, got := [(0, 7), (2, 7)] }
     (moving [] [l]).me.loads = [l] ∧ l.locs[3]? = some ⟨.ls, 0x44⟩ ∧ (∀ y ∈ l.got, y.1 ≠ 3) ∧
      l.got.length + 1 < l.locs.length) ∧
    (let e := putting 2 (lsAt 0x40 8) false
     e.id < 3 ∧ e.op = .store ∧ e.mask = [] ∧ (e.bytes.map Prod.fst).Nodup ∧
      (∀ y ∈ (lsAt 0x42 4).zip (List.replicate 4 9), y ∈ e.bytes) ∧ (∀ x ∈ lsAt 0x42 4, x.at' ≠ .stray)) := by decide +kernel

theorem witness_LoadsSatisfied_outq (e : Nat) : ((moving [] [taking 3 (memAt .hub 0x1000 8) .i64]).core e).outq = [] :=
  core_all (P := fun k => k.outq = []) rfl (by decide +kernel) e

theorem test_satisfied :
    (match exec (.loadSatisfied 1 0 3 0) (moving [] [taking 3 (lsAt 0x40 1) .i8]) with
      | .next t => t.me.rg 3 == 7 && t.me.pend.isEmpty && t.me.loads.isEmpty
      | _ => false) = true ∧
    (match exec (.loadSatisfied 1 0 3 0) (moving [putting 2 (lsAt 0x40 1) false] [taking 3 (lsAt 0x40 1) .i8]) with
      | .next t => t.me.rg 3 == 9
      | _ => false) = true ∧
    (match exec (.loadSatisfied 1 0 3 1) (moving [] [{ taking 3 (lsAt 0x3F 2) .n16 with split := true, got := [(0, 5)] }]) with
      | .next t => t.me.rg 3 == 0x705 && t.me.loads.isEmpty
      | _ => false) = true ∧
    sleeps (.loadSatisfied 1 0 3 0)
      (moving [putting 1 (lsAt 0x80 1) false,
          { putting 2 [] true with op := .fence true }] [taking 3 (lsAt 0x40 1) .i8]) = true := by decide +kernel

/-- One entry has left core 1. -/
def outgoing (o : OutEntry) : State := (moving [] []).modMyCore (fun k => { k with
  outq := [o], strands := k.strands.set 0 { k.strands[(0 : Fin 11)] with pend := [(9, .g 3)] } })
def leaving (l : List Loc) (stage : Nat) : OutEntry := { strand := 0, e := putting 9 l false, stage := stage }
def appending (list : Nat) : OutEntry := { strand := 0, e := { id := 9, op := .wapp list 5 3, rel := true, scope := .mod } }

theorem witness_StoresTravel_perform :
    (∀ o ∈ [leaving (memAt (.cluster 0) 0x1100 2) 0, leaving (memAt .hub 0x1100 2) 0, leaving (memAt .hub 0x1100 2) 1, appending 1],
      ((outgoing o).core 1).outq = [o] ∧ o.held = false ∧ o.go = true ∧ o.e.mask = [] ∧
      ((outgoing o).cluster 0).inject.getLsbD 63 = false ∧ (outgoing o).behind 1 o = false ∧ (o.e.bytes.map Prod.fst).Nodup) ∧
    ((outgoing (leaving (memAt .hub 0x1100 2) 0)).cluster 0).cache = [] ∧
    (9, RegName.g 3) ∈ ((outgoing (appending 1)).strandAt 1 0).pend ∧
    (sget [] ((outgoing (appending 1)).ctx 0).lists 1).length < 2 ^ ((outgoing (appending 1)).ctx 0).lcap ∧
    (outgoing (appending 1)).listFault 0 true 1 0 = none := by
  decide +kernel

def full : State := (outgoing (appending 1)).modCtx 0 (fun x => { x with lists := [(1, List.replicate 16 0)] })

theorem test_perform :
    (match exec (.storePerformed 1 9) (outgoing (leaving (memAt (.cluster 0) 0x1100 2) 0)) with
      | .next t => memRead t.mem 0x1100 3 == [9, 9, 0] && (t.core 1).outq.isEmpty
      | _ => false) = true ∧
    (match exec (.storePerformed 1 9) (outgoing (leaving (memAt .hub 0x1100 2) 0)) with
      | .next t => memGet t.mem 0x1100 == 0 && (t.core 1).outq.map OutEntry.stage == [1] &&
          (sfind (t.cluster 0).cache 0x44).map (fun l => l.data.take 2) == some [9, 9]
      | _ => false) = true ∧
    (match exec (.storePerformed 1 9) (outgoing (leaving (memAt .hub 0x1100 2) 1)) with
      | .next t => memRead t.mem 0x1100 3 == [9, 9, 0] && (t.core 1).outq.isEmpty
      | _ => false) = true ∧
    (match exec (.storePerformed 1 9) (outgoing (appending 1)) with
      | .next t => t.me.rg 3 == 0 && sget [] (t.ctx 0).lists 1 == [5]
      | _ => false) = true ∧
    (match exec (.storePerformed 1 9) full with | .next t => t.me.rg 3 == 1 | _ => false) = true := by decide +kernel

/-- A packet waits for room. -/
def waiting (n : Nat) : State := (formed.modMyCore (fun k => { k with held := [[0x0000000100000007, 0, 0, 0, 0, 0, 0, 0]] })).modCluster 0
  (fun x => { x with pqCount := n, pqHead := 63 })

theorem witness_ReadsAheadAndAdmits :
    (formed.core 1).ports[(1 : Fin 4)] = some ⟨0, 6, .i16, false, 0x100, 2, 5, 16, 3, 0, [0xFFFF8000], 0, 0⟩ ∧ Ty.i16.bits ≤ 32 ∧
    formed.pairs = [] ∧
    0 + 1 < 5 * 3 ∧ ((formed.core 1).strands[(0 : Fin 11)]).buf = [] ∧ (formed.core 1).bad = [] ∧
    (∀ i : Fin 8, (formed.core 1).wins[i] = none) ∧
    (formed.core 1).ports[(2 : Fin 4)] = some ⟨0, 7, .n4, true, 0x3F0, 1, 5, 8, 3, 2, [], 0, 0⟩ ∧
    (∀ n ∈ [0, 63, 64], ((waiting n).core 1).held = [[0x0000000100000007, 0, 0, 0, 0, 0, 0, 0]] ∧
      ((waiting n).cluster 0).pqHead < 64 ∧ 36 * 0 + ((waiting n).cluster 0).sup ≠ 1 ∧ ((waiting n).core 0).rq.length < 32 ∧
      (∀ q ∈ (waiting n).heldIn 0, packetSeq [0x0000000100000007, 0, 0, 0, 0, 0, 0, 0] ≤ packetSeq q) ∧
      ((waiting n).core 0).ovf = []) := by decide +kernel

theorem test_read_ahead :
    (match exec (.streamReadAhead 1 1) formed with
      | .next t => ((t.core 1).ports[(1 : Fin 4)]).map Port.ahead == some [0xFFFF8000, 0x2121]
      | _ => false) = true ∧
    sleeps (.streamReadAhead 1 2) formed = true ∧
    (match exec (.packetQueueAdmit 1) (waiting 63) with
      | .next t => (t.core 1).held.isEmpty && (t.cluster 0).pqCount == 64 && (t.core 0).rq.length == 1
      | _ => false) = true ∧
    sleeps (.packetQueueAdmit 1) (waiting 64) = true := by decide +kernel

/-! ### Supervision, messages, barriers -/

/-- A dword is on its way to a place. -/
def dwordTo (p : Place) (off len n : Nat) : OutEntry :=
  { strand := 0, e := { id := 9, op := .store
                        bytes := (List.range len).map (fun j => (⟨p, off + j⟩, BitVec.ofNat 8 (n / 256 ^ j))) } }

theorem sends (s : State) (p : Place) (off len n : Nat) (h : (s.core 1).outq = [dwordTo p off len n]) :
    SendsDword s 1 (dwordTo p off len n) p off len n := ⟨h, rfl, rfl, rfl, rfl, rfl, rfl⟩

/-- Core 8 of the cluster holds a task of two cores with core 9; injection is enabled. -/
def supervised (o : OutEntry) : State := { (outgoing o).modCore 8 (fun k => { k with task := some 5 }) with
  injectOk := true
  tasks := [{ id := 5, ctx := 0, record := { dwords := [] , origin := 0x7700 }, w := 2, h := 1, cores := [8, 9], lnums := [2, 3] }] }

/-- `on`, columns 1 to 2 and rows 1 to 1. -/
def rect : Word := 0x8000000000000289

theorem witness_SupervisionWrites :
    SendsDword (supervised (dwordTo .sup 0 8 0x4000)) 1 (dwordTo .sup 0 8 0x4000) .sup 0 8 (0x4000 : Word).toNat ∧
    SendsDword (supervised (dwordTo .sup 0x58 8 rect.toNat)) 1 (dwordTo .sup 0x58 8 rect.toNat) .sup (0x40 + 8 * (3 : Fin 4).val) 8
      rect.toNat ∧
    (let s := supervised (dwordTo .sup 0x58 8 rect.toNat)
     (s.cluster 0).pqHead < 64 ∧
      (rect.toNat % 8 ≤ rect.toNat / 64 % 8 ∧ rect.toNat / 64 % 8 ≤ 5 ∧ rect.toNat / 8 % 8 ≤ rect.toNat / 512 % 8 ∧
        rect.toNat / 512 % 8 ≤ 5) ∧ rect.getLsbD 63 = true ∧ s.tasks.map Task.id = [5] ∧ (s.core 8).task = some 5) ∧
    ¬ heldBy rect 0 ∧ ¬ heldBy rect (1 % 36) ∧ heldBy rect 8 ∧ heldBy 0x8000000000000000 0 ∧
    (∀ j, ((supervised (dwordTo .sup 0x58 8 rect.toNat)).cluster 0).entry j = none) ∧
    SendsDword (supervised (dwordTo .sup 0x60 8 0x900000000001FFFF)) 1 (dwordTo .sup 0x60 8 0x900000000001FFFF) .sup 0x60 8 0x900000000001FFFF := by
  refine ⟨sends _ _ _ _ _ ?_, sends _ _ _ _ _ ?_, ?_, ?_, ?_, ?_, ?_, entry_none ?_, sends _ _ _ _ _ ?_⟩
  all_goals first | decide +kernel | (unfold heldBy; decide +kernel)

theorem test_supervision :
    (match exec (.pqstatWrite 1 9) ((supervised (dwordTo .sup 0 8 0x4000)).modCluster 0 (fun x => { x with pqHead := 63, pqCount := 2, mdrop := true })) with
      | .next t => (t.cluster 0).pqHead == 0 && (t.cluster 0).pqCount == 1 && !(t.cluster 0).mdrop && (t.core 1).outq.isEmpty
      | _ => false) = true ∧
    (match exec (.containmentWrite 1 9) (supervised (dwordTo .sup 0x58 8 rect.toNat)) with
      | .next t => (t.cluster 0).cont[3] == rect && (t.core 8).frozen && (t.core 8).task.isNone && t.tasks.isEmpty &&
          (t.ctx 0).fails == [⟨0x7700, 1, 0, [2, 3]⟩] && !(t.core 9).frozen
      | _ => false) = true ∧
    (match exec (.containmentWrite 1 9) (supervised (dwordTo .sup 0x58 8 0x8000000000000000)) with
      | .next t => (t.cluster 0).cont[3] == 0 && (t.core 1).outq.isEmpty
      | _ => false) = true ∧
    (match exec (.injectWrite 1 9) (supervised (dwordTo .sup 0x60 8 0x914000000000FFFF)) with
      | .next t => (t.core 10).bad == [0xFFFF] && !(t.cluster 0).inject.getLsbD 63
      | _ => false) = true := by decide +kernel

/-- Core 2 is frozen with its strand 4 live; core 3 is not frozen; cluster 0 is halted in the last. -/
def windowed (o : OutEntry) : State := (outgoing o).modCore 2 (fun k => { k with
  frozen := true, strands := k.strands.set 4 { k.strands[(4 : Fin 11)] with live := true, pc := 0x2000 } })
def halted : State := (moving [] []).modCluster 0 (fun x => { x with halt := true, hchain := 0x45, cells := [(3, { span := some (0, 1) })] })

theorem sends' (f : OutEntry → State) (p : Place) (off len n : Nat)
    (h : ((f (dwordTo p off len n)).core 1).outq = [dwordTo p off len n]) :
    SendsDword (f (dwordTo p off len n)) 1 (dwordTo p off len n) p off len n := sends _ p off len n h

theorem witness_WindowAndCellWrites :
    (∀ x ∈ [(3, 0), (2, 0x7FFF8), (2, 0x80000 + 0x800 * 4 + 8 * 31), (2, 0x80000 + 0x800 * 4)],
      ((windowed (dwordTo (.dbg x.1) x.2 8 5)).core 1).outq = [dwordTo (.dbg x.1) x.2 8 5] ∧ x.1 < 36 ∧ 36 * 0 + x.1 ≠ 1) ∧
    (windowed (dwordTo (.dbg 3) 0 8 5)).core 3 = {} ∧
    ((windowed (dwordTo (.dbg 2) 0 8 5)).core 2).frozen = true ∧ 0x7FFF8 < (windowed (dwordTo (.dbg 2) 0 8 5)).lsCap 2 ∧
    ((windowed (dwordTo (.dbg 2) 0 8 5)).core 2).strands[(4 : Fin 11)].live = true ∧
    SendsDword (windowed (dwordTo .cell (32 * 3) 16 (2 ^ 127))) 1 (dwordTo .cell (32 * 3) 16 (2 ^ 127)) .cell (32 * 3) 16 (2 ^ 127) ∧
    SendsDword (windowed (dwordTo .cell (32 * 3 + 16) 8 0x3C0)) 1 (dwordTo .cell (32 * 3 + 16) 8 0x3C0) .cell (32 * 3 + 16) 8 0x3C0 ∧
    (halted.cluster 0).halt = true ∧ (∀ p, p < 36 → (halted.core p).outq = []) ∧ (demo.cluster 0).halt = false := by
  refine ⟨?_, ?_, ?_, ?_, ?_, sends' windowed _ _ _ _ (by decide +kernel), sends' windowed _ _ _ _
    (by decide +kernel), ?_, fun p _ => core_all (P := fun k => k.outq = []) rfl (by decide +kernel) p, ?_⟩ <;> decide +kernel

theorem test_windows :
    (match exec (.debugWindowWrite 1 9) (windowed (dwordTo (.dbg 2) 0x7FFF8 8 0x0102)) with
      | .next t => memRead (t.core 2).ls 0x7FFF8 3 == [2, 1, 0]
      | _ => false) = true ∧
    (match exec (.debugWindowWrite 1 9) (windowed (dwordTo (.dbg 2) (0x80000 + 0x800 * 4 + 8 * 31) 8 0x0102)) with
      | .next t => (t.strandAt 2 4).rg 31 == 0x0102 && (t.strandAt 2 4).pc == 0x2000
      | _ => false) = true ∧
    (match exec (.debugWindowWrite 1 9) (windowed (dwordTo (.dbg 3) 0 8 5)) with
      | .next t => t.core 3 == {} && (t.core 1).outq.isEmpty
      | _ => false) = true ∧
    (match exec (.veinCellVWrite 1 9) (windowed (dwordTo .cell 96 16 (2 ^ 127))) with
      | .next t => (sget {} (t.cluster 0).cells 3).w.s == (2 ^ 160 - 2 ^ 127 : Nat)
      | _ => false) = true ∧
    (match exec (.veinCellAnchorWrite 1 9) (windowed (dwordTo .cell 112 8 0x3C0)) with
      | .next t => (sget {} (t.cluster 0).cells 3).w == ⟨0, 0xC0, true, true⟩
      | _ => false) = true ∧
    (match exec (.clusterReset 0) halted with
      | .next t => !(t.cluster 0).halt && (t.cluster 0).hchain == 0 && t.core 1 == {} && (sget {} (t.cluster 0).cells 3).span.isNone
      | _ => false) = true ∧ sleeps (.clusterReset 0) demo = true := by decide +kernel

/-- Core 2 holds logical core 1 of the task; its queue has `n` messages and its overflow area `m`. -/
def postOut (dst n m : Nat) (stage : Nat) : State := { ((outgoing { strand := 0, e := { id := 9, op := .send dst note, rel := true }, task := some 0, stage := stage }).modCore 2
  (fun k => { k with task := some 0, lnum := 1, rq := List.replicate n {}, ovf := List.replicate m {} })) with
    tasks := [{ placeTask 0 with w := 2, cores := [1, 2], lnums := [0, 1] }] }

theorem witness_Messages_arrive :
    (∀ x ∈ [(31, 0), (32, 0)], let s := postOut 1 x.1 x.2 0
      s.coreByLnum 0 1 = some 2 ∧ ((s.core 2).rq.length, (s.core 2).ovf.length) = x ∧
      (s.core 1).outq.map (fun o => (o.held, o.go, o.stage, o.ctx)) = [(false, true, 0, 0)] ∧
      s.overflowFault (s.core 2).ctx true (s.core 2).lnum.toNat (s.core 2).ovf.length = none) ∧
    ((postOut 1 32 2048 0).core 2).ovf.length = 2048 ∧
    ((postOut 2 0 0 0).coreByLnum 0 2 = none ∧ (postOut 2 0 0 0).savedByLnum 0 2 = none) ∧
    (let s := postOut 1 32 2 1
     (s.core 1).outq.map (fun o => (o.stage, o.task)) = [(1, (s.core 1).task)] ∧ (s.core 1).frozen = false ∧ s.pairs = [] ∧
      1 % 36 ≠ (s.cluster 0).sup ∧ (s.cluster 0).chainIndex 1 = none) := by
  refine ⟨by decide +kernel, ?_, by decide +kernel, by decide +kernel⟩
  have : (postOut 1 32 2048 0).core 2 = { ((postOut 1 32 2 0).core 2) with ovf := List.replicate 2048 {} } := rfl
  rw [this]
  exact List.length_replicate

theorem test_messages_arrive :
    (match exec (.messagePlace 1 9) (postOut 1 31 0 0) with
      | .next t => (t.core 2).rq.length == 32 && (t.core 2).rq.getLast? == some note && (t.core 1).outq.isEmpty
      | _ => false) = true ∧
    (match exec (.messagePlace 1 9) (postOut 1 32 0 0) with | .next t => (t.core 2).ovf == [note] | _ => false) = true ∧
    (match exec (.messagePlace 1 9) (postOut 2 0 0 0) with | .next t => (t.core 1).outq.isEmpty && (t.core 2).rq.isEmpty | _ => false) = true ∧
    (match exec (.sendStall 1 9) (postOut 1 32 2 1) with
      | .next t => (t.core 1).frozen && (t.core 1).outq.isEmpty && ((t.cluster 0).slots.toList.headD []).headD 0 == 0x10000002B
      | _ => false) = true ∧
    sleeps (.sendStall 1 9) (postOut 1 32 2 0) = true := by decide +kernel

/-- The task of two cores; the barrier generation that logical core 0 has arrived at with a `dphase`, and perhaps 1. -/
def barring (l : List Nat) : State := { postOut 1 0 0 0 with
  barriers := [{ dom := 4, ctx := 0, key := 0, lvl := 0, place := 0
                 arrived := l.map (fun n => ⟨n, BitVec.ofNat 5 (4 + n), if n = 0 then some true else none⟩) }] }
def barringOne : State := { barring [0] with tasks := [placeTask 0] }

theorem witness_Barriers :
    ((barring [0, 1]).barriers.map (fun b => (b.lvl, b.arrived))) = [(0, [⟨0, 4, some true⟩, ⟨1, 5, none⟩])] ∧
    (∀ n ∈ (barring [0, 1]).domainMembers 0 0 (0, 0), n ∈ [0, 1]) ∧ 1 ∈ (barring [0]).domainMembers 0 0 (0, 0) ∧
    (∀ n ∈ barringOne.domainMembers 0 0 (0, 0), n ∈ [0]) ∧
    (barring [0, 1]).coreByLnum 0 0 = some 1 ∧ (barring [0, 1]).coreByLnum 0 1 = some 2 := by decide +kernel

theorem test_barriers :
    (match exec (.barrierRelease 4) (barring [0, 1]) with
      | .next t => t.barriers.map (fun b => (b.gen, b.arrived, b.done)) == [(1, [], 5)] && (t.core 1).late.comm &&
          (t.core 2).late.comm
      | _ => false) = true ∧
    (match exec (.barrierRelease 4) barringOne with
      | .next t => t.barriers.map (fun b => (b.gen, b.done)) == [(1, 4)]
      | _ => false) = true ∧
    sleeps (.barrierRelease 4) (barring [0]) = true := by decide +kernel

/-! ### The engine's own moves -/

/-- These operations stand in EQ0; the first is number 3. -/
def eq0With (l : List (Eq0Kind × Bool)) : State := engined.modMyCore (fun k => { k with
  eq0 := l.zipIdx.map (fun x => ⟨3 + x.2, 0, x.1.1, [], none, x.1.2, none⟩) })
def armedBy (cmd : Word) (s : State) : State := s.modMyCore (fun k => { k with armed := some cmd })

theorem witness_VeinUpdates :
    (∀ kd ∈ [Eq0Kind.rows false [⟨5, dyadic 5 (-65)⟩], .rows false [⟨5, .nan false⟩], .rows true [⟨63, dyadic 1 62⟩, ⟨0,
        dyadic 1 63⟩],
        .clr 5 0x80, .wr 5 (-1) 0x300 false, .wr 5 1 0x17F true, .pert 0x100000001],
      let k := (eq0With [(kd, true), (.plan, false)]).core 1
      k.eq0 = ⟨3, 0, kd, [], none, true, none⟩ :: [⟨4, 0, .plan, [], none, false, none⟩] ∧ k.armed = none) ∧
    (63 : Fin 64) + 1 = 0 ∧
    ((armedBy 0x100000002 (eq0With [(.rows false [⟨5, dyadic 5 (-65)⟩],
        true)])).core 1).armed = some 0x100000002 := by decide +kernel

def veinAfter (i : Instr) (s : State) (w : Fin 64) : Option Vein :=
  match exec i s with
  | .next t => if (t.core 1).eq0.length + 1 = (s.core 1).eq0.length then some (t.core 1).veins[w] else none
  | _ => none

/-- R77, R78, R185, R188, R189: the floor of 2.5 units with `vx`; the last exponent that fits and the first that does not;
a raw value at its own anchor; an armed error, and one that leaves the result. -/
theorem test_vein_updates :
    veinAfter (.veinUpdate 1) (eq0With [(.rows false [⟨5, dyadic 5 (-65)⟩], true)]) 5 = some ⟨7 * 2 ^ 64 + 2, 0, true, false⟩ ∧
    veinAfter (.veinUpdate 1) (eq0With [(.rows false [⟨6, dyadic (-5) (-65)⟩], true)]) 6 = some ⟨-3, 0, true, false⟩ ∧
    veinAfter (.veinUpdate 1) (eq0With [(.rows true [⟨63, dyadic 1 62⟩, ⟨0, dyadic 1 63⟩], true)]) 63 = some ⟨2 ^ 126, 0,
        false, false⟩ ∧
    veinAfter (.veinUpdate 1) (eq0With [(.rows true [⟨63, dyadic 1 62⟩, ⟨0, dyadic 1 63⟩], true)]) 0 = some ⟨0, 0, false, true⟩ ∧
    veinAfter (.veinUpdate 1) (eq0With [(.rows false [⟨5, .nan false⟩], true)]) 5 = some ⟨7 * 2 ^ 64, 0, true, true⟩ ∧
    veinAfter (.veinUpdate 1) (eq0With [(.clr 5 0x80, true)]) 5 = some ⟨0, 0x80, false, false⟩ ∧
    veinAfter (.veinUpdate 1) (eq0With [(.wr 5 (2 ^ 127) 0x2C0 false, true)]) 5 = some ⟨-(2 ^ 127), 0xC0, false, true⟩ ∧
    veinAfter (.veinUpdate 1) (eq0With [(.wr 6 3 0x102 true, true)]) 6 = some ⟨12, 0, true, false⟩ ∧
    veinAfter (.veinUpdate 1) (armedBy 0xFFFFFFFF00000002 (eq0With [(.rows false [⟨6, dyadic 4 (-64)⟩],
        true)])) 6 = some ⟨3, 0, false, true⟩ ∧
    veinAfter (.veinUpdate 1) (armedBy 0xFFFFFFFF00000003 (eq0With [(.rows false [⟨6, dyadic 4 (-64)⟩],
        true)])) 6 = some ⟨4, 0, false, false⟩ ∧
    (match exec (.lpertArm 1) (eq0With [(.pert 5,
        true)]) with | .next t => (t.core 1).armed == some 5 && (t.core 1).eq0.isEmpty | _ => false) = true := by
  decide +kernel

def jointKind (rot : Bool) : Eq0Kind := .joint ⟨rot, 5, 0x100, 0x200, 2, .l2, .i8, false, 0⟩
def eq0Full : State := eq0With (List.replicate 32 (.plan, false))
/-- One place is left in EQ0, and the strand's next attempt lies ahead. -/
def queuing : State := (eq0With (List.replicate 31 (.plan, false))).modMe (fun t => { t with stamp := 5 })

theorem witness_EngineOperations_queue :
    ((queuing.core 1).frozen = false ∧ (queuing.core 1).strands[(0 : Fin 11)].live = true ∧ (queuing.core 1).eq0.length = 31 ∧
      (queuing.core 1).strands[(0 : Fin 11)].blk = 0 ∧ (queuing.core 1).slot < (queuing.core 1).strands[(0 : Fin 11)].stamp ∧
      (queuing.core 1).eq0.all (fun o => !o.kind.writesLs) = true) ∧
    (eq0Full.core 1).eq0.length = 32 ∧
    (∀ kd ∈ [Eq0Kind.plan, .clr 5 0x80, jointKind false, jointKind true, .joint ⟨true, 5, 0x100, 0x200, 2, .l2, .i8, false, 2⟩],
      let s := eq0With [(kd, false), (.plan, false)]
      (s.core 1).eq0 = ⟨3, 0, kd, [], none, false, none⟩ :: [⟨4, 0, .plan, [], none, false, none⟩] ∧ (s.core 1).lprog.sus = false ∧
        s.jointCores 1 false = [1] ∧ s.jointCores 1 true = [1] ∧ (s.core 1).returned = false) ∧
    (let out := (lsAt 0x400 48).zip record2
     ((eq0With [(.sort out, true), (.rows false [], false)]).core 1).eq0 = ⟨3, 0, .sort out, [], none, true, none⟩ :: [⟨4, 0,
         .rows false [], [], none, false, none⟩] ∧
      (out.map Prod.fst).Nodup ∧ (∀ y ∈ out, y.1.at' = .ls) ∧ ((eq0With []).core 1).pairOf = none) := by decide +kernel

theorem test_engine_queue_events :
    (match exec (.eq0Accept 1 0) queuing with | .next t => t.me.stamp == 1 | _ => false) = true ∧
        sleeps (.eq0Accept 1 0) demo = true ∧
    sleeps (.eq0Accept 1 0) eq0Full = true ∧
    (match exec (.eq0OpStart 1) (eq0With [(jointKind false, false)]) with
      | .next t => (t.core 1).lprog == { act := true, total := 2, op := 0xC9 } && (t.core 1).eq0.map Eq0Op.started == [true]
      | _ => false) = true ∧
    (match exec (.lsortComplete 1) (eq0With [(.sort ((lsAt 0x400 48).zip record2), true)]) with
      | .next t => memRead (t.core 1).ls 0x420 4 == [127, 0xFE, 0x11, 0x31] && (t.core 1).eq0.isEmpty
      | _ => false) = true ∧
    sleeps (.lsortComplete 1) (eq0With [(.sort [], false)]) = true := by decide +kernel

/-- A joint operation of the core alone is under way, `i` steps done. -/
def stepping (rot : Bool) (i : Nat) (sus : Bool) : State := (eq0With [(jointKind rot, true)]).modMyCore (fun k => { k with
  ls := ((placeAt 0x100 (group8 ++ List.replicate 15 0 ++ group8)) ++ placeAt 0x300 (record2 ++ record2)).filter (fun x => x.2 != 0)
  eq0 := k.eq0.map (fun o => { o with kind := .joint ⟨rot, 5, 0x100, 0x300, 2, .l2, .i8, false, 0⟩ })
  lprog := { act := true, sus := sus, total := 2, done := i, op := if rot then 0xCA else 0xC9 } })
def steppingBad : State := (stepping false 1 false).modMyCore (fun k => { k with ls := memSet k.ls 0x35F 1 })

theorem witness_JointSteps : (∀ x ∈ [(false, 0), (false, 1), (true, 0), (true, 1)],
      let s := stepping x.1 x.2 false
      s.gangOf 1 = (1, [1]) ∧ (s.core 1).bad = [] ∧ (∀ n : Fin 8, (s.core 1).wins[n] = none) ∧
          (s.core 1).lprog.done = x.2 ∧ x.2 < 2 ∧
        (s.core 1).lprog.sus = false ∧ (s.core 1).armed = none ∧ (s.cluster 0).inject.getLsbD 63 = false ∧
        (ladderOf .l2 ((List.range 48).map (fun b => lsByte (s.core 1) (0x300 + x.2 * 48 + b)))).malformed = false ∧
        0x100 + 2 * actPitch .i8 ≤ 0x300 ∧ 0x300 + 2 * Fmt.l2.bytes ≤ 4096 * (s.core 1).size.toNat ∧
        4096 * (s.core 1).size.toNat ≤ 2 ^ ((s.core 1).lspan.toNat + 12) ∧ (s.core 1).size.toNat ≤ 128) ∧
    ((ladderOf .l2 ((List.range 48).map (fun b => lsByte (steppingBad.core 1) (0x300 + 48 + b)))).malformed = true ∧
      (steppingBad.core 1).err[(0 : Fin 4)] = none ∧ steppingBad.gangOf 1 = (1, [1])) ∧
    ((stepping false 1 true).core 1).lprog.sus = true := by decide +kernel

theorem test_joint_steps :
    (match exec (.kStep 1) (stepping false 0 false) with
      | .next t => (t.core 1).veins[5] == ⟨71 * 2 ^ 64, 0, true, false⟩ && (t.core 1).lprog.done == 1 && (t.core 1).eq0.length == 1
      | _ => false) = true ∧
    (match exec (.kStep 1) (stepping false 1 false) with | .next t => (t.core 1).eq0.isEmpty && !(t.core 1).lprog.act | _ => false) = true ∧
    (match exec (.kStep 1) steppingBad with
      | .next t => (t.core 1).err[0] == some ⟨0x21, 0x330, 0⟩ && (t.core 1).veins[5] == ⟨7 * 2 ^ 64, 0, true,
          false⟩ && (t.core 1).eq0.isEmpty
      | _ => false) = true ∧
    (match exec (.multistepResume 1) (stepping false 1 true) with | .next t => !(t.core 1).lprog.sus | _ => false) = true ∧
    sleeps (.multistepResume 1) (stepping false 1 false) = true := by decide +kernel

/-! ### Handles, copies and windows -/

/-- A handle of 3 by 2 elements of `i16`, 1 to 3 in its first row and 4 to 6 in its second (R82: the rows stand 64 bytes
apart). -/
def grid : Handle := { v := 0x8000000000000005, ctx := 0, ops := 0x807B, ty := .i16, rfmt := 0, e := #v[3, 2, 1, 1], rank := 2
                       mode := false, classes := 1
                       data := [(0, 1), (2, 2), (4, 3), (64, 4), (66, 5), (68, 6)] }

/-- The task's set covers the handle; the strand holds its value, one without bit 63, one that names none, and
descriptor addresses. -/
def owning (hs : List Handle) : State := { holding demo [(4, 0x8000000000000005), (5, 5), (6, 0x8000000000000006), (7, 0x40), (8, 0x48),
  (9, 0x100)] with
    handles := hs
    tasks := [{ placeTask 0 with entries := [⟨0x8000000000000005, 0, 0, 3, false⟩] }] }

/-- A record handle, whose set holds LW (R294, R298). -/
def ladderWords : Handle := { grid with ops := 0x0081, ty := .i8, rfmt := 1 }

theorem names_grid : Names (owning [grid]) 0x8000000000000005 grid :=
  ⟨by decide, by decide +kernel, rfl, by simp [grid], .inl (by decide +kernel)⟩

theorem names_ladder : Names (owning [ladderWords]) 0x8000000000000005 ladderWords :=
  ⟨by decide, by decide +kernel, rfl, by simp [ladderWords, grid], .inl (by decide +kernel)⟩

theorem witness_HandleRequests : (owning [grid]).me.guardOn g0 = true ∧ (owning [grid]).me.bufCount < 16 ∧
    Names (owning [grid]) ((owning [grid]).me.rg 4) grid ∧ grid.v = (owning [grid]).me.rg 4 ∧ (2 : Fin 16).val < 3 ∧
    ((4 : Fin 16).val ≤ 4 ∧ ((owning [grid]).modMe (fun t => { t with priv := true })).me.priv = true) ∧
    grid.ops.getLsbD 15 = true ∧ calm (owning [grid]) ∧ unpaired (owning [grid]) (owning [grid]).cur.1 ∧ (owning [grid]).me.loads = [] ∧ (owning [grid]).myCore.bad = [] ∧
    (owning [grid]).myCore.weak = [] ∧ ((owning [grid]).me.rg 7).toNat % 16 = 0 ∧
    (∀ j, j < 32 → ((owning [grid]).myCore.lsLoc (0x40 + j)).at' = .ls) ∧
    Names (owning [ladderWords]) 0x8000000000000005 ladderWords ∧
    (let left : BitVec 16 := ladderWords.ops &&& ~~~(0x80 : BitVec 16)
     left.getLsbD 7 = false ∧ ladderWords.rfmt ≠ 0) ∧
    (let left : BitVec 16 := grid.ops &&& ~~~(0x8001 : BitVec 16); left.getLsbD 7 = false ∧ ¬ grid.rfmt ≠ 0) := by
  refine ⟨?_, ?_, names_grid, ?_, ?_, ?_, ?_, calm_of (by decide +kernel) (by decide +kernel),
    by unfold unpaired; decide +kernel, ?_, ?_, ?_, ?_, ?_, names_ladder, ?_, ?_⟩ <;> decide +kernel

theorem test_handle_requests :
    (match exec (.hquery g0 3 4 1) (owning [grid]) with
      | .next t => t.me.buf.map BufEntry.op == [.lap (.hquery 0x8000000000000005 1) 3] && t.me.pend.map Prod.snd == [.g 3]
      | _ => false) = true ∧
    (match exec (.hnarrow g0 3 4 (.imm 0x8001)) (owning [grid]) with
      | .next t => t.handles.map Handle.ops == [0x007A] && t.me.buf.map BufEntry.op == [.lap (.hnarrow 0x8000000000000005 false false) 3]
      | _ => false) = true ∧
    (match exec (.hnarrow g0 3 4 (.imm 0x80)) (owning [ladderWords]) with
      | .next t => t.handles.map Handle.ops == [0x0081] && t.me.buf.map BufEntry.op == [.lap (.hnarrow 0x8000000000000005 true false) 3]
      | _ => false) = true := by decide +kernel

theorem mayCopy_grid (o : List Nat) (need : Nat) (h : ∀ b ∈ o, grid.ops.getLsbD b = true) (h' : need = 1 ∨ need = 2) :
    MayCopy (owning [grid]) 0x8000000000000005 o need :=
  ⟨grid, names_grid, rfl, h, by simp [grid], .inr (by rcases h' with rfl | rfl <;> decide +kernel)⟩

theorem witness_CopyRequests : (owning [grid]).me.guardOn g0 = true ∧
    (((owning [grid]).me.rg 5).getLsbD 63 = false ∧ ((owning [grid]).me.rg 6).getLsbD 63 = true ∧
      (owning [grid]).handle? ((owning [grid]).me.rg 6) = none) ∧
    ((owning [{ grid with freed := true }]).handle? 0x8000000000000005 = some { grid with freed := true }) ∧
    ((owning [{ grid with ctx := 1 }]).handle? 0x8000000000000005 = some { grid with ctx := 1 } ∧
      (owning [{ grid with ctx := 1 }]).myCore.ctx = 0 ∧ (owning [{ grid with ctx := 1 }]).me.priv = false) ∧
    ladderWords.ops.getLsbD 15 = false ∧ 4 < (5 : Fin 16).val ∧ 3 ≤ (3 : Fin 16).val ∧
    ((owning [grid]).me.rg 7).toNat % 16 = 0 ∧ ((owning [grid]).me.rg 8).toNat % 16 ≠ 0 ∧
    queueFree (owning [grid]) 1 ∧ queueFree (owning [grid]) 2 ∧ MayCopy (owning [grid]) 0x8000000000000005 [0, 3] 1 ∧
    MayCopy (owning [grid]) 0x8000000000000005 [1] 2 ∧ MayCopy (owning [grid]) 0x8000000000000005 [4] 1 ∧
    MayCopy (owning [grid]) 0x8000000000000005 [5] 2 ∧ MayCopy (owning [grid]) 0x8000000000000005 [6] 2 ∧
    (owning [grid]).myCore.eq1 = [] ∧ (owning [grid]).myCore.wins[(3 : Fin 8)] = none := by
  refine ⟨?_, ?_, ?_, ?_, ?_, ?_, ?_, ?_, ?_, ?free1, ?free2, ?a, ?b, ?c, ?d, ?e, ?_, ?_⟩
  case a | c => exact mayCopy_grid _ _ (by decide) (.inl rfl)
  case b | d | e => exact mayCopy_grid _ _ (by decide) (.inr rfl)
  case free1 | free2 => unfold queueFree; decide +kernel
  all_goals decide +kernel

theorem test_copy_requests :
    trapsWith (.hfree g0 3 5) (owning [grid]) = some (0x30, 5) ∧
    trapsWith (.hfree g0 3 6) (owning [grid]) = some (0x130, 0x8000000000000006) ∧
    trapsWith (.hfree g0 3 4) (owning [{ grid with ctx := 1 }]) = some (0x230, 0x8000000000000005) ∧
    trapsWith (.hexport g0 3 4 5) (owning [ladderWords]) = some (0x0F31, 0x8000000000000005) ∧
    trapsWith (.hquery g0 3 4 3) (owning [grid]) = some (2, 0x1000) ∧
    trapsWith (.hcopyLd ⟨g0, 3, 4, .ls 9, 8⟩ false) (owning [grid]) = some (0x12, 0x48) ∧
    (match exec (.hcopyLd ⟨g0, 3, 4, .ls 9, 7⟩ true) (owning [grid]) with
      | .next t => (t.core 1).eq1.map (fun o => (o.kind, o.desc, o.side)) == [(.ld true, 0x40, .at' 0x100)]
      | _ => false) = true ∧
    (match exec (.hscatAdd ⟨g0, 3, 4, .c 2, 7⟩) (owning [grid]) with
      | .next t => (t.core 1).eq2.map (fun o => (o.kind, o.side)) == [(.scat true, .cis 2)]
      | _ => false) = true := by decide +kernel

/-! ### Copies in flight -/

/-- A box of columns 1 to 3 and rows 0 to 1, of which column 3 lies beyond the handle; local positions from 8 on, 4 apart. -/
def box : Shape := .box #v[1, 0, 0, 0] #v[3, 2, 1, 1] #v[4, 0, 0] 8
def copying (kind : CopyKind) : CopyOp :=
  { id := 9, strand := 0, kind := kind, h := 0x8000000000000005, dst := some 3, side := .at' 0x100, desc := 0x40, priv := true, dfield := 3
    major := 0xD7 }
def descriptor : List (Nat × Byte) := placeAt 0x40 ([1, 0, 0, 0, 3, 2, 1, 1, 4, 0, 0, 8].flatMap (fun n => leBytes 4 n))

/-- The copy heads EQ1, and the register of its status waits. -/
def inFlight (o : CopyOp) : State := (owning [grid]).modMyCore (fun k => { k with
  ls := descriptor.filter (fun x => x.2 != 0) ++ [(0x112, 0xAA), (0x113, 0xBB)]
  eq1 := [o]
  strands := k.strands.set 0 { k.strands[(0 : Fin 11)] with pend := [(9, .g 3)] } })

theorem ready (o : CopyOp) (h : o.queue = 1 ∧ o.id = 9 ∧ o.strand = 0 ∧ o.dst = some 3 ∧ o.h = 0x8000000000000005) :
    CopyReady (inFlight o) 1 o [] 3 grid := by
  obtain ⟨hq, hi, hs, hd, hh⟩ := h
  have e1 : ((inFlight o).core 1).eq1 = [o] := rfl
  have e2 : ((inFlight o).core 1).eq2 = [] := rfl
  have e3 : ((inFlight o).cluster (1 / 36)).inject.getLsbD 63 = false := by
    have : (inFlight o).cluster (1 / 36) = demo.cluster 0 := rfl
    rw [this]
    decide +kernel
  unfold CopyReady
  refine ⟨by rw [hq]; exact e1, by simp [e1, e2], by simp, rfl, rfl, ?_, rfl, hd, by decide, ?_, rfl, by rw [hh]; rfl,
      rfl, rfl, rfl, rfl, e3⟩
  · intro i
    have : ((inFlight o).core 1).wins = Vector.replicate 8 none := rfl
    rw [this]
    simp
  · rw [hi, hs]
    exact List.mem_singleton.mpr rfl

theorem witness_CopiesRun_start : CopyReady (inFlight (copying (.ld false))) 1 (copying (.ld false)) [] 3 grid ∧
    ((inFlight (copying (.ld false))).strandAt 1 0).buf = [] ∧ (copying (.ld false)).started = false ∧ grid.holder = none ∧
    (copying (.ld false)).queue = 1 ∧
    (∀ x ∈ (inFlight (copying (.ld false))).cores, ∀ y ∈ x.2.eq1 ++ x.2.eq2, y.started = false) ∧
    (let k := (inFlight (copying (.ld false))).core 1
     (¬ ∃ i, 2 ≤ i ∧ i < 4 ∧ (word32 k 0x40 (4 * i) ≠ 0 ∨ 1 < word32 k 0x40 (16 + 4 * i))) ∧
      (¬ ∃ i, 48 ≤ i ∧ i < 64 ∧ lsByte k (0x40 + i) ≠ 0) ∧
      word32 k 0x40 16 * word32 k 0x40 20 * word32 k 0x40 24 * word32 k 0x40 28 ≤ 2 ^ 47) := by
  refine ⟨ready _ (by decide), by decide +kernel, rfl, rfl, rfl, by decide +kernel, ?_, ?_, by decide +kernel⟩
  · rintro ⟨i, h, h', hc⟩
    have : i = 2 ∨ i = 3 := by omega
    rcases this with rfl | rfl <;> revert hc <;> decide +kernel
  · have : ∀ i, i < 64 → 48 ≤ i → lsByte ((inFlight (copying (.ld false))).core 1) (0x40 + i) = 0 := by decide +kernel
    rintro ⟨i, h, h', hc⟩
    exact hc (this i h' h)

/-- The copy of a list of rows heads EQ2: rows 5, which is none, and 1, with 8 local positions to a row. -/
def inRows (o : CopyOp) : State := (owning [grid]).modMyCore (fun k => { k with
  ls := (placeAt 0x40 ([2, 8, 0, 0, 5, 1].flatMap (fun n => leBytes 4 n))).filter (fun x => x.2 != 0) ++ [(0x112, 0xAA), (0x113, 0xBB)]
  eq2 := [o]
  strands := k.strands.set 0 { k.strands[(0 : Fin 11)] with pend := [(9, .g 3)] } })

theorem readyRows (o : CopyOp) (h : o.queue = 2 ∧ o.id = 9 ∧ o.strand = 0 ∧ o.dst = some 3 ∧ o.h = 0x8000000000000005) :
    CopyReady (inRows o) 1 o [] 3 grid := by
  obtain ⟨hq, hi, hs, hd, hh⟩ := h
  have e1 : ((inRows o).core 1).eq1 = [] := rfl
  have e2 : ((inRows o).core 1).eq2 = [o] := rfl
  have e3 : ((inRows o).cluster (1 / 36)).inject.getLsbD 63 = false := by
    have : (inRows o).cluster (1 / 36) = demo.cluster 0 := rfl
    rw [this]
    decide +kernel
  unfold CopyReady
  refine ⟨by rw [hq]; exact e2, by simp [e1, e2], by simp, rfl, rfl, ?_, rfl, hd, by decide, ?_, rfl, by rw [hh]; rfl,
      rfl, rfl, rfl, rfl, e3⟩
  · intro i
    have : ((inRows o).core 1).wins = Vector.replicate 8 none := rfl
    rw [this]
    simp
  · rw [hi, hs]
    exact List.mem_singleton.mpr rfl

theorem witness_CopiesRun_rows : (∀ kd ∈ [CopyKind.gath, .scat false, .scat true], CopyReady (inRows (copying kd)) 1 (copying kd) [] 3 grid) ∧
    (let k := (inRows (copying .gath)).core 1
     word32 k 0x40 0 = 2 ∧ word32 k 0x40 4 = 8 ∧ word32 k 0x40 8 = 0 ∧ word32 k 0x40 12 = 0 ∧ word32 k 0x40 16 = 5 ∧
      word32 k 0x40 20 = 1) ∧ (grid.rfmt = 0 ∧ grid.ty = .i16) ∧ ladderWords.rfmt ≠ 0 ∧
    ((inRows (copying .gath)).strandAt 1 0).buf = [] ∧
    (∀ x ∈ (inRows (copying .gath)).cores, ∀ y ∈ x.2.eq1 ++ x.2.eq2, y.started = false) := by
  refine ⟨?_, by decide +kernel⟩
  intro kd h
  simp only [List.mem_cons, List.not_mem_nil, or_false] at h
  rcases h with rfl | rfl | rfl <;> exact readyRows _ (by decide)

/-- The same descriptor with its last byte set, which refuses it. -/
def refusedCopy : State := (inFlight (copying (.ld false))).modMyCore (fun k => { k with ls := memSet k.ls 0x7F 1 })

theorem witness_CopiesRun_refused : ∃ i, 48 ≤ i ∧ i < 64 ∧ lsByte (refusedCopy.core 1) (0x40 + i) ≠ 0 := ⟨63, by decide +kernel⟩

def moved (kind : CopyKind) : CopyOp := { copying kind with started := true, shape := some box }
def movedRows (kind : CopyKind) : CopyOp := { copying kind with started := true, shape := some (.rows 8 [5, 1]) }
/-- The same handle of nibbles. -/
def nibbles : Handle := { grid with ty := .n4, data := [(0, 0x21), (1, 0x03), (64, 0x54), (65, 0x06)] }

theorem witness_CopiesRun_move : (∀ kd ∈ [CopyKind.ld false, .ld true, .st],
      CopyReady (inFlight (moved kd)) 1 (moved kd) [] 3 grid ∧ (moved kd).queue = 1 ∧ (moved kd).stall = none ∧
          (moved kd).src = none) ∧
    (∀ kd ∈ [CopyKind.gath, .scat false, .scat true], CopyReady (inRows (movedRows kd)) 1 (movedRows kd) [] 3 grid) ∧
    (∀ t : Bool, let ins := insides (boxList grid #v[1, 0, 0, 0] #v[3, 2, 1, 1] #v[4, 0, 0] 8 t)
     ins.length = 4 ∧ (ins.map Elem.pos).Nodup ∧ FitsIn ((inFlight (moved .st)).core 1) grid 0x100 ins) ∧
    (let ins := insides (rowList grid 8 [5, 1])
     ins = [⟨0, 1, 8⟩, ⟨1, 1, 9⟩, ⟨2, 1, 10⟩] ∧ (ins.map Elem.pos).Nodup ∧ [5, 1].Nodup ∧
      FitsIn ((inRows (movedRows .gath)).core 1) grid 0x100 ins) ∧
    ((inFlight (moved .st)).core 1).rq.length < 32 ∧ ((inFlight (moved .st)).core 1).ovf = [] ∧
    ((inRows (movedRows .gath)).core 1).rq.length < 32 ∧ ((inRows (movedRows .gath)).core 1).ovf = [] := by
  refine ⟨?_, ?_, by unfold FitsIn; decide +kernel⟩ <;>
    · intro kd h
      simp only [List.mem_cons, List.not_mem_nil, or_false] at h
      rcases h with rfl | rfl | rfl <;> first | exact ⟨ready _ (by decide), rfl, rfl, rfl⟩ | exact readyRows _ (by decide)

/-- R271, R272, R278: four of six elements move, so the status is 1 with the count 4. -/
theorem test_copies :
    (match exec (.copyStart 1 1) (inFlight (copying .st)) with
      | .next t => (t.core 1).eq1.map (fun o => (o.started, o.shape)) == [(true,
          some box)] && t.handles.map Handle.holder == [some (1, 9)]
      | _ => false) = true ∧
    (match exec (.copyStart 1 1) refusedCopy with | .next t => t.me.rg 3 == 0x2000000000000000 && (t.core 1).eq1.isEmpty | _ => false) = true ∧
    (match exec (.copyComplete 1 1) (inFlight (moved (.ld false))) with
      | .next t => t.me.rg 3 == 0x1000000000000004 && memRead (t.core 1).ls 0x110 4 == [2, 0, 3,
          0] && memRead (t.core 1).ls 0x118 4 == [5, 0, 6, 0]
      | _ => false) = true ∧
    (match exec (.copyComplete 1 1) (inFlight (moved (.ld true))) with
      | .next t => memRead (t.core 1).ls 0x110 4 == [2, 0, 5, 0] && memRead (t.core 1).ls 0x118 4 == [3, 0, 6, 0]
      | _ => false) = true ∧
    (match exec (.copyComplete 1 1) (inFlight (moved .st)) with
      | .next t => (t.handles.map (fun h => (h.get 0 0, h.get 1 0, h.get 2 0, h.get 2 1))) == [(1, 0, 0xBBAA, 0)]
      | _ => false) = true := by decide +kernel

/-- R81, R82, R275, R277: row 1 of a list moves and row 5 does not; a sum that leaves what it adds to in place; a list with
byte 8 set is refused; nibbles move into the halves of their bytes. -/
theorem test_row_copies :
    (match exec (.copyStart 1 2) (inRows (copying .gath)) with
      | .next t => (t.core 1).eq2.map (fun o => (o.started, o.shape)) == [(true, some (.rows 8 [5, 1]))]
      | _ => false) = true ∧
    (match exec (.copyStart 1 2) ((inRows (copying .gath)).modMyCore (fun k => { k with ls := memSet k.ls 0x48 1 })) with
      | .next t => t.me.rg 3 == 0x2000000000000000 && (t.core 1).eq2.isEmpty
      | _ => false) = true ∧
    (match exec (.copyComplete 1 2) (inRows (movedRows .gath)) with
      | .next t => t.me.rg 3 == 0x1000000000000003 && memRead (t.core 1).ls 0x110 6 == [4, 0, 5, 0, 6, 0]
      | _ => false) = true ∧
    (match exec (.copyComplete 1 2) (inRows (movedRows (.scat false))) with
      | .next t => (t.handles.map (fun h => (h.get 0 0, h.get 0 1, h.get 1 1))) == [(1, 0, 0xBBAA)]
      | _ => false) = true ∧
    (match exec (.copyComplete 1 2) (inRows (movedRows (.scat true))) with
      | .next t => (t.handles.map (fun h => (h.get 0 0, h.get 0 1, h.get 1 1))) == [(1, 4, 0xBBAF)]
      | _ => false) = true ∧
    (match exec (.copyComplete 1 1) { inFlight (moved (.ld false)) with handles := [nibbles] } with
      | .next t => t.me.rg 3 == 0x1000000000000004 && memRead (t.core 1).ls 0x104 3 == [0x32, 0, 0x65]
      | _ => false) = true := by decide +kernel

/-- Window 3 of columns 1 and 2, absent, with its fill in EQ1. -/
def filling' (started : Bool) : State := (owning [{ grid with holder := if started then some (1, 9) else none }]).modMyCore (fun k => { k with
  eq1 := [{ id := 9, strand := 0, kind := .fill 3, h := if started then grid.v else 0, started := started }]
  wins := k.wins.set 3 (some ⟨grid.v, 0x100, .box #v[1, 0, 0, 0] #v[2, 2, 1, 1] #v[4, 0, 0] 8, false, 0x100, 0x120, false, 0, 0⟩) })

theorem witness_FillsAndFaults_fill : (∀ b : Bool, ((filling' b).core 1).eq1.map CopyOp.kind = [.fill 3] ∧
    ((filling' b).core 1).eq1.map CopyOp.dst = [none] ∧
      ((filling' b).core 1).eq1.map CopyOp.started = [b] ∧ ((filling' b).core 1).eq2 = [] ∧
      ((filling' b).core 1).wins[(3 : Fin 8)].map Window.present = some false ∧ (filling' b).handles.map Handle.v = [grid.v] ∧
      (filling' b).handles.map Handle.outside = [none]) ∧
    (filling' false).handles.map Handle.holder = [none] ∧
    (∀ x ∈ (filling' false).cores, ∀ y ∈ x.2.eq1 ++ x.2.eq2, y.started = false) ∧
    (let all := boxList grid #v[1, 0, 0, 0] #v[2, 2, 1, 1] #v[4, 0, 0] 8 false
     all.all Prod.snd = true ∧ ((insides all).map Elem.pos).Nodup ∧ FitsIn ((filling' true).core 1) grid 0x100 (insides all)) := by
  unfold FitsIn
  decide +kernel

theorem test_fills :
    (match exec (.windowFill 1 3) (filling' false) with | .next t => (t.core 1).eq1.map CopyOp.started == [true] | _ => false) = true ∧
    (match exec (.windowFillComplete 1 3) (filling' true) with
      | .next t => memRead (t.core 1).ls 0x110 4 == [2, 0, 3,
          0] && ((t.core 1).wins[(3 : Fin 8)]).map Window.present == some true &&
          (t.core 1).eq1.isEmpty
      | _ => false) = true ∧
    sleeps (.windowFillComplete 1 3) (filling' false) = true ∧ sleeps (.windowFill 1 3) (filling' true) = true := by decide +kernel

/-- The ring has room, and has none. -/
def faulting (tail : BitVec 7) : State := { inFlight (moved (.ld false)) with preqBase := 0x40000, preqHead := 127, preqTail := tail }
/-- The copy waits on a page; an answer to its request, or to another, stands at the hubs. -/
def answering (x : Word) (priv : Bool) : State :=
  { inFlight { moved (.ld false) with stall := some ⟨0x7000, false, 0⟩ } with
    hubWrites := [⟨0xA1, 0, 64, x, some 1, priv⟩], preqs := [⟨7, 9, 0, 0x7000, false, true⟩] }

theorem witness_FillsAndFaults_fault : CopyReady (faulting 1) 1 (moved (.ld false)) [] 3 grid ∧ (moved (.ld false)).moved ≤ 4 ∧
    4 ≤ ((spots #v[1, 0, 0, 0] #v[3, 2, 1, 1] #v[4, 0, 0] 8 false).filter (insideOf grid)).length ∧ (faulting 1).preqs = [] ∧
    (faulting 1).preqHead + 1 ≠ (faulting 1).preqTail ∧ (faulting 0).preqHead + 1 = (faulting 0).preqTail ∧
    (answering 0x700000001 true).cores = [(1, (answering 0x700000001 true).core 1)] ∧
    CopyReady (answering 0x700000001 true) 1 { moved (.ld false) with stall := some ⟨0x7000, false, 0⟩ } [] 3 grid ∧
    (0x700000001 : Word).toNat / 2 ^ 32 = (7 : BitVec 32).toNat ∧ (0x700000001 : Word).toNat % 4 = 1 ∧
    (0x700000002 : Word).toNat % 4 = 2 ∧ ¬ (0x800000001 : Word).toNat / 2 ^ 32 = (7 : BitVec 32).toNat := by
  refine ⟨ready _ (by decide), ?_, ?_, rfl, ?_, ?_, rfl, ready _ (by decide), ?_, ?_, ?_, ?_⟩ <;> decide +kernel

/-- R280, R326: the request in the ring; a fault beside a full ring; the answers 1 and 2, and those that count for nothing. -/
theorem test_faults :
    (match exec (.copyFault 1 1 0x7000 4) (faulting 1) with
      | .next t => t.preqHead == 0 && t.preqs.map PageReq.posted == [true]
      | _ => false) = true ∧
    (match exec (.copyFault 1 1 0x7000 4) (faulting 0) with | .next t => t.preqHead == 127 && t.preqs.map PageReq.posted == [false] | _ => false) = true ∧
    (match exec (.pageAnswer ⟨0xA1, 0, 64, 0x700000001, some 1, true⟩) (answering 0x700000001 true) with
      | .next t => (t.core 1).eq1.map CopyOp.stall == [none] && t.preqs.isEmpty
      | _ => false) = true ∧
    (match exec (.pageAnswer ⟨0xA1, 0, 64, 0x700000002, some 1, true⟩) (answering 0x700000002 true) with
      | .next t => t.me.rg 3 == 0x3013000000000000 && t.preqs.isEmpty && (t.core 1).eq1.isEmpty
      | _ => false) = true ∧
    (match exec (.pageAnswer ⟨0xA1, 0, 64, 0x700000001, some 1, false⟩) (answering 0x700000001 false) with
      | .next t => t.hubWrites.isEmpty && t.preqs.length == 1
      | _ => false) = true := by decide +kernel

/-! ### The Lapidary and the sequencer -/

/-- A request has left core 1; these handles exist. -/
def asking (r : LapReq) (hs : List Handle) : State := { outgoing { strand := 0, e := { id := 9, op := .lap r 3, rel := true, scope := .mod } } with
  handles := hs, tasks := [] }
def token : Token := ⟨0x4000000000000001, grid.v, some 0, 0⟩
/-- The token names another module. -/
def askingElsewhere : State := { asking (.himport token.v) [grid] with tokens := [{ token with dest := some 1 }] }
def askingToken (v : Word) : State := { asking (.himport v) [grid] with tokens := [token] }
/-- Another task holds an entry on the handle. -/
def askingShared : State := { asking (.hfree grid.v) [grid] with
  tasks := [{ placeTask 0 with id := 5, entries := [⟨grid.v, 0, 0, 1, false⟩] }] }
def newShape : List Byte := [3, 2, 1, 1].flatMap (fun n => leBytes 4 n) ++ [2, 1] ++ List.replicate 14 0

theorem witness_LapidaryRequests :
    (let s := asking (.hfree grid.v) [grid]
     (s.core 1).outq.map (fun o => (o.held, o.go, o.stage)) = [(false, true, 0)] ∧
         (9, RegName.g 3) ∈ (s.strandAt 1 0).pend ∧ s.pairs = [] ∧
      s.handles = [grid] ∧ grid.imported = none ∧ grid.holder = none ∧ grid.freed = false ∧ s.tasks = []) ∧
    (∃ x ∈ askingShared.tasks, (asking (.hfree grid.v) [grid]).core 1 ≠ {} ∧ none ≠ some x.id ∧ x.live = true ∧
      ∃ e ∈ x.entries, e.h = grid.v ∧ e.retired = false) ∧
    ({ grid with freed := true }.freed = true) ∧
    (grid.rfmt = 0 ∧ (grid.ops ||| 0x80).getLsbD 7 = true) ∧ ((grid.ops ||| 0x8001) = grid.ops ∧
        (grid.ops.getLsbD 7 = true ↔ grid.rfmt ≠ 0)) ∧
    (2 ^ 30 ≤ (0x40000000 : Word).toNat ∧ (0x3FFFFFFF : Word).toNat < 2 ^ 30) ∧
    ((askingToken token.v).tokens = [token] ∧ token.h = grid.v ∧ token.dest = some (askingToken token.v).self.toNat ∧
        token.ctx = 0) ∧
    (∀ k ∈ (askingToken 5).tokens, k.v ≠ 5) ∧
    (newShape.length = 32 ∧ (∀ i, i < 4 → 0 < leNat ((newShape.drop (4 * i)).take 4)) ∧ 0 < (newShape.getD 16 0).toNat ∧
      (newShape.getD 16 0).toNat ≤ 4 ∧ (newShape.getD 17 0).toNat < 16 ∧ (newShape.drop 18).all (fun b => b == 0) = true ∧
      (0x8001 : BitVec 16).getLsbD 7 = false) ∧
    (let h : Handle := { grid with ops := 3 }
     let n : BitVec 16 := h.ops ||| 0x10
     h.freed = false ∧ h.holder = none ∧ (n.getLsbD 7 = true ↔ h.rfmt ≠ 0) ∧ h.rfmt = 0 ∧ h.classes = 1 ∧
      n &&& ~~~h.ops &&& 0x70 ≠ 0 ∧ n.getLsbD 13 = false) ∧
    ((newShape.set 16 0).length = 32 ∧ ((newShape.set 16 0).getD 16 0).toNat = 0) := by
  refine ⟨?_, ⟨_, List.mem_singleton.mpr rfl, ?_, ?_, ?_, _, List.mem_singleton.mpr rfl, rfl, rfl⟩, rfl, ?_⟩ <;>
    decide +kernel

theorem witness_LapidaryRequests_move : (asking (.hfree grid.v) [grid]).handles = [grid] ∧ grid.freed = false ∧ grid.holder = none ∧
    (grid.ops.getLsbD 10 = true → (1 : BitVec 8).getLsbD 7 = true) ∧ (grid.ops.getLsbD 13 = true →
        (1 : BitVec 8).getLsbD 1 = true) ∧
    (grid.ops.getLsbD 7 = true → (1 : BitVec 8).getLsbD 2 = true) ∧ (grid.ops.getLsbD 14 = true → (1 : BitVec 8).getLsbD 5 = true) ∧
    ({ grid with ops := 0x4001 }.ops.getLsbD 14 = true ∧ (1 : BitVec 8).getLsbD 5 = false) ∧
    ({ grid with ops := 3 }.classes = 1 ∧ { grid with ops := 3 }.count * grid.bits ≤ 8 * 4096 ∧
        (3 : BitVec 16) &&& 0xFFF8 = 0 ∧ (2 : BitVec 8) ≠ 1) := by decide +kernel

def reply (s : State) : Option Word :=
  match exec (.lapidaryRequest 1 9) s with
  | .next t => if (t.core 1).outq.isEmpty then some (t.me.rg 3) else none
  | _ => none

theorem test_lapidary : reply (asking (.hfree grid.v) [grid]) = some 0 ∧
    reply (asking (.hfree grid.v) [{ grid with freed := true }]) = some 3 ∧
    reply askingShared = some 3 ∧ reply (asking (.hwiden grid.v 0x80) [grid]) = some 0x30000807B ∧
    reply (asking (.hquery grid.v 0) [grid]) = some 0x0101807B ∧ reply (asking (.hquery grid.v 1) [grid]) = some 6 ∧
    reply (asking (.hexport grid.v 0x40000000) [grid]) = some 1 ∧ reply askingElsewhere = some 1 ∧
    reply (asking (.hnew 0x40 0x8001 false (newShape.set 16 0)) []) = some 1 ∧
    reply (asking (.hwiden grid.v 0x10) [{ grid with ops := 3 }]) = some 0x100000013 ∧
    reply (asking (.hwiden grid.v 1) [grid]) = some 0x807B ∧ reply (asking (.hnarrow grid.v true false) [grid]) = some 0x30000807B ∧
    reply (asking (.hnarrow grid.v false true) [grid]) = some 0x807B ∧
    reply (asking (.hnarrow grid.v false false) [{ grid with freed := true }]) = some 0x400000000 ∧
    (match exec (.lapidaryRerepresent grid.v 1) (asking (.hfree grid.v) [{ grid with rerep := 0xFFFF }]) with
      | .next t => t.handles.map Handle.rerep == [0xFFFF]
      | _ => false) = true := by decide +kernel

/-- Two windows: one closed, with two announcements, and one open. -/
def announced : State := { demo with
  scFlight := [[⟨5, 2, 1, 0, 41⟩, ⟨5, 1, 1, 0, 40⟩, ⟨3, 9, 2, 0, 39⟩]]
  scWindow := [⟨1, 1, 3, 0, 50⟩] }

theorem witness_SequencerWindows : announced.scFlight.length = 1 ∧ demo.scFlight = [] := by decide +kernel

/-- R312: by logical core, then by number. -/
theorem test_sequencer :
    (match exec .scWindowDeliver announced with
      | .next t => t.scOrder.map (fun a => (a.lnum, a.seq)) == [(3, 9), (5, 1), (5, 2)] && t.scFlight.isEmpty
      | _ => false) = true ∧
    (match exec .scWindowEnd announced with | .next t => t.scFlight.length == 2 && t.scWindow.isEmpty | _ => false) = true := by
  decide +kernel

/-! ### Pairs, repeats, chambers -/

/-- Intervals: 0, 512, 511, 65,536, 65,537. -/
def pairing : State := holding demo [(4, 0), (5, 512), (6, 511), (7, 65536), (8, 65537)]
/-- The east neighbour is taken; core 1 leads core 2. -/
def pairingWest : State := pairing.modCore 2 (fun k => { k with task := some 9 })
def leading (p : PairRec) : State := { (pairing.modCore 1 (fun k => { k with pairOf := some 1, fp := 0x11, fpLast := 0x22 })).modCore 2
  (fun k => { k with pairOf := some 1 }) with pairs := [p] }
def thePair : PairRec := { leader := 1, shadow := 2, interval := 512, snap := { fp := 0x33 }, rollbacks := 3 }

theorem witness_PairInstructions : pairing.me.guardOn g0 = true ∧ pairing.cur.2 = 0 ∧
    (∀ h : Fin 11, h ≠ 0 → (pairing.core 1).strands[h].live = false) ∧
    (∀ q : Fin 4, (pairing.core 1).opsIn q = [] ∧ (pairing.core 1).err[q] = none) ∧ (∀ qs i, pairing.me.wait ≠ .queue qs i) ∧
    (1 % 6 < 5 ∧ pairing.freeWorker 2 = true) ∧ pairingWest.freeWorker 2 = false ∧ pairingWest.freeWorker 0 = false ∧
    pairing.myCore.printed.trail = [] ∧ pairing.leads 1 = none ∧ (leading thePair).leads 1 = some thePair ∧
        ((leading thePair).core 1).pairOf ≠ none ∧
    (∀ q : Fin 4, ((leading thePair).core 1).opsIn q = []) := by
  refine ⟨?_, ?_, ?_, ?_, noWait (by decide +kernel), ?_, ?_, ?_, ?_, ?_, ?_, ?_, ?_⟩ <;> decide +kernel

/-- Core 5 ends its row; its west neighbour is a free worker. -/
def pairingAtFive : State := { (demo.modCore 5 (fun _ => { (demo.core 1) with lnum := 0 })) with cur := (5, 0) }

theorem test_pair :
    ([4, 5, 7] : List (Fin 32)).all (fun a => match exec (.pair g0 3 a) pairing with
      | .next t => t.me.rg 3 == 0 && t.pairs.map (fun p => (p.leader, p.shadow)) == [(1, 2)] && (t.core 2).pairOf == some 1
      | _ => false) = true ∧
    leaves' (.pair g0 3 6) pairing 3 = some 3 ∧ leaves' (.pair g0 3 8) pairing 3 = some 3 ∧
    leaves' (.pair g0 3 4) pairingWest 3 = some 1 ∧ leaves' (.pair g0 3 4) (leading thePair) 3 = some 2 ∧
    (match exec (.pair g0 3 4) pairingAtFive with
      | .next t => t.me.rg 3 == 0 && t.pairs.map (fun p => (p.leader, p.shadow, p.interval)) == [(5, 4, 4096)]
      | _ => false) = true ∧
    leaves' (.unpair g0 3) pairing 3 = some 1 ∧
    (match exec (.unpair g0 3) (leading thePair) with
      | .next t => t.me.rg 3 == 0 && t.pairs.isEmpty && (t.core 1).pairOf.isNone && (t.core 2).pairOf.isNone
      | _ => false) = true ∧
    leaves' (.fprint g0 3) (leading thePair) 3 = some 0x11 ∧ leaves' (.fprintLast g0 3) (leading thePair) 3 = some 0x22 ∧
    leaves' (.fprintSt g0 3) (leading thePair) 3 = some 0xC000030200000200 ∧ leaves' (.fprintSt g0 3) pairing 3 = some 0 := by
  decide +kernel

/-- The strand repeats `add.i64 g4, g5, g6` three times, each register one further, and then stands at 0x1010. -/
def adding : Alu2 := ⟨g0, 4, 5, .reg 6, .i64, false⟩
def repeated (i : Nat) : RepSeq := ⟨.add adding, 3, 1, 1, 1, i, { pc := 0x1010 }⟩
def repeating (i : Nat) : State := (holding demo [(5, 10), (6, 20), (7, 30), (8, 40), (9, 50)]).modCore 1 (fun k => { k with
  repOwner := some 0
  strands := k.strands.set 0 { k.strands[(0 : Fin 11)] with rep := some (repeated i), repact := true, repcnt := BitVec.ofNat _ (3 - i) } })

theorem witness_RepeatPrefix : (repeating 0).myCore.repOwner ≠ none ∧ demo.myCore.repOwner = none ∧ demo.me.repact = false ∧
    (∀ i : Fin 3, let s := repeating i.val
      let k := s.core 1
      let u := k.strands[(0 : Fin 11)]
      let r := repeated i.val
      k.repOwner = some 0 ∧ u.rep = some r ∧ r.i < r.n ∧ r.n ≤ 64 ∧ k.frozen = false ∧ u.gates = [] ∧ u.pend = [] ∧
      u.changes = [] ∧ k.pairOf = none ∧ s.pairs = [] ∧ u.guardOn adding.gd = true ∧ r.ahead.g = [] ∧ r.ahead.p = [] ∧
      ((4 + i.val : Nat) : Int) = 4 + r.i * r.sd.toInt) := by decide +kernel

/-- Bodies with two of their repeats, worked by hand from R142: steps of 1, -1, 3 and -4. -/
def steppedBodies : List (Instr × (BitVec 3 × BitVec 3 × BitVec 3) × Nat × Instr) := [
  (.sub ⟨g0, 4, 5, .reg 6, .i64, true⟩, (1, 7, 3), 2, .sub ⟨g0, 6, 3, .reg 12, .i64, true⟩),
  (.rol ⟨g0, 4, 5, .imm16 7, .n8, false⟩, (4, 0, 0), 1, .rol ⟨g0, 0, 5, .imm16 7, .n8, false⟩),
  (.vmul ⟨g0, .v 1, .c 15, .vec (.v 2), .f32, false, .rup, some ⟨0, true⟩⟩, (1, 7, 0), 3,
    .vmul ⟨g0, .v 4, .c 12, .vec (.v 2), .f32, false, .rup, some ⟨0, true⟩⟩),
  (.vadd ⟨g0, .v 1, .v 2, .scal 31, .n32, false, .rne, none⟩, (1, 1, 7), 2, .vadd ⟨g0, .v 3, .v 4, .scal 29, .n32, false, .rne, none⟩),
  (.ld g0 3 ⟨4, 9, 2, true, .d16 8⟩ .i16 .plain .str, (1, 0, 1), 2, .ld g0 5 ⟨4, 11, 2, true, .d16 8⟩ .i16 .plain .str),
  (.st g0 3 ⟨4, 9, 2, false, .d32 8⟩ .i8 .plain .str, (7, 1, 0), 1, .st g0 2 ⟨5, 9, 2, false, .d32 8⟩ .i8 .plain .str),
  (.ldot2 ⟨g0, 60, .ls 4, .c 3, 2, .l2, .i8, some ⟨0, false⟩⟩, (1, 2, 1), 2,
    .ldot2 ⟨g0, 62, .ls 8, .c 5, 2, .l2, .i8, some ⟨0, false⟩⟩)]

theorem test_stepped_bodies : steppedBodies.all (fun x => x.1.wf && x.2.2.2.wf &&
    (match Decode.repeatOf x.1 x.2.1.1 x.2.1.2.1 x.2.1.2.2 x.2.2.1 with | .ok i => i == x.2.2.2 | .error _ => false)) = true := by
  decide +kernel

theorem witness_RepeatPrefix_steps : stepsG 2 7 5 3 ∧ stepsB 2 3 (.reg 6) (.reg 12) ∧ stepsB 1 0 (.imm16 7) (.imm16 7) ∧
    stepsV 3 7 (.c 15) (.c 12) ∧ stepsVB 2 7 (.scal 31) (.scal 29) ∧ stepsW 2 1 60 62 ∧ stepsE 2 2 (.ls 4) (.ls 8) ∧
    stepsE 2 1 (.c 3) (.c 5) := by
  refine ⟨?_, ?_, ⟨rfl, rfl⟩, ?_, ?_, ?_, ?_, ?_⟩ <;> simp only [stepsG, stepsB, stepsV, stepsVB, stepsW, stepsE] <;> decide

/-- The strand repeats `vadd v1, c2, v3` on a cistern with `n` slots filled. -/
def repeatedVec : RepSeq := ⟨.vadd ⟨g0, .v 1, .c 2, .vec (.v 3), .i32, false, .rne, some ⟨0, true⟩⟩, 3, 1, 0, 1, 1, { pc := 0x1010 }⟩
def repeatingVec (n : Nat) : State := (repeating 1).modCore 1 (fun k => { k with
  cist := k.cist.set 2 ⟨true, 0x100, 32, 8, 7, 7, n, 4, []⟩
  strands := k.strands.set 0 { k.strands[(0 : Fin 11)] with rep := some repeatedVec } })

theorem witness_RepeatPrefix_runs : ∀ n ∈ [0, 3], let s := repeatingVec n
    let u := (s.core 1).strands[(0 : Fin 11)]
    let b : Instr := .vadd ⟨g0, .v 2, .c 2, .vec (.v 4), .i32, false, .rne, some ⟨0, true⟩⟩
    (s.core 1).repOwner = some 0 ∧ u.rep = some repeatedVec ∧ (match Decode.repeatOf repeatedVec.body 1 0 1 1 with
      | .ok i => i == b | .error _ => false) = true ∧ b.repeatable = true ∧ (s.core 1).frozen = false ∧ u.gates = [] ∧ u.changes = [] ∧
    (∀ x ∈ b.regs, u.pending x = false) ∧ (s.core 1).pairOf = none ∧ s.pairs = [] ∧ repeatedVec.ahead.g = [] ∧
    repeatedVec.ahead.p = [] ∧
    (match exec b { s with cur := (1, 0), retired := false } with
      | .next t' => t'.retired == decide (n = 3) && t'.pairs.isEmpty
      | _ => false) = true := by decide +kernel

/-- A sequence that was interrupted at this PC with two repeats to go. -/
def interrupted : State := demo.modMe (fun t => { t with repact := true, repcnt := 2, repAt := 0x1000 })

theorem witness_RepeatPrefix_resumed : interrupted.myCore.repOwner = none ∧ interrupted.me.repact = true ∧
    1 ≤ interrupted.me.repcnt.toNat ∧ interrupted.me.repcnt.toNat ≤ (2 : Fin 64).val + 1 ∧ interrupted.me.repAt = interrupted.me.pc := by
  decide +kernel

theorem test_repeats_resume :
    (match exec (.rep 2 1 1 1 (.add adding)) interrupted with
      | .next t => t.retired && t.me.pc == 0x1000 && t.me.repcnt == 2 && t.me.rep.map RepSeq.i == some 1
      | _ => false) = true ∧
    (match exec (.rep 2 1 1 1 (.add adding)) (interrupted.modMe (fun t => { t with repAt := 0x2000 })) with
      | .next t => t.me.repcnt == 3 && t.me.rep.map RepSeq.i == some 0
      | _ => false) = true ∧
    (match exec (.repeatIssue 1) (repeatingVec 0) with
      | .next t => t.me.rep.map RepSeq.i == some 1 && t.me.blk == 2 && t.me.pc == 0x1000
      | _ => false) = true ∧
    (match exec (.repeatIssue 1) (repeatingVec 3) with
      | .next t => t.me.rep.map RepSeq.i == some 2 && t.me.repcnt == 1 && t.me.pc == 0x1000
      | _ => false) = true := by decide +kernel

theorem test_repeats :
    (match exec (.repeatIssue 1) (repeating 1) with
      | .next t => t.me.rg 5 == 50 && t.me.rg 4 == 0 && t.me.pc == 0x1000 && t.me.rep.map RepSeq.i == some 2 && t.me.repcnt == 1
      | _ => false) = true ∧
    (match exec (.repeatIssue 1) (repeating 2) with
      | .next t => t.me.rg 6 == 70 && t.me.pc == 0x1010 && t.me.rep.isNone && !t.me.repact && (t.core 1).repOwner.isNone
      | _ => false) = true ∧
    (match exec (.rep 63 1 0 7 (.add adding)) demo with
      | .next t => t.retired && t.me.pc == 0x1000 && t.me.repact && t.me.repcnt == 64 && (t.core 1).repOwner == some 0
      | _ => false) = true ∧
    (match exec (.rep 63 1 0 7 (.add adding)) (repeating 0) with
      | .next t => !t.retired && t.me.blk == 0 && t.me.pc == 0x1000
      | _ => false) = true := by decide +kernel

/-- Chamber 9 is active in the context with members 0 and 1; the strand's registers name descriptors, chambers, and a list
at 0x40 of the members that `l` gives. -/
def chambered (l : List Nat) : State := { holding ((moving [] []).modMyCore (fun k => { k with
    ls := memSetAll [] (placeAt 0x40 (l.flatMap (leBytes 2))) }))
      [(4, 0x40), (5, 0x48), (6, 9), (7, 10), (8, 1), (9, 2), (10, 4608)] with
  chambers := [(9, { ctx := 0, view := 3, members := [0, 1], rank := 1, mode := true, kept := 2, joined := 3, departed := 4
                     badMode := 5, badTag := 6 })] }
def twoMembers : List Nat := [2, 0, 0, 0, 0, 0, 0, 0, 0, 1]
def coll (b : Fin 32) (a : Fin 32) (ty : Ty) : Coll := ⟨g0, 3, a, b, ty, .rne⟩
/-- The strand waits for its request. -/
def requested (w : WaitObj) : State := (chambered twoMembers).modMe (fun t => { t with wait := w, waitAt := t.pc })

theorem witness_ChamberRequests : let s := chambered twoMembers
    s.me.guardOn g0 = true ∧ (s.me.rg 5).toNat % 16 ≠ 0 ∧ (s.me.rg 4).toNat % 16 = 0 ∧ s.chamberFor 10 s.myCore.ctx = none ∧
    (∃ c, s.chamberFor 9 s.myCore.ctx = some c ∧ s.myCore.e4m3 ≠ c.mode) ∧ s.me.dropped = none ∧
    s.myCore.err[(3 : Fin 4)] = none ∧ s.myCore.eq3.length < 8 ∧ s.me.bufCount < 16 ∧
    s.me.buf = [] ∧ s.pairs = [] ∧ s.me.wait = .none ∧ s.me.loads = [] ∧ s.myCore.bad = [] ∧ 0x40 + 9232 ≤ 4096 * s.myCore.size.toNat ∧
    4096 * s.myCore.size.toNat ≤ 2 ^ (s.myCore.lspan.toNat + 12) ∧
    (let half := fun (i : Nat) => leNat ((List.range 2).map (fun j => lsByte s.myCore (0x40 + 2 * i + j)))
     let list := (List.range (half 0)).map (fun i => half (8 + i))
     half 0 = 2 ∧ (∀ i : Fin 8, 1 ≤ i.val → half i.val = 0) ∧ list = [0, 1] ∧ list.Pairwise (· < ·) ∧
      s.routeOf s.myCore.ctx 0 = some s.self.toNat) ∧
    s.handles = [] ∧ (requested (.kview 10 (some 0))).me.waitAt = (requested (.kview 10 (some 0))).me.pc ∧
    (s.chamber 9).isSome = true ∧ s.chamber 10 = none ∧ s.kreqs = [] ∧ s.routeOf s.myCore.ctx 1 = some 7 ∧
    s.routeOf s.myCore.ctx 2 = none ∧ (s.me.rg 10).toNat = 4608 := by
  refine ⟨?_, ?_, ?_, ?_, ⟨_, rfl, ?_⟩, ?_⟩ <;> decide +kernel

/-- The descriptor names a handle of `e4m3` elements of the other mode. -/
def collNamed : State := { (chambered twoMembers).modMyCore (fun k => { k with
  ls := memSetAll k.ls (placeAt 0x50 (leBytes 8 0x8000000000000005)) }) with handles := [{ grid with ty := .e4m3, mode := true }] }

theorem witness_ChamberRequests_mode : let s := collNamed
    (s.handle? (BitVec.ofNat 64 (leNat (s.peek (s.myCore.lsRange (0x40 + 16) 8))))).map (fun h => (h.v, h.rfmt, h.ty, h.mode)) =
      some (0x8000000000000005, 0, .e4m3, !s.myCore.e4m3) := by decide +kernel

theorem witness_ChamberRequests_calm : calm (chambered twoMembers) := by unfold calm; decide +kernel

theorem test_chamber_requests :
    ([(.kred (coll 6 4 .i32) true, .kred), (.kbcast (coll 6 4 .f32), .kbcast), (.kgath (coll 6 4 .n8), .kgath),
        (.krsc (coll 6 4 .bf16), .krsc)]
      : List (Instr × CollMajor)).all (fun x => match exec x.1 (chambered twoMembers) with
      | .next t => t.retired && (t.core 1).eq3.map (fun o => (o.chm, o.major, o.desc)) == [(9, x.2, 0x40)] &&
          t.me.buf.map BufEntry.op == [BufOp.coll demo.nextId] && t.me.pend == [(demo.nextId, RegName.g 3)]
      | _ => false) = true ∧
    trapsWith (.kgath (coll 6 4 .i32)) collNamed = some (0x28, 0x8000000000000005) ∧
    trapsWith (.kgath (coll 6 5 .n8)) (chambered twoMembers) = some (0x12, 0x48) ∧
    trapsWith (.kred (coll 7 4 .n8) false) (chambered twoMembers) = some (0x29, 0) ∧
    trapsWith (.kbcast (coll 6 4 .e4m3)) (chambered twoMembers) = some (0x28, 0) ∧
    leaves' (.kview g0 3 4 6) (chambered twoMembers) 3 = some 3 ∧ leaves' (.kview g0 3 4 7) (chambered []) 3 = some 1 ∧
    leaves' (.kview g0 3 4 7) (chambered [1, 0, 0, 0, 0, 0, 0, 0, 1]) 3 = some 1 ∧
    trapsWith (.kview g0 3 5 7) (chambered twoMembers) = some (0x12, 0x48) ∧
    (match exec (.kview g0 3 4 7) (chambered twoMembers) with
      | .next t => t.me.blk == 1 && t.kreqs == [⟨10, 0, 1, 0, 0, [0, 1], false, false, 0⟩] && t.me.wait == WaitObj.kview 10 none
      | _ => false) = true ∧
    leaves' (.kjoin g0 3 10 7) (chambered twoMembers) 3 = some 1 ∧ leaves' (.kjoin g0 3 9 7) (chambered twoMembers) 3 = some 1 ∧
    (match exec (.kview g0 3 4 7) (requested (.kview 10 (some 0))) with
      | .next t => t.me.rg 3 == 0 && t.me.dom.chv && t.me.dom.chm == 10 && t.me.wait == WaitObj.none
      | _ => false) = true ∧
    (match exec (.kjoin g0 3 8 7) (requested (.kjoin 10 none)) with | .next t => t.me.blk == 1 && !t.retired | _ => false) = true := by
  decide +kernel

/-- The strand has arrived at a generation of chamber 9's barrier, which is open or released. -/
def kbarred (gen : Nat) : State := { requested (.barrier 4 0) with
  barriers := [{ dom := 4, ctx := 0, key := 9, lvl := 4, place := 0, gen := gen, done := 8 }] }

theorem witness_ChamberInstructions : let s := chambered twoMembers
    s.me.guardOn g0 = true ∧ s.cur.2 = 0 ∧ s.me.wait = .none ∧ s.chamberFor 10 s.myCore.ctx = none ∧ s.me.buf = [] ∧
    (s.chamberFor 9 s.myCore.ctx).isSome = true ∧ 4 < (5 : Fin 16).val ∧ (4 : Fin 16).val ≤ 4 ∧
    (∀ g ∈ [0, 1], (kbarred g).me.wait = .barrier 4 0 ∧ (kbarred g).me.waitAt = (kbarred g).me.pc ∧
        ((kbarred g).barriers.find? (fun x => x.dom == 4)).map Barrier.gen = some g) := by
  decide +kernel

theorem test_chambers :
    trapsWith (.kbar g0 3 7) (chambered twoMembers) = some (0x29, 0) ∧ leaves' (.kbar g0 3 6) (kbarred 1) 3 = some 8 ∧
    leaves' (.kbar g0 3 6) (kbarred 0) 3 = none ∧ leaves' (.kviewDrop g0 3 7) (chambered twoMembers) 3 = some 1 ∧
    (match exec (.kviewDrop g0 3 6) (chambered twoMembers) with
      | .next t => t.me.rg 3 == 0 && (t.chamber 9).isNone
      | _ => false) = true ∧
    trapsWith (.kstat g0 3 8 6 5) (chambered twoMembers) = some (2, 0x1000) ∧
    ([(0, 3), (1, 0x8000000000010002), (2, 0x0000000200030004), (3, 0x0000000500000006), (4,
        1)] : List (Fin 16 × Word)).all (fun x =>
      leaves' (.kstat g0 3 8 6 x.1) (chambered twoMembers) 3 == some x.2) = true ∧
    leaves' (.kstat g0 3 9 6 4) (chambered twoMembers) 3 = some 0xFFFFFFFFFFFFFFFF ∧
    leaves' (.kstat g0 3 8 7 0) (chambered twoMembers) 3 = some 0 := by decide +kernel

/-! ### The dispatcher, the host's records, pairs -/

/-- No task runs; the record waits in queue 1 of context 0, whose cores are 1 and 2. -/
def heldRec : Rec := { dwords := [0x3000, 0x4000, 2 ^ 42, 0], origin := 0x1F80, age := 7 }
def queued : State := { inContext.modCore 1 (fun _ => {}) with tasks := [], queues := [(1, [heldRec])] }
/-- Core 1 has a task of its own, so has core 2, or the cluster is halted. -/
def queuedSecond : State := queued.modCore 1 (fun k => { k with task := some 7 })
def queuedBusy : State := queuedSecond.modCore 2 (fun k => { k with task := some 7 })
def queuedNowhere : State := queued.modCluster 0 (fun k => { k with halt := true })
def queues : List State := [queued, queuedSecond, queuedBusy, queuedNowhere]

theorem queues_tables : ∀ s ∈ queues, s.queueOwner 1 = some 0 ∧ sget [] s.queues 1 = [heldRec] ∧ s.queues = [(1, [heldRec])] ∧
    s.tasks = [] ∧ (s.ctx 0).stopped = false ∧ (s.ctxBytes 0 (s.ctx 0).ctab (2 * (s.ctx 0).ncores)).toBool = true ∧
    (s.ctx 0).ncores = 2 ∧ s.coreOf 0 0 = some 1 ∧ s.coreOf 0 1 = some 2 ∧ s.dies[(0 : Fin 8)].reserve = [] ∧
    s.dies[(0 : Fin 8)].power = .online := by decide +kernel

/-- The cores of context 0 are 1 and 2. -/
theorem coreOf_two {s : State} (h : (s.ctx 0).ncores = 2) (h0 : s.coreOf 0 0 = some 1) (h1 : s.coreOf 0 1 = some 2) {n e : Nat}
    (h' : s.coreOf 0 n = some e) : (n = 0 ∧ e = 1) ∨ (n = 1 ∧ e = 2) := by
  match n with
  | 0 => simp_all
  | 1 => simp_all
  | n + 2 => simp [State.coreOf, State.coreEntry, h] at h'

theorem oneHead {s : State} (hs : s ∈ queues) : OneHead s 0 0 1 heldRec [] := by
  obtain ⟨h1, h2, h3, h4, h5, h6, h7, h8, h9, h10, h11⟩ := queues_tables s hs
  refine ⟨by decide, h1, h2, fun j hj => ?_, h4, h5, ?_, fun n e h => ?_, h10, h11⟩
  · rw [h3]; simp [sget, sfind, Ne.symm hj]
  · cases h : s.ctxBytes 0 (s.ctx 0).ctab (2 * (s.ctx 0).ncores) with
    | ok bs => exact ⟨bs, rfl⟩
    | error e => simp [h, Except.toBool] at h6
  · rcases coreOf_two h7 h8 h9 h with ⟨_, rfl⟩ | ⟨_, rfl⟩ <;> decide

theorem sound_queued {s : State} (hs : s ∈ [queued, queuedSecond, queuedBusy]) (e : Nat) (h : e = 1 ∨ e = 2) : SoundCore s e := by
  have q : ∀ s ∈ [queued, queuedSecond, queuedBusy], ∀ e ∈ [1, 2], (s.cluster (e / 36)).harvest.getLsbD (e % 36) = true ∧
      (s.cluster (e / 36)).sup ≠ e % 36 ∧ (s.cluster (e / 36)).hchain = 0 ∧ (s.cluster (e / 36)).halt = false ∧
      ∀ i : Fin 4, (s.cluster (e / 36)).cont[i].getLsbD 63 = false := by decide +kernel
  obtain ⟨h1, h2, h3, h4, h5⟩ := q s hs e (by simp; omega)
  exact ⟨h1, h2, fun i => by simp [entry_none h3], h4, fun i h => absurd ((h5 i).symm.trans h) (by decide)⟩

/-- The three clauses of a decision with one record: a core takes it, it ages, it is withdrawn. -/
theorem witness_TasksPlaced_place : OneHead queued 0 0 1 heldRec [] ∧ heldRec.w = 1 ∧ heldRec.h = 1 ∧ heldRec.bx = false ∧
    heldRec.sets = 0 ∧ Eligible queued 0 0 1 ∧ (∀ x, x < 1 → ¬ Eligible queued 0 0 x) ∧ queued.coreOf 0 0 = some 1 ∧
    (∀ m, m < 0 → queued.coreOf 0 m ≠ some 1) := by
  obtain ⟨_, _, _, _, _, _, h7, h8, h9, _⟩ := queues_tables queued (by decide +kernel)
  refine ⟨oneHead (by simp [queues]), ?_, ?_, ?_, ?_, ⟨⟨⟨0, h8⟩, sound_queued (by simp) 1 (.inl rfl)⟩, ?_, ?_, ?_⟩, ?below, h8, ?_⟩
  case below =>
    rintro x hx ⟨⟨⟨n, hn⟩, _⟩, _⟩
    rcases coreOf_two h7 h8 h9 hn with ⟨_, rfl⟩ | ⟨_, rfl⟩ <;> omega
  all_goals first | simp | decide +kernel

/-- The same, where the head's age is above the threshold of the die. -/
def queuedOld : State := { queuedBusy with dies := queuedBusy.dies.set 0 { queuedBusy.dies[(0 : Fin 8)] with age := 6 } }

theorem witness_TasksPlaced_age : OneHead queuedBusy 0 0 1 heldRec [] ∧ (∃ e, Placeable queuedBusy 0 e) ∧
    (∀ e, ¬ Eligible queuedBusy 0 0 e) ∧ heldRec.age ≤ queuedBusy.dies[(0 : Fin 8)].age.toNat ∧
    queuedOld.dies[(0 : Fin 8)].age.toNat < heldRec.age ∧ queuedOld.cores = queuedBusy.cores ∧
    queuedOld.clusters = queuedBusy.clusters := by
  obtain ⟨_, _, _, _, _, _, h7, h8, h9, _⟩ := queues_tables queuedBusy (by decide +kernel)
  refine ⟨oneHead (by simp [queues]), ⟨1, ⟨0, h8⟩, sound_queued (by simp) 1 (.inl rfl)⟩, ?_, by decide +kernel,
      by decide +kernel, rfl, rfl⟩
  have q : (queuedBusy.core 1).task = some 7 ∧ (queuedBusy.core 2).task = some 7 := by decide +kernel
  rintro x ⟨⟨⟨n, hn⟩, _⟩, _, hx, _⟩
  rcases coreOf_two h7 h8 h9 hn with ⟨_, rfl⟩ | ⟨_, rfl⟩
  · simp [q.1] at hx
  · simp [q.2] at hx

theorem witness_TasksPlaced_withdraw : OneHead queuedNowhere 0 0 1 heldRec [] ∧ ∀ e, ¬ Placeable queuedNowhere 0 e := by
  obtain ⟨_, _, _, _, _, _, h7, h8, h9, _⟩ := queues_tables queuedNowhere (by decide +kernel)
  refine ⟨oneHead (by simp [queues]), ?_⟩
  rintro e ⟨⟨n, hn⟩, _, _, _, h, _⟩
  have q : (queuedNowhere.cluster (1 / 36)).halt = true ∧ (queuedNowhere.cluster (2 / 36)).halt = true := by decide +kernel
  rcases coreOf_two h7 h8 h9 hn with ⟨_, rfl⟩ | ⟨_, rfl⟩
  · simp [q.1] at h
  · simp [q.2] at h

/-- What a decision leaves: the tasks' cores, the records' ages, the failures' causes. -/
def decided (s : State) : Option (List (List Nat × List Nat) × List Nat × List Nat) :=
  match exec (.dispatchDecision 0) s with
  | .next t => some (t.tasks.map (fun x => (x.cores, x.lnums)), (sget [] t.queues 1).map Rec.age, (t.ctx 0).fails.map Failure.cause)
  | _ => none

theorem test_dispatch : queues.map decided = [some ([([1], [0])], [], []), some ([([2], [1])], [], []), some ([], [7],
    []), some ([], [], [4])] ∧
    (match exec (.dispatchDecision 0) queued with
      | .next t => t.strandAt 1 0 == { startStrand (inContext.ctx 0) heldRec 0 0 0 queued.nextId with pc := 0x3000, live := true } &&
          (t.strandAt 1 0).rg 1 == 0x4000 && (t.strandAt 1 0).rg 2 == 0x1F80 && (t.core 1).lnum == 0
      | _ => false) = true ∧
    (match exec (.dispatchDecision 0) queuedOld with | .next t => t.dies[0].reserve == [⟨0, 1, none, [1]⟩] | _ => false) = true ∧
    sleeps (.dispatchDecision 0) { queued with queues := [] } = true := by decide +kernel

/-- Core 1's task waits for a message with its only live strand; another record waits in queue 1. -/
def blockedGang : State := ({ inContext with queues := [(1, [heldRec])] } : State).modMe (fun t => { t with
  blk := 3, wait := .recv, waitAt := t.pc })
def runningGang : State := blockedGang.modMe (fun t => { t with blk := 0, wait := .none })

theorem waits_blocked : WaitsNow blockedGang 1 0 :=
  .inl ⟨by decide +kernel, .inr (.inr (.inr ⟨by decide +kernel, by decide +kernel, by decide +kernel⟩))⟩

/-- Every other kind of wait that counts: a generation that is open, a view, slots that are not filled, another module's
memory. -/
def waitingFor (w : WaitObj) (l : List PendLoad) : State := blockedGang.modMe (fun t => { t with
  wait := w, loads := l, gates := l.map PendLoad.id })
theorem witness_TasksPlaced_waits : WaitsNow (waitingFor (.barrier 4 0) []) 1 0 ∧ WaitsNow (waitingFor (.kview 3 none) []) 1 0 ∧
    WaitsNow (waitingFor (.slots [(2, false, 1)]) []) 1 0 ∧
    WaitsNow (waitingFor .none [{ id := 3, locs := [⟨.remote 7, 0⟩], dst := .g 3 .i8 }]) 1 0 := by
  have at' : ∀ w l, (waitingFor w l |>.strandAt 1 0).waitAt = (waitingFor w l |>.strandAt 1 0).pc := fun _ _ => rfl
  refine ⟨.inl ⟨at' _ _, .inl ⟨4, 0, rfl, ?_⟩⟩, .inl ⟨at' _ _, .inr (.inl ⟨3, .inl rfl⟩)⟩,
    .inl ⟨at' _ _, .inr (.inr (.inl ⟨_, rfl, _, List.mem_singleton.mpr rfl, rfl, by decide +kernel⟩))⟩,
    .inr ⟨_, List.mem_singleton.mpr rfl, List.mem_singleton.mpr rfl, _, List.mem_singleton.mpr rfl, 7, rfl⟩⟩
  intro b hb
  have : (waitingFor (.barrier 4 0) []).barriers = [] := rfl
  rw [this] at hb
  cases hb

theorem witness_TasksPlaced_evict : Blocked blockedGang (placeTask 0) 1 0 ∧ AnotherWaits blockedGang (placeTask 0) 1 ∧
    (let s := blockedGang
     let k := s.core 1
     (∀ w : Fin 4, k.opsIn w = []) ∧ k.outq = [] ∧ (∀ i : Fin 16, k.cist[i].held = []) ∧ k.pairOf = none ∧
     (∀ h : Fin 11, k.strands[h].buf = [] ∧ k.strands[h].loads = []) ∧ s.pairs = [] ∧ s.slotFault 0 true 0 = none) ∧
    runningGang.tasks = [placeTask 0] ∧ (runningGang.core 1).task = some 0 ∧
    (runningGang.core 1).strands[(0 : Fin 11)].live = true ∧ ¬ WaitsNow runningGang 1 0 := by
  have hc : blockedGang.coreOf 0 0 = some 1 := by decide +kernel
  have hs : SoundCore blockedGang 1 := by
    have q : (blockedGang.cluster 0).harvest.getLsbD 1 = true ∧ (blockedGang.cluster 0).sup ≠ 1 ∧ (blockedGang.cluster 0).hchain = 0 ∧
        (blockedGang.cluster 0).halt = false ∧ ∀ i : Fin 4, (blockedGang.cluster 0).cont[i].getLsbD 63 = false := by decide +kernel
    exact ⟨q.1, q.2.1, fun i => by simp [entry_none (k := blockedGang.cluster (1 / 36)) q.2.2.1], q.2.2.2.1,
      fun i h => absurd ((q.2.2.2.2 i).symm.trans h) (by decide)⟩
  refine ⟨⟨?_, ?_, ?_, ?_, ?_, hc, ?_, ?_, ?_, fun h hl => ?live⟩, ⟨?_, ?_, ⟨heldRec, [], ?_, ?_, ?_⟩, ⟨1, ⟨⟨0, hc⟩, hs⟩, rfl⟩, ?_, ?_, ?_⟩,
    ?_, ?_, ?_, ?_, ?running⟩
  case live =>
    have one : ∀ h : Fin 11, (blockedGang.strandAt 1 h).live = true → h = 0 := by decide +kernel
    exact one h hl ▸ waits_blocked
  case running =>
    have q : (runningGang.strandAt 1 0).wait = .none ∧ (runningGang.strandAt 1 0).loads = [] := by decide +kernel
    simp [WaitsNow, q.1, q.2]
  all_goals decide +kernel

/-- The gang of core 1 is saved and ready; core 1 is free, or taken by a pair, so that core 2 is the first eligible one. -/
def resuming (taken : Bool) : State := { (inContext.modCore 1 (fun _ => { pairOf := if taken then some 7 else none })) with
  queues := []
  tasks := [{ placeTask 0 with record := heldRec, ready := true, saved := [{ inContext.core 1 with
    ls := [(0x40, 7)], strands := (inContext.core 1).strands.set 0 { (inContext.core 1).strands[(0 : Fin 11)] with blk := 3 } }] }] }

theorem witness_TasksPlaced_resume : ∀ b : Bool, let s := resuming b
    (∃ x k, s.tasks = [x] ∧ x.saved = [k] ∧ x.ready = true ∧ x.ctx = 0 ∧ x.record.queue = 1 ∧ x.record.w = 1 ∧ x.record.h = 1 ∧
      x.record.cl = false ∧ x.cores.length = 1 ∧ x.lnums = [0] ∧ x.entries = [] ∧ x.detached = [] ∧ k.returned = false ∧
      4096 * k.size.toNat ≤ s.lsCap (if b then 2 else 1)) ∧
    s.queueOwner 1 = some 0 ∧ (∀ j, sget [] s.queues j = []) ∧ (s.ctx 0).stopped = false ∧
    (s.ctxBytes 0 (s.ctx 0).ctab (2 * (s.ctx 0).ncores)).toBool = true ∧ s.dies[(0 : Fin 8)].reserve = [] ∧
    s.dies[(0 : Fin 8)].power = .online ∧ (s.ctx 0).ncores = 2 ∧ s.coreOf 0 0 = some 1 ∧ s.coreOf 0 1 = some 2 ∧
    (∀ e ∈ [1, 2], (s.core e).task = none ∧ ((s.core e).pairOf = none ↔ ¬ (b = true ∧ e = 1)) ∧
      (s.cluster 0).harvest.getLsbD e = true ∧ (s.cluster 0).sup ≠ e) ∧
    (s.cluster 0).hchain = 0 ∧ (s.cluster 0).halt = false ∧ (∀ i : Fin 4, (s.cluster 0).cont[i].getLsbD 63 = false) ∧
    (match s.ctxWrite 0 ((s.ctx 0).ctab + 2 * 0) (leBytes 2 (physOf (if b then 2 else 1))) with
      | .ok s1 => (match s1.ctxWrite 0 ((s1.ctx 0).ctab + 2 * 1) (leBytes 2 (physOf 1)) with
        | .ok s2 => (s2.slotFault 0 false 0).isNone && (s1.slotFault 0 false 0).isNone
        | .error _ => false)
      | .error _ => false) = true := by
  intro b
  refine ⟨⟨_, _, rfl, rfl, ?_⟩, ?_, fun j => rfl, ?_⟩
  all_goals cases b <;> decide +kernel

/-- R264, R265: on its own core, and on another, whose entry of the core table the two logical cores exchange. -/
theorem test_resume : ([(false, 1, 1, 2), (true, 2, 2, 1)] : List (Bool × Nat × Nat × Nat)).all (fun x =>
    match exec (.dispatchDecision 0) (resuming x.1) with
    | .next t => t.tasks.map (fun y => (y.cores, y.saved.length, y.ready)) == [([x.2.1], 0, false)] &&
        (t.core x.2.1).task == some 0 && memGet (t.core x.2.1).ls 0x40 == 7 && (t.strandAt x.2.1 0).blk == 3 &&
        t.coreOf 0 0 == some x.2.2.1 && t.coreOf 0 1 == some x.2.2.2
    | _ => false) = true := by decide +kernel

theorem test_eviction :
    (match exec (.sliceExpiry 0) blockedGang with
      | .next t => (t.strandAt 1 0).slicefix && !(t.strandAt 1 1).slicefix
      | _ => false) = true ∧
    (match exec (.gangEvict 0) blockedGang with
      | .next t => t.tasks.map (fun x => x.saved.map (fun k => (k.lnum, k.strands == (blockedGang.core 1).strands))) == [[(0, true)]] && (t.core 1).task.isNone && !(t.strandAt 1 0).live
      | _ => false) = true ∧
    sleeps (.sliceExpiry 0) runningGang = true ∧ sleeps (.gangEvict 0) runningGang = true := by decide +kernel

/-- A saved gang whose strand waits for a message, of which `n` have come; or at a generation of a barrier. -/
def savedGang (n : Nat) : State := { blockedGang with
  tasks := [{ placeTask 0 with saved := [{ blockedGang.core 1 with rq := List.replicate n {} }] }] }
def savedAt (gen : Nat) : State := { blockedGang with
  tasks := [{ placeTask 0 with saved := [{ ((blockedGang.modMe (fun t => { t with blk := 1, wait := .barrier 4 0, waitAt := t.pc })).core 1) with lnum := 0 }] }]
  barriers := [{ dom := 4, ctx := 0, key := 0, lvl := 0, place := 0, gen := gen }] }

theorem witness_TasksPlaced_ready : (∀ n ∈ [0, 1], ∃ x k, (savedGang n).tasks = [x] ∧ x.saved = [k] ∧ x.ready = false ∧
      k.returned = false ∧ k.strands[(0 : Fin 11)].live = true ∧ k.strands[(0 : Fin 11)].blk = 3 ∧ k.rq.length = n ∧ k.ovf = [] ∧
      ∀ j : Fin 11, k.strands[j].live = true → k.strands[j].blk = 3 ∧ k.strands[j].changes = []) ∧
    ∃ x k, (savedAt 1).tasks = [x] ∧ x.saved = [k] ∧ x.ready = false ∧ k.returned = false ∧ k.strands[(0 : Fin 11)].live = true ∧
      k.strands[(0 : Fin 11)].blk = 1 ∧ k.strands[(0 : Fin 11)].wait = .barrier 4 0 ∧
      k.strands[(0 : Fin 11)].waitAt = k.strands[(0 : Fin 11)].pc ∧
      (savedAt 1).barriers.map (fun b => (b.dom, b.gen)) = [(4, 1)] := by
  refine ⟨fun n hn => ⟨_, _, rfl, rfl, rfl, ?_⟩, ⟨_, _, rfl, rfl, rfl, by decide +kernel⟩⟩
  simp only [List.mem_cons, List.not_mem_nil, or_false] at hn
  rcases hn with rfl | rfl <;> decide +kernel

theorem test_ready :
    ([(savedGang 1, true), (savedAt 1, true)] : List (State × Bool)).all (fun x => match exec (.savedGangReady 0) x.1 with
      | .next t => t.tasks.map Task.ready == [x.2]
      | _ => false) = true ∧ sleeps (.savedGangReady 0) (savedGang 0) = true ∧
          sleeps (.savedGangReady 0) (savedAt 0) = true := by decide +kernel

/-- Two records wait beside the running task, of 1 and of 6 cores. -/
def forecasting : State := { inContext with
  queues := [(1, [heldRec, { heldRec with dwords := [0x3000 + 2 ^ 60 + 2 * 2 ^ 57, 0x4000, 2 ^ 42, 0] }])] }

theorem witness_TasksPlaced_forecast : forecasting.cores.Pairwise (fun x y => x.1 < y.1) ∧ forecasting.queueOwner 1 = some 0 ∧
    (∀ j, j ≠ 1 → sget [] forecasting.queues j = []) ∧ forecasting.coreOf 0 0 = some 1 :=
  ⟨by decide +kernel, by decide +kernel, fun j hj => by simp [forecasting, sget, sfind, Ne.symm hj], by decide +kernel⟩

/-- The port of queue 1 takes a record; it refuses those with a wrong queue, a bit that must be 0, a code that is no
multiple of 4, a shape of 7. -/
def offered (n : Nat) : State := { inContext with queues := [(1, List.replicate n heldRec)], refusals := 6 }

theorem witness_PortsAndPairs_port : (offered 3).recovery = false ∧ (offered 3).queueOwner 1 = some 0 ∧
    (offered 3).queueOwner 5 = none ∧
    (let r : Rec := { dwords := [0x3000, 0x4000, 2 ^ 42, 0] }
     r.dword 2 / 2 ^ 32 % 512 = 0 ∧ r.code % 4 = 0 ∧ r.queue = 1 ∧ ((offered 3).ctx 0).qmask / 2 ^ 1 % 2 = 1 ∧
      (∃ x ∈ (offered 3).tasks, x.ctx = 0) ∧ r.w = 1 ∧ r.h = 1) ∧
    (∀ n, sget [] (offered n).queues 1 = List.replicate n heldRec) ∧
    (∃ e, e < 27648 ∧ Placeable (offered 3) 0 e) := by
  refine ⟨?_, ?_, ?_, ⟨?_, ?_, ?_, ?_, ⟨_, List.mem_singleton.mpr rfl, rfl⟩, ?_⟩, ?each, 1, ?_, ⟨0, ?_⟩, ?sound⟩
  case each => exact fun n => by simp [offered, sget, sfind]
  case sound =>
    have q : ((offered 3).cluster (1 / 36)).harvest.getLsbD (1 % 36) = true ∧ ((offered 3).cluster (1 / 36)).sup ≠ 1 % 36 ∧
        ((offered 3).cluster (1 / 36)).hchain = 0 ∧ ((offered 3).cluster (1 / 36)).halt = false ∧
        ∀ i : Fin 4, ((offered 3).cluster (1 / 36)).cont[i].getLsbD 63 = false := by decide +kernel
    obtain ⟨h1, h2, h3, h4, h5⟩ := q
    exact ⟨h1, h2, fun i => by simp [entry_none h3], h4, fun i h => absurd ((h5 i).symm.trans h) (by decide)⟩
  all_goals decide +kernel

theorem test_port :
    (match exec (.hostQueuePortWrite 1 [0x3000, 0x4000, 2 ^ 42, 0]) (offered 3) with
      | .next t => (sget [] t.queues 1).length == 4 && t.refusals == 6 && ((sget [] t.queues 1).map Rec.age).getLast? == some 0
      | _ => false) = true ∧
    ([(1, [0x3000, 0, 2 ^ 43, 0]), (1, [0x3000, 0, 2 ^ 42 + 2 ^ 32, 0]), (1, [0x3002, 0, 2 ^ 42, 0]), (1,
        [0x3000 + 6 * 2 ^ 57, 0, 2 ^ 42, 0]),
      (5, [0x3000, 0, 5 * 2 ^ 42, 0])] : List (Fin 64 × List Word)).all (fun x =>
      match exec (.hostQueuePortWrite x.1 x.2) (offered 3) with
      | .next t => t == { offered 3 with refusals := 7 }
      | _ => false) = true ∧
    sleeps (.hostQueuePortWrite 1 [0x3000]) (offered 3) = true ∧
    (match exec .refusalCountWrite (offered 3) with | .next t => t.refusals == 0 | _ => false) = true := by decide +kernel

/-- The domain of context 0 is quiescent but for what `f` adds. -/
def quieting (f : Ctx → Ctx) (g : Core → Core) : State := (inContext.modCtx 0 f).modCore 1 g

/-- An append of a core that no task holds is on its way. -/
def quietingNot : State := (quieting id (fun k => { k with worker := true, idle := true })).modCore 3 (fun k => { k with
  outq := [appending 1] })

theorem witness_PortsAndPairs_quiescence :
    (∀ s ∈ [quieting id (fun k => { k with worker := true, idle := true }), quieting (fun x => { x with lists := [(1, [5])] }) id],
      s.tasks = [placeTask 0] ∧ (s.core 1).task = some 0 ∧ (s.core 1).outq = [] ∧
      ∀ h : Fin 11, (s.strandAt 1 h).buf = []) ∧
    (∃ l ∈ ((quieting (fun x => { x with lists := [(1, [5])] }) id).ctx 0).lists, l.2 ≠ []) ∧
    ((quieting id (fun k => { k with worker := true, idle := true })).ctx 0).lists = [] ∧
    (∃ o ∈ (quietingNot.core 3).outq, o.ctx = 0 ∧ ∃ l i d, o.e.op = .wapp l i d) ∧ quietingNot.tasks = [placeTask 0] :=
  ⟨by decide +kernel, ⟨(1, [5]), by decide +kernel, by decide⟩, by decide +kernel,
    ⟨appending 1, List.mem_singleton.mpr rfl, rfl, 1, 5, 3, rfl⟩, rfl⟩

theorem test_quiescence :
    (match exec (.quiescenceDetect 0) (quieting id (fun k => { k with worker := true, idle := true })) with
      | .next t => (t.ctx 0).quiet
      | _ => false) = true ∧ sleeps (.quiescenceDetect 0) (quieting id (fun k => { k with worker := true })) = true ∧
    sleeps (.quiescenceDetect 0) quietingNot = true ∧
    sleeps (.quiescenceDetect 0) (quieting (fun x => { x with lists := [(1, [5])] }) id) = true := by decide +kernel

/-- Core 1 leads core 2; the end of an interval is due, and perhaps an error is armed that flips a bit of core 1's
fingerprint. -/
def agreeing (p : PairRec) (inject : Word) : State := ((leading p).modCore 1 (fun k => { k with
  outq := [{ strand := 0, e := { id := 9, op := .store }, held := true }], undo := [(0x40, 7)] })).modCluster 0
  (fun x => { x with inject := inject })
def duePair : PairRec := { thePair with due := true }
def flip : Word := 0x9820000000000004

theorem agreeing_pairs (p : PairRec) (j : Word) : (agreeing p j).pairs = [p] := rfl

theorem witness_PortsAndPairs_pairs :
    thePair.leader = 1 ∧ thePair.shadow = 2 ∧ thePair.settle = false ∧ thePair.split = false ∧ thePair.due = false ∧ duePair.due = true ∧
    (∀ s ∈ [agreeing thePair 0, agreeing thePair flip],
      (s.core 2).pairOf = some 1 ∧ (s.core 1).frozen = false ∧ (s.core 1).eq0 = [] ∧
      1 % 36 ≠ (s.cluster 0).sup ∧ (s.cluster 0).chainIndex 1 = none ∧ (s.cluster 0).pqCount < 64 ∧ s.heldIn 0 = [] ∧
          (s.core 1).trail = []) ∧
    thePair.shadow / 36 = 1 / 36 ∧
    ((agreeing thePair 0).cluster 0).inject = 0 ∧ ((agreeing thePair flip).cluster 0).inject = flip ∧
    flip.toNat / 2 ^ 63 % 2 = 1 ∧ flip.toNat / 2 ^ 59 % 16 = 3 ∧ flip.toNat / 2 ^ 53 % 64 = 1 := by decide +kernel

theorem test_pairs :
    (match exec (.pairIntervalEnd 1) (agreeing duePair 0) with
      | .next t => (t.core 1).fp == 0xFFFFFFFF && (t.core 1).fpLast == 0x11 && (t.core 1).undo.isEmpty &&
          (t.core 1).outq.map OutEntry.held == [false] && t.pairs.map (fun p => (p.due, p.pass)) == [(false, true)] &&
          t.pairs.map PairRec.snap == [t.core 1]
      | _ => false) = true ∧
    (match exec (.pairIntervalEnd 1) (agreeing { duePair with ending := true } 0) with
      | .next t => t.pairs.isEmpty && (t.core 1).pairOf.isNone && (t.core 2).pairOf.isNone
      | _ => false) = true ∧
    (match exec (.pairIntervalEnd 1) (agreeing duePair flip) with
      | .next t => (t.core 1).outq.isEmpty && (t.core 1).fp == 0x33 && t.pairs.map (fun p => (p.rollbacks, p.again,
          p.due)) == [(4, true, false)]
      | _ => false) = true ∧
    (match exec (.pairIntervalEnd 1) (agreeing { duePair with again := true } flip) with
      | .next t => (t.core 1).frozen && (t.core 2).frozen && (t.cluster 0).pqCount == 1 &&
          ((t.cluster 0).slots.toList.headD []).headD 0 == 0x103000039 && ((t.cluster 0).slots.toList.headD []).getD 4 0 == 0x100000011
      | _ => false) = true ∧
    sleeps (.pairIntervalEnd 1) (agreeing thePair 0) = true ∧
    (match exec (.pairLost 1) (agreeing thePair 0) with
      | .next t => (t.core 1).frozen && ((t.cluster 0).slots.toList.headD []).getD 4 0 == 2
      | _ => false) = true := by decide +kernel

/-! ### The registers at the hubs, power, contexts, boot -/

/-- The write stands at the hubs. -/
def writing (w : RegWrite) : State := { inContext with
  hubWrites := [w], ceil := 1200, req := 0x11111111, preqs := [], invBusy := false, inv := 5 }
def whole (reg : Nat) (x : Word) : RegWrite := ⟨reg, 0, 64, x, some 1, true⟩
def unprivileged (reg : Nat) (x : Word) : RegWrite := ⟨reg, 0, 64, x, some 1, false⟩

theorem witness_HubsAndPower_registers : (∀ w : RegWrite, (writing w).hubWrites = [w]) ∧
    ((0x8000000000000000 + 1750 : Word).toNat % 2048 = 1750 ∧ (299 : Word).toNat % 2048 = 299) ∧
        (writing (whole 0xA0 0)).preqs = [] ∧
    (writing (whole 0x93 0)).lock = false :=
  ⟨fun _ => rfl, by decide, by decide +kernel, by decide +kernel⟩

/-- Two leaves, of which an invalidation names one, or both. -/
def threeLeaves : List Leaf := [⟨0, 0x10000, 0x10000, 0x1F⟩, ⟨0, 0x40000000, 0x40000000, 0x1F⟩, ⟨5, 0x10000, 0x10000, 0x1F⟩]
def invalidating : State := { demo.modCore 1 (fun k => { k with utlb := threeLeaves }) with clusters := [(4, { tlb := threeLeaves })] }
def busyWith (inv : Word) : State := { invalidating with invBusy := true, inv := inv }

theorem witness_HubsAndPower_inv : demo.invBusy = false ∧ (busyWith 0x1F000).invBusy = true := by decide +kernel

theorem test_hub_registers :
    (match exec (.pcapWrite (whole 0x81 (0x8000000000000000 + 1750))) (writing (whole 0x81 (0x8000000000000000 + 1750))) with
      | .next t => t.ceil == 1750 && t.lock && t.hubWrites.isEmpty
      | _ => false) = true ∧
    (match exec (.pcapWrite (whole 0x81 299)) (writing (whole 0x81 299)) with | .next t => t.ceil == 1200 && !t.lock | _ => false) = true ∧
    (match exec (.pcapWrite (unprivileged 0x81 500)) (writing (unprivileged 0x81 500)) with
      | .next t => t.ceil == 1200 && t.hubWrites.isEmpty
      | _ => false) = true ∧
    (match exec (.pcapWrite ⟨0x81, 0, 64, 500, none,
        true⟩) { demo with lock := true } with | .next t => t.ceil == 500 | _ => false) = true ∧
    (match exec (.pstRequest (whole 0x82 0x87654320)) (writing (whole 0x82 0x87654320)) with | .next t => t.req == 0x17654320 | _ => false) = true ∧
    (match exec (.invWrite (whole 0x93 0xFFFFFFFFFFFFFFFF)) (writing (whole 0x93 0xFFFFFFFFFFFFFFFF)) with
      | .next t => t.inv == 0x71FFFFFFFFFFFFC0 && t.invBusy
      | _ => false) = true ∧
    (match exec (.registerWrite (whole 0x90 0xFFFFFFFFFFFFFFFF)) (writing (whole 0x90 0xFFFFFFFFFFFFFFFF)) with
      | .next t => t.ctxbase == 0x01FFFFFFFFFFF000
      | _ => false) = true ∧
    (match exec (.registerWrite (whole 0xA0 0x01FFFFFFFFFFF0E0)) (writing (whole 0xA0 0x01FFFFFFFFFFF0E0)) with
      | .next t => t.preqBase == 0x01FFFFFFFFFFF000 && t.preqTail == 7
      | _ => false) = true ∧
    (match exec (.registerWrite (whole 0x92 5)) (writing (whole 0x92 5)) with | .next t => t == { writing (whole 0x92 5) with hubWrites := [] } | _ => false) = true ∧
    ([(0x10000 + 0x1000000000000000, [5, 0]), (0x4000000000000000, [5]), (0x40000000, [0, 5]), (0x50000, [0, 0,
        5])] : List (Word × List Nat)).all
      (fun x => match exec .invComplete (busyWith x.1) with
        | .next t => !t.invBusy && ((t.core 1).utlb.map Leaf.ctx).length == x.2.length && ((t.core 1).utlb.map Leaf.ctx).getLast? == some 5 &&
            (t.cluster 4).tlb == (t.core 1).utlb
        | _ => false) = true := by decide +kernel

/-- A die in a power state, with a step under way, or its clock stretched. -/
def atPower (p : Power) (req : BitVec 32) (step : Option (BitVec 4)) (st : Bool) : State :=
  ({ inContext with req := req, ceilPast := [], ceil := 1000, tasks := [], str := 0x7FFF } : State).modDie 2
    (fun d => { d with power := p, stepTo := step, stretched := st, cur := 3 })

/-- Some state is the governor's choice, whatever the predictions. -/
theorem picked_exists (s : State) (a1 a10 : BitVec 11) (d : Fin 8) : ∃ n : Fin 8, Picked s a1 a10 d n.val := by
  classical
  by_cases h7 : 7 ≤ nibble s.req.toNat d
  · exact ⟨7, fun _ => rfl, fun h => absurd h7 (by omega), fun h => absurd h7 (by omega)⟩
  by_cases hk : ∃ p, p < 6 ∧ Kept s a1 a10 d p
  · obtain ⟨hlt, hkept⟩ := Nat.find_spec hk
    refine ⟨⟨Nat.find hk, by omega⟩, fun h => absurd h h7, fun _ _ => ⟨hlt, hkept, fun p hp h => ?_⟩,
        fun _ h => absurd hkept (h _ hlt)⟩
    exact Nat.find_min hk hp ⟨Nat.lt_trans hp hlt, h⟩
  · exact ⟨6, fun h => absurd h h7, fun _ h => absurd h hk, fun _ _ => rfl⟩

theorem witness_HubsAndPower_governor : (atPower .online 0x200 none false).ceilPast = [] ∧ (900 : BitVec 11).toNat ≤ 1000 ∧
    ∃ choice : List (Fin 8), choice.length = 8 ∧
      ∀ d n : Fin 8, choice[d.val]? = some n → Picked (atPower .online 0x200 none false) 900 900 d n.val := by
  refine ⟨rfl, by decide, ?_⟩
  choose f hf using picked_exists (atPower .online 0x200 none false) 900 900
  refine ⟨List.ofFn f, by simp, fun d n h => ?_⟩
  have e : (List.ofFn f)[d.val]? = some (f d) := by rw [List.getElem?_ofFn]; simp
  obtain rfl := Option.some.inj (e.symm.trans h)
  exact hf d

theorem witness_HubsAndPower_power : (atPower .online 0x200 none false).ceilPast = [] ∧
    (atPower .online 0x200 none false).ceil.toNat = 1000 ∧
    ((atPower .online 0x200 none false).dies[(2 : Fin 8)].power = .online ∧ nibble 0x200 2 = 2) ∧
    (atPower .online 0x200 (some 5) false).dies[(2 : Fin 8)].stepTo = some 5 ∧ nibble 0x700 2 = 7 ∧
    (atPower .online 0x700 none true).dies[(2 : Fin 8)].stretched = true ∧
    (atPower .parking 0x700 none true).dies[(2 : Fin 8)].power = .parking ∧
    ((atPower .parking 0x700 none true).cores.all (fun y => y.2.outq == [] && y.2.eq1 == [] && y.2.eq2 == [] && y.2.strands.toList.all (fun u => u.buf == []))) = true ∧
    (atPower .parked 0x600 none false).dies[(2 : Fin 8)].power = .parked ∧ nibble 0x600 2 < 7 ∧
    (atPower .unparking 0x600 none false).dies[(2 : Fin 8)].power = .unparking := by decide +kernel

def dieNow (i : Instr) (s : State) : Option (Power × Nat × Option (BitVec 4) × Bool) :=
  match exec i s with
  | .next t => let d := t.dies[(2 : Fin 8)]
    some (d.power, d.cur.toNat, d.stepTo, d.stretched)
  | _ => none

/-- The averages at the ceiling and at 1.05 of it; one above each. -/
theorem test_power :
    ([(1050, 1000, 1050), (1051, 1000, 0), (1050, 1001, 0)] : List (BitVec 11 × BitVec 11 × BitVec 11)).all (fun x =>
      match exec (.governorTick x.1 x.2.1 (List.replicate 8 7)) (atPower .online 0x77777777 none false) with
      | .next t => t.a1 == x.2.2
      | _ => false) = true ∧
    sleeps (.governorTick 9 9 [7, 7, 1]) (atPower .online 0x77777777 none false) = true := by decide +kernel

theorem test_power_steps : ([
    (.pStateStepComplete 2, atPower .online 0x200 (some 5) false, some (.online, 5, none, false)),
    (.droopEvent 2, atPower .online 0 none false, some (.online, 3, none, true)),
    (.droopRecovery 2, atPower .online 0 none true, some (.online, 3, none, false)),
    (.parkRequest 2, atPower .online 0x700 none false, some (.parking, 3, none, false)),
    (.dieParkProceed 2, atPower .parking 0x700 none false, some (.parked, 7, none, false)),
    (.unparkRequest 2, atPower .parked 0x600 none false, some (.unparking, 3, none, false))]
      : List (Instr × State × Option (Power × Nat × Option (BitVec 4) × Bool))).all (fun x => dieNow x.1 x.2.1 == x.2.2) = true ∧
    sleeps (.droopEvent 2) (atPower .online 0 none true) = true ∧
        sleeps (.parkRequest 2) (atPower .online 0x600 none false) = true ∧
    sleeps (.unparkComplete 2) (atPower .online 0x600 none false) = true ∧
    (match exec (.droopEvent 2) (atPower .online 0 none false) with | .next t => t.str == 0x7FFF | _ => false) = true := by decide +kernel

/-- Descriptor 3, a good one, and its root stand in memory at `ctxbase`; or another dword 0, or another root. -/
def describing (d0 root : Nat) (w : Word) : State := { inContext with
  ctxbase := 0x30000
  hubWrites := [whole 0x91 w]
  mem := dwords inContext.mem [(0x300C0, d0), (0x300C8, 0x20000), (0x300D0, 0x21000), (0x300F0, 0x08801000), (0x31018, root)] }
def goodD0 : Nat := 0x8004000200000000

theorem witness_ContextsAndReset_contexts :
    (∀ s ∈ [describing goodD0 0x10000 0x103, describing 0x8004000200000001 0x10000 0x103, describing goodD0 0x10800 0x103,
        describing goodD0 0x10000 0x200, describing goodD0 0x10000 0x203],
      s.hubWrites.map RegWrite.reg = [0x91] ∧ s.ctxen.getLsbD 3 = false) ∧
    GoodDescriptor (describing goodD0 0x10000 0x103) 3 ∧ rootDword (describing goodD0 0x10000 0x103) 3 % 4096 = 0 ∧
    ¬ GoodDescriptor (describing 0x8004000200000001 0x10000 0x103) 3 ∧ rootDword (describing goodD0 0x10800 0x103) 3 % 4096 ≠ 0 ∧
    (∃ y ∈ (describing goodD0 0x10000 0x200).tasks, y.ctx = 0) ∧ (inContext.ctxen.getLsbD 0 = true ∧
        ∀ y ∈ queued.tasks, y.ctx ≠ 0) := by
  refine ⟨by decide +kernel, by unfold GoodDescriptor; decide +kernel, by decide +kernel, by unfold GoodDescriptor; decide +kernel,
    by decide +kernel, ⟨_, List.mem_singleton.mpr rfl, rfl⟩, by decide +kernel, by decide +kernel⟩

theorem test_contexts :
    (match exec (.ctxEnable (whole 0x91 0x103)) (describing goodD0 0x10000 0x103) with
      | .next t => t.ctxen == 9 && t.ctxRes == 0 && t.ctxNum == 3 && (t.ctx 3).root == 0x10000 && (t.ctx 3).desc.getD 6 0 == 0x08801000
      | _ => false) = true ∧
    (match exec (.ctxEnable (whole 0x91 0x103)) (describing 0x8004000200000001 0x10000 0x103) with
      | .next t => t.ctxen == 1 && t.ctxRes == 1
      | _ => false) = true ∧
    (match exec (.ctxEnable (whole 0x91 0x103)) (describing goodD0 0x10800 0x103) with
      | .next t => t.ctxen == 1 && t.ctxRes == 3
      | _ => false) = true ∧
    (match exec (.ctxDisable (whole 0x91 0x200)) (describing goodD0 0x10000 0x200) with
      | .next t => t.ctxen == 1 && t.ctxRes == 2
      | _ => false) = true ∧
    (match exec (.ctxDisable (whole 0x91 0x200)) { queued with hubWrites := [whole 0x91 0x200] } with
      | .next t => t.ctxen == 0 && t.ctxRes == 0 && (sget [] t.queues 1).isEmpty
      | _ => false) = true := by decide +kernel

/-- Three sectors are poisoned. -/
def hosting (r : Bool) : State := { inContext with recovery := r, poisoned := [0x44, 0x45, 0x46], nonce := some 7 }

theorem witness_ContextsAndReset_host : (hosting false).recovery = false ∧ (hosting true).recovery = true ∧
    0x1108 + (List.replicate 64 (5 : Byte)).length ≤ 2 ^ 52 ∧ (hosting false).nonce = some 7 ∧
        demo.nonce = none := by decide +kernel

theorem test_host :
    (match exec (.hostCxlMemWrite 0x1108 (List.replicate 120 5)) (hosting false) with
      | .next t => memRead t.mem 0x1107 2 == [0, 5] && memRead t.mem 0x117F 2 == [5, 0] && t.poisoned == [0x44, 0x46]
      | _ => false) = true ∧
    sleeps (.hostCxlMemWrite 0x1108 [5]) (hosting true) = true ∧ sleeps .attestReportReady demo = true ∧
    (match exec (.attestNonceWrite 9) (hosting false) with | .next t => t.nonce == some 9 | _ => false) = true ∧
    (match exec .attestReportReady (hosting false) with
      | .next t => t.nonce.isNone && (t.report.drop 96).take 2 == [7, 0] && (t.report.drop 3).take 2 == [0xFF, 1]
      | _ => false) = true ∧
    (match exec (.moduleReset false 5 0xFF) (hosting false) with
      | .next t => t.recovery && t.tasks.isEmpty && t.ctxen == 0 && t.cores.isEmpty && t.mem == inContext.mem
      | _ => false) = true := by decide +kernel

/-- SHA-256 of "abc" and of 56 bytes, from the public standard's examples. -/
theorem test_sha256 : leNat (sha256 [0x61, 0x62, 0x63]).reverse =
      0xBA7816BF8F01CFEA414140DE5DAE2223B00361A396177A9CB410FF61F20015AD ∧
    leNat (sha256 ((List.range 14).flatMap (fun i => (List.range 4).map (fun j => BitVec.ofNat 8 (0x61 + i + j))))).reverse =
      0x248D6A61D20638B8E5C026930C3E6039A33CE45964FF2167F6ECEDD419DB06C1 := by decide +kernel

/-! ### Links, flits, replies -/

/-- Port 5 stands as given; the others are down. -/
def linked (f : FPort) : State := { inContext with fports := inContext.fports.set 5 f }
/-- Up with credits, expecting number 3 of channel 1. -/
def upPort : FPort := { state := .up, next := #v[0, 3, 0, 0, 0, 0, 0, 0], badRun := 4, crc := 0xFFFF, credits := .replicate 8 5, granted := true }
/-- A flit has been delivered: its room goes back in number 0 of channel 6. -/
def gaveBack (vc : Fin 8) (f : FPort) : FPort := { f with
  badRun := 0
  kept := [⟨6, 0, false, .credit vc 1⟩]
  txSeq := #v[0, 0, 0, 0, 0, 0, 1, 0] }
def aFlit : OutLoad := .ack 0x40
def keeping (x : FPort) : FPort := { x with kept := [⟨1, 8, false, aFlit⟩] }
/-- A flit waits for a credit. -/
def starved : FPort := { upPort with credits := .replicate 8 0, wait := [(1, aFlit)] }
/-- A handle stands in memory, with this holder. -/
def withGrid (x : Option (Nat × Nat)) : State := { linked upPort with handles := [{ grid with holder := x }] }
/-- Port 6, of the same direction, is up too. -/
def linkedTwo (f : FPort) : State := { linked f with fports := (linked f).fports.set 6 { state := .up, txSeq := #v[0, 7, 0, 0, 0, 0, 0, 0], credits := .replicate 8 1 } }

theorem witness_Fabric_flits : (linked upPort).fports[(5 : Fin 24)] = upPort ∧ upPort.rxPhase = false ∧ upPort.early = [] ∧
    upPort.next[(1 : Fin 8)] = 3 ∧ 0x1100 / 64 ∉ (linked upPort).poisoned ∧ (List.replicate 64 (5 : Byte)).length = 64 ∧
    upPort.wait = [] ∧ (upPort.kept.filter (fun k => k.vc == 6)).length < 256 ∧ demo.fports[(5 : Fin 24)].state ≠ .up := by
  decide +kernel

theorem witness_Fabric_rooms : (linked starved).fports[(5 : Fin 24)] = starved ∧ starved.wait = [(1, aFlit)] ∧
    (starved.kept.filter (fun k => k.vc == 1)).length < 256 ∧
    ((withGrid none).handles = [grid] ∧ grid.freed = false ∧ grid.imported = none ∧ grid.holder = none) ∧
    ((withGrid (some (1, 1))).handles = [{ grid with holder := some (1, 1) }]) ∧ (linked upPort).chamber 9 = none ∧
    (∀ q : Fin 24, q ≠ 5 → 0 < (linkedTwo upPort).fports[q].credits[(1 : Fin 8)] ∨ (linkedTwo upPort).fports[q].state ≠ .up) := by
  decide +kernel

theorem witness_Fabric_links : (linked { upPort with badRun := 16 }).fports[(5 : Fin 24)] = { upPort with badRun := 16 } ∧
    (keeping upPort).kept = [⟨1, 8, false, aFlit⟩] ∧ (keeping upPort).wait = [] ∧
    (∀ q : Fin 24, q ≠ 5 → (linkedTwo (keeping upPort)).fports[q].kept = []) ∧ (6 : Fin 24).val / 4 = (5 : Fin 24).val / 4 ∧
    (linkedTwo (keeping upPort)).fports[(6 : Fin 24)].state = .up ∧
    (∀ q : Fin 24, q ≠ 5 → (linked upPort).fports[q].state ≠ .up) ∧ (∀ p : Fin 24, demo.fports[p].state ≠ .up) ∧
    (∀ k ∈ (keeping { upPort with roll := true }).kept, k.phase = upPort.phase) ∧
    (∃ k ∈ (keeping { upPort with phase := true }).kept, k.phase ≠ true) ∧
    (∀ v : Fin 8, upPort.rxFirst.getD v.val 0 ≤ upPort.next[v]) ∧
    ¬ (∀ v : Fin 8, ([0, 4] : List Nat).getD v.val 0 ≤ upPort.next[v]) := by
  refine ⟨?_, ?_, ?_, ?_, ?_, ?_, ?_, ?_, ?_, ⟨_, List.mem_singleton.mpr rfl, ?_⟩, ?_⟩ <;> decide +kernel

def portNow (i : Instr) (s : State) : Option (FPort × List Sent) :=
  match exec i s with
  | .next t => some (t.fports[(5 : Fin 24)], t.sent)
  | _ => none

/-- R343, R351. -/
theorem test_rooms :
    ((portNow (.flitReceive 5 6 0 false true true (.credit 1 2)) (linked starved)).map (fun x => (x.1.credits[(1 : Fin 8)], x.1.wait, x.2))) =
      some (1, [], [.flit 5 1 0 false aFlit]) ∧
    portNow (.flitReceive 5 1 3 false true true (.lap 7 grid.v (.query 1))) (withGrid (some (1, 1))) =
      some ({ upPort with badRun := 0, early := [(1, 3, .lap 7 grid.v (.query 1))] }, []) ∧
    (portNow (.flitReceive 5 1 3 false true true (.lap inContext.self.toNat grid.v (.query 1))) (withGrid none)).map Prod.snd =
      some [.flit 5 2 0 false (.response 0 (leBytes 8 (grid.e[0] * grid.e[1] * grid.e[2] * grid.e[3]))), .flit 5 6 0 false (.credit 1 1)] := by
  decide +kernel

/-- R344 to R347. -/
theorem test_links :
    portNow (.flitReceive 5 1 2 false true true .none) (linked upPort) = some ({ upPort with badRun := 0 }, []) ∧
    portNow (.flitReceive 5 1 4 false true true .none) (linked upPort) = some ({ upPort with badRun := 0, early := [(1, 4, .none)] }, []) ∧
    portNow (.flitReceive 5 1 3 false true true .none) (linked upPort) =
      some (gaveBack 1 { upPort with next := #v[0, 4, 0, 0, 0, 0, 0, 0] }, [.flit 5 6 0 false (.credit 1 1)]) ∧
    portNow (.flitReceive 5 6 0 false true true .none) (linked upPort) =
      some ({ upPort with badRun := 0, next := #v[0, 3, 0, 0, 0, 0, 1, 0] }, []) ∧
    ((portNow (.flitReceive 5 1 3 false false true .none) (linked upPort)).map (fun x => (x.1.crc, x.1.badRun,
        x.1.next == upPort.next, x.2))) =
      some (0xFFFF, 5, true, [.flit 5 6 0 false (.askReplay 1 3)]) ∧
    ((portNow (.flitReceive 5 1 3 false true false .none) (linked upPort)).map (fun x => (x.1.crc, x.1.tag))) = some (0xFFFF, 1) ∧
    portNow (.linkRetrain 5) (linked { upPort with badRun := 16 }) = some ({ upPort with state := .training, badRun := 0 }, []) ∧
    ((portNow (.linkDown 5) (linkedTwo (keeping upPort))).map (fun x => (x.1.state, x.2))) = some (.down,
        [.flit 6 1 7 false aFlit]) ∧
    portNow (.linkDown 5) (linkedTwo { upPort with kept := [⟨6, 0, false, .credit 1 1⟩] }) =
      some ({ upPort with state := .down, badRun := 0, credits := .replicate 8 0, granted := false }, []) := by
  decide +kernel

theorem test_links_up :
    portNow (.linkTrainingComplete 5) (linked { upPort with state := .training }) = some (upPort, []) ∧
    ((portNow (.linkTrainingComplete 5) (linked { upPort with state := .training, wait := [(1, aFlit)] })).map (fun x => (x.1.wait, x.2))) =
      some ([], [.flit 5 1 0 false aFlit]) ∧
    ((portNow (.linkTrainingComplete 5) (linked { upPort with state := .training, granted := false })).map (fun x =>
      (x.1.granted, x.2.map (fun y => match y with | .flit 5 6 n false (.credit v _) => (n, v.val) | _ => (99, 99))))) =
      some (true, [(0, 0), (1, 1), (2, 2), (3, 3), (4, 4), (5, 5), (6, 7)]) ∧
    ((portNow (.keyRollover 5) (linked upPort)).map (fun x => (x.1.phase, x.1.roll, x.2))) = some (true, true,
        [.flit 5 6 0 false (.keyNotice [0, 0, 0, 0, 0, 0, 1, 0])]) ∧
    portNow (.keyDiscard 5) (linked { upPort with roll := true }) = some (upPort, []) ∧
    portNow (.keyDiscard 5) (linked { upPort with roll := true, rxRoll := true, rxFirst := [0, 4] }) =
      some ({ upPort with rxRoll := true, rxFirst := [0, 4] }, []) ∧
    sleeps (.keyDiscard 5) (linked (keeping { upPort with phase := true, roll := true })) = true ∧
    ((portNow .heartbeat (linked upPort)).map Prod.snd) = some [.flit 5 6 0 false .heartbeat] ∧
    sleeps .heartbeat (linked { upPort with state := .down }) = true ∧
    (match exec (.flitReceive 5 1 3 false true true (.line 7 0x1140 (List.replicate 64 5))) (linked upPort) with
      | .next t => (sfind t.rcopies (7 * 2 ^ 52 + 0x45)).map Line.data == some (List.replicate 64 5)
      | _ => false) = true := by decide +kernel

/-- A store, an atomic and a load of another module's memory. -/
def remoteAt (a n : Nat) : List Loc := (List.range n).map (fun j => ⟨.remote 7, a + j⟩)
def storeAway : OutEntry := { leaving (remoteAt 0x1100 2) 1 with stage := 1 }
def atomicAway : OutEntry := { strand := 0, stage := 1, e := { id := 9, op := .atom .aadd .i32 5 0 3, bytes := (remoteAt 0x1100 4).map (fun l => (l, 0)) } }

theorem witness_Fabric_replies :
    (∀ o ∈ [storeAway, atomicAway], ((outgoing o).core 1).outq = [o] ∧ o.stage = 1 ∧
      (9, RegName.g 3) ∈ ((outgoing o).strandAt 1 0).pend ∧ ((outgoing o).strandAt 1 0).loads = []) ∧
    (∃ y ∈ storeAway.e.bytes, Away y.1) ∧ (∃ y ∈ atomicAway.e.bytes, Away y.1) ∧
    (let s := moving [] [taking 3 (remoteAt 0x1100 2) .i16]
     (s.strandAt 1 0).loads = [taking 3 (remoteAt 0x1100 2) .i16] ∧ (s.strandAt 1 0).buf = []) ∧
    (∀ x ∈ remoteAt 0x1100 2, Away x) ∧
    ((demo.strandAt 1 0).loads = [] ∧ (demo.core 1).outq = [] ∧ ({ demo with tasks := [] } : State).tasks = []) := by
  refine ⟨by decide +kernel, ⟨_, List.mem_cons_self .., 7, rfl⟩, ⟨_, List.mem_cons_self .., 7, rfl⟩, by decide +kernel,
      ?_, by decide +kernel⟩
  intro x h
  obtain ⟨j, _, rfl⟩ := List.mem_map.mp h
  exact ⟨7, rfl⟩

theorem test_replies :
    (match exec (.remoteAck 1 9) (outgoing storeAway) with | .next t => (t.core 1).outq.isEmpty | _ => false) = true ∧
    sleeps (.remoteAck 1 9) (outgoing atomicAway) = true ∧
    (match exec (.remoteLoadReturn 1 0 9 [0xFE, 0xFF, 0xFF, 0xFF]) (outgoing atomicAway) with
      | .next t => t.me.rg 3 == 0xFFFFFFFFFFFFFFFE && (t.core 1).outq.isEmpty && t.me.pend.isEmpty
      | _ => false) = true ∧
    (match exec (.remoteLoadReturn 1 0 3 [0xFE, 0x80]) (moving [] [taking 3 (remoteAt 0x1100 2) .i16]) with
      | .next t => t.me.rg 3 == 0xFFFFFFFFFFFF80FE && t.me.loads.isEmpty
      | _ => false) = true ∧ sleeps (.remoteAck 1 9) demo = true ∧
          sleeps (.remoteLoadReturn 1 0 9 [5]) demo = true := by decide +kernel

/-! ### Views and collectives -/

/-- Chamber 9 of context 0 has members 0, which is this module, and 1; the strand uses it. -/
def viewing (f : Chamber → Chamber) : State := { ((linked upPort).modMe (fun t => { t with uses := [9] })) with
  chambers := [(9, f { ctx := 0, view := 3, members := [0, 1], rank := 0, mode := false })] }
def proposed : Proposal := ⟨4, {}⟩
/-- One of four members that is not the lowest, with a proposal that came by port 5; and the lowest of three. -/
def inRound : State := viewing (fun k => { k with members := [0, 1, 2, 3], rank := 1, proposal := some ⟨4, { lost := [3] }⟩, via := some 5 })
def gathering : State := viewing (fun k => { k with members := [0, 1, 3], proposal := some ⟨4, { lost := [3] }⟩ })
/-- The task's logical core 0 asks for chamber 10 with members 0 and 1. -/
def wanting (join : Bool) : State := { (inContext.modMe (fun t => { t with wait := if join then .kjoin 10 none else .kview 10 none })) with
  kreqs := [⟨10, 0, 1, 0, 0, if join then [] else [0, 1], true, join, if join then 1 else 0⟩] }

theorem witness_ViewsAndCollectives_views :
    (∃ k, (viewing id).chamber 9 = some k ∧ k.proposal = none ∧ k.owed = false ∧ 1 ∈ k.members ∧ 1 ≠ k.members.getD k.rank 0 ∧ 2 ∉ k.members) ∧
    (∀ y ∈ (viewing id).cores, y.2.eq3 = []) ∧ (viewing id).routeOf 0 1 = some 7 ∧ 7 ∉ (viewing id).lost ∧
    (∃ k, (viewing (fun k => { k with proposal := some proposed })).chamber 9 = some k ∧ k.proposal = some proposed ∧
        k.confirms = [] ∧
      k.members.filter (fun x => !proposed.set.lost.contains x && !proposed.set.dropped.contains x) = [0, 1]) ∧
    (viewing id).fports[(5 : Fin 24)].state = .up ∧ (∀ x : Fin 24, x ≠ 5 → (viewing id).fports[x].state ≠ .up) ∧
    (∃ k, (viewing (fun k => { k with joining := [2] })).chamber 9 = some k ∧ k.joining ≠ [] ∧ 2 ∉ k.members) ∧
    (0 ∈ ((viewing id).strandAt 1 0).uses ∨ 9 ∈ ((viewing id).strandAt 1 0).uses) ∧ ((viewing id).strandAt 1 0).live = true := by
  refine ⟨⟨_, rfl, ?_⟩, ?_, ?_, ?_, ⟨_, rfl, ?_⟩, ?joins⟩
  case joins => refine ⟨?_, ?_, ⟨_, rfl, ?_⟩, ?_⟩ <;> decide +kernel
  all_goals decide +kernel

theorem witness_ViewsAndCollectives_rounds :
    (∃ k, inRound.chamber 9 = some k ∧ k.proposal = some ⟨4, { lost := [3] }⟩ ∧ k.owed = false ∧ k.via = some 5 ∧ k.members.Nodup ∧
      staying k { lost := [3] } = [0, 1, 2] ∧ k.members.getD k.rank 0 = 1 ∧ named ({ lost := [3] } : ViewSet) ≤ 24) ∧
    (∃ k, gathering.chamber 9 = some k ∧ k.proposal = some ⟨4, { lost := [3] }⟩ ∧ k.owed = false ∧ k.confirms = [] ∧ k.members.Nodup ∧
      staying k { lost := [3] } = [0, 1] ∧ k.members.getD k.rank 0 = 0 ∧ (∀ z ∈ k.confirms, z.1 ≠ 1) ∧
      (staying k { lost := [3] }).filter (fun y => y != 0) = [1]) ∧
    (∃ y, ¬ (y ∈ ({ dropped := [3] } : ViewSet).lost ↔ y ∈ ({ lost := [3] } : ViewSet).lost)) ∧
    (∃ k, (viewing id).chamber 9 = some k ∧ k.proposal = none ∧ 2 ∉ k.members) ∧ upPort.state = .up ∧ upPort.early = [] := by
  refine ⟨⟨_, rfl, ?_⟩, ⟨_, rfl, ?_⟩, ⟨3, ?_⟩, ⟨_, rfl, ?_⟩, ?_⟩ <;> decide +kernel

theorem witness_ViewsAndCollectives_lost : ({ viewing id with cores := [] } : State).cores = [] ∧
    ({ viewing id with cores := [] } : State).routeOf 0 1 = some 7 := by decide +kernel

theorem witness_ViewsAndCollectives_requests : (wanting false).chamber 10 = none ∧
    (wanting true).kreqs = [⟨10, 0, 1, 0, 0, [], true, true, 1⟩] ∧
        (wanting false).kreqs = [⟨10, 0, 1, 0, 0, [0, 1], true, false, 0⟩] ∧
    (∀ x ∈ [0, 1], ((wanting true).routeOf 0 x = some (wanting true).self.toNat ↔ x = 0) ∧
      ((wanting false).routeOf 0 x = some (wanting false).self.toNat ↔ x = 0)) ∧
    (wanting false).coreByLnum 0 0 = some 1 ∧ ((wanting false).strandAt 1 0).wait = .kview 10 none ∧
    ((wanting true).strandAt 1 0).wait = .kjoin 10 none ∧ demo.kreqs = [] := by decide +kernel

def chamberNow (i : Instr) (s : State) (n : Nat) : Option (Option Chamber) :=
  match exec i s with
  | .next t => some (t.chamber n)
  | _ => none

/-- R361 to R364. -/
theorem test_views :
    ((chamberNow (.moduleLossDetect 9 1) (viewing id) 9).map (fun c => c.map Chamber.proposal)) = some (some (some ⟨4, { lost := [1] }⟩)) ∧
    ((chamberNow (.viewProposal 9 5 4 { lost := [1] }) (viewing id) 9).map (fun c => c.map (fun k => (k.proposal, k.via)))) =
      some (some (some ⟨4, { lost := [1] }⟩, some 5)) ∧
    sleeps (.moduleLossDetect 9 2) (viewing id) = true ∧ sleeps (.viewProposal 9 5 3 { lost := [1] }) (viewing id) = true ∧
    sleeps (.viewConfirm 9 1 4 {}) (viewing id) = true ∧
    ((chamberNow (.viewConfirm 9 1 4 {}) (viewing (fun k => { k with proposal := some proposed })) 9).map (fun c => c.map Chamber.confirms)) =
      some (some [(1, proposed)]) ∧
    ((portNow (.viewConfirm 9 1 4 {}) (viewing (fun k => { k with proposal := some proposed }))).map Prod.snd) =
      some [.flit 5 7 0 false (.commit ⟨9, 4, 0, 1, {}⟩)] ∧
    sleeps (.viewConfirm 9 1 4 {}) (viewing (fun k => { k with proposal := some proposed, rank := 1 })) = true := by decide +kernel

/-- R361, R364: a proposal is confirmed along its path, and confirmations are sent on or merged; a request to join starts a
round. -/
theorem test_rounds :
    ((portNow (.viewProposal 9 5 4 { lost := [3] }) (viewing (fun k => { k with members := [0, 1, 2, 3], rank := 1 }))).map Prod.snd) =
      some [.flit 5 7 0 false (.confirm 1 ⟨9, 4, 0, 1, { lost := [3] }⟩)] ∧
    ((portNow (.viewConfirm 9 2 4 { lost := [3] }) inRound).map Prod.snd) =
      some [.flit 5 7 0 false (.confirm 2 ⟨9, 4, 0, 1, { lost := [3] }⟩)] ∧
    ((portNow (.viewConfirm 9 1 4 { dropped := [3] }) gathering).map Prod.snd) =
      some [.flit 5 7 0 false (.proposal ⟨9, 4, 0, 1, { lost := [3] }⟩)] ∧
    sleeps (.viewCommit 9 4 [3] []) gathering = true ∧
    ((chamberNow (.flitReceive 5 1 3 false true true (.joinRequest 7 9 2)) (viewing id) 9).map (fun c => c.map (fun k =>
      (k.proposal, k.joining, k.members)))) = some (some (some ⟨4, { joined := [2] }⟩, [2], [0, 1])) := by decide +kernel

theorem test_commits :
    ((chamberNow (.viewCommit 9 4 [] [1]) (viewing id) 9)) = some (some { ctx := 0, view := 4, members := [0], rank := 0, mode := false, departed := 1 }) ∧
    (match exec (.viewCommit 9 4 [] [1]) (viewing id) with
      | .next t => t.me.changes.map (fun c => (c.chm, c.view, c.sub, c.count)) == [(9, 4, 0, 1)] && t.lost.isEmpty
      | _ => false) = true ∧
    (match exec (.viewCommit 9 4 [1] []) { viewing id with cores := [] } with
      | .next t => t.lost == [7] && t.lostCount == 1 && (t.chamber 9).map Chamber.departed == some 1
      | _ => false) = true ∧
    sleeps (.viewCommit 9 3 [] [1]) (viewing id) = true ∧ sleeps (.viewCommit 9 4 [0] []) (viewing id) = true := by decide +kernel

theorem test_joins :
    (((chamberNow (.joinCommit 9 4 [] [2] [] [] true) (viewing (fun k => { k with joining := [2] })) 9).map (fun c => c.map (fun k =>
      (k.members, k.joined, k.kept, k.joining, k.mode)))) == some (some ([0, 1, 2], 1, 0, [], false))) = true ∧
    sleeps (.joinCommit 9 4 [] [2] [] [] true) (viewing id) = true ∧
    (match exec (.joinCommit 10 6 [0, 1] [0] [] [] true) (wanting true) with
      | .next t => t.chamber 10 == some { ctx := 0, view := 6, members := [0, 1], rank := 0, mode := true } && t.kreqs.isEmpty &&
          t.me.wait == WaitObj.kjoin 10 (some 0)
      | _ => false) = true := by decide +kernel

theorem test_matches :
    ([([⟨1, [0, 1], true⟩], 0), ([⟨1, [0, 1], false⟩], 2), ([⟨1, [0, 1, 2], true⟩], 2)] : List (List ViewReq × Fin 8)).all (fun x =>
      match exec (.kviewMatch 10 x.1) (wanting false) with
      | .next t => t.me.wait == WaitObj.kview 10 (some x.2) && t.kreqs.isEmpty && (t.chamber 10).isSome == (x.2 == 0)
      | _ => false) = true ∧
    sleeps (.kviewMatch 10 []) (wanting false) = true ∧
    (match exec (.kviewTimeout 10) (wanting false) with | .next t => t.me.wait == WaitObj.kview 10 (some 4) | _ => false) = true ∧
    (match exec (.kjoinTimeout 10) (wanting true) with | .next t => t.me.wait == WaitObj.kjoin 10 (some 4) | _ => false) = true := by decide +kernel

/-- One operation stands in EQ3; its descriptor at 0x40 names 3 elements, source 0x80 and destination 0xC0. -/
def collecting (o : CollOp) (f : Chamber → Chamber) : State := { ((outgoing (leaving [] 0)).modCore 1 (fun k => { k with
    outq := []
    eq3 := [o]
    ls := memSetAll [] (placeAt 0x40 ([3, 0, 0x80, 0xC0].flatMap (leBytes 4) ++ List.replicate 16 0) ++ placeAt 0x80 [5,
        6, 7, 8]) })) with
  fports := inContext.fports.set 5 upPort
  chambers := [(9, f { ctx := 0, view := 3, members := [0, 1], rank := 0, mode := false })] }
def anOp (m : CollMajor) : CollOp := { id := 9, strand := 0, chm := 9, major := m, rw := false, ty := .n8, md := .rne, mode := false, desc := 0x40, d := 3, priv := false, drained := true }
def aDesc : CollDesc := ⟨3, 0, 0, 1, 0x80, 0xC0, 0, 0⟩
def alone (k : Chamber) : Chamber := { k with members := [0] }
def begun (m : CollMajor) : CollOp := { anOp m with accepted := some aDesc, started := true, entered := true, out := 5 }

theorem witness_ViewsAndCollectives_collectives :
    (∀ s ∈ [collecting (anOp .kgath) alone, collecting (begun .kbcast) id, collecting { anOp .kgath with drained := false } id],
      (s.core 1).eq3.map CollOp.id = [9] ∧ (9, RegName.g 3) ∈ (s.strandAt 1 0).pend ∧ s.cores.Pairwise (fun x y => x.1 < y.1) ∧
      s.handles = [] ∧ (s.core 1).eq3.map CollOp.res = [[]] ∧ (s.core 1).bad = [] ∧ (s.core 1).weak = []) ∧
    (let s := collecting (anOp .kgath) alone
     let k := s.core 1
     k.eq3 = [anOp .kgath] ∧ (s.chamber 9).map (fun j => (j.ctx, j.members.length, j.rank, j.joining)) = some (0, 1, 0, []) ∧
     (k.readBytes (k.lsRange 0x40 32)).1 = leBytes 4 3 ++ leBytes 4 0 ++ leBytes 4 0x80 ++ leBytes 4 0xC0 ++ leBytes 8 0 ++ leBytes 8 0) ∧
    ((collecting (begun .kbcast) id).chamber 9).map (fun j => (j.view, j.members.length, j.rank)) = some (3, 2, 0) ∧
    aDesc.hnd = 0 ∧ aDesc.root < 2 ∧ (begun .kbcast).part = [] ∧ ([1, 2, 3] : List Nat).length = aDesc.n := by decide +kernel

theorem core_other {s : State} (h : ∀ x ∈ s.cores, x.1 = 1) {e : Nat} (he : e ≠ 1) : s.core e = {} := by
  have : ∀ (m : Sparse Core), (∀ x ∈ m, x.1 = 1) → sget {} m e = {} := by
    intro m
    induction m with
    | nil => intro _; rfl
    | cons x xs ih =>
      intro hm
      have hx : ¬ x.1 = e := fun hx => he (hx ▸ hm x (by simp))
      simpa [sget, sfind, hx] using ih (fun y hy => hm y (by simp [hy]))
  exact this s.cores h

theorem witness_ViewsAndCollectives_others : ∀ s ∈ [collecting (anOp .kgath) alone, collecting (begun .kbcast) id],
    ∀ e, e ≠ 1 → (s.core e).eq3 = [] := by
  intro s hs e he
  have q : ∀ s ∈ [collecting (anOp .kgath) alone, collecting (begun .kbcast) id], ∀ x ∈ s.cores, x.1 = 1 := by decide +kernel
  rw [core_other (q s hs) he]

def flitOf (view : Nat) : CollFlit := ⟨9, view, false, 1, 0, 0, 3, [], [1, 2, 3]⟩
def statusOf (i : Instr) (s : State) : Option (Word × Bool × List Byte) :=
  match exec i s with
  | .next t => some (t.me.rg 3, (t.core 1).eq3.isEmpty, memRead (t.core 1).ls 0xC0 3)
  | _ => none

/-- R352 to R358, R362. -/
theorem test_collectives :
    statusOf (.collectiveAccept 1) { collecting (anOp .kgath) id with chambers := [] } = some (0x6000000000000000, true,
        [0, 0, 0]) ∧
    sleeps (.collectiveAccept 1) (collecting { anOp .kgath with drained := false } id) = true ∧
    (match exec (.collectiveAccept 1) (collecting (anOp .kgath) alone) with
      | .next t => (t.core 1).eq3.map (fun o => (o.started, o.own)) == [(true, [5, 6, 7])]
      | _ => false) = true ∧
    ((chamberNow (.collectiveFlit (flitOf 2)) (collecting (begun .kbcast) id) 9).map (fun c => c.map Chamber.badTag)) = some (some 1) ∧
    (match exec (.collectiveFlit (flitOf 3)) (collecting (begun .kbcast) id) with
      | .next t => (t.core 1).eq3 == [{ begun .kbcast with steps := 1 }] && memRead (t.core 1).ls 0xC0 3 == [1, 2, 3]
      | _ => false) = true ∧
    statusOf (.collectiveComplete 1 9 false) (collecting { begun .kbcast with accepted := some { aDesc with root := 0 } } id) =
      some (0x30005, true, [0, 0, 0]) ∧
    statusOf (.collectiveComplete 1 9 true) (collecting (begun .kred) id) = some (0x7000000000030000, true, [0, 0, 0]) ∧
    sleeps (.collectiveComplete 1 9 false) (collecting (anOp .kred) id) = true ∧
    sleeps (.collectiveFlit (flitOf 3)) demo = true := by decide +kernel

end Sys2Proof.Tests
end

section
/-! PROOFS. What an instruction that completes changes of its own strand, and that it leaves the rest: the frames `Alone`,
`SameRegs` and `GoesOn` of the statements, once for every instruction that goes through `retire`. -/

namespace Sys2Proof.Machine

open Sys2Proof.Claims

/-! ### One strand of a core is set -/

theorem set_getElem_same (v : Vector Strand 11) (h : Fin 11) (x : Strand) : (v.set h x)[h] = x := by simp

theorem set_getElem_ne (v : Vector Strand 11) {h j : Fin 11} (hj : j ≠ h) (x : Strand) : (v.set h x)[j] = v[j] := by
  simp [show h.val ≠ j.val from fun e => hj (Fin.ext e.symm)]

/-! ### Registers that are as they were -/

/-- Strands with the same register files read the same registers. -/
theorem sameRegs_of_eq {u w : Strand} (hg : w.g = u.g) (hp : w.p = u.p) (hv : w.v = u.v) (hf : w.fflags = u.fflags) :
    SameRegs u w :=
  ⟨fun n => by simp [Strand.rg, hg], fun n => by simp [Strand.rp, hp], fun n => by simp [Strand.rv, hv], hf⟩

theorem sameRegs_refl (u : Strand) : SameRegs u u := sameRegs_of_eq rfl rfl rfl rfl

theorem sameRegs_onward {u w : Strand} (h : SameRegs u w) (pc : Pc) (n : Nat) : SameRegs u (w.onward pc n) := h

/-- A strand that only goes on keeps every register. -/
theorem goesOn_onward (u : Strand) (pc : Pc) (n : Nat) : GoesOn u (u.onward pc n) pc [] [] [] 0 :=
  ⟨fun _ _ => rfl, fun _ _ => rfl, fun _ _ => rfl, by simp [Strand.onward]⟩

/-- A strand that writes one g register and goes on keeps the others. -/
theorem goesOn_wg_onward (u : Strand) (d : Fin 32) (x : Word) (pc : Pc) (n : Nat) :
    GoesOn u ((u.wg d x).onward pc n) pc [d] [] [] 0 := by
  refine ⟨fun m hm => ?_, fun m _ => ?_, fun m _ => ?_, ?_⟩
  · exact u.rg_wg_ne (by simpa using hm) x
  · show (u.wg d x).rp m = u.rp m
    unfold Strand.wg
    split <;> rfl
  · show (u.wg d x).rv m = u.rv m
    unfold Strand.wg
    split <;> rfl
  · unfold Strand.wg
    split <;> simp [Strand.onward]

/-! ### Only the issuing strand and the counter of identifiers -/

/-- From `s` to `t` one change of the issuing strand is made, and identifiers are taken. -/
def Mine (s t : State) : Prop := ∃ (f : Strand → Strand) (n : Nat), t = { s.modMe f with nextId := n }

namespace Mine

variable {s t u : State}

theorem modMe (s : State) (f : Strand → Strand) : Mine s (s.modMe f) := ⟨f, s.nextId, rfl⟩

theorem fresh_modMe (s : State) (f : Strand → Strand) : Mine s (s.fresh.modMe f) := ⟨f, s.nextId + 1, rfl⟩

theorem trans (h : Mine s t) (k : Mine t u) : Mine s u := by
  obtain ⟨f, n, rfl⟩ := h
  obtain ⟨g, m, rfl⟩ := k
  exact ⟨fun x => g (f x), m, congrArg (fun x : State => { x with nextId := m }) (s.modMe_modMe f g)⟩

theorem cur (h : Mine s t) : t.cur = s.cur := by
  obtain ⟨f, n, rfl⟩ := h
  rfl

theorem mem (h : Mine s t) : t.mem = s.mem := by
  obtain ⟨f, n, rfl⟩ := h
  rfl

/-- Of the core, only its strands may differ. -/
theorem myCore (h : Mine s t) : t.myCore = { s.myCore with strands := t.myCore.strands } := by
  obtain ⟨f, n, rfl⟩ := h
  show (s.modMe f).core s.cur.1 = { s.core s.cur.1 with strands := ((s.modMe f).core s.cur.1).strands }
  rw [State.modMe, State.core_modStrandAt_same]

theorem slot (h : Mine s t) : t.myCore.slot = s.myCore.slot := by rw [h.myCore]

theorem core_ne (h : Mine s t) {c : Nat} (hc : c ≠ s.cur.1) : t.core c = s.core c := by
  obtain ⟨f, n, rfl⟩ := h
  exact State.core_modStrandAt_ne s hc s.cur.2 f

theorem strandAt_ne (h : Mine s t) {j : Fin 11} (hj : j ≠ s.cur.2) : t.strandAt s.cur.1 j = s.strandAt s.cur.1 j := by
  obtain ⟨f, n, rfl⟩ := h
  exact State.strandAt_modStrandAt_ne s s.cur.1 hj f

/-- A change of the strand that completes is the only change of the step. -/
theorem alone (h : Mine s t) : Alone s { t with retired := true } := by
  refine ⟨?_, fun c hc => h.core_ne hc, ?_, fun j hj => h.strandAt_ne hj, fun a => by rw [← h.mem]⟩
  · obtain ⟨f, n, rfl⟩ := h
    rfl
  · have := h.myCore
    rw [State.myCore, State.myCore, h.cur] at this
    exact this

theorem goTo (h : Mine s t) (pc : Pc) : Mine s { t.goTo pc with retired := t.retired } :=
  h.trans ⟨fun x => x.onward pc t.myCore.slot, t.nextId, rfl⟩

theorem alone_retire (h : Mine s t) (len : Nat) : Alone s (t.retire len) := (h.goTo _).alone

end Mine

theorem alone_retire (s : State) (len : Nat) : Alone s (s.retire len) :=
  (Mine.modMe s fun t => t.onward (after s len) s.myCore.slot).alone

/-- An instruction that only completes. -/
theorem runsTo_of_retire {i : Instr} {s : State} {len : Nat} {post : Strand → Prop} (h : exec i s = .next (s.retire len))
    (hp : post (s.me.onward (after s len) s.myCore.slot)) : RunsTo i s post :=
  ⟨_, h, alone_retire s len, by rwa [State.me_retire]⟩

/-- An instruction that changes its strand and completes. -/
theorem runsTo_of_modMe {i : Instr} {s : State} {f : Strand → Strand} {len : Nat} {post : Strand → Prop}
    (h : exec i s = .next ((s.modMe f).retire len))
    (hp : post ((f s.me).onward ((f s.me).pc + BitVec.ofNat 57 len) s.myCore.slot)) : RunsTo i s post :=
  ⟨_, h, (Mine.modMe s f).alone_retire len, by rwa [State.me_retire, (Mine.modMe s f).slot, State.me_modMe]⟩

/-! ### Waiting -/

@[simp] theorem Core.countWait_strands (k : Core) (a b : BitVec 4) : (k.countWait a b).strands = k.strands := by
  unfold Core.countWait
  split <;> rfl

@[simp] theorem Core.countWait_slot (k : Core) (a b : BitVec 4) : (k.countWait a b).slot = k.slot := by
  unfold Core.countWait
  split <;> rfl

/-- What a wait with code `b`, at the end of issue slot `n`, makes of a strand. -/
def Strand.waits (t : Strand) (b : BitVec 4) (n : Nat) : Strand := { t with blk := b, stamp := n + 1 }

/-- The strand that waits keeps everything but its code and its stamp. -/
@[simp] theorem State.me_waitOn (s : State) (b : BitVec 4) : (s.waitOn b).me = s.me.waits b s.myCore.slot := by
  let s' := s.modMyCore fun k => k.countWait s.me.blk b
  have hcore : s'.myCore = s.myCore.countWait s.me.blk b := s.myCore_modMyCore _
  have hme : s'.me = s.me := by
    show s'.myCore.strands[s.cur.2] = s.myCore.strands[s.cur.2]
    rw [hcore, Core.countWait_strands]
  calc (s.waitOn b).me = s'.me.waits b s'.myCore.slot := s'.me_modMe fun t => t.waits b s'.myCore.slot
    _ = s.me.waits b s.myCore.slot := by rw [hme, hcore, Core.countWait_slot]

/-- Waiting leaves every other core as it was. -/
theorem State.core_waitOn_ne (s : State) (b : BitVec 4) {c : Nat} (hc : c ≠ s.cur.1) : (s.waitOn b).core c = s.core c := by
  let s' := s.modMyCore fun k => k.countWait s.me.blk b
  exact (State.core_modStrandAt_ne s' hc s.cur.2 fun t => t.waits b s'.myCore.slot).trans (State.core_modCore_ne s hc _)

/-- The registers of a strand that waits are as they were. -/
theorem State.sameRegs_waitOn (s : State) (b : BitVec 4) : SameRegs s.me (s.waitOn b).me := by
  rw [State.me_waitOn]
  exact sameRegs_of_eq rfl rfl rfl rfl

/-- The strand keeps its registers and its PC when it starts to wait on `w`. -/
theorem State.me_awaitObj (s : State) (w : WaitObj) : (s.awaitObj w).me = { s.me with wait := w, waitAt := s.me.pc } :=
  s.me_modMe _

end Sys2Proof.Machine
end

section
/-! PROOFS. The state after reset (R260, R292, R318, R322 to R327). -/

namespace Sys2Proof.Machine

open Sys2Proof.Claims

/-! ### The state after reset -/

/-- After reset no core is listed: each is as the default core. -/
theorem reset_core (c : Nat) : State.reset.core c = {} := rfl

theorem reset_strandAt (c : Nat) (h : Fin 11) : State.reset.strandAt c h = {} := by
  simp [State.strandAt, reset_core]

theorem default_rg (n : Fin 32) : ({} : Strand).rg n = 0 := by simp [Strand.rg]

theorem default_rp {n : Fin 8} (h : n ≠ 0) : ({} : Strand).rp n = 0 := by simp [Strand.rp, h]

/-- All dies are on line, and the part is a Z8 (log 2). -/
theorem reset_modWord : State.reset.sysReg 0x80 = some (2 ^ 48 * 0xFF + 8) := by decide +kernel

/-- Settles O4. -/
theorem resetState : Obligations.ResetState := by
  refine ⟨Memory.wf_nil, rfl, rfl, memGet_nil, fun c => ⟨rfl, rfl, rfl, memGet_nil⟩, fun c h => ?_, fun _ _ => rfl,
    by decide +kernel, by decide +kernel, fun x hx => ?_, by decide +kernel, by decide +kernel, by decide +kernel⟩
  · rw [reset_strandAt]
    exact ⟨default_rg, fun n => default_rp, rfl, rfl, rfl, rfl⟩
  · obtain rfl : 2 ^ 48 * 0xFF + 8 = x := Option.some.inj (reset_modWord.symm.trans hx)
    decide +kernel

end Sys2Proof.Machine
end
section
/-! PROOFS. The system registers (R101 to R103, R317). -/

namespace Sys2Proof.Machine

open Sys2Proof.Claims

/-- Core 0 has sent a write of `%pcap` to the hubs, and it has not arrived. -/
def writeUnderWay : State := { State.reset with hubWrites := [⟨0x81, 0, 64, 0, some 0, false⟩] }

/-- `sysrd` of number 0xB1, which names no register, waits there for the core's own write, where its trap would freeze the
core. -/
theorem writeUnderWay_sysrd_waits :
    (match exec (.sysrd ⟨0, false⟩ 3 0xB1 none) writeUnderWay with
      | .next t => (t.core 0).frozen
      | _ => true) = false ∧
    ((writeUnderWay.takeTrap ⟨0x02, 0, pcWord writeUnderWay.me, 0⟩).core 0).frozen = true := by decide +kernel

/-- Refutes O14: `sysrd` of a number from 0x81 on that names no register does not trap while a write of the core is on its
way to the hubs: `sysrdBody` waits for the write before it looks at the number. -/
theorem not_systemReads : ¬ Obligations.SystemReads := by
  rintro ⟨⟨-, bad, -⟩, -, -⟩
  have trap : exec (.sysrd ⟨0, false⟩ 3 0xB1 none) writeUnderWay = _ :=
    (bad ⟨0, false⟩ 3 0xB1 none writeUnderWay (by decide +kernel) (by decide +kernel)).1
  obtain ⟨waits, freezes⟩ := writeUnderWay_sysrd_waits
  rw [trap] at waits
  exact Bool.noConfusion (waits.symm.trans freezes)

/-! ### What a write makes of a register -/

theorem bitAt_eq_testBit (x i : Nat) : bitAt x i = x.testBit i := by
  simp [bitAt, Nat.testBit_eq_decide_div_mod_eq, beq_eq_decide]

/-- Bit `i` of a register is named by a write of `w` bits from `lo` on. -/
def named (f : Option RegField) (i : Nat) : Bool :=
  decide ((fieldBits f).1 ≤ i) && decide (i < (fieldBits f).1 + (fieldBits f).2)

theorem putOf_mask_testBit (f : Option RegField) (x : Word) (i : Nat) : (putOf f x).mask.testBit i = named f i := by
  simp only [putOf, named, Nat.testBit_mul_two_pow, Nat.testBit_two_pow_sub_one]
  grind

theorem putOf_val_testBit (f : Option RegField) (x : Word) (i : Nat) :
    (putOf f x).val.testBit i = (named f i && x.getLsbD (i - (fieldBits f).1)) := by
  simp only [putOf, named, Nat.testBit_mul_two_pow, Nat.testBit_mod_two_pow, BitVec.getLsbD]
  grind

/-- A bit that a one clears (R15). -/
theorem putOf_w1c (f : Option RegField) (x : Word) (i : Nat) (old : Bool) :
    (putOf f x).w1c i old = (old && !(named f i && x.getLsbD (i - (fieldBits f).1))) := by
  simp only [RegPut.w1c, bitAt_eq_testBit, putOf_mask_testBit, putOf_val_testBit]
  cases named f i <;> rfl

/-- A field that reads and writes takes the named bits and keeps the others (R101). -/
theorem putOf_rw_testBit (f : Option RegField) (x : Word) (lo w old i : Nat) (hi : i < w) :
    ((putOf f x).rw lo w old).testBit i =
      if named f (lo + i) then x.getLsbD (lo + i - (fieldBits f).1) else old.testBit i := by
  have hm : ((putOf f x).mask / 2 ^ lo % 2 ^ w).testBit i = named f (lo + i) := by
    simp [Nat.testBit_mod_two_pow, Nat.testBit_div_two_pow, putOf_mask_testBit, hi, Nat.add_comm]
  have hc : (2 ^ w - 1 - (putOf f x).mask / 2 ^ lo % 2 ^ w).testBit i = !named f (lo + i) := by
    rw [Nat.sub_sub, Nat.add_comm 1, Nat.testBit_two_pow_sub_succ (Nat.mod_lt _ (Nat.two_pow_pos w)), hm]
    simp [hi]
  have hv : ((putOf f x).val / 2 ^ lo % 2 ^ w).testBit i =
      (named f (lo + i) && x.getLsbD (lo + i - (fieldBits f).1)) := by
    simp [Nat.testBit_mod_two_pow, Nat.testBit_div_two_pow, putOf_val_testBit, hi, Nat.add_comm]
  simp only [RegPut.rw, Nat.testBit_or, Nat.testBit_and, hm, hc, hv]
  cases named f (lo + i) <;> simp

/-! ### `syswr` -/

section

variable {gd : Guard} {a : Fin 32} {f : Option RegField} {s : State}

/-- A write of a register below the hubs takes effect with the instruction. -/
theorem syswr_low (hg : s.me.guardOn gd = true) {reg : BitVec 16} {x : Nat} (hreg : s.sysReg reg.toNat = some x)
    (hlow : reg.toNat < 0x81) : exec (.syswr gd a reg f) s =
      .next ((s.sysPut reg.toNat (putOf f (s.me.rg a)) s.me.priv).retire (fieldLen f)) := by
  show runW gd (fieldLen f) s (syswrBody a reg f) = _
  rw [runW_on hg, syswrBody, hreg]
  simp [Nat.not_le.2 hlow]

/-- A write of a module register is sent to the hubs (R317). -/
theorem syswr_hub (hg : s.me.guardOn gd = true) {reg : BitVec 16} {x : Nat} (hreg : s.sysReg reg.toNat = some x)
    (hhub : 0x81 ≤ reg.toNat) : exec (.syswr gd a reg f) s = .next (({ s with hubWrites := s.hubWrites ++
      [⟨reg.toNat, (fieldBits f).1, (fieldBits f).2, s.me.rg a, some s.cur.1, s.me.priv⟩] } : State).retire (fieldLen f)) := by
  show runW gd (fieldLen f) s (syswrBody a reg f) = _
  rw [runW_on hg, syswrBody, hreg]
  simp [hhub]

end

/-- Every number of R103 and R317 names a register. -/
theorem sysReg_isSome {n : Nat} (h : n ∈ sysNumbers) (s : State) : ∃ x, s.sysReg n = some x := by
  simp only [sysNumbers, List.mem_cons, List.not_mem_nil, or_false] at h
  rcases h with rfl | rfl | rfl | rfl | rfl | rfl | rfl | rfl | rfl | rfl | rfl | rfl | rfl | rfl | rfl | rfl | rfl | rfl |
    rfl | rfl | rfl | rfl | rfl | rfl | rfl | rfl | rfl | rfl <;> exact ⟨_, rfl⟩

/-- A field of one bit that reads and writes. -/
theorem putOf_rw_bit (f : Option RegField) (x : Word) (lo : Nat) (old : Bool) :
    ((putOf f x).rw lo 1 (b2n old) == 1) = if named f lo then x.getLsbD (lo - (fieldBits f).1) else old := by
  have hbit := putOf_rw_testBit f x lo 1 (b2n old) 0 Nat.one_pos
  have hlt : (putOf f x).rw lo 1 (b2n old) < 2 :=
    Nat.or_lt_two_pow (n := 1) (Nat.and_lt_two_pow _ (by simp only [pow_one]; omega)) (Nat.and_lt_two_pow _ (Nat.mod_lt _ (by decide)))
  rw [Nat.add_zero, Nat.testBit_zero, Nat.mod_eq_of_lt hlt] at hbit
  rw [beq_eq_decide, hbit]
  cases old <;> rfl

/-- Settles O12. -/
theorem systemWrites : Obligations.SystemWrites := by
  intro gd a f s hg lo w name x
  refine ⟨⟨_, syswr_low hg (reg := 1) rfl (by decide), fun j hj => ?fflags⟩, ?ssw, ?fpmode, fun hp reg hr => ?priv,
    fun reg hr => ?readOnly, fun reg hhub hmem => ?hubs⟩
  case fflags =>
    rw [BitVec.getLsbD_ofNat, putOf_rw_testBit f _ 0 6 _ j hj, Nat.zero_add, decide_eq_true hj, Bool.true_and]
    rfl
  case ssw =>
    rw [syswr_low hg (reg := 0) rfl (by decide)]
    simp only [State.sysPut, putOf_w1c]
    rfl
  case fpmode =>
    rw [syswr_low hg (reg := 2) rfl (by decide)]
    simp only [State.sysPut, putOf_rw_bit, Nat.zero_sub]
    rfl
  case priv =>
    simp only [List.mem_cons, List.not_mem_nil, or_false] at hr
    rcases hr with rfl | rfl | rfl
    · rw [syswr_low hg (reg := 0x21) rfl (by decide), hp]; rfl
    · rw [syswr_low hg (reg := 0x41) rfl (by decide), hp]; rfl
    · rw [syswr_low hg (reg := 0x60) rfl (by decide), hp]; rfl
  case readOnly =>
    obtain rfl := List.mem_singleton.1 hr
    rw [syswr_low hg (reg := 0x40) rfl (by decide)]
    rfl
  case hubs =>
    obtain ⟨y, hy⟩ := sysReg_isSome hmem s
    exact syswr_hub hg hy hhub

end Sys2Proof.Machine
end

section
/-! PROOFS. Fences and `qfence` (R33, R109, R162). -/

namespace Sys2Proof.Machine

open Sys2Proof.Claims

/-! ### Checks that let an instruction through -/

/-- No remote store of the strand was dropped: nothing to tell (R351). -/
theorem dropCheck_of_none {s : State} (h : s.me.dropped = none) (sc : Scope) (b : Bool) : s.dropCheck sc b = .ok () := by
  unfold State.dropCheck
  rw [h]

/-- Only a release or fence of chamber scope tells of a dropped store (R351). -/
theorem dropCheck_of_ne_chm (s : State) {sc : Scope} (h : sc ≠ .chm) (b : Bool) : s.dropCheck sc b = .ok () := by
  unfold State.dropCheck
  split
  · rfl
  · simp [h]

/-! ### The store buffer and the lines that an acquire voids -/

theorem pushBuf_mine (s : State) (e : BufEntry) : Mine s (s.pushBuf e) := Mine.fresh_modMe s _

/-- An entry stands last in the buffer, with its identifier, its PC and its first 64 bits. -/
theorem me_pushBuf (s : State) (e : BufEntry) :
    (s.pushBuf e).me = { s.me with buf := s.me.buf ++ [{ e with id := s.nextId, pc := s.me.pc, iw := s.me.iw }] } :=
  s.fresh.me_modMe _

/-- Voiding lines leaves all of the strand but its three stamps (R225). -/
theorem Strand.void_eq (t : Strand) (sc : Scope) (now : Nat) :
    t.void sc now = { t with voidP := (t.void sc now).voidP, voidC := (t.void sc now).voidC, voidR := (t.void sc now).voidR } := by
  cases sc <;> rfl

/-- An acquire wider than the core voids the plain-data lines (R225, R270). -/
theorem Strand.void_voidP (t : Strand) {sc : Scope} (h1 : sc ≠ .str) (h2 : sc ≠ .core) (now : Nat) :
    (t.void sc now).voidP = now := by
  cases sc with
  | str => exact absurd rfl h1
  | core => exact absurd rfl h2
  | clu | die | mod | chm => rfl

/-- What an acquire half makes of the state. -/
def State.acquired (s : State) (sc : Scope) : State := s.fresh.modMe (fun t => t.void sc s.nextId)

theorem me_acquired (s : State) (sc : Scope) : (s.acquired sc).me = s.me.void sc s.nextId := s.fresh.me_modMe _

/-- A fence wider than the strand: its acquire half voids lines, its release half stands in the buffer (R33). -/
theorem fenceBody_ok {s : State} (hd : s.me.dropped = none) (hs : s.settled = true) (o : Order) {sc : Scope}
    (hsc : sc ≠ .str) : fenceBody o sc s =
      let t := if acquires o sc then s.acquired sc else s
      .ok (if releases o sc then t.pushEntry (.fence (o == .ar)) [] o sc 0 0 else t) := by
  unfold fenceBody
  rw [dropCheck_of_none hd]
  simp only [beq_iff_eq, hsc, hs, if_false, Bool.not_true, Bool.and_false]
  rfl

/-- A fence that completes: what it leaves of its strand. -/
theorem fence_completes {gd : Guard} {s : State} (hg : s.me.guardOn gd = true) {o : Order} {sc : Scope} {t : State}
    (hbody : fenceBody o sc s = .ok t) (hmine : Mine s t) (hpc : t.me.pc = s.me.pc) :
    exec (.fence gd o sc) s = .next (t.retire 8) ∧ Alone s (t.retire 8) ∧ (t.retire 8).me.pc = after s 8 := by
  refine ⟨?_, hmine.alone_retire 8, ?_⟩
  · show runW gd 8 s (fenceBody o sc) = _
    rw [runW_on hg, hbody, conclude_ok]
  · rw [State.me_retire, hpc]
    rfl

/-- R33: a fence with an acquire half alone voids the lines that its scope names. -/
theorem fence_acquire {gd : Guard} {s : State} (hg : s.me.guardOn gd = true) (hd : s.me.dropped = none)
    (hs : s.settled = true) {sc : Scope} (hsc : sc ≠ .str) :
    ∃ t, exec (.fence gd .acq sc) s = .next t ∧ Alone s t ∧ SameRegs s.me t.me ∧ t.me.pc = after s 8 ∧
      t.me.buf = s.me.buf ∧ (sc ≠ .core → t.me.voidP = s.nextId) := by
  have hbody : fenceBody .acq sc s = .ok (s.acquired sc) := by
    rw [fenceBody_ok hd hs _ hsc]
    simp [acquires, releases, hsc]
  have hme := (me_acquired s sc).trans (Strand.void_eq ..)
  obtain ⟨hexec, halone, hpc⟩ := fence_completes hg hbody (Mine.fresh_modMe s _) (by rw [hme])
  refine ⟨_, hexec, halone, ?_, hpc, ?_, fun hcore => ?_⟩ <;> rw [State.me_retire]
  · rw [hme]
    exact sameRegs_of_eq rfl rfl rfl rfl
  · rw [hme]
    rfl
  · exact (congrArg Strand.voidP (me_acquired s sc)).trans (Strand.void_voidP _ hsc hcore _)

/-- R33: a fence with a release half stands in the buffer; one with both halves has voided its lines, `u`, before. -/
theorem fence_release {gd : Guard} {s u : State} (hg : s.me.guardOn gd = true) {o : Order} {sc : Scope}
    (hbody : fenceBody o sc s = .ok (u.pushEntry (.fence (o == .ar)) [] o sc 0 0)) (hrel : releases o sc = true)
    (hnsc : (o == .sc) = false) (hu : u = s ∨ u = s.acquired sc) :
    ∃ t, exec (.fence gd o sc) s = .next t ∧ Alone s t ∧ SameRegs s.me t.me ∧ t.me.pc = after s 8 ∧
      (∃ id, t.me.buf = s.me.buf ++
        [{ id := id, op := .fence (o == .ar), rel := true, scope := sc, pc := s.me.pc, iw := s.me.iw }]) ∧
      t.me.voidP = u.me.voidP := by
  have hsame : u.me = { s.me with voidP := u.me.voidP, voidC := u.me.voidC, voidR := u.me.voidR } := by
    rcases hu with rfl | rfl
    · rfl
    · rw [me_acquired]
      exact Strand.void_eq ..
  generalize ht : u.pushEntry (.fence (o == .ar)) [] o sc 0 0 = t at hbody
  have hmine : Mine s t := by
    rw [← ht]
    rcases hu with rfl | rfl
    · exact pushBuf_mine _ _
    · exact (Mine.fresh_modMe s _).trans (pushBuf_mine _ _)
  have hme : t.me = { u.me with buf := u.me.buf ++
      [{ id := u.nextId, op := .fence (o == .ar), rel := true, scope := sc, pc := u.me.pc, iw := u.me.iw }] } := by
    rw [← ht, State.pushEntry, me_pushBuf, hrel, hnsc]
    rfl
  rw [hsame] at hme
  obtain ⟨hexec, halone, hpc⟩ := fence_completes hg hbody hmine (by rw [hme])
  refine ⟨_, hexec, halone, ?_, hpc, ⟨u.nextId, ?_⟩, ?_⟩ <;> rw [State.me_retire, hme]
  · exact sameRegs_of_eq rfl rfl rfl rfl
  · rfl
  · rfl

/-! ### `qfence` -/

/-- A strand that waits for no queue waits for the operations accepted before now (R162). -/
theorem drainQueues_eq {s : State} (hw : ∀ qs n, s.me.wait ≠ .queue qs n) (qs : List (Fin 4)) :
    s.drainQueues qs =
      if qs.any (fun q => (s.myCore.opsIn q).any (fun i => decide (i < s.nextId))) then
        block 9 (s.awaitObj (.queue qs s.nextId))
      else (s.myCore.firstError qs).elim (.ok s) raise := by
  have hno : ∀ ps n, s.me.waiting ≠ .queue ps n := by
    unfold Strand.waiting
    split
    · exact hw
    · nofun
  unfold State.drainQueues
  generalize s.me.waiting = w at hno
  cases w with
  | queue ps n => exact absurd rfl (hno ps n)
  | none | barrier | kview | kjoin | touch | send | slots | recv | helpers =>
    cases s.myCore.firstError qs <;> rfl

/-- The queues that a mask of `qfence` names. -/
def maskQueues (mask : BitVec 4) : List (Fin 4) := (List.finRange 4).filter (fun q => mask.getLsbD q.val)

theorem mem_maskQueues {mask : BitVec 4} {q : Fin 4} : q ∈ maskQueues mask ↔ mask.getLsbD q.val = true := by
  simp [maskQueues]

theorem maskQueues_single (q : Fin 4) : maskQueues (BitVec.ofNat 4 (2 ^ q.val)) = [q] := by
  revert q
  decide

theorem firstError_none {k : Core} {qs : List (Fin 4)} (h : ∀ q ∈ qs, k.err[q] = none) : k.firstError qs = none := by
  induction qs with
  | nil => rfl
  | cons q qs ih =>
    rw [Core.firstError, h q List.mem_cons_self]
    exact ih fun x hx => h x (List.mem_cons_of_mem _ hx)

theorem exec_qfence {gd : Guard} {s : State} (hg : s.me.guardOn gd = true) (mask : BitVec 4) :
    exec (.qfence gd mask) s = conclude s (s.drainQueues (maskQueues mask)) (fun t => t.retire 8) :=
  runW_on hg 8 fun s => s.drainQueues (maskQueues mask)

/-- Settles O16. -/
theorem fencesAndQueues : Obligations.FencesAndQueues := by
  refine ⟨fun gd o s hg => ?strand, fun gd o sc s hg hd hsc hs ho => ?wider, fun gd mask s hg hw hidle => ?idle,
    fun gd mask q i s hg hw hq hi hn => ?busy, fun gd q e s hg hw hidle herr => ?error⟩
  case strand =>
    refine runsTo_of_retire (len := 8) ?_ (goesOn_onward ..)
    show runW gd 8 s (fenceBody o .str) = _
    rw [runW_on hg, fenceBody, dropCheck_of_ne_chm s (by decide)]
    rfl
  case wider =>
    rcases ho with rfl | rfl | rfl
    · obtain ⟨t, hexec, halone, hregs, hpc, hbuf, hvoid⟩ := fence_acquire hg hd hs hsc
      exact ⟨t, hexec, halone, hregs, hpc, fun _ => hbuf, fun h => absurd rfl h, fun _ => hvoid, nofun⟩
    · obtain ⟨t, hexec, halone, hregs, hpc, hbuf, hvoid⟩ := fence_release (u := s) (o := .rel) hg
        (by rw [fenceBody_ok hd hs _ hsc]; simp [acquires, releases, hsc]) (by simp [releases, hsc]) rfl (.inl rfl)
      exact ⟨t, hexec, halone, hregs, hpc, nofun, fun _ => hbuf, fun h => absurd rfl h, fun _ => hvoid⟩
    · obtain ⟨t, hexec, halone, hregs, hpc, hbuf, hvoid⟩ := fence_release (u := s.acquired sc) (o := .ar) hg
        (by rw [fenceBody_ok hd hs _ hsc]; simp [acquires, releases, hsc]) (by simp [releases, hsc]) rfl (.inr rfl)
      refine ⟨t, hexec, halone, hregs, hpc, nofun, fun _ => hbuf, fun _ hcore => ?_, nofun⟩
      rw [hvoid, me_acquired]
      exact Strand.void_voidP _ hsc hcore _
  case idle =>
    refine runsTo_of_retire (len := 8) ?_ (goesOn_onward ..)
    have hno : (maskQueues mask).any (fun q => (s.myCore.opsIn q).any (fun i => decide (i < s.nextId))) = false := by
      rw [List.any_eq_false]
      intro q hq
      simp [(hidle q (mem_maskQueues.1 hq)).1]
    rw [exec_qfence hg, drainQueues_eq hw, hno, firstError_none fun q hq => (hidle q (mem_maskQueues.1 hq)).2]
    rfl
  case busy =>
    have hany : (maskQueues mask).any (fun q => (s.myCore.opsIn q).any (fun i => decide (i < s.nextId))) = true :=
      List.any_eq_true.2 ⟨q, mem_maskQueues.2 hq, List.any_eq_true.2 ⟨i, hi, decide_eq_true hn⟩⟩
    refine ⟨_, by rw [exec_qfence hg, drainQueues_eq hw, hany, if_pos rfl, conclude_block], rfl, ?_, ?_, ?_⟩ <;>
      rw [State.me_waitOn, State.me_awaitObj]
    · rfl
    · rfl
    · exact sameRegs_of_eq rfl rfl rfl rfl
  case error =>
    have hno : [q].any (fun q => (s.myCore.opsIn q).any (fun i => decide (i < s.nextId))) = false := by simp [hidle]
    have hfirst : s.myCore.firstError [q] = some (engineError q e) := by
      rw [Core.firstError, herr]
    show exec _ s = _
    rw [exec_qfence hg, maskQueues_single, drainQueues_eq hw, hno, hfirst]
    rfl

end Sys2Proof.Machine
end

section
/-! PROOFS. Helper strands (R12, R17, R18, R111 to R113). -/

namespace Sys2Proof.Machine

open Sys2Proof.Claims

/-! ### Who may issue what (R18) -/

theorem controlOnly_of_control {s : State} (h : s.cur.2 = 0) : s.controlOnly = .ok () := by simp [State.controlOnly, trapIf, h]

theorem controlOnly_of_helper {s : State} (h : s.cur.2 ≠ 0) : s.controlOnly = raise (Trap.illegalInstruction (pcWord s.me)) := by
  simp [State.controlOnly, trapIf, h]

theorem helperOnly_of_helper {s : State} (h : s.cur.2 ≠ 0) : s.helperOnly = .ok () := by simp [State.helperOnly, trapIf, h]

theorem helperOnly_of_control {s : State} (h : s.cur.2 = 0) : s.helperOnly = raise (Trap.illegalInstruction (pcWord s.me)) := by
  simp [State.helperOnly, trapIf, h]

/-- A body that begins with a check that traps. -/
theorem runW_of_trap {gd : Guard} {s : State} (hg : s.me.guardOn gd = true) (len : Nat) {body : State → Res State} {k : Trap}
    (hb : body s = raise k) : runW gd len s body = .next (s.takeTrap k) := by
  rw [runW_on hg, hb, conclude_raise]

/-- What `xjoin` does under its guard (R112). -/
def xjoinBody (m : MaskSrc) (s : State) : Res State := do
  s.controlOnly
  s.awaitHelpers (joinMask s.me m)
  .ok s

theorem exec_xjoin_eq (gd : Guard) (m : MaskSrc) (s : State) : exec (.xjoin gd m) s = runW gd 8 s (xjoinBody m) := rfl

/-- On a helper these trap before they do anything else (R111, R112, R206, R254). -/
theorem traps_of_helper {gd : Guard} {s : State} (hg : s.me.guardOn gd = true) (hh : s.cur.2 ≠ 0) (h : Fin 16)
    (off : BitVec 32) (a1 a2 a3 a4 d : Fin 32) (m : MaskSrc) (b b' : Bool) (i : Instr)
    (hi : i ∈ ([.xstart gd h off a1 a2 a3 a4, .xjoin gd m, .tfin gd, .dbar gd d b, .dphase gd d b b'] : List Instr)) :
    Traps i s ⟨0x02, 0, pcWord s.me, 0⟩ := by
  have hrole := controlOnly_of_helper hh
  simp only [List.mem_cons, List.not_mem_nil, or_false] at hi
  rcases hi with rfl | rfl | rfl | rfl | rfl
  · exact runW_of_trap hg 12 (by rw [xstartBody, hrole]; rfl)
  · exact runW_of_trap hg 8 (body := xjoinBody m) (by rw [xjoinBody, hrole]; rfl)
  · show (if s.me.guardOn gd then conclude s (tfinBody s) _ else _) = _
    rw [if_pos hg, tfinBody, hrole]
    rfl
  · exact runW_of_trap hg 8 (by rw [domainBarrier, hrole]; rfl)
  · exact runW_of_trap hg 8 (by rw [domainBarrier, hrole]; rfl)

/-! ### `xstart` (R111) -/

/-- The number of a helper is none of the control strand. -/
theorem helper_ne_zero {h : Fin 16} (h1 : 1 ≤ h.val) (h10 : h.val ≤ 10) : Fin.ofNat 11 h.val ≠ 0 := by
  intro e
  have := congrArg Fin.val e
  simp only [Fin.ofNat, Fin.val_zero] at this
  omega

theorem xstartTarget_eq (t : Strand) (off : BitVec 32) : xstartTarget t off = pcWord t + off.signExtend 64 * 4 := by
  rw [xstartTarget, BitVec.mul_comm]

/-- The helper that `xstart` makes live. -/
def State.started (s : State) (off : BitVec 32) (a1 a2 a3 a4 : Fin 32) : Strand :=
  helperStart s.strandPriv s.me ((xstartTarget s.me off).setWidth 57) (s.me.rg a1) (s.me.rg a2) (s.me.rg a3) (s.me.rg a4)
    s.myCore.slot (s.myCore.task.getD 0)

/-- The checks of `xstart` in their order (R111). -/
theorem xstartBody_eq {s : State} (hc : s.cur.2 = 0) (h : Fin 16) {off : BitVec 32} (a1 a2 a3 a4 : Fin 32)
    (ht : (xstartTarget s.me off).toNat < 2 ^ 57) : xstartBody h off a1 a2 a3 a4 s =
      if (s.strandAt s.cur.1 (Fin.ofNat 11 h.val)).live then raise { code := 0x08, detail := BitVec.ofNat 64 h.val }
      else if !s.me.buf.isEmpty then stall s
      else .ok (s.modStrandAt s.cur.1 (Fin.ofNat 11 h.val) fun _ => s.started off a1 a2 a3 a4) := by
  rw [xstartBody, controlOnly_of_control hc]
  simp only [trapIf, decide_eq_false (Nat.not_le.2 ht)]
  cases (s.strandAt s.cur.1 (Fin.ofNat 11 h.val)).live <;> cases s.me.buf.isEmpty <;> rfl

/-- A helper starts with its four arguments and zeros. -/
theorem helperStart_rg (priv : Bool) (c : Strand) (pc : Pc) (x1 x2 x3 x4 : Word) (now since : Nat) :
    let u := helperStart priv c pc x1 x2 x3 x4 now since
    u.rg 1 = x1 ∧ u.rg 2 = x2 ∧ u.rg 3 = x3 ∧ u.rg 4 = x4 ∧ ∀ n : Fin 32, 4 < n.val → u.rg n = 0 := by
  refine ⟨by simp [helperStart, Strand.rg], by simp [helperStart, Strand.rg], by simp [helperStart, Strand.rg],
    by simp [helperStart, Strand.rg], fun n hn => ?_⟩
  have h0 : n ≠ 0 := by rintro rfl; simp at hn
  simp only [helperStart, Strand.rg, h0, if_false, Fin.getElem_fin]
  rw [Vector.getElem_set_ne (h := by show 4 ≠ n.val; omega), Vector.getElem_set_ne (h := by show 3 ≠ n.val; omega),
    Vector.getElem_set_ne (h := by show 2 ≠ n.val; omega), Vector.getElem_set_ne (h := by show 1 ≠ n.val; omega)]
  simp

/-! ### `xjoin` (R112) -/

theorem anyLive_eq_true {k : Core} {m : BitVec 16} :
    k.anyLive m = true ↔ ∃ h : Fin 11, h ≠ 0 ∧ m.getLsbD h.val = true ∧ k.strands[h].live = true := by
  simp [Core.anyLive, and_assoc]

theorem exec_xjoin {gd : Guard} {s : State} (hg : s.me.guardOn gd = true) (hc : s.cur.2 = 0) (m : MaskSrc) :
    exec (.xjoin gd m) s =
      .next (if s.myCore.anyLive (joinMask s.me m) then (s.awaitObj (.helpers (joinMask s.me m))).waitOn 6 else s.retire 8) := by
  rw [exec_xjoin_eq, runW_on hg, xjoinBody, controlOnly_of_control hc, State.awaitHelpers]
  split <;> rfl

/-! ### `xend` (R113) -/

theorem exec_xend {gd : Guard} {s : State} (hg : s.me.guardOn gd = true) (hh : s.cur.2 ≠ 0) (hb : s.me.buf = [])
    (hs : s.settled = true) : exec (.xend gd) s = .next s.endHelper := by
  show (if s.me.guardOn gd then conclude s _ _ else _) = _
  rw [if_pos hg, helperOnly_of_helper hh, hb, hs]
  rfl

/-- The core of a helper that ends: its ports are released, its flags join those of strand 0 (R17, R137). -/
theorem core_endHelper (s : State) : s.endHelper.core s.cur.1 =
    { (s.core s.cur.1).releasePorts s.cur.2 with
      strands := ((s.core s.cur.1).strands.set (0 : Fin 11) ((s.core s.cur.1).strands[(0 : Fin 11)].raise s.me.fflags)).set s.cur.2 {} } := by
  let s1 := s.modStrandAt s.cur.1 0 fun t => t.raise s.me.fflags
  let s2 := s1.modMyCore fun k => k.releasePorts s.cur.2
  have h1 : s1.core s.cur.1 = _ := State.core_modStrandAt_same ..
  have h2 : s2.core s.cur.1 = _ := State.core_modCore_same s1 s.cur.1 _
  refine (State.core_modStrandAt_same s2 s.cur.1 s.cur.2 fun _ => {}).trans ?_
  rw [h2, h1]
  rfl

theorem core_endHelper_ne (s : State) {e : Nat} (he : e ≠ s.cur.1) : s.endHelper.core e = s.core e := by
  let s1 := s.modStrandAt s.cur.1 0 fun t => t.raise s.me.fflags
  let s2 := s1.modMyCore fun k => k.releasePorts s.cur.2
  exact (State.core_modStrandAt_ne s2 he s.cur.2 fun _ => {}).trans
    ((State.core_modCore_ne s1 he _).trans (State.core_modStrandAt_ne s he 0 _))

theorem strandAt_endHelper (s : State) (j : Fin 11) : s.endHelper.strandAt s.cur.1 j =
    if j = s.cur.2 then {} else if j = 0 then (s.strandAt s.cur.1 0).raise s.me.fflags else s.strandAt s.cur.1 j := by
  rw [State.strandAt, core_endHelper]
  by_cases hj : j = s.cur.2
  · rw [if_pos hj, hj]
    exact set_getElem_same ..
  · rw [if_neg hj]
    refine (set_getElem_ne _ hj _).trans ?_
    by_cases h0 : j = 0
    · rw [if_pos h0, h0]
      exact set_getElem_same ..
    · rw [if_neg h0]
      exact set_getElem_ne _ h0 _

/-! ### The statements -/

theorem xstart_starts {gd : Guard} {h : Fin 16} {off : BitVec 32} (a1 a2 a3 a4 : Fin 32) {s : State}
    (hg : s.me.guardOn gd = true) (hc : s.cur.2 = 0) (h1 : 1 ≤ h.val) (h10 : h.val ≤ 10)
    (ht : (xstartTarget s.me off).toNat < 2 ^ 57) (hidle : (s.strandAt s.cur.1 (Fin.ofNat 11 h.val)).live = false)
    (hbuf : s.me.buf = []) :
    ∃ t, exec (.xstart gd h off a1 a2 a3 a4) s = .next t ∧ SameRegs s.me t.me ∧ t.me.pc = after s 12 ∧
      t.strandAt s.cur.1 (Fin.ofNat 11 h.val) = s.started off a1 a2 a3 a4 ∧
      (∀ j, j ≠ Fin.ofNat 11 h.val → j ≠ 0 → t.strandAt s.cur.1 j = s.strandAt s.cur.1 j) ∧
      (∀ e, e ≠ s.cur.1 → t.core e = s.core e) ∧ t.mem = s.mem := by
  have hk : Fin.ofNat 11 h.val ≠ s.cur.2 := hc ▸ helper_ne_zero h1 h10
  let t := s.modStrandAt s.cur.1 (Fin.ofNat 11 h.val) fun _ => s.started off a1 a2 a3 a4
  have hexec : exec (.xstart gd h off a1 a2 a3 a4) s = .next (t.retire 12) := by
    show runW gd 12 s (xstartBody h off a1 a2 a3 a4) = _
    rw [runW_on hg, xstartBody_eq hc h a1 a2 a3 a4 ht, hidle, hbuf]
    rfl
  obtain ⟨-, hcores, -, hstrands, -⟩ := Machine.alone_retire t 12
  have hme : t.me = s.me := State.strandAt_modStrandAt_ne s s.cur.1 hk.symm _
  refine ⟨_, hexec, ?_, ?_, ?_, fun j hj hj0 => ?_, fun e he => ?_, rfl⟩
  · rw [State.me_retire, hme]
    exact sameRegs_onward (sameRegs_refl _) ..
  · rw [State.me_retire, hme]
    rfl
  · exact (hstrands _ hk).trans (State.strandAt_modStrandAt_same ..)
  · exact (hstrands j (hc ▸ hj0)).trans (State.strandAt_modStrandAt_ne s s.cur.1 hj _)
  · exact (hcores e he).trans (State.core_modStrandAt_ne s he _ _)

theorem helperStrandsRule_holds : helperStrandsRule := by
  refine ⟨?xstart, ?xjoin, ?xend⟩
  case xstart =>
    intro gd h off a1 a2 a3 a4 s hg hc h1 h10 k target ht hidle hbuf
    have htarget : xstartTarget s.me off = target := xstartTarget_eq s.me off
    obtain ⟨t, hexec, hregs, hpc, hnew, hframe⟩ := xstart_starts a1 a2 a3 a4 hg hc h1 h10 (htarget ▸ ht) hidle hbuf
    refine ⟨t, hexec, hregs, hpc, ?_, hframe⟩
    obtain ⟨r1, r2, r3, r4, rest⟩ := helperStart_rg s.strandPriv s.me ((xstartTarget s.me off).setWidth 57) (s.me.rg a1)
      (s.me.rg a2) (s.me.rg a3) (s.me.rg a4) s.myCore.slot (s.myCore.task.getD 0)
    rw [hnew]
    refine ⟨r1, r2, r3, r4, rest, ?_⟩
    rw [← htarget]
    rfl
  case xjoin =>
    intro gd m s hg hc bits
    have hbits : joinMask s.me m = bits := by cases m <;> rfl
    refine ⟨fun hidle => ?_, fun h h0 hm hlive => ?_⟩
    · have hnone : s.myCore.anyLive (joinMask s.me m) = false := by
        rw [hbits, Bool.eq_false_iff]
        intro hany
        obtain ⟨h, h0, hm, hlive⟩ := anyLive_eq_true.1 hany
        exact Bool.noConfusion ((hidle h h0 hm).symm.trans hlive)
      exact runsTo_of_retire (len := 8) (by rw [exec_xjoin hg hc, hnone]; rfl) (goesOn_onward ..)
    · have hany : s.myCore.anyLive (joinMask s.me m) = true := hbits ▸ anyLive_eq_true.2 ⟨h, h0, hm, hlive⟩
      refine ⟨_, by rw [exec_xjoin hg hc, hany, if_pos rfl], rfl, ?_, ?_, ?_⟩ <;> rw [State.me_waitOn, State.me_awaitObj]
      · rfl
      · rfl
      · exact sameRegs_of_eq rfl rfl rfl rfl
  case xend =>
    intro gd s hg hh hb hs _
    refine ⟨_, exec_xend hg hh hb hs, rfl, ?_, ?_, fun q => ?_, fun j hj hj0 => ?_, fun e he => core_endHelper_ne s he, rfl⟩
    · show (s.endHelper.strandAt s.cur.1 s.cur.2).live = false
      rw [strandAt_endHelper, if_pos rfl]
    · rw [strandAt_endHelper, if_neg (Ne.symm hh), if_pos rfl]
      rfl
    · rw [core_endHelper]
      simp [Core.releasePorts]
    · rw [strandAt_endHelper, if_neg hj, if_neg hj0]

theorem strandRolesRule_holds : strandRolesRule := by
  refine ⟨fun gd h off a1 a2 a3 a4 m d b b' s hg hh i hi => traps_of_helper hg hh h off a1 a2 a3 a4 d m b b' i hi,
    fun gd s hg hc => ?_, fun gd h off a1 a2 a3 a4 s hg hc _ ht hlive => ?_⟩
  · show (if s.me.guardOn gd then conclude s _ _ else _) = _
    rw [if_pos hg, helperOnly_of_control hc]
    rfl
  · refine runW_of_trap hg 12 ?_
    rw [xstartBody_eq hc h a1 a2 a3 a4 (xstartTarget_eq s.me off ▸ ht), hlive, if_pos rfl]

/-- Settles O18. -/
theorem helperStrands : Obligations.HelperStrands := ⟨helperStrandsRule_holds, strandRolesRule_holds⟩

end Sys2Proof.Machine
end

section
/-! PROOFS. Loads and stores at issue (R28, R29, R104 to R108, R148). -/

namespace Sys2Proof.Machine

open Sys2Proof.Claims

/-! ### The effective address and its checks (R106) -/

theorem effAddr_eq (t : Strand) (a b : Fin 32) (sc : Fin 4) (d : Disp) :
    effAddr t a b sc d = t.rg a + (t.rg b <<< sc.val) + d.val := by
  rw [effAddr, ← BitVec.mul_twoPow_eq_shiftLeft]
  congr 3
  apply BitVec.eq_of_toNat_eq
  simp [BitVec.toNat_twoPow]

/-- An address below the fixed region passes the checks of bit 63 and of the 57-bit space. -/
theorem low_address {ea : Word} (h : ea.toNat < fixedBase) : ea.getLsbD 63 = false ∧ ¬ 2 ^ 57 ≤ ea.toNat := by
  have hb : fixedBase < 2 ^ 57 := by decide
  refine ⟨?_, by omega⟩
  rw [BitVec.getLsbD, Nat.testBit_eq_false_of_lt (by omega)]

/-- A leaf that the core's own TLB holds is found there, and nothing changes (R269). -/
theorem leafFor_of_held {s : State} {l : Leaf} {va : Nat}
    (h : s.myCore.utlb.find? (fun x => x.covers s.myCore.ctx va) = some l) :
    s.leafFor s.cur.1 s.myCore.ctx va = .ok (l, s) := by
  unfold State.leafFor
  rw [show (s.core s.cur.1).utlb.find? _ = some l from h]

/-- A page that the strand may use, homed at a hub: the access goes to the physical bytes of memory, and the translation is
as it was (R106, R268, R269). -/
theorem xlate_of_grants {s : State} {l : Leaf} {ea : Word} {a : Acc} (hg : Grants s l ea a.wr) (hone : a.rd = !a.wr)
    (hal : ea.toNat % a.n = 0) : s.xlate a ea = .ok (⟨.mem .hub, l.phys ea.toNat⟩, s) := by
  obtain ⟨hlow, hplain, hheld, huser, haccess, hhub⟩ := hg
  obtain ⟨h63, h57⟩ := low_address hlow
  have hleaf := leafFor_of_held hheld
  have hok : ((l.privOnly && !s.me.priv) || (a.rd && !l.read) || (a.wr && !l.write)) = false := by
    have hpriv : (l.privOnly && !s.me.priv) = false := by rcases huser with h | h <;> simp [h]
    cases hw : a.wr with
    | false =>
      rw [hw] at hone haccess
      simp [hpriv, hone, show l.read = true from haccess]
    | true =>
      rw [hw] at hone haccess
      simp [hpriv, hone, show l.write = true from haccess]
  unfold State.xlate
  simp only [h63, h57, hal, hplain, hleaf, hok, hhub, Nat.not_le.2 hlow, trapIf, decide_false, bne_self_eq_false]
  rfl

/-- No error is armed for a line of this sector, and it is whole: a load may go on (R239, R315). -/
theorem poisonCheck_of_sound {s : State} {ea : Word} {l : Loc} {u : Home} (hl : l.at' = .mem u) (h : Sound s l.addr) :
    s.poisonCheck ea l = .ok s := by
  obtain ⟨hpois, harm⟩ := h
  have hbit : bitAt (s.cluster (cluOf s.cur.1)).inject.toNat 63 = false := (bitAt_eq_testBit ..).trans harm
  have huse : s.lineUse (cluOf s.cur.1) l = none := by
    unfold State.lineUse
    simp [hbit]
  have hclean : s.poisoned.contains (l.addr / 64) = false := by simpa using hpois
  unfold State.poisonCheck
  rw [hl]
  simp only [huse, hclean]
  rfl

theorem touch_of_none {s : State} {ls : List Loc} (h : s.myCore.touched ls = none) : s.touch ls = .ok s := by
  unfold State.touch State.touchAt
  rw [show (s.core s.cur.1).touched ls = none from h]

theorem touchPeer_of_mem (s : State) {l : Loc} {u : Home} (hl : l.at' = .mem u) (n : Nat) : s.touchPeer l n = .ok s := by
  unfold State.touchPeer
  rw [hl]

/-! ### The locations of an access -/

/-- An offset names a byte of the allocation or a stray one (R148). -/
theorem lsLoc_local (k : Core) (off : Nat) : (k.lsLoc off).at' = .ls ∨ (k.lsLoc off).at' = .stray := by
  simp only [Core.lsLoc]
  split
  · exact .inl rfl
  · exact .inr rfl

theorem lsRange_local (k : Core) (off n : Nat) : ∀ l ∈ k.lsRange off n, l.at' = .ls ∨ l.at' = .stray := by
  intro l hl
  obtain ⟨j, -, rfl⟩ := List.mem_map.1 hl
  exact lsLoc_local ..

@[simp] theorem length_lsRange (k : Core) (off n : Nat) : (k.lsRange off n).length = n := by simp [Core.lsRange]

@[simp] theorem length_span (l : Loc) (n : Nat) : (l.span n).length = n := by simp [Loc.span]

/-- An access to local store is made byte by byte exactly where its offset is no multiple of its size (R108). -/
theorem torn_lsRange (k : Core) (off n a : Nat) : torn (k.lsRange off n) a = decide (a ≠ 0) := by
  have hall : (k.lsRange off n).all (fun l => l.at' == .ls || l.at' == .stray) = true := by
    rw [List.all_eq_true]
    intro l hl
    simpa using lsRange_local k off n l hl
  rw [torn, hall, Bool.and_true]
  by_cases h : a = 0 <;> simp [h]

theorem lsRange_not_remote (k : Core) (off n : Nat) : (k.lsRange off n).any Loc.isRemote = false := by
  rw [List.any_eq_false]
  intro l hl
  unfold Loc.isRemote
  rcases lsRange_local k off n l hl with h | h <;> rw [h] <;> nofun

theorem span_not_remote {l : Loc} {u : Home} (hl : l.at' = .mem u) (n : Nat) : (l.span n).any Loc.isRemote = false := by
  rw [List.any_eq_false]
  intro x hx
  obtain ⟨j, -, rfl⟩ := List.mem_map.1 hx
  simp [Loc.isRemote, hl]

/-! ### Loads at issue (R28) -/

section

variable {i : Instr} {s : State} {locs : List Loc} {dst : LoadDst} {o : Order} {sc : Scope} {ea : Word} {len : Nat}

theorem askRemote_eq (h : locs.any Loc.isRemote = false) : s.askRemote locs = s := by
  unfold State.askRemote
  split
  · simp [Loc.isRemote] at h
  · rfl

theorem plainLoad_not_sc (h : plainLoad o) : (o == .sc) = false := by
  rcases h with rfl | rfl | rfl <;> rfl

theorem acquires_of_plainLoad (h : plainLoad o) : acquires o sc = decide (o = .acq ∧ sc ≠ .str) := by
  rcases h with rfl | rfl | rfl <;> cases sc <;> decide

/-- A load that only joins the strand's pending loads. -/
theorem loads_of_issueLoad (hexec : exec i s = .next ((s.issueLoad locs dst o sc ea 0 len).retire len)) (ho : plainLoad o)
    (hhere : locs.any Loc.isRemote = false)
    (hsplit : torn locs (ea.toNat % locs.length) = decide (ea.toNat % locs.length ≠ 0)) :
    Loads i s locs dst o sc ea len := by
  have hmine : Mine s (s.issueLoad locs dst o sc ea 0 len) := by
    unfold State.issueLoad
    rw [askRemote_eq hhere]
    exact Mine.fresh_modMe s _
  have hme : (s.issueLoad locs dst o sc ea 0 len).me = { s.me with
      loads := s.me.loads ++ [{ id := s.nextId, locs := locs, dst := dst, acq := acquires o sc, scope := sc, sc := o == .sc
                                va := ea, lane := 0, pc := s.me.pc, next := after s len, iw := s.me.iw
                                split := torn locs (ea.toNat % locs.length), slot := s.myCore.slot }]
      pend := s.me.pend ++ dst.regs.map (fun r => (s.nextId, r))
      gates := if acquires o sc || locs.any Loc.isRemote then s.me.gates ++ [s.nextId] else s.me.gates } := by
    unfold State.issueLoad
    rw [askRemote_eq hhere]
    exact s.fresh.me_modMe _
  refine ⟨_, hexec, hmine.alone_retire len, ?_, ?_, ?_, ?_, ?_, ?_⟩ <;> rw [State.me_retire, hme]
  · exact sameRegs_of_eq rfl rfl rfl rfl
  · rfl
  · rfl
  · simp only [hsplit, Strand.onward]
  · rfl
  · simp only [hhere, acquires_of_plainLoad ho, Strand.onward, Bool.or_false, decide_eq_true_eq]

end

/-- R106, R148: a load from local store with no absent window touched. -/
theorem loadBody_sp {n : Nat} {shape : AccShape} {dst : LoadDst} {m : Mem} {s : State} {ea : Word} (hea : Mem.ea m s.me = ea)
    (hsp : m.sp = true) (ht : s.myCore.touched (s.myCore.lsRange ea.toNat n) = none) (o : Order) (sc : Scope) (len : Nat) :
    loadBody n shape dst m o sc len s = .ok (s.issueLoad (s.myCore.lsRange ea.toNat n) dst o sc ea 0 len) := by
  unfold loadBody
  simp only [hea, if_pos hsp, touch_of_none ht, bind, Except.bind]

/-- R106: a load from a page homed at a hub, its sector whole. -/
theorem loadBody_mem {n : Nat} {shape : AccShape} {dst : LoadDst} {m : Mem} {s : State} {l : Leaf} {o : Order} {ea : Word}
    (hea : Mem.ea m s.me = ea) (hsp : m.sp = false) (ho : plainLoad o) (hg : Grants s l ea false) (hs : Sound s (l.phys ea.toNat))
    (hal : ea.toNat % n = 0) (sc : Scope) (len : Nat) :
    loadBody n shape dst m o sc len s =
      .ok (s.issueLoad (Loc.span ⟨.mem .hub, l.phys ea.toNat⟩ n) dst o sc ea 0 len) := by
  have hready : s.scReady o = .ok () := by
    unfold State.scReady
    simp [plainLoad_not_sc ho]
  have hx : s.xlate ⟨n, true, false, shape⟩ ea = .ok (⟨.mem .hub, l.phys ea.toNat⟩, s) := xlate_of_grants hg rfl hal
  unfold loadBody
  simp only [hea, hsp, Bool.false_eq_true, if_false, hready, hx, bind, Except.bind,
    poisonCheck_of_sound (l := ⟨.mem .hub, l.phys ea.toNat⟩) rfl hs, touchPeer_of_mem s (l := ⟨.mem .hub, _⟩) rfl,
    plainLoad_not_sc ho]

/-- The sizes of the integer types, in bytes (R63). -/
theorem bytes_pos {ty : Ty} (h : Ty.isInt ty = true) : 0 < ty.bits / 8 := by
  revert h
  cases ty <;> decide

theorem loadsIssueRule_holds : loadsIssueRule := by
  intro gd d c m ty o sc s hgd hty ea off
  have hea : Mem.ea m s.me = ea := effAddr_eq ..
  refine ⟨fun hsp ho ht => ?_, fun hsp ho ht => ?_, fun l hsp ho hg hs => ⟨fun hal => ?_, fun hal => ?_⟩⟩
  · refine loads_of_issueLoad ?_ ho (lsRange_not_remote ..) (torn_lsRange ..)
    show runW gd m.disp.len s (loadBody (ty.bits / 8) .plain (.g d ty) m o sc m.disp.len) = _
    rw [runW_on hgd, loadBody_sp hea hsp ht, conclude_ok]
    rfl
  · refine loads_of_issueLoad ?_ ho (lsRange_not_remote ..) (torn_lsRange ..)
    show runW gd m.disp.len s (loadBody 16 .pair (.pair d c) m o sc m.disp.len) = _
    rw [runW_on hgd, loadBody_sp hea hsp ht, conclude_ok]
    rfl
  · refine loads_of_issueLoad ?_ ho (span_not_remote (l := ⟨.mem .hub, l.phys ea.toNat⟩) rfl _) ?_
    · show runW gd m.disp.len s (loadBody (ty.bits / 8) .plain (.g d ty) m o sc m.disp.len) = _
      rw [runW_on hgd, loadBody_mem hea hsp ho hg hs hal, conclude_ok]
      rfl
    · simp [torn, hal]
  · refine loads_of_issueLoad ?_ ho (span_not_remote (l := ⟨.mem .hub, l.phys ea.toNat⟩) rfl _) ?_
    · show runW gd m.disp.len s (loadBody 16 .pair (.pair d c) m o sc m.disp.len) = _
      rw [runW_on hgd, loadBody_mem hea hsp ho hg hs hal, conclude_ok]
      rfl
    · simp [torn, hal]

/-! ### Stores at issue (R29) -/

/-- With an entry free the store may go on; with all 16 occupied it stalls. -/
theorem bufRoom_one (s : State) : s.bufRoom 1 = if s.me.bufCount < 16 then .ok () else stall s := by
  unfold State.bufRoom
  simp only [Nat.succ_le_iff]

/-- A store as it stands in the buffer. -/
def storeEntry (s : State) (bytes : List (Loc × Byte)) (o : Order) (sc : Scope) (ea : Word) : BufEntry :=
  { id := s.nextId, op := .store, bytes := bytes, rel := releases o sc, scope := sc, sc := o == .sc, va := ea, pc := s.me.pc
    iw := s.me.iw, vas := [ea] }

/-- Byte `x.2` of a store that is made byte by byte, the one at place `x.1`, as it stands in the buffer (R108). -/
def tornEntry (one : BufEntry) (x : Nat × Loc × Byte) : BufEntry :=
  { one with id := one.id + x.1, bytes := [x.2], grp := one.id, vas := if x.1 = 0 then [one.va] else [] }

section

variable (o : Order) (sc : Scope) (ea : Word)

theorem pushTorn_cons (s : State) (grp : Nat) (b : Loc × Byte) (bs : List (Loc × Byte)) :
    s.pushTorn grp (b :: bs) o sc ea = (s.pushBuf
      { id := 0, op := .store, bytes := [b], rel := releases o sc, scope := sc, sc := o == .sc, va := ea, grp := grp
        vas := if s.nextId = grp then [ea] else [] }).pushTorn grp bs o sc ea := rfl

theorem pushTorn_mine {r s : State} (grp : Nat) (bytes : List (Loc × Byte)) (h : Mine r s) :
    Mine r (s.pushTorn grp bytes o sc ea) := by
  induction bytes generalizing s with
  | nil => exact h
  | cons b bs ih => exact ih (h.trans (pushBuf_mine _ _))

/-- The bytes of a torn store join the buffer in their order, from place `k` of the access on. -/
theorem me_pushTorn (s r : State) (bytes : List (Loc × Byte)) (k : Nat) (hk : s.nextId = r.nextId + k)
    (hpc : s.me.pc = r.me.pc) (hiw : s.me.iw = r.me.iw) (all : List (Loc × Byte)) :
    (s.pushTorn r.nextId bytes o sc ea).me = { s.me with
      buf := s.me.buf ++ ((List.range' k bytes.length).zip bytes).map (tornEntry (storeEntry r all o sc ea)) } := by
  induction bytes generalizing s k with
  | nil => simp [State.pushTorn]
  | cons b bs ih =>
    rw [pushTorn_cons, ih _ (k + 1) (by rw [State.pushBuf]; show s.nextId + 1 = _; omega) (by rw [me_pushBuf, ← hpc])
      (by rw [me_pushBuf, ← hiw]), me_pushBuf]
    simp [List.range'_succ, tornEntry, storeEntry, hk, hpc, hiw]

end

/-- A store that only joins the buffer, whole or byte by byte. -/
theorem stores_of_push {i : Instr} {s t : State} {bytes : List (Loc × Byte)} {o : Order} {sc : Scope} {ea : Word} {len : Nat}
    (hne : bytes ≠ []) (ht : t = if ea.toNat % bytes.length = 0 then s.pushEntry .store bytes o sc ea 0
      else s.pushTorn s.nextId bytes o sc ea) (hexec : exec i s = .next (t.retire len)) : Stores i s bytes o sc ea len := by
  have hmine : Mine s t := by
    rw [ht]
    obtain ⟨b, bs, rfl⟩ := List.exists_cons_of_ne_nil hne
    split
    · exact pushBuf_mine _ _
    · rw [pushTorn_cons]
      exact pushTorn_mine o sc ea _ _ (pushBuf_mine _ _)
  have hme : t.me = { s.me with buf := s.me.buf ++ (if ea.toNat % bytes.length = 0 then [storeEntry s bytes o sc ea]
      else ((List.range bytes.length).zip bytes).map (tornEntry (storeEntry s bytes o sc ea))) } := by
    rw [ht]
    split
    · rw [State.pushEntry, me_pushBuf]
      simp [storeEntry, hne]
    · rw [me_pushTorn o sc ea s s bytes 0 rfl rfl rfl bytes, List.range_eq_range']
  refine ⟨_, hexec, hmine.alone_retire len, ?_, ?_, ?_, ?_⟩ <;> rw [State.me_retire, hme]
  · exact sameRegs_of_eq rfl rfl rfl rfl
  · rfl
  · rfl
  · rfl

/-- R22, R29: with the entry for it a store enters the buffer, else it stalls at issue. -/
theorem storeEnters_of_room {i : Instr} {s t : State} {bytes : List (Loc × Byte)} {o : Order} {sc : Scope} {ea : Word} {len : Nat}
    (hne : bytes ≠ []) (ht : t = if ea.toNat % bytes.length = 0 then s.pushEntry .store bytes o sc ea 0
      else s.pushTorn s.nextId bytes o sc ea)
    (hexec : exec i s = conclude s (do s.bufRoom 1; .ok t) (fun t => t.retire len)) : StoreEnters i s bytes o sc ea len := by
  rw [bufRoom_one] at hexec
  refine ⟨fun h => stores_of_push hne ht ?_, fun h => ⟨s.waitOn 0, ?_, rfl, ?_, ?_, ?_, ?_, rfl, fun e he => ?_⟩⟩
  · rw [hexec, if_pos h]
    rfl
  · rw [hexec, if_neg (by omega)]
    rfl
  · exact State.sameRegs_waitOn ..
  · rw [State.me_waitOn]
    rfl
  · rw [State.me_waitOn]
    rfl
  · rw [State.me_waitOn]
    rfl
  · exact State.core_waitOn_ne s 0 he

/-- R106, R148: a store to local store with no absent window touched. -/
theorem storeBody_sp {shape : AccShape} {bs : List Byte} {m : Mem} {s : State} {ea : Word} (hea : Mem.ea m s.me = ea)
    (hsp : m.sp = true) (ht : s.myCore.touched (s.myCore.lsRange ea.toNat bs.length) = none) (o : Order) (sc : Scope) :
    storeBody shape bs m o sc s = (do
      s.bufRoom 1
      .ok (if torn (s.myCore.lsRange ea.toNat bs.length) (ea.toNat % bs.length) then
        s.pushTorn s.nextId ((s.myCore.lsRange ea.toNat bs.length).zip bs) o sc ea
        else s.pushEntry .store ((s.myCore.lsRange ea.toNat bs.length).zip bs) o sc ea 0)) := by
  unfold storeBody
  simp only [hea, if_pos hsp, touch_of_none ht, bind, Except.bind]

/-- R106: a store to a page homed at a hub. -/
theorem storeBody_mem {shape : AccShape} {bs : List Byte} {m : Mem} {s : State} {l : Leaf} {o : Order} {ea : Word}
    (hea : Mem.ea m s.me = ea) (hsp : m.sp = false) (ho : o ≠ .sc) (hg : Grants s l ea true) (hd : s.me.dropped = none)
    (hal : ea.toNat % bs.length = 0) (sc : Scope) :
    storeBody shape bs m o sc s = (do
      s.bufRoom 1
      .ok (s.pushEntry .store ((Loc.span ⟨.mem .hub, l.phys ea.toNat⟩ bs.length).zip bs) o sc ea 0)) := by
  have hx : s.xlate ⟨bs.length, false, true, shape⟩ ea = .ok (⟨.mem .hub, l.phys ea.toNat⟩, s) := xlate_of_grants hg rfl hal
  unfold storeBody
  simp only [hea, hsp, Bool.false_eq_true, if_false, dropCheck_of_none hd, hx, bind, Except.bind,
    touchPeer_of_mem s (l := ⟨.mem .hub, _⟩) rfl, beq_iff_eq, ho]

section

variable {i : Instr} {s : State} {shape : AccShape} {bs : List Byte} {m : Mem} {o : Order} {sc : Scope} {ea : Word}

/-- R29, R108: a store to local store enters the buffer, byte by byte where its offset is no multiple of its size. -/
theorem storeEnters_sp (hexec : exec i s = conclude s (storeBody shape bs m o sc s) (fun t => t.retire m.disp.len))
    (hea : Mem.ea m s.me = ea) (hsp : m.sp = true) (hbs : bs ≠ [])
    (ht : s.myCore.touched (s.myCore.lsRange ea.toNat bs.length) = none) :
    StoreEnters i s ((s.myCore.lsRange ea.toNat bs.length).zip bs) o sc ea m.disp.len := by
  have hlen : ((s.myCore.lsRange ea.toNat bs.length).zip bs).length = bs.length := by simp
  refine storeEnters_of_room (fun h => hbs (List.eq_nil_of_length_eq_zero (by rw [← hlen, h]; rfl))) rfl ?_
  rw [hexec, storeBody_sp hea hsp ht, torn_lsRange, hlen]
  simp only [ne_eq, decide_not, Bool.not_eq_true', decide_eq_false_iff_not, ite_not]

/-- R29: a store to memory enters the buffer. -/
theorem storeEnters_mem (hexec : exec i s = conclude s (storeBody shape bs m o sc s) (fun t => t.retire m.disp.len))
    (hea : Mem.ea m s.me = ea) (hsp : m.sp = false) (hbs : bs ≠ []) (ho : o ≠ .sc) {l : Leaf} (hg : Grants s l ea true)
    (hd : s.me.dropped = none) (hal : ea.toNat % bs.length = 0) :
    StoreEnters i s ((Loc.span ⟨.mem .hub, l.phys ea.toNat⟩ bs.length).zip bs) o sc ea m.disp.len := by
  have hlen : ((Loc.span ⟨.mem .hub, l.phys ea.toNat⟩ bs.length).zip bs).length = bs.length := by simp
  refine storeEnters_of_room (fun h => hbs (List.eq_nil_of_length_eq_zero (by rw [← hlen, h]; rfl))) rfl ?_
  rw [hexec, storeBody_mem hea hsp ho hg hd hal, hlen, if_pos hal]

end

@[simp] theorem length_leBytes (n x : Nat) : (leBytes n x).length = n := by
  induction n generalizing x with
  | zero => rfl
  | succ n ih => simp [leBytes, ih]

theorem storesIssueRule_holds : storesIssueRule := by
  intro gd d c m ty o sc s hgd hty ho ea off one two
  have hea : Mem.ea m s.me = ea := effAddr_eq ..
  have hone : one.length = ty.bits / 8 := length_leBytes ..
  have htwo : two.length = 16 := by simp [two]
  have hne1 : one ≠ [] := List.ne_nil_of_length_pos (hone ▸ bytes_pos hty)
  have hne2 : two ≠ [] := List.ne_nil_of_length_pos (by omega)
  have hexec1 : exec (.st gd d m ty o sc) s =
      conclude s (storeBody .plain one m o sc s) (fun t => t.retire m.disp.len) :=
    runW_on hgd _ fun s => storeBody .plain (leBytes (ty.bits / 8) (s.me.rg d).toNat) m o sc s
  have hexec2 : exec (.stp gd d c m o sc) s =
      conclude s (storeBody .pair two m o sc s) (fun t => t.retire m.disp.len) :=
    runW_on hgd _ fun s => storeBody .pair (pairBytes s.me d c) m o sc s
  rw [← hone, ← htwo]
  exact ⟨fun hsp ht => storeEnters_sp hexec1 hea hsp hne1 ht, fun hsp ht => storeEnters_sp hexec2 hea hsp hne2 ht,
    fun l hsp hg hd => ⟨storeEnters_mem hexec1 hea hsp hne1 ho hg hd, storeEnters_mem hexec2 hea hsp hne2 ho hg hd⟩⟩

/-- Settles O17. -/
theorem accessesIssue : Obligations.AccessesIssue := ⟨loadsIssueRule_holds, storesIssueRule_holds⟩

end Sys2Proof.Machine
end

section
/-! PROOFS. Taking a trap: the freeze, the packet and the chain (R24 to R26, R226 to R229, R234, R235). -/

namespace Sys2Proof.Machine

open Sys2Proof.Claims

/-! ### The core freezes (R24, R25) -/

/-- What a trap of strand `h` makes of its core: `blk` are the codes that the strands keep. -/
def Core.caught (k : Core) (h : Fin 11) (blk : Fin 11 → BitVec 4) : Core :=
  let kept : Vector Strand 11 := (Vector.ofFn fun j => { k.strands[j] with blk := blk j }).map Strand.stopRep
  { k with frozen := true, trapStrand := BitVec.ofNat 4 h.val, repOwner := none, strands := kept.set h kept[h].endTouch }

/-- The trapping strand is ready to issue its instruction again, its registers as they were. -/
theorem caught_self (k : Core) (h : Fin 11) (blk : Fin 11 → BitVec 4) : ∃ w, (k.caught h blk).strands[h] =
    { k.strands[h] with blk := 0, rei := false, rep := none, wait := w } := by
  obtain ⟨w, hw⟩ : ∃ w, Strand.endTouch { k.strands[h] with blk := blk h, rep := none } =
      { k.strands[h] with blk := 0, rei := false, rep := none, wait := w } := by
    unfold Strand.endTouch
    split <;> exact ⟨_, rfl⟩
  exact ⟨w, by simpa [Core.caught, Strand.stopRep] using hw⟩

/-- No strand of the core loses a register, its PC or its store buffer. -/
theorem caught_keeps (k : Core) (h j : Fin 11) (blk : Fin 11 → BitVec 4) : SameRegs k.strands[j] (k.caught h blk).strands[j] ∧
    (k.caught h blk).strands[j].pc = k.strands[j].pc ∧ (k.caught h blk).strands[j].buf = k.strands[j].buf := by
  by_cases hj : j = h
  · subst hj
    obtain ⟨w, hw⟩ := caught_self k j blk
    rw [hw]
    exact ⟨sameRegs_of_eq rfl rfl rfl rfl, rfl, rfl⟩
  · have hw : (k.caught h blk).strands[j] = { k.strands[j] with blk := blk j, rep := none } := by
      rw [Core.caught, set_getElem_ne _ hj]
      simp [Strand.stopRep]
    rw [hw]
    exact ⟨sameRegs_of_eq rfl rfl rfl rfl, rfl, rfl⟩

theorem cancelOthers_of_no_loads {s : State} {c : Nat} (hl : ∀ h : Fin 11, (s.strandAt c h).loads = []) (h : Fin 11) :
    s.cancelOthers c h = s := by
  unfold State.cancelOthers
  have hall : (s.core c).strands.toList.all (fun t => t.loads.isEmpty) = true := by
    rw [List.all_eq_true]
    intro t ht
    obtain ⟨j, hj, rfl⟩ := List.mem_iff_getElem.1 ht
    have := hl ⟨j, by simpa using hj⟩
    simpa [State.strandAt] using this
  rw [if_pos hall]

/-- With no load in flight and no pair, a trap freezes its core and is reported. -/
theorem trapAt_eq {s : State} {c : Nat} (hp : s.pairs = []) (hl : ∀ h : Fin 11, (s.strandAt c h).loads = []) (h : Fin 11)
    (k : Trap) : s.trapAt c h k = (s.modCore c (fun x => x.caught h (s.blkOf c))).sendReport c h 0 k := by
  have hfreeze : (s.freeze c h).modStrandAt c h Strand.endTouch = s.modCore c (fun x => x.caught h (s.blkOf c)) := by
    unfold State.freeze
    rw [cancelOthers_of_no_loads hl, State.holdCodes, State.modCore_modCore, State.modStrandAt, State.modCore_modCore]
    rfl
  have halone (x : State) (hx : x.pairs = []) : x.freezePartner c = x := by
    unfold State.freezePartner State.partner
    rw [hx]
    rfl
  unfold State.trapAt
  dsimp only
  rw [hfreeze, halone (s.modCore c _) hp]

/-! ### The packet is sent (R226 to R228) -/

/-- Packets held wait for the same receivers where the cores hold the same and the roles are the same. -/
theorem heldIn_congr {s t : State} {u : Nat} (hc : ∀ e, (t.core e).held = (s.core e).held)
    (hr : ∀ d, (t.cluster u).receiver d = (s.cluster u).receiver d) : t.heldIn u = s.heldIn u := by
  unfold State.heldIn
  simp only [hc, hr]

/-- The roles of a cluster decide who receives a packet. -/
theorem receiver_congr {k x : Cluster} (hs : k.sup = x.sup) (hh : k.hchain = x.hchain) (d : Nat) :
    k.receiver d = x.receiver d := by
  unfold Cluster.receiver Cluster.entry
  rw [hs, hh]

/-- A report is made: the cluster counts it, and the core is marked. -/
def State.reporting (s : State) (c : Nat) : State :=
  (s.modCluster (c / 36) (fun k => { k with seq := k.seq + 1 })).modCore c (fun k => { k with packed := true })

theorem cluster_reporting (s : State) (c : Nat) :
    (s.reporting c).cluster (c / 36) = { s.cluster (c / 36) with seq := (s.cluster (c / 36)).seq + 1 } :=
  s.cluster_modCluster_same (c / 36) fun k => { k with seq := k.seq + 1 }

theorem core_reporting_same (s : State) (c : Nat) : (s.reporting c).core c = { s.core c with packed := true } :=
  State.core_modCore_same ..

theorem core_reporting_ne (s : State) {c e : Nat} (he : e ≠ c) : (s.reporting c).core e = s.core e :=
  State.core_modCore_ne _ he _

theorem held_reporting (s : State) (c e : Nat) : ((s.reporting c).core e).held = (s.core e).held := by
  by_cases he : e = c
  · subst he
    rw [core_reporting_same]
  · rw [core_reporting_ne s he]

theorem receiver_reporting (s : State) (c d : Nat) :
    ((s.reporting c).cluster (c / 36)).receiver d = (s.cluster (c / 36)).receiver d :=
  receiver_congr (by rw [cluster_reporting]) (by rw [cluster_reporting]) d

theorem heldIn_reporting (s : State) (c : Nat) : (s.reporting c).heldIn (c / 36) = s.heldIn (c / 36) :=
  heldIn_congr (held_reporting s c) (receiver_reporting s c)

/-- The message that a packet's receiver finds in its queue (R227). -/
def packetMsg (pk : Packet) : Msg := ⟨2, false, 0, 0xFFFF, (pk.take 4).flatMap (fun w => leBytes 8 w.toNat)⟩

/-- A packet stands in the next slot of its cluster's queue. -/
def State.slotted (s : State) (u : Nat) (pk : Packet) : State :=
  s.modCluster u (fun k => { k with
    slots := k.slots.set ((k.pqHead + k.pqCount) % 64) pk (Nat.mod_lt _ (by omega)), pqCount := k.pqCount + 1 })

/-- The slot that a packet has taken. -/
theorem toList_set_same (v : Vector Packet 64) (n : Nat) (hn : n < 64) (pk : Packet) : (v.set n pk hn).toList[n]? = some pk := by
  simp [hn]

theorem cluster_slotted (s : State) (u : Nat) (pk : Packet) : (s.slotted u pk).cluster u = { s.cluster u with
    slots := (s.cluster u).slots.set (((s.cluster u).pqHead + (s.cluster u).pqCount) % 64) pk (Nat.mod_lt _ (by omega))
    pqCount := (s.cluster u).pqCount + 1 } := State.cluster_modCluster_same ..

/-- The receiver's queue takes the message, or the cluster notes that it is lost. -/
theorem enqueuePacket_cases (s : State) (u : Nat) (pk : Packet) (pos : Nat) :
    (∃ k, (s.core (36 * u + pos)).place (packetMsg pk) = some k ∧
      s.enqueuePacket u pk pos = (s.slotted u pk).setCore (36 * u + pos) k) ∨
    ((s.core (36 * u + pos)).place (packetMsg pk) = none ∧
      s.enqueuePacket u pk pos = (s.slotted u pk).modCluster u (fun k => { k with mdrop := true })) := by
  unfold State.enqueuePacket
  dsimp only
  split
  next k h => exact .inl ⟨k, h, rfl⟩
  next h => exact .inr ⟨h, rfl⟩

/-- What a packet leaves of its cluster. -/
theorem cluster_enqueuePacket (s : State) (u : Nat) (pk : Packet) (pos : Nat) :
    ∃ drop, (s.enqueuePacket u pk pos).cluster u = { (s.slotted u pk).cluster u with mdrop := drop } := by
  obtain ⟨k, -, h⟩ | ⟨-, h⟩ := enqueuePacket_cases s u pk pos <;> rw [h]
  · exact ⟨((s.slotted u pk).cluster u).mdrop, rfl⟩
  · exact ⟨true, State.cluster_modCluster_same ..⟩

/-- A packet changes no core but its receiver. -/
theorem core_enqueuePacket_ne (s : State) {u pos e : Nat} (he : e ≠ 36 * u + pos) (pk : Packet) :
    (s.enqueuePacket u pk pos).core e = s.core e := by
  obtain ⟨k, -, h⟩ | ⟨-, h⟩ := enqueuePacket_cases s u pk pos <;> rw [h]
  · exact State.core_setCore_ne _ he _
  · rfl

/-- Where there is room the first half of the packet joins the receiver's queue. -/
theorem core_enqueuePacket_room (s : State) {u pos : Nat} (hr : (s.core (36 * u + pos)).rq.length < 32)
    (ho : (s.core (36 * u + pos)).ovf = []) (pk : Packet) : (s.enqueuePacket u pk pos).core (36 * u + pos) =
      { s.core (36 * u + pos) with rq := (s.core (36 * u + pos)).rq ++ [packetMsg pk] } := by
  have hplace : (s.core (36 * u + pos)).place (packetMsg pk) =
      some { s.core (36 * u + pos) with rq := (s.core (36 * u + pos)).rq ++ [packetMsg pk] } := by
    unfold Core.place
    simp [hr, ho]
  obtain ⟨k, hk, h⟩ | ⟨hk, -⟩ := enqueuePacket_cases s u pk pos
  · rw [h, State.core_setCore_same]
    exact Option.some.inj (hk.symm.trans hplace)
  · exact absurd (hk.symm.trans hplace) nofun

theorem mem_enqueuePacket (s : State) (u : Nat) (pk : Packet) (pos : Nat) : (s.enqueuePacket u pk pos).mem = s.mem := by
  obtain ⟨k, -, h⟩ | ⟨-, h⟩ := enqueuePacket_cases s u pk pos <;> rw [h] <;> rfl

theorem cur_enqueuePacket (s : State) (u : Nat) (pk : Packet) (pos : Nat) : (s.enqueuePacket u pk pos).cur = s.cur := by
  obtain ⟨k, -, h⟩ | ⟨-, h⟩ := enqueuePacket_cases s u pk pos <;> rw [h] <;> rfl

/-- A packet with a receiver takes a slot at once where the queue has room and no earlier packet waits; else its core holds
it (R226). -/
theorem send_cases {s : State} {c depth pos : Nat} (hr : (s.cluster (c / 36)).receiver depth = some pos) (pk : Packet) :
    s.send c depth pk = if (s.cluster (c / 36)).pqCount < 64 && (s.heldIn (c / 36)).isEmpty then
      s.enqueuePacket (c / 36) pk pos else s.modCore c (fun k => { k with held := k.held ++ [pk] }) := by
  unfold State.send
  dsimp only
  rw [show (s.cluster (cluOf c)).receiver depth = some pos from hr]
  rfl

theorem receiver_send {s : State} {c depth pos : Nat} (hr : (s.cluster (c / 36)).receiver depth = some pos) (pk : Packet)
    (d : Nat) : ((s.send c depth pk).cluster (c / 36)).receiver d = (s.cluster (c / 36)).receiver d := by
  rw [send_cases hr]
  split
  · obtain ⟨drop, h⟩ := cluster_enqueuePacket s (c / 36) pk pos
    rw [cluster_slotted] at h
    exact receiver_congr (by rw [h]) (by rw [h]) d
  · rfl

section

variable {s : State} {c depth : Nat} (hd : (s.cluster (c / 36)).depthOf (c % 36) = depth) (h : Fin 11) (kind : Nat) (k : Trap)
  (pc : Pc) (iw : Word)

include hd

/-- R226, R235: the packet of a report is sent, and the cluster halts where nobody receives it. -/
theorem sendReportAt_eq :
    let t := (s.reporting c).send c depth (s.packet c h (if depth = 0 then kind else 2) depth k pc iw)
    s.sendReportAt c h kind k pc iw =
      if ((t.cluster (c / 36)).receiver depth).isNone then t.haltCluster (c / 36) depth else t := by
  subst hd
  intro t
  unfold State.sendReportAt
  dsimp only
  split
  next hnone => exact (if_pos (congrArg Option.isNone hnone)).symm
  next p hsome => exact (if_neg (ne_true_of_eq_false (congrArg Option.isNone hsome))).symm

theorem sendReportAt_received {pos : Nat} (hr : (s.cluster (c / 36)).receiver depth = some pos) :
    s.sendReportAt c h kind k pc iw =
      (s.reporting c).send c depth (s.packet c h (if depth = 0 then kind else 2) depth k pc iw) := by
  have hr' : ((s.reporting c).cluster (c / 36)).receiver depth = some pos := (receiver_reporting ..).trans hr
  rw [sendReportAt_eq hd, receiver_send hr', hr']
  rfl

theorem sendReportAt_halts (hr : (s.cluster (c / 36)).receiver depth = none) : s.sendReportAt c h kind k pc iw =
    ((s.reporting c).modCore c (fun x => { x with
      held := x.held ++ [s.packet c h (if depth = 0 then kind else 2) depth k pc iw] })).haltCluster (c / 36) depth := by
  have hr' : ((s.reporting c).cluster (c / 36)).receiver depth = none := (receiver_reporting ..).trans hr
  have hsend (pk : Packet) : (s.reporting c).send c depth pk =
      (s.reporting c).modCore c (fun x => { x with held := x.held ++ [pk] }) := by
    unfold State.send
    dsimp only
    rw [show (State.cluster _ (cluOf c)).receiver _ = none from hr']
  rw [sendReportAt_eq hd, hsend]
  exact if_pos (congrArg Option.isNone hr')

end

/-- The issuing strand's core as it traps. -/
def State.caught (s : State) : State := s.modCore s.cur.1 (fun x => x.caught s.cur.2 (s.blkOf s.cur.1))

theorem core_caught (s : State) : s.caught.core s.cur.1 = s.myCore.caught s.cur.2 (s.blkOf s.cur.1) :=
  State.core_modCore_same ..

theorem core_caught_ne (s : State) {e : Nat} (he : e ≠ s.cur.1) : s.caught.core e = s.core e := State.core_modCore_ne s he _

theorem me_caught (s : State) : ∃ w, s.caught.me = { s.me with blk := 0, rei := false, rep := none, wait := w } := by
  obtain ⟨w, hw⟩ := caught_self s.myCore s.cur.2 (s.blkOf s.cur.1)
  exact ⟨w, by rw [← core_caught] at hw; exact hw⟩

/-- The packet of a trap has the dwords of R228. -/
theorem packet_caught (s : State) (kind depth : Nat) (k : Trap) :
    s.caught.packet s.cur.1 s.cur.2 kind depth k s.caught.me.pc s.caught.me.iw =
      packetOf s kind depth k (Config.clock s.cycle) := by
  obtain ⟨w, hw⟩ := me_caught s
  have hblk : s.caught.blkOf s.cur.1 s.cur.2 = 0 := by
    unfold State.blkOf
    dsimp only
    rw [if_pos (by rw [core_caught]; rfl)]
    exact congrArg Strand.blk hw
  have hlnum : (s.caught.core s.cur.1).lnum = s.myCore.lnum := by rw [core_caught]; rfl
  unfold State.packet packetOf
  dsimp only
  rw [hblk, hlnum, show (s.caught.core s.cur.1).strands[s.cur.2] = _ from hw, hw]
  rfl

/-- The instruction of the step has not completed. -/
def State.unretired (s : State) : State := { s with retired := false }

@[simp] theorem core_unretired (s : State) (e : Nat) : s.unretired.core e = s.core e := rfl
@[simp] theorem cluster_unretired (s : State) (u : Nat) : s.unretired.cluster u = s.cluster u := rfl
@[simp] theorem mem_unretired (s : State) : s.unretired.mem = s.mem := rfl
@[simp] theorem cur_unretired (s : State) : s.unretired.cur = s.cur := rfl
@[simp] theorem retired_unretired (s : State) : s.unretired.retired = false := rfl

/-- With no load in flight, no pair and the earlier instructions complete, a trap is taken: its core freezes and reports. -/
theorem takeTrap_eq {s : State} (hp : s.pairs = []) (hl : ∀ h : Fin 11, (s.strandAt s.cur.1 h).loads = [])
    (he : s.earlierDone = true) (k : Trap) : s.takeTrap k =
      (s.caught.sendReportAt s.cur.1 s.cur.2 0 k s.caught.me.pc s.caught.me.iw).unretired := by
  unfold State.takeTrap
  rw [if_pos he, trapAt_eq hp hl]
  rfl

/-- The state in which the issuing strand's trap is reported. -/
def State.reported (s : State) : State := s.caught.reporting s.cur.1

theorem core_reported (s : State) :
    s.reported.core s.cur.1 = { s.myCore.caught s.cur.2 (s.blkOf s.cur.1) with packed := true } := by
  rw [State.reported, core_reporting_same, core_caught]

theorem core_reported_ne (s : State) {e : Nat} (he : e ≠ s.cur.1) : s.reported.core e = s.core e := by
  rw [State.reported, core_reporting_ne _ he, core_caught_ne s he]

/-- The report touches no message queue. -/
theorem queue_reported (s : State) (e : Nat) :
    (s.reported.core e).rq = (s.core e).rq ∧ (s.reported.core e).ovf = (s.core e).ovf := by
  by_cases he : e = s.cur.1
  · subst he
    rw [core_reported]
    exact ⟨rfl, rfl⟩
  · rw [core_reported_ne s he]
    exact ⟨rfl, rfl⟩

theorem cluster_reported (s : State) : s.reported.cluster (s.cur.1 / 36) =
    { s.cluster (s.cur.1 / 36) with seq := (s.cluster (s.cur.1 / 36)).seq + 1 } := cluster_reporting s.caught s.cur.1

theorem held_caught (s : State) (e : Nat) : (s.caught.core e).held = (s.core e).held := by
  by_cases he : e = s.cur.1
  · subst he
    rw [core_caught]
    rfl
  · rw [core_caught_ne s he]

theorem heldIn_reported (s : State) : s.reported.heldIn (s.cur.1 / 36) = s.heldIn (s.cur.1 / 36) :=
  (heldIn_reporting s.caught s.cur.1).trans (heldIn_congr (held_caught s) fun _ => rfl)

section

variable {s : State} {depth : Nat} (hp : s.pairs = []) (hl : ∀ h : Fin 11, (s.strandAt s.cur.1 h).loads = [])
  (he : s.earlierDone = true) (hd : (s.cluster (s.cur.1 / 36)).depthOf (s.cur.1 % 36) = depth) (k : Trap)

include hp hl he hd

/-- R226: a trap with a receiver sends it the packet. -/
theorem takeTrap_sends {pos : Nat} (hr : (s.cluster (s.cur.1 / 36)).receiver depth = some pos) : s.takeTrap k =
    (s.reported.send s.cur.1 depth (packetOf s (if depth = 0 then 0 else 2) depth k (Config.clock s.cycle))).unretired := by
  rw [takeTrap_eq hp hl he, sendReportAt_received (s := s.caught) hd _ _ _ _ _ hr, packet_caught]
  rfl

/-- R226, R227: with a slot free and no packet held before it, it is admitted at once. -/
theorem takeTrap_admitted {pos : Nat} (hr : (s.cluster (s.cur.1 / 36)).receiver depth = some pos)
    (hheld : s.heldIn (s.cur.1 / 36) = []) (hcount : (s.cluster (s.cur.1 / 36)).pqCount < 64) : s.takeTrap k =
    (s.reported.enqueuePacket (s.cur.1 / 36)
      (packetOf s (if depth = 0 then 0 else 2) depth k (Config.clock s.cycle)) pos).unretired := by
  have hr' : (s.reported.cluster (s.cur.1 / 36)).receiver depth = some pos :=
    (receiver_congr (by rw [cluster_reported]) (by rw [cluster_reported]) _).trans hr
  rw [takeTrap_sends hp hl he hd k hr, send_cases hr', heldIn_reported, hheld, cluster_reported]
  simp [hcount]

/-- R235: a trap without a receiver halts the cluster. -/
theorem takeTrap_halts (hr : (s.cluster (s.cur.1 / 36)).receiver depth = none) : s.takeTrap k =
    ((s.reported.modCore s.cur.1 (fun x => { x with
      held := x.held ++ [packetOf s (if depth = 0 then 0 else 2) depth k (Config.clock s.cycle)] })).haltCluster
        (s.cur.1 / 36) depth).unretired := by
  rw [takeTrap_eq hp hl he, sendReportAt_halts (s := s.caught) hd _ _ _ _ _ hr, packet_caught]
  rfl

end

theorem depthOf_worker {x : Cluster} {p : Nat} (hs : p ≠ x.sup) (hc : x.chainIndex p = none) : x.depthOf p = 0 := by
  unfold Cluster.depthOf
  rw [if_neg hs, hc]

/-- What an admitted report leaves of its cluster's queue of packets. -/
theorem cluster_admitted (s : State) (pk : Packet) (pos : Nat) :
    let x := s.cluster (s.cur.1 / 36)
    let k := (s.reported.enqueuePacket (s.cur.1 / 36) pk pos).cluster (s.cur.1 / 36)
    k.pqCount = x.pqCount + 1 ∧ k.seq = x.seq + 1 ∧ k.pqHead = x.pqHead ∧ k.halt = x.halt ∧
      k.slots.toList[(x.pqHead + x.pqCount) % 64]? = some pk := by
  intro x k
  obtain ⟨drop, hk⟩ := cluster_enqueuePacket s.reported (s.cur.1 / 36) pk pos
  rw [cluster_slotted, cluster_reported] at hk
  replace hk : k = _ := hk
  rw [hk]
  exact ⟨rfl, rfl, rfl, rfl, toList_set_same _ _ (Nat.mod_lt _ (by omega)) _⟩

/-- The message of an admitted report joins its receiver's queue. -/
theorem rq_admitted {s : State} {pos : Nat} (hr : (s.core (36 * (s.cur.1 / 36) + pos)).rq.length < 32)
    (ho : (s.core (36 * (s.cur.1 / 36) + pos)).ovf = []) (pk : Packet) :
    ((s.reported.enqueuePacket (s.cur.1 / 36) pk pos).core (36 * (s.cur.1 / 36) + pos)).rq =
      (s.core (36 * (s.cur.1 / 36) + pos)).rq ++ [packetMsg pk] := by
  obtain ⟨hrq, hov⟩ := queue_reported s (36 * (s.cur.1 / 36) + pos)
  rw [core_enqueuePacket_room _ (by rwa [hrq]) (by rwa [hov]), hrq]

/-- An admitted report leaves its core frozen. -/
theorem frozen_admitted (s : State) (pk : Packet) {pos : Nat} (hr : (s.core (36 * (s.cur.1 / 36) + pos)).rq.length < 32)
    (ho : (s.core (36 * (s.cur.1 / 36) + pos)).ovf = []) :
    ((s.reported.enqueuePacket (s.cur.1 / 36) pk pos).core s.cur.1).frozen = true := by
  have hfrozen : (s.reported.core s.cur.1).frozen = true := congrArg Core.frozen (core_reported s)
  by_cases hself : s.cur.1 = 36 * (s.cur.1 / 36) + pos
  · obtain ⟨hrq, hov⟩ := queue_reported s (36 * (s.cur.1 / 36) + pos)
    have h := core_enqueuePacket_room s.reported (u := s.cur.1 / 36) (pos := pos) (by rwa [hrq]) (by rwa [hov]) pk
    rw [← hself] at h
    rw [h]
    exact hfrozen
  · rwa [core_enqueuePacket_ne _ hself]

theorem trapTakenRule_holds : trapTakenRule := by
  intro k s c u x t hp hl he hheld hsup hchain hhead hcount
  have hd : (s.cluster (s.cur.1 / 36)).depthOf (s.cur.1 % 36) = 0 := depthOf_worker hsup hchain
  let pk := packetOf s 0 0 k (Config.clock s.cycle)
  have ht : t = (s.reported.enqueuePacket u pk x.sup).unretired := takeTrap_admitted hp hl he hd k rfl hheld hcount
  have hc : c ≠ 36 * u + x.sup := by omega
  have hcore : t.core c = { s.myCore.caught s.cur.2 (s.blkOf s.cur.1) with packed := true } := by
    rw [ht, core_unretired, core_enqueuePacket_ne _ hc, core_reported]
  have hcur : t.cur = s.cur := by
    rw [ht, cur_unretired, cur_enqueuePacket]
    rfl
  obtain ⟨hcount', hseq, hhead', -, hslot⟩ := cluster_admitted s pk x.sup
  have hstrand (h : Fin 11) : t.strandAt c h = (s.myCore.caught s.cur.2 (s.blkOf s.cur.1)).strands[h] := by
    rw [State.strandAt, hcore]
  have hme : t.me = t.strandAt c s.cur.2 := by
    rw [State.me_eq, hcur]
  refine ⟨by rw [hcore]; rfl, ?_, ?_, by rw [ht, retired_unretired], fun h => ?_, by rw [hcore]; rfl, ?_, ?_, ?_, ?_,
    ⟨Config.clock s.cycle, ?_, fun hroom hovf => ?_⟩, fun e hec hes => ?_⟩
  · rw [hcore]
    exact Nat.mod_eq_of_lt (by omega)
  · rw [hme, hstrand]
    exact (caught_keeps ..).2.1
  · rw [hstrand]
    exact caught_keeps ..
  · rw [ht, mem_unretired, mem_enqueuePacket]
    rfl
  · rw [ht, cluster_unretired, hcount']
  · rw [ht, cluster_unretired, hseq]
  · rw [ht, cluster_unretired, hhead']
  · rw [ht, cluster_unretired, hslot]
  · rw [ht, core_unretired, rq_admitted hroom hovf]
    rfl
  · rw [ht, core_unretired, core_enqueuePacket_ne _ hes, core_reported_ne s hec]

/-! ### The chain of handlers (R234, R235) -/

theorem entry_eq_chainPos (x : Cluster) (i : Nat) : x.entry i = chainPos x.hchain i := by
  unfold Cluster.entry chainPos bitAt
  rw [pow_add, ← Nat.div_div_eq_div_mul]
  generalize x.hchain.toNat / 2 ^ (7 * i) = n
  have hbit : n % 128 / 2 ^ 6 % 2 = n / 2 ^ 6 % 2 := by omega
  have hpos : n % 128 % 64 = n % 64 := by omega
  simp only [hbit, hpos, Bool.and_eq_true, decide_eq_true_eq, beq_iff_eq]

/-- The first entry that names a position gives its depth. -/
theorem chainIndex_of_first {x : Cluster} {p i : Nat} (hi : chainPos x.hchain i = some p)
    (hfirst : ∀ j, j < i → chainPos x.hchain j ≠ some p) : x.chainIndex p = some i := by
  have hlt : i < 4 := by
    unfold chainPos at hi
    split at hi
    next h => exact h.1
    next => exact absurd hi nofun
  unfold Cluster.chainIndex
  rw [List.find?_range_eq_some]
  simpa [entry_eq_chainPos, hi, hlt] using hfirst

/-- A handler's depth, and who hears of its traps (R235). -/
theorem depthOf_handler {x : Cluster} {p d : Nat} (h : (p = x.sup ∧ d = 1) ∨ (p ≠ x.sup ∧ ∃ i, chainPos x.hchain i = some p ∧
    (∀ j, j < i → chainPos x.hchain j ≠ some p) ∧ d = i + 2)) :
    d ≠ 0 ∧ x.depthOf p = d ∧ x.receiver d = chainPos x.hchain (d - 1) := by
  have hrec (hd : d ≠ 0) : x.receiver d = chainPos x.hchain (d - 1) := by
    rw [Cluster.receiver, if_neg hd, entry_eq_chainPos]
  obtain ⟨hp, rfl⟩ | ⟨hp, i, hi, hfirst, rfl⟩ := h
  · exact ⟨by decide, if_pos hp, hrec (by decide)⟩
  · refine ⟨by omega, ?_, hrec (by omega)⟩
    unfold Cluster.depthOf
    rw [if_neg hp, chainIndex_of_first hi hfirst]

/-! ### The cluster halts (R235, R316) -/

/-- What the end of tasks keeps of a halted cluster: the halt and its depth, and that each core is frozen. -/
def Halted (u d : Nat) (s : State) : Prop :=
  (s.cluster u).halt = true ∧ (s.cluster u).haltDepth = BitVec.ofNat 4 d ∧ ∀ p, p < 36 → (s.core (36 * u + p)).frozen = true

/-- The state of a core that returns free: kept or discarded (R238, R254). -/
def State.freedCore (s : State) (keep : Bool) (c : Nat) : Core :=
  let frozen := s.contained c || (s.cluster (cluOf c)).halt
  if keep then (s.core c).handedBack frozen else (s.core c).freed frozen

theorem core_freeCore_same (s : State) (keep : Bool) (c : Nat) : (s.freeCore keep c).core c = s.freedCore keep c :=
  s.core_modCore_same c fun k =>
    let frozen := s.contained c || (s.cluster (cluOf c)).halt
    if keep then k.handedBack frozen else k.freed frozen

theorem core_freeCore_ne (s : State) (keep : Bool) {c e : Nat} (he : e ≠ c) : (s.freeCore keep c).core e = s.core e :=
  s.core_modCore_ne he fun k =>
    let frozen := s.contained c || (s.cluster (cluOf c)).halt
    if keep then k.handedBack frozen else k.freed frozen

/-- A core that returns to a halted cluster stays frozen (R238). -/
theorem halted_freeCore {u d : Nat} {s : State} (h : Halted u d s) (keep : Bool) (c : Nat) :
    Halted u d (s.freeCore keep c) := by
  obtain ⟨hhalt, hdepth, hfrozen⟩ := h
  refine ⟨hhalt, hdepth, fun p hp => ?_⟩
  by_cases hc : 36 * u + p = c
  · subst hc
    have hclu : cluOf (36 * u + p) = u := by unfold cluOf; omega
    rw [core_freeCore_same, State.freedCore]
    cases keep <;> simp [Core.handedBack, Core.freed, hclu, hhalt]
  · rw [core_freeCore_ne s keep hc]
    exact hfrozen p hp

theorem halted_freeCores {u d : Nat} (keep : Bool) (cs : List Nat) :
    ∀ {s : State}, Halted u d s → Halted u d (s.freeCores keep cs) := by
  induction cs with
  | nil => exact id
  | cons c cs ih => exact fun h => ih (halted_freeCore h keep c)

theorem halted_endTask {u d : Nat} {s : State} (h : Halted u d s) (id : Nat) (cause : Option (Nat × Word)) :
    Halted u d (s.endTask id cause) := by
  unfold State.endTask
  split
  · exact h
  · dsimp only
    split <;> exact halted_freeCores _ _ h

theorem halted_endTasks {u d : Nat} (cause : Option (Nat × Word)) (ids : List Nat) :
    ∀ {s : State}, Halted u d s → Halted u d (s.endTasks ids cause) := by
  induction ids with
  | nil => exact id
  | cons i ids ih => exact fun h => ih (halted_endTask h i cause)

/-- Freezing cores touches nothing but them. -/
theorem freezeAll_clusters (cs : List Nat) : ∀ s : State, (s.freezeAll cs).clusters = s.clusters ∧
    (s.freezeAll cs).tasks = s.tasks ∧ ∀ e, e ∉ cs → (s.freezeAll cs).core e = s.core e := by
  induction cs with
  | nil => exact fun s => ⟨rfl, rfl, fun _ _ => rfl⟩
  | cons c cs ih =>
    intro s
    obtain ⟨hclu, htasks, hcore⟩ := ih ((s.holdCodes c).modCore c (fun k => { k with frozen := true }))
    refine ⟨hclu, htasks, fun e he => (hcore e fun h => he (List.mem_cons_of_mem _ h)).trans ?_⟩
    have hec : e ≠ c := fun h => he (h ▸ List.mem_cons_self)
    exact (State.core_modCore_ne _ hec _).trans (State.core_modCore_ne _ hec _)

theorem freezeAll_frozen (cs : List Nat) : ∀ (s : State) (e : Nat), e ∈ cs ∨ (s.core e).frozen = true →
    ((s.freezeAll cs).core e).frozen = true := by
  induction cs with
  | nil => exact fun s e h => h.elim nofun id
  | cons c cs ih =>
    intro s e h
    refine ih _ e ?_
    by_cases hec : e = c
    · subst hec
      exact .inr (congrArg Core.frozen (State.core_modCore_same (s.holdCodes e) e _))
    · refine h.imp (fun h => (List.mem_cons.1 h).resolve_left hec) fun h => ?_
      rwa [State.core_modCore_ne _ hec, State.holdCodes, State.core_modCore_ne _ hec]

theorem mem_coresOf {u e : Nat} : e ∈ coresOf u ↔ ∃ p, p < 36 ∧ 36 * u + p = e := by
  simp [coresOf]

theorem core_log (s : State) (kind : Nat) (info : Word) (e : Nat) : (s.log kind info).core e = s.core e := rfl

/-- The cluster as it halts, with its cores frozen and before the gangs on it end (R235). -/
def State.halting (s : State) (u d : Nat) : State :=
  (s.modCluster u (fun k => { k with halt := true, haltDepth := BitVec.ofNat 4 d })).freezeAll (coresOf u)

theorem halted_halting (s : State) (u d : Nat) : Halted u d (s.halting u d) := by
  let s1 := s.modCluster u (fun k => { k with halt := true, haltDepth := BitVec.ofNat 4 d })
  have hclu : (s.halting u d).cluster u = { s.cluster u with halt := true, haltDepth := BitVec.ofNat 4 d } := by
    rw [State.cluster, State.halting, (freezeAll_clusters (coresOf u) _).1]
    exact s.cluster_modCluster_same u fun k => { k with halt := true, haltDepth := BitVec.ofNat 4 d }
  exact ⟨by rw [hclu], by rw [hclu], fun p hp => freezeAll_frozen _ _ _ (.inl (mem_coresOf.2 ⟨p, hp, rfl⟩))⟩

/-- R235: each core of a cluster that halts freezes; no other core is touched where no task runs. -/
theorem halted_haltCluster (s : State) (u d : Nat) : Halted u d (s.haltCluster u d) ∧
    (s.tasks = [] → ∀ e, e / 36 ≠ u → (s.haltCluster u d).core e = s.core e) := by
  let ids := (s.halting u d).tasksOn (fun c => cluOf c == u)
  obtain ⟨w, hw⟩ : ∃ w, s.haltCluster u d = ((s.halting u d).endTasks ids (some (2, 0))).log 2 w := ⟨_, rfl⟩
  have hend := halted_endTasks (some (2, 0)) ids (halted_halting s u d)
  rw [hw]
  refine ⟨hend, fun hno e he => ?_⟩
  obtain ⟨-, htasks, hcore⟩ := freezeAll_clusters (coresOf u)
    (s.modCluster u (fun k => { k with halt := true, haltDepth := BitVec.ofNat 4 d }))
  have hon : ids = [] := by
    show State.tasksOn _ _ = []
    rw [State.tasksOn, State.halting, htasks, show (s.modCluster u _).tasks = [] from hno]
    rfl
  have hout : e ∉ coresOf u := by
    rw [mem_coresOf]
    rintro ⟨p, hp, rfl⟩
    omega
  rw [hon, core_log, State.endTasks]
  exact hcore e hout

theorem trapChainRule_holds : trapChainRule := by
  intro k s d c u x t hp hl he hheld hhead hcount hsup hwho
  obtain ⟨hd0, hd, hrec⟩ := depthOf_handler hwho
  refine ⟨fun p hto hrq hovf => ?_, fun hnone => ?_⟩
  · let pk := packetOf s 2 d k (Config.clock s.cycle)
    have ht : t = (s.reported.enqueuePacket u pk p).unretired := by
      have h := takeTrap_admitted hp hl he hd k (hrec.trans hto) hheld hcount
      rwa [if_neg hd0] at h
    have hroom : (s.core (36 * u + p)).rq.length < 32 := by
      rw [hrq]
      decide
    obtain ⟨-, -, -, hhalt, hslot⟩ := cluster_admitted s pk p
    rw [ht]
    simp only [core_unretired, cluster_unretired]
    refine ⟨frozen_admitted s pk hroom hovf, Config.clock s.cycle, hslot, ?_, hhalt⟩
    rw [rq_admitted hroom hovf, hrq]
    rfl
  · let pk := packetOf s (if d = 0 then 0 else 2) d k (Config.clock s.cycle)
    let s1 := s.reported.modCore s.cur.1 (fun x => { x with held := x.held ++ [pk] })
    have ht : t = (s1.haltCluster u d).unretired := takeTrap_halts hp hl he hd k (hrec.trans hnone)
    obtain ⟨⟨hhalt, hdepth, hfrozen⟩, hrest⟩ := halted_haltCluster s1 u d
    rw [ht]
    simp only [core_unretired, cluster_unretired]
    refine ⟨hhalt, hdepth, hfrozen, fun e heu hno => ?_⟩
    have hec : e ≠ s.cur.1 := fun h => heu (h ▸ rfl)
    rw [hrest hno e heu, State.core_modCore_ne s.reported hec, core_reported_ne s hec]

/-! ### The instruction `trap` (R100) -/

/-- A worker's packet, admitted or held, leaves its core as the trap has made it. -/
theorem sent_keeps_trap (s : State) (hsup : s.cur.1 % 36 ≠ (s.cluster (s.cur.1 / 36)).sup) (pk : Packet) :
    let t := s.reported.send s.cur.1 0 pk
    t.cur = s.cur ∧ (t.core s.cur.1).frozen = true ∧ (t.core s.cur.1).trapStrand = BitVec.ofNat 4 s.cur.2.val ∧
      (t.core s.cur.1).strands = (s.myCore.caught s.cur.2 (s.blkOf s.cur.1)).strands := by
  have hr : (s.reported.cluster (s.cur.1 / 36)).receiver 0 = some (s.cluster (s.cur.1 / 36)).sup :=
    receiver_congr (by rw [cluster_reported]) (by rw [cluster_reported]) 0
  have hc : s.cur.1 ≠ 36 * (s.cur.1 / 36) + (s.cluster (s.cur.1 / 36)).sup := by omega
  have hcore := core_reported s
  intro t
  have ht : t = _ := send_cases hr pk
  split at ht
  · have hsame : t.core s.cur.1 = s.reported.core s.cur.1 := by
      rw [ht]
      exact core_enqueuePacket_ne _ hc _
    rw [hsame, hcore]
    exact ⟨by rw [ht]; exact cur_enqueuePacket .., rfl, rfl, rfl⟩
  · have hheld : t.core s.cur.1 = { s.reported.core s.cur.1 with held := (s.reported.core s.cur.1).held ++ [pk] } := by
      rw [ht]
      exact s.reported.core_modCore_same s.cur.1 fun k => { k with held := k.held ++ [pk] }
    rw [hheld, hcore]
    exact ⟨by rw [ht]; rfl, rfl, rfl, rfl⟩

theorem softwareTrapRule_holds : softwareTrapRule := by
  intro gd code s hgd
  have htraps : Traps (.trap gd code) s ⟨0x07, 0, 0, code.setWidth 64⟩ := runW_on hgd 8 fun _ => raise _
  refine ⟨htraps, fun hp hl he hsup hchain => ⟨_, htraps, ?_⟩⟩
  have hd : (s.cluster (s.cur.1 / 36)).depthOf (s.cur.1 % 36) = 0 := depthOf_worker hsup hchain
  rw [takeTrap_sends hp hl he hd _ rfl, if_pos rfl]
  generalize packetOf s 0 0 ⟨0x07, 0, 0, code.setWidth 64⟩ (Config.clock s.cycle) = pk
  obtain ⟨hcur, hfrozen, hstrand, hkept⟩ := sent_keeps_trap s hsup pk
  generalize s.reported.send s.cur.1 0 pk = t at hcur hfrozen hstrand hkept
  refine ⟨hfrozen, (congrArg BitVec.toNat hstrand).trans (Nat.mod_eq_of_lt (by omega)), ?_⟩
  have hme : t.me = (s.myCore.caught s.cur.2 (s.blkOf s.cur.1)).strands[s.cur.2] := by
    rw [State.me_eq, hcur, State.strandAt, hkept]
  exact (congrArg Strand.pc hme).trans (caught_keeps ..).2.1

/-- Settles O7. -/
theorem trapEntry : Obligations.TrapEntry := ⟨trapTakenRule_holds, trapChainRule_holds, softwareTrapRule_holds⟩

end Sys2Proof.Machine
end

section
/-! PROOFS. A step of the machine: the barrel's choice, the fetch of the block and the instruction that it decodes to (R19,
R22, R37, R55, R56). -/

namespace Sys2Proof.Machine

open Sys2Proof.Claims

/-! ### The bytes of a fetch block -/

theorem leNat_lt (bs : List Byte) : leNat bs < 256 ^ bs.length := by
  induction bs with
  | nil => simp [leNat]
  | cons b bs ih =>
    have hb : b.toNat < 256 := b.isLt
    rw [leNat, List.length_cons, pow_succ]
    omega

/-- The bytes of a little-endian value are those it was made of. -/
theorem leBytes_leNat (bs : List Byte) : leBytes bs.length (leNat bs) = bs := by
  induction bs with
  | nil => rfl
  | cons b bs ih =>
    have hb : b.toNat < 256 := b.isLt
    have hlow : (b.toNat + 256 * leNat bs) / 256 = leNat bs := by omega
    rw [List.length_cons, leBytes, leNat, hlow, ih, List.cons.injEq]
    exact ⟨BitVec.eq_of_toNat_eq (by simpa using hb), rfl⟩

theorem memRead_eq_map (m : Sparse Byte) (a n : Nat) : memRead m a n = (List.range' a n).map (memGet m) := by
  induction n generalizing a with
  | zero => rfl
  | succ n ih => simp [memRead, ih, List.range'_succ]

/-- A unit of memory holds its eight bytes. -/
theorem leBytes_memUnit (s : State) (u : Nat) : leBytes 8 (s.memUnit u).toNat = (List.range' (8 * u) 8).map (memGet s.mem) := by
  have hlen : (memRead s.mem (8 * u) 8).length = 8 := by simp [memRead_eq_map]
  have hlt := leNat_lt (memRead s.mem (8 * u) 8)
  rw [hlen] at hlt
  have hval : (s.memUnit u).toNat = leNat (memRead s.mem (8 * u) 8) := by
    rw [State.memUnit, BitVec.toNat_ofNat]
    exact Nat.mod_eq_of_lt (by omega)
  have hbytes := leBytes_leNat (memRead s.mem (8 * u) 8)
  rw [hlen] at hbytes
  rw [hval, hbytes, memRead_eq_map]

/-- With nothing of the instruction cache held, the units are those of memory now (R58). -/
theorem fetchUnits_now (cache : Sparse (List Word)) (rd : Nat → Word) (u n : Nat) :
    (fetchUnits cache rd u [] n).1 = (List.range' u n).map rd := by
  induction n generalizing cache u with
  | zero => rfl
  | succ n ih => simp [fetchUnits, ih, List.range'_succ]

/-- Consecutive units are consecutive bytes. -/
theorem flatMap_units (u n : Nat) : (List.range' u n).flatMap (fun v => List.range' (8 * v) 8) = List.range' (8 * u) (8 * n) := by
  induction n generalizing u with
  | zero => rfl
  | succ n ih =>
    rw [List.range'_succ, List.flatMap_cons, ih, show 8 * (u + 1) = 8 * u + 8 from rfl, List.range'_append_1]
    congr 1
    omega

/-- The bytes of the fetch block from address `a` on are the bytes of memory to the end of the block (R55). -/
theorem block_bytes (s : State) (cache : Sparse (List Word)) (a : Nat) :
    ((fetchUnits cache s.memUnit (a / 8) [] (4 - a % 32 / 8)).1.flatMap (fun w => leBytes 8 w.toNat)).drop (a % 8) =
      (List.range (32 - a % 32)).map (fun j => memGet s.mem (a + j)) := by
  have hunits : (List.range' (a / 8) (4 - a % 32 / 8)).flatMap (fun u => leBytes 8 (s.memUnit u).toNat) =
      (List.range' (8 * (a / 8)) (8 * (4 - a % 32 / 8))).map (memGet s.mem) := by
    simp only [leBytes_memUnit, ← flatMap_units, List.map_flatMap]
  have hlen : 8 * (4 - a % 32 / 8) - a % 8 = 32 - a % 32 := by omega
  have hat : 8 * (a / 8) + a % 8 = a := by omega
  rw [fetchUnits_now, List.flatMap_map, hunits, ← List.map_drop, List.drop_range', hlen, Nat.mul_one, hat,
    List.range'_eq_map_range, List.map_map]
  rfl

/-- R56, R57: the fetch through a leaf that the core holds, of a page homed in this module, takes the bytes of memory. -/
theorem fetch_eq {s : State} {pc : Pc} {l : Leaf} (hlow : pc.toNat < fixedBase) (hplain : s.rangeOf s.myCore.ctx pc.toNat = none)
    (hheld : s.myCore.utlb = [l]) (hcov : l.covers s.myCore.ctx pc.toNat = true) (hexec : l.exec = true) (h2 : l.home ≠ 2)
    (h3 : l.home ≠ 3) (huser : l.privOnly = true → s.me.priv = true) (hp : l.phys pc.toNat / 64 ∉ s.poisoned) :
    ∃ ic, s.fetch pc [] = .ok ((List.range (32 - l.phys pc.toNat % 32)).map (fun j => memGet s.mem (l.phys pc.toNat + j)),
      s.modMyCore (fun k => { k with icache := ic })) := by
  have hleaf : s.leafFor s.cur.1 s.myCore.ctx pc.toNat = .ok (l, s) :=
    leafFor_of_held (by rw [hheld, List.find?_cons, hcov])
  have huser' : (l.privOnly && !s.me.priv) = false := by
    cases hpriv : l.privOnly with
    | false => rfl
    | true => simp [huser hpriv]
  have haddr : s.fetchAddr pc.toNat = .ok (.inl (l.phys pc.toNat), s) := by
    unfold State.fetchAddr
    simp [Nat.not_le.2 hlow, hplain, hleaf, hexec, h2, h3, huser', hp]
  refine ⟨(fetchUnits s.myCore.icache s.memUnit (l.phys pc.toNat / 8) [] (4 - l.phys pc.toNat % 32 / 8)).2, ?_⟩
  rw [← block_bytes s s.myCore.icache]
  unfold State.fetch
  rw [haddr]
  rfl

/-! ### The strand whose turn it is -/

/-- The only live strand of a core is the one whose turn it is (R19). -/
theorem order_single {k : Core} {h : Fin 11} (hlive : k.strands[h].live = true)
    (hothers : ∀ j, j ≠ h → k.strands[j].live = false) : k.order = [h] := by
  have hself : (fun j => k.strands[j].live) = (fun j : Fin 11 => j == h) := by
    funext j
    by_cases hj : j = h
    · subst hj
      simpa using hlive
    · exact (hothers j hj).trans (beq_false_of_ne hj).symm
  have hone : ∀ h : Fin 11, (List.finRange 11).filter (fun j => j == h) = [h] := by decide
  rw [Core.order, hself, hone]
  rfl

/-- When only one strand is in turn, the step ends with its attempt. -/
theorem attempts_single (ex : Meaning) (c : Nat) (held : List Nat) (h : Fin 11) {s t : State}
    (ha : attempt ex c h held s = .next t) : attempts ex c held [h] s = .next t := by
  rw [attempts, ha]
  dsimp only
  split
  · rfl
  · split <;> rfl

/-- A strand with no register pending, no membership change and no pair issues the instruction at once (R22). -/
theorem issueDecoded_eq (ex : Meaning) (i : Instr) {s t : State} (hpend : s.me.pend = []) (hpair : s.pairs = [])
    (hch : s.me.changes = []) (ht : ex i s = .next t) :
    issueDecoded ex i s = .next (if t.retired then t.afterIssue i s else t) := by
  have hfree : i.regs.any s.me.pending = false := by
    rw [List.any_eq_false]
    intro r _
    simp [Strand.pending, hpend]
  have hgate : s.pairGate i = .ok s := by
    unfold State.pairGate State.leads
    rw [hpair]
    rfl
  unfold issueDecoded
  rw [hfree, hgate]
  simp only [ht, hch]
  rfl

/-- R55, R56: a strand with no gate and no repeats fetches its block, notes the word and issues what it decodes to. -/
theorem attemptPlain_eq (ex : Meaning) {held : List Nat} {s u : State} {bs : List Byte} {i : Instr} (hgates : s.me.gates = [])
    (hfetch : s.fetch s.me.pc held = .ok (bs, u)) (hdec : Decode.decode (s.me.pc.toNat % 32) bs = .ok i) :
    attemptPlain ex held s = issueDecoded ex i (u.modMe (fun t => { t with iw := BitVec.ofNat 64 (leNat (bs.take 8)) })) := by
  unfold attemptPlain
  rw [hgates]
  simp only [hfetch, hdec]
  rfl

/-- A strand with no repeats in progress attempts its next instruction. -/
theorem attempt_plain (ex : Meaning) (c : Nat) (h : Fin 11) (held : List Nat) {s : State}
    (hrep : ({ s with cur := (c, h), retired := false } : State).me.rep = none) :
    attempt ex c h held s = attemptPlain ex held { s with cur := (c, h), retired := false } := by
  unfold attempt
  simp only [hrep]

/-- Outside a communication phase no cycle is counted (R208). -/
theorem countCycle_of_no_comm (s : State) (c : Nat) {k : Core} (h : k.late.comm = false) : s.countCycle c k = k := by
  unfold State.countCycle
  simp [h]

/-- The step of a core that may issue, with one live strand that has no repeats in progress, is that strand's attempt. -/
theorem step_issue {s t : State} {c : Nat} {h : Fin 11} {rest : List Move} (hag : s.agenda = .issue c [] :: rest)
    (hfrozen : (s.core c).frozen = false) (hpair : (s.core c).pairOf = none) (hpow : s.powered c = true)
    (hord : (s.core c).order = [h])
    (ha : attempt exec c h [] (({ s with agenda := rest } : State).modCore c (fun k => { k with slot := k.slot + 1 })) = .next t) :
    step s = .next t := by
  have hmay : (((s.core c).frozen || (s.core c).pairOf.any (fun l => l != c)) || !s.powered c) = false := by
    simp [hfrozen, hpair, hpow]
  have hissue : issueCore exec c [] { s with agenda := rest } = .next t := by
    show (if (((s.core c).frozen || (s.core c).pairOf.any (fun l => l != c)) || !s.powered c) = true then _ else
      attempts exec c [] (s.core c).order _) = _
    rw [hmay, hord]
    exact attempts_single exec c [] h ha
  unfold step
  rw [hag]
  exact hissue

/-- Settles O5. -/
theorem stepRunsDecoded : Obligations.StepRunsDecoded := by
  refine ⟨?issue, fun s hag => ?plan, fun s i rest hag hev => ?event⟩
  case issue =>
    intro s c h rest l i hag k w a bs hfrozen hpair hpow hpairs hlive hothers hrep hgates hpend hch hlow hal hplain hheld hcov
      hexec h2 h3 huser hpois hdec s0
    let u := s0.modCore c (fun k => { k with slot := k.slot + 1 })
    have hcore : u.myCore = { k with slot := k.slot + 1 } := s0.core_modCore_same c fun k => { k with slot := k.slot + 1 }
    have hme : u.me = w := Eq.trans (congrArg (fun x : Core => x.strands[h]) hcore) rfl
    obtain ⟨ic, hfetch⟩ := fetch_eq (s := u) (pc := w.pc) hlow (by rw [hcore]; exact hplain) (by rw [hcore]; exact hheld)
      (by rw [hcore]; exact hcov) hexec h2 h3 (by rw [hme]; exact huser) hpois
    refine ⟨ic, ?_⟩
    intro s1 t ht
    have hs1 : (u.modMyCore (fun k => { k with icache := ic })).modMe
        (fun x => { x with iw := BitVec.ofNat 64 (leNat (bs.take 8)) }) = s1 :=
      congrArg (fun x : State => x.modMe fun x => { x with iw := BitVec.ofNat 64 (leNat (bs.take 8)) })
        (s0.modCore_modCore c (fun k => { k with slot := k.slot + 1 }) fun k => { k with icache := ic })
    have hme1 : s1.me = { w with iw := BitVec.ofNat 64 (leNat (bs.take 8)) } := by
      rw [← hs1, State.me_modMe]
      exact congrArg (fun x : Strand => { x with iw := BitVec.ofNat 64 (leNat (bs.take 8)) })
        ((congrArg (fun x : Core => x.strands[h]) (u.core_modCore_same c fun k => { k with icache := ic })).trans hme)
    have hfetch' : u.fetch u.me.pc [] = .ok (bs, u.modMyCore (fun k => { k with icache := ic })) := by
      rw [hme]
      exact hfetch
    refine step_issue hag hfrozen hpair hpow (order_single hlive hothers) ?_
    refine (attempt_plain exec c h [] (Eq.trans (congrArg Strand.rep hme) hrep)).trans ?_
    refine (attemptPlain_eq exec (by rw [hme]; exact hgates) hfetch' (by rw [hme]; exact hdec)).trans ?_
    rw [hs1]
    exact issueDecoded_eq exec i (by rw [hme1]; exact hpend) hpairs (by rw [hme1]; exact hch) ht
  case plan =>
    refine ⟨_, _, by unfold step; rw [hag]; rfl, fun hcomm => ?_⟩
    rw [List.all_eq_true] at hcomm
    refine (List.map_congr_left fun x hx => ?_).trans (List.map_id _)
    rw [countCycle_of_no_comm s x.1 (by simpa using hcomm x hx)]
    rfl
  case event =>
    unfold step
    rw [hag]
    exact if_pos hev

end Sys2Proof.Machine
end

section
/-! PROOFS. Loads satisfied: from local store, from memory and from the strand's own store (R22, R30, R107, R108). -/

namespace Sys2Proof.Machine

open Sys2Proof.Claims

/-! ### What a register takes from the bytes of a load (R107) -/

theorem sextN_eq_toInt (n w : Nat) : sextN n w = (BitVec.ofNat w n).toInt := by
  unfold sextN
  rw [BitVec.toInt_eq_toNat_cond, BitVec.toNat_ofNat]
  push_cast
  rfl

theorem setWidth_ofNat {w : Nat} (hw : w ≤ 64) (n : Nat) : (BitVec.ofNat 64 n).setWidth w = BitVec.ofNat w n := by
  apply BitVec.eq_of_toNat_eq
  rw [BitVec.toNat_setWidth, BitVec.toNat_ofNat, BitVec.toNat_ofNat, Nat.mod_mod_of_dvd _ (Nat.pow_dvd_pow 2 hw)]

theorem wordOfInt_sextN {w : Nat} (hw : w ≤ 64) (n : Nat) :
    wordOfInt (sextN n w) = ((BitVec.ofNat 64 n).setWidth w).signExtend 64 := by
  rw [sextN_eq_toInt, setWidth_ofNat hw]
  rfl

theorem wordOfInt_mod {w : Nat} (hw : w ≤ 64) (n : Nat) :
    wordOfInt ((n % 2 ^ w : Nat) : Int) = ((BitVec.ofNat 64 n).setWidth w).setWidth 64 := by
  rw [setWidth_ofNat hw, wordOfInt, BitVec.ofInt_natCast]
  apply BitVec.eq_of_toNat_eq
  simp

/-- The value that a load's bytes leave in a register is that of its type (R89, R107). -/
theorem wordOfInt_read {ty : Ty} (h : ty.isInt = true) (n : Nat) : wordOfInt (ty.read n) = readAs ty (BitVec.ofNat 64 n) := by
  revert h
  cases ty <;> intro h
  case i8 | i16 | i32 => exact wordOfInt_sextN (by decide) n
  case n8 | n16 | n32 => exact wordOfInt_mod (by decide) n
  case i64 => exact (wordOfInt_sextN (Nat.le_refl 64) n).trans (by simp [readAs])
  case n64 => exact (wordOfInt_mod (Nat.le_refl 64) n).trans (by simp [readAs])
  all_goals exact absurd h (by decide)

/-! ### The load completes -/

/-- Of strand `h` of core `c`, of the other cores and of memory nothing has changed; identifiers may have been taken. -/
structure Quiet (s x : State) (c : Nat) : Prop where
  strands : (x.core c).strands = (s.core c).strands
  cores : ∀ e, e ≠ c → x.core e = s.core e
  mem : x.mem = s.mem
  ids : s.nextId ≤ x.nextId

theorem Quiet.refl (s : State) (c : Nat) : Quiet s s c := ⟨rfl, fun _ _ => rfl, rfl, Nat.le_refl _⟩

theorem Quiet.trans {s x y : State} {c : Nat} (h : Quiet s x c) (k : Quiet x y c) : Quiet s y c :=
  ⟨k.strands.trans h.strands, fun e he => (k.cores e he).trans (h.cores e he), k.mem.trans h.mem, Nat.le_trans h.ids k.ids⟩

theorem Quiet.strandAt {s x : State} {c : Nat} (q : Quiet s x c) (h : Fin 11) : x.strandAt c h = s.strandAt c h := by
  rw [State.strandAt, q.strands, State.strandAt]

/-- A core whose strands are as they were may differ elsewhere. -/
theorem quiet_setCore (s : State) {c : Nat} {k : Core} (hk : k.strands = (s.core c).strands) : Quiet s (s.setCore c k) c :=
  ⟨by rw [State.core_setCore_same, hk], fun e he => State.core_setCore_ne s he k, rfl, Nat.le_refl _⟩

/-- An access that is done releases its registers and gates (R21, R22). -/
theorem release_eq (t : Strand) (id : Nat) : ∃ b, t.release id = { t with
    pend := t.pend.filter (fun x => x.1 != id), gates := t.gates.filter (fun x => x != id), blk := b } := by
  unfold Strand.release
  dsimp only
  split
  · exact ⟨_, rfl⟩
  · exact ⟨t.blk, rfl⟩

/-- The loads that stay when load `l` is satisfied (R25). -/
def afterLoad (l : PendLoad) (loads : List PendLoad) : List PendLoad :=
  (loads.filter (fun x => x.id != l.id)).map (fun x => if x.slot = l.slot then { x with part := true } else x)

/-- What the completion of load `l` makes of its strand, once its destination is written (R22, R25, R225). -/
def Strand.satisfied (t : Strand) (l : PendLoad) (now : Nat) : Strand :=
  let t := { t with loads := afterLoad l t.loads }.release l.id
  if l.acq then t.void l.scope now else t

/-- A load into a `g` register writes it and is complete. -/
theorem finishLoad_eq (s : State) (c : Nat) (h : Fin 11) {l : PendLoad} {d : Fin 32} {ty : Ty} (hdst : l.dst = .g d ty)
    (bs : List Byte) : s.finishLoad c h l bs =
      s.fresh.modStrandAt c h (fun t => (t.wg d (wordOfInt (ty.read (leNat bs)))).satisfied l s.nextId) := by
  have hdeliver : s.deliver c h l.dst bs = s.modStrandAt c h (fun t => t.wg d (wordOfInt (ty.read (leNat bs)))) := by
    rw [hdst]
    rfl
  have hfinish : s.finishLoad c h l bs = (s.deliver c h l.dst bs).fresh.modStrandAt c h
      (fun t => t.satisfied l (s.deliver c h l.dst bs).nextId) := rfl
  rw [hfinish, hdeliver]
  exact s.fresh.modStrandAt_modStrandAt c h (fun t => t.wg d (wordOfInt (ty.read (leNat bs))))
    fun t => t.satisfied l s.nextId

/-- The completion of a load changes of its strand the list of loads, what waits for it, its code and its stamps. -/
theorem satisfied_eq (t : Strand) (l : PendLoad) (now : Nat) : ∃ b p m r, t.satisfied l now = { t with
    loads := afterLoad l t.loads, pend := t.pend.filter (fun x => x.1 != l.id), gates := t.gates.filter (fun x => x != l.id)
    blk := b, voidP := p, voidC := m, voidR := r } ∧ (l.acq = true → l.scope = .mod → p = now ∧ m = now) := by
  obtain ⟨b, hb⟩ := release_eq { t with loads := afterLoad l t.loads } l.id
  unfold Strand.satisfied
  dsimp only
  rw [hb]
  split
  · rw [Strand.void_eq]
    refine ⟨b, _, _, _, rfl, fun _ hmod => ?_⟩
    rw [hmod]
    exact ⟨rfl, rfl⟩
  next hacq => exact ⟨b, t.voidP, t.voidC, t.voidR, rfl, fun h => absurd h hacq⟩

/-- A written `g` register holds what was written, and g0 holds 0. -/
theorem rg_wg_heldG (t : Strand) (d : Fin 32) (x : Word) : (t.wg d x).rg d = heldG d x := by
  rw [Strand.rg_wg, heldG]
  simp

/-- What is left in the strand by an oldest load of it that takes bytes `bs` in state `x`. -/
theorem finishLoad_takes {s x : State} {c : Nat} {h : Fin 11} {l : PendLoad} {rest : List PendLoad} {d : Fin 32} {ty : Ty}
    (hq : Quiet s x c) (hl : (s.strandAt c h).loads = l :: rest) (hrest : ∀ y ∈ rest, l.id < y.id) (hdst : l.dst = .g d ty)
    (hty : ty.isInt = true) (bs : List Byte) :
    let u := s.strandAt c h
    let t := x.finishLoad c h l bs
    let w := t.strandAt c h
    w.rg d = heldG d (readAs ty (BitVec.ofNat 64 (leNat bs))) ∧ (∀ n, n ≠ d → w.rg n = u.rg n) ∧
      (∀ n, w.rv n = u.rv n) ∧ (∀ n, w.rp n = u.rp n) ∧ w.pc = u.pc ∧
      w.loads = rest.map (fun x => if x.slot = l.slot then { x with part := true } else x) ∧ w.buf = u.buf ∧
      w.pend = u.pend.filter (fun x => x.1 != l.id) ∧ w.gates = u.gates.filter (fun x => x != l.id) ∧ t.mem = s.mem ∧
      (l.acq = true → l.scope = .mod → s.nextId ≤ w.voidP ∧ s.nextId ≤ w.voidC) := by
  intro u t w
  have hw : w = (u.wg d (readAs ty (BitVec.ofNat 64 (leNat bs)))).satisfied l x.nextId := by
    show (x.finishLoad c h l bs).strandAt c h = _
    rw [finishLoad_eq x c h hdst, State.strandAt_modStrandAt_same, wordOfInt_read hty]
    exact congrArg (fun y : Strand => (y.wg d _).satisfied l x.nextId) (hq.strandAt h)
  obtain ⟨b, p, m, r, hsat, hvoid⟩ := satisfied_eq (u.wg d (readAs ty (BitVec.ofNat 64 (leNat bs)))) l x.nextId
  rw [hsat] at hw
  have hleft : afterLoad l u.loads = rest.map (fun x => if x.slot = l.slot then { x with part := true } else x) := by
    have hothers : (l :: rest).filter (fun y => y.id != l.id) = rest := by
      rw [List.filter_cons_of_neg (by simp), List.filter_eq_self]
      intro y hy
      have := hrest y hy
      simp
      omega
    rw [afterLoad, hl, hothers]
  have hmem : t.mem = s.mem := by
    show (x.finishLoad c h l bs).mem = _
    rw [finishLoad_eq x c h hdst]
    exact hq.mem
  rw [hw]
  refine ⟨rg_wg_heldG .., fun n hn => u.rg_wg_ne hn _, fun n => u.wg_rv d _ n, fun n => u.wg_rp d _ n, u.wg_pc d _, ?_,
    u.wg_buf d _, ?_, ?_, hmem, fun hacq hmod => ?_⟩
  · simp only [Strand.wg_loads, hleft]
  · simp only [Strand.wg_pend]
  · simp only [Strand.wg_gates]
  · obtain ⟨rfl, rfl⟩ := hvoid hacq hmod
    exact ⟨hq.ids, hq.ids⟩

/-! ### Bytes from local store and from memory -/

theorem correct_keeps (k : Core) (o : Nat) : (k.correct o).strands = k.strands ∧ (k.correct o).ls = k.ls ∧
    (k.correct o).bad = k.bad ∧ (k.correct o).outq = k.outq := by
  unfold Core.correct
  split <;> exact ⟨rfl, rfl, rfl, rfl⟩

/-- A whole byte of the own local store that no outward store holds is read, and nothing changes but the count of corrected
errors (R148, R151). -/
theorem loadByte_ls {s : State} {c : Nat} (t : Strand) (scope : Scope) (src : Nat) {l : Loc} (hl : l.at' = .ls)
    (hbad : (s.core c).bad.contains (l.addr / 8) = false) (hout : ∀ o ∈ (s.core c).outq, l ∉ o.e.locs) :
    s.loadByte c t scope src l =
      some (memGet (s.core c).ls l.addr, false, s.setCore c ((s.core c).correct l.addr)) := by
  have hplace : s.lsPlace c l = some (c, l) := by
    unfold State.lsPlace
    rw [hl]
  have hfree : (s.core c).outq.any (fun o => o.e.locs.contains l) = false := by
    rw [List.any_eq_false]
    intro o ho
    simpa using hout o ho
  have hread : (s.core c).readByte l = (some (memGet (s.core c).ls l.addr), (s.core c).correct l.addr) := by
    unfold Core.readByte
    rw [hl]
    simpa using hbad
  unfold State.loadByte
  rw [hplace, hfree]
  simp [hread]

/-- The bytes of a load from local store. -/
theorem loadBytes_ls (t : Strand) (scope : Scope) (src c : Nat) (ls : List Loc) : ∀ s : State,
    (∀ x ∈ ls, x.at' = .ls ∧ (s.core c).bad.contains (x.addr / 8) = false) →
    (∀ o ∈ (s.core c).outq, ∀ x ∈ ls, x ∉ o.e.locs) →
    ∃ y, s.loadBytes c t scope src ls = some (ls.map (fun x => memGet (s.core c).ls x.addr), false, y) ∧ Quiet s y c ∧
      y.pairs = s.pairs := by
  induction ls with
  | nil => exact fun s _ _ => ⟨s, rfl, Quiet.refl s c, rfl⟩
  | cons l ls ih =>
    intro s hls hout
    obtain ⟨hl, hbad⟩ := hls l List.mem_cons_self
    have hbyte := loadByte_ls t scope src hl hbad fun o ho => hout o ho l List.mem_cons_self
    obtain ⟨hstrands, hsame, hsameBad, hsameOut⟩ := correct_keeps (s.core c) l.addr
    have hcore := s.core_setCore_same c ((s.core c).correct l.addr)
    obtain ⟨y, hy, hq, hpairs⟩ := ih (s.setCore c ((s.core c).correct l.addr))
      (fun x hx => by rw [hcore, hsameBad]; exact hls x (List.mem_cons_of_mem _ hx))
      (fun o ho x hx => by rw [hcore, hsameOut] at ho; exact hout o ho x (List.mem_cons_of_mem _ hx))
    refine ⟨y, ?_, (quiet_setCore s hstrands).trans hq, hpairs⟩
    rw [hcore, hsame] at hy
    rw [State.loadBytes, hbyte]
    simp only [hy]
    rfl

theorem aheadOf_nil {s : State} (hout : ∀ e, (s.core e).outq = []) (clu : Nat) : s.aheadOf clu = [] := by
  have hnone : (coresOf clu).flatMap (fun c => (s.core c).outq.filter (fun o => o.stage == 1 && o.e.op == .store)) = [] := by
    rw [List.flatMap_eq_nil_iff]
    intro e _
    rw [hout]
    rfl
  rw [State.aheadOf, hnone]
  rfl

/-- With no store under way a byte of memory is read at its home, whatever the scope (R225, R270, R291). -/
theorem loadByte_mem {s : State} (c : Nat) (t : Strand) (scope : Scope) {l : Loc} {p : Home} (hl : l.at' = .mem p)
    (hout : ∀ e, (s.core e).outq = []) : s.loadByte c t scope 0 l = some (memGet s.mem l.addr, false, s) := by
  have hahead : s.clusterAhead (cluOf c) l = false := by
    rw [State.clusterAhead, aheadOf_nil hout]
    rfl
  have hpoint : s.pointByte c l = memGet s.mem l.addr := by
    unfold State.pointByte
    rw [hl]
  have hover : ∀ b, (s.core c).overlay l b = b := by
    intro b
    rw [Core.overlay, hout]
    rfl
  have hbyte : s.memByte c t scope 0 l = some (memGet s.mem l.addr) := by
    unfold State.memByte
    simp [hout, hahead, hpoint, hover]
  have hplace : s.lsPlace c l = none := by
    unfold State.lsPlace
    rw [hl]
  unfold State.loadByte
  rw [hplace, hl, hbyte]
  rfl

theorem loadBytes_mem {s : State} (c : Nat) (t : Strand) (scope : Scope) (hout : ∀ e, (s.core e).outq = []) (ls : List Loc)
    (hls : ∀ x ∈ ls, ∃ p, x.at' = .mem p) :
    s.loadBytes c t scope 0 ls = some (ls.map (fun x => memGet s.mem x.addr), false, s) := by
  induction ls with
  | nil => rfl
  | cons l ls ih =>
    obtain ⟨p, hl⟩ := hls l List.mem_cons_self
    rw [State.loadBytes, loadByte_mem c t scope hl hout]
    simp only [ih fun x hx => hls x (List.mem_cons_of_mem _ hx)]
    rfl

theorem quiet_modCluster (s : State) (c u : Nat) (f : Cluster → Cluster) : Quiet s (s.modCluster u f) c :=
  ⟨rfl, fun _ _ => rfl, rfl, Nat.le_refl _⟩

theorem quiet_ite {s x y : State} {c : Nat} {p : Prop} [Decidable p] (hx : Quiet s x c) (hy : Quiet s y c) :
    Quiet s (if p then x else y) c := by
  split
  · exact hx
  · exact hy

/-- Lines that join caches touch no strand and no byte of memory (R153, R224). -/
theorem quiet_fillLines (s : State) (c : Nat) (scope : Scope) (src : Nat) (ls : List Loc) :
    Quiet s (s.fillLines c scope src ls) c := by
  have hfresh : Quiet s s.fresh c := ⟨rfl, fun _ _ => rfl, rfl, Nat.le_succ _⟩
  unfold State.fillLines
  split
  · exact Quiet.refl s c
  split
  · dsimp only
    split
    · exact Quiet.refl s c
    · refine quiet_ite (Quiet.trans ?line (quiet_setCore _ rfl)) ?line'
      case line => exact quiet_ite (hfresh.trans (quiet_modCluster ..)) hfresh
      case line' => exact quiet_ite (hfresh.trans (quiet_modCluster ..)) hfresh
  · exact Quiet.refl s c

/-- In a core that leads no pair a read that met no error leaves no mark (R152, R237). -/
theorem lsError_clean {s : State} {c : Nat} (hu : unpaired s c) (h : Fin 11) (ls : List Loc) (pc : Pc) (iw : Word) :
    s.lsError c h false ls pc iw = s := by
  have hno : s.pairs.find? (fun p => p.leader == c) = none := by
    rw [List.find?_eq_none]
    intro p hp
    simpa using hu p hp
  unfold State.lsError State.splitRead
  rw [hno]
  rfl

/-! ### What the buffer gives (R30) -/

theorem olderStores_nil {t : Strand} (h : t.buf = []) (id : Nat) (ls : List Loc) : t.olderStores id ls = [] := by
  rw [Strand.olderStores, h]
  rfl

/-- No load of a strand is older than its oldest. -/
theorem olderLoad_oldest {t : Strand} {l : PendLoad} {rest : List PendLoad} (hl : t.loads = l :: rest)
    (hrest : ∀ y ∈ rest, l.id < y.id) (ls : List Loc) : t.olderLoad l.id ls = false := by
  rw [Strand.olderLoad, hl, List.any_eq_false]
  intro y hy
  rcases List.mem_cons.1 hy with rfl | hy
  · simp
  · have := hrest y hy
    simp
    omega

/-- Behind a single entry that is no fence nothing holds a load. -/
theorem fenced_single {t : Strand} {e : BufEntry} (h : t.buf = [e]) (hop : e.op = .store) (id : Nat) : t.fenced id = false := by
  rw [Strand.fenced, h]
  simp [hop]

theorem fenced_nil {t : Strand} (h : t.buf = []) (id : Nat) : t.fenced id = false := by
  rw [Strand.fenced, h]
  rfl

/-- The entry of a key that stands once in a list is found by it. -/
theorem find?_of_nodup {α β : Type} [BEq α] [LawfulBEq α] {xs : List (α × β)} (hnd : (xs.map Prod.fst).Nodup) {a : α} {b : β}
    (h : (a, b) ∈ xs) : xs.find? (fun x => x.1 == a) = some (a, b) := by
  induction xs with
  | nil => exact absurd h List.not_mem_nil
  | cons x xs ih =>
    rw [List.map_cons, List.nodup_cons] at hnd
    rcases List.mem_cons.1 h with rfl | h
    · simp
    · have hne : x.1 ≠ a := fun he => hnd.1 (he ▸ List.mem_map_of_mem (f := Prod.fst) h)
      rw [List.find?_cons_of_neg (by simpa using hne), ih hnd.2 h]

/-- A store that names each location once writes the byte that stands with it. -/
theorem byteAt_of_mem {e : BufEntry} (hnd : (e.bytes.map Prod.fst).Nodup) {l : Loc} {b : Byte} (h : (l, b) ∈ e.bytes) :
    e.byteAt l = some b := by
  have hrev : (e.bytes.reverse.map Prod.fst).Nodup := by
    rw [List.map_reverse]
    exact List.nodup_reverse.2 hnd
  rw [BufEntry.byteAt, find?_of_nodup hrev (List.mem_reverse.2 h)]
  rfl

/-- R30: the strand's one older store, which holds every byte that a load names, gives them. -/
theorem forward_covering {t : Strand} {e : BufEntry} {id : Nat} {ls : List Loc} {bs : List Byte} (hbuf : t.buf = [e])
    (hid : e.id < id) (hop : e.op = .store) (hmask : e.mask = []) (hne : ls ≠ []) (hnd : (e.bytes.map Prod.fst).Nodup)
    (hlen : bs.length = ls.length) (hcov : ∀ y ∈ ls.zip bs, y ∈ e.bytes)
    (hhere : ∀ x ∈ ls, x.at' ≠ .stray ∧ ∀ i j, x.at' = .peer i j → x.addr < 2 ^ 20) (hfill : t.unfilled e.id = false) :
    t.forward id ls = .bytes bs := by
  have hfst : ls = (ls.zip bs).map Prod.fst := (List.map_fst_zip (by omega)).symm
  have hsnd : bs = (ls.zip bs).map Prod.snd := (List.map_snd_zip (by omega)).symm
  have hmem : ∀ x ∈ ls, x ∈ e.locs := by
    intro x hx
    rw [hfst] at hx
    obtain ⟨y, hy, rfl⟩ := List.mem_map.1 hx
    exact List.mem_map_of_mem (hcov y hy)
  have hover : overlap e.locs ls = true := by
    obtain ⟨x, xs, rfl⟩ := List.exists_cons_of_ne_nil hne
    exact List.any_eq_true.2 ⟨x, hmem x List.mem_cons_self, by simp⟩
  have holder : t.olderStores id ls = [e] := by
    rw [Strand.olderStores, hbuf]
    simp [hid, hover]
  have hlost : ∀ x ∈ ls, x.lost = false := by
    intro x hx
    obtain ⟨hstray, hpeer⟩ := hhere x hx
    unfold Loc.lost
    split
    next h => exact absurd h hstray
    next i j h => simpa using hpeer i j h
    next => rfl
  have hall : ls.all (fun l => e.locs.contains l && !l.lost) = true := by
    rw [List.all_eq_true]
    intro x hx
    simp [hmem x hx, hlost x hx]
  have hbytes : ls.map (fun l => (e.byteAt l).getD 0) = bs := by
    conv_rhs => rw [hsnd]
    conv_lhs => rw [hfst]
    rw [List.map_map]
    refine List.map_congr_left fun y hy => ?_
    rw [Function.comp, byteAt_of_mem hnd (hcov y hy)]
    rfl
  unfold Strand.forward
  rw [holder]
  simp only [hop, hfill, hmask, hall, hbytes]
  rfl

/-! ### The event -/

/-- The oldest load is found by its identifier. -/
theorem find?_oldest {t : Strand} {l : PendLoad} {rest : List PendLoad} (hl : t.loads = l :: rest) :
    t.loads.find? (fun x => x.id == l.id) = some l := by
  rw [hl, List.find?_cons_of_pos (by simp)]

/-- A place of the access of which the byte has not been taken is left. -/
theorem left_find {l : PendLoad} {src : Nat} {x : Loc} (hx : l.locs[src]? = some x) (hgot : ∀ y ∈ l.got, y.1 ≠ src) :
    l.left.find? (fun y => y.1 == src) = some (src, x) := by
  obtain ⟨hlt, -⟩ := List.getElem?_eq_some_iff.1 hx
  have hmem : (src, x) ∈ (List.range l.locs.length).zip l.locs :=
    List.mem_of_getElem? (List.getElem?_zip_eq_some.2 ⟨by simp [hlt], hx⟩)
  have hkeys : (((List.range l.locs.length).zip l.locs).map Prod.fst).Nodup := by
    rw [List.map_fst_zip (by simp)]
    exact List.nodup_range
  refine find?_of_nodup ((List.filter_sublist.map Prod.fst).nodup hkeys) (List.mem_filter.2 ⟨hmem, ?_⟩)
  simpa using hgot

section

variable {s : State} {c : Nat} {h : Fin 11} {l : PendLoad} {rest : List PendLoad} (hl : (s.strandAt c h).loads = l :: rest)
  (hrest : ∀ y ∈ rest, l.id < y.id)

include hl hrest

/-- A load that the strand's own store gives its bytes takes them. -/
theorem take_of_forward {ls : List Loc} {bs : List Byte} (hclear : (s.strandAt c h).fenced l.id = false)
    (hforward : (s.strandAt c h).forward l.id ls = .bytes bs) (src : Nat) : s.take c h l src ls = some (bs, s) := by
  unfold State.take
  simp only [hclear, olderLoad_oldest hl hrest, hforward]
  rfl

/-- A load that the buffer gives nothing takes its bytes from the source. -/
theorem take_of_loadBytes (hbuf : (s.strandAt c h).buf = []) {src : Nat} {ls : List Loc} {bs : List Byte} {y : State}
    (hy : s.loadBytes c (s.strandAt c h) l.scope src ls = some (bs, false, y)) (hq : Quiet s y c) (hu : unpaired y c) :
    ∃ x, s.take c h l src ls = some (bs, x) ∧ Quiet s x c := by
  have hforward : (s.strandAt c h).forward l.id ls = .none := by
    unfold Strand.forward
    rw [olderStores_nil hbuf]
  refine ⟨_, ?_, hq.trans (quiet_fillLines y c l.scope src ls)⟩
  unfold State.take
  simp only [fenced_nil hbuf, olderLoad_oldest hl hrest, hforward, hy, Option.map_some, lsError_clean hu]
  rfl

/-- An oldest load that is not `.sc` and names no freed range takes its bytes, or one of them, when it may. -/
theorem exec_loadSatisfied (hsc : l.sc = false) (hfree : ∀ x ∈ l.locs, s.freedRange x = false) (src : Nat) :
    exec (.loadSatisfied c h l.id src) s = runE s (if l.split then
      (l.left.find? (fun x => x.1 == src)).bind fun y => (s.take c h l 0 [y.2]).map fun r => r.2.takeByte c h l y.1 (r.1.headD 0)
      else (s.take c h l src l.locs).map fun r => r.2.finishLoad c h l r.1) := by
  have hplain : s.scLoad c h l.id = false := by
    rw [State.scLoad, hl, List.any_eq_false]
    intro y hy
    rcases List.mem_cons.1 hy with rfl | hy
    · simp [hsc]
    · have := hrest y hy
      simp
      omega
  have hfreed : l.locs.any s.freedRange = false := by
    rw [List.any_eq_false]
    intro x hx
    simp [hfree x hx]
  show runE s (if (s.scLoad c h l.id && !s.scTurn c l.id) = true then none else s.satisfy c h l.id src) = _
  rw [hplain]
  unfold State.satisfy
  rw [find?_oldest hl]
  simp only [hfreed]
  cases l.left.find? (fun x => x.1 == src) <;> rfl

/-- The oldest load with its bytes taken is satisfied by them. -/
theorem happens_of_take (hsc : l.sc = false) (hfree : ∀ x ∈ l.locs, s.freedRange x = false) {src : Nat} {bs : List Byte}
    {x : State} (hsplit : l.split = false) (ht : s.take c h l src l.locs = some (bs, x)) {post : State → Prop}
    (hpost : post (x.finishLoad c h l bs)) : Happens (.loadSatisfied c h l.id src) s post := by
  refine ⟨_, ?_, hpost⟩
  rw [exec_loadSatisfied hl hrest hsc hfree, hsplit, ht]
  rfl

/-- R108: with more bytes to take, a byte joins those that the load has. -/
theorem oneStrand_takeByte {x : State} (hq : Quiet s x c) {j : Nat} {b : Byte} (hlen : l.got.length + 1 < l.locs.length) :
    let t := x.takeByte c h l j b
    OneStrand s t c h ∧ t.mem = s.mem ∧ (t.strandAt c h).loads = { l with got := l.got ++ [(j, b)] } :: rest := by
  let got := l.got ++ [(j, b)]
  let f : Strand → Strand := fun t =>
    { t with loads := t.loads.map (fun x => if x.id = l.id then { x with got := got } else x) }
  have ht : x.takeByte c h l j b = x.modStrandAt c h f := by
    unfold State.takeByte
    simp only [List.length_append, List.length_singleton, if_pos hlen]
    rfl
  have hme : (x.modStrandAt c h f).strandAt c h = f (s.strandAt c h) := by
    rw [State.strandAt_modStrandAt_same, hq.strandAt]
  have hothers : rest.map (fun x => if x.id = l.id then { x with got := got } else x) = rest := by
    refine (List.map_congr_left fun y hy => ?_).trans (List.map_id rest)
    rw [if_neg (by have := hrest y hy; omega)]
    rfl
  intro t
  rw [show t = _ from ht, hme]
  refine ⟨⟨?_, ?_, fun i hi => ?_, fun e he => ?_⟩, hq.mem, ?_⟩
  · rw [hme]
    exact sameRegs_of_eq rfl rfl rfl rfl
  · rw [hme]
  · rw [State.strandAt_modStrandAt_ne x c hi, hq.strandAt]
  · rw [State.core_modStrandAt_ne x he, hq.cores e he]
  · show (s.strandAt c h).loads.map (fun x => if x.id = l.id then { x with got := got } else x) = _
    rw [hl, List.map_cons, if_pos rfl, hothers]

end

/-- A fence with a store before it holds the loads behind it (R33). -/
theorem take_fenced {s : State} {c : Nat} {h : Fin 11} {l : PendLoad} (hf : (s.strandAt c h).fenced l.id = true) (src : Nat)
    (ls : List Loc) : s.take c h l src ls = none := by
  unfold State.take
  simp [hf]

/-- Settles O44. -/
theorem loadsSatisfied : Obligations.LoadsSatisfied := by
  intro s c h l rest d ty src k u hl hrest hsc hdst hty hbits hfree hout hfills hu takes
  have hdone {bs : List Byte} {x : State} (hsplit : l.split = false) (ht : s.take c h l src l.locs = some (bs, x))
      (hq : Quiet s x c) : takes bs :=
    happens_of_take hl hrest hsc hfree hsplit ht (finishLoad_takes hq hl hrest hdst hty bs)
  refine ⟨fun hsplit hbuf hls => ?ls, fun hsplit hbuf x hx hls hbad hgot hlen => ?byte, fun hsplit hbuf hsrc hmem hidle => ?mem,
    fun e bs hsplit hbuf hid hop hmask hlocs hnd hlen hcov hhere => ?own, fun e f hbuf hf he hef hfl => ?fence⟩
  case ls =>
    obtain ⟨y, hy, hq, hpairs⟩ := loadBytes_ls u l.scope src c l.locs s hls hout
    obtain ⟨x, hx, hqx⟩ := take_of_loadBytes hl hrest hbuf hy hq (by unfold unpaired; rw [hpairs]; exact hu)
    exact hdone hsplit hx hqx
  case byte =>
    obtain ⟨y, hy, hq, hpairs⟩ := loadBytes_ls u l.scope 0 c [x] s
      (fun z hz => by rw [List.mem_singleton.1 hz]; exact ⟨hls, hbad⟩)
      (fun o ho z hz => hout o ho z (by rw [List.mem_singleton.1 hz]; exact List.mem_of_getElem? hx))
    obtain ⟨z, hz, hqz⟩ := take_of_loadBytes hl hrest hbuf hy hq (by unfold unpaired; rw [hpairs]; exact hu)
    refine ⟨_, ?_, oneStrand_takeByte hl hrest hqz hlen⟩
    rw [exec_loadSatisfied hl hrest hsc hfree, hsplit, left_find hx hgot, if_pos rfl, Option.bind_some, hz]
    rfl
  case mem =>
    subst hsrc
    obtain ⟨x, hx, hqx⟩ := take_of_loadBytes hl hrest hbuf (loadBytes_mem c u l.scope hidle l.locs hmem) (Quiet.refl s c) hu
    exact hdone hsplit hx hqx
  case own =>
    have hfill : u.unfilled e.id = false := by
      rw [Strand.unfilled, hl, List.any_eq_false]
      intro y hy
      rcases List.mem_cons.1 hy with rfl | hy
      · simp [hdst, LoadDst.entry]
      · simpa using hfills y hy e.id
    have hforward := forward_covering hbuf hid hop hmask hlocs hnd hlen hcov hhere hfill
    exact hdone hsplit (take_of_forward hl hrest (fenced_single hbuf hop l.id) hforward src) (Quiet.refl s c)
  case fence =>
    have hfenced : u.fenced l.id = true := by
      rw [Strand.fenced, hbuf]
      simp [hf, he, hef, hfl, BufEntry.counts]
    show exec _ s = _
    rw [exec_loadSatisfied hl hrest hsc hfree]
    simp only [take_fenced hfenced]
    cases l.left.find? (fun x => x.1 == src) <;> simp

end Sys2Proof.Machine
end

section
/-! PROOFS. Entries of the store buffer drain (R29, R31, R32, R148, R165). -/

namespace Sys2Proof.Machine

open Sys2Proof.Claims

/-! ### What a whole store writes -/

/-- A store of whole bytes, each location once, writes the bytes that stand in it (R29). -/
theorem onto_whole {e : BufEntry} (hmask : e.mask = []) (hnd : (e.bytes.map Prod.fst).Nodup) (rd : Loc → Byte) :
    e.onto rd = e.bytes := by
  rw [BufEntry.onto, BufEntry.locs, List.map_map]
  refine (List.map_congr_left fun y hy => ?_).trans (List.map_id _)
  have hbyte : e.over y.1 (rd y.1) = y.2 := by
    unfold BufEntry.over
    rw [byteAt_of_mem hnd hy, hmask]
    rfl
  exact Prod.ext rfl hbyte

/-- Bytes set one after the other, each address once: they stand there, and no other byte differs. -/
theorem written_memSetAll {bs : List (Nat × Byte)} (hnd : (bs.map Prod.fst).Nodup) (m : Sparse Byte) :
    Written bs m (memSetAll m bs) := by
  refine ⟨?_, fun a ha => memGet_memSetAll_of_not_mem bs m fun x hx he =>
    ha (he ▸ List.mem_map_of_mem (f := Prod.fst) hx)⟩
  induction bs generalizing m with
  | nil => exact fun _ h => absurd h List.not_mem_nil
  | cons b bs ih =>
    rw [List.map_cons, List.nodup_cons] at hnd
    intro y hy
    rcases List.mem_cons.1 hy with rfl | hy
    · have hrest : ∀ x ∈ bs, x.1 ≠ y.1 := fun x hx he => hnd.1 (he ▸ List.mem_map_of_mem (f := Prod.fst) hx)
      rw [memSetAll, memGet_memSetAll_of_not_mem _ _ hrest, memGet_memSet_same]
    · exact ih hnd.2 _ y hy

/-- Places of one kind differ in their addresses. -/
theorem nodup_addr {bs : List (Loc × Byte)} {p : Place} (hnd : (bs.map Prod.fst).Nodup) (hp : ∀ y ∈ bs, y.1.at' = p) :
    ((placed bs).map Prod.fst).Nodup := by
  rw [placed, List.map_map]
  refine List.Nodup.of_map (fun a => (⟨p, a⟩ : Loc)) ?_
  rw [List.map_map]
  refine (List.map_congr_left fun y hy => ?_).symm ▸ hnd
  rw [← hp y hy]
  rfl

/-- What a write of bytes of the own local store leaves (R148): only local store and its errors differ. -/
theorem writeBytes_ls {bs : List (Loc × Byte)} (hls : ∀ y ∈ bs, y.1.at' = .ls) (k : Core) : ∃ wk bd, k.writeBytes bs =
    { k with ls := memSetAll k.ls (placed bs), weak := wk, bad := bd } := by
  have hfold : ∀ k : Core, ∃ wk, bs.foldl (fun k x => k.writeByte x.1 x.2) k =
      { k with ls := memSetAll k.ls (placed bs), weak := wk } := by
    induction bs with
    | nil => exact fun k => ⟨k.weak, rfl⟩
    | cons b bs ih =>
      intro k
      have hbyte : k.writeByte b.1 b.2 =
          { k with ls := memSet k.ls b.1.addr b.2, weak := k.weak.filter (fun x => x.1 != b.1.addr / 8) } := by
        unfold Core.writeByte
        rw [hls b List.mem_cons_self]
      obtain ⟨wk, h⟩ := ih (fun y hy => hls y (List.mem_cons_of_mem _ hy)) (k.writeByte b.1 b.2)
      refine ⟨wk, ?_⟩
      rw [List.foldl_cons, h, hbyte]
      rfl
  obtain ⟨wk, h⟩ := hfold k
  unfold Core.writeBytes
  rw [h]
  exact ⟨wk, _, rfl⟩

theorem ownWrite_unpaired {k : Core} (hp : k.pairOf = none) (bs : List (Loc × Byte)) : k.ownWrite bs = k.writeBytes bs := by
  unfold Core.ownWrite
  rw [hp]
  rfl

/-! ### The oldest entry may drain (R31) -/

section

variable {k : Core} {h : Fin 11} {e : BufEntry} {rest : List BufEntry}

/-- Nothing is older than the oldest entry. -/
theorem older_oldest (hbuf : k.strands[h].buf = e :: rest) (hrest : ∀ x ∈ rest, e.id < x.id) :
    k.strands[h].buf.filter (fun x => decide (x.id < e.id)) = [] := by
  rw [hbuf, List.filter_eq_nil_iff]
  intro x hx
  rcases List.mem_cons.1 hx with rfl | hx
  · simp
  · have := hrest x hx
    simp
    omega

theorem unfilled_false {t : Strand} {id : Nat} (h : ∀ l ∈ t.loads, l.dst.entry ≠ some id) : t.unfilled id = false := by
  rw [Strand.unfilled, List.any_eq_false]
  intro l hl
  simpa using h l hl

/-- With nothing of the core outward every scope is reached. -/
theorem performed_nil (hout : k.outq = []) (sc : Scope) : k.performed h sc = true := by
  unfold Core.performed
  rw [hout]
  cases sc <;> rfl

/-- The oldest entry drains, a release once no load is pending and nothing is outward (R31, R225). -/
theorem canDrain_oldest (hbuf : k.strands[h].buf = e :: rest) (hrest : ∀ x ∈ rest, e.id < x.id)
    (hfill : ∀ l ∈ k.strands[h].loads, l.dst.entry ≠ some e.id)
    (hrel : e.rel = true → k.strands[h].loads = [] ∧ k.outq = []) : k.canDrain h e = true := by
  have hatom (hout : k.outq = []) : k.atomicBefore h e.id = false := by
    have hmine : k.strands[h].buf.any (fun x => x.isAtomic && decide (x.id < e.id)) = false := by
      rw [List.any_eq_false]
      intro x hx hlt
      have hmem : x ∈ k.strands[h].buf.filter (fun x => decide (x.id < e.id)) :=
        List.mem_filter.2 ⟨hx, (Bool.and_eq_true_iff.1 hlt).2⟩
      rw [older_oldest hbuf hrest] at hmem
      exact absurd hmem List.not_mem_nil
    rw [Core.atomicBefore, hmine, hout]
    rfl
  unfold Core.canDrain
  dsimp only
  rw [older_oldest hbuf hrest, unfilled_false hfill]
  cases hr : e.rel with
  | false => rfl
  | true =>
    obtain ⟨hloads, hout⟩ := hrel hr
    rw [hloads, hatom hout, performed_nil hout]
    rfl

/-- A release behind an older load waits (R31). -/
theorem canDrain_load (hrel : e.rel = true) (hl : ∃ l ∈ k.strands[h].loads, l.id < e.id) : k.canDrain h e = false := by
  obtain ⟨l, hl, hlt⟩ := hl
  have hloads : k.strands[h].loads.all (fun l => decide (e.id < l.id)) = false := by
    rw [List.all_eq_false]
    exact ⟨l, hl, by simp; omega⟩
  simp only [Core.canDrain, hloads, hrel, Bool.and_false, Bool.false_and, Bool.not_true, Bool.or_false]

/-- A release waits for what its strand has sent outward (R31, R225). -/
theorem canDrain_outward (hrel : e.rel = true) (ho : ∃ o ∈ k.outq, o.strand = h ∧ notYetAt o e.scope) :
    k.canDrain h e = false := by
  obtain ⟨o, hmem, hmine, hnot⟩ := ho
  have hin : o ∈ k.outq.filter (fun o => o.strand == h) := List.mem_filter.2 ⟨hmem, by simpa using hmine⟩
  have hstage (h0 : o.stage = 0) : (o.stage != 0) = false := by simp [h0]
  have hhere (hn : o.stage = 0 ∨ ∀ x ∈ o.e.locs, ∀ m, x.at' ≠ .remote m) :
      (o.stage != 0 && o.e.locs.any Loc.isRemote) = false := by
    rcases hn with h0 | hloc
    · rw [hstage h0, Bool.false_and]
    · have hany : o.e.locs.any Loc.isRemote = false := by
        rw [List.any_eq_false]
        intro x hx
        unfold Loc.isRemote
        split
        next m hm => exact absurd hm (hloc x hx m)
        next => nofun
      rw [hany, Bool.and_false]
  have hwait : k.performed h e.scope = false := by
    unfold Core.performed
    generalize e.scope = sc at hnot
    cases sc with
    | str | core => exact hnot.elim
    | clu => exact List.all_eq_false.2 ⟨o, hin, by simp [hstage hnot]⟩
    | die | mod => exact List.all_eq_false.2 ⟨o, hin, by simp only [hhere hnot]; nofun⟩
    | chm => exact List.isEmpty_eq_false_iff.2 (List.ne_nil_of_mem hin)
  simp [Core.canDrain, hwait, hrel]

/-- Nothing overtakes a release (R31). -/
theorem canDrain_behind {x : BufEntry} (he : e ∈ k.strands[h].buf) (hrel : e.rel = true) (hlt : e.id < x.id) :
    k.canDrain h x = false := by
  have hall : (k.strands[h].buf.filter (fun y => decide (y.id < x.id))).all (fun y => !y.rel && !overlap y.locs x.locs) =
      false :=
    List.all_eq_false.2 ⟨e, List.mem_filter.2 ⟨he, by simpa using hlt⟩, by simp [hrel]⟩
  unfold Core.canDrain
  dsimp only
  rw [hall]
  rfl

end

/-- An entry that may not drain stays. -/
theorem sleeps_of_blocked {s : State} {c : Nat} {h : Fin 11} {id : Nat}
    (hb : ∀ y ∈ (s.strandAt c h).buf, y.id = id → (s.core c).canDrain h y = false) : Sleeps (.storeDrain c h id) s := by
  have hnone : s.drain c h id = none := by
    unfold State.drain
    dsimp only
    cases hf : (s.core c).strands[h].buf.find? (fun e => e.id == id) with
    | none => rfl
    | some e =>
      have hno := hb e (List.mem_of_find?_eq_some hf) (by simpa using List.find?_some hf)
      simp [hno]
  show runE s (s.drain c h id) = _
  rw [hnone, runE_none]

/-! ### The entry leaves the buffer -/

/-- The oldest entry of the strand leaves its buffer. -/
def State.popBuf (s : State) (c : Nat) (h : Fin 11) (id : Nat) : State :=
  s.modStrandAt c h (fun t => { t with buf := t.buf.filter (fun x => x.id != id) })

/-- Of the state only strand `h` of core `c` may differ, and it only in that its buffer is `rest`. -/
def Popped (s t : State) (c : Nat) (h : Fin 11) (rest : List BufEntry) : Prop :=
  OneStrand s t c h ∧ (t.strandAt c h).buf = rest ∧ t.mem = s.mem

section

variable {s : State} {c : Nat} {h : Fin 11} {e : BufEntry} {rest : List BufEntry} (hbuf : (s.strandAt c h).buf = e :: rest)
  (hrest : ∀ x ∈ rest, e.id < x.id)

include hbuf hrest

theorem popped_popBuf : Popped s (s.popBuf c h e.id) c h rest := by
  have hothers : (e :: rest).filter (fun y => y.id != e.id) = rest := by
    rw [List.filter_cons_of_neg (by simp), List.filter_eq_self]
    intro y hy
    have := hrest y hy
    simp
    omega
  have hme : (s.popBuf c h e.id).strandAt c h = { s.strandAt c h with buf := rest } := by
    rw [State.popBuf, State.strandAt_modStrandAt_same, hbuf, hothers]
  refine ⟨⟨?_, ?_, fun j hj => State.strandAt_modStrandAt_ne s c hj _, fun i hi => State.core_modStrandAt_ne s hi h _⟩, ?_, rfl⟩
  · rw [hme]
    exact sameRegs_of_eq rfl rfl rfl rfl
  · rw [hme]
  · rw [hme]

end

/-- Of the core whose strand loses an entry only the strands differ. -/
theorem core_popBuf (s : State) (c : Nat) (h : Fin 11) (id : Nat) :
    ∃ st, (s.popBuf c h id).core c = { s.core c with strands := st } := ⟨_, s.core_modStrandAt_same c h _⟩

/-- What follows the entry's leaving touches neither strands nor memory. -/
theorem Popped.quiet {s t u : State} {c : Nat} {h : Fin 11} {rest : List BufEntry} (hp : Popped s t c h rest)
    (hq : Quiet t u c) : Popped s u c h rest := by
  obtain ⟨⟨hregs, hpc, hothers, hcores⟩, hbuf, hmem⟩ := hp
  unfold Popped OneStrand
  rw [hq.strandAt, hq.mem]
  exact ⟨⟨hregs, hpc, fun j hj => (hq.strandAt j).trans (hothers j hj), fun e he => (hq.cores e he).trans (hcores e he)⟩,
    hbuf, hmem⟩

theorem quiet_modCore (s : State) {c : Nat} {f : Core → Core} (hf : ∀ k, (f k).strands = k.strands) :
    Quiet s (s.modCore c f) c := quiet_setCore s (hf _)

section

variable {s : State} {c : Nat} {h : Fin 11} {e : BufEntry} {rest : List BufEntry} (hbuf : (s.strandAt c h).buf = e :: rest)
  (hcan : (s.core c).canDrain h e = true)

include hbuf hcan

/-- The oldest entry is found, and may drain. -/
theorem drain_start : (s.core c).strands[h].buf.find? (fun x => x.id == e.id) = some e ∧
    (!(s.core c).canDrain h e) = false := by
  refine ⟨?_, by rw [hcan]; rfl⟩
  rw [show (s.core c).strands[h].buf = e :: rest from hbuf, List.find?_cons_of_pos (by simp)]

/-- R29, R148: a store to the own local store takes place. -/
theorem drain_local (hop : e.op = .store) (hlocal : e.isLocal = true) : exec (.storeDrain c h e.id) s =
    .next ((s.popBuf c h e.id).modCore c (fun k => k.ownWrite (e.onto (fun l => memGet k.ls l.addr)))) := by
  obtain ⟨hfind, hmay⟩ := drain_start hbuf hcan
  show runE s (s.drain c h e.id) = _
  unfold State.drain
  simp only [hfind, hmay, hop, hlocal]
  rfl

/-- R31, R165: a store elsewhere that has no elements of a stream and is not `.sc` leaves the core outward. -/
theorem drain_outward (hop : e.op = .store) (hlocal : e.isLocal = false) (hel : e.el = 0) (hsc : e.sc = false)
    (hpairs : s.pairs = []) : exec (.storeDrain c h e.id) s =
      .next (((s.popBuf c h e.id).modCore c (fun k => k.updatePdc e)).outward c h false true e [e.bytes]) := by
  obtain ⟨hfind, hmay⟩ := drain_start hbuf hcan
  have hheld : s.holdsStores c = false := by
    rw [State.holdsStores, hpairs]
    rfl
  show runE s (s.drain c h e.id) = _
  unfold State.drain
  simp only [hfind, hmay, hop, hlocal, hel, hsc, hheld, Bool.false_eq_true, if_false, if_true]
  rfl

/-- R31, R165: a request that is not `.sc` leaves the core outward. -/
theorem drain_request (hcoll : ∀ n, e.op ≠ .coll n) (hfence : ∀ b, e.op ≠ .fence b) (hstore : e.op ≠ .store)
    (hsc : e.sc = false) : exec (.storeDrain c h e.id) s = .next ((s.popBuf c h e.id).modCore c (fun k =>
      { k with outq := k.outq ++ [{ strand := h, e := e, task := (s.core c).task, ctx := (s.core c).ctx }] })) := by
  obtain ⟨hfind, hmay⟩ := drain_start hbuf hcan
  show runE s (s.drain c h e.id) = _
  unfold State.drain
  simp only [hfind, hmay, hsc, Bool.false_eq_true, if_false]
  rfl

/-- R33: a fence only leaves the buffer. -/
theorem drain_fence {b : Bool} (hop : e.op = .fence b) :
    exec (.storeDrain c h e.id) s = .next (s.popBuf c h e.id) := by
  obtain ⟨hfind, hmay⟩ := drain_start hbuf hcan
  show runE s (s.drain c h e.id) = _
  unfold State.drain
  simp only [hfind, hmay, hop]
  rfl

end

/-- One store of whole bytes goes outward behind those that have. -/
theorem outward_single (s : State) (c : Nat) (h : Fin 11) {e : BufEntry} (hel : e.el = 0) : s.outward c h false true e [e.bytes] =
    s.fresh.modCore c (fun k =>
      { k with outq := k.outq ++ [{ strand := h, e := e, task := (s.core c).task, ctx := (s.core c).ctx }] }) := by
  have he : ({ e with id := if e.el = 0 then e.id else s.nextId, bytes := e.bytes } : BufEntry) = e := by rw [if_pos hel]
  simp only [State.outward, he]

theorem storesDrainRule_holds : storesDrainRule := by
  intro s c h e rest k u hbuf hrest hfill hpairs hpair left
  have hpop := popped_popBuf hbuf hrest
  obtain ⟨st, hcore⟩ := core_popBuf s c h e.id
  have honly : ∀ y ∈ u.buf, y.id = e.id → y = e := by
    intro y hy hid
    rw [hbuf] at hy
    rcases List.mem_cons.1 hy with rfl | hy
    · rfl
    · have := hrest y hy
      omega
  refine ⟨fun hrel => ?drains, fun hrel hl => ?load, fun hrel ho => ?outward, fun x hx hrel _ => ?behind⟩
  case load => exact sleeps_of_blocked fun y hy hid => honly y hy hid ▸ canDrain_load hrel hl
  case outward => exact sleeps_of_blocked fun y hy hid => honly y hy hid ▸ canDrain_outward hrel ho
  case behind =>
    refine sleeps_of_blocked fun y _ hid => canDrain_behind (e := e) ?_ hrel (hid ▸ hrest x hx)
    show e ∈ u.buf
    rw [hbuf]
    exact List.mem_cons_self
  case drains =>
    have hcan : k.canDrain h e = true := canDrain_oldest hbuf hrest hfill hrel
    refine ⟨fun hop hmask hnd hloc hls => ?here, fun hop hel hsc hne hmem => ?memory,
      fun hcoll hfence hstore hsc => ?request, fun b hop => ?fence⟩
    case here =>
      have hlocal : e.isLocal = true := by
        rw [BufEntry.isLocal, hop, Bool.and_eq_true, List.all_eq_true]
        exact ⟨rfl, fun y hy => by simp [hls y hy]⟩
      obtain ⟨wk, bd, hwrite⟩ := writeBytes_ls hls { k with strands := st }
      have hafter : ((s.popBuf c h e.id).core c).ownWrite (e.onto fun l => memGet ((s.popBuf c h e.id).core c).ls l.addr) =
          { k with strands := st, ls := memSetAll k.ls (placed e.bytes), weak := wk, bad := bd } := by
        rw [onto_whole hmask hloc, ownWrite_unpaired (by rw [hcore]; exact hpair), hcore]
        exact hwrite
      refine ⟨_, drain_local hbuf hcan hop hlocal, hpop.quiet (quiet_setCore _ ?_), ?_⟩
      · exact Eq.trans (congrArg Core.strands hafter) (congrArg Core.strands hcore).symm
      · rw [State.core_modCore_same, hafter]
        exact ⟨written_memSetAll (nodup_addr hloc hls) k.ls, rfl⟩
    case memory =>
      have hlocal : e.isLocal = false := by
        obtain ⟨y, ys, hy⟩ := List.exists_cons_of_ne_nil hne
        obtain ⟨p, hp⟩ := hmem y (hy ▸ List.mem_cons_self)
        rw [BufEntry.isLocal, hop, hy]
        simp [hp]
      let x := (s.popBuf c h e.id).modCore c (fun k => k.updatePdc e)
      have hx : x.core c = Core.updatePdc { k with strands := st } e := by rw [State.core_modCore_same, hcore]
      have hfresh : Quiet x x.fresh c := ⟨rfl, fun _ _ => rfl, rfl, Nat.le_succ _⟩
      refine ⟨_, (drain_outward hbuf hcan hop hlocal hel hsc hpairs).trans (congrArg _ (outward_single x c h hel)), ?_⟩
      have hpdc : Quiet (s.popBuf c h e.id) x c := quiet_modCore _ (f := fun k => k.updatePdc e) fun _ => rfl
      refine ⟨hpop.quiet (hpdc.trans (hfresh.trans (quiet_setCore _ rfl))), ?_⟩
      rw [State.core_modCore_same, show x.fresh.core c = x.core c from rfl, hx]
      exact ⟨rfl, rfl⟩
    case request =>
      refine ⟨_, drain_request hbuf hcan hcoll hfence hstore hsc, hpop.quiet (quiet_modCore _ fun _ => rfl), ?_⟩
      rw [State.core_modCore_same, hcore]
      exact ⟨rfl, rfl⟩
    case fence =>
      refine ⟨_, drain_fence hbuf hcan hop, hpop, ?_⟩
      rw [hcore]
      exact ⟨rfl, rfl⟩

end Sys2Proof.Machine
end

section
/-! PROOFS. Outward stores are performed at the cluster's point and at their home, and appends at their list (R202, R224,
R255, R291). -/

namespace Sys2Proof.Machine

open Sys2Proof.Claims

/-! ### The only entry that is outward -/

section

variable {s : State} {c : Nat} {o : OutEntry} (hout : (s.core c).outq = [o])

include hout

theorem outEntry_only (hheld : o.held = false) (hgo : o.go = true) : s.outEntry c o.e.id = some o := by
  rw [State.outEntry, hout, List.find?_cons_of_pos (by simp [hheld, hgo])]

theorem firstOut_only (hstage : o.stage = 0) : (s.core c).firstOut o.e.id = true := by
  unfold Core.firstOut
  simp [hout, hstage]

/-- No store to the same home is older. -/
theorem olderSameHome_only : s.olderSameHome c o = false := by
  rw [State.olderSameHome, hout, List.takeWhile_cons_of_neg (by simp)]
  rfl

end

/-- With no armed error the use of a line changes nothing (R239). -/
theorem lineUse_none {s : State} {u : Nat} (h : (s.cluster u).inject.getLsbD 63 = false) (l : Loc) : s.lineUse u l = none := by
  have hbit : bitAt (s.cluster u).inject.toNat 63 = false := (bitAt_eq_testBit ..).trans h
  unfold State.lineUse
  simp [hbit]

/-- A store to memory that may be performed takes its next stage. -/
theorem exec_storePerformed {s : State} {c : Nat} {o : OutEntry} (hentry : s.outEntry c o.e.id = some o) (hop : o.e.op = .store)
    {x : Loc × Byte} {xs : List (Loc × Byte)} (hbytes : o.e.bytes = x :: xs) {p : Home} (hp : x.1.at' = .mem p) :
    exec (.storePerformed c o.e.id) s = runE s (s.perform c o) := by
  have hfirst : o.first = some ⟨.mem p, x.1.addr⟩ := by
    rw [OutEntry.first, BufEntry.locs, hbytes, ← hp]
    rfl
  show runE s (s.storeStep c o.e.id) = _
  unfold State.storeStep
  simp only [hentry, hop, hfirst]

section

variable {s : State} {c : Nat} {o : OutEntry} (hout : (s.core c).outq = [o])
  (hquiet : (s.cluster (c / 36)).inject.getLsbD 63 = false) {x : Loc × Byte} {xs : List (Loc × Byte)}
  (hbytes : o.e.bytes = x :: xs)

include hout hbytes

/-- R224: a store whose home is the own cluster is performed there. -/
theorem perform_own (hquiet : (s.cluster (c / 36)).inject.getLsbD 63 = false) (hstage : o.stage = 0)
    (hp : x.1.at' = .mem (.cluster (c / 36))) :
    s.perform c o = some ((s.writeMem (o.e.onto (fun l => memGet s.mem l.addr))).dropOut c o.e.id) := by
  have huse : s.lineUse (c / 36) x.1 = none := lineUse_none hquiet x.1
  unfold State.perform
  simp only [hbytes, hp, hstage, huse, Option.getD_none, firstOut_only hout hstage, cluOf, if_true, Bool.not_true,
    Bool.false_eq_true, if_false]

/-- R224: a store whose home is a hub reaches the cluster's point first. -/
theorem perform_point (hquiet : (s.cluster (c / 36)).inject.getLsbD 63 = false) (hstage : o.stage = 0)
    (hp : x.1.at' = .mem .hub) : s.perform c o = some ((s.cacheWrite (c / 36) o.e).stageOut c o.e.id) := by
  have huse : s.lineUse (cluOf c) x.1 = none := lineUse_none hquiet x.1
  unfold State.perform
  simp only [hbytes, hp, hstage, huse, Option.getD_none, firstOut_only hout hstage]
  rfl

/-- R224, R291: then its home, where no store to the same bytes is before it. -/
theorem perform_home (hstage : o.stage = 1) (hp : x.1.at' = .mem .hub) (hbehind : s.behind c o = false) :
    s.perform c o = some ((s.writeMem (o.e.onto (fun l => memGet s.mem l.addr))).dropOut c o.e.id) := by
  unfold State.perform
  simp only [hbytes, hp, hstage, olderSameHome_only hout, hbehind]
  rfl

end

/-! ### What the strands, the other cores and local store see of it -/

/-- No register or PC of the core's strands, no byte of its local store and no other core differs. -/
def Unseen (s t : State) (c : Nat) : Prop :=
  (∀ h, SameRegs (s.strandAt c h) (t.strandAt c h) ∧ (t.strandAt c h).pc = (s.strandAt c h).pc) ∧
    (t.core c).ls = (s.core c).ls ∧ ∀ e, e ≠ c → t.core e = s.core e

/-- What the departure of entry `id` makes of its core. -/
def Core.without (k : Core) (id : Nat) : Core :=
  { k with
    outq := k.outq.filter (fun o => o.e.id != id)
    strands := k.strands.map (fun t => { t with gates := t.gates.filter (fun x => x != id) }) }

theorem core_dropOut (s : State) (c id : Nat) : (s.dropOut c id).core c = (s.core c).without id := s.core_modCore_same c _

theorem core_dropOut_ne (s : State) {c e : Nat} (he : e ≠ c) (id : Nat) : (s.dropOut c id).core e = s.core e :=
  s.core_modCore_ne he _

theorem strandAt_dropOut (s : State) (c id : Nat) (h : Fin 11) : (s.dropOut c id).strandAt c h =
    { s.strandAt c h with gates := (s.strandAt c h).gates.filter (fun x => x != id) } := by
  rw [State.strandAt, core_dropOut]
  simp [Core.without, State.strandAt]

/-- An entry that leaves is seen by no strand but for its gates. -/
theorem unseen_dropOut {s u : State} {c : Nat} (hu : u.cores = s.cores) (id : Nat) : Unseen s (u.dropOut c id) c := by
  have hcore (e : Nat) : u.core e = s.core e := by rw [State.core, hu, State.core]
  refine ⟨fun h => ?_, ?_, fun e he => (core_dropOut_ne u he id).trans (hcore e)⟩
  · have hsame : u.strandAt c h = s.strandAt c h := by rw [State.strandAt, hcore, State.strandAt]
    rw [strandAt_dropOut, hsame]
    exact ⟨sameRegs_of_eq rfl rfl rfl rfl, rfl⟩
  · rw [core_dropOut, hcore]
    rfl

theorem outq_dropOut {s : State} {c : Nat} {o : OutEntry} (hout : (s.core c).outq = [o]) :
    ((s.dropOut c o.e.id).core c).outq = [] := by
  rw [core_dropOut, Core.without, hout]
  simp

/-- R290: a whole store is written at the home of memory. -/
theorem happens_home {s : State} {c : Nat} {o : OutEntry} (hout : (s.core c).outq = [o])
    (hexec : exec (.storePerformed c o.e.id) s =
      .next ((s.writeMem (o.e.onto (fun l => memGet s.mem l.addr))).dropOut c o.e.id))
    (hmask : o.e.mask = []) (hnd : (o.e.bytes.map Prod.fst).Nodup) {p : Place} (hp : ∀ y ∈ o.e.bytes, y.1.at' = p) :
    Happens (.storePerformed c o.e.id) s (fun t => Unseen s t c ∧ (t.core c).outq = [] ∧
      Written (placed o.e.bytes) s.mem t.mem) := by
  refine ⟨_, hexec, unseen_dropOut rfl _, outq_dropOut (s := s.writeMem _) hout, ?_⟩
  rw [onto_whole hmask hnd]
  exact written_memSetAll (nodup_addr hnd hp) s.mem

/-! ### The line of the cluster cache (R224) -/

theorem length_setAt {α : Type} (xs : List α) (n : Nat) (v : α) : (setAt xs n v).length = xs.length := by
  induction xs generalizing n with
  | nil => rfl
  | cons x xs ih => cases n <;> simp [setAt, ih]

theorem setAt_same {α : Type} {xs : List α} {n : Nat} (h : n < xs.length) (v : α) : (setAt xs n v)[n]? = some v := by
  induction xs generalizing n with
  | nil => exact absurd h (Nat.not_lt_zero _)
  | cons x xs ih =>
    cases n with
    | zero => rfl
    | succ n => simpa [setAt] using ih (by simpa using h)

theorem setAt_ne {α : Type} (xs : List α) {n m : Nat} (h : m ≠ n) (v : α) : (setAt xs n v)[m]? = xs[m]? := by
  induction xs generalizing n m with
  | nil => rfl
  | cons x xs ih =>
    cases n with
    | zero =>
      cases m with
      | zero => exact absurd rfl h
      | succ m => rfl
    | succ n =>
      cases m with
      | zero => rfl
      | succ m => exact ih fun e => h (congrArg Nat.succ e)

theorem length_sput_le {α : Type} (m : Sparse α) (k : Nat) (v : α) : (sput m k v).length ≤ m.length + 1 := by
  induction m with
  | nil => simp [sput]
  | cons x m ih =>
    unfold sput
    split
    · simp
    split
    · simp
    · simpa using ih

/-- A cache that holds a byte of a store: the line is there with the byte. -/
def Holds (cache : Sparse Line) (y : Loc × Byte) : Prop :=
  ∃ x, sfind cache (y.1.addr / 64) = some x ∧ x.data[y.1.addr % 64]? = some y.2

/-- The line that a store's byte joins: the one that the cache holds, or that of the cluster's point. -/
def State.lineAt (s : State) (u : Nat) (l : Loc) : Line :=
  (sfind (s.cluster u).cache (lineOf l.addr)).getD ⟨s.nextId, s.clusterLine u l⟩

/-- One byte of a store joins the cluster's cache. -/
def State.cacheByte (u : Nat) (s : State) (y : Loc × Byte) : State :=
  let line : Line := ⟨(s.lineAt u y.1).stamp, setAt (s.lineAt u y.1).data (y.1.addr % 64) y.2⟩
  s.modCluster u (fun k => { k with cache := putLine cacheLines k.cache (lineOf y.1.addr) line })

/-- A store of whole bytes joins the cluster's cache byte by byte. -/
theorem cacheWrite_whole {e : BufEntry} (hmask : e.mask = []) (hnd : (e.bytes.map Prod.fst).Nodup) (s : State) (u : Nat) :
    s.cacheWrite u e = e.bytes.foldl (State.cacheByte u) s := by
  unfold State.cacheWrite
  rw [BufEntry.locs, List.foldl_map]
  refine List.foldl_ext _ _ _ fun s y hy => ?_
  have hover (b : Byte) : e.over y.1 b = y.2 := by
    unfold BufEntry.over
    rw [byteAt_of_mem hnd hy, hmask]
    rfl
  simp only [hover]
  rfl

/-- Every line of a cache has its 64 bytes. -/
def WholeLines (cache : Sparse Line) : Prop := ∀ n x, sfind cache n = some x → x.data.length = 64

/-- With room in the cache a byte joins its line, and no line is given up. -/
theorem cache_cacheByte {s : State} {u : Nat} {y : Loc × Byte} (hroom : (s.cluster u).cache.length < cacheLines) :
    ((s.cacheByte u y).cluster u).cache = sput (s.cluster u).cache (lineOf y.1.addr)
    ⟨(s.lineAt u y.1).stamp, setAt (s.lineAt u y.1).data (y.1.addr % 64) y.2⟩ := by
  rw [State.cacheByte, State.cluster_modCluster_same]
  simp [putLine, roomFor, hroom]

/-- The bytes of other addresses that the cache holds stand. -/
theorem holds_cacheByte_ne {s : State} {u : Nat} {y z : Loc × Byte} (hroom : (s.cluster u).cache.length < cacheLines)
    (hz : Holds (s.cluster u).cache z) (hne : z.1.addr ≠ y.1.addr) :
    Holds ((s.cacheByte u y).cluster u).cache z := by
  obtain ⟨x, hx, hbyte⟩ := hz
  rw [Holds, cache_cacheByte hroom]
  by_cases hline : z.1.addr / 64 = lineOf y.1.addr
  · have hat : s.lineAt u y.1 = x := by
      rw [State.lineAt, ← hline, hx]
      rfl
    refine ⟨_, by rw [hline]; exact sfind_sput_same .., ?_⟩
    have hoff : z.1.addr % 64 ≠ y.1.addr % 64 := by
      unfold lineOf at hline
      omega
    rw [setAt_ne _ hoff, hat]
    exact hbyte
  · exact ⟨x, (sfind_sput_ne _ hline _).trans hx, hbyte⟩

section

variable {s : State} {u : Nat} {y : Loc × Byte} (hroom : (s.cluster u).cache.length < cacheLines)
  (hwhole : WholeLines (s.cluster u).cache)

include hwhole

theorem length_lineAt (l : Loc) : (s.lineAt u l).data.length = 64 := by
  unfold State.lineAt
  cases hf : sfind (s.cluster u).cache (lineOf l.addr) with
  | none => simp [State.clusterLine, lineData]
  | some x => exact hwhole _ x hf

include hroom

theorem wholeLines_cacheByte : WholeLines ((s.cacheByte u y).cluster u).cache := by
  intro n x hx
  rw [cache_cacheByte hroom] at hx
  by_cases hn : n = lineOf y.1.addr
  · rw [hn, sfind_sput_same] at hx
    rw [← Option.some.inj hx]
    exact (length_setAt ..).trans (length_lineAt hwhole y.1)
  · rw [sfind_sput_ne _ hn] at hx
    exact hwhole n x hx

/-- The byte stands in its line. -/
theorem holds_cacheByte_same : Holds ((s.cacheByte u y).cluster u).cache y := by
  refine ⟨_, by rw [cache_cacheByte hroom]; exact sfind_sput_same _ (lineOf y.1.addr) _, setAt_same ?_ y.2⟩
  rw [length_lineAt hwhole]
  omega

end

/-- Bytes of different addresses, for which the cache has room, all stand in it. -/
theorem holds_foldl_cacheByte (u : Nat) (bs : List (Loc × Byte)) : ∀ s : State,
    (s.cluster u).cache.length + bs.length ≤ cacheLines → WholeLines (s.cluster u).cache →
    (bs.map (fun y => y.1.addr)).Nodup →
    (∀ y ∈ bs, Holds ((bs.foldl (State.cacheByte u) s).cluster u).cache y) ∧
      ∀ z, Holds (s.cluster u).cache z → z.1.addr ∉ bs.map (fun y => y.1.addr) →
        Holds ((bs.foldl (State.cacheByte u) s).cluster u).cache z := by
  induction bs with
  | nil => exact fun s _ _ _ => ⟨fun _ h => absurd h List.not_mem_nil, fun z hz _ => hz⟩
  | cons y bs ih =>
    intro s hroom hwhole hnd
    rw [List.length_cons] at hroom
    rw [List.map_cons, List.nodup_cons] at hnd
    have hroom' : (s.cluster u).cache.length < cacheLines := by omega
    have hlen := length_sput_le (s.cluster u).cache (lineOf y.1.addr)
      ⟨(s.lineAt u y.1).stamp, setAt (s.lineAt u y.1).data (y.1.addr % 64) y.2⟩
    rw [← cache_cacheByte hroom'] at hlen
    obtain ⟨hin, hkept⟩ := ih (s.cacheByte u y) (by omega) (wholeLines_cacheByte hroom' hwhole) hnd.2
    refine ⟨fun z hz => ?_, fun z hz hnot => ?_⟩
    · rcases List.mem_cons.1 hz with rfl | hz
      · exact hkept z (holds_cacheByte_same hroom' hwhole) hnd.1
      · exact hin z hz
    · rw [List.map_cons, List.mem_cons, not_or] at hnot
      exact hkept z (holds_cacheByte_ne hroom' hz hnot.1) hnot.2

/-- Lines that join a cluster's cache touch nothing else. -/
theorem foldl_cacheByte_rest (u : Nat) (bs : List (Loc × Byte)) : ∀ s : State,
    (bs.foldl (State.cacheByte u) s).cores = s.cores ∧ (bs.foldl (State.cacheByte u) s).mem = s.mem ∧
      (bs.foldl (State.cacheByte u) s).nextId = s.nextId := by
  induction bs with
  | nil => exact fun _ => ⟨rfl, rfl, rfl⟩
  | cons y bs ih => exact fun s => ih (s.cacheByte u y)

theorem core_stageOut (s : State) (c id : Nat) : (s.stageOut c id).core c = { s.core c with
    outq := (s.core c).outq.map (fun o => if o.e.id = id then { o with stage := 1, turn := s.nextId } else o) } :=
  s.fresh.core_modCore_same c _

theorem core_stageOut_ne (s : State) {c e : Nat} (he : e ≠ c) (id : Nat) : (s.stageOut c id).core e = s.core e :=
  s.fresh.core_modCore_ne he _

/-- R224: a whole store to a hub's memory stands in the cluster's line, and waits for its home. -/
theorem happens_point {s : State} {c : Nat} {o : OutEntry} (hout : (s.core c).outq = [o])
    (hexec : exec (.storePerformed c o.e.id) s = .next ((s.cacheWrite (c / 36) o.e).stageOut c o.e.id))
    (hmask : o.e.mask = []) (hlen : o.e.bytes.length ≤ 64) (hnd : (o.e.bytes.map Prod.fst).Nodup) {p : Place}
    (hp : ∀ y ∈ o.e.bytes, y.1.at' = p) :
    Happens (.storePerformed c o.e.id) s (fun t => Unseen s t c ∧
      (t.core c).outq = [{ o with stage := 1, turn := s.nextId }] ∧ t.mem = s.mem ∧
      ((s.cluster (c / 36)).cache = [] → ∀ y ∈ o.e.bytes, Holds (t.cluster (c / 36)).cache y)) := by
  obtain ⟨hcores, hmem, hid⟩ := foldl_cacheByte_rest (c / 36) o.e.bytes s
  have hholds := holds_foldl_cacheByte (c / 36) o.e.bytes s
  rw [cacheWrite_whole hmask hnd] at hexec
  generalize o.e.bytes.foldl (State.cacheByte (c / 36)) s = x at hexec hcores hmem hid hholds
  have hcore (e : Nat) : x.core e = s.core e := by rw [State.core, hcores, State.core]
  refine ⟨_, hexec, ⟨fun h => ?_, ?_, fun e he => (core_stageOut_ne x he _).trans (hcore e)⟩, ?_, hmem, fun hempty y hy => ?_⟩
  · have hsame : (x.stageOut c o.e.id).strandAt c h = s.strandAt c h := by
      rw [State.strandAt, core_stageOut, hcore, State.strandAt]
    rw [hsame]
    exact ⟨sameRegs_refl _, rfl⟩
  · rw [core_stageOut, hcore]
  · rw [core_stageOut, hcore, hout, hid]
    simp
  · refine (hholds ?_ ?_ ?_).1 y hy
    · rw [hempty]
      exact Nat.le_trans (by simpa using hlen) (by decide)
    · rw [hempty]
      exact fun _ _ h => absurd h nofun
    · have h := nodup_addr hnd hp
      rwa [placed, List.map_map] at h

/-! ### Appends to a work list (R255) -/

/-- The reply to an access whose register waits for it is written there (R22). -/
theorem rg_takeReply {t : Strand} {id : Nat} {d : Fin 32} (hd : d ≠ 0) (hpend : (id, RegName.g d) ∈ t.pend) (scope : Scope)
    (now : Nat) (x : Word) : (t.takeReply id d scope now x).rg d = x := by
  have hwaits : (t.pending (.g d) && t.pend.any (fun y => y.1 == id)) = true := by
    rw [Bool.and_eq_true, Strand.pending, List.any_eq_true, List.any_eq_true]
    exact ⟨⟨_, hpend, by simp⟩, ⟨_, hpend, by simp⟩⟩
  have hvoid (u : Strand) : (u.void scope now).g = u.g := by rw [Strand.void_eq]
  have hg : (t.takeReply id d scope now x).g = (t.wg d x).g := by
    unfold Strand.takeReply
    rw [if_pos hwaits]
    dsimp only
    obtain ⟨b, hb⟩ := release_eq (if (t.wg d x).gates.contains id then (t.wg d x).void scope now else t.wg d x) id
    rw [hb]
    split
    · exact hvoid _
    · rfl
  have hsame : (t.takeReply id d scope now x).rg d = (t.wg d x).rg d := by rw [Strand.rg, Strand.rg, hg]
  rw [hsame, Strand.rg_wg_same t hd]

/-- A reply touches its strand alone. -/
theorem core_reply (s : State) (c : Nat) (h : Fin 11) (id : Nat) (d : Fin 32) (scope : Scope) (x : Word) :
    (s.reply c h id d scope x).core c =
      { s.core c with strands := (s.core c).strands.set h ((s.core c).strands[h].takeReply id d scope s.nextId x) } :=
  s.fresh.core_modCore_same c fun k =>
    { k with strands := k.strands.set h (k.strands[h].takeReply id d scope s.nextId x) }

/-- A byte outside the area that the module writes reads as before (R244). -/
theorem memGet_writeArea (s : State) (ctx va n : Nat) {a : Nat} (ha : outsideArea s ctx va n a) :
    memGet (s.writeArea ctx va n).mem a = memGet s.mem a := by
  refine memGet_memSetAll_of_not_mem _ s.mem fun y hy he => ?_
  obtain ⟨⟨q, v, len⟩, hpart, hy⟩ := List.mem_flatMap.1 hy
  cases q with
  | mem b =>
    obtain ⟨hlo, hhi⟩ : b ≤ y.1 ∧ y.1 < b + (areaBytes s.draws v len).length := mem_placeAt hy
    have hlen : (areaBytes s.draws v len).length = len := by simp [areaBytes]
    have hout := ha b v len hpart
    omega
  | _ => exact absurd hy List.not_mem_nil

/-- The state once item `item` has joined the tail of a work list with room (R255). -/
def State.appended (s : State) (ctx list : Nat) (item : Word) : State :=
  (s.writeList ctx list).setCtx ctx { s.ctx ctx with
    lists := sput (s.ctx ctx).lists list ((s.ctx ctx).list list ++ [item]), quiet := false }

section

variable {s : State} {c : Nat} {o : OutEntry} {list : Nat} {item : Word} {d : Fin 32} (hentry : s.outEntry c o.e.id = some o)
  (hfirst : (s.core c).firstOut o.e.id = true) (hop : o.e.op = .wapp list item d)

include hentry hfirst hop

theorem exec_wapp : exec (.storePerformed c o.e.id) s = .next (s.appendItem c o list item d) := by
  show runE s (s.storeStep c o.e.id) = _
  unfold State.storeStep
  simp only [hentry, hop, hfirst, if_true]
  rfl

/-- An append to a full list answers 1 and changes nothing of it. -/
theorem exec_wapp_full (hfull : 2 ^ (s.ctx o.ctx).lcap ≤ ((s.ctx o.ctx).list list).length) :
    exec (.storePerformed c o.e.id) s = .next ((s.dropOut c o.e.id).reply c o.strand o.e.id d .mod 1) := by
  rw [exec_wapp hentry hfirst hop]
  unfold State.appendItem
  simp [hfull]

/-- An append to a list with room, which the module can write, joins its tail and answers 0. -/
theorem exec_wapp_room (hroom : ¬ 2 ^ (s.ctx o.ctx).lcap ≤ ((s.ctx o.ctx).list list).length)
    (hfault : s.listFault o.ctx true list ((s.ctx o.ctx).list list).length = none) :
    exec (.storePerformed c o.e.id) s =
      .next (((s.appended o.ctx list item).dropOut c o.e.id).reply c o.strand o.e.id d .mod 0) := by
  rw [exec_wapp hentry hfirst hop]
  unfold State.appendItem
  simp [hroom, hfault, State.appended]

end

/-- Once the entry has left, its reply reaches the strand that waits for it. -/
theorem reply_dropOut {s : State} {c : Nat} {o : OutEntry} (hout : (s.core c).outq = [o]) {d : Fin 32} (hd : d ≠ 0)
    (hpend : (o.e.id, RegName.g d) ∈ (s.strandAt c o.strand).pend) (scope : Scope) (x : Word) :
    let t := (s.dropOut c o.e.id).reply c o.strand o.e.id d scope x
    (t.strandAt c o.strand).rg d = x ∧ (t.core c).outq = [] := by
  intro t
  have hcore := core_reply (s.dropOut c o.e.id) c o.strand o.e.id d scope x
  constructor
  · have ht : t.strandAt c o.strand =
        ((s.dropOut c o.e.id).strandAt c o.strand).takeReply o.e.id d scope (s.dropOut c o.e.id).nextId x := by
      rw [State.strandAt, hcore, set_getElem_same, State.strandAt]
    rw [ht, rg_takeReply hd (by rw [strandAt_dropOut]; exact hpend)]
  · rw [hcore]
    exact outq_dropOut hout

theorem storesPerformedRule_holds : storesPerformedRule := by
  intro s c o k id hout hheld hgo hquiet alone
  have hentry := outEntry_only hout hheld hgo
  refine ⟨fun hop hmask hne hlen hnd => ?store, ?wapp⟩
  case store =>
    obtain ⟨y, ys, hbytes⟩ := List.exists_cons_of_ne_nil hne
    have hy : y ∈ o.e.bytes := hbytes ▸ List.mem_cons_self
    refine ⟨fun hp hstage => ?_, fun hp hstage => ?_, fun hp hstage hbehind => ?_⟩
    · refine happens_home hout ?_ hmask hnd hp
      rw [exec_storePerformed hentry hop hbytes (hp y hy), perform_own hout hbytes hquiet hstage (hp y hy), runE_some]
    · refine happens_point hout ?_ hmask hlen hnd hp
      rw [exec_storePerformed hentry hop hbytes (hp y hy), perform_point hout hbytes hquiet hstage (hp y hy), runE_some]
    · refine happens_home hout ?_ hmask hnd hp
      rw [exec_storePerformed hentry hop hbytes (hp y hy), perform_home hout hbytes hstage (hp y hy) hbehind, runE_some]
  case wapp =>
    intro list item d hop hstage hd hpend x n full hfault
    have hfirst := firstOut_only hout hstage
    by_cases hcap : 2 ^ x.lcap ≤ n
    · have hfull : full = true := decide_eq_true hcap
      obtain ⟨hreg, houtq⟩ := reply_dropOut hout hd hpend .mod 1
      refine ⟨_, exec_wapp_full hentry hfirst hop hcap, ?_, houtq, fun _ => rfl, fun a _ => rfl, fun m _ => rfl, ?_⟩
      · rw [hreg, hfull]
        rfl
      · rw [hfull]
        exact (List.append_nil _).symm
    · have hfull : full = false := decide_eq_false hcap
      obtain ⟨hreg, houtq⟩ := reply_dropOut (s := s.appended o.ctx list item) hout hd hpend .mod 0
      have hctx : (s.appended o.ctx list item).ctx o.ctx = _ := State.ctx_setCtx_same ..
      refine ⟨_, exec_wapp_room hentry hfirst hop hcap (hfault hfull), ?_, houtq, fun h => absurd (hfull.symm.trans h) nofun,
        fun a ha => memGet_writeArea s o.ctx _ _ ha, fun m hm => ?_, ?_⟩
      · rw [hreg, hfull]
        rfl
      · exact (congrArg (fun y : Ctx => sget [] y.lists m) hctx).trans (sget_sput_ne _ _ hm _)
      · rw [hfull]
        exact (congrArg (fun y : Ctx => sget [] y.lists list) hctx).trans (sget_sput_same _ _ list _)

/-- Settles O46. -/
theorem storesTravel : Obligations.StoresTravel := ⟨storesDrainRule_holds, storesPerformedRule_holds⟩

end Sys2Proof.Machine
end

section
/-! PROOFS. Instructions that read and write registers alone: their frame, and the word results of the integer
instructions (R88 to R90). -/

namespace Sys2Proof.Machine

open Sys2Proof.Claims

/-! ### One register is written -/

@[simp] theorem Strand.raise_zero (t : Strand) : t.raise 0#6 = t := by simp [Strand.raise]

theorem rp_wp_heldP (t : Strand) (d : Fin 8) (x : BitVec 16) : (t.wp d x).rp d = heldP d x := by simp [Strand.rp_wp, heldP]

/-- A strand that writes one predicate and goes on keeps every other register. -/
theorem goesOn_wp_onward (u : Strand) (d : Fin 8) (x : BitVec 16) (pc : Pc) (n : Nat) :
    GoesOn u ((u.wp d x).onward pc n) pc [] [d] [] 0 := by
  refine ⟨fun m _ => u.wp_rg d x m, fun m hm => u.rp_wp_ne (by simpa using hm) x, fun m _ => u.wp_rv d x m, ?_⟩
  unfold Strand.wp
  split <;> simp [Strand.onward]

section

variable {i : Instr} {s : State} {gd : Guard} {len : Nat} (hg : s.me.guardOn gd = true)

include hg

/-- An instruction that writes one g register. -/
theorem runsTo_wg {d : Fin 32} {val : Strand → Word} {x : Word} (hexec : exec i s = runR gd len s fun t => t.wg d (val t))
    (hx : val s.me = x) : RunsTo i s (fun u => GoesOn s.me u (after s len) [d] [] [] 0 ∧ u.rg d = heldG d x) := by
  subst hx
  refine runsTo_of_modMe (hexec.trans (runR_on hg len _)) ⟨?_, rg_wg_heldG ..⟩
  rw [Strand.wg_pc]
  exact goesOn_wg_onward ..

/-- An instruction that writes one predicate. -/
theorem runsTo_wp {d : Fin 8} {val : Strand → BitVec 16} {x : BitVec 16}
    (hexec : exec i s = runR gd len s fun t => t.wp d (val t)) (hx : val s.me = x) :
    RunsTo i s (fun u => GoesOn s.me u (after s len) [] [d] [] 0 ∧ u.rp d = heldP d x) := by
  subst hx
  refine runsTo_of_modMe (hexec.trans (runR_on hg len _)) ⟨?_, rp_wp_heldP ..⟩
  rw [Strand.wp_pc]
  exact goesOn_wp_onward ..

end

theorem runsTo_imp {i : Instr} {s : State} {p q : Strand → Prop} (h : RunsTo i s p) (hpq : ∀ u, p u → q u) :
    RunsTo i s q := by
  obtain ⟨t, hexec, halone, hp⟩ := h
  exact ⟨t, hexec, halone, hpq _ hp⟩

/-! ### The low bits of a register under a type -/

/-- The integer types have between 8 and 64 bits (R63). -/
theorem isInt_bits {ty : Ty} (h : ty.isInt = true) : 8 ≤ ty.bits ∧ ty.bits ≤ 64 := by
  revert h
  cases ty <;> decide

/-- What a register holds under a type is a matter of its low bits. -/
theorem readAs_natAs {ty : Ty} (h : ty.isInt = true) (x : Word) : readAs ty (BitVec.ofNat 64 (natAs ty x)) = readAs ty x := by
  have hread : ty.read (natAs ty x) = ty.read x.toNat := by simp [Ty.read, natAs, sextN]
  rw [← wordOfInt_read h, hread, wordOfInt_read h, BitVec.ofNat_toNat, BitVec.setWidth_eq]

/-- A result congruent to a word, cut to the type and extended, is the word read as the type says (R89). -/
theorem wordOfInt_extTo {ty : Ty} (h : ty.isInt = true) {v : Int} {x : Word} (hv : v ≡ x.toNat [ZMOD (2 ^ ty.bits : Nat)]) :
    wordOfInt (extTo ty v) = readAs ty x := by
  have hmod : (v % (2 ^ ty.bits : Nat)).toNat = natAs ty x := by
    rw [hv.eq]
    rfl
  rw [extTo, hmod, wordOfInt_read h, readAs_natAs h]

/-- An operand is congruent to the register that holds it (R89). -/
theorem operandOf_modEq (ty : Ty) (x : Word) : operandOf ty x ≡ x.toNat [ZMOD (2 ^ ty.bits : Nat)] := by
  have hlow : ((x.toNat % 2 ^ ty.bits : Nat) : Int) ≡ x.toNat [ZMOD (2 ^ ty.bits : Nat)] := by
    push_cast
    exact Int.mod_modEq ..
  unfold operandOf Ty.read sextN
  split
  · dsimp only
    split
    · exact hlow
    · exact Int.sub_modulus_modEq_iff.2 hlow
  · exact hlow

/-- The bit pattern of an operand is that of its register. -/
theorem patternOf_operandOf (ty : Ty) (x : Word) : patternOf ty (operandOf ty x) = natAs ty x := by
  rw [patternOf, (operandOf_modEq ty x).eq]
  rfl

/-- The word of an integer is congruent to it. -/
theorem toNat_ofInt_modEq {ty : Ty} (h : ty.isInt = true) (v : Int) :
    ((BitVec.ofInt 64 v).toNat : Int) ≡ v [ZMOD (2 ^ ty.bits : Nat)] := by
  have hdvd : ((2 ^ ty.bits : Nat) : Int) ∣ ((2 ^ 64 : Nat) : Int) :=
    Int.natCast_dvd_natCast.2 (Nat.pow_dvd_pow 2 (isInt_bits h).2)
  rw [BitVec.toNat_ofInt, Int.toNat_of_nonneg (Int.emod_nonneg _ (by decide))]
  exact (Int.mod_modEq v _).of_dvd hdvd

/-! ### The operations of R90 on exact integers and on words -/

section

variable {ty : Ty} (h : ty.isInt = true) (a b : Word) (n : Nat)

include h in
theorem opAdd_modEq : opAdd ty (operandOf ty a) (operandOf ty b) n ≡ (a + b).toNat [ZMOD (2 ^ ty.bits : Nat)] := by
  have hw : a + b = BitVec.ofInt 64 (a.toNat + b.toNat) := by simp [BitVec.ofInt_add]
  rw [hw]
  exact ((operandOf_modEq ty a).add (operandOf_modEq ty b)).trans (toNat_ofInt_modEq h _).symm

include h in
theorem opSub_modEq : opSub ty (operandOf ty a) (operandOf ty b) n ≡ (a - b).toNat [ZMOD (2 ^ ty.bits : Nat)] := by
  have hw : a - b = BitVec.ofInt 64 (a.toNat - b.toNat) := by
    simp [Int.sub_eq_add_neg, BitVec.ofInt_add, BitVec.ofInt_neg, BitVec.sub_eq_add_neg]
  rw [hw]
  exact ((operandOf_modEq ty a).sub (operandOf_modEq ty b)).trans (toNat_ofInt_modEq h _).symm

include h in
theorem opMul_modEq : opMul ty (operandOf ty a) (operandOf ty b) n ≡ (a * b).toNat [ZMOD (2 ^ ty.bits : Nat)] := by
  have hw : a * b = BitVec.ofInt 64 (a.toNat * b.toNat) := by simp [BitVec.ofInt_mul]
  rw [hw]
  exact ((operandOf_modEq ty a).mul (operandOf_modEq ty b)).trans (toNat_ofInt_modEq h _).symm

include h in
theorem opShl_modEq : opShl ty (operandOf ty a) (operandOf ty b) n ≡ (a <<< n).toNat [ZMOD (2 ^ ty.bits : Nat)] := by
  have hw : a <<< n = BitVec.ofInt 64 (a.toNat * (2 ^ n : Nat)) := by
    apply BitVec.eq_of_toNat_eq
    rw [← Int.natCast_mul, BitVec.ofInt_natCast, BitVec.toNat_ofNat, BitVec.toNat_shiftLeft, Nat.shiftLeft_eq]
  rw [hw]
  exact ((operandOf_modEq ty a).mul_right _).trans (toNat_ofInt_modEq h _).symm

/-- Numbers that are the low bits of a word are congruent to it. -/
theorem modEq_of_natAs {m : Nat} {x : Word} (hm : m = natAs ty x) : (m : Int) ≡ x.toNat [ZMOD (2 ^ ty.bits : Nat)] := by
  rw [hm, natAs]
  push_cast
  exact Int.mod_modEq ..

theorem opAnd_modEq : opAnd ty (operandOf ty a) (operandOf ty b) n ≡ (a &&& b).toNat [ZMOD (2 ^ ty.bits : Nat)] := by
  refine modEq_of_natAs ?_
  rw [patternOf_operandOf, patternOf_operandOf, natAs, natAs, natAs, BitVec.toNat_and, Nat.and_mod_two_pow]

theorem opOr_modEq : opOr ty (operandOf ty a) (operandOf ty b) n ≡ (a ||| b).toNat [ZMOD (2 ^ ty.bits : Nat)] := by
  refine modEq_of_natAs ?_
  rw [patternOf_operandOf, patternOf_operandOf, natAs, natAs, natAs, BitVec.toNat_or, Nat.or_mod_two_pow]

theorem opXor_modEq : opXor ty (operandOf ty a) (operandOf ty b) n ≡ (a ^^^ b).toNat [ZMOD (2 ^ ty.bits : Nat)] := by
  refine modEq_of_natAs ?_
  rw [patternOf_operandOf, patternOf_operandOf, natAs, natAs, natAs, BitVec.toNat_xor, Nat.xor_mod_two_pow]

include h in
/-- The pattern of `-b - 1` is that of the complement of `b`. -/
theorem patternOf_not : patternOf ty (-operandOf ty b - 1) = natAs ty (~~~b) := by
  have hw : ~~~b = BitVec.ofInt 64 (-b.toNat - 1) := by
    rw [Int.sub_eq_add_neg, BitVec.ofInt_add, BitVec.ofInt_neg, BitVec.ofInt_natCast, BitVec.ofNat_toNat, BitVec.setWidth_eq]
    bv_omega
  have hmod : -operandOf ty b - 1 ≡ (~~~b).toNat [ZMOD (2 ^ ty.bits : Nat)] := by
    rw [hw]
    exact ((operandOf_modEq ty b).neg.sub_right 1).trans (toNat_ofInt_modEq h _).symm
  rw [patternOf, hmod.eq]
  rfl

include h in
theorem opAndn_modEq : opAndn ty (operandOf ty a) (operandOf ty b) n ≡ (a &&& ~~~b).toNat [ZMOD (2 ^ ty.bits : Nat)] := by
  refine modEq_of_natAs ?_
  rw [patternOf_operandOf, patternOf_not h, natAs, natAs, natAs, BitVec.toNat_and, Nat.and_mod_two_pow]

end

/-- Without saturation a two-operand instruction writes its result, cut to the type and extended, and raises no flag (R89). -/
theorem strand_alu2_of_not_sat {x : Alu2} (hsat : x.sat = false) (op : IntOp) : Strand.alu2 op x = fun t =>
    t.wg x.d (wordOfInt (extTo x.ty (op x.ty (operandOf x.ty (t.rg x.a)) (operandOf x.ty (braw t x.b))
      (shiftOf x.ty (braw t x.b))))) := by
  funext t
  simp [Strand.alu2, alu2, hsat]

/-- A two-operand instruction without saturation whose exact result is congruent to the word `w`. -/
theorem runsTo_wordOp {i : Instr} {op : IntOp} {x : Alu2} {s : State} {w : Word}
    (hexec : exec i s = runR x.gd x.b.len s (Strand.alu2 op x)) (hg : s.me.guardOn x.gd = true) (hty : x.ty.isInt = true)
    (hsat : x.sat = false) (hw : op x.ty (operandOf x.ty (s.me.rg x.a)) (operandOf x.ty (braw s.me x.b))
      (shiftOf x.ty (braw s.me x.b)) ≡ w.toNat [ZMOD (2 ^ x.ty.bits : Nat)]) :
    RunsTo i s (fun u => GoesOn s.me u (after s x.b.len) [x.d] [] [] 0 ∧ u.rg x.d = heldG x.d (readAs x.ty w)) := by
  rw [strand_alu2_of_not_sat hsat] at hexec
  exact runsTo_wg hg hexec (wordOfInt_extTo hty hw)

/-- Settles O8: each exact result of R90 is congruent, modulo the type's range, to the result on 64-bit words. -/
theorem integerWordResults : Obligations.IntegerWordResults := by
  intro o ho x s hg hty hsat
  simp only [wordOps, List.mem_cons, List.not_mem_nil, or_false] at ho
  rcases ho with rfl | rfl | rfl | rfl | rfl | rfl | rfl | rfl
  · exact runsTo_wordOp (op := opAdd) rfl hg hty hsat (opAdd_modEq hty ..)
  · exact runsTo_wordOp (op := opSub) rfl hg hty hsat (opSub_modEq hty ..)
  · exact runsTo_wordOp (op := opMul) rfl hg hty hsat (opMul_modEq hty ..)
  · exact runsTo_wordOp (op := opAnd) rfl hg hty hsat (opAnd_modEq ..)
  · exact runsTo_wordOp (op := opOr) rfl hg hty hsat (opOr_modEq ..)
  · exact runsTo_wordOp (op := opXor) rfl hg hty hsat (opXor_modEq ..)
  · exact runsTo_wordOp (op := opAndn) rfl hg hty hsat (opAndn_modEq hty ..)
  · exact runsTo_wordOp (op := opShl) rfl hg hty hsat (opShl_modEq hty ..)

end Sys2Proof.Machine
end

section
/-! PROOFS. Counts, moves, comparisons, selections, fields, addresses and immediates (R92 to R97). -/

namespace Sys2Proof.Machine

open Sys2Proof.Claims

/-! ### Counts (R92) -/

theorem natAs_lt (ty : Ty) (x : Word) : natAs ty x < 2 ^ ty.bits := Nat.mod_lt _ (Nat.two_pow_pos _)

/-- The zero bits above the highest 1 of an `n`-bit pattern. -/
theorem opClz_eq {n f k : Nat} (h : if f = 0 then k = n else k < n ∧ 2 ^ (n - 1 - k) ≤ f ∧ f < 2 ^ (n - k)) :
    opClz n f = k := by
  unfold opClz
  split at h
  · rw [if_pos ‹_›, h]
  · obtain ⟨hk, hlo, hhi⟩ := h
    have hlog : Nat.log2 f = n - 1 - k := (Nat.log2_eq_iff ‹_›).2 ⟨hlo, by rwa [show n - 1 - k + 1 = n - k by omega]⟩
    rw [if_neg ‹_›, hlog]
    omega

theorem opCtz_zero (n : Nat) : opCtz n 0 = n := by
  induction n with
  | zero => rfl
  | succ n ih => simp [opCtz, ih, Nat.add_comm]

/-- The zero bits below the lowest 1 of an `n`-bit pattern. -/
theorem opCtz_eq {n f k : Nat} (hf : f < 2 ^ n) (h : if f = 0 then k = n else f % 2 ^ k = 0 ∧ f / 2 ^ k % 2 = 1) :
    opCtz n f = k := by
  split at h
  · rw [‹f = 0›, opCtz_zero, h]
  · obtain ⟨hlow, hone⟩ := h
    clear ‹¬ f = 0›
    induction n generalizing f k with
    | zero => simp_all
    | succ n ih =>
      cases k with
      | zero => simpa [opCtz] using hone
      | succ k =>
        have heven : f % 2 = 0 := Nat.mod_eq_zero_of_dvd ((Dvd.intro_left _ rfl).trans (Nat.dvd_of_mod_eq_zero hlow))
        have hhalf : f / 2 % 2 ^ k = 0 := by rw [← Nat.mod_mul_right_div_self, ← Nat.pow_succ', hlow]
        have hbit : f / 2 / 2 ^ k % 2 = 1 := by rwa [Nat.div_div_eq_div_mul, ← Nat.pow_succ']
        rw [opCtz, if_neg (by omega), ih (by omega) hhalf hbit, Nat.add_comm]

/-- The 1 bits of an `n`-bit pattern. -/
theorem opPopc_eq (n f : Nat) : opPopc n f = (List.range n).countP (fun j => f.testBit j) := by
  induction n generalizing f with
  | zero => rfl
  | succ n ih =>
    have hsucc : (fun j => f.testBit j) ∘ Nat.succ = fun j => (f / 2).testBit j := funext fun j => Nat.testBit_succ f j
    rw [opPopc, ih, List.range_succ_eq_map, List.countP_cons, List.countP_map, hsucc, Nat.testBit_zero, Nat.add_comm]
    rcases Nat.mod_two_eq_zero_or_one f with h | h <;> simp [h]

/-- A count is within every type: it is written as it is (R92). -/
theorem readAs_count {ty : Ty} (h : ty.isInt = true) {k : Nat} (hk : k ≤ ty.bits) :
    readAs ty (BitVec.ofNat 64 k) = BitVec.ofNat 64 k := by
  have hlt : 2 * k < 2 ^ ty.bits := by
    revert h hk
    cases ty <;> simp only [Ty.bits] <;> intro h hk <;> omega
  have hread : ty.read k = k := by
    rw [Ty.read, sextN, Nat.mod_eq_of_lt (by omega), if_pos hlt, ite_self]
  rw [← wordOfInt_read h, hread, wordOfInt, BitVec.ofInt_natCast]

section

variable {i : Instr} {x : Alu1} {s : State} {op : Nat → Nat → Nat}
    (hexec : exec i s = runR x.gd 8 s fun t => t.wg x.d (alu1 op x t)) (hg : s.me.guardOn x.gd = true) (hty : x.ty.isInt = true)

include hexec hg hty

/-- A one-operand instruction writes what it makes of the register's low bits, extended as the type says (R92). -/
theorem runsTo_alu1 : RunsTo i s (fun u => GoesOn s.me u (after s 8) [x.d] [] [] 0 ∧
    u.rg x.d = heldG x.d (readAs x.ty (BitVec.ofNat 64 (op x.ty.bits (natAs x.ty (s.me.rg x.a)))))) := by
  refine runsTo_wg hg hexec (wordOfInt_extTo hty ?_)
  have hw := toNat_ofInt_modEq hty (op x.ty.bits (natAs x.ty (s.me.rg x.a)) : Nat)
  rw [BitVec.ofInt_natCast] at hw
  exact hw.symm

/-- A count is written as it is (R92). -/
theorem runsTo_count {k : Nat} (hk : op x.ty.bits (natAs x.ty (s.me.rg x.a)) = k) (hle : k ≤ x.ty.bits) :
    RunsTo i s (fun u => GoesOn s.me u (after s 8) [x.d] [] [] 0 ∧ u.rg x.d = heldG x.d (BitVec.ofNat 64 k)) := by
  have h := runsTo_alu1 hexec hg hty
  rwa [hk, readAs_count hty hle] at h

end

theorem countResultsRule_holds : countResultsRule := by
  intro x s hg hty f
  have hf : f < 2 ^ x.ty.bits := natAs_lt ..
  refine ⟨fun k hk => ?_, fun k hk => ?_, ?_, ?_⟩
  · refine runsTo_count (op := opClz) rfl hg hty (opClz_eq hk) ?_
    split at hk <;> omega
  · refine runsTo_count (op := opCtz) rfl hg hty (opCtz_eq hf hk) ?_
    split at hk
    · exact hk.le
    · refine Nat.le_of_not_lt fun hlt => ?_
      rw [Nat.div_eq_of_lt (hf.trans (Nat.pow_lt_pow_right Nat.one_lt_two hlt))] at hk
      exact absurd hk.2 (by decide)
  · refine runsTo_count (op := opPopc) rfl hg hty (opPopc_eq ..) ?_
    exact List.countP_le_length.trans (List.length_range ..).le
  · have h := runsTo_alu1 (i := .mov x) (op := fun _ f => f) rfl hg hty
    rwa [readAs_natAs hty] at h

/-! ### Comparisons (R93) -/

/-- The integer of an operand is the one that its register holds under the type (R88, R89). -/
theorem operandOf_eq_intAs {ty : Ty} (h : ty.isInt = true) (x : Word) : operandOf ty x = intAs ty x := by
  revert h
  cases ty <;> intro h
  case i8 | i16 | i32 | i64 =>
    simp [operandOf, Ty.read, Ty.signed, Ty.bits, intAs, readAs, sextN_eq_toInt, BitVec.toInt_signExtend_of_le]
  case n8 | n16 | n32 | n64 =>
    have := x.isLt
    simp [operandOf, Ty.read, Ty.signed, Ty.bits, intAs, readAs]
    omega
  all_goals exact absurd h (by decide)

theorem condInt_iff (c : Cond) (a b : Int) : condInt c a b = true ↔ holdsInt c a b := by cases c <;> simp [condInt, holdsInt]

/-- `cmp` writes a whole predicate: all ones where the condition holds, else zeros (R93). -/
theorem cmpVal_eq {ty : Ty} (h : ty.isInt = true) (c : Cond) (a : Fin 32) (b : BSrc) (t : Strand) :
    cmpVal c ty a b t = if condInt c (intAs ty (t.rg a)) (intAs ty (braw t b)) then 0xFFFF else 0 := by
  rw [cmpVal, operandOf_eq_intAs h, operandOf_eq_intAs h]

/-! ### Fields (R95) -/

/-- Bit `j` of a field of `w` bits from `pos` on. -/
theorem testBit_field (x : Word) (pos w j : Nat) : (bitsN x.toNat (pos + (w + 1) - 1) pos).testBit j =
    (decide (j ≤ w) && x.getLsbD (pos + j)) := by
  rw [bitsN, show pos + (w + 1) - 1 + 1 - pos = w + 1 by omega, Nat.testBit_mod_two_pow, Nat.testBit_div_two_pow, BitVec.getLsbD,
    Nat.add_comm j pos]
  simp only [Nat.lt_succ_iff]

/-- `bext` takes a field and extends it, by its sign or by zeros (R95). -/
theorem getLsbD_bextVal (x : Word) {pos w j : Nat} (hw : pos + w + 1 ≤ 64) (sg : Bool) (hj : j < 64) :
    (bextVal x pos (w + 1) sg).getLsbD j = if j ≤ w then x.getLsbD (pos + j) else sg && x.getLsbD (pos + w) := by
  have hfield (k : Nat) (hk : k < 64) : (BitVec.ofNat 64 (bitsN x.toNat (pos + (w + 1) - 1) pos)).getLsbD k =
      (decide (k ≤ w) && x.getLsbD (pos + k)) := by
    rw [BitVec.getLsbD_ofNat, testBit_field, decide_eq_true hk, Bool.true_and]
  unfold bextVal
  cases sg with
  | false =>
    simp only [Bool.false_eq_true, if_false, hfield j hj]
    split <;> simp_all
  | true =>
    simp only [if_true, wordOfInt_sextN (show w + 1 ≤ 64 by omega), BitVec.getLsbD_signExtend, BitVec.msb_eq_getLsbD_last,
      BitVec.getLsbD_setWidth, hfield j hj, hfield w (by omega), hj, Nat.add_sub_cancel, Nat.lt_succ_iff, le_refl, decide_true,
      Bool.true_and]
    split <;> simp_all

/-- `bins` puts the low bits of `a` in a field of `d` and keeps the other bits of `d` (R95). -/
theorem getLsbD_binsVal (d a : Word) (pos w : Nat) {j : Nat} (hj : j < 64) :
    (binsVal d a pos (w + 1)).getLsbD j =
      if pos ≤ j ∧ j ≤ pos + w then a.getLsbD (j - pos) else d.getLsbD j := by
  have hlow : d.toNat % 2 ^ pos < 2 ^ pos := Nat.mod_lt _ (Nat.two_pow_pos _)
  have hmid : 2 ^ pos * (a.toNat % 2 ^ (w + 1)) + d.toNat % 2 ^ pos < 2 ^ (pos + (w + 1)) := by
    have := Nat.mod_lt a.toNat (Nat.two_pow_pos (w + 1))
    calc 2 ^ pos * (a.toNat % 2 ^ (w + 1)) + d.toNat % 2 ^ pos
        < 2 ^ pos * (a.toNat % 2 ^ (w + 1)) + 2 ^ pos := by omega
      _ = 2 ^ pos * (a.toNat % 2 ^ (w + 1) + 1) := by ring
      _ ≤ 2 ^ pos * 2 ^ (w + 1) := Nat.mul_le_mul_left _ this
      _ = 2 ^ (pos + (w + 1)) := (Nat.pow_add ..).symm
  have hset : setBits d.toNat pos (w + 1) a.toNat = 2 ^ (pos + (w + 1)) * (d.toNat / 2 ^ (pos + (w + 1))) +
      (2 ^ pos * (a.toNat % 2 ^ (w + 1)) + d.toNat % 2 ^ pos) := by
    rw [setBits]
    omega
  rw [binsVal, BitVec.getLsbD_ofNat, hset, Nat.testBit_two_pow_mul_add _ hmid, Nat.testBit_two_pow_mul_add _ hlow]
  simp only [Nat.testBit_mod_two_pow, Nat.testBit_div_two_pow, BitVec.getLsbD, hj, decide_true, Bool.true_and]
  rcases Nat.lt_or_ge j pos with hlt | hge
  · rw [if_pos (by omega), if_pos hlt, if_neg (by omega), decide_eq_true hlt, Bool.true_and]
  · rcases Nat.lt_or_ge j (pos + (w + 1)) with hin | hout
    · rw [if_pos hin, if_neg (by omega), if_pos (by omega), decide_eq_true (by omega), Bool.true_and]
    · rw [if_neg (by omega), if_neg (by omega), Nat.sub_add_cancel hout]

/-- The value of a written g register, bit by bit. -/
theorem runsTo_bits {i : Instr} {s : State} {len : Nat} {d : Fin 32} {x : Word} {bit : Nat → Bool} (hd : d ≠ 0)
    (h : RunsTo i s (fun u => GoesOn s.me u (after s len) [d] [] [] 0 ∧ u.rg d = heldG d x))
    (hbit : ∀ j, j < 64 → x.getLsbD j = bit j) :
    RunsTo i s (fun u => GoesOn s.me u (after s len) [d] [] [] 0 ∧ ∀ j, j < 64 → (u.rg d).getLsbD j = bit j) := by
  refine runsTo_imp h fun u ⟨hgoes, hval⟩ => ⟨hgoes, fun j hj => ?_⟩
  rw [hval, heldG, if_neg hd, hbit j hj]

/-- A write of `g0` changes no register (R44). -/
theorem goesOn_g0 {u w : Strand} {pc : Pc} (h : GoesOn u w pc [0] [] [] 0) : GoesOn u w pc [] [] [] 0 := by
  obtain ⟨hg, hrest⟩ := h
  refine ⟨fun n _ => ?_, hrest⟩
  by_cases hn : n = 0
  · subst hn
    rfl
  · exact hg n (by simpa using hn)

theorem selectFieldResultsRule_holds : selectFieldResultsRule := by
  refine ⟨?cmp, ?sel, ?bext, ?bins, ?g0, ?lea, ?li⟩
  case cmp =>
    intro gd cond ty d a b s hg hty
    refine runsTo_imp (runsTo_wp hg (val := cmpVal cond ty a b) rfl (cmpVal_eq hty ..)) fun u ⟨hgoes, hval⟩ =>
      ⟨hgoes, fun h => ?_, fun h => ?_⟩
    · rw [hval, if_pos ((condInt_iff ..).2 h)]
    · rw [hval, if_neg (h ∘ (condInt_iff ..).1)]
  case sel =>
    intro gd d a b c s hg
    exact runsTo_wg hg (val := fun t => if (t.rp c).getLsbD 0 then t.rg a else t.rg b) rfl rfl
  case bext =>
    intro gd d a pos w1 sg s hg hw hd
    exact runsTo_bits hd (runsTo_wg hg (val := fun t => bextVal (t.rg a) pos.val (w1.val + 1) sg) rfl rfl)
      fun j hj => getLsbD_bextVal _ hw sg hj
  case bins =>
    intro gd d a pos w1 s hg hw hd
    exact runsTo_bits hd (runsTo_wg hg (val := fun t => binsVal (t.rg d) (t.rg a) pos.val (w1.val + 1)) rfl rfl)
      fun j hj => getLsbD_binsVal _ _ _ _ hj
  case g0 =>
    intro gd a pos w1 sg s hg
    exact ⟨runsTo_imp (runsTo_wg hg (val := fun t => bextVal (t.rg a) pos.val (w1.val + 1) sg) rfl rfl)
        fun u hu => goesOn_g0 hu.1,
      runsTo_imp (runsTo_wg hg (val := fun t => binsVal (t.rg 0) (t.rg a) pos.val (w1.val + 1)) rfl rfl)
        fun u hu => goesOn_g0 hu.1⟩
  case lea =>
    intro gd d a b sc disp s hg
    exact runsTo_wg hg (val := fun t => effAddr t a b sc disp) rfl (effAddr_eq ..)
  case li =>
    intro gd d i s hg
    exact runsTo_wg hg (val := fun _ => i.val) rfl rfl

/-- Settles O10: `clz`, `ctz` and `popc` by what they count, the rest by the value written. -/
theorem countAndFieldResults : Obligations.CountAndFieldResults := ⟨countResultsRule_holds, selectFieldResultsRule_holds⟩

end Sys2Proof.Machine
end

section
/-! PROOFS. Control transfers (R38, R53, R98, R99). -/

namespace Sys2Proof.Machine

open Sys2Proof.Claims

/-- A target with the low bits zero and within the 57-bit space is taken as it is (R38). -/
theorem jumpTo_ok {t : Word} (h : targetOk t = true) (s : State) : jumpTo t s = .ok (s, t.setWidth 57) := if_pos h

/-- Any other target traps (R38, R99). -/
theorem jumpTo_bad {t : Word} (h : targetOk t = false) (s : State) : jumpTo t s = raise ⟨0x06, 0, t, 0⟩ := by
  rw [jumpTo, h]
  rfl

section

variable {i : Instr} {s : State} {gd : Guard} {len : Nat} {body : State → Res (State × Pc)} {pc : Pc}
  (hexec : exec i s = runJ gd len s body) (hg : s.me.guardOn gd = true)

include hexec hg

/-- A transfer that only moves the PC. -/
theorem runsTo_jump (hbody : body s = .ok (s, pc)) : RunsTo i s (fun u => GoesOn s.me u pc [] [] [] 0) := by
  rw [runJ_on hg, hbody] at hexec
  refine ⟨s.goTo pc, hexec, (Mine.modMe s fun t => t.onward pc s.myCore.slot).alone, ?_⟩
  rw [State.me_goTo]
  exact goesOn_onward ..

/-- A transfer that writes one g register and moves the PC. -/
theorem runsTo_jump_wg {d : Fin 32} {val : Strand → Word} (hbody : body s = .ok (s.modMe fun t => t.wg d (val t), pc)) :
    RunsTo i s (fun u => GoesOn s.me u pc [d] [] [] 0 ∧ u.rg d = heldG d (val s.me)) := by
  rw [runJ_on hg, hbody] at hexec
  have hmine : Mine s (s.modMe fun t => t.wg d (val t)) := Mine.modMe ..
  refine ⟨_, hexec, (hmine.goTo pc).alone, ?_⟩
  rw [State.me_goTo, State.me_modMe]
  exact ⟨goesOn_wg_onward .., rg_wg_heldG ..⟩

/-- A transfer that traps has written nothing. -/
theorem traps_jump {k : Trap} (hbody : body s = raise k) : Traps i s k := by
  rw [Traps, hexec, runJ_on hg, hbody, conclude_raise]

end

/-- `loop` with its counter not yet used up is a jump that writes the counter (R98). -/
theorem exec_loop_branches {s : State} {d : Fin 32} (hc : s.me.rg d - 1 ≠ 0) (gd : Guard) (off : Disp) :
    exec (.loop gd d off) s = runJ gd off.len s fun s => jumpTo (relTarget s.me off) (s.modMe fun t => t.wg d (loopCount t d)) := by
  show execLoop gd d off s = _
  simp only [execLoop, runJ, if_neg (show loopCount s.me d ≠ 0 from hc)]
  rfl

/-- `loop` with its counter used up writes the counter and falls through (R98, R99). -/
theorem exec_loop_ends {s : State} {d : Fin 32} (hc : s.me.rg d - 1 = 0) (gd : Guard) (off : Disp) :
    exec (.loop gd d off) s = runJ gd off.len s fun s => .ok (s.modMe fun t => t.wg d (loopCount t d), after s off.len) := by
  show execLoop gd d off s = _
  simp only [execLoop, runJ, if_pos (show loopCount s.me d = 0 from hc)]
  rfl

theorem controlTransfersRule_holds : controlTransfersRule := by
  refine ⟨?nop, ?nopBlk, ?br, ?jmp, ?jal, ?jr, ?ret, ?loop, ?loopEnd⟩
  case nop => exact fun n s => runsTo_of_retire rfl (goesOn_onward ..)
  case nopBlk =>
    intro s
    have hpc : s.me.pc.toNat / 32 * 32 + 32 = s.me.pc.toNat - s.me.pc.toNat % 32 + 32 := by omega
    rw [← hpc]
    exact ⟨_, rfl, (Mine.modMe s fun t => t.onward _ s.myCore.slot).alone, by rw [State.me_goTo]; exact goesOn_onward ..⟩
  case br => exact fun gd off s hg ht => runsTo_jump rfl hg (jumpTo_ok ht s)
  case jmp => exact fun gd tg s hg ht => runsTo_jump rfl hg (jumpTo_ok ht s)
  case jal =>
    exact fun gd d off s hg ht => runsTo_jump_wg (val := fun t => pcWord t + BitVec.ofNat 64 off.len) rfl hg (jumpTo_ok ht _)
  case jr =>
    exact fun gd d a disp s hg ht => runsTo_jump_wg (val := fun t => pcWord t + BitVec.ofNat 64 8) rfl hg (jumpTo_ok ht _)
  case ret => exact fun gd a s hg ht => runsTo_jump rfl hg (jumpTo_ok ht s)
  case loop =>
    exact fun gd d off s hg hc ht =>
      runsTo_jump_wg (val := fun t => loopCount t d) (exec_loop_branches hc gd off) hg (jumpTo_ok ht _)
  case loopEnd =>
    intro gd d off s hg hone
    have hc : s.me.rg d - 1 = 0 := by rw [hone]; rfl
    have h := runsTo_jump_wg (val := fun t => loopCount t d) (exec_loop_ends hc gd off) hg rfl
    rwa [loopCount, hc] at h

theorem badTargetsRule_holds : badTargetsRule := by
  intro gd d a off disp tg s hg
  refine ⟨fun ht => ⟨?br, ?jal, fun hc => ?loop⟩, fun ht => ?jmp, fun ht => ?jr, fun ht => ?ret⟩
  case br => exact traps_jump rfl hg (jumpTo_bad ht s)
  case jal => exact traps_jump (body := fun s => jumpLink d off.len (relTarget s.me off) s) rfl hg (jumpTo_bad ht _)
  case loop => exact traps_jump (exec_loop_branches hc gd off) hg (jumpTo_bad ht _)
  case jmp => exact traps_jump rfl hg (jumpTo_bad ht s)
  case jr => exact traps_jump (body := fun s => jumpLink d 8 (s.me.rg a + disp.signExtend 64) s) rfl hg (jumpTo_bad ht _)
  case ret => exact traps_jump rfl hg (jumpTo_bad ht s)

/-- Settles O9: the target check stands before every write, and `loop` comes to it only when it branches. -/
theorem controlTransfers : Obligations.ControlTransfers := ⟨controlTransfersRule_holds, badTargetsRule_holds⟩

end Sys2Proof.Machine
end

section
/-! PROOFS. The checks of a memory access (R106). -/

namespace Sys2Proof.Machine

open Sys2Proof.Claims

/-! ### The checks in their order -/

section

variable {s : State} {ea : Word} (a : Acc)

/-- The first check: an address with bit 63 set is that of a handle (R106). -/
theorem xlate_handleAddress (h : 2 ^ 63 ≤ ea.toNat) : s.xlate a ea = raise (.handleAddress ea) := by
  have hbit : ea.getLsbD 63 = true := Nat.testBit_of_two_pow_le_and_two_pow_add_one_gt h ea.isLt
  rw [State.xlate, hbit]
  rfl

/-- The second check: the 57-bit space (R106). -/
theorem xlate_badAddress (h : 2 ^ 57 ≤ ea.toNat) (hlt : ea.toNat < 2 ^ 63) : s.xlate a ea = raise (.badAddress ea) := by
  have hbit : ea.getLsbD 63 = false := Nat.testBit_eq_false_of_lt hlt
  rw [State.xlate, hbit, decide_eq_true h]
  rfl

/-- The third check: alignment (R106). -/
theorem xlate_misaligned (hlt : ea.toNat < 2 ^ 57) (hal : ea.toNat % a.n ≠ 0) : s.xlate a ea = raise (.misaligned ea) := by
  have hbit : ea.getLsbD 63 = false := Nat.testBit_eq_false_of_lt (hlt.trans (by decide))
  rw [State.xlate, hbit, decide_eq_false (Nat.not_le.2 hlt), bne_iff_ne.2 hal]
  rfl

section

variable {a} (hlow : ea.toNat < fixedBase) (hal : ea.toNat % a.n = 0) (hplain : s.rangeOf s.myCore.ctx ea.toNat = none)

include hlow hal hplain

/-- The fourth check: the translation (R106, R268). -/
theorem xlate_unmapped {e : WalkFail} (h : s.leafFor s.cur.1 s.myCore.ctx ea.toNat = .error e) :
    s.xlate a ea = raise (e.trap ea) := by
  obtain ⟨h63, h57⟩ := low_address hlow
  unfold State.xlate
  simp only [h63, h57, hal, hplain, h, Nat.not_le.2 hlow, trapIf, decide_false, bne_self_eq_false]
  rfl

/-- The last check: what the translation grants (R106, R268). -/
theorem xlate_denied {l : Leaf} {s' : State} (h : s.leafFor s.cur.1 s.myCore.ctx ea.toNat = .ok (l, s'))
    (hno : (l.privOnly = true ∧ s.me.priv = false) ∨ (a.rd = true ∧ l.read = false) ∨ (a.wr = true ∧ l.write = false)) :
    s.xlate a ea = raise (.protectionFault ea) := by
  obtain ⟨h63, h57⟩ := low_address hlow
  have hdenied : ((l.privOnly && !s.me.priv) || (a.rd && !l.read) || (a.wr && !l.write)) = true := by
    rcases hno with ⟨hleaf, hme⟩ | ⟨hacc, hleaf⟩ | ⟨hacc, hleaf⟩
    · simp [hleaf, hme]
    · simp [hacc, hleaf]
    · simp [hacc, hleaf]
  unfold State.xlate
  simp only [h63, h57, hal, hplain, h, hdenied, Nat.not_le.2 hlow, trapIf, decide_false, bne_self_eq_false]
  rfl

end

end

/-! ### A failing check is the trap of the access -/

section

variable {s : State} {gd : Guard} {m : Mem} {ty : Ty} {ea : Word} {k : Trap} (hg : s.me.guardOn gd = true) (hsp : m.sp = false)
  (hea : Mem.ea m s.me = ea) (d : Fin 32) (sc : Scope)

include hg hsp hea

theorem traps_ld (hx : s.xlate ⟨ty.bits / 8, true, false, .plain⟩ ea = raise k) :
    Traps (.ld gd d m ty .plain sc) s k := by
  refine runW_of_trap hg m.disp.len (body := loadBody (ty.bits / 8) .plain (.g d ty) m .plain sc m.disp.len) ?_
  unfold loadBody
  simp only [hea, hsp, hx]
  rfl

theorem traps_st (hd : s.me.dropped = none) (hx : s.xlate ⟨ty.bits / 8, false, true, .plain⟩ ea = raise k) :
    Traps (.st gd d m ty .plain sc) s k := by
  refine runW_of_trap hg m.disp.len
    (body := fun s => storeBody .plain (leBytes (ty.bits / 8) (s.me.rg d).toNat) m .plain sc s) ?_
  unfold storeBody
  simp only [hea, hsp, dropCheck_of_none hd, length_leBytes, hx]
  rfl

end

/-- Settles O15: each check of `State.xlate` in turn, which `ld` and `st` make before anything else. -/
theorem accessTraps : Obligations.AccessTraps := by
  intro gd d m ty sc s hg hty hsp ea both
  have hea : Mem.ea m s.me = ea := effAddr_eq ..
  have hboth {k : Trap} (hx : ∀ rd wr, s.xlate ⟨ty.bits / 8, rd, wr, .plain⟩ ea = raise k) : both k :=
    ⟨traps_ld hg hsp hea d sc (hx true false), fun hd => traps_st hg hsp hea d sc hd (hx false true)⟩
  refine ⟨fun h => hboth fun _ _ => xlate_handleAddress _ h, fun h hlt => hboth fun _ _ => xlate_badAddress _ h hlt,
    fun hlt hal => hboth fun _ _ => xlate_misaligned _ hlt hal, fun hlow hal hplain => ⟨fun e he => ?unmapped, fun l s' hl =>
      ⟨fun hno => ?load, fun hno hd => ?store⟩⟩⟩
  case unmapped =>
    have hk := hboth fun _ _ => xlate_unmapped hlow hal hplain he
    cases e <;> exact hk
  case load => exact traps_ld hg hsp hea d sc (xlate_denied hlow hal hplain hl (hno.imp_right fun h => .inl ⟨rfl, h⟩))
  case store => exact traps_st hg hsp hea d sc hd (xlate_denied hlow hal hplain hl (hno.imp_right fun h => .inr ⟨rfl, h⟩))

end Sys2Proof.Machine
end

section
/-! PROOFS. Stream ports (R134, R137). -/

namespace Sys2Proof.Machine

open Sys2Proof.Claims

/-! ### The port that binds a register -/

/-- The port that is found is bound to the register. -/
theorem portOf_bound {k : Core} {h : Fin 11} {d : Fin 16} {r : Fin 4} {p : Port} (hp : k.portOf h d = some (r, p)) :
    k.ports[r] = some p ∧ p.strand = h ∧ p.d = d := by
  obtain ⟨j, -, hj⟩ := List.exists_of_findSome?_eq_some hp
  split at hj
  next p' hport =>
    split at hj
    next hbind =>
      obtain ⟨rfl, rfl⟩ := Prod.mk.inj (Option.some.inj hj)
      exact ⟨hport, hbind⟩
    next => exact absurd hj nofun
  next => exact absurd hj nofun

/-- A bound register has a port. -/
theorem portOf_ne_none {k : Core} {h : Fin 11} {d : Fin 16} {r : Fin 4} {p : Port} (hr : k.ports[r] = some p)
    (hbind : p.strand = h ∧ p.d = d) : k.portOf h d ≠ none := by
  intro hnone
  have := List.findSome?_eq_none_iff.1 hnone r (List.mem_finRange r)
  rw [hr] at this
  simp [hbind] at this

/-- The only port that binds the register is found. -/
theorem portOf_only {k : Core} {h : Fin 11} {d : Fin 16} {r : Fin 4} {p : Port} (hr : k.ports[r] = some p)
    (hbind : p.strand = h ∧ p.d = d)
    (honly : ∀ (j : Fin 4) p', j ≠ r → k.ports[j] = some p' → ¬ (p'.strand = h ∧ p'.d = d)) :
    k.portOf h d = some (r, p) := by
  obtain ⟨⟨j, p'⟩, hfound⟩ := Option.ne_none_iff_exists'.1 (portOf_ne_none hr hbind)
  obtain ⟨hj, hbind'⟩ := portOf_bound hfound
  by_cases hjr : j = r
  · subst hjr
    rw [hfound, Option.some.inj (hj.symm.trans hr)]
  · exact absurd hbind' (honly j p' hjr hj)

/-- A register that no port of the strand binds has none (R134). -/
theorem portOf_unbound {s : State} {n : Fin 16} (h : unbound s n) : s.myCore.portOf s.cur.2 n = none := by
  rw [Option.eq_none_iff_forall_not_mem]
  rintro ⟨r, p⟩ hp
  obtain ⟨hr, hbind⟩ := portOf_bound hp
  exact h r p hr hbind

/-! ### A port is set -/

theorem core_setPort_same (s : State) (c : Nat) (q : Fin 4) (p : Option Port) :
    (s.setPort c q p).core c = { s.core c with ports := (s.core c).ports.set q p } :=
  s.core_modCore_same c fun k => { k with ports := k.ports.set q p }

theorem core_setPort_ne (s : State) {c e : Nat} (he : e ≠ c) (q : Fin 4) (p : Option Port) :
    (s.setPort c q p).core e = s.core e :=
  s.core_modCore_ne he _

/-- An instruction that sets one port of the core and completes: what it leaves of the strand, the core and the rest. -/
theorem setPort_completes (s : State) (q : Fin 4) (p : Option Port) (n len : Nat) {t : State}
    (ht : t = ({ s.setPort s.cur.1 q p with nextId := n }).retire len) :
    t.retired = true ∧ SameRegs s.me t.me ∧ t.me.pc = after s len ∧ Inside s t ∧ (t.core s.cur.1).ports[q] = p ∧
      ∀ r : Fin 4, r ≠ q → (t.core s.cur.1).ports[r] = (s.core s.cur.1).ports[r] := by
  let u : State := { s.setPort s.cur.1 q p with nextId := n }
  have hcore : u.core s.cur.1 = { s.core s.cur.1 with ports := (s.core s.cur.1).ports.set q p } :=
    core_setPort_same ..
  have hme : u.me = s.me := by
    show (u.core s.cur.1).strands[s.cur.2] = _
    rw [hcore]
    rfl
  obtain ⟨-, hcores, hmine, -, -⟩ := alone_retire u len
  have hports : (t.core s.cur.1).ports = (s.core s.cur.1).ports.set q p := by
    rw [ht, show (u.retire len).core s.cur.1 = _ from hmine]
    exact congrArg Core.ports hcore
  have htme : t.me = u.me.onward (u.me.pc + BitVec.ofNat 57 len) u.myCore.slot := by rw [ht, State.me_retire]
  rw [hme] at htme
  refine ⟨by rw [ht]; rfl, ?_, ?_, ⟨fun c hc => ?_, by rw [ht]; rfl⟩, ?_, fun r hr => ?_⟩
  · rw [htme]
    exact sameRegs_onward (sameRegs_refl _) _ _
  · rw [htme]
    rfl
  · rw [ht]
    exact (hcores c hc).trans (core_setPort_ne s hc q p)
  · rw [hports]
    simp
  · rw [hports]
    simp [show q.val ≠ r.val from fun e => hr (Fin.ext e.symm)]

/-! ### `sbind` and `sunbind` -/

/-- The port is bound by no other strand: it may be taken (R134). -/
theorem port_mine {s : State} {q : Fin 4} (hmine : ∀ p, s.myCore.ports[q] = some p → p.strand = s.cur.2) :
    s.myCore.ports[q].any (fun p => p.strand != s.cur.2) = false := by
  rw [Option.any_eq_false]
  intro p hp
  simpa using hmine p hp

/-- Settles O24, check by check. -/
theorem streamPorts : Obligations.StreamPorts := by
  intro gd q d a wr ty base s0 n0 s1 n1 s hg k mine
  have hbind := runW_on hg 16 (sbindBody q d a wr ty base s0 n0 s1 n1)
  have hfree := runW_on hg 8 (fun s => do
    trapIf (s.myCore.ports[q].any (fun p => p.strand != s.cur.2)) (Trap.portBusy q.val)
    .ok (s.setPort s.cur.1 q none))
  refine ⟨fun hmine honly => ?bound, fun hmine => ?freed, fun r p hmine hr hport hstrand hd honly => ?misuse,
    fun p hport hother => ?busy⟩
  case bound =>
    have hnone : (s.myCore.portOf s.cur.2 d).any (fun x => x.1 != q) = false := by
      rw [Option.any_eq_false]
      rintro ⟨r, p⟩ hp
      obtain ⟨hr, hb⟩ := portOf_bound hp
      by_contra hne
      exact honly r p (by simpa using hne) hr hb
    have hbase : (s.me.rg a + base.setWidth 64).setWidth 20 = (s.me.rg a).setWidth 20 + base := by
      rw [BitVec.setWidth_add _ _ (by decide)]
      simp
    have hbody : sbindBody q d a wr ty base s0 n0 s1 n1 s = .ok (s.setPort s.cur.1 q (some
        { strand := s.cur.2, d := d, ty := ty, wr := wr, base := (s.me.rg a).setWidth 20 + base, s0 := s0
          n0 := n0.toNat + 1, s1 := s1, n1 := n1.toNat + 1, since := s.nextId, word := base })).fresh := by
      unfold sbindBody
      simp only [port_mine hmine, hnone, trapIf, hbase]
      rfl
    rw [hbody, conclude_ok] at hbind
    exact ⟨_, hbind, setPort_completes s q _ (s.nextId + 1) 16 rfl⟩
  case freed =>
    simp only [port_mine hmine, trapIf] at hfree
    exact ⟨_, hfree, setPort_completes s q none s.nextId 8 rfl⟩
  case misuse =>
    have hport' : s.myCore.portOf s.cur.2 d = some (r, p) := portOf_only hport ⟨hstrand, hd⟩ honly
    have hbody : sbindBody q d a wr ty base s0 n0 s1 n1 s = raise (Trap.streamMisuse r.val) := by
      unfold sbindBody
      simp only [port_mine hmine, hport', trapIf, Option.any_some, bne_iff_ne.2 hr]
      rfl
    exact hbind.trans (by rw [hbody, conclude_raise]; rfl)
  case busy =>
    have hbusy : s.myCore.ports[q].any (fun p => p.strand != s.cur.2) = true := by
      rw [show s.myCore.ports[q] = some p from hport]
      simpa using hother
    refine ⟨hbind.trans ?_, hfree.trans ?_⟩
    · unfold sbindBody
      simp only [hbusy, trapIf]
      rfl
    · simp only [hbusy, trapIf]
      rfl

end Sys2Proof.Machine
end

section
/-! PROOFS. STREAM_READ_AHEAD and PACKET_QUEUE_ADMIT (R138, R226). -/

namespace Sys2Proof.Machine

open Sys2Proof.Claims

/-! ### Windows that are all present (R283) -/

/-- With every window present no access touches an absent one. -/
theorem touched_of_present {k : Core} (h : ∀ (i : Fin 8) w, k.wins[i] = some w → w.present = true) (ls : List Loc) :
    k.touched ls = none := by
  rw [Core.touched, List.find?_eq_none]
  intro i _
  rw [Bool.not_eq_true, List.any_eq_false]
  intro l _
  unfold Core.absentAt
  split
  next => simp
  next w hw => simp [h i w hw]

/-! ### Bytes read from a local store without an uncorrectable word (R148, R151, R152) -/

/-- The core differs in its counts and marks of errors alone. -/
def Core.ErrorsOnly (k k' : Core) : Prop :=
  k' = { k with weak := k'.weak, ecc := k'.ecc, stray := k'.stray, soff := k'.soff }

theorem Core.ErrorsOnly.trans {k k' k'' : Core} (h : k.ErrorsOnly k') (h' : k'.ErrorsOnly k'') : k.ErrorsOnly k'' := by
  unfold Core.ErrorsOnly at h h' ⊢
  rw [h', h]

/-- The byte that a location of the own local store shows: beyond the allocation 0 (R148). -/
def Core.shows (k : Core) (l : Loc) : Byte := if l.at' = .ls then memGet k.ls l.addr else 0

theorem readByte_whole {k : Core} (hbad : k.bad = []) (l : Loc) :
    (k.readByte l).1 = some (k.shows l) ∧ k.ErrorsOnly (k.readByte l).2 := by
  unfold Core.readByte Core.shows
  split
  next hls =>
    simp only [hbad, hls, List.contains_nil]
    refine ⟨rfl, ?_⟩
    unfold Core.ErrorsOnly Core.correct
    simp only [Bool.false_eq_true, if_false]
    split <;> rfl
  next hother =>
    refine ⟨by rw [if_neg hother], ?_⟩
    unfold Core.ErrorsOnly Core.markStray
    dsimp only
    split <;> rfl

/-- Bytes read in order are those that the locations show. -/
theorem readBytes_whole (ls : List Loc) : ∀ k : Core, k.bad = [] →
    (k.readBytes ls).1 = ls.map k.shows ∧ k.ErrorsOnly (k.readBytes ls).2.1 ∧ (k.readBytes ls).2.2 = none := by
  induction ls with
  | nil => exact fun k _ => ⟨rfl, rfl, rfl⟩
  | cons l ls ih =>
    intro k hbad
    obtain ⟨hbyte, hsame⟩ := readByte_whole hbad l
    have hshows : (k.readByte l).2.shows = k.shows := by
      funext x
      rw [Core.shows, Core.shows, hsame]
    obtain ⟨hbytes, hrest, hnone⟩ := ih (k.readByte l).2 (by rw [hsame]; exact hbad)
    rw [Core.readBytes]
    simp only [hbyte, hbytes, hnone, hshows]
    exact ⟨rfl, hsame.trans hrest, rfl⟩

/-- A byte of an access shows what the statements read at its offset. -/
theorem shows_lsLoc (k : Core) (off : Nat) : k.shows (k.lsLoc off) = lsByte k off := by
  have hsize : k.lsSize = 4096 * k.size.toNat := Nat.mul_comm ..
  have hwrap : off % 2 ^ 20 % 2 ^ (k.lspan.toNat + 12) = k.wrap off := rfl
  unfold Core.shows Core.lsLoc lsByte
  simp only [hsize, hwrap]
  by_cases h : k.wrap off < 4096 * k.size.toNat
  · rw [if_pos h, if_pos rfl, if_pos h]
  · rw [if_neg h, if_neg nofun, if_neg h]

/-! ### The next element of a stream (R138) -/

/-- The container of an element (R116). -/
theorem laneOfBits_eq_inLane (ty : Ty) (x : Nat) : laneOfBits ty x = inLane ty x := by
  have hsigned {n : Nat} (hn : 0 < n) : sextN x n = if x % 2 ^ n < 2 ^ (n - 1) then ((x % 2 ^ n : Nat) : Int)
      else ((x % 2 ^ n : Nat) : Int) - (2 ^ n : Nat) := by
    have hpow : 2 ^ n = 2 * 2 ^ (n - 1) := by rw [← Nat.pow_succ', Nat.succ_eq_add_one, Nat.sub_add_cancel hn]
    unfold sextN
    push_cast
    simp only [show 2 * (x % 2 ^ n) < 2 ^ n ↔ x % 2 ^ n < 2 ^ (n - 1) by omega]
  unfold laneOfBits inLane
  cases ty
  case i8 | i16 | i32 | i64 | i4 => exact congrArg (BitVec.ofInt 32) (hsigned (by decide))
  case n8 | n16 | n32 | n64 | n4 => exact BitVec.ofInt_natCast ..
  all_goals rfl

/-- Without a store in the buffer nothing is forwarded. -/
theorem forward_nil {t : Strand} (h : t.buf = []) (id : Nat) (ls : List Loc) : t.forward id ls = .none := by
  unfold Strand.forward
  rw [olderStores_nil h]

/-- An element read from local store: its container, and of the core only marks of errors differ. -/
theorem streamElem_whole {s : State} {c : Nat} {p : Port} (hu : unpaired s c) (hbuf : (s.core c).strands[p.strand].buf = [])
    (hbad : (s.core c).bad = []) (j : Nat) : ∃ k, (s.core c).ErrorsOnly k ∧ s.streamElem c p j = some
      ((inLane p.ty (leNat ((List.range (max (p.ty.bits / 8) 1)).map (fun i => lsByte (s.core c) (elemByte p j + i)))
        / 2 ^ elemBit p j)).toNat, s.setCore c k) := by
  obtain ⟨hbytes, hsame, hnone⟩ := readBytes_whole (p.locs (s.core c) j) (s.core c) hbad
  have hmap : (p.locs (s.core c) j).map (s.core c).shows =
      (List.range (max (p.ty.bits / 8) 1)).map (fun i => lsByte (s.core c) (elemByte p j + i)) := by
    rw [Port.locs, Core.lsRange, List.map_map]
    exact List.map_congr_left fun i _ => shows_lsLoc ..
  refine ⟨_, hsame, ?_⟩
  unfold State.streamElem
  simp only [forward_nil hbuf, State.readLs, hbytes, hnone, hmap, laneOfBits_eq_inLane, Option.isSome_none]
  rw [lsError_clean (s := s.setCore c _) hu]
  rfl

/-- A bound read stream with elements left, in a core without windows, takes the next one (R138). -/
theorem streamReadAhead_happens {s : State} {c : Nat} {q : Fin 4} {p : Port} (hport : (s.core c).ports[q] = some p)
    (hu : unpaired s c) (hbuf : (s.core c).strands[p.strand].buf = []) (hbad : (s.core c).bad = []) (hwr : p.wr = false)
    (hleft : p.pos + p.ahead.length < p.total) (hwins : ∀ i : Fin 8, (s.core c).wins[i] = none) :
    let j := p.pos + p.ahead.length
    Happens (.streamReadAhead c q) s (fun t =>
      (t.core c).ports[q] = some { p with ahead := p.ahead ++ [(inLane p.ty
        (leNat ((List.range (max (p.ty.bits / 8) 1)).map (fun i => lsByte (s.core c) (elemByte p j + i)))
          / 2 ^ elemBit p j)).toNat] } ∧
      (∀ r : Fin 4, r ≠ q → (t.core c).ports[r] = (s.core c).ports[r]) ∧ (t.core c).strands = (s.core c).strands ∧
      (t.core c).ls = (s.core c).ls ∧ (∀ e, e ≠ c → t.core e = s.core e) ∧ t.mem = s.mem) := by
  intro j
  obtain ⟨k, hk, helem⟩ := streamElem_whole hu hbuf hbad j
  have htouch := touched_of_present (k := s.core c) (fun i w hw => by simp [hwins i] at hw) (p.locs (s.core c) j)
  have hread : s.readAhead c q = (s.streamElem c p j).map
      (fun x => x.2.setPort c q (some { p with ahead := p.ahead ++ [x.1] })) := by
    unfold State.readAhead
    rw [hport]
    simp [hwr, j, htouch, Nat.not_le.2 hleft]
  have hexec : exec (.streamReadAhead c q) s = .next (((s.streamElem c p j).map
      (fun x => x.2.setPort c q (some { p with ahead := p.ahead ++ [x.1] }))).getD s) := by
    rw [← hread]
    rfl
  rw [helem, Option.map_some, Option.getD_some] at hexec
  have hcore {pt : Option Port} : ((s.setCore c k).setPort c q pt).core c = { k with ports := k.ports.set q pt } := by
    rw [core_setPort_same, State.core_setCore_same]
  have hports : k.ports = (s.core c).ports := by rw [hk]
  refine ⟨_, hexec, ?_, fun r hr => ?_, ?_, ?_, fun e he => ?_, rfl⟩
  · rw [hcore]
    simp
  · rw [hcore]
    simp [show q.val ≠ r.val from fun e => hr (Fin.ext e.symm), hports]
  · rw [hcore, hk]
  · rw [hcore, hk]
  · rw [core_setPort_ne _ he, State.core_setCore_ne _ he]

/-- A write stream, or one whose elements are all taken, reads nothing ahead (R138). -/
theorem streamReadAhead_sleeps {s : State} {c : Nat} {q : Fin 4} {p : Port} (hport : (s.core c).ports[q] = some p)
    (h : p.wr = true ∨ p.total ≤ p.pos + p.ahead.length) : Sleeps (.streamReadAhead c q) s := by
  have hnone : s.readAhead c q = none := by
    unfold State.readAhead
    rw [hport]
    rcases h with h | h <;> simp [h]
  show runE s (s.readAhead c q) = .next s
  rw [hnone, runE_none]

/-! ### A held packet takes a slot (R226) -/

section

variable {s : State} {c : Nat} {p : Packet} {ps : List Packet} (hheld : (s.core c).held = p :: ps)
  (hdepth : packetDepth p = 0)

include hheld hdepth

/-- A held packet of depth 0 goes to the supervisor, when there is room and none before it. -/
theorem exec_packetQueueAdmit : exec (.packetQueueAdmit c) s =
    if (s.cluster (c / 36)).pqCount < 64 && (s.heldIn (c / 36)).all (fun q => decide (packetSeq p ≤ packetSeq q)) then
      .next ((s.modCore c (fun x => { x with held := ps })).enqueuePacket (c / 36) p (s.cluster (c / 36)).sup)
    else .next s := by
  show runE s (s.admitHeld c) = _
  unfold State.admitHeld
  rw [hheld]
  simp only [hdepth, Cluster.receiver, if_true]
  exact apply_ite (runE s) _ _ none

/-- With room in the queue the packet sent before all others that are held takes its slot (R226). -/
theorem packetQueueAdmit_happens (hfirst : ∀ q ∈ s.heldIn (c / 36), packetSeq p ≤ packetSeq q)
    (hroom : (s.cluster (c / 36)).pqCount < 64) (hsup : 36 * (c / 36) + (s.cluster (c / 36)).sup ≠ c)
    (hrq : (s.core (36 * (c / 36) + (s.cluster (c / 36)).sup)).rq.length < 32)
    (hovf : (s.core (36 * (c / 36) + (s.cluster (c / 36)).sup)).ovf = []) :
    let u := c / 36
    let x := s.cluster u
    let sup := 36 * u + x.sup
    Happens (.packetQueueAdmit c) s (fun t => (t.core c) = { s.core c with held := ps } ∧
      (t.cluster u).slots.toList[(x.pqHead + x.pqCount) % 64]? = some p ∧ (t.cluster u).pqCount = x.pqCount + 1 ∧
      (t.core sup).rq = (s.core sup).rq ++ [⟨2, false, 0, 0xFFFF, (p.take 4).flatMap (fun w => leBytes 8 w.toNat)⟩] ∧
      t.mem = s.mem) := by
  intro u x sup
  have hexec := exec_packetQueueAdmit hheld hdepth
  rw [if_pos (by simpa [hroom] using hfirst)] at hexec
  let s' := s.modCore c (fun x => { x with held := ps })
  have hcore : s'.core sup = s.core sup := s.core_modCore_ne hsup _
  obtain ⟨drop, hclu⟩ := cluster_enqueuePacket s' u p x.sup
  rw [cluster_slotted] at hclu
  refine ⟨_, hexec, ?_, ?_, ?_, ?_, ?_⟩
  · exact (core_enqueuePacket_ne s' hsup.symm p).trans (s.core_modCore_same c _)
  · rw [hclu]
    exact toList_set_same _ _ (Nat.mod_lt _ (by decide)) p
  · rw [hclu]
    rfl
  · rw [show (s'.enqueuePacket u p x.sup).core sup = _ from
      core_enqueuePacket_room s' (by rw [hcore]; exact hrq) (by rw [hcore]; exact hovf) p]
    exact congrArg (fun k : Core => k.rq ++ [packetMsg p]) hcore
  · exact mem_enqueuePacket ..

/-- A packet stays held while the queue is full or another that was sent before it is held (R226). -/
theorem packetQueueAdmit_sleeps
    (h : 64 ≤ (s.cluster (c / 36)).pqCount ∨ ∃ q ∈ s.heldIn (c / 36), packetSeq q < packetSeq p) :
    Sleeps (.packetQueueAdmit c) s := by
  have hno : (decide ((s.cluster (c / 36)).pqCount < 64) &&
      (s.heldIn (c / 36)).all (fun q => decide (packetSeq p ≤ packetSeq q))) = false := by
    rcases h with hfull | ⟨q, hq, hlt⟩
    · simp [Nat.not_lt.2 hfull]
    · rw [Bool.and_eq_false_iff, List.all_eq_false]
      exact .inr ⟨q, hq, by simpa using hlt⟩
  exact (exec_packetQueueAdmit hheld hdepth).trans (if_neg (by simp [hno]))

end

/-- Settles O45: each event takes place when it is due, and sleeps when it is not. -/
theorem readsAheadAndAdmits : Obligations.ReadsAheadAndAdmits := by
  constructor
  · intro s c q p k j hport hu _ hbuf hbad
    exact ⟨streamReadAhead_happens hport hu hbuf hbad, streamReadAhead_sleeps hport⟩
  · intro s c p ps u x sup hheld hdepth _
    exact ⟨packetQueueAdmit_happens hheld hdepth, packetQueueAdmit_sleeps hheld hdepth⟩

end Sys2Proof.Machine
end

section
/-! PROOFS. The instructions that a prefix may precede leave the issuing strand the issuing strand (R141): what their
operands and accesses change is elsewhere in the state. -/

namespace Sys2Proof.Machine
open Sys2Proof.Claims

namespace State

theorem cur_send (s : State) (c depth : Nat) (pk : Packet) : (s.send c depth pk).cur = s.cur := by
  unfold send
  dsimp only
  split
  · rfl
  · split
    · exact cur_enqueuePacket ..
    · rfl

theorem cur_notice (s : State) (c : Nat) (h : Fin 11) (off : Nat) (pc : Pc) (iw : Word) :
    (s.notice c h off pc iw).cur = s.cur := by
  unfold notice
  split
  · rfl
  · exact cur_send ..

theorem cur_splitRead (s : State) (c : Nat) (h : Fin 11) (ls : List Loc) (pc : Pc) (iw : Word) :
    (s.splitRead c h ls pc iw).cur = s.cur := by
  unfold splitRead
  split
  · rfl
  · dsimp only
    split <;> split
    · rfl
    · rfl
    · exact cur_notice ..
    · exact cur_notice ..

theorem cur_lsError (s : State) (c : Nat) (h : Fin 11) (bad : Bool) (ls : List Loc) (pc : Pc) (iw : Word) :
    (s.lsError c h bad ls pc iw).cur = s.cur := by
  unfold lsError
  dsimp only
  split
  · split
    · exact cur_splitRead ..
    · exact (cur_notice ..).trans (cur_splitRead ..)
  · exact cur_splitRead ..

theorem cur_readLs (s : State) (c : Nat) (h : Fin 11) (ls : List Loc) : (s.readLs c h ls).2.cur = s.cur :=
  cur_lsError ..

theorem cur_leafFor {s t : State} {c ctx va : Nat} {l : Leaf} (h : s.leafFor c ctx va = .ok (l, t)) : t.cur = s.cur := by
  unfold leafFor at h
  split at h
  · cases h
    rfl
  · dsimp only at h
    split at h
    · cases h
      rfl
    · split at h <;> cases h
      rfl

theorem cur_askRemote (s : State) (locs : List Loc) : (s.askRemote locs).cur = s.cur := by
  unfold askRemote
  split
  · next m a rest =>
    have h : s.OnlyLinks _ := OnlyLinks.txTo s m 0 a (.load m a (⟨.remote m, a⟩ :: rest : List Loc).length)
    rw [h]
  · rfl

@[simp] theorem cur_issueLoad (s : State) (locs : List Loc) (dst : LoadDst) (o : Order) (sc : Scope) (va : Word)
    (lane len : Nat) : (s.issueLoad locs dst o sc va lane len).cur = s.cur := cur_askRemote ..

end State

/-! ### What a body answers, when it completes -/

/-- Every state that a result answers has `c` for its issuing strand. -/
def AtCur (c : Nat × Fin 11) (r : Res State) : Prop := SatisfiesM (fun t => t.cur = c) r

namespace AtCur

variable {c : Nat × Fin 11} {s : State} {α : Type}

theorem iff {r : Res State} : AtCur c r ↔ ∀ t, r = .ok t → t.cur = c := SatisfiesM_Except_eq

theorem ok {t : State} (h : t.cur = c) : AtCur c (.ok t) := .pure h

theorem okPair {a : α} {t : State} (h : t.cur = c) :
    SatisfiesM (fun y : α × State => y.2.cur = c) (.ok (a, t) : Res (α × State)) :=
  .pure h

theorem errorPair (e : Stop) : SatisfiesM (fun y : α × State => y.2.cur = c) (.error e : Res (α × State)) :=
  SatisfiesM_Except_eq.mpr nofun

theorem checkPair {β : Type} {x : Res β} {f : β → Res (α × State)} (h : ∀ a, SatisfiesM (fun y : α × State => y.2.cur = c) (f a)) :
    SatisfiesM (fun y : α × State => y.2.cur = c) (x >>= f) :=
  .bind .trivial fun a _ => h a

theorem error (e : Stop) : AtCur c (.error e) := iff.mpr nofun

/-- After a check that answers no state the state is as it was. -/
theorem check {x : Res α} {f : α → Res State} (h : ∀ a, AtCur c (f a)) : AtCur c (x >>= f) :=
  .bind .trivial fun a _ => h a

theorem bind {x : Res State} {f : State → Res State} (hx : AtCur c x) (h : ∀ t, t.cur = c → AtCur c (f t)) :
    AtCur c (x >>= f) := SatisfiesM.bind hx h

theorem ite {b : Prop} [Decidable b] {x y : Res State} (hx : AtCur c x) (hy : AtCur c y) :
    AtCur c (if b then x else y) := by
  split
  · exact hx
  · exact hy

/-- A step that answers a value beside the state. -/
theorem bindPair {x : Res (α × State)} {f : α × State → Res State} (hx : SatisfiesM (fun y => y.2.cur = c) x)
    (h : ∀ y, y.2.cur = c → AtCur c (f y)) : AtCur c (x >>= f) := SatisfiesM.bind hx h

end AtCur

namespace State

variable (s : State)

theorem atCur_touchAt (m : Nat) (ls : List Loc) : AtCur s.cur (s.touchAt m ls) := by
  unfold touchAt
  dsimp only
  split
  · exact .ok rfl
  · split
    · split
      · exact .error _
      · exact .error _
    · exact .error _

theorem atCur_touch (ls : List Loc) : AtCur s.cur (s.touch ls) := atCur_touchAt ..

theorem atCur_touchPeer (l : Loc) (n : Nat) : AtCur s.cur (s.touchPeer l n) := by
  unfold touchPeer
  split
  · split
    · exact .ok rfl
    · exact atCur_touchAt ..
  · exact .ok rfl

theorem atCur_engineUse (clu : Nat) (l : Loc) : AtCur s.cur (s.engineUse clu l) := by
  unfold engineUse
  split
  · exact .ok rfl
  · dsimp only
    split
    · exact .ok rfl
    · split
      · exact .ok rfl
      · split <;> exact .error _

theorem atCur_poisonCheck (ea : Word) (l : Loc) : AtCur s.cur (s.poisonCheck ea l) := by
  unfold poisonCheck
  split
  · split
    · exact .check fun _ => .ok rfl
    · exact .check fun _ => .ok rfl
  · exact .bind (atCur_engineUse ..) fun t ht => .check fun _ => .ok ht
  · split
    · exact .ok rfl
    · split
      · exact .ok rfl
      · split
        · exact .ok rfl
        · exact .error _
  · exact .ok rfl

/-- The translation answers the state with the leaf held. -/
theorem cur_xlate (a : Acc) (ea : Word) : SatisfiesM (fun y : Loc × State => y.2.cur = s.cur) (s.xlate a ea) := by
  unfold xlate
  refine AtCur.checkPair fun _ => AtCur.checkPair fun _ => AtCur.checkPair fun _ => ?_
  extract_lets ctx
  split
  · exact AtCur.checkPair fun _ => AtCur.okPair rfl
  · split
    · exact AtCur.checkPair fun _ => AtCur.okPair rfl
    · split
      · exact AtCur.errorPair _
      · next l t h =>
        refine AtCur.checkPair fun _ => ?_
        have ht := cur_leafFor h
        split
        · exact AtCur.okPair ht
        · exact AtCur.okPair ht
        · exact AtCur.okPair ht
        · split
          · exact AtCur.errorPair _
          · split
            · exact AtCur.errorPair _
            · split
              · exact AtCur.errorPair _
              · split
                · exact AtCur.errorPair _
                · exact AtCur.okPair ht

/-! ### Operands of vector instructions -/

theorem cur_foldl {α : Type} {f : State → α → State} (h : ∀ s x, (f s x).cur = s.cur) :
    ∀ (xs : List α) (s : State), (xs.foldl f s).cur = s.cur
  | [], _ => rfl
  | x :: xs, s => (cur_foldl h xs (f s x)).trans (h s x)

theorem cur_streamElem {t : State} {c : Nat} {p : Port} {j x : Nat} (h : s.streamElem c p j = some (x, t)) :
    t.cur = s.cur := by
  unfold streamElem at h
  dsimp only at h
  split at h
  · cases h
  · cases h
    rfl
  · cases h
    exact cur_readLs ..

theorem cur_streamElems (c : Nat) (p : Port) (js : List Nat) : (s.streamElems c p js).2.cur = s.cur := by
  induction js generalizing s with
  | nil => rfl
  | cons j js ih =>
    unfold streamElems
    split
    · rfl
    · next h => exact (ih _).trans (s.cur_streamElem h)

theorem cur_vread (w : Nat) (o : VOp) : (s.vread w o).2.cur = s.cur := by
  unfold vread
  split
  · split
    · exact cur_streamElems ..
    · rfl
  · exact cur_readLs ..

theorem cur_vreadAll (w : Nat) (os : List VOp) (acc : List (VOp × Vec)) : (s.vreadAll w os acc).2.cur = s.cur := by
  induction os generalizing s acc with
  | nil => rfl
  | cons o os ih =>
    unfold vreadAll
    split
    · exact ih ..
    · exact (ih ..).trans (cur_vread ..)

theorem cur_vreads (cq : Option CQual) (srcs : List VOp) : (s.vreads cq srcs).2.cur = s.cur := cur_vreadAll ..

theorem cur_vold (cq : Option CQual) (dst : VOp) : (s.vold cq dst).2.cur = s.cur := by
  cases dst with
  | v n => rfl
  | c n => exact cur_readLs ..

theorem cur_pushTorn (grp : Nat) (bytes : List (Loc × Byte)) (o : Order) (sc : Scope) (va : Word) :
    (s.pushTorn grp bytes o sc va).cur = s.cur := by
  unfold pushTorn
  exact cur_foldl (fun _ _ => by rfl) bytes s

theorem cur_pushParts (parts : List (Loc × Byte × Byte)) (o : Order) (sc : Scope) (vas : List Word) (el : Nat) :
    (s.pushParts parts o sc vas el).cur = s.cur := by
  unfold pushParts
  dsimp only
  split <;> rfl

theorem cur_vwrite (cq : Option CQual) (dst : VOp) (on act : Fin 16 → Bool) (x : Vec) :
    (s.vwrite cq dst on act x).cur = s.cur := by
  cases dst with
  | v n =>
    unfold vwrite
    dsimp only
    split
    · exact cur_pushParts ..
    · rfl
  | c n => rfl

theorem cur_advances (prod : Bool) (k : Nat) (cond : List RelCond) (of : Option (Fin 4 × Nat)) (cs : List (Fin 16)) :
    (cs.foldl (fun s c => s.advance c prod k cond of) s).cur = s.cur :=
  cur_foldl (f := fun s c => s.advance c prod k cond of) (fun _ _ => rfl) cs s

theorem cur_vadvance (cq : Option CQual) (srcs : List VOp) (dst : Option VOp) (cond : List RelCond) :
    (s.vadvance cq srcs dst cond).cur = s.cur := by
  unfold vadvance
  split
  · exact (cur_advances ..).trans (cur_advances ..)
  · rfl

theorem atCur_vblocks (cq : Option CQual) (srcs : List VOp) (dst : Option VOp) : AtCur s.cur (s.vblocks cq srcs dst) :=
  .check fun _ => .check fun _ => atCur_touch ..

theorem atCur_vcheck (cq : Option CQual) (srcs : List VOp) (dst : Option VOp) : AtCur s.cur (s.vcheck cq srcs dst) :=
  .bind (atCur_vblocks ..) fun _ ht => .check fun _ => .ok ht

/-! ### Elements of vector accesses -/

theorem cur_nameLane {l : Fin 16} {c : Nat × Fin 11} {r : Res (Loc × State)} (h : SatisfiesM (fun y => y.2.cur = c) r) :
    SatisfiesM (fun y => y.2.cur = c) (nameLane l r) := by
  unfold nameLane
  split
  · split <;> exact AtCur.errorPair _
  · exact h

theorem atCur_nameLane {l : Fin 16} {c : Nat × Fin 11} {r : Res State} (h : AtCur c r) : AtCur c (nameLane l r) := by
  unfold nameLane
  split
  · split <;> exact .error _
  · exact h

theorem cur_laneElems (sp load : Bool) (n : Nat) (ls : List (Fin 16 × Word × Nat)) :
    SatisfiesM (fun y : List Elem × State => y.2.cur = s.cur) (s.laneElems sp load n ls) := by
  induction ls generalizing s with
  | nil => exact AtCur.okPair rfl
  | cons x ls ih =>
    unfold laneElems
    cases sp
    · refine .bind (cur_nameLane (s.cur_xlate ..)) fun ⟨p, u⟩ hu => ?_
      have hrest : ∀ t : State, t.cur = s.cur → SatisfiesM (fun y : List Elem × State => y.2.cur = s.cur) (do
          let r ← t.laneElems false load n ls
          .ok (⟨x.1, x.2.1, x.2.2, p.span n⟩ :: r.1, r.2)) :=
        fun t ht => .bind (ht ▸ ih t) fun _ hz => AtCur.okPair hz
      cases load
      · exact hrest u hu
      · exact .bind (p := fun t : State => t.cur = s.cur) (atCur_nameLane (hu ▸ atCur_poisonCheck u ..)) hrest
    · exact .bind (ih s) fun y hy => AtCur.okPair hy

theorem cur_elems (s0 : State) (sp load : Bool) (ty : Ty) (act : Fin 16 → Bool) (at' : Fin 16 → Word × Nat) :
    SatisfiesM (fun y : List Elem × State => y.2.cur = s.cur) (s.elems s0 sp load ty act at') := by
  unfold elems
  refine .bind (cur_laneElems ..) fun y hy => ?_
  cases sp
  · exact AtCur.checkPair fun _ => AtCur.okPair hy
  · exact AtCur.checkPair fun _ => AtCur.okPair hy

theorem cur_issueElems (dst : Elem → LoadDst) (o : Order) (sc : Scope) (len : Nat) (es : List Elem) :
    (s.issueElems dst o sc len es).cur = s.cur := by
  induction es generalizing s with
  | nil => rfl
  | cons e es ih => exact (ih _).trans (cur_issueLoad ..)

theorem atCur_vloadTo (d : VOp) (ty : Ty) (o : Order) (sc : Scope) (cq : Option CQual) (srcs : List VOp)
    (act : Fin 16 → Bool) (len : Nat) (es : List Elem) (s0 : State) :
    AtCur s.cur (vloadTo d ty o sc cq srcs act len es s0 s) := by
  unfold vloadTo
  cases d with
  | v n =>
    dsimp only
    split
    · exact .ok ((cur_vadvance ..).trans ((cur_pushParts ..).trans (cur_issueElems ..)))
    · exact .ok ((cur_vadvance ..).trans (cur_issueElems ..))
  | c n => exact .ok ((cur_vadvance ..).trans (cur_issueElems ..))

theorem cur_scatter (ty : Ty) (o : Order) (sc : Scope) (v : Vec) (es : List Elem) :
    (s.scatter ty o sc v es).cur = s.cur := by
  induction es generalizing s with
  | nil => rfl
  | cons e es ih => exact (ih _).trans (cur_pushParts ..)

/-! ### Operands of engine operations -/

theorem atCur_eq0Reads (ls : List Loc) : AtCur s.cur (s.eq0Reads ls) :=
  .bind (atCur_touch ..) fun t ht => by
    split
    · exact .error _
    · exact .ok ((cur_splitRead ..).trans ht)

theorem cur_eq0Advance (cq : Option CQual) (srcs : List EOp) (dst : Option EOp) (id : Nat) :
    (s.eq0Advance cq srcs dst id).cur = s.cur := by
  unfold eq0Advance
  split
  · exact (cur_advances ..).trans (cur_advances ..)
  · rfl

theorem cur_enterEq0 (cq : Option CQual) (srcs : List EOp) (dst : Option EOp) (kind : Eq0Kind) (bad : Option Nat)
    (f : Core → Core) : (s.enterEq0 cq srcs dst kind bad f).cur = s.cur := by
  unfold enterEq0
  dsimp only
  split
  · rfl
  · refine (cur_eq0Advance ..).trans ?_
    cases bad <;> rfl

end State

/-! ### The bodies -/

section

variable (s : State)

theorem atCur_loadBody (n : Nat) (shape : AccShape) (dst : LoadDst) (m : Mem) (o : Order) (sc : Scope) (len : Nat) :
    AtCur s.cur (loadBody n shape dst m o sc len s) := by
  unfold loadBody
  dsimp only
  split
  · exact .bind (s.atCur_touch _) fun t ht => .ok ((t.cur_issueLoad ..).trans ht)
  · refine .check fun _ => .bindPair (s.cur_xlate ..) fun y hy => .bind (hy ▸ y.2.atCur_poisonCheck ..) fun t ht =>
      .bind (ht ▸ t.atCur_touchPeer ..) fun u hu => ?_
    have hi := (u.cur_issueLoad (y.1.span n) dst o sc (Mem.ea m s.me) 0 len).trans hu
    split <;> exact .ok hi

theorem atCur_storeBody (shape : AccShape) (bs : List Byte) (m : Mem) (o : Order) (sc : Scope) :
    AtCur s.cur (storeBody shape bs m o sc s) := by
  unfold storeBody
  dsimp only
  split
  · refine .bind (s.atCur_touch _) fun t ht => .check fun _ => .ok ?_
    split
    · exact (t.cur_pushTorn ..).trans ht
    · exact ht
  · refine .check fun _ => .bindPair (s.cur_xlate ..) fun y hy => .bind (hy ▸ y.2.atCur_touchPeer ..) fun t ht =>
      .check fun _ => .ok ?_
    split <;> exact ht

theorem atCur_lanesBody (cq : Option CQual) (srcs : List VOp) (dst : VOp) (old : Bool) (on act : Strand → Fin 16 → Bool)
    (f : LaneFn) : AtCur s.cur (lanesBody cq srcs dst old on act f s) := by
  unfold lanesBody
  refine .bind (s.atCur_vcheck ..) fun t ht => ?_
  have hread := (t.cur_vreads cq srcs).trans ht
  cases old
  · exact .ok ((State.cur_vadvance ..).trans ((State.cur_vwrite ..).trans hread))
  · exact .check fun _ => .ok ((State.cur_vadvance ..).trans ((State.cur_vwrite ..).trans ((State.cur_vold ..).trans hread)))

theorem atCur_vcmpBody (gd : Guard) (d : Fin 8) (a : VOp) (b : VB) (cond : Cond) (ty : Ty) (cq : Option CQual) :
    AtCur s.cur (vcmpBody gd d a b cond ty cq s) :=
  .bind (s.atCur_vcheck ..) fun t ht => .ok ((State.cur_vadvance ..).trans ((t.cur_vreads ..).trans ht))

theorem atCur_vmovToG (gd : Guard) (d : Fin 32) (a : VOp) (n : Fin 16) (cq : Option CQual) :
    AtCur s.cur (vmovToG gd d a n cq s) := by
  refine .bind (s.atCur_vcheck ..) fun t ht => .ok ((State.cur_vadvance ..).trans ?_)
  split <;> exact (t.cur_vreads ..).trans ht

theorem atCur_vldBody (x : VMem) : AtCur s.cur (vldBody x s) :=
  .bind (s.atCur_vblocks ..) fun t ht => .bindPair (ht ▸ t.cur_elems ..) fun y hy => .check fun _ =>
    hy ▸ y.2.atCur_vloadTo ..

theorem atCur_vgathBody (x : VIdx) : AtCur s.cur (vgathBody x s) :=
  .bind (s.atCur_vblocks ..) fun t ht => .check fun _ =>
    .bindPair (((t.cur_vreads ..).trans ht) ▸ State.cur_elems ..) fun y hy => .check fun _ => hy ▸ y.2.atCur_vloadTo ..

theorem atCur_vstBody (x : VMem) : AtCur s.cur (vstBody x s) :=
  .check fun _ => .bind (s.atCur_vblocks ..) fun t ht => .bindPair (ht ▸ t.cur_elems ..) fun y hy => .check fun _ =>
    .check fun _ => .ok ((State.cur_pushParts ..).trans ((y.2.cur_vreads ..).trans hy))

theorem atCur_vscatBody (x : VIdx) : AtCur s.cur (vscatBody x s) :=
  .check fun _ => .bind (s.atCur_vblocks ..) fun t ht => .check fun _ => .bindPair (ht ▸ t.cur_elems ..) fun y hy =>
    .check fun _ => .check fun _ =>
      .ok ((State.cur_vadvance ..).trans ((State.cur_scatter ..).trans ((y.2.cur_vreads ..).trans hy)))

theorem atCur_lplanBody (k : Fin 8) (rcd : EOp) (fmt : Fmt) (cq : Option CQual) : AtCur s.cur (lplanBody k rcd fmt cq s) :=
  .check fun _ => .check fun _ => .bind (s.atCur_eq0Reads _) fun _ ht => .check fun _ =>
    .ok ((State.cur_enterEq0 ..).trans ht)

theorem atCur_dotBody (x : Dot) (two : Bool) : AtCur s.cur (dotBody x two s) := by
  refine .check fun _ => .check fun _ => .check fun _ => .bind (s.atCur_eq0Reads _) fun t ht => ?_
  have hok : ∀ kind bad k, AtCur s.cur (.ok ((t.modMyCore fun _ => k).enterEq0 x.cq [x.act, x.rcd] none kind bad id)) :=
    fun _ _ _ => .ok ((State.cur_enterEq0 ..).trans ht)
  exact .ite (.check fun _ => .ite (.check fun _ => hok ..) (hok ..)) (hok ..)

theorem atCur_lsortBody (dst src : EOp) (fmt : Fmt) (ty : Ty) (md : Round) (cq : Option CQual) :
    AtCur s.cur (lsortBody dst src fmt ty md cq s) :=
  .check fun _ => .check fun _ => .check fun _ => .bind (s.atCur_eq0Reads _) fun _ ht =>
    .ok ((State.cur_enterEq0 ..).trans ht)

theorem atCur_plainOp (kind : Eq0Kind) : AtCur s.cur (plainOp kind s) := .check fun _ => .ok (State.cur_enterEq0 ..)

theorem atCur_lrdVBody (d : VOp) (w : Fin 64) (ty : Ty) (md : Round) (cq : Option CQual) :
    AtCur s.cur (lrdVBody d w ty md cq s) := by
  cases d with
  | v n => exact .ok rfl
  | c n =>
    exact .bind (s.atCur_vcheck ..) fun t ht => .ok ((State.cur_vadvance ..).trans ((State.cur_vwrite ..).trans ht))

end

end Sys2Proof.Machine
end

section
/-! PROOFS. One repeat of a prefix: it is its instruction, and what follows when that completes (R143, R146). -/

namespace Sys2Proof.Machine
open Sys2Proof.Claims

/-- An instruction that completes leaves the issuing strand of `s` the issuing strand. -/
def StaysOn (s : State) (o : Host.Outcome State Fault Refusal) : Prop :=
  ∀ t, o = .next t → t.retired = true → t.cur = s.cur

theorem atCur_binBody (f : LaneOp) (x : VBin) (s : State) : AtCur s.cur (binBody f x s) := by
  unfold binBody vecBody
  exact atCur_lanesBody ..

theorem atCur_unBody (f : Lane → Lane × Flags) (x : VUn) (s : State) : AtCur s.cur (unBody f x s) := by
  unfold unBody vecBody
  exact atCur_lanesBody ..

theorem atCur_triBody (neg : Bool) (x : VTri) (s : State) : AtCur s.cur (triBody neg x s) := by
  unfold triBody vecBody
  exact atCur_lanesBody ..

theorem atCur_specBody (f : Nat) (x : Spec) (s : State) : AtCur s.cur (specBody f x s) := by
  unfold specBody vecBody
  exact atCur_lanesBody ..

theorem atCur_vecBody (cq : Option CQual) (srcs : List VOp) (dst : VOp) (old : Bool) (act : Strand → Fin 16 → Bool)
    (f : LaneFn) (s : State) : AtCur s.cur (vecBody cq srcs dst old act f s) := by
  unfold vecBody
  exact atCur_lanesBody ..

theorem retired_takeTrap (s : State) (x : Trap) : (s.takeTrap x).retired = false := by
  unfold State.takeTrap
  split <;> rfl

theorem staysOn_conclude {s : State} {r : Res State} (h : AtCur s.cur r) (len : Nat) :
    StaysOn s (conclude s r (fun s' => s'.retire len)) := by
  intro t ht hr
  obtain ⟨x, hx, e⟩ | ⟨_, e⟩ | ⟨_, e⟩ | ⟨_, _, e⟩ | ⟨_, e⟩ | ⟨_, e⟩ := conclude_cases s (fun s' => s'.retire len) r <;>
    rw [e] at ht <;> cases ht
  · exact AtCur.iff.mp h x hx
  · simp [retired_takeTrap] at hr
  · simp [retired_takeTrap] at hr
  · cases hr
  · cases hr

theorem staysOn_runL {s : State} {len : Nat} {body : State → Res State} (h : AtCur s.cur (body s)) :
    StaysOn s (runL len s body) := staysOn_conclude h len

theorem staysOn_runW {g : Guard} {s : State} {len : Nat} {body : State → Res State} (h : AtCur s.cur (body s)) :
    StaysOn s (runW g len s body) := by
  unfold runW
  split
  · exact staysOn_conclude h len
  · intro t ht _
    cases ht
    rfl

theorem staysOn_runR {g : Guard} {s : State} {len : Nat} {f : Strand → Strand} : StaysOn s (runR g len s f) :=
  staysOn_runW (.ok rfl)

theorem staysOn_next {s t : State} (h : t.cur = s.cur) : StaysOn s (.next t) := fun _ e _ => by
  cases e
  exact h

/-- Every repeat leaves its strand the issuing strand when it completes. -/
theorem staysOn_repeatMeaning (b : Instr) (s : State) : StaysOn s (repeatMeaning b s) := by
  cases b with
  | add x | sub x | mul x | mulh x | div x | rem x | and x | or x | xor x | andn x | shl x | shr x | sar x | rol x
  | clz x | ctz x | popc x | min x | max x | mov x => exact staysOn_runR
  | sel gd d a b c | cmp gd cond ty d a b | bext gd d a pos w1 sg | bins gd d a pos w1 | lea gd d a b sc disp
  | li gd d i => exact staysOn_runR
  | lrd gd d w ty r | lrdRaw gd d b w | lrdSt gd d w => exact staysOn_runR
  | ld gd d m ty o sc => exact staysOn_runW (atCur_loadBody ..)
  | st gd d m ty o sc => exact staysOn_runW (atCur_storeBody ..)
  | vadd x | vsub x | vmul x | vmin x | vmax x | vand x | vor x | vxor x | vshl x | vshr x | vsar x =>
    exact staysOn_runL (atCur_binBody ..)
  | vabs x | vneg x => exact staysOn_runL (atCur_unBody ..)
  | vfma x | vfms x => exact staysOn_runL (atCur_triBody ..)
  | vcvt gd d a src dst r cq | vsel gd d a b c cq | vperm gd d a b cq | vdot gd d a b ty z cq =>
    exact staysOn_runL (atCur_vecBody ..)
  | vsum gd d a ty sat r cq => exact staysOn_runL (atCur_lanesBody ..)
  | fexp x | flog x | frcp x | frsq x | fsqrt x | fsin x | fcos x | ftanh x | fsig x | fgelu x | fsilu x | ferf x =>
    exact staysOn_runL (atCur_specBody ..)
  | vbcast gd d src cq => cases src <;> exact staysOn_runL (atCur_vecBody ..)
  | vcmp gd d a b cond ty cq => exact staysOn_runL (atCur_vcmpBody ..)
  | vmov gd form cq =>
    cases form with
    | vec d a => exact staysOn_runL (atCur_vecBody ..)
    | fromG d a n => exact staysOn_runL (atCur_lanesBody ..)
    | toG d a n => exact staysOn_runL (atCur_vmovToG ..)
  | vld x => exact staysOn_runL (atCur_vldBody ..)
  | vst x => exact staysOn_runL (atCur_vstBody ..)
  | vgath x => exact staysOn_runL (atCur_vgathBody ..)
  | vscat x => exact staysOn_runL (atCur_vscatBody ..)
  | lplan gd k rcd fmt cq => exact staysOn_runW (atCur_lplanBody ..)
  | ldot x | ldot2 x => exact staysOn_runW (atCur_dotBody ..)
  | lsort gd dst src fmt ty r cq => exact staysOn_runW (atCur_lsortBody ..)
  | lclr gd w a => exact staysOn_runW (atCur_plainOp ..)
  | lwr gd w a b c | lwrAdd gd w a b c => exact staysOn_runW (atCur_plainOp ..)
  | lrdV gd d w ty r cq => exact staysOn_runW (atCur_lrdVBody ..)
  | _ => exact staysOn_next rfl

/-- The meaning of a repeat is the meaning of its instruction (R143). -/
theorem repeatMeaning_eq_exec {b : Instr} (h : b.repeatable = true) (s : State) : repeatMeaning b s = exec b s := by
  cases b <;> simp only [Instr.repeatable, Bool.false_eq_true] at h <;> rfl

/-! ### What follows a repeat that completes -/

/-- From `s` to `t` strand `h` of core `c` becomes `w`, and of the core only the owner of the buffer and the fingerprint
with what waits for it may change besides. -/
def Repeated (c : Nat) (h : Fin 11) (w : Strand) (o : Option (Fin 11)) (s t : State) : Prop :=
  (∃ tr fp, t.core c = { s.core c with strands := (s.core c).strands.set h w, repOwner := o, trail := tr, fp := fp }) ∧
    (∀ e, e ≠ c → t.core e = s.core e) ∧ t.mem = s.mem

namespace Repeated

variable {c : Nat} {h : Fin 11} {w w' : Strand} {o o' : Option (Fin 11)} {s t u : State}

theorem trans (h₁ : Repeated c h w o s t) (h₂ : Repeated c h w' o' t u) : Repeated c h w' o' s u := by
  obtain ⟨⟨tr, fp, hc⟩, he, hm⟩ := h₁
  obtain ⟨⟨tr', fp', hc'⟩, he', hm'⟩ := h₂
  refine ⟨⟨tr', fp', ?_⟩, fun e hne => (he' e hne).trans (he e hne), hm'.trans hm⟩
  rw [hc', hc]
  simp

theorem strandAt (hr : Repeated c h w o s t) : t.strandAt c h = w := by
  obtain ⟨⟨tr, fp, hc⟩, -⟩ := hr
  simp [State.strandAt, hc]

theorem strandAt_ne (hr : Repeated c h w o s t) {j : Fin 11} (hj : j ≠ h) : t.strandAt c j = s.strandAt c j := by
  obtain ⟨⟨tr, fp, hc⟩, -⟩ := hr
  have : h.val ≠ j.val := fun e => hj (Fin.ext e.symm)
  simp [State.strandAt, hc, this]

theorem owner (hr : Repeated c h w o s t) : (t.core c).repOwner = o := by
  obtain ⟨⟨tr, fp, hc⟩, -⟩ := hr
  rw [hc]

theorem core (hr : Repeated c h w o s t) : t.core c = { s.core c with
    strands := (t.core c).strands, repOwner := (t.core c).repOwner, trail := (t.core c).trail, fp := (t.core c).fp } := by
  obtain ⟨⟨tr, fp, hc⟩, -⟩ := hr
  rw [hc]

theorem of_modMe (s : State) (f : Strand → Strand) :
    Repeated s.cur.1 s.cur.2 (f s.me) s.myCore.repOwner s (s.modMe f) := by
  refine ⟨⟨s.myCore.trail, s.myCore.fp, ?_⟩, fun e he => State.core_modStrandAt_ne s he s.cur.2 f, rfl⟩
  rw [State.modMe, State.core_modStrandAt_same]
  rfl

theorem of_owner (s : State) (o : Option (Fin 11)) :
    Repeated s.cur.1 s.cur.2 s.me o s (s.modMyCore fun k => { k with repOwner := o }) := by
  refine ⟨⟨s.myCore.trail, s.myCore.fp, ?_⟩, fun e he => State.core_modCore_ne s he _, rfl⟩
  rw [State.modMyCore, State.core_modCore_same]
  simp [State.me, State.myCore, State.strandAt]

end Repeated

/-- The core whose fingerprint takes what one more retired instruction contributes (R237). -/
def Core.noted (k k0 : Core) (x : Trail) : Core :=
  ({ k.settleTrail k0 with trail := (k.settleTrail k0).trail ++ [x] } : Core).takeTrail

/-- Outside a pair the retirement touches the fingerprint alone (R237). -/
theorem noteRetired_unpaired {s : State} (h : s.pairs = []) (c : Nat) (k0 : Core) (n : Nat) (x : Trail) :
    s.noteRetired c k0 n x = s.modCore c (fun k => k.noted k0 x) := by
  unfold State.noteRetired
  extract_lets u passed v
  have hp : u.pairs = [] := h
  have hv : v = u := if_neg (by simp [passed, hp])
  simp only [hv, hp, List.map_nil]
  exact congrArg (fun p => { u with pairs := p }) hp.symm

theorem Repeated.of_noteRetired {s : State} (h : s.pairs = []) (k0 : Core) (n : Nat) (x : Trail) :
    Repeated s.cur.1 s.cur.2 s.me s.myCore.repOwner s (s.noteRetired s.cur.1 k0 n x) := by
  rw [noteRetired_unpaired h]
  refine ⟨⟨(s.myCore.noted k0 x).trail, (s.myCore.noted k0 x).fp, ?_⟩, fun e he => State.core_modCore_ne s he _, rfl⟩
  rw [State.core_modCore_same]
  simp [State.me, State.myCore, State.strandAt, Core.noted, Core.takeTrail, Core.settleTrail]

/-- What a repeat that is not the last makes of its strand `t`, which issued at `pc` and `stamp` (R143, R144). -/
def Strand.counted (t : Strand) (r : RepSeq) (pc : Pc) (stamp : Nat) : Strand :=
  { t with
    pc := pc
    stamp := stamp
    blk := t.gateCode
    repcnt := BitVec.ofNat 7 (r.n - (r.i + 1))
    rep := some { r with i := r.i + 1 } }

/-- What the last repeat makes of its strand, with the held results of the run-ahead (R143, R145). -/
def Strand.repeated (t : Strand) (a : Ahead) : Strand :=
  { t.overlaid a with fflags := t.fflags ||| a.flags, rep := none, repact := false, repcnt := 0 }

section

variable {s s0 : State} (h : s.pairs = [])
include h

theorem endRep_unpaired (r : RepSeq) :
    Repeated s.cur.1 s.cur.2 (s.me.repeated r.ahead) none s (s.endRep r) := by
  let s1 := s.modMe (fun t => t.repeated r.ahead)
  have h1 : Repeated s.cur.1 s.cur.2 (s.me.repeated r.ahead) s.myCore.repOwner s s1 := .of_modMe s _
  have h2 : Repeated s.cur.1 s.cur.2 (s.me.repeated r.ahead) none s1 (s1.modMyCore fun k => { k with repOwner := none }) := by
    have := Repeated.of_owner s1 none
    rwa [show s1.me = s.me.repeated r.ahead from s.me_modMe _] at this
  let s2 := s1.modMyCore fun k => { k with repOwner := none }
  have h3 := Repeated.of_noteRetired (s := s2) h s1.myCore r.ahead.n ⟨s.cur.2, s1.nextId, s1.nextId, [.bytes r.ahead.trace]⟩
  rw [show s2.me = s.me.repeated r.ahead from h2.strandAt, show s2.myCore.repOwner = none from h2.owner] at h3
  exact (h1.trans h2).trans h3

theorem afterRepeat_counts {r : RepSeq} (b : Instr) (hr : r.i + 1 < r.n) :
    Repeated s.cur.1 s.cur.2 (s.me.counted r s0.me.pc s0.me.stamp) s.myCore.repOwner s (s.afterRepeat r b s0) := by
  let s1 := s.modMe (fun t => t.counted r s0.me.pc s0.me.stamp)
  have h1 : Repeated s.cur.1 s.cur.2 (s.me.counted r s0.me.pc s0.me.stamp) s.myCore.repOwner s s1 := .of_modMe s _
  have h2 := Repeated.of_noteRetired (s := s1) h s0.myCore 1
    ⟨s.cur.2, s0.nextId, s1.nextId, s0.me.traceOf s.me b s0.nextId⟩
  rw [show s1.me = s.me.counted r s0.me.pc s0.me.stamp from s.me_modMe _,
    show s1.myCore.repOwner = s.myCore.repOwner from h1.owner] at h2
  unfold State.afterRepeat
  dsimp only
  rw [if_neg (by omega)]
  exact h1.trans h2

theorem afterRepeat_ends {r : RepSeq} (b : Instr) (hr : r.i + 1 = r.n) :
    Repeated s.cur.1 s.cur.2 ((s.me.counted r s0.me.pc s0.me.stamp).repeated r.ahead) none s (s.afterRepeat r b s0) := by
  let s1 := s.modMe (fun t => t.counted r s0.me.pc s0.me.stamp)
  let x : Trail := ⟨s.cur.2, s0.nextId, s1.nextId, s0.me.traceOf s.me b s0.nextId⟩
  let s2 := s1.noteRetired s.cur.1 s0.myCore 1 x
  have h1 : Repeated s.cur.1 s.cur.2 (s.me.counted r s0.me.pc s0.me.stamp) s.myCore.repOwner s s1 := .of_modMe s _
  have e2 : s2 = s1.modCore s.cur.1 (fun k => k.noted s0.myCore x) := noteRetired_unpaired (s := s1) h ..
  have h2 : Repeated s.cur.1 s.cur.2 s1.me s1.myCore.repOwner s1 s2 := Repeated.of_noteRetired (s := s1) h s0.myCore 1 x
  have hcur : s2.cur = s.cur := by rw [e2]; rfl
  have hp : s2.pairs = [] := by rw [e2]; exact h
  have h3 := endRep_unpaired hp r
  rw [hcur, show s2.me = s.me.counted r s0.me.pc s0.me.stamp by
    rw [State.me_eq, hcur, h2.strandAt]; exact s.me_modMe _] at h3
  unfold State.afterRepeat
  dsimp only
  rw [if_pos (by omega)]
  exact (h1.trans h2).trans h3

end

/-- With no held g or p register the last repeat leaves the registers as they are. -/
theorem Strand.repeated_of_none {a : Ahead} (hg : a.g = []) (hp : a.p = []) (t : Strand) : t.repeated a =
    { t with pc := a.pc, fflags := t.fflags ||| a.flags, rep := none, repact := false, repcnt := 0 } := by
  simp [Strand.repeated, Strand.overlaid, hg, hp]

/-- The count of the repeats that are left fits its register (R140). -/
theorem toNat_count (r : RepSeq) (h : r.n ≤ 64) : (BitVec.ofNat 7 (r.n - (r.i + 1))).toNat = r.n - (r.i + 1) := by
  simp only [BitVec.toNat_ofNat]
  omega

/-! ### The repeat -/

theorem repeatReady_of {s : State} {core : Nat} {h : Fin 11} {r : RepSeq} {b : Instr}
    (ho : (s.core core).repOwner = some h) (hr : (s.strandAt core h).rep = some r)
    (hb : Decode.repeatOf r.body r.sd r.sa r.sb r.i = .ok b) (hf : (s.core core).frozen = false)
    (hg : (s.strandAt core h).gates = []) (hx : ∀ x ∈ b.regs, (s.strandAt core h).pending x = false)
    (hpo : (s.core core).pairOf = none) (hp : s.pairs = []) : s.repeatReady core = some (h, r, b) := by
  have hu : (s.core core).strands[h] = s.strandAt core h := rfl
  have hregs : b.regs.any (s.strandAt core h).pending = false :=
    List.any_eq_false.mpr fun x hm => by simp [hx x hm]
  simp only [State.repeatReady, ho, hu, hr, hb, hf, hg, hregs, hpo, State.leads, hp]
  rfl

/-- With no change pending, a repeat is its instruction and, when that completes, what follows (R143). -/
theorem exec_repeatIssue {s t' : State} {core : Nat} {h : Fin 11} {r : RepSeq} {b : Instr}
    (hready : s.repeatReady core = some (h, r, b)) (hc : (s.strandAt core h).changes = []) (hb : b.repeatable = true)
    (he : exec b { s with cur := (core, h), retired := false } = .next t') :
    exec (.repeatIssue core) s =
      .next (if t'.retired then t'.afterRepeat r b { s with cur := (core, h), retired := false } else t') := by
  show execRepeatIssue core s = _
  unfold execRepeatIssue
  rw [hready]
  have hch : ({ s with cur := (core, h), retired := false } : State).me.changes = [] := hc
  simp only [repeatMeaning_eq_exec hb, he, hch]
  exact (apply_ite _ _ _ _).symm

theorem repeatsRunRule_holds : repeatsRunRule := by
  intro s t' core h r b k u ho hr hb hrep hi hn hf hg hc hx hpo hp hag hap he
  have hready := repeatReady_of ho hr hb hf hg hx hpo hp
  have hexec := exec_repeatIssue hready hc hrep he
  refine ⟨fun hret => by rw [hexec, hret]; rfl, fun hret hp' => ?_⟩
  rw [hret, if_pos rfl] at hexec
  have hcur : t'.cur = (core, h) :=
    staysOn_repeatMeaning b _ t' ((repeatMeaning_eq_exec hrep _).trans he) hret
  have hme : t'.me = t'.strandAt core h := by rw [State.me_eq, hcur]
  rcases Nat.lt_or_ge (r.i + 1) r.n with hlt | hge
  · have hR := afterRepeat_counts (s0 := { s with cur := (core, h), retired := false }) hp' b hlt
    rw [hme] at hR
    simp only [hcur] at hR
    refine ⟨_, hexec, ?_, hR.core, fun j hj => hR.strandAt_ne hj, hR.2.1, hR.2.2⟩
    rw [hR.strandAt]
    exact ⟨fun _ => rfl, fun _ => rfl, fun _ => rfl, rfl, rfl, rfl, fun _ => ⟨rfl, rfl, rfl, toNat_count r hn⟩,
      fun e => absurd e (by omega)⟩
  · have heq : r.i + 1 = r.n := by omega
    have hR := afterRepeat_ends (s0 := { s with cur := (core, h), retired := false }) hp' b heq
    rw [hme] at hR
    simp only [hcur] at hR
    refine ⟨_, hexec, ?_, hR.core, fun j hj => hR.strandAt_ne hj, hR.2.1, hR.2.2⟩
    rw [hR.strandAt, hR.owner, Strand.repeated_of_none hag hap]
    exact ⟨fun _ => rfl, fun _ => rfl, fun _ => rfl, rfl, rfl, rfl, fun e => absurd e (by omega),
      fun _ => ⟨rfl, rfl, rfl, rfl, rfl, rfl⟩⟩

/-! ### The prefix (R140, R143, R146) -/

theorem rep_waits {s : State} (h : s.myCore.repOwner ≠ none) (n1 : Fin 64) (sd sa sb : BitVec 3) (body : Instr) :
    Waits (.rep n1 sd sa sb body) s 0 := by
  refine ⟨s.waitOn 0, if_pos (Option.isSome_iff_ne_none.mpr h), rfl, ?_, ?_, s.sameRegs_waitOn 0⟩ <;>
    rw [State.me_waitOn] <;> rfl

/-- The state once a prefix has issued (R140). -/
def State.begun (s : State) (n : Nat) (sd sa sb : BitVec 3) (body : Instr) : State :=
  { (s.modMe fun t => t.beginRep n sd sa sb body s.myCore.slot).modMyCore fun k => { k with repOwner := some s.cur.2 } with
    retired := true }

theorem repeated_begun (s : State) (n : Nat) (sd sa sb : BitVec 3) (body : Instr) :
    Repeated s.cur.1 s.cur.2 (s.me.beginRep n sd sa sb body s.myCore.slot) (some s.cur.2) s (s.begun n sd sa sb body) := by
  let s1 := s.modMe fun t => t.beginRep n sd sa sb body s.myCore.slot
  have h := Repeated.of_owner s1 (some s.cur.2)
  rw [show s1.me = _ from s.me_modMe _] at h
  exact (Repeated.of_modMe s _).trans h

/-- The buffer is free: the prefix takes it. -/
theorem rep_begins {s : State} (h : s.myCore.repOwner = none) (n1 : Fin 64) (sd sa sb : BitVec 3) (body : Instr) :
    ∃ t, exec (.rep n1 sd sa sb body) s = .next t ∧ t.retired = true ∧ SameRegs s.me t.me ∧ t.me.pc = s.me.pc ∧
      t.me.repact = true ∧ (t.core s.cur.1).repOwner = some s.cur.2 ∧ Inside s t ∧
      t.me = s.me.beginRep (n1.val + 1) sd sa sb body s.myCore.slot := by
  have hR := repeated_begun s (n1.val + 1) sd sa sb body
  have hme : (s.begun (n1.val + 1) sd sa sb body).me = s.me.beginRep (n1.val + 1) sd sa sb body s.myCore.slot := hR.strandAt
  refine ⟨s.begun (n1.val + 1) sd sa sb body, if_neg (by simp [h]), rfl, ?_, ?_, ?_, hR.owner,
    ⟨fun c hc => hR.2.1 c hc, hR.2.2⟩, hme⟩ <;> rw [hme]
  · exact sameRegs_of_eq rfl rfl rfl rfl
  · rfl
  · rfl

/-- The prefix counts the repeats from the first on (R140, R143). -/
theorem toNat_repcnt_beginRep (t : Strand) (n1 : Fin 64) (sd sa sb : BitVec 3) (body : Instr) (now : Nat) :
    (t.beginRep (n1.val + 1) sd sa sb body now).repcnt.toNat = n1.val + 1 - t.firstRepeat (n1.val + 1) := by
  have := n1.isLt
  show (BitVec.ofNat 7 _).toNat = _
  rw [BitVec.toNat_ofNat, Nat.mod_eq_of_lt (by omega)]

theorem firstRepeat_fresh {t : Strand} (h : t.repact = false) (n : Nat) : t.firstRepeat n = 0 := by
  simp [Strand.firstRepeat, h]

theorem firstRepeat_resumed {t : Strand} (h : t.repact = true) (n : Nat) : t.firstRepeat n =
    if 1 ≤ t.repcnt.toNat ∧ t.repcnt.toNat ≤ n ∧ t.repAt = t.pc then n - t.repcnt.toNat else 0 := by
  simp [Strand.firstRepeat, h, and_assoc]

section

variable {s : State} (h : s.myCore.repOwner = none) (n1 : Fin 64) (sd sa sb : BitVec 3) (body : Instr)
include h

theorem rep_starts (hact : s.me.repact = false) : ∃ t, exec (.rep n1 sd sa sb body) s = .next t ∧ t.retired = true ∧
    SameRegs s.me t.me ∧ t.me.pc = s.me.pc ∧ t.me.repact = true ∧ t.me.repcnt.toNat = n1.val + 1 ∧
    (t.core s.cur.1).repOwner = some s.cur.2 ∧ Inside s t ∧
    ∃ r, t.me.rep = some r ∧ r.body = body ∧ r.n = n1.val + 1 ∧ r.i = 0 ∧ r.sd = sd ∧ r.sa = sa ∧ r.sb = sb := by
  obtain ⟨t, he, hret, hregs, hpc, hrep, ho, hin, hme⟩ := rep_begins h n1 sd sa sb body
  refine ⟨t, he, hret, hregs, hpc, hrep, ?_, ho, hin, _, by rw [hme]; rfl, rfl, rfl, firstRepeat_fresh hact _, rfl, rfl,
    rfl⟩
  rw [hme, toNat_repcnt_beginRep, firstRepeat_fresh hact, Nat.sub_zero]

theorem rep_resumes (hact : s.me.repact = true) : ∃ t, exec (.rep n1 sd sa sb body) s = .next t ∧ t.retired = true ∧
    SameRegs s.me t.me ∧ t.me.pc = s.me.pc ∧ t.me.repact = true ∧ (t.core s.cur.1).repOwner = some s.cur.2 ∧ Inside s t ∧
    ∃ r, t.me.rep = some r ∧ r.body = body ∧ r.n = n1.val + 1 ∧ r.sd = sd ∧ r.sa = sa ∧ r.sb = sb ∧
      t.me.repcnt.toNat = n1.val + 1 - r.i ∧
      r.i = (if 1 ≤ s.me.repcnt.toNat ∧ s.me.repcnt.toNat ≤ n1.val + 1 ∧ s.me.repAt = s.me.pc
        then n1.val + 1 - s.me.repcnt.toNat else 0) := by
  obtain ⟨t, he, hret, hregs, hpc, hrep, ho, hin, hme⟩ := rep_begins h n1 sd sa sb body
  refine ⟨t, he, hret, hregs, hpc, hrep, ho, hin, _, by rw [hme]; rfl, rfl, rfl, rfl, rfl, rfl, ?_,
    firstRepeat_resumed hact _⟩
  rw [hme, toNat_repcnt_beginRep]

end

end Sys2Proof.Machine
end

section
/-! PROOFS. Fields of the instructions that R142 steps: what the encoder writes, the decoder reads back. -/

namespace Sys2Proof.Decode
open Sys2Proof.Machine

/-! ### Codes and operand fields (R39, R41, R43) -/

theorem tyOf_code (ty : Ty) : tyOf ty.code = ty := by cases ty <;> rfl

theorem orderOf_code (o : Order) : orderOf o.code = o := by cases o <;> rfl

theorem scopeOf_code (sc : Scope) : scopeOf sc.code = sc := by cases sc <;> rfl

theorem roundOf_code (r : Round) : roundOf r.code = r := by cases r <;> rfl

theorem fmtOf_code (fmt : Fmt) : fmtOf fmt.code = fmt := by cases fmt <;> rfl

theorem order_code_lt (o : Order) : o.code < 6 := by cases o <;> decide

theorem scope_code_lt (sc : Scope) : sc.code < 6 := by cases sc <;> decide

theorem fmt_code_lt (fmt : Fmt) : fmt.code < 5 := by cases fmt <;> decide

theorem opG_val (n : Fin 32) (field : Nat) : opG n.val field = .ok n := dif_pos n.isLt

theorem op8_val (n : Fin 8) (field : Nat) : op8 n.val field = .ok n := dif_pos n.isLt

theorem opW_val (n : Fin 64) : opW n.val = n := Fin.ext (Nat.mod_eq_of_lt n.isLt)

theorem opV_vNum (o : VOp) (field : Nat) : opV (vNum o) field = .ok o := by
  cases o with
  | v n => exact dif_pos n.isLt
  | c n =>
    have h : 32 ≤ n.val + 32 ∧ n.val + 32 < 48 := by omega
    have h' : ¬n.val + 32 < 16 := by omega
    simp [opV, vNum, h, h']

theorem opE_eNum (o : EOp) (field : Nat) : opE (eNum o) field = .ok o := by
  cases o with
  | ls n => exact dif_pos n.isLt
  | c n =>
    have h : 32 ≤ n.val + 32 ∧ n.val + 32 < 48 := by omega
    simp [opE, eNum, h]

theorem namesC_low {x : Nat} (h : x < 32) : namesC x = false := by
  have : ¬32 ≤ x := by omega
  simp [namesC, this]

theorem namesC_cistern (n : Fin 16) : namesC (n.val + 32) = true := by
  have : n.val + 32 < 48 := by omega
  simp [namesC, this]

theorem namesC_vNum (o : VOp) : namesC (vNum o) = o.isC := by
  cases o with
  | v n => exact namesC_low (n.isLt.trans (by decide))
  | c n => exact namesC_cistern n

theorem namesC_eNum (o : EOp) : namesC (eNum o) = o.isC := by
  cases o with
  | ls n => exact namesC_low n.isLt
  | c n => exact namesC_cistern n

theorem gdOf_of {f : Fields} {gd : Guard} (hp : f.guard = gd.p.val) (hn : f.neg = b2n gd.neg) : gdOf f = gd := by
  obtain ⟨p, neg⟩ := gd
  simp only at hp hn
  cases neg <;> simp [gdOf, hp, hn, b2n]

/-- The qualifier's bits give back the qualifier, which is there when an operand is a cistern (R47). -/
theorem cqOf_withCq (f : Fields) {cq : Option CQual} {named : Bool} (h : cqOk cq named = true) :
    cqOf (withCq f cq) named = cq := by
  cases cq with
  | none =>
    obtain rfl : named = false := by simpa [cqOk] using h.symm
    rfl
  | some q =>
    obtain rfl : named = true := by simpa [cqOk] using h.symm
    obtain ⟨wait, adv⟩ := q
    cases adv <;> simp [cqOf, withCq, b2n]

theorem cqBitsOk_withCq {f : Fields} {cq : Option CQual} {named : Bool} (h : cqOk cq named = true) (ho : f.order = 0)
    (hs : f.scope = 0) : cqBitsOk (withCq f cq) named = true := by
  cases cq with
  | none =>
    obtain rfl : named = false := by simpa [cqOk] using h.symm
    simp [cqBitsOk, withCq, ho, hs]
  | some q =>
    obtain rfl : named = true := by simpa [cqOk] using h.symm
    obtain ⟨wait, adv⟩ := q
    cases adv <;> simp [cqBitsOk, withCq, b2n]

/-! ### The families -/

theorem decAlu2_encAlu2 {x : Alu2} {satOk : Bool} (h : x.wf satOk = true) (major : Nat) (mk : Alu2 → Instr) :
    decAlu2 (encAlu2 major x) satOk mk = .ok (mk x) := by
  obtain ⟨gd, d, a, b, ty, sat⟩ := x
  simp only [Alu2.wf, Ty.isInt, Bool.and_eq_true, decide_eq_true_eq, Bool.or_eq_true, Bool.not_eq_true'] at h
  obtain ⟨hty, hsat⟩ := h
  have hg : ∀ f : Fields, f.guard = gd.p.val → f.neg = b2n gd.neg → gdOf f = gd := fun f => gdOf_of
  cases b <;> cases sat <;>
    simp_all [decAlu2, encAlu2, base, plainOsr, need, b2n, opG_val, tyOf_code, immLenOk, bImmOf, bind, Except.bind]

section

variable (f : Fields) (cq : Option CQual)

@[simp] theorem withCq_len : (withCq f cq).len = f.len := by cases cq <;> rfl
@[simp] theorem withCq_major : (withCq f cq).major = f.major := by cases cq <;> rfl
@[simp] theorem withCq_guard : (withCq f cq).guard = f.guard := by cases cq <;> rfl
@[simp] theorem withCq_neg : (withCq f cq).neg = f.neg := by cases cq <;> rfl
@[simp] theorem withCq_d : (withCq f cq).d = f.d := by cases cq <;> rfl
@[simp] theorem withCq_a : (withCq f cq).a = f.a := by cases cq <;> rfl
@[simp] theorem withCq_b : (withCq f cq).b = f.b := by cases cq <;> rfl
@[simp] theorem withCq_minor : (withCq f cq).minor = f.minor := by cases cq <;> rfl
@[simp] theorem withCq_ty : (withCq f cq).ty = f.ty := by cases cq <;> rfl
@[simp] theorem withCq_round : (withCq f cq).round = f.round := by cases cq <;> rfl
@[simp] theorem withCq_i16 : (withCq f cq).i16 = f.i16 := by cases cq <;> rfl

end

/-- The B operand of a vector form, by the bit that says which it is (R117). -/
theorem opVB_of {f : Fields} {b : VB} (h : f.b = vbNum b) : opVB f (vbBs b == 1) = .ok b := by
  cases b with
  | vec o =>
    show (do let b ← opV f.b 2; Except.ok (VB.vec b)) = Except.ok (VB.vec o)
    rw [h]
    simp [vbNum, opV_vNum, bind, Except.bind]
  | scal r =>
    show (do let b ← opG f.b 2; Except.ok (VB.scal b)) = Except.ok (VB.scal r)
    rw [h]
    simp [vbNum, opG_val, bind, Except.bind]

theorem decVBin_encVBin {x : VBin} {tyOk satOk roundOk : Bool} (hshape : x.shape = true) (hty : tyOk = true)
    (hsat : (satOk || !x.sat) = true) (hround : (roundOk || x.round == .rne) = true) (major : Nat) (mk : VBin → Instr) :
    decVBin (encVBin major x) tyOk satOk roundOk mk = .ok (mk x) := by
  obtain ⟨gd, d, a, b, ty, sat, round, cq⟩ := x
  simp only [VBin.shape, Bool.and_eq_true, Bool.not_eq_true'] at hshape
  obtain ⟨⟨hcq, hda⟩, hdb⟩ := hshape
  have hg : ∀ f : Fields, f.guard = gd.p.val → f.neg = b2n gd.neg → gdOf f = gd := fun f => gdOf_of
  have hbs : ((vbBs b + 2 * b2n sat) % 2 == 1) = (vbBs b == 1) := by cases b <;> cases sat <;> simp [vbBs, b2n]
  have hs : ((vbBs b + 2 * b2n sat) / 2 == 1) = sat := by cases b <;> cases sat <;> simp [vbBs, b2n]
  have hm : vbBs b + 2 * b2n sat < 4 := by cases b <;> cases sat <;> simp [vbBs, b2n]
  have hm' : satOk = true ∨ vbBs b + 2 * b2n sat ≤ 1 := by
    cases satOk <;> cases sat <;> cases b <;> simp_all [vbBs, b2n]
  have hr : (roundOk || round.code == 0) = true := by cases roundOk <;> cases round <;> simp_all [Round.code]
  have hnamed : (namesC (vNum d) || namesC (vNum a) || (!(vbBs b == 1) && namesC (vbNum b))) =
      (d.isC || a.isC || b.isC) := by
    rw [namesC_vNum, namesC_vNum]
    congr 1
    cases b with
    | vec o => exact namesC_vNum o
    | scal r => rfl
  simp only [decVBin, encVBin, withCq_len, withCq_i16, withCq_minor, withCq_d, withCq_a, withCq_b, withCq_round, withCq_ty,
    hbs, hnamed]
  rw [cqBitsOk_withCq hcq rfl rfl, cqOf_withCq _ hcq, opVB_of (by simp), hg _ (by simp [base]) (by simp [base])]
  simp [base, hty, hm, hm', hr, hs, hda, hdb, need, operand, opV_vNum, tyOf_code, roundOf_code, bind, Except.bind]

theorem decLdSt_encMem {m : Mem} {ty : Ty} {o : Order} {sc : Scope} {load : Bool} (hty : ty.isInt = true)
    (ho : (if load then loadOrderOk m.sp o sc else storeOrderOk m.sp o sc) = true) (major : Nat) (gd : Guard) (d : Fin 32) :
    decLdSt (encMem major gd d m ty.code o sc) load =
      .ok (if load then .ld gd d m ty o sc else .st gd d m ty o sc) := by
  obtain ⟨a, b, scl, sp, disp⟩ := m
  have hg : ∀ f : Fields, f.guard = gd.p.val → f.neg = b2n gd.neg → gdOf f = gd := fun f => gdOf_of
  have hc := order_code_lt o
  have hc' := scope_code_lt sc
  have hsp : ((b2n sp + 2 * scl.val) % 2 == 1) = sp := by cases sp <;> simp [b2n, Nat.add_mod]
  have hsc : Fin.ofNat 4 ((b2n sp + 2 * scl.val) / 2) = scl := by
    apply Fin.ext
    have := scl.isLt
    cases sp <;> simp [b2n]
    omega
  have hlt : b2n sp + 2 * scl.val < 8 := by
    have := scl.isLt
    cases sp <;> simp [b2n] <;> omega
  have hty' : ty.code < 8 := by simpa [Ty.isInt] using hty
  cases disp <;>
    simp_all [decLdSt, encMem, withDisp, base, Disp.len, Disp.i16, Disp.ext, immLenOk, memOrderOk, memOf, dispOf, need, opG_val,
      tyOf_code, orderOf_code, scopeOf_code, bind, Except.bind]

theorem decLdot_encDot {x : Dot} (h : x.wf = true) {two : Bool}
    (ht : two = true → x.w.val ≤ 62 ∧ x.k.val ≤ 6) (major : Nat) :
    decLdot (encDot major x) two = .ok (if two then .ldot2 x else .ldot x) := by
  obtain ⟨gd, w, act, rcd, k, fmt, ty, cq⟩ := x
  simp only [Dot.wf, Bool.and_eq_true] at h
  obtain ⟨hcq, hty⟩ := h
  have hk : k.val < 64 := by omega
  have hty' : (ty.code == 0 || ty.code == 13) = true := by cases ty <;> simp_all [Ty.code]
  have hnamed : (namesC (eNum act) || namesC (eNum rcd)) = (act.isC || rcd.isC) := by rw [namesC_eNum, namesC_eNum]
  have hw : (!two || decide (w.val ≤ 62)) = true := by cases two <;> simp_all
  have hk' : (!two || decide (k.val ≤ 6)) = true := by cases two <;> simp_all
  simp only [decLdot, encDot, withCq_len, withCq_i16, withCq_minor, withCq_d, withCq_a, withCq_b, withCq_round, withCq_ty,
    hnamed]
  rw [cqBitsOk_withCq hcq rfl rfl, cqOf_withCq _ hcq, gdOf_of (gd := gd) (by simp [base]) (by simp [base])]
  simp [base, hty', hk, hw, hk', fmt_code_lt, need, operand, opE_eNum, op8_val, opW_val, tyOf_code, fmtOf_code, bind,
    Except.bind]

end Sys2Proof.Decode
end

section
/-! PROOFS. The instruction of each repeat: the body with its registers, cisterns and veins stepped (R142, R143). -/

namespace Sys2Proof.Machine
open Sys2Proof.Claims Sys2Proof.Decode

/-! ### One field -/

theorem bumpField_of {F x j : Nat} {st : BitVec 3} {isW : Bool} (h : (x : Int) = F + j * st.toInt) (hx : x < 64)
    (hw : isW = true ∨ (F < 32 ↔ x < 32)) : bumpField F (stepOf st) j isW = some x := by
  have e : (F : Int) + stepOf st * j = x := by rw [stepOf, mul_comm, h]
  have hin : (0 : Int) ≤ x ∧ (x : Int) < 64 ∧ (isW = true ∨ (F < 32 ↔ (x : Int) < 32)) := by
    refine ⟨by omega, by omega, ?_⟩
    exact_mod_cast hw
  unfold bumpField
  simp only [e, if_pos hin, Int.toNat_natCast]

theorem bumpField_g {j : Nat} {st : BitVec 3} {f f' : Fin 32} (h : stepsG j st f f') (isW : Bool) :
    bumpField f.val (stepOf st) j isW = some f'.val := bumpField_of h (by omega) (.inr (by omega))

theorem bumpField_w {j : Nat} {st : BitVec 3} {f f' : Fin 64} (h : stepsW j st f f') :
    bumpField f.val (stepOf st) j true = some f'.val := bumpField_of h f'.isLt (.inl rfl)

/-- A cistern steps as its field does. -/
theorem bumpField_c {j : Nat} {st : BitVec 3} {f f' : Fin 16} (h : (f'.val : Int) = f.val + j * st.toInt) (isW : Bool) :
    bumpField (f.val + 32) (stepOf st) j isW = some (f'.val + 32) :=
  bumpField_of (by push_cast; omega) (by omega) (.inr (by omega))

theorem bumpField_v {j : Nat} {st : BitVec 3} {o o' : VOp} (h : stepsV j st o o') (isW : Bool) :
    bumpField (vNum o) (stepOf st) j isW = some (vNum o') := by
  match o, o', h with
  | .v f, .v f', h => exact bumpField_of h (by simp only [vNum]; omega) (.inr (by simp only [vNum]; omega))
  | .c f, .c f', h => exact bumpField_c h isW

theorem bumpField_e {j : Nat} {st : BitVec 3} {o o' : EOp} (h : stepsE j st o o') (isW : Bool) :
    bumpField (eNum o) (stepOf st) j isW = some (eNum o') := by
  match o, o', h with
  | .ls f, .ls f', h => exact bumpField_g h isW
  | .c f, .c f', h => exact bumpField_c h isW

theorem bumpField_vb {j : Nat} {st : BitVec 3} {o o' : VB} (h : stepsVB j st o o') (isW : Bool) :
    bumpField (vbNum o) (stepOf st) j isW = some (vbNum o') := by
  match o, o', h with
  | .vec f, .vec f', h => exact bumpField_v h isW
  | .scal f, .scal f', h => exact bumpField_g h isW

/-- A field that no step moves. -/
theorem bumpField_zero (F j : Nat) (h : F < 64) (isW : Bool) : bumpField F (stepOf 0) j isW = some F :=
  bumpField_of (by simp) h (.inr .rfl)

/-! ### The word -/

/-- Every field steps within its range: the instruction of the repeat is the one whose word has the new fields (R142). -/
theorem repeatOf_of {i i' : Instr} {sd sa sb : BitVec 3} {j d a b : Nat}
    (hd : bumpField (toFields i).d (stepOf sd) j (wClassD (toFields i).major) = some d)
    (ha : bumpField (toFields i).a (stepOf sa) j (wClassA (toFields i).major) = some a)
    (hb : bumpField (toFields i).b (stepOf sb) j false = some b)
    (hf : toFields i' = { toFields i with d := d, a := a, b := b })
    (hi : decodeFields (toFields i') = .ok i') : repeatOf i sd sa sb j = .ok i' := by
  have hbump : bump (toFields i) sd sa sb j = .ok (toFields i') := by simp only [bump, hd, ha, hb, hf]
  simp only [repeatOf, hbump, bind, Except.bind, hi]

/-! ### Two-operand integer forms (R90) -/

section

variable (m : Nat) (x : Alu2)

@[simp] theorem encAlu2_major : (encAlu2 m x).major = m := by obtain ⟨_, _, _, _ | _ | _, _, _⟩ := x <;> rfl
@[simp] theorem encAlu2_d : (encAlu2 m x).d = x.d.val := by obtain ⟨_, _, _, _ | _ | _, _, _⟩ := x <;> rfl
@[simp] theorem encAlu2_a : (encAlu2 m x).a = x.a.val := by obtain ⟨_, _, _, _ | _ | _, _, _⟩ := x <;> rfl

end

/-- The instruction `c` is a two-operand form of this major (R61, R90). -/
def Alu2Form (c : Alu2 → Instr) (m : Nat) (satOk : Bool) : Prop :=
  (∀ x, toFields (c x) = encAlu2 m x) ∧ (∀ x, (c x).wf = x.wf satOk) ∧
    (∀ f : Fields, f.major = m → decodeFields f = decAlu2 f satOk c)

theorem decodeFields_major {f : Fields} {m : Nat} (h : f.major = m) : decodeFields f = decodeFields { f with major := m } := by
  rw [← h]

theorem alu2Form_of_mem {c : Alu2 → Instr} (h : c ∈ (wordOps.map Prod.fst ++ exactOps.map Prod.fst : List (Alu2 → Instr))) :
    ∃ m satOk, Alu2Form c m satOk := by
  simp only [wordOps, exactOps, List.map_cons, List.map_nil, List.cons_append, List.nil_append, List.mem_cons,
    List.not_mem_nil, or_false] at h
  rcases h with rfl | rfl | rfl | rfl | rfl | rfl | rfl | rfl | rfl | rfl | rfl | rfl | rfl | rfl | rfl | rfl
  · exact ⟨0x01, true, fun _ => rfl, fun _ => rfl, fun _ h => (decodeFields_major h).trans rfl⟩
  · exact ⟨0x02, true, fun _ => rfl, fun _ => rfl, fun _ h => (decodeFields_major h).trans rfl⟩
  · exact ⟨0x03, true, fun _ => rfl, fun _ => rfl, fun _ h => (decodeFields_major h).trans rfl⟩
  · exact ⟨0x07, false, fun _ => rfl, fun _ => rfl, fun _ h => (decodeFields_major h).trans rfl⟩
  · exact ⟨0x08, false, fun _ => rfl, fun _ => rfl, fun _ h => (decodeFields_major h).trans rfl⟩
  · exact ⟨0x09, false, fun _ => rfl, fun _ => rfl, fun _ h => (decodeFields_major h).trans rfl⟩
  · exact ⟨0x0A, false, fun _ => rfl, fun _ => rfl, fun _ h => (decodeFields_major h).trans rfl⟩
  · exact ⟨0x0B, false, fun _ => rfl, fun _ => rfl, fun _ h => (decodeFields_major h).trans rfl⟩
  · exact ⟨0x04, false, fun _ => rfl, fun _ => rfl, fun _ h => (decodeFields_major h).trans rfl⟩
  · exact ⟨0x05, false, fun _ => rfl, fun _ => rfl, fun _ h => (decodeFields_major h).trans rfl⟩
  · exact ⟨0x06, false, fun _ => rfl, fun _ => rfl, fun _ h => (decodeFields_major h).trans rfl⟩
  · exact ⟨0x0C, false, fun _ => rfl, fun _ => rfl, fun _ h => (decodeFields_major h).trans rfl⟩
  · exact ⟨0x0D, false, fun _ => rfl, fun _ => rfl, fun _ h => (decodeFields_major h).trans rfl⟩
  · exact ⟨0x0E, false, fun _ => rfl, fun _ => rfl, fun _ h => (decodeFields_major h).trans rfl⟩
  · exact ⟨0x12, false, fun _ => rfl, fun _ => rfl, fun _ h => (decodeFields_major h).trans rfl⟩
  · exact ⟨0x13, false, fun _ => rfl, fun _ => rfl, fun _ h => (decodeFields_major h).trans rfl⟩

/-- The fields of a two-operand form with other operands of the same kind. -/
theorem encAlu2_stepped {m j : Nat} {st : BitVec 3} {x y : Alu2} (hy : y = { x with d := y.d, a := y.a, b := y.b })
    (hb : stepsB j st x.b y.b) : bumpField (encAlu2 m x).b (stepOf st) j false = some (encAlu2 m y).b ∧
      encAlu2 m y = { encAlu2 m x with d := y.d.val, a := y.a.val, b := (encAlu2 m y).b } := by
  obtain ⟨gd, d, a, b, ty, sat⟩ := x
  obtain ⟨gd', d', a', b', ty', sat'⟩ := y
  simp only [Alu2.mk.injEq, true_and] at hy
  obtain ⟨rfl, rfl, rfl⟩ := hy
  cases b with
  | reg b =>
    cases b' with
    | reg b' => exact ⟨bumpField_g hb false, rfl⟩
    | imm16 i | imm32 i => exact absurd hb.1 nofun
  | imm16 i | imm32 i =>
    obtain ⟨rfl, rfl⟩ : _ = b' ∧ st = 0 := hb
    exact ⟨bumpField_zero 0 j (Nat.succ_pos 63) false, rfl⟩

/-- Two-operand integer forms step (R142). -/
theorem repeatOf_alu2 {c : Alu2 → Instr} {m j : Nat} {satOk : Bool} (hc : Alu2Form c m satOk) {sd sa sb : BitVec 3}
    {x y : Alu2} (hy : y = { x with d := y.d, a := y.a, b := y.b }) (hd : stepsG j sd x.d y.d) (ha : stepsG j sa x.a y.a)
    (hb : stepsB j sb x.b y.b) (hwf : (c y).wf = true) : repeatOf (c x) sd sa sb j = .ok (c y) := by
  obtain ⟨henc, hwfc, hdec⟩ := hc
  obtain ⟨hbf, hf⟩ := encAlu2_stepped (m := m) hy hb
  refine repeatOf_of (d := y.d.val) (a := y.a.val) (b := (encAlu2 m y).b) ?_ ?_ ?_ ?_ ?_ <;> simp only [henc]
  · simpa using bumpField_g hd _
  · simpa using bumpField_g ha _
  · exact hbf
  · exact hf
  · rw [hdec _ (encAlu2_major m y), decAlu2_encAlu2 (hwfc y ▸ hwf)]

/-! ### Lane-wise forms with two sources (R120) -/

/-- The instruction `c` is a lane-wise form of this major (R61, R120). -/
def VBinForm (c : VBin → Instr) (m : Nat) : Prop :=
  (∀ x, toFields (c x) = encVBin m x) ∧ (∀ x, (c x).wf = true → decodeFields (encVBin m x) = .ok (c x))

@[simp] theorem encVBin_major (m : Nat) (x : VBin) : (encVBin m x).major = m := withCq_major ..

@[simp] theorem encVBin_ty (m : Nat) (x : VBin) : (encVBin m x).ty = x.ty.code := withCq_ty ..

theorem lane32_encVBin {m : Nat} {x : VBin} (h : x.ty.isLane32 = true) : lane32 (encVBin m x) = true := by
  simp only [lane32, encVBin_ty]
  cases hx : x.ty <;> simp_all [Ty.isLane32, Ty.code]

theorem decode_wfArith {x : VBin} (h : x.wfArith = true) (m : Nat) (mk : VBin → Instr) :
    decVBin (encVBin m x) (lane32 (encVBin m x)) ((encVBin m x).ty != 10) ((encVBin m x).ty == 10) mk = .ok (mk x) := by
  simp only [VBin.wfArith, Bool.and_eq_true] at h
  obtain ⟨⟨⟨hshape, hty⟩, hsat⟩, hround⟩ := h
  have hf : (x.ty == Ty.f32) = (x.ty.code == 10) := by cases x.ty <;> rfl
  refine decVBin_encVBin hshape (lane32_encVBin hty) ?_ ?_ m mk
  · rw [encVBin_ty, bne, ← hf, ← bne, Bool.or_comm]
    exact hsat
  · rw [encVBin_ty, ← hf, Bool.or_comm]
    exact hround

theorem decode_wfMinMax {x : VBin} (h : x.wfMinMax = true) (m : Nat) (mk : VBin → Instr) :
    decVBin (encVBin m x) (lane32 (encVBin m x)) false false mk = .ok (mk x) := by
  simp only [VBin.wfMinMax, Bool.and_eq_true] at h
  obtain ⟨⟨⟨hshape, hty⟩, hsat⟩, hround⟩ := h
  exact decVBin_encVBin (satOk := false) (roundOk := false) hshape (lane32_encVBin hty) hsat hround m mk

theorem decode_wfBits {x : VBin} (h : x.wfBits = true) (m : Nat) (mk : VBin → Instr) :
    decVBin (encVBin m x) ((encVBin m x).ty == 0) false false mk = .ok (mk x) := by
  simp only [VBin.wfBits, Bool.and_eq_true] at h
  obtain ⟨⟨⟨hshape, hty⟩, hsat⟩, hround⟩ := h
  refine decVBin_encVBin (satOk := false) (roundOk := false) hshape ?_ hsat hround m mk
  rw [encVBin_ty, eq_of_beq hty]
  rfl

theorem vbinForm_of_mem {c : VBin → Instr} (h : c ∈ laneOps.map Prod.fst) : ∃ m, VBinForm c m := by
  simp only [laneOps, List.map_cons, List.map_nil, List.mem_cons, List.not_mem_nil, or_false] at h
  have dec : ∀ {m : Nat} {x : VBin}, decodeFields (encVBin m x) = decodeFields { encVBin m x with major := m } :=
    decodeFields_major (encVBin_major _ _)
  rcases h with rfl | rfl | rfl | rfl | rfl | rfl | rfl | rfl | rfl | rfl | rfl
  · exact ⟨0x80, fun _ => rfl, fun _ h => dec.trans ((decode_wfArith h 0x80 _ :))⟩
  · exact ⟨0x81, fun _ => rfl, fun _ h => dec.trans ((decode_wfArith h 0x81 _ :))⟩
  · exact ⟨0x82, fun _ => rfl, fun _ h => dec.trans ((decode_wfArith h 0x82 _ :))⟩
  · exact ⟨0x85, fun _ => rfl, fun _ h => dec.trans ((decode_wfMinMax h 0x85 _ :))⟩
  · exact ⟨0x86, fun _ => rfl, fun _ h => dec.trans ((decode_wfMinMax h 0x86 _ :))⟩
  · exact ⟨0x8C, fun _ => rfl, fun _ h => dec.trans ((decode_wfBits h 0x8C _ :))⟩
  · exact ⟨0x8D, fun _ => rfl, fun _ h => dec.trans ((decode_wfBits h 0x8D _ :))⟩
  · exact ⟨0x8E, fun _ => rfl, fun _ h => dec.trans ((decode_wfBits h 0x8E _ :))⟩
  · exact ⟨0x8F, fun _ => rfl, fun _ h => dec.trans ((decode_wfBits h 0x8F _ :))⟩
  · exact ⟨0x90, fun _ => rfl, fun _ h => dec.trans ((decode_wfBits h 0x90 _ :))⟩
  · exact ⟨0x91, fun _ => rfl, fun _ h => dec.trans ((decode_wfBits h 0x91 _ :))⟩

/-- The fields of a lane-wise form with other operands of the same kind. -/
theorem encVBin_stepped {m j : Nat} {st : BitVec 3} {x y : VBin} (hy : y = { x with d := y.d, a := y.a, b := y.b })
    (hb : stepsVB j st x.b y.b) :
    encVBin m y = { encVBin m x with d := vNum y.d, a := vNum y.a, b := vbNum y.b } := by
  obtain ⟨gd, d, a, b, ty, sat, round, cq⟩ := x
  obtain ⟨gd', d', a', b', ty', sat', round', cq'⟩ := y
  simp only [VBin.mk.injEq, true_and] at hy
  obtain ⟨rfl, rfl, rfl, rfl, rfl⟩ := hy
  have hbs : vbBs b' = vbBs b :=
    match b, b', hb with
    | .vec _, .vec _, _ => rfl
    | .scal _, .scal _, _ => rfl
  cases cq' <;> simp [encVBin, withCq, hbs]

/-- Lane-wise forms step (R142). -/
theorem repeatOf_vbin {c : VBin → Instr} {m j : Nat} (hc : VBinForm c m) {sd sa sb : BitVec 3} {x y : VBin}
    (hy : y = { x with d := y.d, a := y.a, b := y.b }) (hd : stepsV j sd x.d y.d) (ha : stepsV j sa x.a y.a)
    (hb : stepsVB j sb x.b y.b) (hwf : (c y).wf = true) : repeatOf (c x) sd sa sb j = .ok (c y) := by
  obtain ⟨henc, hdec⟩ := hc
  refine repeatOf_of (d := vNum y.d) (a := vNum y.a) (b := vbNum y.b) ?_ ?_ ?_ ?_ ?_ <;> simp only [henc]
  · simpa [encVBin] using bumpField_v hd _
  · simpa [encVBin] using bumpField_v ha _
  · simpa [encVBin] using bumpField_vb hb _
  · exact encVBin_stepped hy hb
  · exact hdec y hwf

/-! ### Loads, stores and engine forms -/

theorem encMem_stepped {m m' : Mem} (hm : m' = { m with a := m'.a, b := m'.b }) (major : Nat) (gd : Guard) (d d' : Fin 32)
    (ty : Nat) (o : Order) (sc : Scope) : encMem major gd d' m' ty o sc =
      { encMem major gd d m ty o sc with d := d'.val, a := m'.a.val, b := m'.b.val } := by
  obtain ⟨a, b, scl, sp, disp⟩ := m
  obtain ⟨a', b', scl', sp', disp'⟩ := m'
  simp only [Mem.mk.injEq, true_and] at hm
  obtain ⟨rfl, rfl, rfl⟩ := hm
  rfl

section

variable {gd : Guard} {d d' : Fin 32} {m m' : Mem} {ty : Ty} {o : Order} {sc : Scope} {j : Nat} {sd sa sb : BitVec 3}
  (hm : m' = { m with a := m'.a, b := m'.b }) (hd : stepsG j sd d d') (ha : stepsG j sa m.a m'.a) (hb : stepsG j sb m.b m'.b)
include hm hd ha hb

theorem repeatOf_ld (hwf : (Instr.ld gd d' m' ty o sc).wf = true) :
    repeatOf (.ld gd d m ty o sc) sd sa sb j = .ok (.ld gd d' m' ty o sc) := by
  obtain ⟨hty, ho⟩ := Bool.and_eq_true_iff.mp hwf
  refine repeatOf_of (bumpField_g hd _) (bumpField_g ha _) (bumpField_g hb _) (encMem_stepped hm ..) ?_
  exact decLdSt_encMem (load := true) hty ho 0x40 gd d'

theorem repeatOf_st (hwf : (Instr.st gd d' m' ty o sc).wf = true) :
    repeatOf (.st gd d m ty o sc) sd sa sb j = .ok (.st gd d' m' ty o sc) := by
  obtain ⟨hty, ho⟩ := Bool.and_eq_true_iff.mp hwf
  refine repeatOf_of (bumpField_g hd _) (bumpField_g ha _) (bumpField_g hb _) (encMem_stepped hm ..) ?_
  exact decLdSt_encMem (load := false) hty ho 0x41 gd d'

end

section

variable {x y : Dot} {j : Nat} {sd sa sb : BitVec 3} (hy : y = { x with w := y.w, act := y.act, rcd := y.rcd })

include hy in
theorem encDot_stepped (major : Nat) :
    encDot major y = { encDot major x with d := y.w.val, a := eNum y.act, b := eNum y.rcd } := by
  obtain ⟨gd, w, act, rcd, k, fmt, ty, cq⟩ := x
  obtain ⟨gd', w', act', rcd', k', fmt', ty', cq'⟩ := y
  simp only [Dot.mk.injEq, true_and] at hy
  obtain ⟨rfl, rfl, rfl, rfl, rfl⟩ := hy
  cases cq' <;> rfl

variable (hw : stepsW j sd x.w y.w) (ha : stepsE j sa x.act y.act) (hb : stepsE j sb x.rcd y.rcd)
include hy hw ha hb

/-- The veins of `ldot` and `ldot2` are one range (R142). -/
theorem repeatOf_dot {c : Dot → Instr} {major : Nat} (henc : ∀ x, toFields (c x) = encDot major x)
    (hmajor : wClassD major = true)
    (hdec : decodeFields (encDot major y) = .ok (c y)) : repeatOf (c x) sd sa sb j = .ok (c y) := by
  refine repeatOf_of (d := y.w.val) (a := eNum y.act) (b := eNum y.rcd) ?_ ?_ ?_ ?_ ?_ <;> simp only [henc]
  · simpa [encDot, base, hmajor] using bumpField_w hw
  · simpa [encDot] using bumpField_e ha _
  · simpa [encDot] using bumpField_e hb _
  · exact encDot_stepped hy major
  · exact hdec

theorem repeatOf_ldot (hwf : (Instr.ldot y).wf = true) : repeatOf (.ldot x) sd sa sb j = .ok (.ldot y) :=
  repeatOf_dot hy hw ha hb (fun _ => rfl) (major := 0xC1) rfl
    ((decodeFields_major (withCq_major ..)).trans (decLdot_encDot (two := false) hwf nofun 0xC1))

theorem repeatOf_ldot2 (hwf : (Instr.ldot2 y).wf = true) : repeatOf (.ldot2 x) sd sa sb j = .ok (.ldot2 y) := by
  simp only [Instr.wf, Bool.and_eq_true, decide_eq_true_eq] at hwf
  obtain ⟨⟨hwf, h62⟩, h6⟩ := hwf
  exact repeatOf_dot hy hw ha hb (fun _ => rfl) (major := 0xC2) rfl
    ((decodeFields_major (withCq_major ..)).trans (decLdot_encDot (two := true) hwf (fun _ => ⟨h62, h6⟩) 0xC2))

end

theorem steppedBodiesRule_holds : steppedBodiesRule := by
  intro j sd sa sb is
  refine ⟨fun c hc x y hy hd ha hb _ hwf => ?_, fun c hc x y hy hd ha hb _ hwf => ?_,
    fun gd d d' m m' ty o sc hm hd ha hb => ⟨fun _ hwf => repeatOf_ld hm hd ha hb hwf,
      fun _ hwf => repeatOf_st hm hd ha hb hwf⟩, fun c hc x y hy hw ha hb _ hwf => ?_⟩
  · obtain ⟨m, satOk, hform⟩ := alu2Form_of_mem hc
    exact repeatOf_alu2 hform hy hd ha hb hwf
  · obtain ⟨m, hform⟩ := vbinForm_of_mem hc
    exact repeatOf_vbin hform hy hd ha hb hwf
  · simp only [List.mem_cons, List.not_mem_nil, or_false] at hc
    rcases hc with rfl | rfl
    · exact repeatOf_ldot hy hw ha hb hwf
    · exact repeatOf_ldot2 hy hw ha hb hwf

/-! ### A sum, repeated -/

/-- The sum of a repeat is the sum with its registers stepped (R142). -/
theorem repeatOf_sum {r : RepSeq} {x y : Alu2} {b b' : Fin 32} (hbody : r.body = .add x) (hxb : x.b = .reg b)
    (hty : x.ty.isInt = true) (hy : y = { x with d := y.d, a := y.a, b := .reg b' }) (hd : stepsG r.i r.sd x.d y.d)
    (ha : stepsG r.i r.sa x.a y.a) (hb : stepsG r.i r.sb b b') :
    repeatOf r.body r.sd r.sa r.sb r.i = .ok (.add y) := by
  have hyb : y.b = .reg b' := by rw [hy]
  have hyty : y.ty = x.ty := by rw [hy]
  rw [hbody]
  refine repeatOf_alu2 (m := 0x01) (satOk := true)
    ⟨fun _ => rfl, fun _ => rfl, fun _ h => (decodeFields_major h).trans rfl⟩ (hyb ▸ hy) hd ha ?_ ?_
  · rw [hxb, hyb]
    exact hb
  · show y.wf true = true
    simp [Alu2.wf, hyty, hty]

/-- Settles O41: a repeat is its instruction on stepped registers, and every instruction that a prefix may precede keeps
its strand the issuing one, so that what follows its completion is the strand's. -/
theorem repeatPrefix : Obligations.RepeatPrefix := by
  refine ⟨steppedBodiesRule_holds, repeatsRunRule_holds, fun n1 sd sa sb body s => ⟨fun h => rep_waits h n1 sd sa sb body,
    fun h => rep_starts h n1 sd sa sb body, fun h => rep_resumes h n1 sd sa sb body⟩, ?_⟩
  intro s core h r x b b' y k u step ho hr hbody hxb hsat hty hi hn hf hg hp hc hpo hps hy hd ha hb hgd hag hap
  have hrep := repeatOf_sum hbody hxb hty hy hd ha hb
  have hyb : y.b = .reg b' := by rw [hy]
  have hygd : y.gd = x.gd := by rw [hy]
  have hyty : y.ty = x.ty := by rw [hy]
  have hysat : y.sat = false := by rw [hy]; exact hsat
  let s' : State := { s with cur := (core, h), retired := false }
  obtain ⟨t', hexec, ⟨hother, hcores, -, hstrands, -⟩, ⟨hrg, hrp, hrv, -⟩, hval⟩ :=
    integerWordResults (.add, fun _ a b => a + b) (by simp [wordOps]) y s' (by rw [hygd]; exact hgd)
      (hyty ▸ hty) hysat
  have hcur : t'.cur = (core, h) := congrArg State.cur hother
  have hpairs : t'.pairs = [] := (congrArg State.pairs hother).trans hps
  have hmem : t'.mem = s.mem := by rw [hother]
  have hme : t'.me = t'.strandAt core h := by rw [State.me_eq, hcur]
  have hp' : (s.strandAt core h).pend = [] := hp
  have hpend : ∀ z ∈ (Instr.add y).regs, (s.strandAt core h).pending z = false := fun z _ => by simp [Strand.pending, hp']
  obtain ⟨t, ht, ⟨wg, wp, wv, -, -, -, hmore, hlast⟩, -, hsame, hne, htm⟩ :=
    (repeatsRunRule_holds s t' core h r (.add y) ho hr hrep rfl hi hn hf hg hc hpend hpo hps hag hap hexec).2
      (congrArg State.retired hother) hpairs
  rw [hme] at hrg hrp hrv hval
  refine ⟨t, ht, ⟨?_, fun n hn => (wg n).trans (hrg n (by simpa using hn)), fun n => (wv n).trans (hrv n nofun),
    fun n => (wp n).trans (hrp n nofun), fun hlt => ?_, fun heq => ?_⟩, fun j hj => (hsame j hj).trans (hstrands j hj),
    fun e he => (hne e he).trans (hcores e he), htm.trans hmem⟩
  · rw [wg, hval, hyb, hyty]
    rfl
  · obtain ⟨-, hpc, hrep', hcnt⟩ := hmore hlt
    exact ⟨hpc, hrep', hcnt⟩
  · obtain ⟨-, hpc, hrep', hact, hcnt, howner⟩ := hlast heq
    exact ⟨hpc, hrep', hact, hcnt, howner⟩

end Sys2Proof.Machine
end

section
/-! PROOFS. Operands of vector instructions that no stream binds: their checks pass and they are read as they stand
(R117, R118, R136, R155). -/

namespace Sys2Proof.Machine
open Sys2Proof.Claims

/-- A register that no stream of the strand binds. -/
def Plain (s : State) (o : VOp) : Prop := ∃ n, o = .v n ∧ unbound s n

/-- A destination that is free: a register that no stream binds, or a cistern with room for the waited slots (R155). -/
def Open (s : State) (cq : Option CQual) : VOp → Prop
  | .v n => unbound s n
  | .c c => s.myCore.cist[c].defined = true ∧ waitOf cq ≤ s.myCore.cist[c].free

theorem cqWait_eq (cq : Option CQual) : cqWait cq = waitOf cq := by cases cq <;> rfl

theorem cqAdv_eq (cq : Option CQual) : cqAdv cq = cq.any CQual.adv := by cases cq <;> rfl

section

variable {s : State} {cq : Option CQual} {srcs : List VOp} {dst : Option VOp}

theorem portFor_plain {o : VOp} (h : Plain s o) : s.portFor o = none := by
  obtain ⟨n, rfl, hn⟩ := h
  exact portOf_unbound hn

theorem portFor_open {o : VOp} (h : Open s cq o) : s.portFor o = none := by
  cases o with
  | v n => exact portOf_unbound h
  | c n => rfl

theorem cis_plain (h : ∀ o ∈ srcs, Plain s o) : srcs.flatMap VOp.cis = [] :=
  List.flatMap_eq_nil_iff.mpr fun o ho => by
    obtain ⟨n, rfl, -⟩ := h o ho
    rfl

theorem bind_portFor (hd : ∀ o ∈ dst, Open s cq o) : dst.bind s.portFor = none := by
  cases dst with
  | none => rfl
  | some o => exact portFor_open (hd o rfl)

theorem forM_ok {α : Type} {f : α → Res Unit} : ∀ {xs : List α}, (∀ x ∈ xs, f x = .ok ()) → xs.forM f = .ok ()
  | [], _ => rfl
  | x :: xs, h => by
    show (f x >>= fun _ => xs.forM f) = _
    rw [h x (.head _)]
    exact forM_ok fun y hy => h y (.tail _ hy)

/-- A step that passes hands on what it answers. -/
theorem bind_of_ok {α β : Type} {x : Res α} {a : α} {f : α → Res β} (h : x = .ok a) : (x >>= f) = f a := by rw [h]; rfl

theorem operandTraps_ok (hs : ∀ o ∈ srcs, Plain s o) (hd : ∀ o ∈ dst, Open s cq o) : s.operandTraps srcs dst = .ok () := by
  refine (bind_of_ok (forM_ok fun o ho => by rw [portFor_plain (hs o ho)])).trans ?_
  rw [bind_portFor hd]
  refine forM_ok fun o ho => forM_ok fun c hc => ?_
  rcases List.mem_append.mp ho with ho | ho
  · obtain ⟨n, rfl, -⟩ := hs o ho
    cases hc
  · have hopen := hd o (Option.mem_toList.mp ho)
    cases o with
    | v n => cases hc
    | c n =>
      obtain rfl : c = n := by simpa [VOp.cis] using hc
      have hdef : (s.cistern c).defined = true := hopen.1
      simp [State.defined, hdef, bind, Except.bind]

theorem cisternWaits_ok (hs : ∀ o ∈ srcs, Plain s o) (hd : ∀ o ∈ dst, Open s cq o) :
    s.cisternWaits (cqWait cq) srcs dst = .ok () := by
  have hcode : s.myCore.slotCode (slotNeed (cqWait cq) [] (dst.toList.flatMap VOp.cis)) = 0 := by
    cases dst with
    | none => rfl
    | some o =>
      have hopen := hd o rfl
      cases o with
      | v n => rfl
      | c n =>
        have : ¬s.myCore.cist[n].free < cqWait cq := by rw [cqWait_eq]; exact Nat.not_lt.mpr hopen.2
        simpa [Core.slotCode, slotNeed, VOp.cis] using this
  unfold State.cisternWaits State.slotWait
  rw [cis_plain hs, hcode]
  rfl

theorem vblocks_ok (hc : calm s) (hs : ∀ o ∈ srcs, Plain s o) (hd : ∀ o ∈ dst, Open s cq o) :
    s.vblocks cq srcs dst = .ok s := by
  unfold State.vblocks
  rw [operandTraps_ok hs hd, cisternWaits_ok hs hd]
  exact touch_of_none (touched_of_present hc.2 _)

theorem vstalls_ok (hc : calm s) (hs : ∀ o ∈ srcs, Plain s o) (hd : ∀ o ∈ dst, Open s cq o) :
    s.vstalls cq srcs dst = .ok () := by
  unfold State.vstalls
  rw [hc.1, bind_portFor hd, List.any_eq_false.mpr fun o ho => by rw [portFor_plain (hs o ho)]; exact Bool.false_ne_true]
  rfl

theorem vcheck_ok (hc : calm s) (hs : ∀ o ∈ srcs, Plain s o) (hd : ∀ o ∈ dst, Open s cq o) : s.vcheck cq srcs dst = .ok s := by
  unfold State.vcheck
  rw [vblocks_ok hc hs hd]
  show (do s.vstalls cq srcs dst; .ok s) = _
  rw [vstalls_ok hc hs hd]
  rfl

/-- One register as the only source. -/
theorem vreads_one {a : Fin 16} (ha : unbound s a) (cq : Option CQual) : s.vreads cq [.v a] = ([s.me.rv a], s) := by
  have hread : s.vread (cqWait cq) (.v a) = (s.me.rv a, s) := by
    show (match s.myCore.portOf s.cur.2 a with
      | some (q, p) => s.streamRead a q p
      | none => (s.me.rv a, s)) = _
    rw [portOf_unbound ha]
  simp [State.vreads, State.vreadAll, hread]

/-- Registers have no slots to take. -/
theorem vadvance_plain (hs : ∀ o ∈ srcs, Plain s o) (t : State) (d : Fin 16) (cond : List RelCond) :
    t.vadvance cq srcs (some (.v d)) cond = t := by
  unfold State.vadvance
  rw [cis_plain hs]
  split <;> rfl

/-- A write of a register that no stream binds. -/
theorem vwrite_plain {d : Fin 16} (hd : unbound s d) (cq : Option CQual) (on act : Fin 16 → Bool) (x : Vec) :
    s.vwrite cq (.v d) on act x = s.modMe (fun t => t.wv d (mergeLanes act (s.me.rv d) x)) := by
  unfold State.vwrite
  dsimp only
  rw [portOf_unbound hd]

end

/-! ### One source and one destination -/

theorem lanesOf_eq_active (s : State) (gd : Guard) (l : Fin 16) : lanesOf gd s.me l = active s gd l := rfl

/-- The flags of the active lanes. -/
theorem getLsbD_laneMap (act : Fin 16 → Bool) (f : Fin 16 → Lane × Flags) (j : Nat) :
    (laneMap act f).2.getLsbD j = (List.finRange 16).any (fun l => act l && (f l).2.getLsbD j) := by
  have h : ∀ (ls : List (Fin 16)) (a : Flags), (ls.foldl (fun a l => if act l then a ||| (f l).2 else a) a).getLsbD j =
      (a.getLsbD j || ls.any (fun l => act l && (f l).2.getLsbD j)) := by
    intro ls
    induction ls with
    | nil => simp
    | cons l ls ih =>
      intro a
      rw [List.foldl_cons, ih, List.any_cons]
      cases act l <;> simp [Bool.or_assoc]
  simpa [laneMap] using h (List.finRange 16) 0

/-- A lane-wise instruction with one register as source writes the active lanes of its destination (R49, R116). -/
theorem laneWise_of_vecBody {i : Instr} {s : State} {cq : Option CQual} {gd : Guard} {d a : Fin 16} {g : Lane → Lane × Flags}
    (h : exec i s = runL 8 s (vecBody cq [.v a] (.v d) false (lanesOf gd) (fun _ _ vs _ l => g (srcLane vs 0 l))))
    (hc : calm s) (hd : unbound s d) (ha : unbound s a) : LaneWise i s gd d (fun l => g (s.me.rv a)[l]) := by
  have hsrc : ∀ o ∈ [VOp.v a], Plain s o := fun o ho => ⟨a, List.mem_singleton.mp ho, ha⟩
  have hdst : ∀ o ∈ some (VOp.v d), Open s cq o := fun o ho => by
    obtain rfl : VOp.v d = o := by simpa using ho
    exact hd
  let act := lanesOf gd s.me
  let r := laneMap act (fun l => g (s.me.rv a)[l])
  let f : Strand → Strand := fun t => (t.wv d (mergeLanes act (s.me.rv d) r.1)).raise r.2
  have hbody : vecBody cq [.v a] (.v d) false (lanesOf gd) (fun _ _ vs _ l => g (srcLane vs 0 l)) s = .ok (s.modMe f) := by
    unfold vecBody lanesBody
    rw [vcheck_ok hc hsrc hdst]
    simp only [bind, Except.bind, Bool.false_eq_true, if_false]
    rw [vreads_one ha, vadvance_plain hsrc, vwrite_plain hd]
    exact congrArg Except.ok (s.modMe_modMe _ _)
  refine ⟨r.2, runsTo_of_modMe (f := f) (len := 8) ?_ ⟨⟨fun n _ => rfl, fun n _ => rfl, fun n hn => ?_, ?_⟩, fun l => ?_⟩,
    fun j => getLsbD_laneMap ..⟩
  · rw [h, runL, hbody]
    rfl
  · have hn : n ≠ d := by simpa using hn
    exact (Strand.rv_wv ..).trans (if_neg hn)
  · rfl
  · have hrv : (f s.me).rv d = mergeLanes act (s.me.rv d) r.1 := (Strand.rv_wv ..).trans (if_pos rfl)
    show ((f s.me).rv d)[l] = _
    rw [hrv]
    cases hl : active s gd l <;> simp [mergeLanes, r, laneMap, act, lanesOf_eq_active, hl]

end Sys2Proof.Machine
end

section
/-! PROOFS. FP32 codes as the special functions read them: magnitude, sign, kinds and subnormals (R64, R132). -/

namespace Sys2Proof.Machine
open Sys2Proof.Claims

/-! ### FP32 codes by magnitude (R64, R65) -/

/-- The code of a lane's magnitude. -/
def magCode (a : Lane) : Nat := a.toNat % 2 ^ 31

theorem magCode_lt (a : Lane) : magCode a < 2 ^ 31 := Nat.mod_lt _ (by decide)

theorem bitAt_toNat (a : Lane) : bitAt a.toNat 31 = a.getLsbD 31 := bitAt_eq_testBit ..

theorem sign_eq_decide (a : Lane) : a.getLsbD 31 = decide (2 ^ 31 ≤ a.toNat) := BitVec.msb_eq_decide a

theorem toNat_eq_magCode (a : Lane) : a.toNat = magCode a + (if a.getLsbD 31 then 2 ^ 31 else 0) := by
  have := a.isLt
  rw [sign_eq_decide]
  unfold magCode
  by_cases h : 2 ^ 31 ≤ a.toNat <;> simp only [h, decide_true, decide_false, if_true, if_false, Bool.false_eq_true] <;> omega

theorem fp32_value (a : Lane) : fp32.value a.toNat =
    if 0x7F7FFFFF < magCode a then
      (if some 0x7F800000 = some (magCode a) then .inf (bitAt a.toNat 31) else .nan (!bitAt (magCode a) 22))
    else if magCode a / 2 ^ 23 = 0 then .num (bitAt a.toNat 31) (magCode a % 2 ^ 23) (-149) 1
    else .num (bitAt a.toNat 31) (2 ^ 23 + magCode a % 2 ^ 23) ((magCode a / 2 ^ 23 : Nat) - 127 - 23) 1 := rfl

section

variable {a : Lane}

theorem fp32_nan (h : 0x7F800000 < magCode a) : fp32.value a.toNat = .nan (!bitAt (magCode a) 22) := by
  have hne : ¬some 0x7F800000 = some (magCode a) := fun e => Nat.ne_of_lt h (Option.some.inj e)
  rw [fp32_value, if_pos (Nat.lt_trans (by decide) h), if_neg hne]

theorem fp32_inf (h : magCode a = 0x7F800000) : fp32.value a.toNat = .inf (a.getLsbD 31) := by
  rw [fp32_value, h, if_pos (by decide), if_pos rfl, bitAt_toNat]

theorem fp32_subnormal (h : magCode a < 0x00800000) : fp32.value a.toNat = .num (a.getLsbD 31) (magCode a) (-149) 1 := by
  rw [fp32_value, if_neg (by omega), if_pos (by omega), bitAt_toNat, Nat.mod_eq_of_lt (b := 2 ^ 23) h]

theorem fp32_normal (h : 0x00800000 ≤ magCode a) (h' : magCode a < 0x7F800000) : fp32.value a.toNat =
    .num (a.getLsbD 31) (2 ^ 23 + magCode a % 2 ^ 23) ((magCode a / 2 ^ 23 : Nat) - 150) 1 := by
  rw [fp32_value, if_neg (by omega), if_neg (by omega), bitAt_toNat]
  congr 1
  omega

theorem isZero_num (n : Bool) (m : Nat) (e : Int) (d : Nat) : (XReal.num n m e d).isZero = decide (m = 0) := by
  cases m <;> rfl

/-- What the kinds of a code are, by its magnitude. -/
theorem isNan_fp32 (a : Lane) : (fp32.value a.toNat).isNan = decide (0x7F800000 < magCode a) := by
  rcases Nat.lt_trichotomy (magCode a) 0x7F800000 with h | h | h
  · rw [decide_eq_false (by omega)]
    rcases Nat.lt_or_ge (magCode a) 0x00800000 with hs | hs
    · rw [fp32_subnormal hs]; rfl
    · rw [fp32_normal hs h]; rfl
  · rw [fp32_inf h, decide_eq_false (by omega)]; rfl
  · rw [fp32_nan h, decide_eq_true h]; rfl

theorem isInf_fp32 (a : Lane) : (fp32.value a.toNat).isInf = decide (magCode a = 0x7F800000) := by
  rcases Nat.lt_trichotomy (magCode a) 0x7F800000 with h | h | h
  · rw [decide_eq_false (by omega)]
    rcases Nat.lt_or_ge (magCode a) 0x00800000 with hs | hs
    · rw [fp32_subnormal hs]; rfl
    · rw [fp32_normal hs h]; rfl
  · rw [fp32_inf h, decide_eq_true h]; rfl
  · rw [fp32_nan h, decide_eq_false (by omega)]; rfl

theorem isZero_fp32 (a : Lane) : (fp32.value a.toNat).isZero = decide (magCode a = 0) := by
  rcases Nat.lt_trichotomy (magCode a) 0x7F800000 with h | h | h
  · rcases Nat.lt_or_ge (magCode a) 0x00800000 with hs | hs
    · rw [fp32_subnormal hs, isZero_num]
    · rw [fp32_normal hs h, isZero_num, decide_eq_false (by omega), decide_eq_false (by omega)]
  · rw [fp32_inf h, decide_eq_false (by omega)]; rfl
  · rw [fp32_nan h, decide_eq_false (by omega)]; rfl

end

/-! ### Signs and subnormals of a lane -/

theorem and_signBit (a : Lane) : a &&& 0x80000000 = if a.getLsbD 31 then 0x80000000 else 0 := BitVec.and_twoPow a 31

theorem toNat_and_magnitude (x : Lane) : (x &&& 0x7FFFFFFF).toNat = magCode x :=
  (BitVec.toNat_and ..).trans (Nat.and_two_pow_sub_one_eq_mod x.toNat 31)

/-- A lane of a sign and a magnitude. -/
theorem toNat_withSign (a x : Lane) : (withSign a x).toNat = magCode x + (if a.getLsbD 31 then 2 ^ 31 else 0) := by
  unfold withSign
  rw [and_signBit, BitVec.toNat_or, toNat_and_magnitude]
  cases a.getLsbD 31
  · exact (Nat.zero_or _).trans (Nat.add_zero _).symm
  · exact ((Nat.two_pow_add_eq_or_of_lt (magCode_lt x) 1).symm).trans (Nat.add_comm ..)

theorem magCode_of_toNat {z : Lane} {m : Nat} {b : Bool} (hm : m < 2 ^ 31) (h : z.toNat = m + (if b then 2 ^ 31 else 0)) :
    magCode z = m ∧ z.getLsbD 31 = b := by
  rw [sign_eq_decide]
  unfold magCode
  rw [h]
  cases b <;> simp only [Bool.false_eq_true, if_true, if_false] <;> simp <;> omega

theorem magCode_withSign (a x : Lane) : magCode (withSign a x) = magCode x :=
  (magCode_of_toNat (magCode_lt x) (toNat_withSign a x)).1

theorem sign_withSign (a x : Lane) : (withSign a x).getLsbD 31 = a.getLsbD 31 :=
  (magCode_of_toNat (magCode_lt x) (toNat_withSign a x)).2

theorem eq_of_magCode {a b : Lane} (hm : magCode a = magCode b) (hs : a.getLsbD 31 = b.getLsbD 31) : a = b :=
  BitVec.eq_of_toNat_eq (by rw [toNat_eq_magCode a, toNat_eq_magCode b, hm, hs])

theorem flushLane_small {a : Lane} (h : magCode a < 0x00800000) : flushLane a = a &&& 0x80000000 := if_pos h

theorem flushLane_large {a : Lane} (h : ¬magCode a < 0x00800000) : flushLane a = a := if_neg h

theorem magCode_and_signBit (a : Lane) : magCode (a &&& 0x80000000) = 0 := by
  rw [and_signBit]
  cases a.getLsbD 31 <;> rfl

theorem sign_and_signBit (a : Lane) : (a &&& 0x80000000).getLsbD 31 = a.getLsbD 31 := by
  rw [and_signBit]
  cases a.getLsbD 31 <;> rfl

theorem magCode_flushLane (a : Lane) : magCode (flushLane a) = if magCode a < 0x00800000 then 0 else magCode a := by
  by_cases h : magCode a < 0x00800000
  · rw [flushLane_small h, if_pos h, magCode_and_signBit]
  · rw [flushLane_large h, if_neg h]

theorem sign_flushLane (a : Lane) : (flushLane a).getLsbD 31 = a.getLsbD 31 := by
  by_cases h : magCode a < 0x00800000
  · rw [flushLane_small h, sign_and_signBit]
  · rw [flushLane_large h]

end Sys2Proof.Machine
end

section
/-! PROOFS. Special functions: the rows of R133, and the flags, subnormals and ranges of R132. -/

namespace Sys2Proof.Machine
open Sys2Proof.Claims

/-! ### The grade: what is read and written in the fast grade (R132) -/

/-- A lane as a grade reads and writes it. -/
def graded (acc : Bool) (a : Lane) : Lane := if acc then a else flushLane a

theorem specialOp_eq (f : Nat) (acc : Bool) (a : Lane) : specialOp f acc a =
    (graded acc ((specialRow f (graded acc a)).getD (specialFree f acc (graded acc a))).1,
      ((specialRow f (graded acc a)).getD (specialFree f acc (graded acc a))).2) := by
  cases acc <;> rfl

theorem specialOp_of_row {f : Nat} {acc : Bool} {a : Lane} {r : Lane × Flags} (h : specialRow f (graded acc a) = some r) :
    specialOp f acc a = (graded acc r.1, r.2) := by
  rw [specialOp_eq, h, Option.getD_some]

theorem specialOp_of_none {f : Nat} {acc : Bool} {a : Lane} (h : specialRow f (graded acc a) = none) :
    specialOp f acc a = (graded acc (specialFree f acc (graded acc a)).1, (specialFree f acc (graded acc a)).2) := by
  rw [specialOp_eq, h, Option.getD_none]

theorem graded_large {a : Lane} (h : 0x00800000 ≤ magCode a) (acc : Bool) : graded acc a = a := by
  cases acc
  · exact flushLane_large (Nat.not_lt.mpr h)
  · rfl

/-! ### The rows of R133 -/

/-- No row sets `uf`, `nx` or `sa`. -/
theorem flags_specialRow {f : Nat} {a : Lane} {r : Lane × Flags} (h : specialRow f a = some r) :
    r.2 = 0 ∨ r.2 = fNV ∨ r.2 = fDZ ∨ r.2 = fOF := by
  unfold specialRow at h
  dsimp only at h
  split at h
  · cases h
    dsimp only [sigFlag, flagIf]
    split <;> simp
  · split at h <;> repeat' split at h
    all_goals cases h
    all_goals simp

theorem specialRow_nan (f : Nat) {a : Lane} (h : 0x7F800000 < magCode a) :
    specialRow f a = some (0x7FC00000, sigNan [a]) := by
  have hsig : sigFlag [fp32.value a.toNat] = sigNan [a] := by simp [sigFlag, flagIf, sigNan]
  unfold specialRow
  dsimp only
  rw [isNan_fp32, decide_eq_true h, if_pos rfl, hsig]
  rfl

/-- A NaN gives the canonical NaN, and `nv` when it was signalling (R65, R133). -/
theorem specialOp_nan (f : Nat) (acc : Bool) {a : Lane} (h : 0x7F800000 < magCode a) :
    specialOp f acc a = (0x7FC00000, sigNan [a]) := by
  have ha : graded acc a = a := graded_large (by omega) acc
  rw [specialOp_of_row (r := (0x7FC00000, sigNan [a])) (by rw [ha]; exact specialRow_nan f h)]
  cases acc <;> rfl

theorem specialRow_fexp_high {a : Lane} (h : 0x42B17218 ≤ a.toNat) (h' : a.toNat < 0x7F800000) :
    specialRow 0 a = some (pInf, fOF) := by
  have hm : magCode a = a.toNat := Nat.mod_eq_of_lt (by omega)
  have hs : a.getLsbD 31 = false := by rw [sign_eq_decide, decide_eq_false (by omega)]
  unfold specialRow
  dsimp only
  rw [isNan_fp32, isInf_fp32, isZero_fp32, hm, hs, decide_eq_false (by omega), decide_eq_false (by omega),
    decide_eq_false (by omega), decide_eq_true h]
  rfl

theorem specialRow_fexp_low {a : Lane} (h : 0x80000000 < a.toNat) (h' : a.toNat < 0xFF800000) : specialRow 0 a = none := by
  have hm : magCode a = a.toNat - 0x80000000 := by unfold magCode; omega
  have hs : a.getLsbD 31 = true := by rw [sign_eq_decide, decide_eq_true (by omega)]
  unfold specialRow
  dsimp only
  rw [isNan_fp32, isInf_fp32, isZero_fp32, hm, hs, decide_eq_false (by omega), decide_eq_false (by omega),
    decide_eq_false (by omega)]
  rfl

/-- A negative number has no logarithm and no root. -/
theorem specialRow_negative {a : Lane} (h : 0x80000000 < a.toNat) (h' : a.toNat ≤ 0xFF800000) {n : Nat}
    (hn : n ∈ [1, 3, 4]) : specialRow n a = some (qNan, fNV) := by
  have hm : magCode a = a.toNat - 0x80000000 := by unfold magCode; omega
  have hs : a.getLsbD 31 = true := by rw [sign_eq_decide, decide_eq_true (by omega)]
  have h0 : (fp32.value a.toNat).isZero = false := by rw [isZero_fp32, decide_eq_false (by omega)]
  have hna : (fp32.value a.toNat).isNan = false := by rw [isNan_fp32, decide_eq_false (by omega)]
  simp only [List.mem_cons, List.not_mem_nil, or_false] at hn
  rcases hn with rfl | rfl | rfl <;> simp only [specialRow, h0, hna, hs] <;> rfl

theorem specialOp_fexp_high (acc : Bool) {a : Lane} (h : 0x42B17218 ≤ a.toNat) (h' : a.toNat < 0x7F800000) :
    specialOp 0 acc a = (0x7F800000, fOF) := by
  have hm : magCode a = a.toNat := Nat.mod_eq_of_lt (by omega)
  have ha : graded acc a = a := graded_large (by omega) acc
  rw [specialOp_of_row (r := (pInf, fOF)) (by rw [ha]; exact specialRow_fexp_high h h')]
  cases acc <;> rfl

theorem flags_fexp_low {a : Lane} (h : 0xC2AEAC50 ≤ a.toNat) (h' : a.toNat < 0xFF800000) : (specialOp 0 true a).2 = fUF := by
  have hs : a.getLsbD 31 = true := by rw [sign_eq_decide, decide_eq_true (by omega)]
  have hm : 0x42AEAC50 ≤ a.toNat % 2 ^ 31 := by omega
  have hrow : specialRow 0 (graded true a) = none := specialRow_fexp_low (a := a) (by omega) h'
  rw [specialOp_of_none hrow]
  show (if true && (0 : Nat) == 0 && a.getLsbD 31 && decide (0x42AEAC50 ≤ a.toNat % 2 ^ 31) then fUF else 0) = fUF
  rw [hs, decide_eq_true hm]
  rfl

theorem specialOp_negative (acc : Bool) {a : Lane} (h : (if acc then 0x80000001 else 0x80800000) ≤ a.toNat)
    (h' : a.toNat ≤ 0xFF800000) {n : Nat} (hn : n ∈ [1, 3, 4]) : specialOp n acc a = (0x7FC00000, fNV) := by
  have ha : graded acc a = a ∧ 0x80000000 < a.toNat := by
    cases acc
    · have hlow : 0x80800000 ≤ a.toNat := h
      exact ⟨graded_large (by unfold magCode; omega) false, by omega⟩
    · exact ⟨rfl, h⟩
  rw [specialOp_of_row (r := (qNan, fNV)) (by rw [ha.1]; exact specialRow_negative ha.2 h' hn)]
  cases acc <;> rfl

theorem specialTable_holds (acc : Bool) : specialTable acc (fun n a => specialOp n acc a) := by
  refine ⟨fun n a _ h => specialOp_nan n acc ?_, by cases acc <;> rfl, by cases acc <;> rfl, by cases acc <;> rfl,
    by cases acc <;> rfl, fun a => specialOp_fexp_high acc, ?_, fun a h h' n => specialOp_negative acc h h',
    by cases acc <;> rfl, by cases acc <;> rfl, by cases acc <;> rfl, by cases acc <;> rfl, ?_, by cases acc <;> rfl,
    by cases acc <;> rfl, by cases acc <;> rfl, ?_, by cases acc <;> rfl, by cases acc <;> rfl, ?_, ?_,
    by cases acc <;> rfl, by cases acc <;> rfl, by cases acc <;> rfl, by cases acc <;> rfl, ?_⟩
  · rwa [isNan_fp32, decide_eq_true_eq] at h
  · rintro a rfl
    exact flags_fexp_low
  · simp only [List.mem_cons, List.not_mem_nil, or_false]
    rintro n (rfl | rfl) <;> cases acc <;> exact ⟨rfl, rfl, rfl⟩
  · simp only [List.mem_cons, List.not_mem_nil, or_false]
    rintro n (rfl | rfl) <;> cases acc <;> exact ⟨rfl, rfl⟩
  · simp only [List.mem_cons, List.not_mem_nil, or_false]
    rintro n (rfl | rfl | rfl | rfl | rfl) <;> cases acc <;> exact ⟨rfl, rfl⟩
  · simp only [List.mem_cons, List.not_mem_nil, or_false]
    rintro n (rfl | rfl) <;> cases acc <;> exact ⟨rfl, rfl⟩
  · simp only [List.mem_cons, List.not_mem_nil, or_false]
    rintro n (rfl | rfl) <;> cases acc <;> exact ⟨rfl, rfl⟩

/-! ### Flags and subnormals (R132) -/

/-- An ordinary operand sets `uf` alone, and that in the accurate grade. -/
theorem flags_specialFree (f : Nat) (acc : Bool) (a : Lane) :
    (specialFree f acc a).2 = 0 ∨ acc = true ∧ (specialFree f acc a).2 = fUF := by
  unfold specialFree
  dsimp only
  split
  · split <;> exact .inl rfl
  · exact .inl rfl
  · exact .inl rfl
  · cases acc
    · exact .inl rfl
    · dsimp only
      split
      · exact .inr ⟨rfl, rfl⟩
      · exact .inl rfl

theorem flags_specialOp (f : Nat) (acc : Bool) (a : Lane) :
    (specialOp f acc a).2 &&& fNX = 0 ∧ (acc = false → (specialOp f acc a).2 &&& fUF = 0) := by
  rw [specialOp_eq]
  dsimp only
  cases h : specialRow f (graded acc a) with
  | some r => obtain h | h | h | h := flags_specialRow h <;> rw [Option.getD_some, h] <;> exact ⟨rfl, fun _ => rfl⟩
  | none =>
    rw [Option.getD_none]
    obtain h | ⟨rfl, h⟩ := flags_specialFree f acc (graded acc a) <;> rw [h]
    · exact ⟨rfl, fun _ => rfl⟩
    · exact ⟨rfl, nofun⟩

/-- The fast grade reads a subnormal as the zero of its sign. -/
theorem specialOp_fast_subnormal (f : Nat) {a : Lane} (h : magCode a < 0x00800000) :
    specialOp f false a = specialOp f false (a &&& 0x80000000) := by
  have hflush : flushLane a = flushLane (a &&& 0x80000000) := by
    refine eq_of_magCode ?_ ?_
    · rw [magCode_flushLane, magCode_flushLane, magCode_and_signBit, if_pos h, if_pos (by decide)]
    · rw [sign_flushLane, sign_flushLane, sign_and_signBit]
  unfold specialOp
  simp only [Bool.false_eq_true, if_false, hflush]

/-- The fast grade writes no subnormal. -/
theorem magCode_flushed (z : Lane) : magCode (flushLane z) = 0 ∨ 0x00800000 ≤ magCode (flushLane z) := by
  rw [magCode_flushLane]
  split
  · exact .inl rfl
  · next h => exact .inr (Nat.not_lt.mp h)

/-! ### Ranges (R132) -/

/-- A finite code in units of 2^-320. -/
def fixMag (z : Lane) : Nat :=
  if magCode z < 0x00800000 then magCode z * 2 ^ 171 else (2 ^ 23 + magCode z % 2 ^ 23) * 2 ^ (magCode z / 2 ^ 23 + 170)

theorem fixOf_eq {z : Lane} (h : magCode z < 0x7F800000) :
    fixOf z = if z.getLsbD 31 then -(fixMag z : Int) else (fixMag z : Int) := by
  have hsign : ∀ (b : Bool) (m k : Nat), (if b then -1 else 1) * ((m : Int) * 2 ^ k) =
      if b then -((m * 2 ^ k : Nat) : Int) else ((m * 2 ^ k : Nat) : Int) := fun b m k => by
    cases b <;> simp
  unfold fixOf fixMag
  rcases Nat.lt_or_ge (magCode z) 0x00800000 with hs | hs
  · rw [fp32_subnormal hs, if_pos hs]
    exact hsign _ _ 171
  · rw [fp32_normal hs h, if_neg (Nat.not_lt.mpr hs)]
    have he : (((magCode z / 2 ^ 23 : Nat) : Int) - 150 + 320).toNat = magCode z / 2 ^ 23 + 170 := by omega
    dsimp only
    rw [he]
    exact hsign _ _ _

/-- A magnitude of 1 or less has a code of 1 or less. -/
theorem magCode_le_one {z : Lane} (h : fixMag z ≤ 2 ^ 320) : magCode z ≤ 0x3F800000 := by
  by_contra hlt
  have hE : 127 ≤ magCode z / 2 ^ 23 := by omega
  have hlarge : ¬magCode z < 0x00800000 := by omega
  unfold fixMag at h
  rw [if_neg hlarge] at h
  have hexp : 23 + (127 + 170) = 320 := rfl
  have hone : (2 : Nat) ^ 320 = 2 ^ 23 * 2 ^ (127 + 170) := by rw [← hexp, pow_add]
  rcases Nat.eq_or_lt_of_le hE with hE | hE
  · rw [← hE, hone] at h
    have := Nat.le_of_mul_le_mul_right h (by positivity)
    omega
  · have hpow : (2 : Nat) ^ 298 ≤ 2 ^ (magCode z / 2 ^ 23 + 170) := pow_le_pow_right₀ (by decide) (by omega)
    have hle : 2 ^ 23 * 2 ^ 298 ≤ 2 ^ 23 * 2 ^ (127 + 170) :=
      (Nat.mul_le_mul (Nat.le_add_right ..) hpow).trans (h.trans hone.le)
    exact absurd (Nat.le_of_mul_le_mul_left hle (Nat.two_pow_pos 23))
      (Nat.not_le.mpr (pow_lt_pow_right₀ (by decide) (by decide)))

theorem fixMag_le {z : Lane} (h : magCode z < 0x7F800000) (hl : -fixOne ≤ fixOf z) (hr : fixOf z ≤ fixOne) :
    fixMag z ≤ 2 ^ 320 := by
  rw [fixOf_eq h] at hl hr
  have hone : fixOne = ((2 ^ 320 : Nat) : Int) := by rw [Nat.cast_pow]; rfl
  rw [hone] at hl hr
  cases hs : z.getLsbD 31 <;> simp only [hs, if_true, if_false, Bool.false_eq_true] at hl hr <;> omega

/-- A code in the range of the logistic function is that of a number from 0 to 1, or the negative zero. -/
theorem fixMag_zero {z : Lane} (h : fixMag z = 0) : magCode z = 0 := by
  unfold fixMag at h
  split at h
  · exact (Nat.mul_eq_zero.mp h).resolve_right (Nat.two_pow_pos _).ne'
  · exact absurd h (Nat.mul_pos (Nat.add_pos_left (by decide) _) (Nat.two_pow_pos _)).ne'

/-- A number from 0 to 1, or the negative zero. -/
def InUnit (z : Lane) : Prop := z.toNat ≤ 0x3F800000 ∨ z = 0x80000000

theorem inUnit_of_sign {z : Lane} (hs : z.getLsbD 31 = false) (hm : magCode z ≤ 0x3F800000) : InUnit z :=
  .inl (by rw [toNat_eq_magCode, hs]; exact hm)

theorem InUnit.graded {z : Lane} (h : InUnit z) (acc : Bool) : InUnit (graded acc z) := by
  cases acc
  · rcases h with h | rfl
    · refine inUnit_of_sign ?_ ?_
      · show (flushLane z).getLsbD 31 = false
        rw [sign_flushLane, sign_eq_decide, decide_eq_false (by omega)]
      · show magCode (flushLane z) ≤ _
        rw [magCode_flushLane]
        split
        · omega
        · exact (Nat.mod_le ..).trans h
    · exact .inr rfl
  · exact h

theorem magCode_graded_le (acc : Bool) (z : Lane) : magCode (graded acc z) ≤ magCode z := by
  cases acc
  · show magCode (flushLane z) ≤ _
    rw [magCode_flushLane]
    split <;> omega
  · exact le_refl _

theorem specialRow_bounded {a : Lane} (ha : magCode a < 0x7F800000) {n : Nat} (hn : n ∈ [5, 6, 7, 8, 11]) {r : Lane × Flags}
    (h : specialRow n a = some r) : magCode r.1 ≤ 0x3F800000 ∧ (n = 8 → InUnit r.1) := by
  have hna : (fp32.value a.toNat).isNan = false := by rw [isNan_fp32, decide_eq_false (by omega)]
  have hin : (fp32.value a.toNat).isInf = false := by rw [isInf_fp32, decide_eq_false (by omega)]
  have hz : (fp32.value a.toNat).isZero = true → magCode a ≤ 0x3F800000 := fun h => by
    rw [isZero_fp32, decide_eq_true_eq] at h
    omega
  simp only [List.mem_cons, List.not_mem_nil, or_false] at hn
  rcases hn with rfl | rfl | rfl | rfl | rfl <;>
    simp only [specialRow, hna, hin, Bool.false_eq_true, if_false] at h <;> split at h <;> cases h
  · exact ⟨hz ‹_›, nofun⟩
  · exact ⟨le_refl _, nofun⟩
  · exact ⟨hz ‹_›, nofun⟩
  · exact ⟨by decide, fun _ => .inl (by decide)⟩
  · exact ⟨hz ‹_›, nofun⟩

theorem magCode_ofNat_le (n : Nat) : magCode (BitVec.ofNat 32 n) ≤ n := by
  unfold magCode
  rw [BitVec.toNat_ofNat]
  exact (Nat.mod_le ..).trans (Nat.mod_le ..)

theorem magCode_cutFix_le {f : Nat} (hf : greatest f = one) (a : Lane) : magCode (cutFix f a) ≤ 0x3F800000 := by
  unfold cutFix
  dsimp only
  rw [magCode_withSign, hf]
  exact (magCode_ofNat_le _).trans (Nat.min_le_right ..)

/-- What an ordinary operand gives of the functions whose range is bounded. -/
theorem specialFree_bounded (acc : Bool) (a : Lane) {n : Nat} (hn : n ∈ [5, 6, 7, 8, 11]) :
    magCode (specialFree n acc a).1 ≤ 0x3F800000 ∧ (n = 8 → InUnit (specialFree n acc a).1) := by
  have hfree : (specialFree n acc a).1 =
      if withinFix n acc a (Config.special n acc a) then Config.special n acc a else cutFix n a := by
    simp only [List.mem_cons, List.not_mem_nil, or_false] at hn
    rcases hn with rfl | rfl | rfl | rfl | rfl <;> rfl
  have hgreat : greatest n = one := by
    simp only [List.mem_cons, List.not_mem_nil, or_false] at hn
    rcases hn with rfl | rfl | rfl | rfl | rfl <;> rfl
  rw [hfree]
  generalize Config.special n acc a = y
  split
  · next hw =>
    simp only [withinFix, Bool.and_eq_true, decide_eq_true_eq] at hw
    obtain ⟨⟨hfin, hrange⟩, -⟩ := hw
    have hy : magCode y < 0x7F800000 := Nat.lt_of_le_of_lt hfin (by decide)
    have hv : -fixOne ≤ fixOf y ∧ fixOf y ≤ fixOne ∧ (n = 8 → 0 ≤ fixOf y) := by
      have hpos : -fixOne ≤ 0 := neg_nonpos.mpr (by unfold fixOne; positivity)
      simp only [List.mem_cons, List.not_mem_nil, or_false] at hn
      rcases hn with rfl | rfl | rfl | rfl | rfl <;> simp only [inRange, decide_eq_true_eq] at hrange
      · exact ⟨hrange.1, hrange.2, nofun⟩
      · exact ⟨hrange.1, hrange.2, nofun⟩
      · exact ⟨hrange.1, hrange.2, nofun⟩
      · exact ⟨hpos.trans hrange.1, hrange.2, fun _ => hrange.1⟩
      · exact ⟨hrange.1, hrange.2, nofun⟩
    obtain ⟨hl, hr, h8⟩ := hv
    have hm := magCode_le_one (fixMag_le hy hl hr)
    refine ⟨hm, fun h => ?_⟩
    cases hs : y.getLsbD 31
    · exact inUnit_of_sign hs hm
    · have h0 := h8 h
      rw [fixOf_eq hy, hs, if_pos rfl] at h0
      have hz : magCode y = 0 := fixMag_zero (by omega)
      exact .inr (eq_of_magCode (hz.trans rfl) (hs.trans rfl))
  · refine ⟨magCode_cutFix_le hgreat a, fun h => ?_⟩
    subst h
    refine inUnit_of_sign ?_ (magCode_cutFix_le hgreat a)
    unfold cutFix
    dsimp only
    rw [sign_withSign, show nowhereNeg 8 = true from rfl, Bool.not_true, Bool.and_false]
    rfl

theorem specialOp_bounded (acc : Bool) {a : Lane} (ha : magCode a < 0x7F800000) {n : Nat} (hn : n ∈ [5, 6, 7, 8, 11]) :
    magCode (specialOp n acc a).1 ≤ 0x3F800000 ∧ (n = 8 → InUnit (specialOp n acc a).1) := by
  have hg : magCode (graded acc a) < 0x7F800000 := Nat.lt_of_le_of_lt (magCode_graded_le acc a) ha
  cases h : specialRow n (graded acc a) with
  | some r =>
    obtain ⟨hm, h8⟩ := specialRow_bounded hg hn h
    rw [specialOp_of_row h]
    exact ⟨(magCode_graded_le ..).trans hm, fun e => (h8 e).graded acc⟩
  | none =>
    obtain ⟨hm, h8⟩ := specialFree_bounded acc (graded acc a) hn
    rw [specialOp_of_none h]
    exact ⟨(magCode_graded_le ..).trans hm, fun e => (h8 e).graded acc⟩

end Sys2Proof.Machine
end

section
/-! PROOFS. The bounds of `frcp`, `frsq` and `fsqrt` over the reals (R132): the model's rational checks say what they
are meant to, and the cut target keeps them. -/

namespace Sys2Proof.Machine
open Sys2Proof.Claims

/-! ### Non-negative rationals -/

/-- The number that a pair stands for. -/
noncomputable def Rat0.real (x : Rat0) : ℝ := x.n / x.d

namespace Rat0

variable {x y : Rat0}

theorem le_iff (hx : 0 < x.d) (hy : 0 < y.d) : x.le y = true ↔ x.real ≤ y.real := by
  have hx' : (0 : ℝ) < x.d := Nat.cast_pos.mpr hx
  have hy' : (0 : ℝ) < y.d := Nat.cast_pos.mpr hy
  rw [Rat0.le, decide_eq_true_eq, real, real, div_le_div_iff₀ hx' hy']
  exact_mod_cast Iff.rfl

theorem real_mul (x y : Rat0) : (x.mul y).real = x.real * y.real := by
  simp only [real, Rat0.mul, Nat.cast_mul]
  exact (div_mul_div_comm ..).symm

theorem real_pow (x : Rat0) (p : Nat) : (x.pow p).real = x.real ^ p := by
  simp only [real, Rat0.pow, Nat.cast_pow, div_pow]

theorem real_add (hx : 0 < x.d) (hy : 0 < y.d) : (x.add y).real = x.real + y.real := by
  have hx' : (x.d : ℝ) ≠ 0 := Nat.cast_ne_zero.mpr hx.ne'
  have hy' : (y.d : ℝ) ≠ 0 := Nat.cast_ne_zero.mpr hy.ne'
  simp only [real, Rat0.add, Nat.cast_add, Nat.cast_mul]
  rw [div_add_div _ _ hx' hy', mul_comm (y.n : ℝ)]

/-- The difference, 0 where it would be negative. -/
theorem real_sub (hx : 0 < x.d) (hy : 0 < y.d) : (x.sub y).real = max (x.real - y.real) 0 := by
  have hx' : (0 : ℝ) < x.d := Nat.cast_pos.mpr hx
  have hy' : (0 : ℝ) < y.d := Nat.cast_pos.mpr hy
  have hsub : x.real - y.real = (x.n * y.d - y.n * x.d) / (x.d * y.d) := by
    rw [real, real, div_sub_div _ _ hx'.ne' hy'.ne', mul_comm (x.d : ℝ) y.n]
  rw [hsub, real, Rat0.sub]
  rcases Nat.le_total (y.n * x.d) (x.n * y.d) with h | h
  · have h' : (y.n : ℝ) * x.d ≤ x.n * y.d := by exact_mod_cast h
    rw [max_eq_left (div_nonneg (sub_nonneg.mpr h') (by positivity)), Nat.cast_sub h]
    push_cast
    rfl
  · have h' : (x.n : ℝ) * y.d ≤ y.n * x.d := by exact_mod_cast h
    rw [max_eq_right (div_nonpos_of_nonpos_of_nonneg (sub_nonpos.mpr h') (by positivity)), Nat.sub_eq_zero_of_le h]
    simp

end Rat0

/-- A fraction scaled by a power of two. -/
theorem scaleBy_real (m den : Nat) (e : Int) :
    ((scaleBy m den e).1 : ℝ) / (scaleBy m den e).2 = m / den * 2 ^ e := by
  unfold scaleBy
  split
  · next h =>
    lift e to Nat using h
    push_cast
    rw [Int.toNat_natCast, zpow_natCast]
    ring
  · next h =>
    obtain ⟨k, rfl⟩ : ∃ k : Nat, e = -k := ⟨(-e).toNat, by omega⟩
    push_cast
    rw [neg_neg, Int.toNat_natCast, zpow_neg, zpow_natCast, div_mul_eq_div_div]
    rfl

theorem scaleBy_pos {den : Nat} (m : Nat) (h : 0 < den) (e : Int) : 0 < (scaleBy m den e).2 := by
  unfold scaleBy
  split
  · exact h
  · exact Nat.mul_pos h (Nat.two_pow_pos _)

theorem real_pow2 (e : Int) : (pow2 e).real = 2 ^ e := by
  rw [Rat0.real, pow2, scaleBy_real]
  simp

theorem pow2_pos (e : Int) : 0 < (pow2 e).d := scaleBy_pos 1 Nat.one_pos e

/-! ### Logarithms -/

/-- A number between two powers of two. -/
theorem log_eq {r : ℝ} {k : Int} (h : (2 : ℝ) ^ k ≤ r) (h' : r < 2 ^ (k + 1)) : Int.log 2 r = k := by
  have hr : 0 < r := lt_of_lt_of_le (by positivity) h
  have h1 : k ≤ Int.log 2 r := (Int.zpow_le_iff_le_log (by decide) hr).mp (by exact_mod_cast h)
  have h2 : Int.log 2 r < k + 1 := (Int.lt_zpow_iff_log_lt (by decide) hr).mp (by exact_mod_cast h')
  omega

theorem zpow_log_le {r : ℝ} (hr : 0 < r) : (2 : ℝ) ^ Int.log 2 r ≤ r := by
  exact_mod_cast Int.zpow_log_le_self (b := 2) (by decide) hr

theorem lt_zpow_log {r : ℝ} : r < (2 : ℝ) ^ (Int.log 2 r + 1) := by
  exact_mod_cast Int.lt_zpow_succ_log_self (b := 2) (by decide) r

/-- `floorLog` is the floor of the logarithm. -/
theorem floorLog_eq {m den : Nat} (hm : 0 < m) (hden : 0 < den) : floorLog m 0 den = Int.log 2 ((m : ℝ) / den) := by
  have hd : (0 : ℝ) < den := Nat.cast_pos.mpr hden
  let k : Int := (Nat.log2 m : Int) - Nat.log2 den
  have hmlo : (2 : ℝ) ^ (Nat.log2 m : Int) ≤ m := by exact_mod_cast Nat.log2_self_le hm.ne'
  have hmhi : (m : ℝ) < 2 ^ ((Nat.log2 m : Int) + 1) := by exact_mod_cast Nat.lt_log2_self
  have hdlo : (2 : ℝ) ^ (Nat.log2 den : Int) ≤ den := by exact_mod_cast Nat.log2_self_le hden.ne'
  have hdhi : (den : ℝ) < 2 ^ ((Nat.log2 den : Int) + 1) := by exact_mod_cast Nat.lt_log2_self
  have hlo : (2 : ℝ) ^ (k - 1) ≤ m / den := by
    rw [le_div_iff₀ hd]
    calc (2 : ℝ) ^ (k - 1) * den ≤ 2 ^ (k - 1) * 2 ^ ((Nat.log2 den : Int) + 1) :=
          mul_le_mul_of_nonneg_left hdhi.le (by positivity)
      _ = 2 ^ (Nat.log2 m : Int) := by rw [← zpow_add₀ two_ne_zero]; congr 1; simp only [k]; ring
      _ ≤ m := hmlo
  have hhi : (m : ℝ) / den < 2 ^ (k + 1) := by
    rw [div_lt_iff₀ hd]
    calc (m : ℝ) < 2 ^ ((Nat.log2 m : Int) + 1) := hmhi
      _ = 2 ^ (k + 1) * 2 ^ (Nat.log2 den : Int) := by rw [← zpow_add₀ two_ne_zero]; congr 1; simp only [k]; ring
      _ ≤ 2 ^ (k + 1) * den := mul_le_mul_of_nonneg_left hdlo (by positivity)
  have hcond : (scaleBy m den (0 - k)).2 ≤ (scaleBy m den (0 - k)).1 ↔ (2 : ℝ) ^ k ≤ m / den := by
    have hpos : (0 : ℝ) < (scaleBy m den (0 - k)).2 := Nat.cast_pos.mpr (scaleBy_pos m hden _)
    rw [← Nat.cast_le (α := ℝ), ← one_le_div hpos, scaleBy_real, zero_sub, zpow_neg, ← div_eq_mul_inv,
      one_le_div (by positivity)]
  have hfl : floorLog m 0 den = if (scaleBy m den (0 - k)).2 ≤ (scaleBy m den (0 - k)).1 then k else k - 1 := by
    unfold floorLog
    simp only [add_zero]
    rfl
  rw [hfl]
  split
  · next h => exact (log_eq (hcond.mp h) hhi).symm
  · next h =>
    refine (log_eq hlo ?_).symm
    rw [sub_add_cancel]
    exact not_le.mp fun h' => h (hcond.mpr h')

theorem zpow_sq (k : Int) : ((2 : ℝ) ^ k) ^ 2 = 2 ^ (k * 2) := by
  rw [zpow_mul]
  rfl

/-- The logarithm of a square halves. -/
theorem log_sq {r : ℝ} (hr : 0 < r) : Int.log 2 (r ^ 2) / 2 = Int.log 2 r := by
  have h1 := zpow_log_le (pow_pos hr 2)
  have h2 := lt_zpow_log (r := r ^ 2)
  refine (log_eq (le_of_not_gt fun h => ?_) (lt_of_not_ge fun h => ?_)).symm
  · have hsq : r ^ 2 < ((2 : ℝ) ^ (Int.log 2 (r ^ 2) / 2)) ^ 2 := pow_lt_pow_left₀ h hr.le two_ne_zero
    rw [zpow_sq] at hsq
    have hle : (2 : ℝ) ^ (Int.log 2 (r ^ 2) / 2 * 2) ≤ 2 ^ Int.log 2 (r ^ 2) := zpow_le_zpow_right₀ one_le_two (by omega)
    linarith
  · have hsq : ((2 : ℝ) ^ (Int.log 2 (r ^ 2) / 2 + 1)) ^ 2 ≤ r ^ 2 := pow_le_pow_left₀ (by positivity) h 2
    rw [zpow_sq] at hsq
    have hle : (2 : ℝ) ^ (Int.log 2 (r ^ 2) + 1) ≤ 2 ^ ((Int.log 2 (r ^ 2) / 2 + 1) * 2) :=
      zpow_le_zpow_right₀ one_le_two (by omega)
    linarith

/-! ### FP32 codes as real numbers -/

/-- The number of a finite code's magnitude. -/
noncomputable def magReal (z : Lane) : ℝ :=
  if magCode z < 0x00800000 then (magCode z : ℝ) * 2 ^ (-149 : Int)
  else ((2 ^ 23 + magCode z % 2 ^ 23 : Nat) : ℝ) * 2 ^ ((magCode z / 2 ^ 23 : Nat) - 150 : Int)

theorem realOf_eq {z : Lane} (h : magCode z < 0x7F800000) : realOf z = (if z.getLsbD 31 then -1 else 1) * magReal z := by
  unfold realOf magReal
  rcases Nat.lt_or_ge (magCode z) 0x00800000 with hs | hs
  · rw [fp32_subnormal hs, if_pos hs]
    dsimp only
    rw [Nat.cast_one, div_one, mul_assoc]
  · rw [fp32_normal hs h, if_neg (Nat.not_lt.mpr hs)]
    dsimp only
    rw [Nat.cast_one, div_one, mul_assoc]

/-- The code of a magnitude, as a lane. -/
theorem magCode_ofNat {m : Nat} (h : m < 2 ^ 31) :
    (BitVec.ofNat 32 m).toNat = m ∧ magCode (BitVec.ofNat 32 m) = m ∧ (BitVec.ofNat 32 m : Lane).getLsbD 31 = false := by
  have hn : (BitVec.ofNat 32 m).toNat = m := by rw [BitVec.toNat_ofNat]; exact Nat.mod_eq_of_lt (by omega)
  exact ⟨hn, magCode_of_toNat h (b := false) hn⟩

theorem magOf_eq {z : Lane} (h : magCode z < 0x7F800000) : (magOf z).real = magReal z ∧ 0 < (magOf z).d := by
  obtain ⟨hn, hm, hs⟩ := magCode_ofNat (magCode_lt z)
  have hv : magOf z = match fp32.value (BitVec.ofNat 32 (magCode z) : Lane).toNat with
      | .num _ m e d => ⟨(scaleBy m d e).1, (scaleBy m d e).2⟩
      | _ => ⟨0, 1⟩ := by rw [hn]; rfl
  rw [hv]
  unfold magReal
  rcases Nat.lt_or_ge (magCode z) 0x00800000 with hlt | hge
  · rw [fp32_subnormal (hm.symm ▸ hlt), if_pos hlt, hm]
    refine ⟨?_, scaleBy_pos _ Nat.one_pos _⟩
    rw [Rat0.real, scaleBy_real, Nat.cast_one, div_one]
  · rw [fp32_normal (hm.symm ▸ hge) (hm.symm ▸ h), if_neg (Nat.not_lt.mpr hge), hm]
    refine ⟨?_, scaleBy_pos _ Nat.one_pos _⟩
    rw [Rat0.real, scaleBy_real, Nat.cast_one, div_one]

/-! ### Sizes -/

section

variable {z : Lane}

theorem magReal_subnormal (h : magCode z < 0x00800000) : magReal z = magCode z * 2 ^ (-149 : Int) := if_pos h

theorem magReal_normal (h : 0x00800000 ≤ magCode z) :
    magReal z = ((2 ^ 23 + magCode z % 2 ^ 23 : Nat) : ℝ) * 2 ^ ((magCode z / 2 ^ 23 : Nat) - 150 : Int) :=
  if_neg (Nat.not_lt.mpr h)

theorem magReal_nonneg : 0 ≤ magReal z := by
  unfold magReal
  split <;> positivity

theorem le_magReal_of_normal (h : 0x00800000 ≤ magCode z) : (2 : ℝ) ^ (-126 : Int) ≤ magReal z := by
  rw [magReal_normal h]
  have hE : (1 : Int) ≤ (magCode z / 2 ^ 23 : Nat) := by omega
  calc (2 : ℝ) ^ (-126 : Int) = 2 ^ (23 : Int) * 2 ^ (1 - 150 : Int) := by rw [← zpow_add₀ two_ne_zero]; rfl
    _ ≤ ((2 ^ 23 + magCode z % 2 ^ 23 : Nat) : ℝ) * 2 ^ ((magCode z / 2 ^ 23 : Nat) - 150 : Int) := by
      refine mul_le_mul ?_ (zpow_le_zpow_right₀ one_le_two (by omega)) (by positivity) (by positivity)
      exact_mod_cast Nat.le_add_right (2 ^ 23) (magCode z % 2 ^ 23)

theorem magReal_lt (h : magCode z < 0x7F800000) : magReal z < 2 ^ (128 : Int) := by
  rcases Nat.lt_or_ge (magCode z) 0x00800000 with hs | hs
  · rw [magReal_subnormal hs]
    calc (magCode z : ℝ) * 2 ^ (-149 : Int) ≤ 2 ^ (23 : Int) * 2 ^ (-149 : Int) := by
          refine mul_le_mul_of_nonneg_right ?_ (by positivity)
          exact_mod_cast hs.le
      _ < 2 ^ (128 : Int) := by
        rw [← zpow_add₀ two_ne_zero]
        exact zpow_lt_zpow_right₀ one_lt_two (by decide)
  · rw [magReal_normal hs]
    have hE : ((magCode z / 2 ^ 23 : Nat) : Int) ≤ 254 := by omega
    have hM : 2 ^ 23 + magCode z % 2 ^ 23 < 2 ^ 24 := by omega
    calc ((2 ^ 23 + magCode z % 2 ^ 23 : Nat) : ℝ) * 2 ^ ((magCode z / 2 ^ 23 : Nat) - 150 : Int)
        < 2 ^ (24 : Int) * 2 ^ ((magCode z / 2 ^ 23 : Nat) - 150 : Int) := by
          refine mul_lt_mul_of_pos_right ?_ (by positivity)
          exact_mod_cast hM
      _ ≤ 2 ^ (128 : Int) := by
        rw [← zpow_add₀ two_ne_zero]
        exact zpow_le_zpow_right₀ one_le_two (by omega)

/-- A magnitude beyond code `m` of the subnormals is larger than its number. -/
theorem lt_magReal {m : Nat} (hm : m < 0x00800000) (h : m < magCode z) : (m : ℝ) * 2 ^ (-149 : Int) < magReal z := by
  rcases Nat.lt_or_ge (magCode z) 0x00800000 with hs | hs
  · rw [magReal_subnormal hs]
    exact mul_lt_mul_of_pos_right (Nat.cast_lt.mpr h) (by positivity)
  · refine lt_of_lt_of_le ?_ (le_magReal_of_normal hs)
    calc (m : ℝ) * 2 ^ (-149 : Int) < 2 ^ (23 : Int) * 2 ^ (-149 : Int) := by
          refine mul_lt_mul_of_pos_right ?_ (by positivity)
          exact_mod_cast hm
      _ = 2 ^ (-126 : Int) := by rw [← zpow_add₀ two_ne_zero]; rfl

theorem magReal_pos (h : 0 < magCode z) : 0 < magReal z := by
  have := lt_magReal (m := 0) (by decide) h
  simpa using this

/-- The code of `n · 2^(k-149)`, a number of at most 24 bits. -/
theorem magReal_code {n k : Nat} (hn : n < 2 ^ 24) (hk : k = 0 ∨ 2 ^ 23 ≤ n) (hk' : k ≤ 253) :
    magCode (BitVec.ofNat 32 (min (n + k * 2 ^ 23) 0x7F7FFFFF)) = n + k * 2 ^ 23 ∧
      magReal (BitVec.ofNat 32 (min (n + k * 2 ^ 23) 0x7F7FFFFF)) = n * 2 ^ ((k : Int) - 149) := by
  rw [min_eq_left (by omega)]
  have hm : magCode (BitVec.ofNat 32 (n + k * 2 ^ 23)) = n + k * 2 ^ 23 := (magCode_ofNat (by omega)).2.1
  refine ⟨hm, ?_⟩
  rcases Nat.lt_or_ge n (2 ^ 23) with hlt | hge
  · obtain rfl : k = 0 := by omega
    rw [magReal_subnormal (by omega), hm]
    simp
  · rw [magReal_normal (by omega), hm]
    have hM : 2 ^ 23 + (n + k * 2 ^ 23) % 2 ^ 23 = n := by omega
    have hE : (n + k * 2 ^ 23) / 2 ^ 23 = k + 1 := by omega
    rw [hM, hE]
    congr 2
    push_cast
    ring

end

/-! ### The target of an algebraic function -/

/-- A positive operand of `frcp`, `frsq` or `fsqrt` whose result is finite (R132). -/
def InDomain (n : Nat) (a : Lane) : Prop :=
  n ∈ [2, 3, 4] ∧ magCode a < 0x7F800000 ∧ 0 < magCode a ∧ (n = 2 → 0x00200000 < magCode a)

/-- The function's value for the operand's magnitude. -/
noncomputable def wanted (n : Nat) (a : Lane) : ℝ := algebraic n (magReal a)

/-- What the model's rational target is: the wanted number to a power, of a normal size. -/
structure Target (n : Nat) (a : Lane) (t : Rat0) (p : Nat) : Prop where
  power : p = 1 ∨ p = 2
  num : 0 < t.n
  den : 0 < t.d
  real : t.real = wanted n a ^ p
  low : 2 ^ (-128 : Int) < wanted n a
  high : wanted n a < 2 ^ (128 : Int)

theorem real_inv (x : Rat0) : (⟨x.d, x.n⟩ : Rat0).real = x.real⁻¹ := (inv_div ..).symm

theorem between_of_sq {x : ℝ} (hx : 0 < x) (hl : (2 : ℝ) ^ (-256 : Int) < x ^ 2) (hh : x ^ 2 < 2 ^ (256 : Int)) :
    (2 : ℝ) ^ (-128 : Int) < x ∧ x < 2 ^ (128 : Int) := by
  have e1 : ((2 : ℝ) ^ (-128 : Int)) ^ 2 = 2 ^ (-256 : Int) := zpow_sq _
  have e2 : ((2 : ℝ) ^ (128 : Int)) ^ 2 = 2 ^ (256 : Int) := zpow_sq _
  rw [← e1] at hl
  rw [← e2] at hh
  exact ⟨lt_of_pow_lt_pow_left₀ 2 hx.le hl, lt_of_pow_lt_pow_left₀ 2 (by positivity) hh⟩

theorem target_of_inDomain {n : Nat} {a : Lane} (h : InDomain n a) :
    Target n a (algTarget n (magOf a)).1 (algTarget n (magOf a)).2 := by
  obtain ⟨hn, hfin, hpos, h2⟩ := h
  obtain ⟨hreal, hden⟩ := magOf_eq hfin
  have hx := magReal_pos hpos
  have hhigh := magReal_lt hfin
  have hlow : (2 : ℝ) ^ (-149 : Int) ≤ magReal a := by
    rcases Nat.lt_or_ge (magCode a) 0x00800000 with hs | hs
    · rw [magReal_subnormal hs]
      exact le_mul_of_one_le_left (by positivity) (by exact_mod_cast hpos)
    · exact (zpow_le_zpow_right₀ one_le_two (by decide)).trans (le_magReal_of_normal hs)
  have hnum : 0 < (magOf a).n := by
    rcases Nat.eq_zero_or_pos (magOf a).n with h0 | h0
    · rw [← hreal, Rat0.real, h0, Nat.cast_zero, zero_div] at hx
      exact absurd hx (lt_irrefl _)
    · exact h0
  simp only [List.mem_cons, List.not_mem_nil, or_false] at hn
  rcases hn with rfl | rfl | rfl
  · have hw : wanted 2 a = (magReal a)⁻¹ := one_div _
    have hlow2 : (2 : ℝ) ^ (-128 : Int) < magReal a := by
      have := lt_magReal (by decide) (h2 rfl)
      refine lt_of_eq_of_lt ?_ this
      norm_num
    refine ⟨.inl rfl, hden, hnum, ?_, ?_, ?_⟩
    · rw [show (algTarget 2 (magOf a)).2 = 1 from rfl, pow_one, hw, ← hreal]
      exact real_inv _
    · rw [hw, zpow_neg]
      exact inv_strictAnti₀ hx hhigh
    · rw [hw, show (128 : Int) = -(-128) from rfl, zpow_neg]
      exact inv_strictAnti₀ (by positivity) hlow2
  · have hw : wanted 3 a = (Real.sqrt (magReal a))⁻¹ := one_div _
    have hsq : wanted 3 a ^ 2 = (magReal a)⁻¹ := by rw [hw, inv_pow, Real.sq_sqrt hx.le]
    have hwpos : 0 < wanted 3 a := by rw [hw]; positivity
    have hb := between_of_sq hwpos (by
      rw [hsq, zpow_neg]
      exact inv_strictAnti₀ hx (hhigh.trans_le (zpow_le_zpow_right₀ one_le_two (by decide)))) (by
      rw [hsq, show (256 : Int) = -(-256) from rfl, zpow_neg]
      exact inv_strictAnti₀ (by positivity) (lt_of_lt_of_le (zpow_lt_zpow_right₀ one_lt_two (by decide)) hlow))
    refine ⟨.inr rfl, hden, hnum, ?_, hb.1, hb.2⟩
    rw [show (algTarget 3 (magOf a)).2 = 2 from rfl, hsq, ← hreal]
    exact real_inv _
  · have hw : wanted 4 a = Real.sqrt (magReal a) := rfl
    have hsq : wanted 4 a ^ 2 = magReal a := by rw [hw, Real.sq_sqrt hx.le]
    have hwpos : 0 < wanted 4 a := by rw [hw]; exact Real.sqrt_pos.mpr hx
    have hb := between_of_sq hwpos (by
      rw [hsq]
      exact lt_of_lt_of_le (zpow_lt_zpow_right₀ one_lt_two (by decide)) hlow) (by
      rw [hsq]
      exact hhigh.trans_le (zpow_le_zpow_right₀ one_le_two (by decide)))
    refine ⟨.inr rfl, hnum, hden, ?_, hb.1, hb.2⟩
    rw [show (algTarget 4 (magOf a)).2 = 2 from rfl, hsq, ← hreal]
    rfl

namespace Target

variable {n : Nat} {a : Lane} {t : Rat0} {p : Nat} (ht : Target n a t p)
include ht

theorem pos : 0 < wanted n a := lt_trans (by positivity) ht.low

theorem power_ne : p ≠ 0 := by rcases ht.power with rfl | rfl <;> decide

/-- The model's exponent of one ulp is that of the wanted number (R132). -/
theorem ulpExp_eq : ulpExp t p = max (Int.log 2 (wanted n a) - 23) (-149) := by
  have hlog : t.log = Int.log 2 (wanted n a ^ p) := by
    rw [← ht.real, Rat0.log, floorLog_eq ht.num ht.den]
    rfl
  unfold ulpExp
  rw [hlog]
  rcases ht.power with rfl | rfl
  · rw [pow_one, Nat.cast_one, Int.ediv_one]
  · rw [show ((2 : Nat) : Int) = 2 from rfl, log_sq ht.pos]

end Target

end Sys2Proof.Machine
end

section
/-! PROOFS. Special functions: the error bounds of R132 over the reals, and the obligation. -/

namespace Sys2Proof.Machine
open Sys2Proof.Claims

/-- The grade's bound on the distance from the wanted number (R132). -/
noncomputable def gradeBound (acc : Bool) (x : ℝ) : ℝ :=
  if acc then 2 ^ max (Int.log 2 x - 23) (-149) else 2 ^ (-12 : Int) * x

/-- A code that the grade allows for the wanted number. -/
def Allowed (acc : Bool) (x : ℝ) (z : Lane) : Prop :=
  magCode z ≤ 0x7F7FFFFF ∧ |magReal z - x| ≤ gradeBound acc x

theorem pow_le_pow_iff_of_nonneg {x y : ℝ} (hx : 0 ≤ x) (hy : 0 ≤ y) {p : Nat} (hp : p ≠ 0) : x ^ p ≤ y ^ p ↔ x ≤ y :=
  pow_le_pow_iff_left₀ hx hy hp

/-- The model's check of a code is the bound over the reals. -/
theorem allowed_of_withinBound {n : Nat} {acc : Bool} {a y : Lane}
    (ht : Target n a (algTarget n (magOf a)).1 (algTarget n (magOf a)).2) (hy : magCode y ≤ 0x7F7FFFFF)
    (h : withinBound n acc a y = true) : Allowed acc (wanted n a) y := by
  have hfin : magCode y < 0x7F800000 := Nat.lt_of_le_of_lt hy (by decide)
  obtain ⟨hreal, hden⟩ := magOf_eq hfin
  have hx := ht.pos
  have hp := ht.power_ne
  have hm : 0 ≤ magReal y := magReal_nonneg
  refine ⟨hy, ?_⟩
  unfold withinBound at h
  cases acc
  · simp only [Bool.false_eq_true, if_false, Bool.and_eq_true] at h
    obtain ⟨h1, h2⟩ := h
    have e1 : (⟨4096, 4097⟩ : Rat0).real = 4096 / 4097 := by norm_num [Rat0.real]
    have e2 : (⟨4096, 4095⟩ : Rat0).real = 4096 / 4095 := by norm_num [Rat0.real]
    rw [Rat0.le_iff (Nat.pow_pos (Nat.mul_pos hden (by decide))) ht.den, Rat0.real_pow, Rat0.real_mul, hreal, e1, ht.real,
      pow_le_pow_iff_of_nonneg (by positivity) hx.le hp] at h1
    rw [Rat0.le_iff ht.den (Nat.pow_pos (Nat.mul_pos hden (by decide))), Rat0.real_pow, Rat0.real_mul, hreal, e2, ht.real,
      pow_le_pow_iff_of_nonneg hx.le (by positivity) hp] at h2
    have e3 : gradeBound false (wanted n a) = wanted n a / 4096 := by
      simp only [gradeBound, Bool.false_eq_true, if_false]
      norm_num
      ring
    rw [e3, abs_le]
    constructor <;> linarith
  · simp only [if_true, Bool.and_eq_true] at h
    obtain ⟨h1, h2⟩ := h
    have hu := real_pow2 (ulpExp (algTarget n (magOf a)).1 (algTarget n (magOf a)).2)
    have hud := pow2_pos (ulpExp (algTarget n (magOf a)).1 (algTarget n (magOf a)).2)
    rw [ht.ulpExp_eq] at h1 h2 hu hud
    rw [Rat0.le_iff (Nat.pow_pos (Nat.mul_pos hden hud)) ht.den, Rat0.real_pow, Rat0.real_sub hden hud, hreal, hu, ht.real,
      pow_le_pow_iff_of_nonneg (le_max_right ..) hx.le hp] at h1
    rw [Rat0.le_iff ht.den (Nat.pow_pos (Nat.mul_pos hden hud)), Rat0.real_pow, Rat0.real_add hden hud, hreal, hu, ht.real,
      pow_le_pow_iff_of_nonneg hx.le (by positivity) hp] at h2
    have h1' := (le_max_left _ _).trans h1
    have e3 : gradeBound true (wanted n a) = 2 ^ max (Int.log 2 (wanted n a) - 23) (-149) := if_pos rfl
    rw [e3, abs_le]
    constructor <;> linarith

/-- The floor of a quotient and of its square root. -/
theorem rootFloor {num den : Nat} (hden : 0 < den) {x : ℝ} (hx : 0 ≤ x) {p : Nat} (hp : p = 1 ∨ p = 2)
    (h : (num : ℝ) / den = x ^ p) :
    let n := if p = 1 then num / den else Nat.sqrt (num / den)
    (n : ℝ) ≤ x ∧ x < n + 1 := by
  have hd : (0 : ℝ) < den := Nat.cast_pos.mpr hden
  have hlo : ((num / den : Nat) : ℝ) ≤ x ^ p := h ▸ Nat.cast_div_le
  have hhi : x ^ p < (num / den : Nat) + 1 := by
    rw [← h, div_lt_iff₀ hd]
    rw [mul_comm]
    exact_mod_cast Nat.lt_mul_div_succ num hden
  rcases hp with rfl | rfl
  · rw [pow_one] at hlo hhi
    exact ⟨hlo, hhi⟩
  · have h1 : ((Nat.sqrt (num / den) : Nat) : ℝ) ^ 2 ≤ (num / den : Nat) := by
      exact_mod_cast Nat.sqrt_le' (num / den)
    have h2 : ((num / den : Nat) : ℝ) + 1 ≤ ((Nat.sqrt (num / den) : Nat) + 1 : ℝ) ^ 2 := by
      exact_mod_cast Nat.lt_succ_sqrt' (num / den)
    exact ⟨(pow_le_pow_iff_left₀ (by positivity) hx two_ne_zero).mp (h1.trans hlo),
      lt_of_pow_lt_pow_left₀ 2 (by positivity) (hhi.trans_le h2)⟩

/-- The cut target lies at most one ulp below the wanted number. -/
theorem cutTarget_eq {n : Nat} {a : Lane} (ht : Target n a (algTarget n (magOf a)).1 (algTarget n (magOf a)).2) :
    let e := max (Int.log 2 (wanted n a) - 23) (-149)
    (magCode (cutTarget n a) ≤ 0x7F7FFFFF ∧ (cutTarget n a).getLsbD 31 = false) ∧
      magReal (cutTarget n a) ≤ wanted n a ∧ wanted n a < magReal (cutTarget n a) + 2 ^ e := by
  intro e
  let t := (algTarget n (magOf a)).1
  let p := (algTarget n (magOf a)).2
  have he : ulpExp t p = e := ht.ulpExp_eq
  have hx := ht.pos
  let x := wanted n a * 2 ^ (-e)
  have hxpos : 0 ≤ x := by positivity
  let s := scaleBy t.n t.d (-(e * p))
  have hs : (s.1 : ℝ) / s.2 = x ^ p := by
    have h1 : (t.n : ℝ) / t.d = wanted n a ^ p := ht.real
    rw [scaleBy_real, h1, mul_pow, ← zpow_natCast ((2 : ℝ) ^ (-e)), ← zpow_mul, neg_mul]
  obtain ⟨hlo, hhi⟩ := rootFloor (scaleBy_pos _ ht.den _) hxpos ht.power hs
  let m := if p = 1 then s.1 / s.2 else Nat.sqrt (s.1 / s.2)
  have hcut : cutTarget n a = BitVec.ofNat 32 (min (m + (e + 149).toNat * 2 ^ 23) 0x7F7FFFFF) := by
    have he' : ulpExp (algTarget n (magOf a)).1 (algTarget n (magOf a)).2 = e := he
    simp only [cutTarget, he']
    rfl
  have hlog1 := zpow_log_le hx
  have hlog2 := lt_zpow_log (r := wanted n a)
  have hle : Int.log 2 (wanted n a) ≤ 127 := by
    have := (Int.lt_zpow_iff_log_lt (b := 2) (x := 128) (by decide) hx).mp (by exact_mod_cast ht.high)
    omega
  have hm24 : m < 2 ^ 24 := by
    have : x < 2 ^ (24 : Int) := by
      calc x < 2 ^ (Int.log 2 (wanted n a) + 1) * 2 ^ (-e) := mul_lt_mul_of_pos_right hlog2 (by positivity)
        _ ≤ 2 ^ (24 : Int) := by
          rw [← zpow_add₀ two_ne_zero]
          exact zpow_le_zpow_right₀ one_le_two (by omega)
    have : (m : ℝ) < 2 ^ (24 : Int) := hlo.trans_lt this
    exact_mod_cast this
  have hm23 : (e + 149).toNat = 0 ∨ 2 ^ 23 ≤ m := by
    rcases eq_or_ne e (-149) with h | h
    · exact .inl (by omega)
    · right
      have hx23 : (2 : ℝ) ^ (23 : Int) ≤ x := by
        calc (2 : ℝ) ^ (23 : Int) = 2 ^ Int.log 2 (wanted n a) * 2 ^ (-e) := by
              rw [← zpow_add₀ two_ne_zero]
              congr 1
              omega
          _ ≤ x := mul_le_mul_of_nonneg_right hlog1 (by positivity)
      have : (2 : ℝ) ^ (23 : Int) < m + 1 := hx23.trans_lt hhi
      have : 2 ^ 23 < m + 1 := by exact_mod_cast this
      omega
  have hk : (e + 149).toNat ≤ 253 := by omega
  obtain ⟨hcode, hval⟩ := magReal_code hm24 hm23 hk
  have hexp : (((e + 149).toNat : Int) - 149) = e := by omega
  rw [← hcut] at hcode hval
  rw [hexp] at hval
  have hunit : x * 2 ^ e = wanted n a := by
    show wanted n a * 2 ^ (-e) * 2 ^ e = wanted n a
    rw [mul_assoc, ← zpow_add₀ two_ne_zero, neg_add_cancel, zpow_zero, mul_one]
  have hue : (0 : ℝ) < 2 ^ e := by positivity
  refine ⟨⟨by rw [hcode]; omega, ?_⟩, ?_, ?_⟩
  · rw [hcut]
    exact (magCode_ofNat (lt_of_le_of_lt (Nat.min_le_right ..) (by decide))).2.2
  · rw [hval, ← hunit]
    exact mul_le_mul_of_nonneg_right hlo hue.le
  · rw [hval, ← add_one_mul, ← hunit]
    exact mul_lt_mul_of_pos_right hhi hue

theorem allowed_cutTarget {n : Nat} {a : Lane} (ht : Target n a (algTarget n (magOf a)).1 (algTarget n (magOf a)).2)
    (acc : Bool) : Allowed acc (wanted n a) (cutTarget n a) := by
  obtain ⟨⟨hfin, -⟩, hlo, hhi⟩ := cutTarget_eq ht
  refine ⟨hfin, ?_⟩
  rw [abs_sub_comm, abs_of_nonneg (sub_nonneg.mpr hlo)]
  have hdist := (sub_lt_iff_lt_add'.mpr hhi).le
  cases acc
  · refine hdist.trans ?_
    have hlog := zpow_log_le ht.pos
    show (2 : ℝ) ^ max (Int.log 2 (wanted n a) - 23) (-149) ≤ 2 ^ (-12 : Int) * wanted n a
    rcases max_cases (Int.log 2 (wanted n a) - 23) (-149) with ⟨h, -⟩ | ⟨h, -⟩ <;> rw [h]
    · calc (2 : ℝ) ^ (Int.log 2 (wanted n a) - 23) ≤ 2 ^ (-12 : Int) * 2 ^ Int.log 2 (wanted n a) := by
            rw [← zpow_add₀ two_ne_zero]
            exact zpow_le_zpow_right₀ one_le_two (by omega)
        _ ≤ 2 ^ (-12 : Int) * wanted n a := mul_le_mul_of_nonneg_left hlog (by positivity)
    · calc (2 : ℝ) ^ (-149 : Int) ≤ 2 ^ (-12 : Int) * 2 ^ (-128 : Int) := by
            rw [← zpow_add₀ two_ne_zero]
            exact zpow_le_zpow_right₀ one_le_two (by omega)
        _ ≤ 2 ^ (-12 : Int) * wanted n a := mul_le_mul_of_nonneg_left ht.low.le (by positivity)
  · exact hdist

/-! ### The results of the algebraic functions -/

theorem allowed_congr {acc : Bool} {x : ℝ} {z w : Lane} (h : magCode z = magCode w) (hz : Allowed acc x z) :
    Allowed acc x w := by
  have hreal : magReal z = magReal w := by simp only [magReal, h]
  exact ⟨h ▸ hz.1, hreal ▸ hz.2⟩

/-- The code `y` where the model's check allows it, else the cut target. -/
def heldTo (n : Nat) (acc : Bool) (a y : Lane) (m : Nat) : Lane :=
  if withinBound n acc a y && decide (m ≤ 0x7F7FFFFF) then y else cutTarget n a

theorem specialFree_frcp (acc : Bool) {a : Lane} (h : 0x00200000 < magCode a) : specialFree 2 acc a =
    (withSign a (heldTo 2 acc a (Config.special 2 acc a) (magCode (Config.special 2 acc a))), 0) :=
  if_neg (Nat.not_le.mpr h)

theorem specialFree_root (acc : Bool) (a : Lane) {n : Nat} (h : n = 3 ∨ n = 4) : specialFree n acc a =
    (heldTo n acc a (Config.special n acc a) (Config.special n acc a).toNat, 0) := by
  rcases h with rfl | rfl <;> rfl

theorem allowed_heldTo {n : Nat} {a : Lane} (ht : Target n a (algTarget n (magOf a)).1 (algTarget n (magOf a)).2)
    (acc : Bool) {y : Lane} {m : Nat} (hm : magCode y ≤ m) : Allowed acc (wanted n a) (heldTo n acc a y m) := by
  unfold heldTo
  split
  · next h =>
    obtain ⟨hw, hy⟩ := Bool.and_eq_true_iff.mp h
    exact allowed_of_withinBound ht (hm.trans (of_decide_eq_true hy)) hw
  · exact allowed_cutTarget ht acc

theorem sign_heldTo {n : Nat} {a : Lane} (ht : Target n a (algTarget n (magOf a)).1 (algTarget n (magOf a)).2)
    (acc : Bool) (y : Lane) : (heldTo n acc a y y.toNat).getLsbD 31 = false := by
  unfold heldTo
  split
  · next h =>
    have hy := of_decide_eq_true (Bool.and_eq_true_iff.mp h).2
    rw [sign_eq_decide, decide_eq_false (by omega)]
  · exact (cutTarget_eq ht).1.2

/-- The free choice keeps the bound and the operand's sign. -/
theorem specialFree_allowed {n : Nat} (acc : Bool) {a : Lane} (hd : InDomain n a) (hs : n ≠ 2 → a.getLsbD 31 = false) :
    (specialFree n acc a).2 = 0 ∧ Allowed acc (wanted n a) (specialFree n acc a).1 ∧
      (specialFree n acc a).1.getLsbD 31 = a.getLsbD 31 := by
  have ht := target_of_inDomain hd
  by_cases h2 : n = 2
  · subst h2
    rw [specialFree_frcp acc (hd.2.2.2 rfl)]
    exact ⟨rfl, allowed_congr (magCode_withSign ..).symm (allowed_heldTo ht acc le_rfl), sign_withSign ..⟩
  · have hroot : n = 3 ∨ n = 4 := by simpa [h2] using hd.1
    rw [specialFree_root acc a hroot, hs h2]
    exact ⟨rfl, allowed_heldTo ht acc (Nat.mod_le ..), sign_heldTo ht acc _⟩

theorem specialRow_none {n : Nat} {a : Lane} (hd : InDomain n a) (hs : n ≠ 2 → a.getLsbD 31 = false) :
    specialRow n a = none := by
  obtain ⟨hn, hfin, hpos, -⟩ := hd
  have hna : (fp32.value a.toNat).isNan = false := by rw [isNan_fp32, decide_eq_false (by omega)]
  have hin : (fp32.value a.toNat).isInf = false := by rw [isInf_fp32, decide_eq_false (by omega)]
  have hz : (fp32.value a.toNat).isZero = false := by rw [isZero_fp32, decide_eq_false (by omega)]
  simp only [List.mem_cons, List.not_mem_nil, or_false] at hn
  rcases hn with rfl | rfl | rfl
  · simp [specialRow, hna, hin, hz]
  · have hs' := hs (by decide)
    simp only [specialRow, hna, hin, hz, hs']
    rfl
  · have hs' := hs (by decide)
    simp only [specialRow, hna, hin, hz, hs']
    rfl

/-- The sign of a lane as a factor. -/
noncomputable def signOf (a : Lane) : ℝ := if a.getLsbD 31 then -1 else 1

theorem abs_signOf (a : Lane) : |signOf a| = 1 := by
  unfold signOf
  split <;> simp

/-- The function of the operand is that of its magnitude with the operand's sign. -/
theorem algebraic_realOf {n : Nat} {a : Lane} (hd : InDomain n a) (hs : n ≠ 2 → a.getLsbD 31 = false) :
    algebraic n (realOf a) = signOf a * wanted n a := by
  have hreal : realOf a = signOf a * magReal a := realOf_eq hd.2.1
  rw [hreal]
  by_cases h2 : n = 2
  · subst h2
    show 1 / (signOf a * magReal a) = signOf a * (1 / magReal a)
    unfold signOf
    split
    · rw [neg_one_mul, neg_one_mul, one_div, one_div, inv_neg]
    · rw [one_mul, one_mul]
  · have hone : signOf a = 1 := by rw [signOf, hs h2]; rfl
    rw [hone, one_mul, one_mul]
    rfl

theorem gradeBound_lt {x : ℝ} (hx : 2 ^ (-128 : Int) < x) : gradeBound true x < x := by
  have hpos : 0 < x := lt_trans (by positivity) hx
  show (2 : ℝ) ^ max (Int.log 2 x - 23) (-149) < x
  rcases max_cases (Int.log 2 x - 23) (-149) with ⟨h, -⟩ | ⟨h, -⟩ <;> rw [h]
  · exact (zpow_lt_zpow_right₀ one_lt_two (by omega)).trans_le (zpow_log_le hpos)
  · exact (zpow_lt_zpow_right₀ one_lt_two (by decide)).trans hx

/-- An allowed code below the normal range stands for a number below 2^-125 in the fast grade. -/
theorem lt_of_allowed_subnormal {x : ℝ} {z : Lane} (hz : Allowed false x z) (hs : magCode z < 0x00800000) :
    x < 2 ^ (-125 : Int) := by
  have hm : magReal z ≤ 2 ^ (-126 : Int) := by
    rw [magReal_subnormal hs]
    calc (magCode z : ℝ) * 2 ^ (-149 : Int) ≤ 2 ^ (23 : Int) * 2 ^ (-149 : Int) :=
          mul_le_mul_of_nonneg_right (by exact_mod_cast hs.le) (by positivity)
      _ = 2 ^ (-126 : Int) := by rw [← zpow_add₀ two_ne_zero]; rfl
  have hd : |magReal z - x| ≤ 2 ^ (-12 : Int) * x := hz.2
  have e1 : (2 : ℝ) ^ (-12 : Int) = 1 / 4096 := by norm_num
  have e2 : (2 : ℝ) ^ (-125 : Int) = 2 * 2 ^ (-126 : Int) := by norm_num
  have hp : (0 : ℝ) < 2 ^ (-126 : Int) := by positivity
  rw [e1] at hd
  rw [e2]
  linarith [(abs_le.mp hd).1]

/-- What a grade writes of an allowed code: the code, or a zero for a number below the normal range. -/
theorem graded_allowed {acc : Bool} {x : ℝ} {z : Lane} (hz : Allowed acc x z) (hx : 2 ^ (-128 : Int) < x) :
    (graded acc z = z ∧ 0 < magReal z) ∨
      (realOf (graded acc z) = 0 ∧ acc = false ∧ x < 2 ^ (-125 : Int)) := by
  cases acc
  · rcases Nat.lt_or_ge (magCode z) 0x00800000 with hs | hs
    · have h0 : magCode (graded false z) = 0 := (magCode_flushLane z).trans (if_pos hs)
      refine .inr ⟨?_, rfl, lt_of_allowed_subnormal hz hs⟩
      rw [realOf_eq (by rw [h0]; decide), magReal_subnormal (by rw [h0]; decide), h0, Nat.cast_zero, zero_mul, mul_zero]
    · exact .inl ⟨graded_large hs false, lt_of_lt_of_le (by positivity) (le_magReal_of_normal hs)⟩
  · refine .inl ⟨rfl, lt_of_le_of_ne magReal_nonneg fun h0 => ?_⟩
    have hd := hz.2
    rw [← h0, zero_sub, abs_neg, abs_of_pos (lt_trans (by positivity) hx)] at hd
    exact absurd (gradeBound_lt hx) (not_lt.mpr hd)

/-- The bounds of R132 over the reals. -/
theorem specialOp_algebraic {n : Nat} (acc : Bool) {a : Lane} (hd : InDomain n a) (hs : n ≠ 2 → a.getLsbD 31 = false)
    (hn : acc = false → 0x00800000 ≤ magCode a) :
    let y := realOf (specialOp n acc a).1
    let x := algebraic n (realOf a)
    (specialOp n acc a).2 = 0 ∧ (y = 0 → acc = false ∧ |x| < 2 ^ (-125 : Int)) ∧ (y ≠ 0 → |y - x| ≤ gradeBound acc |x|) := by
  have hg : graded acc a = a := by
    cases acc
    · exact graded_large (hn rfl) false
    · rfl
  have hop : specialOp n acc a = (graded acc (specialFree n acc a).1, (specialFree n acc a).2) := by
    rw [specialOp_of_none (by rw [hg]; exact specialRow_none hd hs), hg]
  have hw := (target_of_inDomain hd).pos
  obtain ⟨hflag, hall, hsign⟩ := specialFree_allowed acc hd hs
  intro y x
  let z := (specialFree n acc a).1
  have hy : y = realOf (graded acc z) := congrArg (fun r => realOf r.1) hop
  have hx : x = signOf a * wanted n a := algebraic_realOf hd hs
  have habs : |x| = wanted n a := by rw [hx, abs_mul, abs_signOf, one_mul, abs_of_pos hw]
  have hz : realOf z = signOf a * magReal z := by
    rw [realOf_eq (Nat.lt_of_le_of_lt hall.1 (by decide)), show z.getLsbD 31 = a.getLsbD 31 from hsign]
    rfl
  refine ⟨by rw [hop]; exact hflag, ?_⟩
  rcases graded_allowed hall (target_of_inDomain hd).low with ⟨hgz, hpos⟩ | ⟨h0, hacc, hsmall⟩
  · have hyz : y = signOf a * magReal z := by rw [hy, hgz, hz]
    refine ⟨fun h0 => ?_, fun _ => ?_⟩
    · have : |y| = magReal z := by rw [hyz, abs_mul, abs_signOf, one_mul, abs_of_pos hpos]
      rw [h0, abs_zero] at this
      exact absurd this hpos.ne
    · rw [habs, hyz, hx, ← mul_sub, abs_mul, abs_signOf, one_mul]
      exact hall.2
  · exact ⟨fun _ => ⟨hacc, habs ▸ hsmall⟩, fun hne => absurd (hy.trans h0) hne⟩

/-! ### The limits of both grades -/

theorem inDomain_of_limits {n : Nat} {acc : Bool} {a : Lane} (hn : n ∈ [2, 3, 4]) (hfin : magCode a < 0x7F800000)
    (hlow : (if acc then (if n = 2 then 0x00200000 else 0) else 0x007FFFFF) < magCode a) : InDomain n a := by
  refine ⟨hn, hfin, Nat.zero_lt_of_lt hlow, fun h2 => ?_⟩
  cases acc
  · exact lt_trans (by decide) (if_neg Bool.false_ne_true ▸ hlow)
  · rwa [if_pos rfl, if_pos h2] at hlow

theorem specialLimits_holds (acc : Bool) : specialLimits acc (fun n a => specialOp n acc a) := by
  refine ⟨fun n a _ => flags_specialOp n acc a, fun n a _ hacc => ?_, fun a ha => ?_, fun n hn a hfin hsign hlow => ?_⟩
  · subst hacc
    exact ⟨specialOp_fast_subnormal n, magCode_flushed _⟩
  · exact ⟨fun n hn => (specialOp_bounded acc ha hn).1, (specialOp_bounded acc ha (by decide)).2 rfl⟩
  · refine specialOp_algebraic acc (inDomain_of_limits hn hfin hlow) (fun h2 => ?_) (fun hacc => ?_)
    · rw [sign_eq_decide, decide_eq_false (Nat.not_le.mpr (hsign h2))]
    · subst hacc
      exact hlow

/-- The instruction at a place of the list is the function of that place (R131). -/
theorem exec_special (x : Spec) (s : State) : ∀ o ∈ specials.zipIdx, exec (o.1 x) s = runL 8 s (specBody o.2 x) := by
  simp only [specials, List.zipIdx_cons, List.zipIdx_nil, List.forall_mem_cons]
  exact ⟨rfl, rfl, rfl, rfl, rfl, rfl, rfl, rfl, rfl, rfl, rfl, rfl, fun _ h => absurd h List.not_mem_nil⟩

/-- Settles O28: the instructions by the lane-wise rule, the results by the table's rows and the limits of both grades. -/
theorem specialFunctions : Obligations.SpecialFunctions := by
  refine ⟨fun x s d a hc hd ha hud hua o ho => ?_, fun acc => ⟨specialTable_holds acc, specialLimits_holds acc⟩⟩
  refine laneWise_of_vecBody (cq := x.cq) (g := specialOp o.2 x.acc) ?_ hc hud hua
  rw [exec_special x s o ho, specBody, ha, hd]

end Sys2Proof.Machine
end

section
/-! PROOFS. The elements that the active lanes of a vector access name, and their loads at issue (R129, R130). -/

namespace Sys2Proof.Machine
open Sys2Proof.Claims

/-! ### The elements of the active lanes -/

/-- Lane `l`'s element, from the address, bit and bytes of each lane. -/
def elemOf (ea : Fin 16 → Word) (bit : Fin 16 → Nat) (at' : Fin 16 → List Loc) (l : Fin 16) : Elem :=
  ⟨l, ea l, bit l, at' l⟩

section

variable {s : State} {sp write : Bool} {ty : Ty} {on : List (Fin 16)} {ea : Fin 16 → Word} {at' : Fin 16 → List Loc}

theorem nameLane_ok {α : Type} {l : Fin 16} {r : Res α} {x : α} (h : r = .ok x) : nameLane l r = .ok x := by rw [h]; rfl

theorem elemBytes_pos (ty : Ty) : 0 < elemBytes ty := lt_of_lt_of_le Nat.one_pos (le_max_right ..)

/-- An element in local store is there as its offset says (R108, R148). -/
theorem lanePlaces_sp (h : lanePlaces s true write ty on ea at') (l : Fin 16) :
    at' l = s.myCore.lsRange (ea l).toNat (elemBytes ty) := by
  rw [lanePlaces, if_pos rfl] at h
  exact h l

/-- An element in memory lies in a page that the strand may use (R106). -/
theorem lanePlaces_mem (h : lanePlaces s false write ty on ea at') : ∃ lf : Fin 16 → Leaf, ∀ l ∈ on,
    Grants s (lf l) (ea l) write ∧ (ea l).toNat % elemBytes ty = 0 ∧
      (write = false → Sound s ((lf l).phys (ea l).toNat)) ∧
      at' l = Loc.span ⟨.mem .hub, (lf l).phys (ea l).toNat⟩ (elemBytes ty) := by
  rw [lanePlaces, if_neg Bool.false_ne_true] at h
  exact h

/-- The bytes of an element are as many as its size, all of this module, and are taken one by one only in local store at an
offset that is no multiple of the size (R108). -/
theorem lanePlaces_locs (h : lanePlaces s sp write ty on ea at') {l : Fin 16} (hl : l ∈ on) :
    (at' l).length = elemBytes ty ∧ (at' l).any Loc.isRemote = false ∧
      torn (at' l) ((ea l).toNat % (at' l).length) = decide ((ea l).toNat % (at' l).length ≠ 0) := by
  cases sp with
  | true =>
    rw [lanePlaces_sp h l]
    exact ⟨length_lsRange .., lsRange_not_remote .., torn_lsRange ..⟩
  | false =>
    obtain ⟨lf, hlf⟩ := lanePlaces_mem h
    obtain ⟨-, hal, -, hat⟩ := hlf l hl
    rw [hat]
    refine ⟨length_span .., span_not_remote rfl _, ?_⟩
    rw [length_span, hal]
    rfl

/-- The checks of R129 pass, lane by lane, and nothing changes. -/
theorem laneElems_ok (h : lanePlaces s sp write ty on ea at') {load : Bool} (hload : load = !write) (bit : Fin 16 → Nat) :
    ∀ ls : List (Fin 16), (∀ l ∈ ls, l ∈ on) → s.laneElems sp load (elemBytes ty) (ls.map fun l => (l, ea l, bit l)) =
      .ok (ls.map (elemOf ea bit at'), s)
  | [], _ => rfl
  | l :: ls, hls => by
    have ih := laneElems_ok h hload bit ls fun x hx => hls x (.tail _ hx)
    rw [List.map_cons, List.map_cons, State.laneElems]
    cases sp with
    | true =>
      rw [if_pos rfl, ih, elemOf, lanePlaces_sp h l]
      rfl
    | false =>
      obtain ⟨lf, hlf⟩ := lanePlaces_mem h
      obtain ⟨hg, hal, hsound, hat⟩ := hlf l (hls l (.head _))
      cases write with
      | true =>
        obtain rfl : load = false := hload
        have hx := nameLane_ok (l := l) (xlate_of_grants (a := ⟨elemBytes ty, false, true, .vec⟩) hg rfl hal)
        simp only [Bool.false_eq_true, if_false, Bool.not_false, hx, bind, Except.bind, ih, elemOf, hat]
      | false =>
        obtain rfl : load = true := hload
        have hx := nameLane_ok (l := l) (xlate_of_grants (a := ⟨elemBytes ty, true, false, .vec⟩) hg rfl hal)
        have hp := nameLane_ok (l := l) (poisonCheck_of_sound (ea := ea l) (l := ⟨.mem .hub, (lf l).phys (ea l).toNat⟩) rfl
          (hsound rfl))
        simp only [Bool.false_eq_true, if_false, if_true, Bool.not_true, hx, hp, bind, Except.bind, ih, elemOf, hat]

/-- No element in memory touches a window (R202). -/
theorem touchElems_ok (h : lanePlaces s false write ty on ea at') (bit : Fin 16 → Nat) (n : Nat) : ∀ ls : List (Fin 16),
    (∀ l ∈ ls, l ∈ on) → s.touchElems n (ls.map (elemOf ea bit at')) = .ok ()
  | [], _ => rfl
  | l :: ls, hls => by
    have ih := touchElems_ok h bit n ls fun x hx => hls x (.tail _ hx)
    obtain ⟨lf, hlf⟩ := lanePlaces_mem h
    obtain ⟨-, -, -, hat⟩ := hlf l (hls l (.head _))
    obtain ⟨k, hk⟩ := Nat.exists_eq_succ_of_ne_zero (elemBytes_pos ty).ne'
    have hcons : at' l = ⟨.mem .hub, (lf l).phys (ea l).toNat + 0⟩ ::
        ((List.range k).map Nat.succ).map fun j => (⟨.mem .hub, (lf l).phys (ea l).toNat + j⟩ : Loc) := by
      rw [hat, hk, Loc.span, List.range_succ_eq_map, List.map_cons]
    rw [List.map_cons, State.touchElems]
    show (do let _ ← nameLane l (match at' l with | l :: _ => s.touchPeer l n | [] => .ok s); s.touchElems n _) = _
    rw [hcons]
    simp only [touchPeer_of_mem s (l := ⟨.mem .hub, (lf l).phys (ea l).toNat + 0⟩) (u := .hub) rfl, nameLane, bind, Except.bind]
    exact ih

/-- The elements of the active lanes, each checked (R129). -/
theorem elems_ok (hc : calm s) (gd : Guard) (h : lanePlaces s sp write ty (lanesOn s gd) ea at') {place : Fin 16 → Word × Nat}
    {bit : Fin 16 → Nat} (hp : ∀ l, place l = (ea l, bit l)) :
    s.elems s sp (!write) ty (lanesOf gd s.me) place = .ok ((lanesOn s gd).map (elemOf ea bit at'), s) := by
  have haddr : laneAddrs (lanesOf gd s.me) place = (lanesOn s gd).map fun l => (l, ea l, bit l) :=
    List.map_congr_left fun l _ => by rw [hp l]
  unfold State.elems
  rw [haddr, laneElems_ok h rfl bit _ fun _ hl => hl]
  cases sp with
  | true => simp only [bind, Except.bind, if_true, touch_of_none (touched_of_present hc.2 _)]
  | false => simp only [bind, Except.bind, Bool.false_eq_true, if_false, touchElems_ok h bit _ _ fun _ hl => hl]

end

/-! ### What the instruction changes in its core -/

/-- From `s` to `t` the other cores, memory and the core's local store are as they were, and the same strand issues. -/
structure Keeps (s t : State) : Prop where
  cur : t.cur = s.cur
  others : ∀ c, c ≠ s.cur.1 → t.core c = s.core c
  mem : t.mem = s.mem
  ls : t.myCore.ls = s.myCore.ls
  slot : t.myCore.slot = s.myCore.slot

namespace Keeps

variable {s t u : State}

theorem refl (s : State) : Keeps s s := ⟨rfl, fun _ _ => rfl, rfl, rfl, rfl⟩

theorem trans (h : Keeps s t) (k : Keeps t u) : Keeps s u :=
  ⟨k.cur.trans h.cur, fun c hc => (k.others c (h.cur ▸ hc)).trans (h.others c hc), k.mem.trans h.mem, k.ls.trans h.ls,
    k.slot.trans h.slot⟩

theorem core_ls (h : Keeps s t) : (t.core s.cur.1).ls = (s.core s.cur.1).ls := by
  have hls := h.ls
  rw [State.myCore, h.cur] at hls
  exact hls

theorem of_mine (h : Mine s t) : Keeps s t :=
  ⟨h.cur, fun _ hc => h.core_ne hc, h.mem, by rw [h.myCore], h.slot⟩

theorem retire (h : Keeps s t) (len : Nat) : Keeps s (t.retire len) := by
  obtain ⟨-, hothers, hcore, -, -⟩ := alone_retire t len
  have hls := congrArg Core.ls hcore
  have hslot := congrArg Core.slot hcore
  exact h.trans ⟨rfl, hothers, rfl, hls, hslot⟩

/-- An advance changes its cistern and the counter of identifiers (R155). -/
theorem advance (s : State) (c : Fin 16) (prod : Bool) (k : Nat) (cond : List RelCond) :
    Keeps s (s.advance c prod k cond) := by
  have hcore : (s.advance c prod k cond).myCore = _ := State.myCore_modMyCore s.fresh _
  exact ⟨rfl, fun _ hc => State.core_modCore_ne s.fresh hc _, rfl, by rw [hcore]; rfl, by rw [hcore]; rfl⟩

end Keeps

theorem me_advance (s : State) (c : Fin 16) (prod : Bool) (k : Nat) (cond : List RelCond) :
    (s.advance c prod k cond).me = s.me := by
  have hcore : (s.advance c prod k cond).myCore = _ := State.myCore_modMyCore s.fresh _
  have hstrands : (s.advance c prod k cond).myCore.strands = s.myCore.strands := by rw [hcore]; rfl
  exact congrArg (fun x : Vector Strand 11 => x[s.cur.2]) hstrands

/-! ### One load of each element (R130) -/

/-- The load that element `x.1` joins to the pending ones, the place `x.2` among them (R28). -/
def elemLoad (s : State) (dst : Elem → LoadDst) (o : Order) (sc : Scope) (len : Nat) (x : Elem × Nat) : PendLoad :=
  { id := s.nextId + x.2, locs := x.1.locs, dst := dst x.1, acq := acquires o sc, scope := sc, sc := o == .sc, va := x.1.ea
    lane := x.1.lane.val, pc := s.me.pc, next := after s len, iw := s.me.iw
    split := torn x.1.locs (x.1.ea.toNat % x.1.locs.length), slot := s.myCore.slot }

section

variable {s r : State} {dst : Elem → LoadDst} {o : Order} {sc : Scope} {len : Nat}

theorem issueLoad_mine {locs : List Loc} (h : locs.any Loc.isRemote = false) (d : LoadDst) (va : Word) (lane : Nat) :
    Mine s (s.issueLoad locs d o sc va lane len) := by
  unfold State.issueLoad
  rw [askRemote_eq h]
  exact Mine.fresh_modMe s _

theorem issueLoad_nextId {locs : List Loc} (h : locs.any Loc.isRemote = false) (d : LoadDst) (va : Word) (lane : Nat) :
    (s.issueLoad locs d o sc va lane len).nextId = s.nextId + 1 := by
  unfold State.issueLoad
  rw [askRemote_eq h]
  rfl

theorem me_issueLoad {e : Elem} (h : e.locs.any Loc.isRemote = false) :
    (s.issueLoad e.locs (dst e) o sc e.ea e.lane.val len).me = { s.me with
      loads := s.me.loads ++ [elemLoad s dst o sc len (e, 0)]
      pend := s.me.pend ++ (dst e).regs.map (fun r => (s.nextId, r))
      gates := s.me.gates ++ if acquires o sc then [s.nextId] else [] } := by
  have hgate : s.me.gates ++ (if acquires o sc then [s.nextId] else []) =
      if acquires o sc then s.me.gates ++ [s.nextId] else s.me.gates := by cases acquires o sc <;> simp
  rw [hgate]
  unfold State.issueLoad
  rw [askRemote_eq h, h]
  simp only [Bool.or_false]
  exact s.fresh.me_modMe _

theorem issueElems_keeps : ∀ {es : List Elem} {s : State}, (∀ e ∈ es, e.locs.any Loc.isRemote = false) →
    Keeps s (s.issueElems dst o sc len es)
  | [], s, _ => .refl s
  | _ :: _, _, h => .trans (.of_mine (issueLoad_mine (h _ (.head _)) ..)) (issueElems_keeps fun x hx => h x (.tail _ hx))

theorem issueElems_nextId : ∀ {es : List Elem} {s : State}, (∀ e ∈ es, e.locs.any Loc.isRemote = false) →
    (s.issueElems dst o sc len es).nextId = s.nextId + es.length
  | [], _, _ => rfl
  | e :: es, s, h => by
    rw [State.issueElems, issueElems_nextId fun x hx => h x (.tail _ hx), issueLoad_nextId (h e (.head _)), List.length_cons]
    omega

/-- The elements' loads in lane order, from place `k` of the instruction's loads on. -/
theorem me_issueElems (es : List Elem) (h : ∀ e ∈ es, e.locs.any Loc.isRemote = false) : ∀ (s : State) (k : Nat),
    s.nextId = r.nextId + k → s.me.pc = r.me.pc → s.me.iw = r.me.iw → s.myCore.slot = r.myCore.slot →
    (s.issueElems dst o sc len es).me = { s.me with
      loads := s.me.loads ++ (es.zipIdx k).map (elemLoad r dst o sc len)
      pend := s.me.pend ++ (es.zipIdx k).flatMap (fun x => (dst x.1).regs.map (fun n => (r.nextId + x.2, n)))
      gates := s.me.gates ++ if acquires o sc then (es.zipIdx k).map (fun x => r.nextId + x.2) else [] } := by
  induction es with
  | nil => intro s k _ _ _ _; simp [State.issueElems]
  | cons e es ih =>
    intro s k hid hpc hiw hslot
    have he := h e (.head _)
    have hme := me_issueLoad (s := s) (dst := dst) (o := o) (sc := sc) (len := len) he
    rw [State.issueElems, ih (fun x hx => h x (.tail _ hx)) _ (k + 1) (by rw [issueLoad_nextId he]; omega) (by rw [hme, ← hpc])
      (by rw [hme, ← hiw]) (by rw [(issueLoad_mine he ..).slot, hslot]), hme]
    have hload : elemLoad s dst o sc len (e, 0) = elemLoad r dst o sc len (e, k) := by
      simp only [elemLoad, hid, hpc, hiw, hslot, after]
      rfl
    rw [hload, hid]
    cases acquires o sc <;> simp

end

end Sys2Proof.Machine
end

section
/-! PROOFS. Vector loads and gathers at issue (R25, R128 to R130). -/

namespace Sys2Proof.Machine
open Sys2Proof.Claims

section

variable {s : State} {cq : Option CQual} {srcs : List VOp} {d : VOp}

/-- Only the advance of a destination cistern is left to do, where no source is a cistern (R155). -/
theorem vadvance_dst (hs : srcs.flatMap VOp.cis = []) (t : State) (cond : List RelCond) :
    Keeps t (t.vadvance cq srcs (some d) cond) ∧ (t.vadvance cq srcs (some d) cond).me = t.me := by
  unfold State.vadvance
  rw [hs]
  split
  · cases d with
    | v n => exact ⟨.refl t, rfl⟩
    | c c => exact ⟨.advance .., me_advance ..⟩
  · exact ⟨.refl t, rfl⟩

/-- What the loads take back: the slots of a destination cistern that the instruction takes (R25, R155). -/
theorem undoOf_plain (hs : ∀ o ∈ srcs, Plain s o) (hd : Open s cq d) (held : Nat) : s.undoOf cq srcs d held =
    if cq.any CQual.adv then d.cis.map (fun c => .cis c true (waitOf cq) held) else [] := by
  have hports : (srcs ++ [d]).filterMap (fun o => (s.portFor o).map (fun x => Undo.port x.1 x.2.pos x.2.ahead)) = [] := by
    refine List.filterMap_eq_nil_iff.mpr fun o ho => ?_
    rcases List.mem_append.mp ho with ho | ho
    · rw [portFor_plain (hs o ho)]; rfl
    · rw [List.mem_singleton.mp ho, portFor_open hd]; rfl
  unfold State.undoOf
  rw [hports, cis_plain hs, cqAdv_eq, cqWait_eq]
  cases d <;> rfl

/-- Where the elements of a vector load go: lanes of a register, or the slots of a cistern (R128). -/
def loadTo (s : State) (cq : Option CQual) (ty : Ty) : VOp → Elem → LoadDst
  | .v n => fun e => .lane n e.lane ty e.bit
  | .c c => fun e => .cis ((s.cistern c).laneOffs (waitOf cq) e.lane) ty e.bit

/-- The loads of the elements, and the advance after them (R130). -/
theorem vloadTo_ok (hs : ∀ o ∈ srcs, Plain s o) (hd : Open s cq d) (ty : Ty) (o : Order) (sc : Scope) (act : Fin 16 → Bool)
    (len : Nat) {es : List Elem} (hes : ∀ e ∈ es, e.locs.any Loc.isRemote = false) :
    ∃ cond, vloadTo d ty o sc cq srcs act len es s s =
      .ok (((s.issueElems (loadTo s cq ty d) o sc len es).vadvance cq srcs (some d) cond).noteUndo s.me.loads.length
        (if cq.any CQual.adv then d.cis.map (fun c => .cis c true (waitOf cq) (s.nextId + es.length)) else [])) := by
  have hundo := undoOf_plain hs hd (s.nextId + es.length)
  cases d with
  | v n =>
    refine ⟨[], ?_⟩
    simp only [vloadTo, portOf_unbound hd, issueElems_nextId hes, hundo, List.append_nil]
    rfl
  | c c =>
    refine ⟨[.loads s.cur.2 ((List.range es.length).map fun j => s.nextId + j)], ?_⟩
    simp only [vloadTo, issueElems_nextId hes, hundo, List.append_nil, cqWait_eq]
    rfl

theorem me_noteUndo (s : State) (k : Nat) (us : List Undo) : (s.noteUndo k us).me = { s.me with
    loads := s.me.loads.take k ++ (s.me.loads.drop k).map fun l => { l with undo := us } } := s.me_modMe _

/-- The rule of a vector load: the checks passed, each active lane is one load (R128 to R130). -/
theorem laneLoads_of_vloadTo {i : Instr} {sp : Bool} {ty : Ty} {o : Order} {sc : Scope} {on : List (Fin 16)} {ea : Fin 16 → Word}
    {at' : Fin 16 → List Loc} {bit : Fin 16 → Nat} {act : Fin 16 → Bool} {len : Nat} {body : State → Res State}
    (hexec : exec i s = runL len s body)
    (hbody : body s = vloadTo d ty o sc cq srcs act len (on.map (elemOf ea bit at')) s s)
    (h : lanePlaces s sp false ty on ea at') (ho : plainLoad o) (hc : calm s) (hs : ∀ o ∈ srcs, Plain s o) (hd : Open s cq d) :
    LaneLoads i s on ea at' (fun l => loadTo s cq ty d (elemOf ea bit at' l)) o sc
      (if cq.any CQual.adv then d.cis.map (fun c => .cis c true (waitOf cq) (s.nextId + on.length)) else []) len := by
  let es := on.map (elemOf ea bit at')
  have hes : ∀ e ∈ es, e.locs.any Loc.isRemote = false := fun e he => by
    obtain ⟨l, hl, rfl⟩ := List.mem_map.mp he
    exact (lanePlaces_locs h hl).2.1
  obtain ⟨cond, hload⟩ := vloadTo_ok hs hd ty o sc act len hes
  rw [show es.length = on.length from List.length_map _] at hload
  obtain ⟨hadv, hmeadv⟩ := vadvance_dst (cq := cq) (d := d) (cis_plain hs) (s.issueElems (loadTo s cq ty d) o sc len es) cond
  generalize hus : (if cq.any CQual.adv then d.cis.map (fun c => Undo.cis c true (waitOf cq) (s.nextId + on.length)) else []) = us
    at hload ⊢
  generalize ht : ((s.issueElems (loadTo s cq ty d) o sc len es).vadvance cq srcs (some d) cond).noteUndo s.me.loads.length us = t
    at hload
  have hkeeps : Keeps s t := ht ▸ ((issueElems_keeps hes).trans hadv).trans (.of_mine (.modMe ..))
  have hme : t.me = { s.me with
      loads := s.me.loads ++ (es.zipIdx.map (elemLoad s (loadTo s cq ty d) o sc len)).map fun l => { l with undo := us }
      pend := s.me.pend ++ es.zipIdx.flatMap (fun x => (loadTo s cq ty d x.1).regs.map (fun n => (s.nextId + x.2, n)))
      gates := s.me.gates ++ if acquires o sc then es.zipIdx.map (fun x => s.nextId + x.2) else [] } := by
    rw [← ht, me_noteUndo, hmeadv, me_issueElems es hes s 0 rfl rfl rfl rfl]
    simp
  have hdone := hkeeps.retire len
  refine ⟨t.retire len, ?_, rfl, ⟨hdone.others, hdone.mem⟩, ?_, ?_, ?_, hdone.core_ls, ?_, ?_, ?_⟩
  · rw [hexec, runL, hbody]
    exact congrArg (fun r => conclude s r fun u => u.retire len) hload
  all_goals rw [State.me_retire, hme]
  · exact sameRegs_of_eq rfl rfl rfl rfl
  · rfl
  · exact hc.1
  · have hload : ∀ l ∈ on, ∀ n, { elemLoad s (loadTo s cq ty d) o sc len (elemOf ea bit at' l, n) with undo := us } =
        ({ id := s.nextId + n, locs := at' l, dst := loadTo s cq ty d (elemOf ea bit at' l), acq := acquires o sc, scope := sc
           va := ea l, lane := l.val, pc := s.me.pc, next := after s len, iw := s.me.iw
           split := decide ((ea l).toNat % (at' l).length ≠ 0), undo := us, slot := (s.core s.cur.1).slot } : PendLoad) := by
      intro l hl n
      simp only [elemLoad, elemOf, (lanePlaces_locs h hl).2.2, plainLoad_not_sc ho]
      rfl
    show s.me.loads ++ _ = s.me.loads ++ _
    rw [List.zipIdx_map, List.map_map, List.map_map]
    exact congrArg _ (List.map_congr_left fun x hx => hload x.1 (List.fst_mem_of_mem_zipIdx hx) x.2)
  · show s.me.pend ++ _ = s.me.pend ++ _
    rw [List.zipIdx_map, List.flatMap_map]
    rfl
  · show s.me.gates ++ _ = s.me.gates ++ _
    rw [List.zipIdx_map, List.map_map]
    rfl

end

/-! ### The two instructions -/

section

variable {s : State} {at' : Fin 16 → List Loc}

theorem plain_nil : ∀ o ∈ ([] : List VOp), Plain s o := nofun

theorem plain_one {b : Fin 16} (hb : unbound s b) : ∀ o ∈ [VOp.v b], Plain s o := fun _ ho =>
  ⟨b, List.mem_singleton.mp ho, hb⟩

theorem open_none {cq : Option CQual} : ∀ o ∈ (none : Option VOp), Open s cq o := nofun

theorem open_some {cq : Option CQual} {d : VOp} (hd : Open s cq d) : ∀ o ∈ some d, Open s cq o := fun _ ho =>
  Option.mem_some_iff.mp ho ▸ hd

/-- The address of a gathered lane (R129). -/
theorem gathAt_eq (a d : Word) (sc : Fin 4) (ix : Vec) (l : Fin 16) :
    gathAt (a + d) sc ix l = (a + (ix[l].setWidth 64 <<< sc.val) + d, 0) := by
  have hshift : ix[l].setWidth 64 * BitVec.ofNat 64 (2 ^ sc.val) = (ix[l].setWidth 64 : Word) <<< sc.val := by
    rw [BitVec.shiftLeft_eq_mul_twoPow]
    exact congrArg _ (BitVec.eq_of_toNat_eq (by rw [BitVec.toNat_twoPow, BitVec.toNat_ofNat]))
  rw [gathAt, hshift, add_right_comm]

/-- The address of a lane's element of `vld` and `vst` (R129). -/
def elemEa (s : State) (x : VMem) (l : Fin 16) : Word := s.me.rg x.a + x.disp.val + BitVec.ofNat 64 (l.val * x.ty.bits / 8)

/-- The address of a lane's element of `vgath` and `vscat` (R129). -/
def gathEa (s : State) (x : VIdx) (b : Fin 16) (l : Fin 16) : Word :=
  s.me.rg x.a + ((s.me.rv b)[l].setWidth 64 <<< x.sc.val) + x.disp.val

theorem vldBody_ok {x : VMem} (hc : calm s) (hd : Open s x.cq x.d)
    (h : lanePlaces s x.sp false x.ty (lanesOn s x.gd) (elemEa s x) at') : vldBody x s =
      vloadTo x.d x.ty x.order x.scope x.cq [] (lanesOf x.gd s.me) x.disp.len
        ((lanesOn s x.gd).map (elemOf (elemEa s x) (laneBit x.ty) at')) s s := by
  unfold vldBody
  refine (bind_of_ok (vblocks_ok hc plain_nil (open_some hd))).trans ?_
  refine (bind_of_ok (elems_ok hc x.gd h fun l => rfl)).trans ?_
  exact bind_of_ok (vstalls_ok hc plain_nil (open_some hd))

theorem vgathBody_ok {x : VIdx} {b : Fin 16} (hc : calm s) (hb : x.b = .v b) (hub : unbound s b) (hd : Open s x.cq x.d)
    (h : lanePlaces s x.sp false x.ty (lanesOn s x.gd) (gathEa s x b) at') : vgathBody x s =
      vloadTo x.d x.ty x.order x.scope x.cq [.v b] (lanesOf x.gd s.me) x.disp.len
        ((lanesOn s x.gd).map (elemOf (gathEa s x b) (fun _ => 0) at')) s s := by
  unfold vgathBody
  rw [hb]
  refine (bind_of_ok (vblocks_ok hc (plain_one hub) (open_some hd))).trans ?_
  refine (bind_of_ok (vstalls_ok hc (plain_one hub) open_none)).trans ?_
  simp only [vreads_one hub]
  refine (bind_of_ok (elems_ok hc x.gd h fun l => gathAt_eq ..)).trans ?_
  exact bind_of_ok (vstalls_ok hc (plain_one hub) (open_some hd))

theorem vectorLoadsRule_holds : vectorLoadsRule := by
  refine ⟨fun x s at' hc ho _ h => ⟨fun d hd hu => ?_, fun c hd hdef hfree => ?_⟩,
    fun x s at' b hc ho _ _ hb hub h => ⟨fun d hd hu => ?_, fun c hd hdef hfree => ?_⟩⟩
  · have hopen : Open s x.cq x.d := hd ▸ hu
    have := laneLoads_of_vloadTo (i := .vld x) rfl (vldBody_ok hc hopen h) h ho hc plain_nil hopen
    rw [hd, show (VOp.v d).cis = [] from rfl, List.map_nil, ite_self] at this
    exact this
  · have hopen : Open s x.cq x.d := hd ▸ ⟨hdef, hfree⟩
    have := laneLoads_of_vloadTo (i := .vld x) rfl (vldBody_ok hc hopen h) h ho hc plain_nil hopen
    rw [hd] at this
    exact this
  · have hopen : Open s x.cq x.d := hd ▸ hu
    have := laneLoads_of_vloadTo (i := .vgath x) rfl (vgathBody_ok hc hb hub hopen h) h ho hc (plain_one hub) hopen
    rw [hd, show (VOp.v d).cis = [] from rfl, List.map_nil, ite_self] at this
    exact this
  · have hopen : Open s x.cq x.d := hd ▸ ⟨hdef, hfree⟩
    have := laneLoads_of_vloadTo (i := .vgath x) rfl (vgathBody_ok hc hb hub hopen h) h ho hc (plain_one hub) hopen
    rw [hd] at this
    exact this

end

end Sys2Proof.Machine
end

section
/-! PROOFS. The parts of a store-buffer entry: what a byte holds once the parts have joined (R130). -/

namespace Sys2Proof.Machine
open Sys2Proof.Claims

/-- A byte written in part: its place, its bits and the mask of those that are written. -/
abbrev Part := Loc × Byte × Byte

/-- Byte `b` with the bits of a mask taken from `x`. -/
def masked (x m b : Byte) : Byte := (x &&& m) ||| (b &&& ~~~m)

/-- What one part makes of byte `b` at place `l`. -/
def Part.onto (l : Loc) (b : Byte) (y : Part) : Byte := if y.1 = l then masked y.2.1 y.2.2 b else b

/-! ### Places -/

theorem map_fst_addPart (ps : List Part) (y : Part) :
    (addPart ps y).map Prod.fst = if y.1 ∈ ps.map Prod.fst then ps.map Prod.fst else ps.map Prod.fst ++ [y.1] := by
  induction ps with
  | nil => rfl
  | cons x xs ih =>
    rw [addPart]
    by_cases h : x.1 = y.1
    · rw [if_pos h, if_pos (by simp [h])]
      rfl
    · rw [if_neg h, List.map_cons, ih, List.map_cons]
      by_cases hm : y.1 ∈ xs.map Prod.fst
      · rw [if_pos hm, if_pos (.tail _ hm)]
      · have hm' : y.1 ∉ x.1 :: xs.map Prod.fst := by
          rw [List.mem_cons]
          exact not_or.mpr ⟨fun e => h e.symm, hm⟩
        rw [if_neg hm, if_neg hm', List.cons_append]

theorem nodup_addPart {ps : List Part} (h : (ps.map Prod.fst).Nodup) (y : Part) : ((addPart ps y).map Prod.fst).Nodup := by
  rw [map_fst_addPart]
  split
  · exact h
  · next hm => exact List.concat_eq_append ▸ List.Nodup.concat hm h

theorem nodup_addParts (ys : List Part) {ps : List Part} (h : (ps.map Prod.fst).Nodup) :
    ((ys.foldl addPart ps).map Prod.fst).Nodup := by
  induction ys generalizing ps with
  | nil => exact h
  | cons y ys ih => exact ih (nodup_addPart h y)

/-- The places of joined parts are theirs. -/
theorem mem_addParts (ys : List Part) (ps : List Part) (l : Loc) :
    l ∈ (ys.foldl addPart ps).map Prod.fst ↔ l ∈ ps.map Prod.fst ∨ l ∈ ys.map Prod.fst := by
  induction ys generalizing ps with
  | nil => simp
  | cons y ys ih =>
    rw [List.foldl_cons, ih, map_fst_addPart, List.map_cons, List.mem_cons]
    split
    · next hm =>
      have hin : l = y.1 → l ∈ ps.map Prod.fst := fun e => e ▸ hm
      tauto
    · simp [or_assoc]

/-- Parts of places that are all different only stand one after the other. -/
theorem addParts_of_nodup (ys : List Part) {ps : List Part} (h : ((ps ++ ys).map Prod.fst).Nodup) :
    ys.foldl addPart ps = ps ++ ys := by
  have hnew : ∀ (ps : List Part) (y : Part), y.1 ∉ ps.map Prod.fst → addPart ps y = ps ++ [y] := by
    intro ps y hy
    induction ps with
    | nil => rfl
    | cons x xs ih =>
      rw [List.map_cons, List.mem_cons, not_or] at hy
      rw [addPart, if_neg fun e => hy.1 e.symm, ih hy.2, List.cons_append]
  induction ys generalizing ps with
  | nil => simp
  | cons y ys ih =>
    have hy : y.1 ∉ ps.map Prod.fst := by
      rw [List.map_append, List.map_cons, List.nodup_append] at h
      exact fun hm => h.2.2 _ hm _ (.head _) rfl
    rw [List.foldl_cons, hnew ps y hy, ih (by simpa using h)]
    simp

/-! ### Bytes -/

/-- What the parts make of byte `b` at place `l`. -/
def partsOnto (ps : List Part) (l : Loc) (b : Byte) : Byte :=
  match ps.find? (fun x => x.1 == l) with
  | some x => masked x.2.1 x.2.2 b
  | none => b

theorem masked_masked (x m y n b : Byte) : masked (masked y n x) (m ||| n) b = masked y n (masked x m b) := by
  refine BitVec.eq_of_getLsbD_eq fun i hi => ?_
  simp only [masked, BitVec.getLsbD_or, BitVec.getLsbD_and, BitVec.getLsbD_not, hi, decide_true, Bool.true_and]
  cases n.getLsbD i <;> cases m.getLsbD i <;> simp

/-- A part that joins is written over the others. -/
theorem partsOnto_addPart (ps : List Part) (y : Part) (l : Loc) (b : Byte) :
    partsOnto (addPart ps y) l b = Part.onto l (partsOnto ps l b) y := by
  induction ps with
  | nil =>
    unfold partsOnto Part.onto addPart
    by_cases h : y.1 = l <;> simp [h]
  | cons x xs ih =>
    have hcons : ∀ (z : Part) (zs : List Part), partsOnto (z :: zs) l b =
        if z.1 = l then masked z.2.1 z.2.2 b else partsOnto zs l b := by
      intro z zs
      unfold partsOnto
      by_cases h : z.1 = l <;> simp [h]
    rw [addPart, hcons x xs]
    by_cases hxy : x.1 = y.1
    · rw [if_pos hxy, hcons]
      unfold Part.onto
      rw [← hxy]
      split
      · exact masked_masked ..
      · rfl
    · rw [if_neg hxy, hcons, ih]
      unfold Part.onto
      by_cases hl : x.1 = l
      · rw [if_pos hl, if_neg fun e => hxy (hl.trans e.symm), if_pos hl]
      · rw [if_neg hl, if_neg hl]

theorem partsOnto_addParts (ys : List Part) (ps : List Part) (l : Loc) (b : Byte) :
    partsOnto (ys.foldl addPart ps) l b = ys.foldl (Part.onto l) (partsOnto ps l b) := by
  induction ys generalizing ps with
  | nil => rfl
  | cons y ys ih => rw [List.foldl_cons, ih, partsOnto_addPart, List.foldl_cons]

theorem masked_full (x b : Byte) : masked x 0xFF b = x := by
  refine BitVec.eq_of_getLsbD_eq fun i hi => ?_
  have hone : (0xFF : Byte).getLsbD i = true := by
    rw [show (0xFF : Byte) = BitVec.allOnes 8 from rfl, BitVec.getLsbD_allOnes, decide_eq_true hi]
  simp only [masked, BitVec.getLsbD_or, BitVec.getLsbD_and, BitVec.getLsbD_not, hone]
  simp

/-- An entry made of parts writes what they make of the byte. -/
theorem over_entryOf {e : BufEntry} {ps : List Part} (hnd : (ps.map Prod.fst).Nodup) (hbytes : e.bytes = (entryOf ps).1)
    (hmask : e.mask = (entryOf ps).2) (l : Loc) (b : Byte) : e.over l b = partsOnto ps l b := by
  have hfst : e.bytes.map Prod.fst = ps.map Prod.fst := by rw [hbytes, entryOf, List.map_map]; rfl
  unfold partsOnto
  cases hf : ps.find? (fun x => x.1 == l) with
  | none =>
    have hnone : e.bytes.reverse.find? (fun x => x.1 == l) = none := by
      refine List.find?_eq_none.mpr fun z hz => ?_
      have hz : z.1 ∈ ps.map Prod.fst := hfst ▸ List.mem_map_of_mem (List.mem_reverse.mp hz)
      obtain ⟨w, hw, hwz⟩ := List.mem_map.mp hz
      exact hwz ▸ List.find?_eq_none.mp hf w hw
    rw [BufEntry.over, BufEntry.byteAt, hnone]
    rfl
  | some x =>
    have hx := List.mem_of_find?_eq_some hf
    obtain rfl : x.1 = l := by simpa using List.find?_some hf
    have hbyte : e.byteAt x.1 = some x.2.1 := by
      refine byteAt_of_mem (hfst ▸ hnd) ?_
      rw [hbytes, entryOf]
      exact List.mem_map_of_mem (f := fun x : Part => (x.1, x.2.1)) hx
    have hfind : e.mask.find? (fun y => y.1 == x.1) = if x.2.2 = 0xFF then none else some (x.1, x.2.2) := by
      rw [hmask, entryOf]
      split
      · next hfull =>
        refine List.find?_eq_none.mpr fun z hz => ?_
        obtain ⟨w, hw, rfl⟩ := List.mem_map.mp hz
        obtain ⟨hwm, hne⟩ := List.mem_filter.mp hw
        intro he
        rw [List.inj_on_of_nodup_map hnd hwm hx (by simpa using he), hfull] at hne
        exact absurd hne (by decide)
      · next hpart =>
        refine find?_of_nodup ?_ (List.mem_map_of_mem (f := fun x : Part => (x.1, x.2.2)) (List.mem_filter.mpr ⟨hx, ?_⟩))
        · rw [List.map_map]
          exact (List.filter_sublist.map Prod.fst).nodup hnd
        · simpa using hpart
    rw [BufEntry.over, hbyte, hfind]
    by_cases h : x.2.2 = 0xFF
    · rw [if_pos h]
      show x.2.1 = masked x.2.1 x.2.2 b
      rw [h, masked_full]
    · rw [if_neg h]
      rfl

/-! ### The bits of an element in its byte (R129) -/

/-- The `w` bits of a byte from bit `k` on. -/
def bitField (b : Byte) (k w : Nat) : Nat := b.toNat / 2 ^ k % 2 ^ w

theorem testBit_bitField (b : Byte) (k w j : Nat) : (bitField b k w).testBit j = (decide (j < w) && b.getLsbD (k + j)) := by
  rw [bitField, Nat.testBit_mod_two_pow, Nat.testBit_div_two_pow, Nat.add_comm j k]
  rfl

theorem getLsbD_mask {w k : Nat} {i : Nat} (hi : i < 8) :
    (BitVec.ofNat 8 ((2 ^ w - 1) * 2 ^ k)).getLsbD i = (decide (k ≤ i) && decide (i - k < w)) := by
  rw [BitVec.getLsbD_ofNat, decide_eq_true hi, Bool.true_and, Nat.testBit_mul_two_pow, Nat.testBit_two_pow_sub_one]

/-- A part of `w` bits from bit `k` on puts its value there. -/
theorem bitField_masked_same {w k : Nat} (h : k + w ≤ 8) (v : Nat) (b : Byte) :
    bitField (masked (BitVec.ofNat 8 (v % 2 ^ w * 2 ^ k)) (BitVec.ofNat 8 ((2 ^ w - 1) * 2 ^ k)) b) k w = v % 2 ^ w := by
  refine Nat.eq_of_testBit_eq fun j => ?_
  rw [testBit_bitField, Nat.testBit_mod_two_pow]
  by_cases hj : j < w
  · have hi : k + j < 8 := by omega
    rw [masked, BitVec.getLsbD_or, BitVec.getLsbD_and, BitVec.getLsbD_and, BitVec.getLsbD_not, getLsbD_mask hi,
      BitVec.getLsbD_ofNat, Nat.testBit_mul_two_pow, Nat.testBit_mod_two_pow]
    simp [hj, hi]
  · simp [hj]

/-- It leaves bits beyond. -/
theorem bitField_masked_other {w k n : Nat} (h : n + w ≤ 8) (hdis : k + w ≤ n ∨ n + w ≤ k) (x b : Byte) :
    bitField (masked x (BitVec.ofNat 8 ((2 ^ w - 1) * 2 ^ k)) b) n w = bitField b n w := by
  refine Nat.eq_of_testBit_eq fun j => ?_
  rw [testBit_bitField, testBit_bitField]
  by_cases hj : j < w
  · have hi : n + j < 8 := by omega
    have hout : (decide (k ≤ n + j) && decide (n + j - k < w)) = false := by
      rw [Bool.and_eq_false_iff, decide_eq_false_iff_not, decide_eq_false_iff_not]
      omega
    rw [masked, BitVec.getLsbD_or, BitVec.getLsbD_and, BitVec.getLsbD_and, BitVec.getLsbD_not, getLsbD_mask hi, hout]
    simp [hi]
  · simp [hj]

/-! ### The parts of elements -/

section

variable {ty : Ty}

/-- Whole bytes: each with the full mask. -/
theorem elemParts_whole (h : 8 ≤ ty.bits) (ls : List Loc) (bit : Nat) (x : Lane) :
    elemParts ty ls bit x = (ls.zip (leBytes (ty.bits / 8) x.toNat)).map fun y => (y.1, y.2, 0xFF) :=
  if_neg (Nat.not_lt.mpr h)

/-- An element has a part at each of its places. -/
theorem elemParts_fst {ls : List Loc} (h : ls.length = elemBytes ty) (bit : Nat) (x : Lane) :
    (elemParts ty ls bit x).map Prod.fst = ls := by
  rcases Nat.lt_or_ge ty.bits 8 with hb | hb
  · rw [elemParts, if_pos hb, List.map_map]
    exact List.map_id ls
  · rw [elemParts_whole hb, List.map_map]
    refine List.map_fst_zip (Nat.le_of_eq ?_)
    rw [length_leBytes, h, elemBytes]
    omega

/-- An entry of whole bytes has no mask. -/
theorem entryOf_whole (zs : List (Loc × Byte)) : entryOf (zs.map fun y => (y.1, y.2, (0xFF : Byte))) = (zs, []) := by
  have hmask : (zs.map fun y => (y.1, y.2, (0xFF : Byte))).filter (fun x => x.2.2 != 0xFF) = [] := by
    rw [List.filter_map, List.map_eq_nil_iff, List.filter_eq_nil_iff]
    intro y _
    simp
  rw [entryOf, hmask, List.map_map]
  exact congrArg (·, []) (List.map_id zs)

/-- The parts of a vector store are those of its elements, joined. -/
theorem storeParts_eq (v : Vec) (es : List Elem) :
    storeParts ty v es = (es.flatMap fun e => elemParts ty e.locs e.bit v[e.lane]).foldl addPart [] := by
  rw [storeParts, List.foldl_flatMap]

end

end Sys2Proof.Machine
end

section
/-! PROOFS. Vector stores and scatters at issue (R128 to R130), and the obligation about vector accesses. -/

namespace Sys2Proof.Machine
open Sys2Proof.Claims

section

variable {s : State} {cq : Option CQual} {at' : Fin 16 → List Loc}

/-- Two registers as sources, perhaps the same one. -/
theorem vreads_two {a b : Fin 16} (ha : unbound s a) (hb : unbound s b) (cq : Option CQual) :
    s.vreads cq [.v a, .v b] = ([s.me.rv a, s.me.rv b], s) := by
  have hread : ∀ n, unbound s n → s.vread (cqWait cq) (.v n) = (s.me.rv n, s) := by
    intro n hn
    show (match s.myCore.portOf s.cur.2 n with
      | some (q, p) => s.streamRead n q p
      | none => (s.me.rv n, s)) = _
    rw [portOf_unbound hn]
  by_cases hab : a = b
  · subst hab
    simp [State.vreads, State.vreadAll, hread a ha]
  · simp [State.vreads, State.vreadAll, hread a ha, hread b hb, hab]

/-- Registers as sources have no slots to take. -/
theorem vadvance_none {srcs : List VOp} (hs : ∀ o ∈ srcs, Plain s o) (t : State) (cond : List RelCond) :
    t.vadvance cq srcs none cond = t := by
  unfold State.vadvance
  rw [cis_plain hs]
  split <;> rfl

theorem plain_two {a b : Fin 16} (ha : unbound s a) (hb : unbound s b) : ∀ o ∈ [VOp.v a, VOp.v b], Plain s o := by
  intro o ho
  rcases List.mem_cons.mp ho with rfl | ho
  · exact ⟨a, rfl, ha⟩
  · exact plain_one hb o ho

/-- An empty buffer has room for an entry of each lane. -/
theorem bufRoom_ok (hc : calm s) {n : Nat} (hn : n ≤ 16) : s.bufRoom n = .ok () := by
  have hcount : s.me.bufCount = 0 := by rw [Strand.bufCount, hc.1]; rfl
  rw [State.bufRoom, hcount, Nat.zero_add, if_pos hn]

theorem length_lanesOn (s : State) (gd : Guard) : (lanesOn s gd).length ≤ 16 :=
  (List.length_filter_le ..).trans (Nat.le_of_eq (List.length_finRange ..))

/-! ### The bodies -/

theorem vstBody_ok {x : VMem} {d : Fin 16} (hc : calm s) (hdrop : s.me.dropped = none) (hd : x.d = .v d) (hu : unbound s d)
    (h : lanePlaces s x.sp true x.ty (lanesOn s x.gd) (elemEa s x) at') : vstBody x s =
      .ok (s.pushParts (storeParts x.ty (s.me.rv d) ((lanesOn s x.gd).map (elemOf (elemEa s x) (laneBit x.ty) at')))
        x.order x.scope (((lanesOn s x.gd).map (elemOf (elemEa s x) (laneBit x.ty) at')).map Elem.ea)
        (if x.sp then 0 else elemBytes x.ty)) := by
  unfold vstBody
  rw [hd]
  refine (bind_of_ok (dropCheck_of_none hdrop ..)).trans ?_
  refine (bind_of_ok (vblocks_ok hc (plain_one hu) open_none)).trans ?_
  refine (bind_of_ok (elems_ok hc x.gd h fun l => rfl)).trans ?_
  refine (bind_of_ok (vstalls_ok hc (plain_one hu) open_none)).trans ?_
  refine (bind_of_ok (bufRoom_ok hc (by decide))).trans ?_
  simp only [vreads_one hu]
  rfl

theorem vscatBody_ok {x : VIdx} {d b : Fin 16} (hc : calm s) (hdrop : s.me.dropped = none) (hd : x.d = .v d) (hb : x.b = .v b)
    (hud : unbound s d) (hub : unbound s b) (h : lanePlaces s x.sp true x.ty (lanesOn s x.gd) (gathEa s x b) at') :
    vscatBody x s = .ok (s.scatter x.ty x.order x.scope (s.me.rv d)
      ((lanesOn s x.gd).map (elemOf (gathEa s x b) (fun _ => 0) at'))) := by
  unfold vscatBody
  rw [hd, hb]
  refine (bind_of_ok (dropCheck_of_none hdrop ..)).trans ?_
  refine (bind_of_ok (vblocks_ok hc (plain_two hub hud) open_none)).trans ?_
  refine (bind_of_ok (vstalls_ok hc (plain_one hub) open_none)).trans ?_
  simp only [vreads_one hub]
  refine (bind_of_ok (elems_ok hc x.gd h fun l => gathAt_eq ..)).trans ?_
  refine (bind_of_ok (vstalls_ok hc (plain_two hub hud) open_none)).trans ?_
  refine (bind_of_ok (bufRoom_ok hc ?_)).trans ?_
  · rw [List.length_map]
    exact length_lanesOn ..
  · simp only [vreads_two hub hud, vadvance_none (plain_two hub hud)]
    rfl

end

/-! ### An entry made of parts (R130) -/

/-- The entry that parts make, as it stands in the buffer. -/
def partsEntry (s : State) (ps : List Part) (o : Order) (sc : Scope) (vas : List Word) (el : Nat) : BufEntry :=
  { id := s.nextId, op := .store, bytes := (entryOf ps).1, mask := (entryOf ps).2, rel := releases o sc, scope := sc
    va := vas.headD 0, el := el, vas := vas, pc := s.me.pc, iw := s.me.iw }

section

variable {s : State} {ps : List Part} (o : Order) (sc : Scope) (vas : List Word) (el : Nat)

theorem pushParts_nil (s : State) : s.pushParts [] o sc vas el = s := rfl

/-- Parts enter the buffer as one entry, and nothing else changes (R130). -/
theorem pushParts_eq (h : ps ≠ []) : Keeps s (s.pushParts ps o sc vas el) ∧
    (s.pushParts ps o sc vas el).nextId = s.nextId + 1 ∧
    (s.pushParts ps o sc vas el).me = { s.me with buf := s.me.buf ++ [partsEntry s ps o sc vas el] } := by
  have hne : ps.isEmpty = false := by simpa using h
  unfold State.pushParts
  simp only [hne, Bool.false_eq_true, if_false]
  exact ⟨.of_mine (pushBuf_mine ..), rfl, me_pushBuf ..⟩

end

/-- A vector store that passes changes its strand's buffer alone. -/
theorem bufferOnly {s u : State} {i : Instr} {len : Nat} {body : State → Res State} {es : List BufEntry}
    (hexec : exec i s = runL len s body) (hbody : body s = .ok u) (hk : Keeps s u) (hme : u.me = { s.me with buf := es }) :
    ∃ t, exec i s = .next t ∧ t.retired = true ∧ Inside s t ∧ SameRegs s.me t.me ∧ t.me.pc = after s len ∧
      t.me.loads = s.me.loads ∧ (t.core s.cur.1).ls = (s.core s.cur.1).ls ∧ t.me.buf = es := by
  have hdone := hk.retire len
  refine ⟨u.retire len, ?_, rfl, ⟨hdone.others, hdone.mem⟩, ?_, ?_, ?_, hdone.core_ls, ?_⟩
  · rw [hexec, runL, hbody]
    rfl
  all_goals rw [State.me_retire, hme]
  · exact sameRegs_of_eq rfl rfl rfl rfl
  all_goals rfl

/-! ### `vst`: one entry -/

/-- The parts of the lanes' elements, in lane order. -/
def laneParts (ty : Ty) (at' : Fin 16 → List Loc) (v : Vec) (ls : List (Fin 16)) : List Part :=
  ls.flatMap fun l => elemParts ty (at' l) (laneBit ty l) v[l]

section

variable {ty : Ty} {at' : Fin 16 → List Loc} {v : Vec} {on : List (Fin 16)}

theorem storeParts_lanes (ea : Fin 16 → Word) :
    storeParts ty v (on.map (elemOf ea (laneBit ty) at')) = (laneParts ty at' v on).foldl addPart [] := by
  rw [storeParts_eq, List.flatMap_map]
  rfl

theorem map_fst_laneParts (h : ∀ l ∈ on, (at' l).length = elemBytes ty) :
    (laneParts ty at' v on).map Prod.fst = on.flatMap at' := by
  rw [laneParts, List.map_flatMap]
  exact List.flatMap_congr fun l hl => elemParts_fst (h l hl) ..

/-- Whole bytes at different places stand one after the other (R130). -/
theorem laneParts_whole (h : ∀ l ∈ on, (at' l).length = elemBytes ty) (hb : 8 ≤ ty.bits) (hnd : (on.flatMap at').Nodup) :
    entryOf ((laneParts ty at' v on).foldl addPart []) =
      (on.flatMap fun l => (at' l).zip (leBytes (ty.bits / 8) v[l].toNat), []) := by
  rw [addParts_of_nodup _ (by rwa [List.nil_append, map_fst_laneParts h]), List.nil_append, ← entryOf_whole, laneParts]
  congr 1
  rw [List.map_flatMap]
  exact List.flatMap_congr fun l _ => elemParts_whole hb ..

theorem bits_eq_four (h : ty.bits < 8) : ty.bits = 4 := by
  revert h
  cases ty <;> decide

/-- Lane `m`'s part of a 4-bit element puts its own bits down, and leaves those of the other lane of the byte (R129). -/
theorem bitField_lanePart (hb : ty.bits < 8) {l m : Fin 16} {p q : Loc} (hm : at' m = [q]) (hsep : q = p → m.val / 2 = l.val / 2)
    (b : Byte) : bitField ((elemParts ty (at' m) (laneBit ty m) v[m]).foldl (Part.onto p) b) (laneBit ty l) ty.bits =
      if m = l ∧ q = p then v[m].toNat % 2 ^ ty.bits else bitField b (laneBit ty l) ty.bits := by
  have hw := bits_eq_four hb
  have hparts : elemParts ty (at' m) (laneBit ty m) v[m] = [(q, BitVec.ofNat 8 (v[m].toNat % 2 ^ ty.bits * 2 ^ laneBit ty m),
      BitVec.ofNat 8 ((2 ^ ty.bits - 1) * 2 ^ laneBit ty m))] := by
    rw [hm, elemParts, if_pos hb]
    rfl
  have hfit : ∀ n : Fin 16, laneBit ty n + ty.bits ≤ 8 := fun n => by rw [laneBit, hw]; omega
  rw [hparts, List.foldl_cons, List.foldl_nil, Part.onto]
  by_cases hq : q = p
  · rw [if_pos hq]
    by_cases hml : m = l
    · subst hml
      rw [if_pos ⟨rfl, hq⟩]
      exact bitField_masked_same (hfit m) ..
    · rw [if_neg fun h => hml h.1]
      have hne : m.val ≠ l.val := fun e => hml (Fin.ext e)
      have hhalf := hsep hq
      refine bitField_masked_other (hfit l) ?_ ..
      rw [laneBit, laneBit, hw]
      omega
  · rw [if_neg hq, if_neg fun h => hq h.2]

/-- After the parts of lanes of which `l` is one, its bits are its element's. -/
theorem bitField_laneParts (hb : ty.bits < 8) {l : Fin 16} {p : Loc} (hl : at' l = [p]) : ∀ (ls : List (Fin 16)) (b : Byte),
    (∀ m ∈ ls, ∃ q, at' m = [q] ∧ (q = p → m.val / 2 = l.val / 2)) →
    l ∈ ls ∨ bitField b (laneBit ty l) ty.bits = v[l].toNat % 2 ^ ty.bits →
    bitField ((laneParts ty at' v ls).foldl (Part.onto p) b) (laneBit ty l) ty.bits = v[l].toNat % 2 ^ ty.bits
  | [], b, _, h => h.resolve_left List.not_mem_nil
  | m :: ls, b, hls, h => by
    obtain ⟨q, hm, hsep⟩ := hls m (.head _)
    rw [laneParts, List.flatMap_cons, List.foldl_append]
    refine bitField_laneParts hb hl ls _ (fun x hx => hls x (.tail _ hx)) ?_
    by_cases hin : l ∈ ls
    · exact .inl hin
    · right
      rw [bitField_lanePart hb hm hsep]
      by_cases hml : m = l
      · subst hml
        rw [if_pos ⟨rfl, List.singleton_inj.mp (hm.symm.trans hl)⟩]
      · rw [if_neg fun e => hml e.1]
        exact h.resolve_left fun hmem => (List.mem_cons.mp hmem).elim (fun e => hml e.symm) hin

end

/-- What the one entry of a vector store holds (R129, R130). -/
theorem partsEntry_lanes {ty : Ty} {at' : Fin 16 → List Loc} {v : Vec} {on : List (Fin 16)}
    (h : ∀ l ∈ on, (at' l).length = elemBytes ty) {ps : List Part} (hps : ps = (laneParts ty at' v on).foldl addPart [])
    {e : BufEntry} (hbytes : e.bytes = (entryOf ps).1) (hmask : e.mask = (entryOf ps).2) :
    (∀ y ∈ e.locs, ∃ l ∈ on, y ∈ at' l) ∧
      (8 ≤ ty.bits → (on.flatMap at').Nodup → e.mask = [] ∧
        e.bytes = on.flatMap fun l => (at' l).zip (leBytes (ty.bits / 8) v[l].toNat)) ∧
      (ty.bits < 8 → (∀ l ∈ on, ∀ m ∈ on, l.val / 2 ≠ m.val / 2 → at' l ≠ at' m) → ∀ l ∈ on, ∀ old : Loc → Byte,
        leNat ((at' l).map fun y => e.over y (old y)) / 2 ^ laneBit ty l % 2 ^ ty.bits = v[l].toNat % 2 ^ ty.bits) := by
  have hlocs : e.locs = ps.map Prod.fst := by rw [BufEntry.locs, hbytes, entryOf, List.map_map]; rfl
  refine ⟨fun y hy => ?_, fun hb hnd => ?_, fun hb hsep l hl old => ?_⟩
  · rw [hlocs, hps, mem_addParts, map_fst_laneParts h] at hy
    exact List.mem_flatMap.mp (hy.resolve_left List.not_mem_nil)
  · rw [hbytes, hmask, hps, laneParts_whole h hb hnd]
    exact ⟨rfl, rfl⟩
  · have hone : ∀ m ∈ on, ∃ q, at' m = [q] := fun m hm => List.length_eq_one_iff.mp (by
      rw [h m hm, elemBytes, bits_eq_four hb]
      rfl)
    obtain ⟨p, hp⟩ := hone l hl
    have hover : e.over p (old p) = (laneParts ty at' v on).foldl (Part.onto p) (old p) := by
      rw [over_entryOf (hps ▸ nodup_addParts _ .nil) hbytes hmask, hps, partsOnto_addParts]
      rfl
    have hfield := bitField_laneParts (v := v) hb hp on (old p) (fun m hm => by
      obtain ⟨q, hq⟩ := hone m hm
      refine ⟨q, hq, fun e => ?_⟩
      by_contra hne
      exact hsep m hm l hl hne (by rw [hq, hp, e])) (.inl hl)
    rw [← hover] at hfield
    rw [hp]
    exact hfield

/-- `vst` puts the joined parts of its lanes' elements into one entry (R128 to R130). -/
theorem exec_vst {x : VMem} {s : State} {at' : Fin 16 → List Loc} {d : Fin 16} (hc : calm s) (hdrop : s.me.dropped = none)
    (hd : x.d = .v d) (hu : unbound s d) (h : lanePlaces s x.sp true x.ty (lanesOn s x.gd) (elemEa s x) at') :
    let ps := (laneParts x.ty at' (s.me.rv d) (lanesOn s x.gd)).foldl addPart []
    ∃ el t, exec (.vst x) s = .next t ∧ t.retired = true ∧ Inside s t ∧ SameRegs s.me t.me ∧ t.me.pc = after s x.disp.len ∧
      t.me.loads = s.me.loads ∧ (t.core s.cur.1).ls = (s.core s.cur.1).ls ∧
      t.me.buf = if ps = [] then [] else [partsEntry s ps x.order x.scope ((lanesOn s x.gd).map (elemEa s x)) el] := by
  intro ps
  have hbody := vstBody_ok hc hdrop hd hu h
  rw [storeParts_lanes, List.map_map] at hbody
  refine ⟨if x.sp then 0 else elemBytes x.ty, ?_⟩
  by_cases hps : ps = []
  · rw [if_pos hps]
    rw [show (laneParts x.ty at' (s.me.rv d) (lanesOn s x.gd)).foldl addPart [] = [] from hps, pushParts_nil] at hbody
    exact bufferOnly rfl hbody (.refl s) (by rw [← hc.1])
  · rw [if_neg hps]
    obtain ⟨hk, -, hme⟩ := pushParts_eq (s := s) x.order x.scope ((lanesOn s x.gd).map (elemEa s x))
      (if x.sp then 0 else elemBytes x.ty) hps
    rw [hc.1, List.nil_append] at hme
    exact bufferOnly rfl hbody hk hme

/-! ### `vscat`: one entry of each lane -/

/-- Four bytes in a row of local store are different (R148). -/
theorem nodup_lsRange (k : Core) (off : Nat) {n : Nat} (hn : n ≤ 4) : (k.lsRange off n).Nodup := by
  refine List.Nodup.map_on (fun i hi j hj hij => ?_) List.nodup_range
  have hwrap : k.wrap (off + i) = k.wrap (off + j) := by
    have haddr : ∀ y, (k.lsLoc y).addr = k.wrap y := fun y => by rw [Core.lsLoc]; split <;> rfl
    rw [← haddr, ← haddr, hij]
  have hi := List.mem_range.mp hi
  have hj := List.mem_range.mp hj
  have hmod : (off + i) % 2 ^ 12 = (off + j) % 2 ^ 12 := by
    have hspan : (2 ^ 12 : Nat) ∣ k.lsSpan := pow_dvd_pow 2 (Nat.le_add_left ..)
    have hred : ∀ y, k.wrap y % 2 ^ 12 = y % 2 ^ 12 := fun y => by
      rw [Core.wrap, Nat.mod_mod_of_dvd _ hspan, Nat.mod_mod_of_dvd _ (by decide)]
    exact (hred _).symm.trans ((congrArg (· % 2 ^ 12) hwrap).trans (hred _))
  omega

theorem nodup_span (l : Loc) (n : Nat) : (l.span n).Nodup :=
  List.Nodup.map (fun i j hij => by simpa using hij) List.nodup_range

/-- The bytes of one element are different (R106, R148). -/
theorem nodup_lanePlaces {s : State} {sp write : Bool} {ty : Ty} {on : List (Fin 16)} {ea : Fin 16 → Word} {at' : Fin 16 → List Loc}
    (h : lanePlaces s sp write ty on ea at') (hb : ty.bits ≤ 32) {l : Fin 16} (hl : l ∈ on) : (at' l).Nodup := by
  cases sp with
  | true =>
    rw [lanePlaces_sp h l]
    exact nodup_lsRange _ _ (by rw [elemBytes]; omega)
  | false =>
    obtain ⟨lf, hlf⟩ := lanePlaces_mem h
    obtain ⟨-, -, -, hat⟩ := hlf l hl
    rw [hat]
    exact nodup_span ..

/-- The entry of element `x.1`, the place `x.2` among those of a scatter (R130). -/
def scatEntry (s : State) (ty : Ty) (o : Order) (sc : Scope) (v : Vec) (x : Elem × Nat) : BufEntry :=
  { id := s.nextId + x.2, op := .store, bytes := x.1.locs.zip (leBytes (ty.bits / 8) v[x.1.lane].toNat), rel := releases o sc
    scope := sc, va := x.1.ea, pc := s.me.pc, iw := s.me.iw, vas := [x.1.ea] }

section

variable {r : State} {ty : Ty} {o : Order} {sc : Scope} {v : Vec}

/-- The whole bytes of one element are its entry. -/
theorem partsEntry_elem (hb : 8 ≤ ty.bits) (s : State) {e : Elem} (hlen : e.locs.length = elemBytes ty) (hnd : e.locs.Nodup) :
    let ps := (elemParts ty e.locs e.bit v[e.lane]).foldl addPart []
    ps ≠ [] ∧ partsEntry s ps o sc [e.ea] 0 = scatEntry s ty o sc v (e, 0) := by
  intro ps
  have hps : ps = elemParts ty e.locs e.bit v[e.lane] :=
    addParts_of_nodup _ (by rwa [List.nil_append, elemParts_fst hlen])
  constructor
  · intro h
    have hnil : e.locs = [] := by rw [← elemParts_fst hlen e.bit v[e.lane], ← hps, h]; rfl
    rw [hnil] at hlen
    exact absurd hlen (elemBytes_pos ty).ne
  · rw [partsEntry, hps, elemParts_whole hb, entryOf_whole]
    rfl

/-- The elements' entries in lane order, from place `k` of the scatter's entries on. -/
theorem scatter_eq (hb : 8 ≤ ty.bits) (es : List Elem) (h : ∀ e ∈ es, e.locs.length = elemBytes ty ∧ e.locs.Nodup) :
    ∀ (s : State) (k : Nat), s.nextId = r.nextId + k → s.me.pc = r.me.pc → s.me.iw = r.me.iw →
      Keeps s (s.scatter ty o sc v es) ∧
      (s.scatter ty o sc v es).me = { s.me with buf := s.me.buf ++ (es.zipIdx k).map (scatEntry r ty o sc v) } := by
  induction es with
  | nil => exact fun s k _ _ _ => ⟨.refl s, by simp [State.scatter]⟩
  | cons e es ih =>
    intro s k hid hpc hiw
    obtain ⟨hlen, hnd⟩ := h e (.head _)
    obtain ⟨hne, hentry⟩ := partsEntry_elem (o := o) (sc := sc) (v := v) hb s hlen hnd
    obtain ⟨hk, hnext, hme⟩ := pushParts_eq (s := s) o sc [e.ea] 0 hne
    obtain ⟨hkeeps, hall⟩ := ih (fun x hx => h x (.tail _ hx)) _ (k + 1) (by rw [hnext]; omega) (by rw [hme, ← hpc])
      (by rw [hme, ← hiw])
    refine ⟨hk.trans hkeeps, ?_⟩
    rw [State.scatter, hall, hme, hentry]
    have hfirst : scatEntry s ty o sc v (e, 0) = scatEntry r ty o sc v (e, k) := by
      simp only [scatEntry, hid, hpc, hiw]
      rfl
    simp [hfirst]

end

theorem vectorStoresRule_holds : vectorStoresRule := by
  refine ⟨fun x s at' d hc _ _ hdrop hd hu h => ?_, fun x s at' d b hc _ hb hb' hdrop hd hxb hu hub h => ?_⟩
  · have hlen : ∀ l ∈ lanesOn s x.gd, (at' l).length = elemBytes x.ty := fun l hl => (lanePlaces_locs h hl).1
    obtain ⟨el, t, hexec, hret, hin, hregs, hpc, hloads, hls, hbuf⟩ := exec_vst hc hdrop hd hu h
    generalize hps : (laneParts x.ty at' (s.me.rv d) (lanesOn s x.gd)).foldl addPart [] = ps at hbuf
    refine ⟨t, hexec, hret, hin, hregs, hpc, hloads, hls, fun hon => ?_, fun hon => ?_⟩
    · have hnil : ps = [] := by rw [← hps, hon]; rfl
      rw [hbuf, if_pos hnil]
    · have hne : ps ≠ [] := by
        obtain ⟨l, hl⟩ := List.exists_mem_of_ne_nil _ hon
        obtain ⟨y, hy⟩ := List.exists_mem_of_length_pos (hlen l hl ▸ elemBytes_pos x.ty)
        have hmem : y ∈ ps.map Prod.fst := by
          rw [← hps, mem_addParts, map_fst_laneParts hlen]
          exact .inr (List.mem_flatMap.mpr ⟨l, hl, hy⟩)
        exact fun e => by rw [e] at hmem; exact List.not_mem_nil hmem
      exact ⟨_, hbuf.trans (if_neg hne), rfl, rfl, rfl, partsEntry_lanes hlen hps.symm rfl rfl⟩
  · have hes : ∀ e ∈ (lanesOn s x.gd).map (elemOf (gathEa s x b) (fun _ => 0) at'),
        e.locs.length = elemBytes x.ty ∧ e.locs.Nodup := fun e he => by
      obtain ⟨l, hl, rfl⟩ := List.mem_map.mp he
      exact ⟨(lanePlaces_locs h hl).1, nodup_lanePlaces h hb' hl⟩
    obtain ⟨hk, hme⟩ := scatter_eq (r := s) (o := x.order) (sc := x.scope) (v := s.me.rv d) hb _ hes s 0 rfl rfl rfl
    rw [hc.1, List.nil_append, List.zipIdx_map, List.map_map] at hme
    exact bufferOnly rfl (vscatBody_ok hc hdrop hd hxb hu hub h) hk hme

/-- Settles O33: the checks pass lane by lane, and each element joins the strand's loads or its store buffer. -/
theorem vectorAccesses : Obligations.VectorAccesses := ⟨vectorLoadsRule_holds, vectorStoresRule_holds⟩

end Sys2Proof.Machine
end
